-- ==== Sys2Proof/Word.lean ====
section
/-! DEFINITION. The words of the Dovrel LRP-460: bytes, two-byte and four-byte numbers, stamps and texts. -/

namespace Sys2Proof

/-- One byte of a frame, or one character code (R207). -/
abbrev Byte := BitVec 8

/-- A two-byte number of a frame: a tag, a slot, an event set (R207). -/
abbrev Half := BitVec 16

/-- A four-byte number: the library clock, a stamp, a wrapping count (R205). -/
abbrev Stamp := BitVec 32

/-- A text: character codes, first character first (R207). -/
abbrev Text := List Byte

/-- The 7-bit codes typed at the panel (R137). -/
abbrev PanelText := List (BitVec 7)

end Sys2Proof
end

