-- ==== Sys2Proof/Syntax.lean ====
section
/-! DEFINITION. The commands of the block: one constructor of `Instr` for each row of spec/opcode_table.json, with the operands
the step of that row carries. -/

namespace Sys2Proof

/-- The two arms; A stands left of B (00_scope section 4). -/
inductive ArmId where
  | armA
  | armB
deriving DecidableEq, Repr

/-- The three framed lines the processor receives bytes on (R192, R193). -/
inductive PortId where
  | system
  | arm (id : ArmId)
deriving DecidableEq, Repr

/-- The three sense lines of a drive (R25). -/
inductive SenseLine where
  | loaded
  | released
  | protect
deriving DecidableEq, Repr

/-- The nine debounced inputs of the Door and Station Monitor (R151); positions are numbered station × 4 + position. -/
inductive RailInput where
  | door
  | presence (p : Fin 8)
deriving DecidableEq, Repr

/-- The two attention outputs (R148). -/
inductive Output where
  | lamp
  | horn
deriving DecidableEq, Repr

/-- The body of a MOUNT, SCRATCH, DEMOUNT or EJECT request, offsets 1 to 21 (section 11.2), each field as its bytes stand. -/
structure RequestFields where
  tag : Half
  serial : Text
  pool : Byte
  drive : Byte
  flags : Byte
  density : Byte
  priority : Byte
  account : Text
deriving DecidableEq, Repr

/-- The fields of a LEG_DONE report after its code (section 11.3). -/
structure LegReport where
  loaded : Byte
  reading : Byte
  serial : Text
deriving DecidableEq, Repr

/-- The fields of a STATUS_REPLY report after its code (section 11.3). -/
structure StatusReport where
  column : Byte
  loaded : Byte
  faultFlag : Byte
  reading : Byte
  serial : Text
deriving DecidableEq, Repr

/-- The commands (spec/opcode_table.json). A frame command is the arrival of that whole frame on the system port; a panel command is
the end of that typed line; an expiry is the end of a running timer. `ticks` is the time since the outstanding leg was handed out. -/
inductive Instr where
  | powerOnReset
  | byteReceived (port : PortId) (byte : Byte) (ticks : Nat)
  | gapTimeout (port : PortId)
  | frameSent
  | armFrameSent (arm : ArmId)
  | mount (f : RequestFields)
  | scratch (f : RequestFields)
  | demount (f : RequestFields)
  | eject (f : RequestFields)
  | cancel (tag : Half)
  | label (drive : Byte) (serial : Text)
  | shortRequest (body : List Byte)
  | unknownFrame (cls : Byte) (body : List Byte)
  | select (table : Byte) (index : Half) (wrap : Byte)
  | readEntries (n : Byte)
  | writeEntry (entry : List Byte)
  | clearTable
  | start
  | quiesce
  | resume
  | linkReset
  | resetTakesHold
  | audit (first last : Half)
  | setClock (value : Stamp)
  | readClock
  | eventMask (mask : Half)
  | eventClear (events : Half)
  | readEvents
  | readRecords (n : Byte)
  | releaseRecords (n : Half)
  | resetCounters (index : Byte)
  | armServiceIn (arm : Byte)
  | armServiceOut (arm : Byte)
  | driveServiceOnline (drive : Byte)
  | driveServiceOffline (drive : Byte)
  | panelCharacter (code : BitVec 7)
  | panelLine (text : PanelText)
  | ack (n : Nat)
  | ackAll
  | list
  | panelQuiesce
  | panelResume
  | manualMountDone (n : Nat)
  | manualMountCancel (n : Nat)
  | ringNeededFit (n : Nat)
  | ringNeededReadonly (n : Nat)
  | ringNeededCancel (n : Nat)
  | labelMismatchAccept (n : Nat)
  | labelMismatchReject (n : Nat)
  | volumeSuspectProceed (n : Nat)
  | volumeSuspectCancel (n : Nat)
  | volumeLostFound (n : Nat)
  | volumeLostCancel (n : Nat)
  | scratchEmptyDone (n : Nat)
  | scratchEmptyCancel (n : Nat)
  | stationUnknownDone (n : Nat)
  | driveCheckDone (n : Nat)
  | driveCheckOffline (n : Nat)
  | armOutDone (n : Nat)
  | armOutKeep (n : Nat)
  | panelLineSent
  | legDone (arm : ArmId) (report : LegReport) (ticks : Nat)
  | legFault (arm : ArmId) (code : Byte) (loaded : Byte)
  | homeDone (arm : ArmId) (column : Byte)
  | statusReply (arm : ArmId) (report : StatusReport)
  | legTimeout (arm : ArmId)
  | homeTimeout (arm : ArmId)
  | statusTimeout (arm : ArmId)
  | lingerExpiry (arm : ArmId)
  | driveRawChange (drive : Fin 16) (line : SenseLine) (level : Bool)
  | loadedRise (drive : Fin 16)
  | loadedFall (drive : Fin 16)
  | releasedRise (drive : Fin 16)
  | releasedFall (drive : Fin 16)
  | protectChange (drive : Fin 16)
  | pulseEnd (drive : Fin 16)
  | loadTimerExpiry (drive : Fin 16)
  | releaseTimerExpiry (drive : Fin 16)
  | labelTimerExpiry (drive : Fin 16)
  | waitTimerExpiry (tag : Half)
  | escalationExpiry (n : Nat)
  | phaseTimerExpiry (output : Output)
  | inputRawChange (input : RailInput) (level : Bool)
  | doorOpening
  | doorClosing
  | presenceRise (p : Fin 8)
  | presenceFall (p : Fin 8)
  | clockSecond
  | unknownRequestKind (body : List Byte)
deriving DecidableEq, Repr

end Sys2Proof
end

