-- ==== Sys2Proof/Config.lean ====
section
/-! DEFINITION. What is fixed for the part: the sizes of its tables and lists, and the cadences. The manual leaves no value free,
so there is no free value here. -/

namespace Sys2Proof.Config

/-- The request queue holds at most 64 requests (R48). -/
def maxRequests : Nat := 64
/-- At most 14 request-related prompts are outstanding (R129). -/
def maxRequestPrompts : Nat := 14
/-- The prompt list holds at most 16 prompts (R125). -/
def maxPrompts : Nat := 16
/-- The receive buffer holds up to 4 whole frames (R193). -/
def maxBuffer : Nat := 4
/-- The answer list holds at most 4 answers (R135). -/
def maxAnswers : Nat := 4
/-- The withdrawal list holds at most 16 numbers (R135). -/
def maxWithdrawals : Nat := 16
/-- The record queue holds up to 256 records (R164). -/
def maxRecords : Nat := 256
/-- The deferred-slot list holds at most 64 slots (R115). -/
def maxDeferred : Nat := 64
/-- The held panel line has up to 40 characters (R137). -/
def maxPanelInput : Nat := 40
/-- A composed panel line has at most 72 characters (R133). -/
def maxPanelLine : Nat := 72
/-- Orders other than RECOVER are created while the pool holds fewer than 28 (R86). -/
def poolRoom : Nat := 28
/-- A RECOVER for a reel on a drive is created while the pool holds fewer than 30 (R86). -/
def poolRoomDriveRecover : Nat := 30
/-- The directory and the slot map have 2,048 places (R1, R4). -/
def slots : Nat := 2048
/-- A rack column has 64 levels (00_scope section 4). -/
def levels : Nat := 64
/-- The account table has 64 entries (R161). -/
def accounts : Nat := 64
/-- How many notices one step may pass on before it leaves the rest to the next (DESIGN CHOICE, log 2). -/
def fuel : Nat := 4096

end Sys2Proof.Config

namespace Sys2Proof

/-- A cadence of the lamp or the horn, times in ticks (R148). -/
inductive Cadence where
  | off
  | steady
  | oneShot (on : Nat)
  | blink (on off : Nat)
deriving DecidableEq, Repr

/-- One item of the settings table (R203). -/
inductive SettingValue where
  | number (n : Nat)
  | cadence (c : Cadence)
deriving DecidableEq, Repr

end Sys2Proof
end

