-- ==== Sys2Proof/WellFormed.lean ====
section
/-! DEFINITION. When a command is well formed: its operands have the lengths that the layouts of chapter 11 give them. -/

namespace Sys2Proof

/-- A serial occupies 6 bytes (R207). -/
def serialLength : Nat := 6
/-- An account code occupies 8 bytes (R207). -/
def codeLength : Nat := 8
/-- The body of a frame has at most 239 bytes (R191). -/
def maxBody : Nat := 239
/-- The REQUEST body of MOUNT, SCRATCH, DEMOUNT and EJECT has 22 bytes (section 11.2). -/
def requestLength : Nat := 22

/-- The fields of a REQUEST body have their lengths (section 11.2). -/
def RequestFields.wf (f : RequestFields) : Bool :=
  f.serial.length == serialLength && f.account.length == codeLength

/-- The REQUEST bodies that are too short for their kind (R194, R208). -/
def shortRequestBody : List Byte → Bool
  | [] => true
  | k :: rest =>
    if k = 6 then rest.length < 7
    else if rest.length < 2 then true
    else if k = 1 ∨ k = 2 ∨ k = 3 ∨ k = 4 then rest.length < 21
    else false

/-- The REQUEST bodies that carry a kind and a tag, and name no known kind (R194). -/
def unknownKindBody : List Byte → Bool
  | [] => false
  | k :: rest => 2 ≤ rest.length && (k == 0 || 6 < k.toNat)

/-- The frames that are answered UNKNOWN: a class the processor does not take, or a CONTROL of no known command (R194). -/
def unknownFrameBody (cls : Byte) (body : List Byte) : Bool :=
  if cls = 1 then false
  else if cls = 3 then (match body with | [] => true | k :: _ => k == 0 || 19 < k.toNat)
  else true

/-- A command is well formed when its operands have the lengths of their layouts. -/
def Instr.wf : Instr → Bool
  | .mount f | .scratch f | .demount f | .eject f => f.wf
  | .label _ serial => serial.length == serialLength
  | .shortRequest body => shortRequestBody body && body.length ≤ maxBody
  | .unknownRequestKind body => unknownKindBody body && body.length ≤ maxBody
  | .unknownFrame cls body => unknownFrameBody cls body && body.length ≤ maxBody
  | .writeEntry entry => entry.length < maxBody
  | .legDone _ report _ => report.serial.length == serialLength
  | .statusReply _ report => report.serial.length == serialLength
  | .powerOnReset | .byteReceived _ _ _ | .gapTimeout _ | .frameSent | .armFrameSent _ | .cancel _ | .select _ _ _
  | .readEntries _ | .clearTable | .start | .quiesce | .resume | .linkReset | .resetTakesHold | .audit _ _ | .setClock _
  | .readClock | .eventMask _ | .eventClear _ | .readEvents | .readRecords _ | .releaseRecords _ | .resetCounters _
  | .armServiceIn _ | .armServiceOut _ | .driveServiceOnline _ | .driveServiceOffline _ | .panelCharacter _ | .panelLine _
  | .ack _ | .ackAll | .list | .panelQuiesce | .panelResume | .manualMountDone _ | .manualMountCancel _ | .ringNeededFit _
  | .ringNeededReadonly _ | .ringNeededCancel _ | .labelMismatchAccept _ | .labelMismatchReject _ | .volumeSuspectProceed _
  | .volumeSuspectCancel _ | .volumeLostFound _ | .volumeLostCancel _ | .scratchEmptyDone _ | .scratchEmptyCancel _
  | .stationUnknownDone _ | .driveCheckDone _ | .driveCheckOffline _ | .armOutDone _ | .armOutKeep _ | .panelLineSent
  | .legFault _ _ _ | .homeDone _ _ | .legTimeout _ | .homeTimeout _ | .statusTimeout _ | .lingerExpiry _
  | .driveRawChange _ _ _ | .loadedRise _ | .loadedFall _ | .releasedRise _ | .releasedFall _ | .protectChange _ | .pulseEnd _
  | .loadTimerExpiry _ | .releaseTimerExpiry _ | .labelTimerExpiry _ | .waitTimerExpiry _ | .escalationExpiry _
  | .phaseTimerExpiry _ | .inputRawChange _ _ | .doorOpening | .doorClosing | .presenceRise _ | .presenceFall _
  | .clockSecond => true

end Sys2Proof
end

