-- ==== Sys2Proof/Machine/Settings.lean ====
section
/-! DEFINITION. The items of the settings table with their defaults (R203, section 11.9) and the default cadence table (R149). -/

namespace Sys2Proof.Machine

/-- The nine prompt kinds in the order of R126; the prompt template map has one item for each. -/
def promptKinds : Nat := 9

/-- Items 0 to 25 of section 11.9: limits, windows, linger, escalation periods. -/
def defaultNumbers : List Nat :=
  [3, 1, 600, 1200, 1800, 3600, 3, 30, 120, 120, 20, 2, 30, 5, 10, 60, 10, 60, 2, 20, 60, 5, 4, 10, 5, 2]

/-- Items 26 to 33: lamp level 0, horn level 0, lamp level 1, and so on (R149). -/
def defaultCadences : List Cadence :=
  [.blink 10 10, .oneShot 10, .blink 5 5, .oneShot 20, .blink 2 2, .blink 10 30, .steady, .steady]

/-- Items 34 to 41: threshold, policies, choices and debounce. -/
def defaultChoices : List Nat := [224, 0, 1, 1, 1, 1, 0, 50]

/-- The 51 items at power-on (R203). -/
def defaultSettings : Vector SettingValue 51 :=
  ⟨⟨defaultNumbers.map .number ++ defaultCadences.map .cadence ++ defaultChoices.map .number
      ++ (List.range promptKinds).map .number⟩, by decide⟩

end Sys2Proof.Machine
end

