-- ==== Sys2Proof/Machine/State.lean ====
section
/-! DEFINITION. The state of the block: what each of its eleven blocks owns (00_scope section 3), the queue of commands, and the
state after power-on reset. Plain data throughout. -/

namespace Sys2Proof.Machine

/-! ### Volume Directory (chapter 1) -/

/-- The location of a volume (R1, R3); a station position is station × 4 + position. -/
inductive Loc where
  | home
  | inArm (arm : ArmId)
  | inDrive (drive : Fin 16)
  | atStation (p : Fin 8)
  | outside
  | missing
  | misplaced (slot : Nat)
deriving DecidableEq, Repr

/-- The use of a volume: PRIVATE, or SCRATCH with its pool (R16). -/
inductive Use where
  | own
  | scratch (pool : Nat)
deriving DecidableEq, Repr

/-- The three recording densities; an absent one is UNSET (R1). -/
inductive Density where
  | d800
  | d1600
  | d6250
deriving DecidableEq, Repr

/-- The ring of a volume (R1). -/
inductive Ring where
  | fitted
  | notFitted
  | unknown
deriving DecidableEq, Repr

/-- A directory entry in use (R1). -/
structure Volume where
  serial : Text
  home : Option Nat
  loc : Loc
  use : Use
  density : Option Density
  ring : Ring
  mounts : Nat
  lastMount : Option Stamp
  errors : Nat
  suspect : Bool
deriving DecidableEq, Repr

/-- A foreign finding at a slot: the serial read, or "unreadable" (R4, R5). -/
inductive Finding where
  | serial (s : Text)
  | unreadable
deriving DecidableEq, Repr

/-- The state of a rack slot (R4). -/
inductive SlotState where
  | free
  | vacant (entry : Nat)
  | occupied (entry : Nat)
  | foreign (f : Finding)
deriving DecidableEq, Repr

/-- A defined entry of the fence table (R17). -/
structure Fence where
  first : Nat
  last : Nat
  armBar : Bool
  mountBar : Bool
  scratchBar : Bool
  enabled : Bool
deriving DecidableEq, Repr

/-- What the Volume Directory owns. Entries in use and findings, each by rising index; an index not listed is free, a slot not listed
has no finding. -/
structure DirBlock where
  entries : List (Nat × Volume)
  findings : List (Nat × Finding)
  fences : Vector (Option Fence) 8
deriving DecidableEq, Repr

/-! ### Drive Interface (chapter 2) -/

/-- The nine states of a drive, in the order of R23. -/
inductive DriveState where
  | offline
  | empty
  | claimed
  | placed
  | loaded
  | unloading
  | released
  | check
  | unmanaged
deriving DecidableEq, Repr

/-- The outcome of an accounting record (R165). -/
inductive RecOutcome where
  | completed
  | failed
  | cancelled
  | reset
deriving DecidableEq, Repr

/-- The levels of the three sense lines of a drive (R25). -/
structure Levels where
  loaded : Bool
  released : Bool
  protect : Bool
deriving DecidableEq, Repr

/-- The six edge enables of a drive (R23, R26). -/
structure Edges where
  loadedRise : Bool
  loadedFall : Bool
  releasedRise : Bool
  releasedFall : Bool
  protectRise : Bool
  protectFall : Bool
deriving DecidableEq, Repr

/-- The densities a drive carries (R23). -/
structure Densities where
  d800 : Bool
  d1600 : Bool
  d6250 : Bool
deriving DecidableEq, Repr

/-- A claim record (R24), with the outcome Mount Service has named for its record (R39) and the mark of a claim detached by LINK
RESET (R39, R47). -/
structure Claim where
  tag : Option Half
  account : Nat
  stamp : Stamp
  reserved : Bool
  write : Bool
  scratch : Bool
  assisted : Bool
  ringHold : Bool
  manual : Option Nat
  named : Option RecOutcome
  detached : Bool
deriving DecidableEq, Repr

/-- A session record (R24). -/
structure Session where
  account : Nat
  loadStamp : Stamp
  write : Bool
  readOnly : Bool
  assisted : Bool
deriving DecidableEq, Repr

/-- Which of the two outputs of a drive is pulsed (R27). -/
inductive PulseKind where
  | load
  | unload
deriving DecidableEq, Repr

/-- A running load timer: its limit and the expiries counted so far (R31). -/
structure LoadTimer where
  limit : Nat
  expiries : Nat
deriving DecidableEq, Repr

/-- The running debounce intervals of a drive's three lines, each with the time it was started with (R25). -/
structure Intervals where
  loaded : Option Nat
  released : Option Nat
  protect : Option Nat
deriving DecidableEq, Repr

/-- A drive entry (R23) with its pulse generator, timers and expected PLACE (R27, R29, R31, R36, R40). -/
structure Drive where
  installed : Bool
  column : Nat
  densities : Densities
  online : Bool
  state : DriveState
  volume : Option Nat
  claim : Option Claim
  session : Option Session
  useSeconds : Stamp
  loadCount : Stamp
  debounce : Nat
  edges : Edges
  sense : Levels
  raw : Levels
  intervals : Intervals
  pulse : Option (PulseKind × Nat)
  loadTimer : Option LoadTimer
  releaseTimer : Option Nat
  labelTimer : Option Nat
  placeExpected : Bool
deriving DecidableEq, Repr

/-- What the Drive Interface owns. -/
structure DriveBlock where
  drives : Vector Drive 16
deriving DecidableEq, Repr

/-! ### Reason codes and replies (sections 11.2 and 11.7) -/

/-- The reason codes of section 11.7. -/
inductive Reason where
  | notStarted
  | quiesced
  | duplicateTag
  | queueFull
  | badField
  | unknownAccount
  | accountClosed
  | unknownVolume
  | fenced
  | inUse
  | missing
  | outside
  | driveUnsuitable
  | notMounted
  | notFound
  | tooLate
  | wrongState
  | busy
  | duplicateSerial
  | slotTaken
  | duplicateCode
  | readOnly
  | endOfTable
  | notSelected
  | timedOut
  | loadFailed
  | armFailed
  | label
  | noLabel
  | ring
  | volumeLost
  | noScratch
  | operatorCancel
  | operatorTimeout
  | promptsFull
  | releasedEarly
deriving DecidableEq, Repr

/-- The body of a REPLY without its tag (section 11.2, R56). -/
inductive Reply where
  | accepted (position : Nat)
  | refused (r : Reason)
  | mounted (drive : Fin 16) (serial : Text) (readOnly : Bool)
  | demounted (drive : Fin 16)
  | ejected (p : Fin 8)
  | cancelled
  | failed (r : Reason)
deriving DecidableEq, Repr

/-! ### Mount Service (chapter 3) -/

/-- The kinds of request that take a queue entry (R49). -/
inductive RequestKind where
  | mount
  | scratch
  | demount
  | eject
deriving DecidableEq, Repr

/-- The states of a request, in the order of section 3.3. -/
inductive ReqState where
  | queued
  | waitVolume
  | waitDrive
  | waitArm
  | moving
  | loading
  | verify
  | prompted
  | releasing
  | returning
  | finished
deriving DecidableEq, Repr

/-- The wait reasons, in the order of R49. -/
inductive WaitReason where
  | drive
  | account
  | records
  | volume
  | arm
  | pool
  | station
deriving DecidableEq, Repr

/-- What a request does when its put-away ends with no pending outcome (R72). `retried` is a return to the state of `waitDrive` by a retry for a
failed order, whose volume may turn MISSING before it (R75). -/
inductive AfterPutAway where
  | waitDrive
  | retried
  | waitArm
  | resolve
deriving DecidableEq, Repr

/-- A live request (R49), with its wait timer (R54), the volume PROCEED was answered for (R71) and the plan of its put-away:
where it goes when it ends, the record outcome, whether the reel goes to a station, and the volume whose recovery it waits for
(R68, R72, R75). -/
structure Request where
  tag : Half
  kind : RequestKind
  fields : RequestFields
  serial : Text
  pool : Nat
  drive : Option (Fin 16)
  write : Bool
  verify : Bool
  density : Option Density
  account : Nat
  priority : Nat
  arrival : Stamp
  retries : Nat
  state : ReqState
  resume : Option ReqState
  volume : Option Nat
  claimed : Option (Fin 16)
  order : Option Nat
  prompt : Option Nat
  reason : Option WaitReason
  pending : Option Reply
  outcome : Option Reply
  timer : Option Nat
  proceeded : Option Nat
  after : Option AfterPutAway
  recOutcome : RecOutcome
  toStation : Bool
  awaitVolume : Option Nat
deriving DecidableEq, Repr

/-- What Mount Service owns. -/
structure MountBlock where
  queue : List Request
deriving DecidableEq, Repr

/-! ### Arm Scheduler (chapter 4) -/

/-- A place: a rack slot, a drive, a station position, an arm's gripper (R3, R87), or a column of the rail (a SCAN's place, R88). -/
inductive Place where
  | slot (n : Nat)
  | drive (d : Fin 16)
  | station (p : Fin 8)
  | arm (a : ArmId)
  | rail (column : Nat)
deriving DecidableEq, Repr

/-- A leg (R87). A TRAVEL or PLACE whose destination is still to be chosen holds none (R92). -/
inductive Leg where
  | travel (column : Option Nat)
  | pick (p : Place)
  | place (p : Option Place)
  | read (slot : Nat)
  | home
deriving DecidableEq, Repr

/-- The kinds of order, in the order of the table of R87; a RECOVER of a drive has a drive as its source. -/
inductive OrderKind where
  | fetch
  | giveBack
  | eject
  | handIn
  | scan
  | recover
deriving DecidableEq, Repr

/-- The states of an order (R87). -/
inductive OrderState where
  | unbound
  | bound
  | running
  | failed
deriving DecidableEq, Repr

/-- What an arm reads from a strip (section 11.3): a serial, no case, or an unreadable strip. -/
inductive Reading where
  | serial (s : Text)
  | noCase
  | unreadable
deriving DecidableEq, Repr

/-- An order of the pool (R87), with whether it has started (R90) and the reading of a reel being put back (R102). -/
structure Order where
  id : Nat
  kind : OrderKind
  source : Option Place
  dest : Option Place
  volume : Option Nat
  tag : Option Half
  bound : Option ArmId
  legs : List Leg
  next : Nat
  state : OrderState
  cut : Bool
  door : Bool
  started : Bool
  putBack : Option Reading
deriving DecidableEq, Repr

/-- The states of an arm, in the order of R84. -/
inductive ArmState where
  | unhomed
  | homing
  | idle
  | running
  | holding
  | statusWait
  | faulted
  | outOfService
  | parked
deriving DecidableEq, Repr

/-- What an arm's gripper holds (R84). -/
inductive Gripper where
  | empty
  | volume (entry : Nat)
  | unknown
deriving DecidableEq, Repr

/-- The causes of a failed order (R100, R102, R111). -/
inductive Cause where
  | shortLeg
  | armReported
  | legTimeout
  | noCase
  | caseMismatch
  | door
deriving DecidableEq, Repr

/-- The item outstanding on an arm port with its supervision window (R85, R100). A leg keeps the volume carried or expected. -/
inductive Outstanding where
  | leg (l : Leg) (volume : Option Nat) (min max : Nat)
  | home (limit : Nat)
  | status (limit : Nat)
deriving DecidableEq, Repr

/-- A pending failure (R103, R111). -/
structure Failure where
  leg : Leg
  volume : Option Nat
  cause : Cause
  door : Bool
deriving DecidableEq, Repr

/-- A move of an arm that belongs to no order: the yield move of R97, the park move of R109. -/
inductive Move where
  | yieldTo (column : Nat)
  | park
deriving DecidableEq, Repr

/-- An arm record (R84), with the marks of R98 (the current leg is an inserted TRAVEL) and R101 (stopped at a door opening and not
homed since), and the reading of a reel whose put-back is outstanding after LINK RESET has removed its order (R11, R113). -/
structure Arm where
  state : ArmState
  column : Nat
  gripper : Gripper
  order : Option Nat
  leg : Option Nat
  outstanding : Option Outstanding
  failure : Option Failure
  failCount : Nat
  linger : Option Nat
  move : Option Move
  leaveMark : Bool
  limitMark : Bool
  lastFault : Option Byte
  stopped : Bool
  inserted : Bool
  putBack : Option Reading
deriving DecidableEq, Repr

/-- A frame for an arm controller (section 11.3). -/
inductive ArmFrame where
  | leg (l : Leg)
  | home
  | status
  | stop
deriving DecidableEq, Repr

/-- A receiver: hunting, or collecting with the bytes taken since the start byte (R192). -/
inductive Rx where
  | hunting
  | collecting (bytes : List Byte)
deriving DecidableEq, Repr

/-- An arm port: its receiver, the frame being sent and the frames waiting (R193). -/
structure ArmPort where
  rx : Rx
  sending : Option ArmFrame
  waiting : List ArmFrame
deriving DecidableEq, Repr

/-- The kinds of a held zone (R94). -/
inductive HoldKind where
  | standing
  | claimed
  | lingering
deriving DecidableEq, Repr

/-- The holder of a zone (R94). -/
structure Holding where
  arm : ArmId
  kind : HoldKind
deriving DecidableEq, Repr

/-- An entry of the claim list, with the column its TRAVEL goes to (R95). -/
structure RailClaim where
  arm : ArmId
  lo : Nat
  hi : Nat
  target : Nat
  stamp : Stamp
deriving DecidableEq, Repr

/-- What the Arm Scheduler owns. -/
structure SchedBlock where
  armA : Arm
  armB : Arm
  portA : ArmPort
  portB : ArmPort
  pool : List Order
  nextId : Nat
  owedRecovers : Vector Bool 16
  zones : Vector (Option Holding) 8
  claims : List RailClaim
deriving DecidableEq, Repr

/-! ### Audit Unit (chapter 5) -/

/-- The states of the audit record (R114). -/
inductive AuditState where
  | idle
  | running
  | stopping
deriving DecidableEq, Repr

/-- The outcome of an audit (R114). -/
inductive AuditOutcome where
  | none
  | complete
  | aborted
deriving DecidableEq, Repr

/-- The five counts an audit reading may raise (R120). -/
inductive AuditCount where
  | matched
  | foundMissing
  | foundForeign
  | foundMisplaced
  | recovered
deriving DecidableEq, Repr

/-- The audit record with the deferred-slot list (R114, R115) and the internal audit held while STOPPING (R117). -/
structure AuditBlock where
  state : AuditState
  range : Option (Nat × Nat)
  deferredPass : Bool
  nextSlot : Option Nat
  scan : Option Nat
  scanOwed : Bool
  matched : Nat
  foundMissing : Nat
  foundForeign : Nat
  foundMisplaced : Nat
  recovered : Nat
  skipped : Nat
  outcome : AuditOutcome
  deferred : List Nat
  held : Bool
deriving DecidableEq, Repr

/-! ### Prompt Unit (chapter 6) -/

/-- The prompt kinds, in the order of R126. -/
inductive PromptKind where
  | manualMount
  | ringNeeded
  | labelMismatch
  | volumeSuspect
  | volumeLost
  | scratchEmpty
  | stationUnknown
  | driveCheck
  | armOut
deriving DecidableEq, Repr

/-- What an equipment prompt names (R126, R130). -/
inductive Equipment where
  | stationUnknown (p : Fin 8)
  | driveCheck (d : Fin 16)
  | armOut (arm : ArmId)
deriving DecidableEq, Repr

/-- The sub-states of a RING_NEEDED prompt (R125). -/
inductive SubState where
  | awaitReply
  | awaitReel
deriving DecidableEq, Repr

/-- An outstanding prompt (R125); its severity is fixed by its kind. -/
structure Prompt where
  number : Nat
  kind : PromptKind
  tag : Option Half
  volume : Option Nat
  drive : Option (Fin 16)
  arm : Option ArmId
  position : Option (Fin 8)
  template : Nat
  issued : Stamp
  level : Nat
  acked : Bool
  timer : Option Nat
  sub : Option SubState
  lineOwed : Bool
deriving DecidableEq, Repr

/-- The words a reply may be (R126). -/
inductive ReplyWord where
  | done
  | cancel
  | fit
  | readonly
  | accept
  | reject
  | proceed
  | found
  | offline
  | keep
deriving DecidableEq, Repr

/-- The answers to typed lines (R135). -/
inductive Answer where
  | accepted
  | noSuchPrompt
  | replyNotValid
  | lineTooLong
  | notUnderstood
deriving DecidableEq, Repr

/-- What the Prompt Unit owns. -/
structure PromptBlock where
  list : List Prompt
  counter : Nat
  owed : List Equipment
  templates : Vector Text 32
  sending : Option Text
  answers : List Answer
  withdrawals : List Nat
  allWithdrawn : Bool
  held : Text
  tooLong : Bool
deriving DecidableEq, Repr

/-! ### Attention Generator (chapter 7) -/

/-- The phase of a cadence unit (R148). -/
inductive Phase where
  | on
  | off
  | ended
deriving DecidableEq, Repr

/-- A cadence unit (R148). -/
structure AttnUnit where
  level : Option Nat
  cadence : Cadence
  phase : Phase
  timer : Option Nat
deriving DecidableEq, Repr

/-- What the Attention Generator owns. -/
structure AttnBlock where
  lamp : AttnUnit
  horn : AttnUnit
deriving DecidableEq, Repr

/-! ### Door and Station Monitor (chapter 7) -/

/-- A station position (R153) with its raw input and debounce interval (R151). -/
structure Station where
  raw : Bool
  presence : Bool
  interval : Option Nat
  volume : Option Nat
  reserved : Option Nat
  awaiting : Option Half
  lifted : Bool
  importOwed : Bool
deriving DecidableEq, Repr

/-- What the Door and Station Monitor owns; the door inputs are high when the door is closed (R152). -/
structure MonitorBlock where
  doorRaw : Bool
  doorClosed : Bool
  doorInterval : Option Nat
  stations : Vector Station 8
deriving DecidableEq, Repr

/-! ### Accounting Unit (chapter 8) -/

/-- An account in use (R161). -/
structure Account where
  code : Text
  closed : Bool
  limit : Nat
  inUse : Nat
  mounts : Stamp
  assisted : Stamp
  scratchIssued : Stamp
  failed : Stamp
  driveSeconds : Stamp
deriving DecidableEq, Repr

/-- An accounting record (R165). -/
structure AcctRecord where
  seq : Half
  account : Nat
  code : Text
  serial : Text
  drive : Fin 16
  tag : Option Half
  claimStamp : Stamp
  loadStamp : Option Stamp
  releaseStamp : Option Stamp
  duration : Stamp
  outcome : RecOutcome
  write : Bool
  readOnly : Bool
  assisted : Bool
  scratch : Bool
deriving DecidableEq, Repr

/-- What the Accounting Unit owns; accounts in use by rising index, an index not listed is free. -/
structure AcctBlock where
  accounts : List (Nat × Account)
  records : List AcctRecord
  reserved : Nat
  nextSeq : Half
deriving DecidableEq, Repr

/-! ### Service Controller (chapter 9) -/

/-- The service states, in the order of the table opening chapter 9. -/
inductive SvcState where
  | starting
  | homing
  | active
  | quiescing
  | quiesced
  | resuming
  | interrupted
deriving DecidableEq, Repr

/-- The Service Controller record (R179). -/
structure SvcBlock where
  state : SvcState
  doorMark : Bool
  owedA : Bool
  owedB : Bool
deriving DecidableEq, Repr

/-! ### System Port (chapter 10) -/

/-- A whole frame received on the system port, its fields taken apart (sections 11.2 and 11.7). -/
inductive SysFrame where
  | request (kind : RequestKind) (f : RequestFields)
  | cancel (tag : Half)
  | label (drive : Byte) (serial : Text)
  | labelShort
  | requestShort (tag : Half)
  | requestUnknown (tag : Half)
  | select (table : Byte) (index : Half) (wrap : Byte)
  | readEntries (n : Byte)
  | writeEntry (entry : List Byte)
  | clearTable
  | start
  | quiesce
  | resume
  | linkReset
  | audit (first last : Half)
  | setClock (value : Stamp)
  | readClock
  | eventMask (mask : Half)
  | eventClear (events : Half)
  | readEvents
  | readRecords (n : Byte)
  | releaseRecords (n : Half)
  | resetCounters (index : Byte)
  | armService (arm : Byte) (out : Byte)
  | driveService (drive : Byte) (out : Byte)
  | controlShort (code : Byte)
  | unknown (echo : Byte)
deriving DecidableEq, Repr

/-- The results of a RESPONSE (section 11.2). -/
inductive Result where
  | done (data : List Byte)
  | refused (r : Reason)
  | unknown
deriving DecidableEq, Repr

/-- A message for the system line, before its summary is set: a REPLY (final or immediate), one part of a RESPONSE, or a NOTICE (R195).
`reset` marks the response of LINK RESET. -/
inductive OutMsg where
  | reply (tag : Half) (r : Reply) (final : Bool)
  | response (part : Nat) (last : Bool) (result : Nat) (code : Byte) (data : List Byte) (reset : Bool)
  | notice
deriving DecidableEq, Repr

/-- A frame on the system line, with the masked summary it took at its hand-out (R195). -/
structure OutFrame where
  msg : OutMsg
  summary : Half
deriving DecidableEq, Repr

/-- A table cursor (R200). -/
structure Cursor where
  index : Nat
  wrap : Bool
deriving DecidableEq, Repr

/-- What the System Port owns. -/
structure PortBlock where
  rx : Rx
  buffer : List SysFrame
  sending : Option OutFrame
  immediate : List OutMsg
  replyOwed : List (Half × Reply)
  resetting : Bool
  flags : Half
  mask : Half
  noticeOwed : Bool
  cursors : Vector Cursor 13
  current : Option (Fin 13)
  settings : Vector SettingValue 51
  clock : Stamp
deriving DecidableEq, Repr

/-! ### What one block tells another inside a step -/

/-- The order-end report (R90), with the leg that failed and the legs not completed (R121). -/
structure OrderEnd where
  id : Nat
  kind : OrderKind
  tag : Option Half
  volume : Option Nat
  source : Option Place
  dest : Option Place
  ok : Bool
  cause : Option Cause
  door : Bool
  leg : Option Leg
  rest : List Leg
deriving DecidableEq, Repr

/-- A notice of one block to another (the rule that names it stands at its use in Settle.lean). `walk` is any walk trigger of R65; `driveEmpty` is
the drive-empty notice that comes after a volume-lost notice (R42), and walks as well. -/
inductive Notice where
  | walk
  | driveEmpty (drive : Fin 16)
  | placed (drive : Fin 16) (tag : Option Half)
  | loaded (drive : Fin 16) (tag : Option Half) (protect : Bool) (refit : Bool)
  | loadedAgain (drive : Fin 16) (tag : Option Half)
  | loadFailed (drive : Fin 16) (tag : Option Half)
  | reelReady (drive : Fin 16) (tag : Option Half)
  | reelTaken (drive : Fin 16) (volume : Option Nat)
  | claimLost (drive : Fin 16) (tag : Option Half)
  | volumeLost (drive : Fin 16) (tag : Option Half)
  | orderStarted (id : Nat)
  | orderEnded (report : OrderEnd)
  | orderRemoved (report : OrderEnd)
  | armFree (arm : ArmId)
  | armLook (arm : ArmId)
  | armGo (arm : ArmId)
  | armHoming (arm : ArmId)
  | armEntered (arm : ArmId)
  | importPicked (id : Nat) (arm : ArmId) (p : Fin 8)
  | importTest (p : Fin 8)
  | importTestAll
  | room
  | recovers
  | scanRead (id : Nat) (slot : Nat) (counts : List AuditCount)
  | scanPassed (id : Nat) (slot : Nat)
  | lostFound (tag : Half)
  | retry
deriving DecidableEq, Repr

/-! ### The whole machine -/

/-- The state of the block: its eleven blocks, the notices of the present step, and the commands waiting. -/
structure State where
  dir : DirBlock
  drv : DriveBlock
  ms : MountBlock
  sch : SchedBlock
  aud : AuditBlock
  pr : PromptBlock
  att : AttnBlock
  mon : MonitorBlock
  acc : AcctBlock
  svc : SvcBlock
  port : PortBlock
  notices : List Notice
  pending : List Instr
deriving DecidableEq, Repr

/-- The machine has no fault: the manual names no command that stops the part. The type is empty, which is safe. -/
inductive Fault where
deriving DecidableEq, Repr

/-- The refusals of the model. -/
inductive Refusal where
  /-- Raised by `exec` alone, for a command whose meaning is not written yet; safe. -/
  | notModelled (mnemonic : String)
deriving DecidableEq, Repr

/-! ### Power-on (every rule that says "at power-on") -/

/-- A vector with a function applied to each place. -/
def mapVec {α β : Type} {n : Nat} (f : α → β) (v : Vector α n) : Vector β n :=
  ⟨⟨v.toList.map f⟩, by simp⟩

/-- A drive entry at power-on (R23), over the raw levels that stand on its lines. -/
def Drive.powerOn (raw : Levels) : Drive where
  installed := false
  column := 0
  densities := ⟨true, true, true⟩
  online := true
  state := .empty
  volume := none
  claim := none
  session := none
  useSeconds := 0
  loadCount := 0
  debounce := 20
  edges := ⟨false, false, false, false, false, false⟩
  sense := ⟨false, false, false⟩
  raw := raw
  intervals := ⟨none, none, none⟩
  pulse := none
  loadTimer := none
  releaseTimer := none
  labelTimer := none
  placeExpected := false

/-- An arm record at power-on (R84). -/
def Arm.powerOn (column : Nat) : Arm where
  state := .unhomed
  column := column
  gripper := .empty
  order := none
  leg := none
  outstanding := none
  failure := none
  failCount := 0
  linger := none
  move := none
  leaveMark := false
  limitMark := false
  lastFault := none
  stopped := false
  inserted := false
  putBack := none

/-- An arm port at power-on (R193). -/
def ArmPort.powerOn : ArmPort := ⟨.hunting, none, []⟩

/-- A station position at power-on: its presence is the raw level, and a position found high owes an import (R153, R154). -/
def Station.powerOn (raw : Bool) : Station := ⟨raw, raw, none, none, none, none, false, raw⟩

/-- A cadence unit at power-on (R148). -/
def AttnUnit.powerOn : AttnUnit := ⟨none, .off, .off, none⟩

/-- The code DEFAULT, padded to 8 characters (R161). -/
def defaultCode : Text := [0x44, 0x45, 0x46, 0x41, 0x55, 0x4C, 0x54, 0x20]

/-- Account 0 at power-on (R161). -/
def Account.default : Account := ⟨defaultCode, false, 16, 0, 0, 0, 0, 0, 0⟩

/-- The event flags at power-on: DOOR_OPEN (position 8) when the door is found open, every other clear (R196). -/
def powerOnFlags (doorClosed : Bool) : Half := if doorClosed then 0 else 0x0100

/-- The part after power-on reset, over the raw levels on its input pins. No notice is owed, whatever the flags (R195). -/
def State.powerOn (drives : Vector Levels 16) (doorClosed : Bool) (presence : Vector Bool 8) (pending : List Instr) : State where
  dir := ⟨[], [], Vector.replicate 8 none⟩
  drv := ⟨mapVec Drive.powerOn drives⟩
  ms := ⟨[]⟩
  sch := {
    armA := Arm.powerOn 0
    armB := Arm.powerOn 31
    portA := ArmPort.powerOn
    portB := ArmPort.powerOn
    pool := []
    nextId := 1
    owedRecovers := Vector.replicate 16 false
    zones := Vector.replicate 8 none
    claims := [] }
  aud := {
    state := .idle
    range := none
    deferredPass := false
    nextSlot := none
    scan := none
    scanOwed := false
    matched := 0
    foundMissing := 0
    foundForeign := 0
    foundMisplaced := 0
    recovered := 0
    skipped := 0
    outcome := .none
    deferred := []
    held := false }
  pr := {
    list := []
    counter := 1
    owed := []
    templates := Vector.replicate 32 []
    sending := none
    answers := []
    withdrawals := []
    allWithdrawn := false
    held := []
    tooLong := false }
  att := ⟨AttnUnit.powerOn, AttnUnit.powerOn⟩
  mon := ⟨doorClosed, doorClosed, none, mapVec Station.powerOn presence⟩
  acc := ⟨[(0, Account.default)], [], 0, 0⟩
  svc := ⟨.starting, false, false, false⟩
  port := {
    rx := .hunting
    buffer := []
    sending := none
    immediate := []
    replyOwed := []
    resetting := false
    flags := powerOnFlags doorClosed
    mask := 0x1FFF
    noticeOwed := false
    cursors := Vector.replicate 13 ⟨0, false⟩
    current := none
    settings := defaultSettings
    clock := 0 }
  notices := []
  pending := pending

/-- The machine right after power-on reset, its drive lines and presence inputs low and its door closed (DESIGN CHOICE, log 1: the
levels on the pins are inputs, which the manual does not give), with no command waiting. -/
def State.reset : State :=
  State.powerOn (Vector.replicate 16 ⟨false, false, false⟩) true (Vector.replicate 8 false) []

end Sys2Proof.Machine
end

