-- ==== Sys2Proof/Machine/Ops.lean ====
section
/-! DEFINITION. The named operations over the tables, lists and records of the state: sparse tables in their canonical form, one
accessor and one update for each kind of record, the settings by name, and the notices of a step. -/

namespace Sys2Proof.Machine

/-! ### Sparse tables: pairs by strictly rising index, a place not listed is free -/

/-- The entry at an index. -/
def lookup {α : Type} (k : Nat) : List (Nat × α) → Option α
  | [] => none
  | (j, v) :: rest => if j = k then some v else lookup k rest

/-- The table with an entry written at an index, the indexes still rising. -/
def insertAt {α : Type} (k : Nat) (v : α) : List (Nat × α) → List (Nat × α)
  | [] => [(k, v)]
  | (j, w) :: rest =>
    if k < j then (k, v) :: (j, w) :: rest
    else if k = j then (k, v) :: rest
    else (j, w) :: insertAt k v rest

/-- The table with the place at an index free. -/
def eraseAt {α : Type} (k : Nat) : List (Nat × α) → List (Nat × α)
  | [] => []
  | (j, w) :: rest => if j = k then rest else (j, w) :: eraseAt k rest

/-- The canonical form: indexes strictly rising. -/
abbrev Canonical {α : Type} (t : List (Nat × α)) : Prop := t.Pairwise (fun x y => x.1 < y.1)

/-! ### Notices -/

/-- Adds a notice to those of the present step; one that waits already covers it. -/
def State.notify (s : State) (n : Notice) : State :=
  if s.notices.contains n then s else { s with notices := s.notices ++ [n] }

/-! ### Settings (R203), by the index of section 11.9 -/

/-- The number a settings item holds. -/
def State.setting (s : State) (i : Nat) : Nat :=
  match s.port.settings[i]? with
  | some (.number n) => n
  | _ => 0

/-- The cadence a settings item holds. -/
def State.cadenceItem (s : State) (i : Nat) : Cadence :=
  match s.port.settings[i]? with
  | some (.cadence c) => c
  | _ => .off

def State.armFailureLimit (s : State) : Nat := s.setting 0
def State.requestRetries (s : State) : Nat := s.setting 1
def State.waitLimit (s : State) (priority : Nat) : Nat := s.setting (2 + priority)
def State.volumeErrorLimit (s : State) : Nat := s.setting 6
def State.loadLimit (s : State) : Nat := s.setting 7
def State.releaseLimit (s : State) : Nat := s.setting 8
def State.labelLimit (s : State) : Nat := s.setting 9
def State.pulseWidth (s : State) : Nat := s.setting 10
def State.homeLimit (s : State) : Nat := s.setting 20
def State.statusLimit (s : State) : Nat := s.setting 21
def State.lingerSetting (s : State) : Nat := s.setting 22
/-- The escalation period of a severity, 1 to 3, in minutes. -/
def State.escalationPeriod (s : State) (severity : Nat) : Nat := s.setting (22 + severity)
def State.recordsHighThreshold (s : State) : Nat := s.setting 34
def State.refuseUnknownAccount (s : State) : Bool := s.setting 35 == 1
def State.autoReturn (s : State) : Bool := s.setting 36 == 1
def State.auditAtStart (s : State) : Bool := s.setting 37 == 1
def State.auditAfterDoor (s : State) : Bool := s.setting 38 == 1
def State.stationAutoImport (s : State) : Bool := s.setting 39 == 1
/-- The drive choice is NEAREST_LEAST_USED, not LEAST_USED (R62). -/
def State.preferNearest (s : State) : Bool := s.setting 40 == 0
def State.stationDebounce (s : State) : Nat := s.setting 41

/-! ### Records by name -/

def State.vol? (s : State) (e : Nat) : Option Volume := lookup e s.dir.entries

def State.setVol (s : State) (e : Nat) (v : Volume) : State :=
  { s with dir := { s.dir with entries := insertAt e v s.dir.entries } }

def State.drive (s : State) (d : Fin 16) : Drive := s.drv.drives[d]

def State.setDrive (s : State) (d : Fin 16) (x : Drive) : State :=
  { s with drv := { s.drv with drives := s.drv.drives.set d x } }

def State.updDrive (s : State) (d : Fin 16) (f : Drive → Drive) : State := s.setDrive d (f (s.drive d))

def State.station (s : State) (p : Fin 8) : Station := s.mon.stations[p]

def State.setStation (s : State) (p : Fin 8) (x : Station) : State :=
  { s with mon := { s.mon with stations := s.mon.stations.set p x } }

def State.updStation (s : State) (p : Fin 8) (f : Station → Station) : State := s.setStation p (f (s.station p))

/-- A change of every station position. -/
def State.mapStations (s : State) (f : Station → Station) : State :=
  { s with mon := { s.mon with stations := mapVec f s.mon.stations } }

def State.arm (s : State) : ArmId → Arm
  | .armA => s.sch.armA
  | .armB => s.sch.armB

def State.setArm (s : State) (a : ArmId) (x : Arm) : State :=
  match a with
  | .armA => { s with sch := { s.sch with armA := x } }
  | .armB => { s with sch := { s.sch with armB := x } }

def State.updArm (s : State) (a : ArmId) (f : Arm → Arm) : State := s.setArm a (f (s.arm a))

def State.armPort (s : State) : ArmId → ArmPort
  | .armA => s.sch.portA
  | .armB => s.sch.portB

def State.setArmPort (s : State) (a : ArmId) (x : ArmPort) : State :=
  match a with
  | .armA => { s with sch := { s.sch with portA := x } }
  | .armB => { s with sch := { s.sch with portB := x } }

/-- The other arm. -/
def otherArm : ArmId → ArmId
  | .armA => .armB
  | .armB => .armA

def State.order? (s : State) (id : Nat) : Option Order := s.sch.pool.find? (fun o => o.id == id)

def State.updOrder (s : State) (id : Nat) (f : Order → Order) : State :=
  { s with sch := { s.sch with pool := s.sch.pool.map (fun o => if o.id = id then f o else o) } }

def State.dropOrder (s : State) (id : Nat) : State :=
  { s with sch := { s.sch with pool := s.sch.pool.filter (fun o => o.id != id) } }

def State.request? (s : State) (tag : Half) : Option Request := s.ms.queue.find? (fun r => r.tag == tag)

def State.updRequest (s : State) (tag : Half) (f : Request → Request) : State :=
  { s with ms := { s.ms with queue := s.ms.queue.map (fun r => if r.tag = tag then f r else r) } }

def State.prompt? (s : State) (n : Nat) : Option Prompt := s.pr.list.find? (fun p => p.number == n)

def State.updPrompt (s : State) (n : Nat) (f : Prompt → Prompt) : State :=
  { s with pr := { s.pr with list := s.pr.list.map (fun p => if p.number = n then f p else p) } }

def State.account? (s : State) (i : Nat) : Option Account := lookup i s.acc.accounts

def State.setAccount (s : State) (i : Nat) (x : Account) : State :=
  { s with acc := { s.acc with accounts := insertAt i x s.acc.accounts } }

def State.updAccount (s : State) (i : Nat) (f : Account → Account) : State :=
  match s.account? i with
  | some x => s.setAccount i (f x)
  | none => s

/-- The drives, 0 to 15. -/
def allDrives : List (Fin 16) := List.finRange 16

/-- The station positions, 0 to 7. -/
def allPositions : List (Fin 8) := List.finRange 8

/-- The arms, A before B. -/
def allArms : List ArmId := [.armA, .armB]

/-- The service state. -/
def State.service (s : State) : SvcState := s.svc.state

/-- The library clock. -/
def State.clock (s : State) : Stamp := s.port.clock

/-! ### Geometry (00_scope section 4) -/

/-- The zone of a column. -/
def zoneOf (column : Nat) : Nat := column / 4

/-- The column of a rack slot. -/
def slotColumn (slot : Nat) : Nat := slot / Config.levels

/-- The level of a rack slot. -/
def slotLevel (slot : Nat) : Nat := slot % Config.levels

/-- The station of a position index. -/
def stationOf (p : Fin 8) : Nat := p.val / 4

/-- Station 0 stands at column 0, station 1 at column 31. -/
def stationColumn (p : Fin 8) : Nat := if stationOf p = 0 then 0 else 31

/-- The column of a place. -/
def State.placeColumn (s : State) : Place → Nat
  | .slot n => slotColumn n
  | .drive d => (s.drive d).column
  | .station p => stationColumn p
  | .arm a => (s.arm a).column
  | .rail c => c

/-- The zone of a place (R61). -/
def State.placeZone (s : State) (p : Place) : Nat := zoneOf (s.placeColumn p)

/-- Arm A reaches zones 0 to 6, arm B zones 1 to 7 (R61). -/
def armReaches (a : ArmId) (zone : Nat) : Bool :=
  match a with
  | .armA => zone ≤ 6
  | .armB => 1 ≤ zone && zone ≤ 7

/-- The end column of an arm: A column 0, B column 31 (R109). -/
def armEnd : ArmId → Nat
  | .armA => 0
  | .armB => 31

/-- An arm is in service in every state other than UNHOMED and OUT_OF_SERVICE (R61). -/
def State.inService (s : State) (a : ArmId) : Bool :=
  (s.arm a).state != .unhomed && (s.arm a).state != .outOfService

/-- One place reaches another when a single arm in service reaches both their zones (R61). -/
def State.placesReach (s : State) (p q : Place) : Bool :=
  allArms.any (fun a => s.inService a && armReaches a (s.placeZone p) && armReaches a (s.placeZone q))

end Sys2Proof.Machine
end

