-- ==== Sys2Proof/Machine/Flags.lean ====
section
/-! DEFINITION. The event set: raising plain events, the condition-bound events, the mask, the masked summary and the notice-owed
mark (section 10.4). -/

namespace Sys2Proof.Machine

/-- The plain events (section 10.4). -/
inductive Event where
  | service
  | auditDone
  | promptRaised
  | promptClosed
  | driveSense
  | station
  | linkError
  | lateCompletion
  | volumeLost
deriving DecidableEq, Repr

/-- The summary position of a plain event (section 11.8). -/
def Event.position : Event → Nat
  | .service => 0
  | .auditDone => 1
  | .promptRaised => 2
  | .promptClosed => 3
  | .driveSense => 6
  | .station => 9
  | .linkError => 10
  | .lateCompletion => 11
  | .volumeLost => 12

/-- The positions of the plain events. -/
def plainPositions : Half := 0x1E4F

/-- The positions of the condition-bound events: ARM_ATTENTION 4, DRIVE_ATTENTION 5, RECORDS_HIGH 7, DOOR_OPEN 8. -/
def conditionPositions : Half := 0x01B0

/-- The thirteen positions that name an event (R197). -/
def eventPositions : Half := 0x1FFF

/-- The value with one position set. -/
def positionBit (n : Nat) : Half := BitVec.ofNat 16 (2 ^ n)

/-- The masked event summary (R197). -/
def State.summary (s : State) : Half := s.port.flags &&& s.port.mask

/-- New flags and mask; the notice-owed mark is set when the masked summary goes from empty to non-empty and cleared when it becomes
empty (R197). -/
def State.setEvents (s : State) (flags mask : Half) : State :=
  let owed := if flags &&& mask = 0 then false else if s.summary = 0 then true else s.port.noticeOwed
  { s with port := { s.port with flags := flags, mask := mask, noticeOwed := owed } }

/-- Some arm is FAULTED or OUT_OF_SERVICE (R110). -/
def State.armAttention (s : State) : Bool :=
  allArms.any (fun a => (s.arm a).state == .faulted || (s.arm a).state == .outOfService)

/-- Some drive is in CHECK or UNMANAGED (R41, R44). -/
def State.driveAttention (s : State) : Bool :=
  allDrives.any (fun d => (s.drive d).state == .check || (s.drive d).state == .unmanaged)

/-- Records held plus records reserved (R163). -/
def State.recordSum (s : State) : Nat := s.acc.records.length + s.acc.reserved

/-- Records held plus reserved are at or above the threshold (R173). -/
def State.recordsHigh (s : State) : Bool := s.recordsHighThreshold ≤ s.recordSum

/-- The condition-bound flags as their conditions give them (R196). -/
def State.conditionFlags (s : State) : Half :=
  (if s.armAttention then positionBit 4 else 0) ||| (if s.driveAttention then positionBit 5 else 0) |||
  (if s.recordsHigh then positionBit 7 else 0) ||| (if s.mon.doorClosed then 0 else positionBit 8)

/-- The condition-bound flags follow their conditions (R196). -/
def State.refreshConditions (s : State) : State :=
  s.setEvents ((s.port.flags &&& plainPositions) ||| s.conditionFlags) s.port.mask

/-- Raises a plain event, the condition-bound flags following their conditions first (R196). -/
def State.raise (s : State) (e : Event) : State :=
  let s := s.refreshConditions
  s.setEvents (s.port.flags ||| positionBit e.position) s.port.mask

/-- EVENT CLEAR: the named plain flags are cleared, the condition-bound flags are left (R198). -/
def State.clearEvents (s : State) (events : Half) : State :=
  s.setEvents (s.port.flags &&& ~~~(events &&& plainPositions)) s.port.mask

/-- EVENT MASK: the enables take the mask's positions, those that name no event taken as 0 (R198). -/
def State.setMask (s : State) (mask : Half) : State := s.setEvents s.port.flags (mask &&& eventPositions)

end Sys2Proof.Machine
end

