-- ==== Sys2Proof/Machine/Operands.lean ====
section
/-! DEFINITION. The coding of fields (R207, R208): numbers high byte first, padded texts, absent values, flag bytes, and the tests of
characters and codes. -/

namespace Sys2Proof.Machine

/-! ### Numbers -/

/-- A two-byte number, high byte first. -/
def bytesOfHalf (h : Half) : List Byte := [h.extractLsb' 8 8, h.extractLsb' 0 8]

/-- A four-byte number, high byte first. -/
def bytesOfStamp (x : Stamp) : List Byte :=
  [x.extractLsb' 24 8, x.extractLsb' 16 8, x.extractLsb' 8 8, x.extractLsb' 0 8]

/-- The two-byte number of two bytes. -/
def halfOfBytes (hi lo : Byte) : Half := hi ++ lo

/-- The four-byte number of four bytes. -/
def stampOfBytes (b3 b2 b1 b0 : Byte) : Stamp := b3 ++ b2 ++ b1 ++ b0

/-- One byte of a count. -/
def byte (n : Nat) : Byte := BitVec.ofNat 8 n

/-- Two bytes of a count. -/
def half (n : Nat) : List Byte := bytesOfHalf (BitVec.ofNat 16 n)

/-- An absent one-byte field reads FF (R207). -/
def absentByte : Byte := 0xFF

/-- A one-byte field that may be absent. -/
def optByte : Option Nat → Byte
  | some n => byte n
  | none => absentByte

/-- A two-byte field that may be absent reads FFFF when it is. -/
def optHalf : Option Nat → List Byte
  | some n => half n
  | none => [0xFF, 0xFF]

/-- A tag is absent when 0. -/
def optTag : Option Half → List Byte
  | some t => bytesOfHalf t
  | none => [0, 0]

/-- An order id or a prompt number is absent when 0. -/
def optId : Option Nat → Byte
  | some n => byte n
  | none => 0

/-- The four bytes of a stamp that may be absent read 0 when it is. -/
def optStamp : Option Stamp → List Byte
  | some x => bytesOfStamp x
  | none => [0, 0, 0, 0]

/-- Yes or no, coded 1 and 0. -/
def flagByte (b : Bool) : Byte := if b then 1 else 0

/-- A flags byte: its marks from bit 0 upward. -/
def flagsByte (marks : List Bool) : Byte :=
  marks.foldr (fun m acc => (acc <<< 1) ||| flagByte m) 0

/-- A yes or no byte received: 1 and 0, any other value is out of range (R208; DEDUCED, log 6). -/
def yesNo (b : Byte) : Option Bool := if b = 1 then some true else if b = 0 then some false else none

/-! ### Characters -/

def space : Byte := 0x20

/-- A to Z and 0 to 9. -/
def isCodeChar (b : Byte) : Bool := (0x41 ≤ b && b ≤ 0x5A) || (0x30 ≤ b && b ≤ 0x39)

/-- A text without its trailing spaces. -/
def trimRight (t : Text) : Text := (t.reverse.dropWhile (· == space)).reverse

/-- A text padded with spaces to a length. -/
def padTo (n : Nat) (t : Text) : Text := (t ++ List.replicate (n - t.length) space).take n

/-- A padded serial or code: 1 or more characters A to Z and 0 to 9, then spaces only (R2, R208). -/
def isPaddedName (t : Text) : Bool := !(trimRight t).isEmpty && (trimRight t).all isCodeChar

/-- Every character is a space. -/
def isBlank (t : Text) : Bool := t.all (· == space)

/-- The digits of a number, no leading zeros. -/
def decimal (n : Nat) : Text := (Nat.toDigits 10 n).map (fun c => byte c.toNat)

/-- A number below 100 in two digits. -/
def twoDigits (n : Nat) : Text := [byte (0x30 + n / 10 % 10), byte (0x30 + n % 10)]

/-! ### Codes of enumerations (R207, section 11) -/

def Reason.code : Reason → Nat
  | .notStarted => 1
  | .quiesced => 2
  | .duplicateTag => 3
  | .queueFull => 4
  | .badField => 5
  | .unknownAccount => 6
  | .accountClosed => 7
  | .unknownVolume => 8
  | .fenced => 9
  | .inUse => 10
  | .missing => 11
  | .outside => 12
  | .driveUnsuitable => 13
  | .notMounted => 14
  | .notFound => 15
  | .tooLate => 16
  | .wrongState => 17
  | .busy => 18
  | .duplicateSerial => 19
  | .slotTaken => 20
  | .duplicateCode => 21
  | .readOnly => 22
  | .endOfTable => 23
  | .notSelected => 24
  | .timedOut => 32
  | .loadFailed => 33
  | .armFailed => 34
  | .label => 35
  | .noLabel => 36
  | .ring => 37
  | .volumeLost => 38
  | .noScratch => 39
  | .operatorCancel => 40
  | .operatorTimeout => 41
  | .promptsFull => 42
  | .releasedEarly => 43

def DriveState.code : DriveState → Nat
  | .offline => 0
  | .empty => 1
  | .claimed => 2
  | .placed => 3
  | .loaded => 4
  | .unloading => 5
  | .released => 6
  | .check => 7
  | .unmanaged => 8

def ReqState.code : ReqState → Nat
  | .queued => 0
  | .waitVolume => 1
  | .waitDrive => 2
  | .waitArm => 3
  | .moving => 4
  | .loading => 5
  | .verify => 6
  | .prompted => 7
  | .releasing => 8
  | .returning => 9
  | .finished => 10

def RequestKind.code : RequestKind → Nat
  | .mount => 1
  | .scratch => 2
  | .demount => 3
  | .eject => 4

def WaitReason.code : WaitReason → Nat
  | .drive => 0
  | .account => 1
  | .records => 2
  | .volume => 3
  | .arm => 4
  | .pool => 5
  | .station => 6

def OrderKind.code : OrderKind → Nat
  | .fetch => 0
  | .giveBack => 1
  | .eject => 2
  | .handIn => 3
  | .scan => 4
  | .recover => 5

def OrderState.code : OrderState → Nat
  | .unbound => 0
  | .bound => 1
  | .running => 2
  | .failed => 3

def ArmState.code : ArmState → Nat
  | .unhomed => 0
  | .homing => 1
  | .idle => 2
  | .running => 3
  | .holding => 4
  | .statusWait => 5
  | .faulted => 6
  | .outOfService => 7
  | .parked => 8

def PromptKind.code : PromptKind → Nat
  | .manualMount => 0
  | .ringNeeded => 1
  | .labelMismatch => 2
  | .volumeSuspect => 3
  | .volumeLost => 4
  | .scratchEmpty => 5
  | .stationUnknown => 6
  | .driveCheck => 7
  | .armOut => 8

def SvcState.code : SvcState → Nat
  | .starting => 0
  | .homing => 1
  | .active => 2
  | .quiescing => 3
  | .quiesced => 4
  | .resuming => 5
  | .interrupted => 6

def AuditState.code : AuditState → Nat
  | .idle => 0
  | .running => 1
  | .stopping => 2

def AuditOutcome.code : AuditOutcome → Nat
  | .none => 0
  | .complete => 1
  | .aborted => 2

def RecOutcome.code : RecOutcome → Nat
  | .completed => 0
  | .failed => 1
  | .cancelled => 2
  | .reset => 3

def armCode : ArmId → Nat
  | .armA => 0
  | .armB => 1

def Ring.code : Ring → Nat
  | .fitted => 0
  | .notFitted => 1
  | .unknown => 2

/-- A density, UNSET or absent coded 0 (section 11.2, 11.4). -/
def densityCode : Option Density → Nat
  | none => 0
  | some .d800 => 1
  | some .d1600 => 2
  | some .d6250 => 3

/-- A density received: none when the byte is out of range. -/
def densityOfByte (b : Byte) : Option (Option Density) :=
  if b = 0 then some none
  else if b = 1 then some (some .d800)
  else if b = 2 then some (some .d1600)
  else if b = 3 then some (some .d6250)
  else none

/-- A drive number received: 0 to 15. -/
def driveOfByte (b : Byte) : Option (Fin 16) := if h : b.toNat < 16 then some ⟨b.toNat, h⟩ else none

/-- An arm received: 0 A, 1 B. -/
def armOfByte (b : Byte) : Option ArmId := if b = 0 then some .armA else if b = 1 then some .armB else none

def Reply.code : Reply → Nat
  | .accepted _ => 1
  | .refused _ => 2
  | .mounted _ _ _ => 3
  | .demounted _ => 4
  | .ejected _ => 5
  | .cancelled => 6
  | .failed _ => 7

/-- The reason of a FAILED outcome. -/
def Reply.reason? : Reply → Option Reason
  | .failed r | .refused r => some r
  | .accepted _ | .mounted _ _ _ | .demounted _ | .ejected _ | .cancelled => none

end Sys2Proof.Machine
end

