-- ==== Sys2Proof/Machine/Directory.lean ====
section
/-! DEFINITION. The Volume Directory: serials, places, the slot map, the changes that legs, drives and STATUS reports make to
locations and findings, error counts, fences and scratch candidates (chapter 1). -/

namespace Sys2Proof.Machine

/-! ### Serials and homes (R2, R4) -/

/-- The entry in use whose serial equals a padded serial (R2). -/
def State.entryOf (s : State) (serial : Text) : Option Nat :=
  (s.dir.entries.find? (fun e => e.2.serial == serial)).map (·.1)

/-- The entry in use whose home slot is a slot (R4). -/
def State.homeOwner (s : State) (slot : Nat) : Option Nat :=
  (s.dir.entries.find? (fun e => e.2.home == some slot)).map (·.1)

/-- The entry a reading names; "unreadable" and "no case" match none (R2). -/
def State.readEntry (s : State) : Reading → Option Nat
  | .serial t => s.entryOf t
  | .noCase | .unreadable => none

/-- The serial of an entry in use. -/
def State.serialOf (s : State) (e : Nat) : Option Text := (s.vol? e).map (·.serial)

/-- Whether a reading is the serial of a volume. -/
def State.reads (s : State) (r : Reading) (e : Nat) : Bool :=
  match r with
  | .serial t => s.serialOf e == some t
  | .noCase | .unreadable => false

/-! ### The slot map (R4, R5) -/

def State.finding? (s : State) (slot : Nat) : Option Finding := lookup slot s.dir.findings

def State.setFinding (s : State) (slot : Nat) (f : Finding) : State :=
  { s with dir := { s.dir with findings := insertAt slot f s.dir.findings } }

def State.clearFinding (s : State) (slot : Nat) : State :=
  { s with dir := { s.dir with findings := eraseAt slot s.dir.findings } }

/-- The state of a slot, which the directory and the findings determine (R4). -/
def State.slotState (s : State) (slot : Nat) : SlotState :=
  match s.finding? slot with
  | some f => .foreign f
  | none =>
    match s.homeOwner slot with
    | none => .free
    | some e => if (s.vol? e).any (fun v => v.loc == .home) then .occupied e else .vacant e

/-- Whether a finding names a volume: it records the volume's serial (R5). -/
def State.findingNames (s : State) (slot : Nat) (e : Nat) : Bool :=
  match s.finding? slot with
  | some (.serial t) => s.serialOf e == some t
  | some .unreadable | none => false

/-- The home slot of a volume is VACANT for it (R7). -/
def State.homeVacant (s : State) (e : Nat) : Bool :=
  match (s.vol? e).bind (·.home) with
  | some h => s.slotState h == .vacant e
  | none => false

/-- The place of a volume (R3). -/
def Volume.place (v : Volume) : Option Place :=
  match v.loc with
  | .home => v.home.map .slot
  | .inArm a => some (.arm a)
  | .inDrive d => some (.drive d)
  | .atStation p => some (.station p)
  | .misplaced slot => some (.slot slot)
  | .outside | .missing => none

def State.placeOfVolume (s : State) (e : Nat) : Option Place := (s.vol? e).bind Volume.place

/-! ### Locations -/

/-- The finding of a MISPLACED volume is cleared when the volume is recorded at another place; MISSING and OUTSIDE are no place (R5). -/
def State.leaveMisplaced (s : State) (e : Nat) (v : Volume) (dest : Loc) : State :=
  match v.loc with
  | .misplaced slot =>
    if dest = .missing ∨ dest = .outside ∨ dest = .misplaced slot then s
    else if s.findingNames slot e then s.clearFinding slot else s
  | .home | .inArm _ | .inDrive _ | .atStation _ | .outside | .missing => s

/-- A gripper is recorded as holding something. -/
def State.nameGripper (s : State) (a : ArmId) (g : Gripper) : State := s.updArm a (fun x => { x with gripper := g })

def State.clearStationVolume (s : State) (p : Fin 8) : State := s.updStation p (fun x => { x with volume := none })

/-- What names a volume where it was names it no more: a gripper, which then holds an unknown reel, a drive or a position (R6, R8, R9; of
the gripper, DESIGN CHOICE, log 50). -/
def State.unhold (s : State) (e : Nat) (was : Loc) : State :=
  match was with
  | .inArm a => if (s.arm a).gripper = .volume e then s.nameGripper a .unknown else s
  | .inDrive d => if (s.drive d).volume = some e then s.updDrive d (fun x => { x with volume := none }) else s
  | .atStation p => if (s.station p).volume = some e then s.clearStationVolume p else s
  | .home | .outside | .missing | .misplaced _ => s

/-- A volume's location changes: what named it at its old place names it no more (R6, R8, R9), its old finding goes (R5), and a home slot
it returns to is OCCUPIED (R4). -/
def State.relocate (s : State) (e : Nat) (dest : Loc) : State :=
  match s.vol? e with
  | none => s
  | some v =>
    let s := if v.loc = dest then s else (s.leaveMisplaced e v dest).unhold e v.loc
    let s := match dest, v.home with
      | .home, some h => s.clearFinding h
      | _, _ => s
    s.setVol e { v with loc := dest }

/-- A volume becomes HOME, and Mount Service has the volume-reached-HOME notice (R7). -/
def State.reachHome (s : State) (e : Nat) : State := (s.relocate e .home).notify .walk

/-- A volume becomes MISSING and VOLUME_LOST is raised (R14). -/
def State.makeMissing (s : State) (e : Nat) : State :=
  if (s.vol? e).any (fun v => v.loc != .missing) then (s.relocate e .missing).raise .volumeLost else s

/-- A volume's error count rises; at or above the limit the suspect mark is set (R15). -/
def State.raiseErrors (s : State) (e : Nat) : State :=
  match s.vol? e with
  | none => s
  | some v =>
    let count := min 15 (v.errors + 1)
    s.setVol e { v with errors := count, suspect := v.suspect || s.volumeErrorLimit ≤ count }

/-! ### Grippers, drives and stations name volumes in step with locations (R6, R8, R9) -/

/-- The volume a gripper names. -/
def Gripper.volume? : Gripper → Option Nat
  | .volume e => some e
  | .empty | .unknown => none

/-- A volume that no rule has recorded elsewhere when the record of it at its place ends is MISSING (DESIGN CHOICE, log 50). -/
def State.loseFrom (s : State) (e : Nat) (place : Loc) : State :=
  if (s.vol? e).any (fun v => v.loc == place) then s.makeMissing e else s

/-- A gripper holds no known volume any more, EMPTY or an unknown reel. -/
def State.setGripper (s : State) (a : ArmId) (g : Gripper) : State :=
  match (s.arm a).gripper with
  | .volume e => (s.loseFrom e (.inArm a)).nameGripper a g
  | .empty | .unknown => s.nameGripper a g

/-- A volume is taken into an arm (R6). -/
def State.takeInArm (s : State) (a : ArmId) (e : Nat) : State :=
  match s.vol? e with
  | none => s.setGripper a .unknown
  | some _ =>
    let s := if (s.arm a).gripper = .volume e then s else s.setGripper a .unknown
    (s.relocate e (.inArm a)).nameGripper a (.volume e)

/-- A drive names no volume any more. -/
def State.clearDriveVolume (s : State) (d : Fin 16) : State :=
  match (s.drive d).volume with
  | some e => (s.loseFrom e (.inDrive d)).updDrive d (fun x => { x with volume := none })
  | none => s

/-- A volume is recorded on a drive (R8). -/
def State.nameOnDrive (s : State) (d : Fin 16) (e : Nat) : State :=
  match s.vol? e with
  | none => s
  | some _ =>
    let s := if (s.drive d).volume = some e then s else s.clearDriveVolume d
    (s.relocate e (.inDrive d)).updDrive d (fun x => { x with volume := some e })

/-- The PICK of the expected volume at a rack slot completes (R6). -/
def State.pickAtSlot (s : State) (a : ArmId) (slot e : Nat) : State :=
  let s := if s.findingNames slot e then s.clearFinding slot else s
  s.takeInArm a e

/-- The PLACE at a rack slot of the carried volume completes (R7). -/
def State.placeAtSlot (s : State) (a : ArmId) (e : Nat) : State := (s.reachHome e).setGripper a .empty

/-- The PLACE at a drive completes: the drive names the volume (R8). -/
def State.placeAtDrive (s : State) (a : ArmId) (d : Fin 16) (e : Nat) : State :=
  (s.nameOnDrive d e).setGripper a .empty

/-- The PICK at a drive completes: the gripper takes the volume the drive names (R8). -/
def State.pickAtDrive (s : State) (a : ArmId) (d : Fin 16) : State :=
  match (s.drive d).volume with
  | some e => (s.takeInArm a e).clearDriveVolume d
  | none => s.setGripper a .unknown

/-- The PLACE at a station position completes: the position records the volume (R9), the lifted mark is cleared (R153). -/
def State.placeAtStation (s : State) (a : ArmId) (p : Fin 8) : State :=
  let s := match (s.arm a).gripper with
    | .volume e => (s.relocate e (.atStation p)).updStation p (fun x => { x with volume := some e })
    | .empty | .unknown => s
  (s.updStation p (fun x => { x with lifted := false })).setGripper a .empty

/-- The locations a station pick's reading may find a volume in, to be taken as that volume (R9). -/
def stationFinds (p : Fin 8) : Loc → Bool
  | .atStation q => p == q
  | .outside | .missing | .misplaced _ => true
  | .home | .inArm _ | .inDrive _ => false

/-- The PICK at a station position completes with a reading (R9). -/
def State.pickAtStation (s : State) (a : ArmId) (p : Fin 8) (r : Reading) : State :=
  match s.readEntry r with
  | some e =>
    if (s.vol? e).any (fun v => stationFinds p v.loc) then (s.clearStationVolume p).takeInArm a e
    else s.setGripper a .unknown
  | none =>
    (s.clearStationVolume p).setGripper a (if r = .noCase then .empty else .unknown)

/-! ### Readings at a rack slot (R10, R11) -/

/-- X is found at a slot: what the directory makes of it, and the count it raises (R10, R120). -/
def State.foundAt (s : State) (slot : Nat) (r : Reading) : State × List AuditCount :=
  match r with
  | .noCase => (s, [])
  | .unreadable => (s.setFinding slot .unreadable, [.foundForeign])
  | .serial t =>
    match s.entryOf t with
    | none => (s.setFinding slot (.serial t), [.foundForeign])
    | some e =>
      match s.vol? e with
      | none => (s.setFinding slot (.serial t), [.foundForeign])
      | some v =>
        let away := match v.loc with
          | .missing | .outside => true
          | .misplaced other => other != slot
          | .home | .inArm _ | .inDrive _ | .atStation _ => false
        let back := away || v.loc == .misplaced slot
        if v.home = some slot ∧ back then (s.reachHome e, [.recovered])
        else if v.home ≠ some slot ∧ away then
          ((s.relocate e (.misplaced slot)).setFinding slot (.serial t), [.foundMisplaced])
        else (s.setFinding slot (.serial t), [.foundForeign])

/-- An empty reading at a slot with a finding: the finding is cleared, and the volume it placed there is MISSING (R10). -/
def State.findingGone (s : State) (slot : Nat) (f : Finding) : State × List AuditCount :=
  let s' := s.clearFinding slot
  match f with
  | .unreadable => (s', [])
  | .serial t =>
    match s.entryOf t with
    | some e =>
      if (s.vol? e).any (fun v => v.loc == .misplaced slot) then (s'.makeMissing e, [.foundMissing]) else (s', [])
    | none => (s', [])

/-- Whether a reading is what a finding records (R10). -/
def Finding.matches (f : Finding) (r : Reading) : Bool :=
  match f, r with
  | .serial t, .serial u => t == u
  | .unreadable, .unreadable => true
  | .serial _, .noCase | .serial _, .unreadable | .unreadable, .serial _ | .unreadable, .noCase => false

/-- An arm's reading at a rack slot is compared with the slot map (R10), with the counts it raises (R120). -/
def State.slotReading (s : State) (slot : Nat) (r : Reading) : State × List AuditCount :=
  match s.slotState slot with
  | .occupied e =>
    if s.reads r e then (s, [.matched])
    else
      let s := s.makeMissing e
      if r = .noCase then (s, [.foundMissing])
      else
        let (s, counts) := s.foundAt slot r
        (s, .foundMissing :: counts)
  | .vacant _ | .free => s.foundAt slot r
  | .foreign f =>
    if f.matches r then (s, [.foundForeign])
    else
      let (s, gone) := s.findingGone slot f
      let (s, counts) := s.foundAt slot r
      (s, gone ++ counts)

/-- A PICK at a rack slot read no case or another reel than the expected volume: what was found at the slot is there no more, as for an
empty reading (R10), and the volume is MISSING (R11), also when it has been recorded elsewhere meanwhile (DESIGN CHOICE, log 69). -/
def State.pickLoses (s : State) (slot e : Nat) : State :=
  let s := match s.finding? slot with
    | some f => (s.findingGone slot f).1
    | none => s
  s.makeMissing e

/-! ### Sessions (R13) -/

/-- The ring of a volume follows PROTECT, high with no ring (R13). -/
def ringOf (protect : Bool) : Ring := if protect then .notFitted else .fitted

def State.setRing (s : State) (e : Nat) (protect : Bool) : State :=
  match s.vol? e with
  | some v => s.setVol e { v with ring := ringOf protect }
  | none => s

/-- A session opens on the volume of a drive (R13): density is that of the request, scratch the claim's mark. -/
def State.countMount (s : State) (e : Nat) (protect : Bool) (density : Option Density) (scratch : Bool) : State :=
  match s.vol? e with
  | some v =>
    s.setVol e { v with
      mounts := min 65535 (v.mounts + 1)
      lastMount := some s.clock
      ring := ringOf protect
      density := if v.density.isSome then v.density else density
      use := if scratch then .own else v.use }
  | none => s

/-- A volume mounted by hand is recorded on its drive; a position that recorded it records no volume (R13, R73). -/
def State.nameByHand (s : State) (d : Fin 16) (e : Nat) : State := s.nameOnDrive d e

/-! ### Fences (R17 to R19) -/

/-- Whether a slot lies inside an enabled fence that a test accepts (R17). -/
def State.fenced (s : State) (kinds : Fence → Bool) (slot : Nat) : Bool :=
  s.dir.fences.toList.any (fun f =>
    match f with
    | some f => f.enabled && kinds f && f.first ≤ slot && slot ≤ f.last
    | none => false)

/-- The fence bar: no PICK, PLACE or READ leg is started at such a slot (R18). -/
def State.armBarred (s : State) (slot : Nat) : Bool := s.fenced (·.armBar) slot

/-- The home slot of a volume is inside an enabled MOUNT_BAR fence (R19). -/
def State.mountBarred (s : State) (v : Volume) : Bool := v.home.any (s.fenced (·.mountBar))

/-- The scratch volumes the directory offers for a pool (R16). -/
def State.scratchOffered (s : State) (pool : Nat) : List (Nat × Volume) :=
  s.dir.entries.filter (fun e =>
    e.2.use == .scratch pool && e.2.loc == .home && !e.2.suspect &&
    !(e.2.home.any (s.fenced (fun f => f.scratchBar || f.mountBar))))

end Sys2Proof.Machine
end

