-- ==== Sys2Proof/Machine/Accounting.lean ====
section
/-! DEFINITION. The Accounting Unit: the account of a request, grants and claim ends, and the one record each claim writes
(chapter 8). -/

namespace Sys2Proof.Machine

/-- The account in use whose code equals a padded code (R161). -/
def State.accountOf (s : State) (code : Text) : Option Nat :=
  (s.acc.accounts.find? (fun e => e.2.code == code)).map (·.1)

/-- The account charged by a code: its entry, or entry 0 for no code and, under CHARGE_DEFAULT, an unknown one (R51). -/
def State.chargedTo (s : State) (code : Text) : Nat :=
  if isBlank code then 0 else (s.accountOf code).getD 0

/-- Room for one more reserved record: held plus reserved is below 256 (R163). -/
def State.recordRoom (s : State) : Bool := s.recordSum < Config.maxRecords

/-- The account is below its drive limit (R162). -/
def State.accountRoom (s : State) (i : Nat) : Bool := (s.account? i).any (fun a => a.inUse < a.limit)

/-- A claim is granted: the reservation and the account's drives in use rise by one (R63, R162, R163). -/
def State.countGrant (s : State) (i : Nat) : State :=
  let s := s.updAccount i (fun a => { a with inUse := a.inUse + 1 })
  { s with acc := { s.acc with reserved := s.acc.reserved + 1 } }

/-- A claim charged to an account ends: its drives in use falls, which is a walk trigger (R162). -/
def State.countClaimEnd (s : State) (i : Nat) : State :=
  (s.updAccount i (fun a => { a with inUse := a.inUse - 1 })).notify .walk

/-- The duration of a record (R168). -/
def durationOf (load release : Option Stamp) : Stamp :=
  match load, release with
  | some l, some r => if r < l then 0 else r - l
  | _, _ => 0

/-- The serial of a claim's record (R165). -/
def State.recordSerial (s : State) (x : Drive) (c : Claim) : Text :=
  let entry := match x.volume, c.manual with
    | some e, _ => some e
    | none, some e => some e
    | none, none => (c.tag.bind s.request?).bind (·.volume)
  (entry.bind s.serialOf).getD (List.replicate serialLength space)

/-- The record of a claim on a drive (R165): with the session closed by the write, its release stamp the clock, or without one. -/
def State.buildRecord (s : State) (d : Fin 16) (c : Claim) (session : Option Session) (outcome : RecOutcome) : AcctRecord :=
  let account := (session.map (·.account)).getD c.account
  let load := session.map (·.loadStamp)
  let release := session.map (fun _ => s.clock)
  { seq := s.acc.nextSeq
    account := account
    code := ((s.account? account).map (·.code)).getD (List.replicate codeLength space)
    serial := s.recordSerial (s.drive d) c
    drive := d
    tag := c.tag
    claimStamp := c.stamp
    loadStamp := load
    releaseStamp := release
    duration := durationOf load release
    outcome := outcome
    write := c.write
    readOnly := session.any (·.readOnly)
    assisted := c.assisted || session.any (·.assisted)
    scratch := c.scratch }

/-- A record joins the queue, one reservation becomes one record held, and the counters rise (R167). -/
def State.putRecord (s : State) (r : AcctRecord) : State :=
  let s := { s with acc := { s.acc with
    records := s.acc.records ++ [r]
    reserved := s.acc.reserved - 1
    nextSeq := s.acc.nextSeq + 1 } }
  let s := s.updAccount r.account (fun a => { a with
    driveSeconds := a.driveSeconds + r.duration
    mounts := if r.loadStamp.isSome then a.mounts + 1 else a.mounts
    assisted := if r.assisted then a.assisted + 1 else a.assisted
    failed := if r.outcome = .failed then a.failed + 1 else a.failed })
  s.updDrive r.drive (fun x => { x with useSeconds := x.useSeconds + r.duration })

/-- The Drive Interface hands over a claim to be recorded, while its record is reserved; the mark becomes no (R166, R167). -/
def State.recordClaim (s : State) (d : Fin 16) (session : Option Session) (outcome : RecOutcome) : State :=
  match (s.drive d).claim with
  | none => s
  | some c =>
    if c.reserved then
      (s.putRecord (s.buildRecord d c session outcome)).updDrive d
        (fun x => { x with claim := x.claim.map (fun c => { c with reserved := false }) })
    else s

/-- The account's scratch issued counter rises (R170). -/
def State.countScratchIssue (s : State) (i : Nat) : State :=
  s.updAccount i (fun a => { a with scratchIssued := a.scratchIssued + 1 })

/-- The five counters of an account become 0 (R174). -/
def Account.cleared (a : Account) : Account :=
  { a with mounts := 0, assisted := 0, scratchIssued := 0, failed := 0, driveSeconds := 0 }

end Sys2Proof.Machine
end

