-- ==== Sys2Proof/Machine/Attention.lean ====
section
/-! DEFINITION. The Attention Generator: the two cadence units, which follow the prompt list (section 7.1). -/

namespace Sys2Proof.Machine

/-- The settings item of an output's cadence at a level (section 11.9). -/
def cadenceIndex (o : Output) (level : Nat) : Nat :=
  match o with
  | .lamp => 26 + 2 * level
  | .horn => 27 + 2 * level

/-- The cadence of an output at a governing level; none gives OFF (R149, R150). -/
def State.cadenceAt (s : State) (o : Output) : Option Nat → Cadence
  | none => .off
  | some level => s.cadenceItem (cadenceIndex o level)

def State.attnUnit (s : State) : Output → AttnUnit
  | .lamp => s.att.lamp
  | .horn => s.att.horn

def State.setAttnUnit (s : State) (o : Output) (u : AttnUnit) : State :=
  match o with
  | .lamp => { s with att := { s.att with lamp := u } }
  | .horn => { s with att := { s.att with horn := u } }

/-- The output of a unit is on in its on phase (R148). -/
def AttnUnit.output (u : AttnUnit) : Bool := u.phase == .on

/-- A cadence is started: its first phase and the timer for it (R148). -/
def startCadence (level : Option Nat) (c : Cadence) : AttnUnit :=
  match c with
  | .off => ⟨level, c, .off, none⟩
  | .steady => ⟨level, c, .on, none⟩
  | .oneShot t => ⟨level, c, .on, some t⟩
  | .blink t _ => ⟨level, c, .on, some t⟩

/-- The cadence runs a ONE_SHOT. -/
def isOneShot : Cadence → Bool
  | .oneShot _ => true
  | .off | .steady | .blink _ _ => false

/-- The highest of a list of levels. -/
def highest (levels : List Nat) : Option Nat :=
  levels.foldl (fun best l => some (max l (best.getD 0))) none

/-- The governing level of an output (R150): the lamp's over outstanding prompts, the horn's over those PENDING. -/
def State.governing (s : State) : Output → Option Nat
  | .lamp => highest (s.pr.list.map (·.level))
  | .horn => highest ((s.pr.list.filter (fun p => !p.acked)).map (·.level))

/-- A unit takes its governing level; `entered` is the level a prompt was issued at or escalated into (R150). -/
def State.followUnit (s : State) (entered : Option Nat) (o : Output) : State :=
  let u := s.attnUnit o
  let level := s.governing o
  if level ≠ u.level then s.setAttnUnit o (startCadence level (s.cadenceAt o level))
  else if isOneShot u.cadence ∧ entered.isSome ∧ entered = level then
    s.setAttnUnit o (startCadence level (s.cadenceAt o level))
  else s

/-- The Attention Generator is told of a change of the prompt list (R150). -/
def State.attend (s : State) (entered : Option Nat) : State :=
  (s.followUnit entered .lamp).followUnit entered .horn

/-- The next phase of a running phase whose time is up: within the entry's mode as it now stands, or the first phase of the new mode
(R148, R149; DESIGN CHOICE, log 7). -/
def nextPhase (u : AttnUnit) (entry : Cadence) : AttnUnit :=
  match u.cadence, entry with
  | .blink _ _, .blink on off =>
    if u.phase = .on then ⟨u.level, entry, .off, some off⟩ else ⟨u.level, entry, .on, some on⟩
  | .oneShot _, .oneShot _ => ⟨u.level, entry, .ended, none⟩
  | _, _ => startCadence u.level entry

/-- The phase timer of an output expires (R148); a stopped timer does not expire. -/
def State.phaseExpiry (s : State) (o : Output) : State :=
  let u := s.attnUnit o
  match u.timer with
  | none => s
  | some _ => s.setAttnUnit o (nextPhase u (s.cadenceAt o u.level))

/-- A unit with no phase to end starts again from an entry written at its governing level (R149). -/
def State.restartIdleUnit (s : State) (o : Output) : State :=
  let u := s.attnUnit o
  match u.level, u.timer with
  | some _, none => s.setAttnUnit o (startCadence u.level (s.cadenceAt o u.level))
  | _, _ => s

end Sys2Proof.Machine
end

