-- ==== Sys2Proof/Machine/Prompts.lean ====
section
/-! DEFINITION. The Prompt Unit: the prompt list, owed equipment prompts, line composition, the panel output, ACK and escalation
(chapter 6). -/

namespace Sys2Proof.Machine

/-! ### Kinds (R126) -/

/-- The severity of a kind (R126). -/
def PromptKind.severity : PromptKind → Nat
  | .manualMount | .ringNeeded | .volumeSuspect | .stationUnknown => 1
  | .labelMismatch | .volumeLost | .scratchEmpty | .driveCheck => 2
  | .armOut => 3

/-- The first six kinds are request-related (R126). -/
def PromptKind.requestRelated : PromptKind → Bool
  | .manualMount | .ringNeeded | .labelMismatch | .volumeSuspect | .volumeLost | .scratchEmpty => true
  | .stationUnknown | .driveCheck | .armOut => false

/-- The replies a prompt accepts in its present sub-state (R126). -/
def Prompt.accepts (p : Prompt) : List ReplyWord :=
  match p.kind, p.sub with
  | .manualMount, _ | .scratchEmpty, _ => [.done, .cancel]
  | .ringNeeded, some .awaitReel => [.cancel]
  | .ringNeeded, _ => [.fit, .readonly, .cancel]
  | .labelMismatch, _ => [.accept, .reject]
  | .volumeSuspect, _ => [.proceed, .cancel]
  | .volumeLost, _ => [.found, .cancel]
  | .stationUnknown, _ => [.done]
  | .driveCheck, _ => [.done, .offline]
  | .armOut, _ => [.done, .keep]

/-! ### Issue and numbers (R127 to R129) -/

/-- The number after a number, from 99 to 1 (R127). -/
def nextNumber (n : Nat) : Nat := if n < 99 then n + 1 else 1

/-- The first number from a start, counting upward, that no outstanding prompt holds (R127). -/
def State.freeNumber (s : State) : Nat → Nat → Nat
  | 0, n => n
  | fuel + 1, n => if s.pr.list.any (fun p => p.number == n) then s.freeNumber fuel (nextNumber n) else n

/-- What a new prompt names (R126). -/
structure Names where
  tag : Option Half
  volume : Option Nat
  drive : Option (Fin 16)
  arm : Option ArmId
  position : Option (Fin 8)
deriving DecidableEq, Repr

/-- A prompt is issued (R128); the answer is its number. -/
def State.issue (s : State) (kind : PromptKind) (names : Names) : State × Nat :=
  let n := s.freeNumber Config.maxPrompts s.pr.counter
  let p : Prompt := {
    number := n
    kind := kind
    tag := names.tag
    volume := names.volume
    drive := names.drive
    arm := names.arm
    position := names.position
    template := s.setting (42 + kind.code)
    issued := s.clock
    level := 0
    acked := false
    timer := some (s.escalationPeriod kind.severity)
    sub := if kind = .ringNeeded then some .awaitReply else none
    lineOwed := true }
  let s := { s with pr := { s.pr with list := s.pr.list ++ [p], counter := nextNumber n } }
  ((s.raise .promptRaised).attend (some 0), n)

/-- How many request-related prompts are outstanding (R129). -/
def State.requestPrompts (s : State) : Nat := (s.pr.list.filter (fun p => p.kind.requestRelated)).length

/-- A request-related prompt is asked for: none is the refusal PROMPTS_FULL (R129). -/
def State.askRequestPrompt (s : State) (kind : PromptKind) (names : Names) : Option (State × Nat) :=
  if Config.maxRequestPrompts ≤ s.requestPrompts ∨ Config.maxPrompts ≤ s.pr.list.length then none
  else
    let (s, n) := s.issue kind names
    some (if kind = .volumeLost then s.notify .importTestAll else s, n)

/-! ### Equipment prompts (R129, R130) -/

/-- What an equipment prompt names; a DRIVE_CHECK also names the volume of its drive (R126). -/
def State.equipmentNames (s : State) : Equipment → PromptKind × Names
  | .stationUnknown p => (.stationUnknown, ⟨none, none, none, none, some p⟩)
  | .driveCheck d => (.driveCheck, ⟨none, (s.drive d).volume, some d, none, none⟩)
  | .armOut a => (.armOut, ⟨none, none, none, some a, none⟩)

/-- Whether an outstanding prompt is the equipment prompt of a thing (R129). -/
def Prompt.isFor (p : Prompt) : Equipment → Bool
  | .stationUnknown q => p.kind == .stationUnknown && p.position == some q
  | .driveCheck d => p.kind == .driveCheck && p.drive == some d
  | .armOut a => p.kind == .armOut && p.arm == some a

/-- An equipment prompt of a thing is outstanding or owed. -/
def State.equipmentStands (s : State) (e : Equipment) : Bool := s.pr.list.any (·.isFor e) || s.pr.owed.contains e

/-- An equipment prompt is asked for: it stands already, is issued, or is owed (R129, R130). -/
def State.askEquipment (s : State) (e : Equipment) : State :=
  if s.equipmentStands e then s
  else if s.pr.list.length < Config.maxPrompts then
    let (kind, names) := s.equipmentNames e
    (s.issue kind names).1
  else { s with pr := { s.pr with owed := s.pr.owed ++ [e] } }

/-- The condition of an owed mark (R130). -/
def State.owedHolds (s : State) : Equipment → Bool
  | .driveCheck d => (s.drive d).state == .check
  | .armOut a => (s.arm a).state == .outOfService && !(s.arm a).leaveMark
  | .stationUnknown p => (s.station p).presence && (s.station p).volume.isNone && (s.station p).reserved.isNone

/-- The owed marks from the oldest: the first whose condition holds takes the freed place, those before it are dropped (R130). -/
def State.testOwed (s : State) : List Equipment → State
  | [] => { s with pr := { s.pr with owed := [] } }
  | e :: rest =>
    if s.owedHolds e then
      let s := { s with pr := { s.pr with owed := rest } }
      let (kind, names) := s.equipmentNames e
      (s.issue kind names).1
    else s.testOwed rest

/-- An owed mark is dropped (R130). -/
def State.dropOwed (s : State) (e : Equipment) : State :=
  { s with pr := { s.pr with owed := s.pr.owed.filter (· != e) } }

/-! ### Leaving the list (R131) -/

/-- A withdrawal line waits; a full list drops its oldest number (R135). -/
def State.queueWithdrawal (s : State) (n : Nat) : State :=
  let list := s.pr.withdrawals ++ [n]
  { s with pr := { s.pr with withdrawals := if Config.maxWithdrawals < list.length then list.tail else list } }

/-! #### The wait timer, which follows a request's states (R54) -/

/-- The states in which the wait timer runs (R54). -/
def waiting : ReqState → Bool
  | .queued | .waitVolume | .waitDrive | .waitArm => true
  | .moving | .loading | .verify | .prompted | .releasing | .returning | .finished => false

/-- The wait timer of a request that enters a waiting state: it runs on, or starts with the limit, 0 starting none (R54). -/
def State.waitTimer (s : State) (r : Request) : Option Nat :=
  match r.timer with
  | some t => some t
  | none => if s.waitLimit r.priority = 0 then none else some (s.waitLimit r.priority)

/-- The wait timer of a request that enters a state: one that stays in its state keeps its timer (R54). -/
def State.timerIn (s : State) (r : Request) (st : ReqState) : Option Nat :=
  if waiting st then (if r.state = st then r.timer else s.waitTimer r) else none

/-- The state a PROMPTED request goes on in when its prompt leaves the list, before the rule that ended the prompt takes it further (R55). -/
def Request.resumes (r : Request) : ReqState :=
  match r.resume with
  | some .prompted | none => .waitVolume
  | some st => st

/-- The request that a prompt names is PROMPTED no more (R55). -/
def State.unprompt (s : State) (n : Nat) : State :=
  { s with ms := { s.ms with queue := s.ms.queue.map (fun r =>
    if r.prompt = some n ∧ r.state = .prompted then
      { r with state := r.resumes, prompt := none, resume := none, timer := s.timerIn r r.resumes }
    else r) } }

/-- A prompt leaves the list, answered (`line` no) or withdrawn or ended (`line` yes): its request is PROMPTED no more (R55), and owed prompts are
tested after it (R130, R131). A number no longer outstanding changes nothing. -/
def State.leaveList (s : State) (n : Nat) (line : Bool) : State :=
  match s.prompt? n with
  | none => s
  | some p =>
    let s := ({ s with pr := { s.pr with list := s.pr.list.filter (fun q => q.number != n) } }).unprompt n
    let s := (s.raise .promptClosed).attend none
    let s := if line then s.queueWithdrawal n else s
    let s := match p.kind, p.position with
      | .stationUnknown, some q => s.notify (.importTest q)
      | _, _ => s
    s.testOwed s.pr.owed

/-- A prompt is withdrawn (R131). -/
def State.withdraw (s : State) (n : Nat) : State := s.leaveList n true

/-- The equipment prompt of a thing ends: an outstanding one leaves the list, an owed mark is dropped (R130, R131). -/
def State.endEquipment (s : State) (e : Equipment) : State :=
  match s.pr.list.find? (·.isFor e) with
  | some p => s.withdraw p.number
  | none => s.dropOwed e

/-! ### The ring fit (R145) -/

/-- A RING_NEEDED prompt enters a sub-state afresh: level 0, PENDING, its timer started again, its line owed (R145). -/
def State.restartPrompt (s : State) (n : Nat) (sub : SubState) : State :=
  (s.updPrompt n (fun p => { p with
    level := 0
    acked := false
    timer := some (s.escalationPeriod p.kind.severity)
    sub := some sub
    lineOwed := true })).attend none

/-- The station position of a ring fit is recorded in the prompt, whose line is owed again (R145). -/
def State.promptPosition (s : State) (n : Nat) (p : Fin 8) : State :=
  s.updPrompt n (fun x => { x with position := some p, lineOwed := true })

/-- The outstanding prompt that awaits a volume at a station: RING_NEEDED in AWAIT_REEL, or VOLUME_LOST (R144). -/
def State.awaitedBy (s : State) (e : Nat) : Option Prompt :=
  s.pr.list.find? (fun p => p.volume == some e &&
    ((p.kind == .ringNeeded && p.sub == some .awaitReel) || p.kind == .volumeLost))

/-- The list holds a prompt that awaits a reel (R156). -/
def State.reelAwaited (s : State) : Bool :=
  s.pr.list.any (fun p => (p.kind == .ringNeeded && p.sub == some .awaitReel) || p.kind == .volumeLost)

/-! ### Acknowledgement and escalation (R139, R142, R143) -/

def Prompt.acknowledge (p : Prompt) : Prompt := { p with acked := true, timer := none }

/-- ACK n of an outstanding prompt (R139). -/
def State.ackPrompt (s : State) (n : Nat) : State := (s.updPrompt n Prompt.acknowledge).attend none

/-- ACK ALL (R139). -/
def State.ackAllPrompts (s : State) : State :=
  { s with pr := { s.pr with list := s.pr.list.map Prompt.acknowledge } }.attend none

/-- LIST: every outstanding prompt's line is owed (R140). -/
def State.listPrompts (s : State) : State :=
  { s with pr := { s.pr with list := s.pr.list.map (fun p => { p with lineOwed := true }) } }

/-- A prompt's level rises at an expiry below level 3 (R142). -/
def State.escalate (s : State) (p : Prompt) : State :=
  (s.updPrompt p.number (fun p => { p with
    level := p.level + 1
    timer := some (s.escalationPeriod p.kind.severity)
    lineOwed := true })).attend (some (p.level + 1))

/-- The expiry at level 3 of an equipment prompt: it stays, its timer stopped, its line owed (R143). -/
def State.endEscalation (s : State) (p : Prompt) : State :=
  s.updPrompt p.number (fun p => { p with timer := none, lineOwed := true })

/-! ### Line composition (R133, R134) -/

/-- Characters as codes. -/
def ascii (cs : List Char) : Text := cs.map (fun c => byte c.toNat)

/-- The name of a kind (R126). -/
def PromptKind.name : PromptKind → Text
  | .manualMount => ascii ['M', 'A', 'N', 'U', 'A', 'L', '_', 'M', 'O', 'U', 'N', 'T']
  | .ringNeeded => ascii ['R', 'I', 'N', 'G', '_', 'N', 'E', 'E', 'D', 'E', 'D']
  | .labelMismatch => ascii ['L', 'A', 'B', 'E', 'L', '_', 'M', 'I', 'S', 'M', 'A', 'T', 'C', 'H']
  | .volumeSuspect => ascii ['V', 'O', 'L', 'U', 'M', 'E', '_', 'S', 'U', 'S', 'P', 'E', 'C', 'T']
  | .volumeLost => ascii ['V', 'O', 'L', 'U', 'M', 'E', '_', 'L', 'O', 'S', 'T']
  | .scratchEmpty => ascii ['S', 'C', 'R', 'A', 'T', 'C', 'H', '_', 'E', 'M', 'P', 'T', 'Y']
  | .stationUnknown => ascii ['S', 'T', 'A', 'T', 'I', 'O', 'N', '_', 'U', 'N', 'K', 'N', 'O', 'W', 'N']
  | .driveCheck => ascii ['D', 'R', 'I', 'V', 'E', '_', 'C', 'H', 'E', 'C', 'K']
  | .armOut => ascii ['A', 'R', 'M', '_', 'O', 'U', 'T']

/-- The fields a line may print (R133). -/
inductive LineField where
  | tag
  | serial
  | home
  | drive
  | arm
  | position
  | account
  | number
deriving DecidableEq, Repr

/-- A field of a prompt as printed, none when absent (R133). -/
def State.lineField (s : State) (p : Prompt) : LineField → Option Text
  | .tag => p.tag.map (fun t => decimal t.toNat)
  | .serial => (p.volume.bind s.serialOf).map trimRight
  | .home => ((p.volume.bind s.vol?).bind (·.home)).map (fun h => twoDigits (slotColumn h) ++ [0x2F] ++ twoDigits (slotLevel h))
  | .drive => p.drive.map (fun d => twoDigits d.val)
  | .arm => p.arm.map (fun a => match a with
    | .armA => [0x41]
    | .armB => [0x42])
  | .position => p.position.map (fun q => decimal (stationOf q) ++ [0x2D] ++ decimal (q.val % 4))
  | .account => (((p.tag.bind s.request?).map (·.account)).bind s.account?).map (fun a => trimRight a.code)
  | .number => some (twoDigits p.number)

/-- The dashes that stand for an absent field (R133). -/
def LineField.dashes : LineField → Nat
  | .serial => 6
  | .home => 5
  | .drive => 2
  | .arm => 1
  | .tag => 5
  | .account => 8
  | .position => 3
  | .number => 0

/-- The field of a marker letter (R133). -/
def markerField (b : Byte) : Option LineField :=
  if b = 0x53 then some .serial
  else if b = 0x4C then some .home
  else if b = 0x44 then some .drive
  else if b = 0x41 then some .arm
  else if b = 0x54 then some .tag
  else if b = 0x43 then some .account
  else if b = 0x50 then some .position
  else if b = 0x4E then some .number
  else none

def ampersand : Byte := 0x26

/-- The text that replaces a marker: the field, or its dashes (R133). -/
def State.markerText (s : State) (p : Prompt) (b : Byte) : Option Text :=
  (markerField b).map (fun f => (s.lineField p f).getD (List.replicate f.dashes 0x2D))

/-- A template with each marker replaced (R133). -/
def expand (text : Byte → Option Text) : Text → Text
  | [] => []
  | [c] => [c]
  | c :: d :: rest =>
    if c = ampersand then
      if d = ampersand then ampersand :: expand text rest
      else match text d with
        | some t => t ++ expand text rest
        | none => c :: expand text (d :: rest)
    else c :: expand text (d :: rest)

/-- The labels of the fields of a line without a template, in their order (R134). -/
def lineLabels : List (LineField × Text) :=
  [(.tag, ascii ['T', 'A', 'G']), (.serial, ascii ['S', 'E', 'R']), (.home, ascii ['S', 'L', 'O', 'T']),
   (.drive, ascii ['D', 'R', 'V']), (.arm, ascii ['A', 'R', 'M']), (.position, ascii ['S', 'T', 'N']),
   (.account, ascii ['A', 'C', 'C', 'T'])]

/-- The composed text of a prompt: its template expanded, or the kind's name and its present fields (R133, R134). -/
def State.composedText (s : State) (p : Prompt) : Text :=
  match s.pr.templates[p.template]? with
  | some (c :: rest) => expand (s.markerText p) (c :: rest)
  | _ => lineLabels.foldl (fun text f =>
      match s.lineField p f.1 with
      | some value => text ++ [space] ++ f.2 ++ [space] ++ value
      | none => text) p.kind.name

/-- A prompt's line: number, an asterisk for each level, a space, the text; at most 72 characters (R133). -/
def State.promptLine (s : State) (p : Prompt) : Text :=
  (twoDigits p.number ++ List.replicate p.level 0x2A ++ [space] ++ s.composedText p).take Config.maxPanelLine

/-! ### The panel output (R135) -/

def Answer.text : Answer → Text
  | .accepted => ascii ['A', 'C', 'C', 'E', 'P', 'T', 'E', 'D']
  | .noSuchPrompt => ascii ['N', 'O', ' ', 'S', 'U', 'C', 'H', ' ', 'P', 'R', 'O', 'M', 'P', 'T']
  | .replyNotValid => ascii ['R', 'E', 'P', 'L', 'Y', ' ', 'N', 'O', 'T', ' ', 'V', 'A', 'L', 'I', 'D']
  | .lineTooLong => ascii ['L', 'I', 'N', 'E', ' ', 'T', 'O', 'O', ' ', 'L', 'O', 'N', 'G']
  | .notUnderstood => ascii ['N', 'O', 'T', ' ', 'U', 'N', 'D', 'E', 'R', 'S', 'T', 'O', 'O', 'D']

def allWithdrawnLine : Text :=
  ascii ['A', 'L', 'L', ' ', 'P', 'R', 'O', 'M', 'P', 'T', 'S', ' ', 'W', 'I', 'T', 'H', 'D', 'R', 'A', 'W', 'N']

/-- PROMPT n WITHDRAWN, n without leading zeros (DESIGN CHOICE, log 8). -/
def withdrawalLine (n : Nat) : Text :=
  ascii ['P', 'R', 'O', 'M', 'P', 'T', ' '] ++ decimal n ++ ascii [' ', 'W', 'I', 'T', 'H', 'D', 'R', 'A', 'W', 'N']

/-- The end of every line: carriage return and line feed (R135). -/
def lineEnd : Text := [0x0D, 0x0A]

/-- A line starts to be sent. -/
def State.sendLine (s : State) (line : Text) : State := { s with pr := { s.pr with sending := some (line ++ lineEnd) } }

/-- When no line is being sent, the next waiting line starts (R135). -/
def State.panelPump (s : State) : State :=
  match s.pr.sending with
  | some _ => s
  | none =>
    if s.pr.allWithdrawn then
      { s with pr := { s.pr with allWithdrawn := false } }.sendLine allWithdrawnLine
    else match s.pr.answers with
      | a :: rest => { s with pr := { s.pr with answers := rest } }.sendLine a.text
      | [] =>
        match s.pr.withdrawals with
        | n :: rest => { s with pr := { s.pr with withdrawals := rest } }.sendLine (withdrawalLine n)
        | [] =>
          match s.pr.list.find? (·.lineOwed) with
          | some p => (s.updPrompt p.number (fun p => { p with lineOwed := false })).sendLine (s.promptLine p)
          | none => s

/-- An answer joins the answer list (R135). -/
def State.answer (s : State) (a : Answer) : State := { s with pr := { s.pr with answers := s.pr.answers ++ [a] } }

end Sys2Proof.Machine
end

