-- ==== Sys2Proof/Machine/Drives.lean ====
section
/-! DEFINITION. The Drive Interface: pulses, claims, the drive state machine, CHECK, DRIVE SERVICE, and the drives at LINK RESET
(chapter 2). What it tells Mount Service it leaves as notices. -/

namespace Sys2Proof.Machine

/-! ### Parts -/

/-- A pulse starts at full width, ending one that runs (R27). -/
def State.startPulse (s : State) (d : Fin 16) (k : PulseKind) : State :=
  s.updDrive d (fun x => { x with pulse := some (k, s.pulseWidth) })

def State.setDriveState (s : State) (d : Fin 16) (st : DriveState) : State := s.updDrive d (fun x => { x with state := st })

def State.updClaim (s : State) (d : Fin 16) (f : Claim → Claim) : State :=
  s.updDrive d (fun x => { x with claim := x.claim.map f })

/-- The request tag a drive's claim carries. -/
def Drive.claimTag (x : Drive) : Option Half := x.claim.bind (·.tag)

/-- The claim of a drive was detached by LINK RESET (R47). -/
def Drive.isDetached (x : Drive) : Bool := x.claim.any (·.detached)

/-- The ring hold mark of a drive's claim (R38). -/
def Drive.holdsRing (x : Drive) : Bool := x.claim.any (·.ringHold)

/-- LOADED or RELEASED reads high (R44). -/
def Drive.levelHigh (x : Drive) : Bool := x.sense.loaded || x.sense.released

def State.startReleaseTimer (s : State) (d : Fin 16) : State :=
  s.updDrive d (fun x => { x with releaseTimer := some s.releaseLimit })

def State.startLoadTimer (s : State) (d : Fin 16) (expiries : Nat) : State :=
  s.updDrive d (fun x => { x with loadTimer := some ⟨s.loadLimit, expiries⟩ })

def State.stopLoadTimer (s : State) (d : Fin 16) : State := s.updDrive d (fun x => { x with loadTimer := none })

def State.stopLabelTimer (s : State) (d : Fin 16) : State := s.updDrive d (fun x => { x with labelTimer := none })

/-- The label timer starts with the label limit (R40). -/
def State.startLabelTimer (s : State) (d : Fin 16) : State :=
  s.updDrive d (fun x => { x with labelTimer := some s.labelLimit })

/-- The drive enters EMPTY, or OFFLINE if its online field is no, with the drive-empty notice (R28, R39, R42). R28 gives the notice on entering EMPTY; the
model gives it on entering OFFLINE too (DESIGN CHOICE, log 51). -/
def State.restDrive (s : State) (d : Fin 16) : State :=
  (s.setDriveState d (if (s.drive d).online then .empty else .offline)).notify .walk

/-- A request holds its claimed drive no more (R49). -/
def State.dropClaimed (s : State) (tag : Option Half) : State :=
  match tag with
  | some t => s.updRequest t (fun r => { r with claimed := none })
  | none => s

/-- The claim of a drive ends: the account's drives in use falls (R162), and its request holds the drive no more (R49). -/
def State.endClaim (s : State) (d : Fin 16) : State :=
  match (s.drive d).claim with
  | none => s
  | some c => ((s.updDrive d (fun x => { x with claim := none })).countClaimEnd c.account).dropClaimed c.tag

/-- The drive enters CHECK, its timers stop, and DRIVE_CHECK is asked for (R41). -/
def State.enterCheck (s : State) (d : Fin 16) : State :=
  (s.updDrive d (fun x => { x with
    state := .check, loadTimer := none, labelTimer := none, releaseTimer := none })).askEquipment (.driveCheck d)

/-- An open session of a drive ends COMPLETED: its record is written (R37, R42). -/
def State.completeSession (s : State) (d : Fin 16) : State :=
  match (s.drive d).session with
  | none => s
  | some session => (s.recordClaim d (some session) .completed).updDrive d (fun x => { x with session := none })

/-- The session of a drive closes at its RELEASED rise: recorded COMPLETED, or set aside under a ring hold (R37, R38). -/
def State.closeSession (s : State) (d : Fin 16) : State :=
  if (s.drive d).holdsRing then s.updDrive d (fun x => { x with session := none }) else s.completeSession d

/-! ### Claims (R28 to R30) -/

/-- A drive may be claimed when it is installed, online and EMPTY (R28). -/
def Drive.claimable (x : Drive) : Bool := x.installed && x.online && x.state == .empty

/-- Mount Service gives the claim of a CLAIMED drive up with an outcome (R28). -/
def State.giveUpClaim (s : State) (d : Fin 16) (outcome : RecOutcome) : State :=
  let s := ((s.recordClaim d none outcome).stopLoadTimer d).endClaim d
  if (s.drive d).levelHigh then s.setDriveState d .unmanaged else s.restDrive d

/-- An unexpected load on a CLAIMED drive: the claim is lost (R30). -/
def State.loseClaim (s : State) (d : Fin 16) : State :=
  let tag := (s.drive d).claimTag
  let s := ((s.recordClaim d none .failed).stopLoadTimer d).endClaim d
  (s.setDriveState d .unmanaged).notify (.claimLost d tag)

/-- May a drive receive the reel of an order with this tag (R29). -/
def State.mayPlace (s : State) (d : Fin 16) (tag : Option Half) : Bool :=
  let x := s.drive d
  x.state == .claimed && x.volume.isNone &&
    (match x.claim with
     | some c => c.manual.isNone && c.tag.isSome && c.tag == tag
     | none => false)

/-- A PLACE is expected at a drive from the yes until the leg ends (R29). -/
def State.expectPlace (s : State) (d : Fin 16) : State := s.updDrive d (fun x => { x with placeExpected := true })

/-! ### Loading (R31 to R34) -/

/-- The load is taken (R33): the session opens, the directory counts the mount, Mount Service has the loaded notice. -/
def State.takeLoad (s : State) (d : Fin 16) : State :=
  let x := s.drive d
  match x.claim with
  | none => s
  | some c =>
    let s := match x.volume, c.manual with
      | none, some e => s.nameByHand d e
      | _, _ => s
    let s := s.updDrive d (fun x => { x with
      loadTimer := none
      loadCount := x.loadCount + 1
      session := some ⟨c.account, s.clock, c.write, false, c.assisted⟩
      state := .loaded
      claim := some { c with ringHold := false } })
    let density := (c.tag.bind s.request?).bind (·.density)
    let s := match (s.drive d).volume with
      | some e => s.countMount e x.sense.protect density c.scratch
      | none => s
    s.notify (.loaded d c.tag x.sense.protect c.ringHold)

/-- Mount Service or LINK RESET asks for an unload (R36). -/
def State.unload (s : State) (d : Fin 16) : State :=
  match (s.drive d).state with
  | .loaded => (((s.stopLabelTimer d).startPulse d .unload).setDriveState d .unloading).startReleaseTimer d
  | .unloading => (s.stopLabelTimer d).startPulse d .unload
  | .placed =>
    ((((s.stopLabelTimer d).stopLoadTimer d).startPulse d .unload).setDriveState d .unloading).startReleaseTimer d
  | .released => (s.stopLabelTimer d).notify (.reelReady d (s.drive d).claimTag)
  | .offline | .empty | .claimed | .check | .unmanaged => s

/-- An unload under R36 would be taken. -/
def unloadTaken : DriveState → Bool
  | .loaded | .unloading | .placed | .released => true
  | .offline | .empty | .claimed | .check | .unmanaged => false

/-- A load taken on a PLACED drive; under a claim detached by LINK RESET the UNLOAD follows at once (R33, R47). -/
def State.loadPlaced (s : State) (d : Fin 16) : State :=
  let detached := (s.drive d).isDetached
  let s := s.takeLoad d
  if detached then s.unload d else s

/-- A RECOVER is owed for a drive (R47, R113). -/
def State.oweRecover (s : State) (d : Fin 16) (owed : Bool) : State :=
  { s with sch := { s.sch with owedRecovers := s.sch.owedRecovers.set d owed } }

/-- The PLACE at a drive has completed and the drive names the volume: PLACED, and it acts on its levels (R29); under a claim detached
by LINK RESET, as R47 states. -/
def State.placedOnDrive (s : State) (d : Fin 16) : State :=
  let x := s.drive d
  let s := s.updDrive d (fun x => { x with state := .placed, placeExpected := false })
  let s := s.notify (.placed d x.claimTag)
  let s := if x.isDetached then (s.oweRecover d true).notify .recovers else s
  if x.sense.loaded then s.loadPlaced d
  else
    let s := s.startPulse d .load
    if x.isDetached then s else s.startLoadTimer d 0

/-- The expected PLACE at a drive has failed: the expectation ends (R29), the claim of a reset is given up (R47), a load found is
unexpected (R30). -/
def State.placeFailed (s : State) (d : Fin 16) : State :=
  let x := s.drive d
  let s := s.updDrive d (fun x => { x with placeExpected := false })
  if x.state ≠ .claimed then s
  else if x.isDetached then s.giveUpClaim d .reset
  else if x.sense.loaded then s.loseClaim d
  else s

/-- The load has failed: CHECK, the error count of a placed volume, the load-failed notice (R31, R32). -/
def State.loadFails (s : State) (d : Fin 16) : State :=
  let x := s.drive d
  let s := s.enterCheck d
  let s := match x.state, x.volume with
    | .placed, some e => s.raiseErrors e
    | _, _ => s
  s.notify (.loadFailed d x.claimTag)

/-- The load timer expires (R31). -/
def State.loadTimerExpiry (s : State) (d : Fin 16) : State :=
  match (s.drive d).loadTimer with
  | none => s
  | some t => if t.expiries = 0 then (s.startPulse d .load).startLoadTimer d 1 else s.loadFails d

/-- MANUAL_MOUNT DONE on the drive's levels (R34). -/
def State.manualDone (s : State) (d : Fin 16) : State :=
  if (s.drive d).sense.loaded then s.takeLoad d else s.startLoadTimer d 0

/-! ### Release and the PICK (R37, R39) -/

/-- The reel is released (R37). -/
def State.releaseReel (s : State) (d : Fin 16) : State :=
  let s := s.updDrive d (fun x => { x with releaseTimer := none })
  let s := (s.closeSession d).setDriveState d .released
  s.notify (.reelReady d (s.drive d).claimTag)

/-- The release timer expires (R37). -/
def State.releaseTimerExpiry (s : State) (d : Fin 16) : State :=
  match (s.drive d).releaseTimer with
  | none => s
  | some _ => s.enterCheck d

/-- May the reel on a drive be taken (R39). -/
def State.mayPick (s : State) (d : Fin 16) : Bool :=
  let x := s.drive d
  x.state == .released || (x.state == .placed && x.claimTag.isNone)

/-- The drive leaves CHECK: its DRIVE_CHECK ends (R41). -/
def State.leaveCheck (s : State) (d : Fin 16) : State :=
  if (s.drive d).state = .check then s.endEquipment (.driveCheck d) else s

/-- The PICK at a drive has completed and the drive names no volume (R39). A state that R39 does not list acts as its PLACED row
(DESIGN CHOICE, log 9). -/
def State.pickedFromDrive (s : State) (d : Fin 16) : State :=
  let x := s.drive d
  if x.state = .released ∧ x.holdsRing then s.setDriveState d .claimed
  else
    match x.claim with
    | none => s
    | some c =>
      let s := s.updDrive d (fun x => { x with loadTimer := none, labelTimer := none, releaseTimer := none, session := none })
      let outcome := if c.detached then .reset else c.named.getD .failed
      let s := (s.recordClaim d none outcome).endClaim d
      let s := s.leaveCheck d
      s.restDrive d

/-! ### Level changes (R25, R26, R30 to R38, R44) -/

def Levels.get (l : Levels) : SenseLine → Bool
  | .loaded => l.loaded
  | .released => l.released
  | .protect => l.protect

def Levels.put (l : Levels) (line : SenseLine) (b : Bool) : Levels :=
  match line with
  | .loaded => { l with loaded := b }
  | .released => { l with released := b }
  | .protect => { l with protect := b }

def Intervals.get (i : Intervals) : SenseLine → Option Nat
  | .loaded => i.loaded
  | .released => i.released
  | .protect => i.protect

def Intervals.put (i : Intervals) (line : SenseLine) (v : Option Nat) : Intervals :=
  match line with
  | .loaded => { i with loaded := v }
  | .released => { i with released := v }
  | .protect => { i with protect := v }

/-- The edge enable of a rise or fall of a line (R23). -/
def Edges.enabled (e : Edges) (line : SenseLine) (rise : Bool) : Bool :=
  match line with
  | .loaded => if rise then e.loadedRise else e.loadedFall
  | .released => if rise then e.releasedRise else e.releasedFall
  | .protect => if rise then e.protectRise else e.protectFall

/-- The raw input of a line changes (R25): away from the debounced level an interval starts, back to it the interval is dropped. -/
def State.driveRaw (s : State) (d : Fin 16) (line : SenseLine) (level : Bool) : State :=
  s.updDrive d (fun x =>
    let raw := x.raw.put line level
    if !x.installed || x.raw.get line == level then { x with raw := raw }
    else if level == x.sense.get line then { x with raw := raw, intervals := x.intervals.put line none }
    else { x with raw := raw, intervals := x.intervals.put line (some x.debounce) })

/-- A debounce interval of a line ends with the raw input at a new level: the debounced level takes it, DRIVE_SENSE follows the edge
enable (R25, R26). None when no such interval runs. -/
def State.driveLevel (s : State) (d : Fin 16) (line : SenseLine) (level : Bool) : Option State :=
  let x := s.drive d
  if x.installed ∧ (x.intervals.get line).isSome ∧ x.raw.get line = level ∧ x.sense.get line ≠ level then
    let s := s.updDrive d (fun x => { x with
      sense := x.sense.put line level, intervals := x.intervals.put line none })
    some (if x.edges.enabled line level then s.raise .driveSense else s)
  else none

/-- An UNMANAGED drive is tested: EMPTY or OFFLINE once both levels read low, with the drive-empty notice in either case (R44; of OFFLINE,
DESIGN CHOICE, log 51). -/
def State.testUnmanaged (s : State) (d : Fin 16) : State := if (s.drive d).levelHigh then s else s.restDrive d

/-- What a debounced LOADED rise does in each state. -/
def State.onLoadedRise (s : State) (d : Fin 16) : State :=
  let x := s.drive d
  match x.state with
  | .empty => s.updDrive d (fun x => { x with state := .unmanaged, loadCount := x.loadCount + 1 })
  | .claimed =>
    if x.placeExpected then s
    else if x.claim.any (·.manual.isSome) then (if x.loadTimer.isSome then s.takeLoad d else s)
    else s.loseClaim d
  | .placed => s.loadPlaced d
  | .unloading => if x.session.isNone then s.startPulse d .unload else s
  | .released => if x.holdsRing then s.takeLoad d else s.enterCheck d
  | .unmanaged => s.testUnmanaged d
  | .offline | .loaded | .check => s

/-- What a debounced LOADED fall does in each state. -/
def State.onLoadedFall (s : State) (d : Fin 16) : State :=
  match (s.drive d).state with
  | .loaded => (s.setDriveState d .unloading).startReleaseTimer d
  | .unmanaged => s.testUnmanaged d
  | .offline | .empty | .claimed | .placed | .unloading | .released | .check => s

/-- What a debounced RELEASED rise does in each state. -/
def State.onReleasedRise (s : State) (d : Fin 16) : State :=
  match (s.drive d).state with
  | .empty => s.setDriveState d .unmanaged
  | .placed => s.loadFails d
  | .loaded | .unloading => s.releaseReel d
  | .unmanaged => s.testUnmanaged d
  | .offline | .claimed | .released | .check => s

/-- What a debounced RELEASED fall does in each state. -/
def State.onReleasedFall (s : State) (d : Fin 16) : State :=
  match (s.drive d).state with
  | .unmanaged => s.testUnmanaged d
  | .offline | .empty | .claimed | .placed | .loaded | .unloading | .released | .check => s

/-- What a debounced PROTECT change does: the ring of the volume while a session is open (R35). -/
def State.onProtectChange (s : State) (d : Fin 16) : State :=
  let x := s.drive d
  match x.session, x.volume with
  | some _, some e => s.setRing e x.sense.protect
  | _, _ => s

/-! ### CHECK (R42, R43) -/

/-- Both levels of a drive in CHECK read low: the reel is gone, and the drive-empty notice follows the volume-lost notice (R42). -/
def State.checkEmpty (s : State) (d : Fin 16) : State :=
  let x := s.drive d
  let s := match x.volume with
    | some e => (s.makeMissing e).clearDriveVolume d
    | none => s
  let s := (s.recordClaim d x.session .failed).updDrive d (fun x => { x with session := none })
  let s := (s.endClaim d).leaveCheck d
  (s.setDriveState d (if x.online then .empty else .offline)).notify (.volumeLost d x.claimTag) |>.notify (.driveEmpty d)

/-- A drive in CHECK reads LOADED high (R42). -/
def State.checkLoaded (s : State) (d : Fin 16) : State :=
  let x := s.drive d
  let s := (s.leaveCheck d).setDriveState d .loaded
  match x.session, x.claim with
  | some _, _ => s.notify (.loadedAgain d x.claimTag)
  | none, some c => if c.reserved then s.takeLoad d else s
  | none, none => s

/-- The levels of a drive in CHECK are read again; `offline` for the OFFLINE reply and DRIVE SERVICE OFFLINE (R42, R43). An open session that finds
RELEASED high has its record, under a ring hold too (R166). -/
def State.recheck (s : State) (d : Fin 16) (offline : Bool) : State :=
  if (s.drive d).state ≠ .check then s
  else
    let s := if offline then s.updDrive d (fun x => { x with online := false }) else s
    let x := s.drive d
    if x.sense.released then ((s.leaveCheck d).completeSession d).releaseReel d
    else if x.sense.loaded then
      let s := s.checkLoaded d
      if offline then ((s.startPulse d .unload).setDriveState d .unloading).startReleaseTimer d else s
    else s.checkEmpty d

/-! ### DRIVE SERVICE and table writes (R45, R46) -/

/-- DRIVE SERVICE OFFLINE (R45). -/
def State.serviceOffline (s : State) (d : Fin 16) : State :=
  match (s.drive d).state with
  | .check => s.recheck d true
  | .empty | .unmanaged => s.updDrive d (fun x => { x with online := false, state := .offline })
  | .offline => s
  | .claimed | .placed | .loaded | .unloading | .released => s.updDrive d (fun x => { x with online := false })

/-- DRIVE SERVICE ONLINE (R45). -/
def State.serviceOnline (s : State) (d : Fin 16) : State :=
  let x := s.drive d
  let s := s.updDrive d (fun x => { x with online := true })
  if x.state ≠ .offline then s
  else if x.levelHigh then s.setDriveState d .unmanaged
  else (s.setDriveState d .empty).notify .walk

/-- A change of the installed field (R26). -/
def State.setInstalled (s : State) (d : Fin 16) (installed : Bool) : State :=
  let x := s.drive d
  if x.installed = installed then s
  else if installed then
    let s := s.updDrive d (fun x => { x with installed := true, sense := x.raw, intervals := ⟨none, none, none⟩ })
    if (s.drive d).levelHigh then s.setDriveState d .unmanaged else s
  else s.updDrive d (fun x => { x with
    installed := false, sense := ⟨false, false, false⟩, intervals := ⟨none, none, none⟩, pulse := none })

/-! ### LINK RESET (R47) -/

/-- A claim loses its request at LINK RESET (R47). -/
def Claim.detach (c : Claim) : Claim := { c with tag := none, ringHold := false, detached := true }

/-- What LINK RESET does to a drive (R47). -/
def State.resetDrive (s : State) (d : Fin 16) : State :=
  let x := s.drive d
  match x.state with
  | .claimed => if x.placeExpected then s.updClaim d Claim.detach else (s.updClaim d Claim.detach).giveUpClaim d .reset
  | .placed => ((s.updClaim d Claim.detach).stopLoadTimer d).oweRecover d true
  | .loaded | .unloading | .released => (s.updClaim d Claim.detach).stopLabelTimer d
  | .check => s.updClaim d Claim.detach
  | .empty | .offline | .unmanaged => s

/-- What LINK RESET does to the drives, 0 to 15 (R47). -/
def State.resetDrives (s : State) : State := allDrives.foldl State.resetDrive s

end Sys2Proof.Machine
end

