-- ==== Sys2Proof/Machine/Rail.lean ====
section
/-! DEFINITION. The rail: the zone table, the claim list, grants, linger and what blocks a claim (sections 4.4 and 4.5), and the
choice of a free station position (R82). -/

namespace Sys2Proof.Machine

/-! ### The zone table (R94) -/

/-- The holder of a zone. -/
def State.zone? (s : State) (z : Nat) : Option Holding := (s.sch.zones[z]?).join

/-- The zone table with a function applied to each zone. -/
def State.mapZones (s : State) (f : Nat → Option Holding → Option Holding) : State :=
  { s with sch := { s.sch with zones := ⟨⟨s.sch.zones.toList.zipIdx.map (fun x => f x.2 x.1)⟩, by simp⟩ } }

/-- An arm holds a zone. -/
def State.holds (s : State) (a : ArmId) (z : Nat) : Bool := (s.zone? z).any (fun h => h.arm == a)

/-- A zone is free or already the arm's. -/
def State.openTo (s : State) (a : ArmId) (z : Nat) : Bool := (s.zone? z).all (fun h => h.arm == a)

/-- The zone an arm stands in. -/
def State.armZone (s : State) (a : ArmId) : Nat := zoneOf (s.arm a).column

/-- Every zone an arm holds other than its standing zone is released; the standing zone is its own. -/
def State.releaseOthers (s : State) (a : ArmId) : State :=
  let stand := s.armZone a
  s.mapZones (fun z h =>
    if z = stand then some ⟨a, .standing⟩
    else if h.any (fun h => h.arm == a) then none else h)

/-- Every lingering zone of an arm is released (R99). -/
def State.releaseLingering (s : State) (a : ArmId) : State :=
  s.mapZones (fun _ h => if h = some ⟨a, .lingering⟩ then none else h)

/-- The zones of a span, low to high. -/
def spanOf (from' : Nat) (target : Nat) : Nat × Nat := (min from' target, max from' target)

/-- An arm takes the zones of a span as claimed (R95). -/
def State.takeSpan (s : State) (a : ArmId) (lo hi : Nat) : State :=
  s.mapZones (fun z h => if lo ≤ z ∧ z ≤ hi then some ⟨a, .claimed⟩ else h)

/-- To the zones it holds, its standing zone first, a homing arm adds those toward its end zone that are free (R108). Its lingering zones
between its standing zone and its end are on its path and become claimed; its other lingering zones run out their time (R99; DEDUCED, log 53). -/
def State.takePath (s : State) (a : ArmId) : State :=
  let stand := s.armZone a
  s.mapZones (fun z h =>
    let held := (List.range 8).filter (fun k => k == stand || s.holds a k)
    let toward (k : Nat) : Bool := match a with
      | .armA => decide (z ≤ k)
      | .armB => decide (k ≤ z)
    if z = stand then some ⟨a, .standing⟩
    else if (h = none ∧ held.any toward = true) ∨ (h = some ⟨a, .lingering⟩ ∧ toward stand = true) then some ⟨a, .claimed⟩
    else h)

/-- At the arrival of a TRAVEL the other zones the arm holds linger, or with a linger of 0 are released; the timer starts (R99). -/
def State.lingerZones (s : State) (a : ArmId) : State :=
  let stand := s.armZone a
  if s.lingerSetting = 0 then (s.releaseOthers a).updArm a (fun x => { x with linger := none })
  else
    (s.mapZones (fun z h =>
      if z = stand then some ⟨a, .standing⟩
      else if h.any (fun h => h.arm == a) then some ⟨a, .lingering⟩ else h)).updArm a
      (fun x => { x with linger := some s.lingerSetting })

/-! ### The claim list (R95) -/

def State.claimOf (s : State) (a : ArmId) : Option RailClaim := s.sch.claims.find? (fun c => c.arm == a)

/-- An arm's claim leaves the list (R95). Lingering zones that it had turned into claimed ones stay held as claimed (DESIGN CHOICE, log 54). -/
def State.withdrawClaim (s : State) (a : ArmId) : State :=
  { s with sch := { s.sch with claims := s.sch.claims.filter (fun c => c.arm != a) } }

/-- A claim is made (R95): the linger timer stops, lingering zones in the span become claimed, those outside are released. -/
def State.makeClaim (s : State) (a : ArmId) (target : Nat) : State :=
  let (lo, hi) := spanOf (s.armZone a) (zoneOf target)
  let s := s.updArm a (fun x => { x with linger := none })
  let s := s.mapZones (fun z h =>
    if h = some ⟨a, .lingering⟩ then (if lo ≤ z ∧ z ≤ hi then some ⟨a, .claimed⟩ else none) else h)
  { s with sch := { s.sch with claims := s.sch.claims ++ [⟨a, lo, hi, target, s.clock⟩] } }

/-- A claim is granted when every zone of its span is free or the arm's (R95), and never to a zone the arm does not reach
(R61; DESIGN CHOICE, log 49). -/
def State.grantable (s : State) (c : RailClaim) : Bool :=
  armReaches c.arm (zoneOf c.target) && (List.range 8).all (fun z => z < c.lo || c.hi < z || s.openTo c.arm z)

/-- The zones of a claim's span that the other arm holds (R96). -/
def State.blocking (s : State) (c : RailClaim) : List Nat :=
  (List.range 8).filter (fun z => c.lo ≤ z && z ≤ c.hi && s.holds (otherArm c.arm) z)

/-- The nearest column outside a span on an arm's own side; its own column when it already stands outside (R97, R98). -/
def State.sideColumn (s : State) (a : ArmId) (lo hi : Nat) : Nat :=
  let own := (s.arm a).column
  match a with
  | .armA => if zoneOf own < lo then own else lo * 4 - 1
  | .armB => if hi < zoneOf own then own else hi * 4 + 4

/-- A standoff exists for a waiting claim: the other arm is RUNNING or HOLDING with a waiting claim of its own that needs a zone this
arm holds (R96, R98). -/
def State.standoff (s : State) (c : RailClaim) : Option RailClaim :=
  match s.claimOf (otherArm c.arm) with
  | none => none
  | some d =>
    let st := (s.arm d.arm).state
    if (st == .running || st == .holding) && !(s.blocking d).isEmpty then some d else none

/-- The arm whose waiting claim was made later (R98). -/
def State.younger (s : State) : Option RailClaim := s.sch.claims.getLast?

/-- The other arm is IDLE, makes no yield move, and stands in the span of a waiting claim (R96). -/
def State.mustYield (s : State) (c : RailClaim) : Bool :=
  let y := s.arm (otherArm c.arm)
  let z := zoneOf y.column
  y.state == .idle && y.move.isNone && c.lo ≤ z && z ≤ c.hi

/-! ### Station positions (R82) -/

/-- The distance of two columns. -/
def distance (x y : Nat) : Nat := (x - y) + (y - x)

/-- The presence of a position as the station checks count it: a lifted position counts as low (R153). -/
def Station.occupied (x : Station) : Bool := x.presence && !x.lifted

/-- A station position is free (R82, R159). -/
def State.positionFree (s : State) (p : Fin 8) : Bool :=
  let x := s.station p
  !x.occupied && x.volume.isNone && x.reserved.isNone && x.awaiting.isNone && !s.equipmentStands (.stationUnknown p)

/-- The position-free notice: a walk trigger, and owed drive RECOVERs may find their position (R65, R86, R160). -/
def State.notifyFree (s : State) : State := (s.notify .walk).notify .recovers

/-- The nearest of the free positions that a test accepts, by station column and then index (R82). -/
def State.nearestPosition (s : State) (column : Nat) (ok : Fin 8 → Bool) : Option (Fin 8) :=
  (allPositions.filter (fun p => s.positionFree p && ok p)).foldl (fun best p =>
    match best with
    | none => some p
    | some q => if distance column (stationColumn p) < distance column (stationColumn q) then some p else best) none

/-- The nearest free position from a place, whose station is in a zone of an arm in service that also reaches the place (R82). -/
def State.positionFrom (s : State) (q : Place) : Option (Fin 8) :=
  s.nearestPosition (s.placeColumn q) (fun p => s.placesReach q (.station p))

/-- The nearest free position an arm reaches, from its column (R92, R106). -/
def State.positionForArm (s : State) (a : ArmId) : Option (Fin 8) :=
  s.nearestPosition (s.arm a).column (fun p => armReaches a (zoneOf (stationColumn p)))

/-- The home slot of a volume when it is VACANT for it (R82, R92, R106). -/
def State.vacantHome (s : State) (e : Nat) : Option Nat :=
  if s.homeVacant e then (s.vol? e).bind (·.home) else none

/-- The home slot an arm can carry a volume to: VACANT for it, in a zone the arm reaches (R92, R106; DEDUCED, log 10). -/
def State.homeForArm (s : State) (a : ArmId) (e : Nat) : Option Nat :=
  (s.vacantHome e).filter (fun h => armReaches a (zoneOf (slotColumn h)))

end Sys2Proof.Machine
end

