-- ==== Sys2Proof/Machine/Orders.lean ====
section
/-! DEFINITION. The order pool: room, ids, binding, creation, reservations, removal, and the destinations of returns and recoveries
(section 4.2, R82, R106, R113). -/

namespace Sys2Proof.Machine

/-! ### Places -/

/-- A gripper RECOVER has the arm as its source (R87). -/
def Order.gripperRecover (o : Order) : Bool :=
  o.kind == .recover && (match o.source with
    | some (.arm _) => true
    | _ => false)

/-- The places of an order: an IMPORT's station, a SCAN's column, else source and destination (R88). -/
def Order.places (o : Order) : List Place := o.source.toList ++ o.dest.toList

/-- An order that carries the reel of a drive away: a RETURN, or the drive RECOVER of R113 (R82). -/
def Order.returnsDrive (o : Order) (d : Fin 16) : Bool :=
  (o.kind == .giveBack || o.kind == .recover) && o.source == some (.drive d)

/-- A return order for a drive is in the pool (R82). -/
def State.returnOrder (s : State) (d : Fin 16) : Option Order := s.sch.pool.find? (·.returnsDrive d)

/-- A slot is the source or destination of an order (R57, R91). -/
def Order.usesSlot (o : Order) (slot : Nat) : Bool := o.source == some (.slot slot) || o.dest == some (.slot slot)

/-- A station position is the source or destination of an order (R20, R57). -/
def Order.usesPosition (o : Order) (p : Fin 8) : Bool := o.source == some (.station p) || o.dest == some (.station p)

/-! ### Reservations (R87, R153) -/

/-- A position is reserved for an order. -/
def State.reserve (s : State) (p : Fin 8) (id : Nat) : State := s.updStation p (fun x => { x with reserved := some id })

/-- The reservations of an order are cleared; a position whose presence stays high is tested for an import (R90, R156). -/
def State.unreserve (s : State) (id : Nat) : State :=
  allPositions.foldl (fun s p =>
    if (s.station p).reserved = some id then
      (s.updStation p (fun x => { x with reserved := none })).notify (.importTest p)
    else s) s

/-- The reservations of an IMPORT that has ended are cleared with no test yet: the monitor takes its end by R158. -/
def State.unreserveSilently (s : State) (id : Nat) : State :=
  s.mapStations (fun x => if x.reserved = some id then { x with reserved := none } else x)

/-- The reservation of an order's station destination. -/
def State.reserveDest (s : State) (id : Nat) : Option Place → State
  | some (.station p) => s.reserve p id
  | _ => s

/-! ### Ids and room (R86) -/

/-- The id after an id, from 255 to 1 (R86). -/
def nextOrderId (n : Nat) : Nat := if n < 255 then n + 1 else 1

/-- The first id from a start that no order in the pool has (R86). -/
def State.freeId (s : State) : Nat → Nat → Nat
  | 0, n => n
  | fuel + 1, n => if s.sch.pool.any (fun o => o.id == n) then s.freeId fuel (nextOrderId n) else n

/-- How many orders the pool may hold before one more of a kind; a gripper RECOVER has the last two places (R86). -/
def roomFor (kind : OrderKind) (gripper : Bool) : Nat :=
  match kind with
  | .fetch | .giveBack | .eject | .handIn | .scan => Config.poolRoom
  | .recover => if gripper then 32 else Config.poolRoomDriveRecover

/-! ### Binding (R88) -/

/-- An arm can take an order: in service, no leave service mark, every place in a zone it reaches (R88). -/
def State.canTake (s : State) (a : ArmId) (o : Order) : Bool :=
  s.inService a && !(s.arm a).leaveMark && o.places.all (fun p => armReaches a (s.placeZone p))

/-- The arm an order is bound to (R88). -/
def State.bindingOf (s : State) (o : Order) : Option ArmId :=
  match s.canTake .armA o, s.canTake .armB o with
  | true, true =>
    let column := ((o.places.head?).map s.placeColumn).getD 0
    if distance (s.arm .armB).column column < distance (s.arm .armA).column column then some .armB else some .armA
  | true, false => some .armA
  | false, true => some .armB
  | false, false => none

/-- An unstarted order is bound by R88 and its arm looks at its list. -/
def State.bindOrder (s : State) (id : Nat) : State :=
  match s.order? id with
  | none => s
  | some o =>
    let b := s.bindingOf o
    let s := s.updOrder id (fun o => { o with bound := b, state := if b.isSome then .bound else .unbound })
    match b with
    | some a => s.notify (.armLook a)
    | none => s

/-- Binding looks again at every UNBOUND order, in order of creation (R88). -/
def State.bindUnbound (s : State) : State :=
  s.sch.pool.foldl (fun s o => if o.state = .unbound then s.bindOrder o.id else s) s

/-! ### Creation (R86, R87) -/

/-- An order joins the pool with the next id, reserves its station, and is bound: to `arm` where one is given, else by R88. None when
the pool has no room for its kind (R86). -/
def State.createOrder (s : State) (kind : OrderKind) (source dest : Option Place) (volume : Option Nat) (tag : Option Half)
    (legs : List Leg) (arm : Option ArmId) : Option (State × Nat) :=
  if s.sch.pool.length < roomFor kind arm.isSome then
    let id := s.freeId 32 s.sch.nextId
    let o : Order := {
      id := id
      kind := kind
      source := source
      dest := dest
      volume := volume
      tag := tag
      bound := arm
      legs := legs
      next := 0
      state := if arm.isSome then .bound else .unbound
      cut := false
      door := false
      started := false
      putBack := none }
    let s := { s with sch := { s.sch with pool := s.sch.pool ++ [o], nextId := nextOrderId id } }
    let s := s.reserveDest id dest
    let s := match arm with
      | some a => s.notify (.armLook a)
      | none => s.bindOrder id
    some (s, id)
  else none

/-- The legs of an order that carries a reel from one place to another (R87). -/
def State.carryLegs (s : State) (source dest : Place) : List Leg :=
  [.travel (some (s.placeColumn source)), .pick source, .travel (some (s.placeColumn dest)), .place (some dest)]

/-- The legs to a destination, or to one still to be chosen (R92). -/
def State.legsTo (s : State) : Option Place → List Leg
  | some q => [.travel (some (s.placeColumn q)), .place (some q)]
  | none => [.travel none, .place none]

/-- A FETCH, RETURN or EJECT order, or a drive RECOVER (R87). -/
def State.createCarry (s : State) (kind : OrderKind) (source dest : Place) (volume : Nat) (tag : Option Half) :
    Option (State × Nat) :=
  s.createOrder kind (some source) (some dest) (some volume) tag (s.carryLegs source dest) none

/-- An IMPORT order from a station position, which is reserved for it (R87, R156). -/
def State.createImport (s : State) (p : Fin 8) : Option State :=
  (s.createOrder .handIn (some (.station p)) none none none
    [.travel (some (stationColumn p)), .pick (.station p)] none).map (fun (s, id) => s.reserve p id)

/-- A SCAN order over slots of one column (R87, R118). -/
def State.createScan (s : State) (column : Nat) (slots : List Nat) : Option (State × Nat) :=
  s.createOrder .scan (some (.rail column)) none none none (.travel (some column) :: slots.map .read) none

/-- The gripper RECOVER of an arm with a loaded gripper, when it has none (R106). -/
def State.ensureRecover (s : State) (a : ArmId) : State :=
  if s.sch.pool.any (fun o => o.gripperRecover && o.bound == some a) then s
  else
    let home := match (s.arm a).gripper with
      | .volume e => (s.homeForArm a e).map Place.slot
      | .empty | .unknown => none
    let dest := match home with
      | some q => some q
      | none => (s.positionForArm a).map Place.station
    match s.createOrder .recover (some (.arm a)) dest (s.arm a).gripper.volume? none (s.legsTo dest) (some a) with
    | some (s, _) => s
    | none => s

/-! ### Returns from a drive (R82, R113) -/

/-- The destination of a return: the home slot when VACANT for the volume and no station is named, else the nearest position (R82). -/
def State.returnDest (s : State) (d : Fin 16) (e : Nat) (toStation : Bool) : Option Place :=
  let home := if toStation then none else (s.vacantHome e).map Place.slot
  match home with
  | some q => some q
  | none => (s.positionFrom (.drive d)).map .station

/-- A drive RECOVER may be created in this service state (R111, R186): in QUIESCING too, when an arm that homes has taken the library out of QUIESCED
(DESIGN CHOICE, log 71). -/
def recoverStates : SvcState → Bool
  | .homing | .active | .quiescing | .resuming => true
  | .starting | .quiesced | .interrupted => false

/-- The owed RECOVER of a drive is created when there is room and a destination; it is owed no more when the drive names no volume or
a return order takes the reel (R86, R113). -/
def State.createOwedRecover (s : State) (d : Fin 16) : State :=
  if !(s.sch.owedRecovers[d]) then s
  else
    match (s.drive d).volume with
    | none => s.oweRecover d false
    | some e =>
      if (s.returnOrder d).isSome then s.oweRecover d false
      else
        match s.returnDest d e false with
        | none => s
        | some dest =>
          match s.createCarry .recover (.drive d) dest e none with
          | some (s, _) => s.oweRecover d false
          | none => s

/-- The owed drive RECOVERs, in drive number order (R86). -/
def State.createOwedRecovers (s : State) : State :=
  if recoverStates s.service then allDrives.foldl State.createOwedRecover s else s

/-! ### Removal (R90, R112) -/

/-- An arm that has taken an order gives it up before its start: its claim is withdrawn (log 54) and it is free again (R90). -/
def State.untake (s : State) (a : ArmId) : State :=
  ((s.withdrawClaim a).updArm a (fun x => { x with order := none, leg := none, inserted := false })).notify (.armFree a)

/-- The arm that has an order as its current order. -/
def State.takenBy (s : State) (id : Nat) : Option ArmId := allArms.find? (fun a => (s.arm a).order == some id)

/-- An order that has not started leaves the pool (R90). -/
def State.removeOrder (s : State) (id : Nat) : State :=
  let s := match s.takenBy id with
    | some a => s.untake a
    | none => s
  (s.dropOrder id).unreserve id

/-- The order-end report of an order (R90). -/
def Order.report (o : Order) (ok : Bool) (cause : Option Cause) (door : Bool) (leg : Option Leg) : OrderEnd where
  id := o.id
  kind := o.kind
  tag := o.tag
  volume := o.volume
  source := o.source
  dest := o.dest
  ok := ok
  cause := cause
  door := door
  leg := leg
  rest := o.legs.drop o.next

/-- At the entry to QUIESCING every unstarted order other than RECOVER is removed and its owner told (R112). -/
def State.removeUnstarted (s : State) : State :=
  s.sch.pool.foldl (fun s o =>
    if o.started || o.kind == .recover || o.state == .failed then s
    else (s.removeOrder o.id).notify (.orderRemoved (o.report false none false none))) s

/-- The unstarted orders of an arm that leaves service or is marked are bound again; its gripper RECOVER stays its own (R88). -/
def State.rebindOrders (s : State) (a : ArmId) : State :=
  s.sch.pool.foldl (fun s o =>
    if o.bound == some a && !o.started && !o.gripperRecover && (o.state == .bound || o.state == .running) then
      let s := if (s.arm a).order = some o.id then s.untake a else s
      s.bindOrder o.id
    else s) s

end Sys2Proof.Machine
end

