-- ==== Sys2Proof/Machine/Arms.lean ====
section
/-! DEFINITION. The Arm Scheduler at work: the arm ports, claims tested, legs started and completed, failures and STATUS, homing,
parking, and the arms at the door, at a quiesce and at LINK RESET (sections 4.3 to 4.9). -/

namespace Sys2Proof.Machine

/-! ### The arm ports (R85, R193) -/

/-- The window of a leg, from the settings at its hand-out (R100). -/
def State.window (s : State) (a : ArmId) : Leg → Nat × Nat
  | .travel target =>
    let d := distance (s.arm a).column (target.getD (s.arm a).column)
    (d * s.setting 11, s.setting 12 + d * s.setting 13)
  | .pick _ => (s.setting 14, s.setting 15)
  | .place _ => (s.setting 16, s.setting 17)
  | .read _ => (s.setting 18, s.setting 19)
  | .home => (0, s.homeLimit)

/-- The volume a leg expects or carries: a PICK's is its order's, any other's is in the gripper (R103). -/
def State.legVolume (s : State) (a : ArmId) : Leg → Option Nat
  | .pick _ => ((s.arm a).order.bind s.order?).bind (·.volume)
  | .travel _ | .place _ | .read _ | .home => (s.arm a).gripper.volume?

/-- A frame is put on an arm's line; a LEG, HOME or STATUS becomes outstanding (R85). -/
def State.putOnLine (s : State) (a : ArmId) (f : ArmFrame) : State :=
  let port := s.armPort a
  let s := s.setArmPort a { port with sending := some f }
  match f with
  | .leg l =>
    let (lo, hi) := s.window a l
    let volume := s.legVolume a l
    s.updArm a (fun x => { x with outstanding := some (.leg l volume lo hi) })
  | .home => s.updArm a (fun x => { x with outstanding := some (.home s.homeLimit) })
  | .status => s.updArm a (fun x => { x with outstanding := some (.status s.statusLimit) })
  | .stop => s

/-- A frame is sent on an arm port: at once on a free line, else after the frames waiting, a STOP ahead of them (R193). -/
def State.sendArm (s : State) (a : ArmId) (f : ArmFrame) : State :=
  let port := s.armPort a
  match port.sending with
  | none => s.putOnLine a f
  | some _ =>
    s.setArmPort a { port with waiting := if f = .stop then f :: port.waiting else port.waiting ++ [f] }

/-- The frame being sent on an arm port has been sent: the next takes the line (R193). -/
def State.armLineFree (s : State) (a : ArmId) : State :=
  let port := s.armPort a
  match port.sending, port.waiting with
  | none, _ => s
  | some _, [] => s.setArmPort a { port with sending := none }
  | some _, f :: rest => (s.setArmPort a { port with sending := none, waiting := rest }).putOnLine a f

/-- A frame waiting is a STOP. -/
def ArmFrame.isStop : ArmFrame → Bool
  | .stop => true
  | .leg _ | .home | .status => false

/-- A LEG frame of a PLACE at a drive. -/
def Leg.placeDrive? : Leg → Option (Fin 16)
  | .place (some (.drive d)) => some d
  | .travel _ | .pick _ | .place _ | .read _ | .home => none

/-- An arm has an item outstanding, or one waiting for its line. -/
def State.armBusy (s : State) (a : ArmId) : Bool :=
  (s.arm a).outstanding.isSome || (s.armPort a).waiting.any (fun f => !f.isStop)

/-- The LEGs waiting for an arm's line are dropped; a PLACE expected at a drive is expected no more (R113). -/
def State.dropLegs (s : State) (a : ArmId) : State :=
  let port := s.armPort a
  let legs := port.waiting.filterMap (fun f => match f with
    | .leg l => some l
    | .home | .status | .stop => none)
  let kept := port.waiting.filter (fun f => match f with
    | .leg _ => false
    | .home | .status | .stop => true)
  (legs.filterMap Leg.placeDrive?).foldl State.placeFailed (s.setArmPort a { port with waiting := kept })

/-- STOP is sent on an arm port: it ends any outstanding item and what waits for the line (R85, R111). A HOME or STATUS that waits is dropped
with it (DESIGN CHOICE, log 55). -/
def State.sendStop (s : State) (a : ArmId) : State :=
  let lost := match (s.arm a).outstanding with
    | some (.leg l _ _ _) => l.placeDrive?
    | _ => none
  let s := (s.dropLegs a).updArm a (fun x => { x with outstanding := none })
  let s := match lost with
    | some d => s.placeFailed d
    | none => s
  (s.setArmPort a { s.armPort a with waiting := [] }).sendArm a .stop

/-! ### Service marks of homing (R179, R182) -/

def State.homingOwed (s : State) : ArmId → Bool
  | .armA => s.svc.owedA
  | .armB => s.svc.owedB

def State.setHomingOwed (s : State) (a : ArmId) (owed : Bool) : State :=
  match a with
  | .armA => { s with svc := { s.svc with owedA := owed } }
  | .armB => { s with svc := { s.svc with owedB := owed } }

/-! ### Entering OUT_OF_SERVICE (R105, R107, R109) -/

/-- An arm enters OUT_OF_SERVICE with the zones it holds; its orders are bound again (R88), its homing-owed mark is cleared (R182), and
ARM_OUT is asked for unless ARM SERVICE OUT took it there. An UNHOMED arm, which no rule takes there, stays UNHOMED (DESIGN CHOICE, log 49). -/
def State.enterOutOfService (s : State) (a : ArmId) (ask : Bool) : State :=
  let was := (s.arm a).state
  let s := (s.withdrawClaim a).updArm a (fun x => { x with
    state := if was = .unhomed then .unhomed else .outOfService, order := none, leg := none, move := none, linger := none, inserted := false, limitMark := false })
  let s := (s.setHomingOwed a false).rebindOrders a
  if ask then s.askEquipment (.armOut a) else s

/-! ### Order ends (R90) -/

/-- An order ends: it leaves the pool, its reservation is cleared (an IMPORT's by the monitor, as it takes the end), its owner has the
report, and what waits for an end is told. -/
def State.closeOrder (s : State) (id : Nat) (ok : Bool) (cause : Option Cause) (door : Bool) (leg : Option Leg) : State :=
  match s.order? id with
  | none => s
  | some o =>
    let s := s.dropOrder id
    let s := if o.kind = .handIn then s else s.unreserve id
    let s := ((s.notify (.orderEnded (o.report ok cause door leg))).notify .walk).notify .recovers
    if s.sch.pool.length < Config.poolRoom then s.notify .room else s

/-- The current order of an arm ends while the arm works: DONE or FAILED with a cause, and the arm is free, or out of service when the
limit reached mark waited for its RECOVER (R90, R107). -/
def State.endOrder (s : State) (a : ArmId) (o : Order) (ok : Bool) (cause : Option Cause) : State :=
  let s := s.closeOrder o.id ok cause false none
  let s := (s.withdrawClaim a).updArm a (fun x => { x with
    order := none, leg := none, inserted := false, failCount := if ok && !o.cut then 0 else x.failCount })
  if (s.arm a).limitMark && o.kind == .recover then s.enterOutOfService a true else s.notify (.armFree a)

/-! ### Starting legs (R90, R91, R95 to R98) -/

/-- The current order starts when its first leg is handed over (R90). -/
def State.markStarted (s : State) (a : ArmId) : State :=
  match (s.arm a).order.bind s.order? with
  | some o => if o.started then s else (s.updOrder o.id (fun o => { o with started := true })).notify (.orderStarted o.id)
  | none => s

/-- A leg is handed to the arm's port (R90, R91). -/
def State.handLeg (s : State) (a : ArmId) (l : Leg) : State :=
  let s := s.markStarted a
  let current := ((s.arm a).order.bind s.order?).map (·.next)
  (s.updArm a (fun x => { x with leg := current })).sendArm a (.leg l)

/-- A claim is granted and its TRAVEL handed out (R95). -/
def State.grantClaim (s : State) (c : RailClaim) : State :=
  ((s.withdrawClaim c.arm).takeSpan c.arm c.lo c.hi).handLeg c.arm (.travel (some c.target))

/-- The other arm is given a yield move out of a claim's span (R97); its own claim runs away and is granted at once. -/
def State.giveYield (s : State) (c : RailClaim) : State :=
  let y := otherArm c.arm
  let target := s.sideColumn y c.lo c.hi
  let s := s.updArm y (fun x => { x with state := .running, move := some (.yieldTo target) })
  let s := s.makeClaim y target
  match s.claimOf y with
  | some d => if s.grantable d then s.grantClaim d else s
  | none => s

/-- A TRAVEL is inserted before the pending TRAVEL of the arm that yields in a standoff; an arm on a move goes to the column instead
(R98). -/
def State.insertTravel (s : State) (a : ArmId) (column : Nat) : State :=
  match (s.arm a).order with
  | some id =>
    let s := s.updOrder id (fun o => { o with legs := o.legs.take o.next ++ .travel (some column) :: o.legs.drop o.next })
    s.updArm a (fun x => { x with inserted := true })
  | none => s.updArm a (fun x => { x with move := some (.yieldTo column) })

/-- A waiting claim is tested (R95, R96): granted, a standoff settled, or the other arm made to yield; none when it goes on waiting. -/
def State.testClaim (s : State) (c : RailClaim) : Option State :=
  if s.grantable c then some (s.grantClaim c)
  else
    match s.standoff c, s.younger with
    | some d, some young =>
      let (old, young) := if young.arm = c.arm then (d, c) else (c, d)
      let target := s.sideColumn young.arm old.lo old.hi
      some (((s.withdrawClaim young.arm).insertTravel young.arm target).notify (.armGo young.arm))
    | _, _ => if s.mustYield c then some (s.giveYield c) else none

/-- The first of a list of waiting claims that does not go on waiting. -/
def State.firstClaim (s : State) : List RailClaim → Option State
  | [] => none
  | c :: rest =>
    match s.testClaim c with
    | some t => some t
    | none => s.firstClaim rest

/-- The waiting claims are tested, oldest first, as long as one moves (R95). -/
def State.testClaims : Nat → State → State
  | 0, s => s
  | n + 1, s =>
    match s.firstClaim s.sch.claims with
    | some t => State.testClaims n t
    | none => s

/-- A claim is made for a TRAVEL and tested at once (R95). -/
def State.claimTravel (s : State) (a : ArmId) (target : Nat) : State :=
  let s := s.makeClaim a target
  match s.claimOf a with
  | some c => (s.testClaim c).getD s
  | none => s

/-- An arm has arrived by a yield or park move: the zones other than its standing zone are released without linger (R97, R109). -/
def State.arriveMove (s : State) (a : ArmId) (m : Move) : State :=
  let s := (s.releaseOthers a).updArm a (fun x => { x with move := none, leg := none, linger := none })
  match m with
  | .yieldTo _ => s.notify (.armFree a)
  | .park =>
    if (s.arm a).leaveMark then s.enterOutOfService a false
    else if s.service = .quiescing then s.updArm a (fun x => { x with state := .parked })
    else s.notify (.armFree a)

/-- The target of a move. -/
def Move.target (a : ArmId) : Move → Nat
  | .yieldTo c => c
  | .park => armEnd a

/-- The next leg of the current order. -/
def State.advance (s : State) (a : ArmId) : State :=
  let s := s.updArm a (fun x => { x with leg := none })
  match (s.arm a).order with
  | some id => (s.updOrder id (fun o => { o with next := o.next + 1 })).notify (.armGo a)
  | none => s.notify (.armFree a)

/-- An inserted TRAVEL has ended: every zone but the standing one is released, and the leg leaves the list (R98). -/
def State.endInserted (s : State) (a : ArmId) : State :=
  let s := (s.releaseOthers a).updArm a (fun x => { x with inserted := false, leg := none, linger := none })
  match (s.arm a).order with
  | some id => (s.updOrder id (fun o => { o with legs := o.legs.eraseIdx o.next })).notify (.armGo a)
  | none => s.notify (.armFree a)

/-- The rest of an order is replaced with a TRAVEL and a PLACE to the home slot or to a station position (R92). A leg in hand stays. -/
def State.replaceRest (s : State) (a : ArmId) (id : Nat) (toStation : Bool) : State :=
  match s.order? id with
  | none => s
  | some o =>
    let keep := if s.armBusy a then o.next + 1 else o.next
    let s := match o.dest with
      | some (.station p) =>
        if o.source = some (Place.station p) ∨ (s.station p).reserved ≠ some id then s
        else (s.updStation p (fun x => { x with reserved := none })).notify (.importTest p)
      | _ => s
    let home := match (s.arm a).gripper with
      | .volume e => if toStation then none else (s.homeForArm a e).map Place.slot
      | .empty | .unknown => none
    let dest := match home with
      | some q => some q
      | none => (s.positionForArm a).map Place.station
    let s := (s.withdrawClaim a).updOrder id (fun o => { o with
      legs := o.legs.take keep ++ s.legsTo dest, dest := dest, putBack := none })
    (s.reserveDest id dest).notify (.armGo a)

/-- A waiting destination, or a new position for a PLACE whose position is taken, is chosen (R91, R92). -/
def State.choosePosition (s : State) (a : ArmId) (o : Order) : Option State :=
  match s.positionForArm a with
  | none => none
  | some p =>
    let s := match o.dest with
      | some (.station q) =>
        if o.source = some (Place.station q) ∨ (s.station q).reserved ≠ some o.id then s
        else (s.updStation q (fun x => { x with reserved := none })).notify (.importTest q)
      | _ => s
    let dest := some (Place.station p)
    let s := s.updOrder o.id (fun o => { o with legs := o.legs.take o.next ++ s.legsTo dest, dest := dest })
    some ((s.reserve p o.id).notify (.armGo a))

/-- A running order is cut (R92): the legs after the one in hand are dropped; with none in hand it ends DONE. A reel being put back is put
back all the same (R102). -/
def State.cutOrder (s : State) (a : ArmId) (id : Nat) : State :=
  match s.order? id with
  | none => s
  | some o =>
    if o.putBack.isSome then s
    else
      let s := s.updOrder id (fun o => { o with cut := true, legs := if s.armBusy a then o.legs.take (o.next + 1) else o.legs })
      if s.armBusy a then s else s.endOrder a { o with cut := true } true none

/-- Whether a slot is the source or destination of another order of the pool (R91). -/
def State.slotInUse (s : State) (slot id : Nat) : Bool := s.sch.pool.any (fun o => o.id != id && o.usesSlot slot)

/-- The check of a PICK (R91); none when the leg is held. -/
def State.startPick (s : State) (a : ArmId) (o : Order) (p : Place) : Option State :=
  match p with
  | .slot n => if s.armBarred n then none else some (s.handLeg a (.pick p))
  | .drive d => if s.mayPick d then some (s.handLeg a (.pick p)) else none
  | .station q =>
    if (s.station q).occupied then some (s.handLeg a (.pick p))
    else if o.kind = .handIn then some (s.endOrder a o true none)
    else some (s.endOrder a o false (some .noCase))
  | .arm _ | .rail _ => none

/-- The check of a PLACE (R91); none when the leg is held or waits. A put-back answers to the fence bar alone (R102). -/
def State.startPlace (s : State) (a : ArmId) (o : Order) (p : Place) : Option State :=
  let hand := some (s.handLeg a (.place (some p)))
  match p with
  | .slot n =>
    if s.armBarred n then none
    else if o.putBack.isSome then hand
    else match (s.arm a).gripper with
      | .volume e => if s.slotState n = .vacant e then hand else some (s.replaceRest a o.id true)
      | .empty | .unknown => some (s.replaceRest a o.id true)
  | .drive d =>
    if (o.kind = .fetch ∨ o.kind = .handIn) ∧ s.mayPlace d o.tag then some ((s.expectPlace d).handLeg a (.place (some p)))
    else some (s.replaceRest a o.id false)
  | .station q =>
    if o.putBack.isSome then hand
    else if !(s.station q).occupied && (s.station q).volume.isNone then hand
    else s.choosePosition a o
  | .arm _ | .rail _ => none

/-- The check of a READ of a SCAN: a barred slot or one another order uses is passed over (R91, R115). -/
def State.startRead (s : State) (a : ArmId) (o : Order) (slot : Nat) : State :=
  if s.armBarred slot || s.slotInUse slot o.id then
    ((s.updOrder o.id (fun o => { o with next := o.next + 1 })).notify (.scanPassed o.id slot)).notify (.armGo a)
  else s.handLeg a (.read slot)

/-- The next leg of an arm's order is started (R91); none when it waits or is held. A TRAVEL to the arm's own column completes at once, as any other
would on arrival (R99, R100). -/
def State.stepOrder (s : State) (a : ArmId) (o : Order) : Option State :=
  match o.legs[o.next]? with
  | none => some (s.endOrder a o true none)
  | some (.travel none) => s.choosePosition a o
  | some (.travel (some c)) =>
    if (s.arm a).column ≠ c then some (s.claimTravel a c)
    else if (s.arm a).inserted then some ((s.markStarted a).endInserted a)
    else some (((s.markStarted a).lingerZones a).advance a)
  | some (.pick p) => s.startPick a o p
  | some (.place (some p)) => s.startPlace a o p
  | some (.place none) => s.choosePosition a o
  | some (.read slot) => some (s.startRead a o slot)
  | some .home => none

/-- A RUNNING arm with nothing in hand and no claim waiting starts what comes next; none when there is nothing it can start. -/
def State.armStep (s : State) (a : ArmId) : Option State :=
  let x := s.arm a
  if x.state ≠ .running ∨ s.armBusy a ∨ (s.claimOf a).isSome then none
  else
    match x.move with
    | some m =>
      if m.target a = x.column then some (s.arriveMove a m) else some (s.claimTravel a (m.target a))
    | none =>
      match x.order.bind s.order? with
      | some o => if o.state = .running then s.stepOrder a o else none
      | none => none

/-! ### Completed legs (R6 to R11, R99 to R102) -/

/-- A case mismatch: the reel in the gripper is put back where it was picked (R102). -/
def State.putBackReel (s : State) (a : ArmId) (place : Place) (r : Reading) : State :=
  match (s.arm a).order.bind s.order? with
  | none => s.notify (.armFree a)
  | some o =>
    let s := match o.dest with
      | some (.station p) =>
        if (s.station p).reserved = some o.id then
          (s.updStation p (fun x => { x with reserved := none })).notify (.importTest p)
        else s
      | _ => s
    let s := s.updArm a (fun x => { x with leg := none })
    let s := s.updOrder o.id (fun o => { o with
      legs := o.legs.take (o.next + 1) ++ [.place (some place)], next := o.next + 1, dest := some place, putBack := some r })
    (s.reserveDest o.id (some place)).notify (.armGo a)

/-- An order's PICK found no case: it ends FAILED (R102). -/
def State.endNoCase (s : State) (a : ArmId) : State :=
  match (s.arm a).order.bind s.order? with
  | some o => s.endOrder a o false (some .noCase)
  | none => s.notify (.armFree a)

/-- After a PICK that left a reel in the gripper: a cut order carries it home (R92). -/
def State.advancePick (s : State) (a : ArmId) : State :=
  let s := s.advance a
  match (s.arm a).order.bind s.order? with
  | some o => if o.cut && (s.arm a).gripper != .empty then s.replaceRest a o.id false else s
  | none => s

/-- The PICK at a rack slot of an expected volume completes with a reading (R6, R11, R102). -/
def State.donePickSlot (s : State) (a : ArmId) (slot : Nat) (volume : Option Nat) (r : Reading) : State :=
  match volume with
  | none => s.advance a
  | some e =>
    if s.reads r e then (s.pickAtSlot a slot e).advancePick a
    else if r = .noCase then (s.pickLoses slot e).endNoCase a
    else (((s.pickLoses slot e).raiseErrors e).setGripper a .unknown).putBackReel a (.slot slot) r

/-- The PICK at a station position completes: of a FETCH's volume, or of an IMPORT, whose legs the monitor appends (R9, R102, R157). The
lifted mark is set (R153). A FETCH that reads another reel holds it as an unknown reel, whatever volume the serial names (DEDUCED, log 63), leaves
the position with no record, and does not raise the error count of the volume it expected (DESIGN CHOICE, logs 56 and 57). -/
def State.donePickStation (s : State) (a : ArmId) (p : Fin 8) (volume : Option Nat) (r : Reading) : State :=
  let s := s.updStation p (fun x => { x with lifted := true })
  match volume with
  | some e =>
    if s.reads r e then (s.pickAtStation a p r).advancePick a
    else if r = .noCase then ((s.clearStationVolume p).setGripper a .empty).endNoCase a
    else (((s.clearStationVolume p).makeMissing e).setGripper a .unknown).putBackReel a (.station p) r
  | none =>
    let s := s.pickAtStation a p r
    match (s.arm a).order.bind s.order? with
    | none => s.notify (.armFree a)
    | some o =>
      let s := s.updArm a (fun x => { x with leg := none })
      let s := s.updOrder o.id (fun o => { o with next := o.next + 1 })
      s.notify (.importPicked o.id a p)

/-- A PLACE completes (R7 to R9, R29, R102, R106). A put-back whose order LINK RESET has removed finds its reading all the same (R11, R113; log 9). An
unknown reel whose RECOVER or IMPORT was so removed is placed at a position without STATION_UNKNOWN (DESIGN CHOICE, log 70). -/
def State.donePlace (s : State) (a : ArmId) (p : Place) : State :=
  let gripper := (s.arm a).gripper
  let kept := (s.arm a).putBack
  let s := s.updArm a (fun x => { x with putBack := none })
  let order := (s.arm a).order.bind s.order?
  match order.bind (·.putBack), order with
  | some r, some o =>
    let s := s.setGripper a .empty
    let s := match p with
      | .slot n => (s.slotReading n r).1
      | .station q => (s.updStation q (fun x => { x with lifted := false })).askEquipment (.stationUnknown q)
      | .drive _ | .arm _ | .rail _ => s
    s.endOrder a o false (some .caseMismatch)
  | _, _ =>
    match p with
    | .slot n =>
      match gripper with
      | .volume e => (s.placeAtSlot a e).advance a
      | .unknown => (((s.setGripper a .empty).slotReading n (kept.getD .unreadable)).1).advance a
      | .empty => s.advance a
    | .drive d =>
      match gripper with
      | .volume e => ((s.placeAtDrive a d e).placedOnDrive d).advance a
      | .unknown | .empty => ((s.setGripper a .empty).placeFailed d).advance a
    | .station q =>
      let s := s.placeAtStation a q
      let s := if gripper = .unknown ∧ order.any (fun o => o.kind == .recover) then
        (s.askEquipment (.stationUnknown q)).raise .station
      else if gripper = .unknown ∧ kept.isSome then s.askEquipment (.stationUnknown q)
      else s
      s.advance a
    | .arm _ | .rail _ => s.advance a

/-- A READ completes: the directory takes the reading, the Audit Unit what it found (R10, R100). -/
def State.doneRead (s : State) (a : ArmId) (slot : Nat) (r : Reading) : State :=
  let (s, counts) := s.slotReading slot r
  let s := match (s.arm a).order with
    | some id => s.notify (.scanRead id slot counts)
    | none => s
  s.advance a

/-- A TRAVEL completes: the column is the target; what it was for goes on (R97 to R99, R109). One whose yield, park or standoff LINK RESET has dropped
arrives as any other, its zones lingering (DESIGN CHOICE, log 68). -/
def State.doneTravel (s : State) (a : ArmId) (target : Nat) : State :=
  let x := s.arm a
  let s := s.updArm a (fun x => { x with column := target })
  match x.move with
  | some m => s.arriveMove a m
  | none => if x.inserted then s.endInserted a else (s.lingerZones a).advance a

/-- A leg completes (R100). -/
def State.legCompletes (s : State) (a : ArmId) (l : Leg) (volume : Option Nat) (r : Reading) : State :=
  let s := s.updArm a (fun x => { x with outstanding := none })
  match l with
  | .travel target => s.doneTravel a (target.getD (s.arm a).column)
  | .pick (.slot n) => s.donePickSlot a n volume r
  | .pick (.drive d) => ((s.pickAtDrive a d).pickedFromDrive d).advancePick a
  | .pick (.station p) => s.donePickStation a p volume r
  | .pick (.arm _) | .pick (.rail _) => s.advance a
  | .place (some p) => s.donePlace a p
  | .place none => s.advance a
  | .read slot => s.doneRead a slot r
  | .home => s

/-! ### Failures (R103) -/

/-- The outstanding leg fails: the pending failure is recorded, the order is FAILED, STATUS is sent (R103). -/
def State.legFails (s : State) (a : ArmId) (l : Leg) (volume : Option Nat) (cause : Cause) : State :=
  let s := match l.placeDrive? with
    | some d => s.placeFailed d
    | none => s
  let s := match (s.arm a).order with
    | some id => s.updOrder id (fun o => { o with state := .failed })
    | none => s
  let s := s.updArm a (fun x => { x with
    state := .statusWait, outstanding := none, linger := none, move := none, leg := none, putBack := none,
    failure := some ⟨l, volume, cause, false⟩ })
  s.sendArm a .status

/-! ### STATUS (R12, R104, R105) -/

/-- What STATUS says of a gripper (R12). -/
inductive StatusResult where
  | empty
  | serial (t : Text)
  | unreadable
  | noReply
deriving DecidableEq, Repr

/-- The expected volume was picked after all: as a completed PICK (R12). -/
def State.pickedAfterAll (s : State) (a : ArmId) (p : Place) (e : Nat) : State :=
  match p with
  | .slot n => s.pickAtSlot a n e
  | .drive d => ((s.pickAtDrive a d).pickedFromDrive d).notify (.reelTaken d (some e))
  | .station q => ((s.clearStationVolume q).takeInArm a e).updStation q (fun x => { x with lifted := true })
  | .arm _ | .rail _ => s.takeInArm a e

/-- A failed PICK with no reply: the expected volume counts as carried, and is MISSING (R12, R105). A reel on a drive counts as taken
from it (DEDUCED, log 11). -/
def State.pickLostWithArm (s : State) (a : ArmId) (p : Place) (volume : Option Nat) : State :=
  let s := match p, volume with
    | .drive d, _ => ((s.pickAtDrive a d).pickedFromDrive d).notify (.reelTaken d volume)
    | .station q, some _ => s.clearStationVolume q
    | _, _ => s
  let s := match volume with
    | some e => s.makeMissing e
    | none => s
  s.setGripper a .unknown

/-- A loaded gripper with another reel than the carried or expected one: the volume its serial names when that is MISSING, else an
unknown reel (R12). -/
def State.otherReel (s : State) (a : ArmId) (r : StatusResult) : State :=
  let named := match r with
    | .serial t => s.entryOf t
    | .empty | .unreadable | .noReply => none
  match named with
  | some e => if (s.vol? e).any (fun v => v.loc == .missing) then s.takeInArm a e else s.setGripper a .unknown
  | none => s.setGripper a .unknown

/-- Whether a STATUS result is the serial of a volume. -/
def State.statusReads (s : State) (r : StatusResult) (e : Nat) : Bool :=
  match r with
  | .serial t => s.serialOf e == some t
  | .empty | .unreadable | .noReply => false

/-- The directory settles a gripper by the failed leg and the STATUS result (R12): `pick` the place of a failed PICK, `volume` the volume
expected or carried. -/
def State.settleGripper (s : State) (a : ArmId) (pick : Option Place) (volume : Option Nat) (r : StatusResult) : State :=
  match pick with
  | some p =>
    match r with
    | .empty => s.setGripper a .empty
    | .noReply => s.pickLostWithArm a p volume
    | .serial _ | .unreadable =>
      match volume with
      | some e => if s.statusReads r e then s.pickedAfterAll a p e else s.otherReel a r
      | none => s.otherReel a r
  | none =>
    match r, volume with
    | .empty, some e => (s.makeMissing e).setGripper a .empty
    | .empty, none => s.setGripper a .empty
    | .noReply, some e => (s.makeMissing e).setGripper a .unknown
    | .noReply, none => s
    | .serial _, some e | .unreadable, some e =>
      if s.statusReads r e then s else (s.makeMissing e).otherReel a r
    | .serial _, none | .unreadable, none => s.otherReel a r

/-- A pending failure, or with none what the gripper carries, is handed to the directory with a STATUS result (R104, R108). -/
def State.settleFailure (s : State) (a : ArmId) (r : StatusResult) : State :=
  match (s.arm a).failure with
  | some f =>
    let pick := match f.leg with
      | .pick p => some p
      | .travel _ | .place _ | .read _ | .home => none
    (s.settleGripper a pick f.volume r).updArm a (fun x => { x with failure := none })
  | none => s.settleGripper a none (s.arm a).gripper.volume? r

/-- The current order of an arm ends FAILED as its pending failure says (R104, R105). -/
def State.closeFailed (s : State) (a : ArmId) (f : Option Failure) : State :=
  let id := (s.arm a).order
  let s := s.updArm a (fun x => { x with order := none, leg := none, inserted := false })
  match id with
  | some id => s.closeOrder id false (f.map Failure.cause) (f.any Failure.door) (f.map Failure.leg)
  | none => s

/-- The consecutive failure count is at or above the limit (R107). -/
def State.limitReached (s : State) (a : ArmId) : Bool := s.armFailureLimit ≤ (s.arm a).failCount

/-- A used STATUS_REPLY in STATUS_WAIT (R104, R107). -/
def State.statusUsed (s : State) (a : ArmId) (column : Nat) (r : StatusResult) : State :=
  let x := s.arm a
  let recovering := x.limitMark && (x.order.bind s.order?).any (fun o => o.kind == .recover)
  let s := (s.updArm a (fun x => { x with column := column })).releaseOthers a
  let s := (s.settleFailure a r).closeFailed a x.failure
  let s := s.updArm a (fun x => { x with failCount := min 15 (x.failCount + 1) })
  if recovering then s.enterOutOfService a true
  else if s.limitReached a then
    if (s.arm a).gripper = .empty then s.enterOutOfService a true
    else (s.updArm a (fun x => { x with limitMark := true })).notify (.armFree a)
  else s.notify (.armFree a)

/-- A STATUS taken as unanswered in STATUS_WAIT (R105). -/
def State.statusUnanswered (s : State) (a : ArmId) (r : StatusResult) : State :=
  let f : Option Failure := (s.arm a).failure
  let id : Option Nat := (s.arm a).order
  let s := (s.updArm a (fun x => { x with order := none })).enterOutOfService a true
  let s := match id with
    | some id => s.closeOrder id false (f.map Failure.cause) (f.any Failure.door) (f.map Failure.leg)
    | none => s
  s.settleFailure a r

/-! ### Homing (R108) -/

/-- An arm enters HOMING (R108): from UNHOMED or OUT_OF_SERVICE it enters service; the zones toward its end are added; HOME is sent. -/
def State.enterHoming (s : State) (a : ArmId) : State :=
  let was := (s.arm a).state
  let s := if was = .outOfService then s.endEquipment (.armOut a) else s
  let s := ((s.dropLegs a).withdrawClaim a).updArm a (fun x => { x with
    state := .homing, order := none, leg := none, move := none, inserted := false, stopped := false,
    failCount := if was = .outOfService then 0 else x.failCount })
  let s := (s.takePath a).sendArm a .home
  let s := if was = .unhomed ∨ was = .outOfService then s.notify (.armEntered a) else s
  s.notify (.armHoming a)

/-- Homing fails: OUT_OF_SERVICE with its zones; a door pending failure is handed over as having no reply (R108). With no failure pending and no reply, the
gripper and the volume in it stay as recorded (R110; DEDUCED, log 76). -/
def State.homingFails (s : State) (a : ArmId) (r : StatusResult) : State :=
  let s := match (s.arm a).failure, r with
    | some _, _ => s.settleFailure a .noReply
    | none, .noReply => s
    | none, _ => s.settleFailure a r
  s.enterOutOfService a true

/-- HOME_DONE (R108): its column in a held zone is the arm's, the other zones are released, STATUS is sent. -/
def State.homeReached (s : State) (a : ArmId) (column : Nat) : State :=
  let s := s.updArm a (fun x => { x with outstanding := none })
  if column < 32 ∧ s.holds a (zoneOf column) then
    ((s.updArm a (fun x => { x with column := column })).releaseOthers a).sendArm a .status
  else s.homingFails a .noReply

/-- A used STATUS_REPLY at the end of homing (R108). -/
def State.homed (s : State) (a : ArmId) (column : Nat) (r : StatusResult) : State :=
  let s := (s.updArm a (fun x => { x with column := column })).releaseOthers a
  let s := (s.settleFailure a r).setHomingOwed a false
  if (s.arm a).leaveMark && (s.arm a).gripper == .empty then s.enterOutOfService a false
  else s.notify (.armFree a)

/-! ### Looking for work (R89, R109, R112) -/

/-- Whether the service state lets an order start (R89). -/
def startable (svc : SvcState) : OrderKind → Bool
  | .recover => recoverStates svc
  | .scan => svc == .active || svc == .resuming
  | .fetch | .giveBack | .eject | .handIn => svc == .active

/-- The dispatch rank of an order, lower first: its class, and within the requests priority and arrival (R89). -/
def State.rank (s : State) (o : Order) : Nat :=
  let live := (o.tag.bind s.request?).map (fun r => (r, s.ms.queue.findIdx (fun q => q.tag == r.tag)))
  match o.kind, live with
  | .recover, _ => 0
  | _, some (r, place) => 1000 + 100 * r.priority + place
  | .handIn, none => 3000
  | .scan, none => 4000
  | .giveBack, none | .fetch, none | .eject, none => 2000

/-- The first order on an arm's list that may start (R89). -/
def State.firstOrder (s : State) (a : ArmId) : Option Order :=
  (s.sch.pool.filter (fun o => o.bound == some a && o.state == .bound && startable s.service o.kind)).foldl
    (fun best o => match best with
      | none => some o
      | some b => if s.rank o < s.rank b then some o else best) none

/-- The gripper RECOVER of a HOLDING arm, when it may start: the one order such an arm takes, whatever else its list holds (R89). -/
def State.ownRecover (s : State) (a : ArmId) : Option Order :=
  s.sch.pool.find? (fun o => o.gripperRecover && o.bound == some a && o.state == .bound && startable s.service o.kind)

/-- An arm takes an order (R89). -/
def State.takeOrder (s : State) (a : ArmId) (o : Order) : State :=
  let s := s.updArm a (fun x => { x with state := .running, order := some o.id })
  (s.updOrder o.id (fun o => { o with state := .running })).notify (.armGo a)

/-- A park move begins (R109). -/
def State.startPark (s : State) (a : ArmId) : State :=
  (s.updArm a (fun x => { x with state := .running, move := some .park })).notify (.armGo a)

/-- An IDLE or HOLDING arm looks at its list (R89); marked, or idle in QUIESCING, it parks (R109, R112). -/
def State.armLooks (s : State) (a : ArmId) : State :=
  match (s.arm a).state with
  | .holding =>
    match s.ownRecover a with
    | some o => s.takeOrder a o
    | none => s
  | .idle =>
    if (s.arm a).leaveMark then s.startPark a
    else
      match s.firstOrder a with
      | some o => s.takeOrder a o
      | none => if s.service = .quiescing then s.startPark a else s
  | .unhomed | .homing | .running | .statusWait | .faulted | .outOfService | .parked => s

/-- An arm with its work ended: it homes when that is owed, holds its reel for a RECOVER, or is idle and looks at its list (R90, R106,
R112, R113). An owed homing comes before the leave service mark, which acts at the end of that homing (DESIGN CHOICE, log 78). -/
def State.armIsFree (s : State) (a : ArmId) : State :=
  let x := s.arm a
  if x.state = .unhomed ∨ x.state = .faulted ∨ x.state = .outOfService ∨ x.state = .parked ∨ s.armBusy a ∨
      x.order.isSome ∨ x.move.isSome then s
  else if s.homingOwed a && (s.service == .homing || (s.service == .resuming && x.gripper == .empty)) then s.enterHoming a
  else if x.gripper = .empty then
    ((s.withdrawClaim a).updArm a (fun x => { x with state := .idle })).armLooks a
  else (((s.withdrawClaim a).updArm a (fun x => { x with state := .holding })).ensureRecover a).notify (.armLook a)

/-! ### Service commands to the arms (R109, R110) -/

/-- ARM SERVICE OUT (R109). The leave service mark is set for a PARKED arm too (DESIGN CHOICE, log 59). -/
def State.armOut (s : State) (a : ArmId) : State :=
  match (s.arm a).state with
  | .outOfService => s
  | .parked => (s.updArm a (fun x => { x with leaveMark := true })).enterOutOfService a false
  | .idle => ((s.updArm a (fun x => { x with leaveMark := true })).rebindOrders a).notify (.armLook a)
  | .unhomed | .homing | .running | .holding | .statusWait | .faulted =>
    (s.updArm a (fun x => { x with leaveMark := true })).rebindOrders a

/-- ARM SERVICE IN, and the ARM_OUT DONE reply for an OUT_OF_SERVICE arm (R109, R110). -/
def State.armIn (s : State) (a : ArmId) : State :=
  let was := (s.arm a).state
  let s := s.updArm a (fun x => { x with leaveMark := false })
  if was = .outOfService then s.enterHoming a else s

/-! ### The door (R111, R189) -/

/-- An arm works or rests on the rail: a door opening faults it (R111). -/
def faultable : ArmState → Bool
  | .homing | .idle | .running | .holding | .statusWait | .parked => true
  | .unhomed | .faulted | .outOfService => false

/-- STOP is sent to an arm at a door opening; an outstanding leg is its pending failure (R111). -/
def State.stopArm (s : State) (a : ArmId) : State :=
  let x := s.arm a
  let failure := match x.outstanding with
    | some (.leg l volume _ _) => some ⟨l, volume, .door, true⟩
    | _ => x.failure.map (fun f => { f with door := true })
  (s.sendStop a).updArm a (fun x => { x with failure := failure, stopped := true, putBack := none })

/-- The request that had joined a drive RECOVER loses it at a door opening: with the reel taken from the drive it waits for the recovery of the volume,
else for the next return (R75, R111). -/
def State.leaveRecover (s : State) (o : Order) (onDrive : Bool) : State :=
  match o.tag with
  | some t => s.updRequest t (fun r => { r with order := none, awaitVolume := if onDrive then none else o.volume })
  | none => s

/-- What a door opening does to an order (R111): a RECOVER is removed, a drive's whose reel is still there is owed again; any other that
runs or has failed ends FAILED with the door flag (R111; of one FAILED, or taken and not started, DESIGN CHOICE, logs 12 and 58). -/
def State.doorFails (s : State) (o : Order) : State :=
  if o.kind = .recover then
    let s := (s.dropOrder o.id).unreserve o.id
    match o.source with
    | some (.drive d) =>
      let onDrive := (s.drive d).volume.isSome && (s.drive d).volume == o.volume
      let s := s.leaveRecover o onDrive
      if onDrive then s.oweRecover d true else s
    | _ => s
  else if o.state = .running ∨ o.state = .failed then s.closeOrder o.id false (some .door) true none
  else s

/-- An arm enters FAULTED and keeps its zones (R111). -/
def State.faultArm (s : State) (a : ArmId) : State :=
  if faultable (s.arm a).state then
    (s.withdrawClaim a).updArm a (fun x => { x with
      state := .faulted, order := none, leg := none, move := none, linger := none, inserted := false })
  else s

/-- A debounced door opening at the scheduler (R111). -/
def State.doorStopsArms (s : State) : State :=
  let s := (s.stopArm .armA).stopArm .armB
  let s := s.sch.pool.foldl State.doorFails s
  let s := { s with sch := { s.sch with claims := [] } }
  (s.faultArm .armA).faultArm .armB

/-- An arm that enters HOMING with the door open is stopped and faulted (R189). -/
def State.stopHoming (s : State) (a : ArmId) : State :=
  ((s.sendStop a).updArm a (fun x => { x with stopped := true })).faultArm a

/-! ### LINK RESET (R113) -/

/-- What LINK RESET does to an arm: its order is gone, a leg outstanding runs on, and with nothing outstanding it homes when the
Service Controller homes the arms (R113). Its lingering zones are released in every state (DEDUCED, log 67), and a move or an inserted TRAVEL under
way is dropped with its mark (DESIGN CHOICE, log 68). -/
def State.resetArm (s : State) (a : ArmId) (homes : Bool) : State :=
  let s := s.releaseLingering a
  let s := s.updArm a (fun x => { x with order := none, leg := none, move := none, inserted := false, linger := none })
  let s := s.dropLegs a
  match (s.arm a).state with
  | .idle | .running | .holding | .parked =>
    let s := if homes then s.setHomingOwed a true else s
    if homes && !s.armBusy a then s.enterHoming a else s
  | .statusWait | .homing => if homes then s.setHomingOwed a true else s
  | .unhomed | .faulted | .outOfService => s

/-- The reading of a reel whose put-back is outstanding stays with its arm when LINK RESET removes its order (R11, R113). -/
def State.keepPutBack (s : State) (a : ArmId) : State :=
  match (s.arm a).outstanding, (s.arm a).order.bind s.order? with
  | some (.leg (.place _) _ _ _), some o => s.updArm a (fun x => { x with putBack := o.putBack })
  | _, _ => s

/-- LINK RESET at the scheduler (R113): the pool and the claim list are emptied, the arms act. -/
def State.resetScheduler (s : State) (homes : Bool) : State :=
  let s := (s.keepPutBack .armA).keepPutBack .armB
  let s := { s with sch := { s.sch with pool := [], claims := [] } }
  (s.resetArm .armA homes).resetArm .armB homes

end Sys2Proof.Machine
end

