-- ==== Sys2Proof/Machine/AuditUnit.lean ====
section
/-! DEFINITION. The Audit Unit: the audit record, its SCAN orders, counts, completion and abort (chapter 5). -/

namespace Sys2Proof.Machine

def State.updAudit (s : State) (f : AuditBlock → AuditBlock) : State := { s with aud := f s.aud }

/-- A count of the audit record saturates at 2048 (R120). -/
def satCount (n : Nat) : Nat := min 2048 (n + 1)

/-- One count rises (R120). -/
def AuditBlock.count (b : AuditBlock) : AuditCount → AuditBlock
  | .matched => { b with matched := satCount b.matched }
  | .foundMissing => { b with foundMissing := satCount b.foundMissing }
  | .foundForeign => { b with foundForeign := satCount b.foundForeign }
  | .foundMisplaced => { b with foundMisplaced := satCount b.foundMisplaced }
  | .recovered => { b with recovered := satCount b.recovered }

/-- A slot is settled in the first pass: the next slot is the one after it, absent after the last of the range (R119). -/
def AuditBlock.settleFirst (b : AuditBlock) (slot : Nat) : AuditBlock :=
  if b.deferredPass then b
  else { b with nextSlot := if b.range.any (fun r => slot < r.2) then some (slot + 1) else none }

/-- A slot is put aside, or counted as skipped when the list is full (R115). -/
def AuditBlock.defer (b : AuditBlock) (slot : Nat) : AuditBlock :=
  if b.deferred.length < Config.maxDeferred then { b with deferred := b.deferred ++ [slot] }
  else { b with skipped := satCount b.skipped }

/-- A slot is passed over, or its READ has failed: deferred in the first pass, skipped in the second (R115, R119, R121). -/
def AuditBlock.passOver (b : AuditBlock) (slot : Nat) : AuditBlock :=
  if b.deferredPass then { b with skipped := satCount b.skipped } else (b.defer slot).settleFirst slot

/-- The slots of the next SCAN (R118). -/
def AuditBlock.nextRun (b : AuditBlock) : List Nat :=
  if b.deferredPass then
    match b.deferred with
    | [] => []
    | first :: _ => b.deferred.filter (fun n => slotColumn n == slotColumn first)
  else
    match b.nextSlot, b.range with
    | some n, some (_, last) =>
      let columnEnd := slotColumn n * Config.levels + (Config.levels - 1)
      (List.range (min columnEnd last + 1 - n)).map (· + n)
    | _, _ => []

/-- The service state lets a SCAN be asked for (R118). -/
def scanStates (svc : SvcState) : Bool := svc == .active || svc == .resuming

/-- The audit ends: AUDIT_DONE is raised (R122, R123). -/
def State.endAudit (s : State) (outcome : AuditOutcome) : State :=
  (s.updAudit (fun b => { b with state := .idle, outcome := outcome, scan := none, scanOwed := false })).raise .auditDone

/-- The audit asks for its next SCAN, or the SCAN is owed (R118). -/
def State.askScan (s : State) : State :=
  if s.aud.state ≠ .running ∨ s.aud.scan.isSome then s
  else
    let run := s.aud.nextRun
    let made := if scanStates s.service then
        match run with
        | [] => none
        | first :: _ => s.createScan (slotColumn first) run
      else none
    match made with
    | some (s, id) => s.updAudit (fun b => { b with
        scan := some id, scanOwed := false, deferred := if b.deferredPass then b.deferred.filter (fun n => !run.contains n) else b.deferred })
    | none => s.updAudit (fun b => { b with scanOwed := true })

/-- An audit of a range begins (R117). -/
def State.beginAudit (s : State) (first last : Nat) : State :=
  (s.updAudit (fun b => { b with
    state := .running, range := some (first, last), deferredPass := false, nextSlot := some first, scan := none, scanOwed := false,
    matched := 0, foundMissing := 0, foundForeign := 0, foundMisplaced := 0, recovered := 0, skipped := 0,
    outcome := .none, deferred := [], held := false })).askScan

/-- The Service Controller asks for an audit of all slots; while the record is STOPPING the request is held (R117). -/
def State.askFullAudit (s : State) : State :=
  match s.aud.state with
  | .idle => s.beginAudit 0 (Config.slots - 1)
  | .stopping => s.updAudit (fun b => { b with held := true })
  | .running => s

/-- The slots of READ legs. -/
def readSlots (legs : List Leg) : List Nat :=
  legs.filterMap (fun l => match l with
    | .read n => some n
    | .travel _ | .pick _ | .place _ | .home => none)

/-- The unsettled slots of a SCAN of the second pass return to the front of the list (R114, R121). -/
def AuditBlock.giveBack (b : AuditBlock) (slots : List Nat) : AuditBlock :=
  if b.deferredPass then { b with deferred := slots ++ b.deferred } else b

/-- A SCAN has ended: with the first pass exhausted the pass becomes DEFERRED (R119). -/
def AuditBlock.endPass (b : AuditBlock) : AuditBlock := { b with deferredPass := b.deferredPass || b.nextSlot.isNone }

/-- The report of an order's end or removal waits to be taken. -/
def State.reportWaits (s : State) (id : Nat) : Bool :=
  s.notices.any (fun n => match n with
    | .orderEnded r | .orderRemoved r => r.id == id
    | _ => false)

/-- The stop of an audit ends it ABORTED; a held request then begins (R117, R123). -/
def State.finishAbort (s : State) : State :=
  let s := s.endAudit .aborted
  if s.aud.held then s.beginAudit 0 (Config.slots - 1) else s

/-- An aborted audit's SCAN, which has not started or which no arm has, leaves the pool, and its slots return to the list (R121, R123). -/
def State.dropScan (s : State) (o : Order) : State :=
  ((s.updAudit (fun b => b.giveBack (readSlots (o.legs.drop o.next)))).removeOrder o.id).finishAbort

/-- A running audit is aborted (R123). The slots that its SCAN will not reach return to the list, a READ in hand running to its end. -/
def State.abortAudit (s : State) : State :=
  if s.aud.state ≠ .running then s
  else
    let s := s.updAudit (fun b => { b with state := .stopping })
    match s.aud.scan with
    | none => s.finishAbort
    | some id =>
      match s.order? id with
      | none => if s.reportWaits id then s else s.finishAbort
      | some o =>
        if o.state = .failed then s
        else
          match o.started, s.takenBy id with
          | true, some a =>
            let left := o.legs.drop (if s.armBusy a then o.next + 1 else o.next)
            (s.updAudit (fun b => b.giveBack (readSlots left))).cutOrder a id
          | _, _ => s.dropScan o

/-- A READ of the audit's SCAN has completed (R119, R120). -/
def State.scanRead (s : State) (id slot : Nat) (counts : List AuditCount) : State :=
  if s.aud.scan = some id ∧ s.aud.state ≠ .idle then
    s.updAudit (fun b => (counts.foldl AuditBlock.count b).settleFirst slot)
  else s

/-- A READ of the audit's SCAN was passed over (R115, R119). -/
def State.scanPassed (s : State) (id slot : Nat) : State :=
  if s.aud.scan = some id ∧ s.aud.state ≠ .idle then s.updAudit (fun b => b.passOver slot) else s

/-- After a SCAN the audit goes to its second pass, completes, or asks for its next SCAN (R121, R122). -/
def State.planScan (s : State) : State :=
  let s := s.updAudit AuditBlock.endPass
  if s.aud.deferredPass && s.aud.deferred.isEmpty then s.endAudit .complete else s.askScan

/-- The audit's SCAN has ended in an audit that is aborted: what a failure left unread returns to the list (R119, R121, R123). -/
def State.scanStops (s : State) (r : OrderEnd) : State :=
  (s.updAudit (fun b => (if r.ok then b else b.giveBack (readSlots r.rest)).endPass)).finishAbort

/-- The audit's SCAN has ended (R121 to R123). -/
def State.scanEnded (s : State) (r : OrderEnd) : State :=
  if s.aud.scan ≠ some r.id then s
  else
    let s := s.updAudit (fun b => { b with scan := none })
    match s.aud.state with
    | .idle => s
    | .stopping => s.scanStops r
    | .running =>
      if r.door then (s.updAudit (fun b => { b with state := .stopping })).scanStops r
      else if r.ok then s.planScan
      else
        let rest := readSlots r.rest
        let s := match r.leg, rest with
          | some (.read slot), _ :: others => s.updAudit (fun b => (b.passOver slot).giveBack others)
          | _, _ => s.updAudit (fun b => b.giveBack rest)
        s.planScan

/-- The audit's SCAN was removed before it started (R121). -/
def State.scanRemoved (s : State) (r : OrderEnd) : State :=
  if s.aud.scan ≠ some r.id then s
  else
    let s := s.updAudit (fun b => { b with scan := none })
    match s.aud.state with
    | .idle => s
    | .stopping => (s.updAudit (fun b => b.giveBack (readSlots r.rest))).finishAbort
    | .running => s.updAudit (fun b => { b.giveBack (readSlots r.rest) with scanOwed := true })

/-- Room in the pool, or a service state that lets a SCAN be asked for: an owed SCAN is asked for again (R118). -/
def State.retryScan (s : State) : State := if s.aud.scanOwed then s.askScan else s

/-- LINK RESET at the Audit Unit (R124). -/
def State.resetAudit (s : State) : State :=
  if s.aud.state = .idle then s
  else s.updAudit (fun b => { b with state := .idle, outcome := .aborted, scanOwed := false, scan := none, held := false })

end Sys2Proof.Machine
end

