-- ==== Sys2Proof/Machine/Stations.lean ====
section
/-! DEFINITION. The Door and Station Monitor's positions: presence changes, imports and their ends (sections 7.2 to 7.5). -/

namespace Sys2Proof.Machine

/-- An import is wanted for a position (R156). -/
def State.importWanted (s : State) (p : Fin 8) : Bool :=
  let x := s.station p
  x.occupied && x.volume.isNone && x.reserved.isNone && !s.equipmentStands (.stationUnknown p) &&
    (s.stationAutoImport || s.reelAwaited)

/-- The volume recorded at a position is awaited by a RING_NEEDED prompt in AWAIT_REEL, and no order reserves the position (R158). -/
def State.reimportWanted (s : State) (p : Fin 8) : Bool :=
  let x := s.station p
  x.reserved.isNone && x.volume.any (fun e => (s.awaitedBy e).any (fun q => q.kind == PromptKind.ringNeeded))

def State.setImportOwed (s : State) (p : Fin 8) (owed : Bool) : State :=
  s.updStation p (fun x => { x with importOwed := owed })

/-- An IMPORT is asked for in ACTIVE with room, or is owed (R156). -/
def State.askImport (s : State) (p : Fin 8) : State :=
  match (if s.service = .active then s.createImport p else none) with
  | some s => s.setImportOwed p false
  | none => s.setImportOwed p true

/-- A position is tested for an import (R156). -/
def State.testImport (s : State) (p : Fin 8) : State :=
  if s.importWanted p then s.askImport p else s.setImportOwed p false

/-- Every position is tested, in index order (R156). -/
def State.testAllImports (s : State) : State := allPositions.foldl State.testImport s

/-- A position with the import owed mark is tested again; one owed a new IMPORT of its recorded volume has it (R156, R158). -/
def State.testOwedImport (s : State) (p : Fin 8) : State :=
  if (s.station p).importOwed then (if s.reimportWanted p then s.askImport p else s.testImport p) else s

/-- The positions with the import owed mark, at the entry to ACTIVE and at room notices (R156). -/
def State.testOwedImports (s : State) : State := allPositions.foldl State.testOwedImport s

/-- An arm enters service: a new IMPORT for each position whose recorded volume is awaited (R158); outside ACTIVE or without room it
is owed (DESIGN CHOICE, log 13). -/
def State.reimports (s : State) : State :=
  allPositions.foldl (fun s p => if s.reimportWanted p then s.askImport p else s) s

/-- A debounced presence rise is taken (R154). -/
def State.onPresenceRise (s : State) (p : Fin 8) : State :=
  let s := s.raise .station
  let x := s.station p
  if x.lifted then s.updStation p (fun x => { x with lifted := false })
  else if x.reserved.isSome ∨ x.volume.isSome ∨ s.equipmentStands (.stationUnknown p) then s
  else s.testImport p

/-- A debounced presence fall is taken (R155): the position may be free now, whether or not its lifted mark had it counted as empty before. -/
def State.onPresenceFall (s : State) (p : Fin 8) : State :=
  let s := s.raise .station
  let x := s.station p
  let s := if x.lifted then s.updStation p (fun x => { x with lifted := false })
    else match x.volume with
      | some e => (s.relocate e .outside).clearStationVolume p
      | none => s
  let s := (s.endEquipment (.stationUnknown p)).setImportOwed p false
  if s.positionFree p then s.notifyFree else s

/-- Legs are appended to an IMPORT after its pick (R87, R157). Its volume field stays absent (DESIGN CHOICE, log 77). -/
def State.appendTo (s : State) (id : Nat) (dest : Place) (tag : Option Half) : State :=
  s.updOrder id (fun o => { o with legs := o.legs ++ s.legsTo (some dest), dest := some dest, tag := tag })

/-- Where an IMPORT carries a known volume that no ring fit awaits: its home slot, else back (R157). -/
def State.importHome (s : State) (a : ArmId) (p : Fin 8) (e : Nat) : Place :=
  match s.homeForArm a e with
  | some h => .slot h
  | none => .station p

/-- The drive and tag Mount Service supplies for the reel of a ring fit, when the arm reaches the drive (R70, R157). -/
def State.ringFitDrive (s : State) (a : ArmId) (q : Prompt) : Option (Fin 16 × Half) :=
  match q.tag, (q.tag.bind s.request?).bind (·.claimed) with
  | some t, some d => if armReaches a (s.placeZone (.drive d)) then some (d, t) else none
  | _, _ => none

/-- The PICK of an IMPORT has completed: the monitor names where the reel goes (R157). -/
def State.importPicked (s : State) (id : Nat) (a : ArmId) (p : Fin 8) : State :=
  let s := match (s.arm a).gripper with
    | .empty => if (s.station p).presence then s.askEquipment (.stationUnknown p) else s
    | .unknown => s.appendTo id (.station p) none
    | .volume e =>
      match s.awaitedBy e with
      | none => s.appendTo id (s.importHome a p e) none
      | some q =>
        if q.kind = PromptKind.ringNeeded then
          match s.ringFitDrive a q with
          | some (d, t) => (s.appendTo id (.drive d) (some t)).updRequest t (fun r => { r with order := some id })
          | none => s.appendTo id (.station p) none
        else
          let s := s.withdraw q.number
          let s := match q.tag with
            | some t => s.notify (.lostFound t)
            | none => s
          s.appendTo id (s.importHome a p e) none
  s.notify (.armGo a)

/-- The PICK of an order that failed was still to be made. -/
def OrderEnd.unpicked (r : OrderEnd) : Bool :=
  r.rest.any (fun l => match l with
    | .pick _ => true
    | .travel _ | .place _ | .read _ | .home => false)

/-- A position whose reservation has been cleared is tested for an import (R156). -/
def State.testLeft (s : State) : Option Place → State
  | some (.station q) => s.notify (.importTest q)
  | _ => s

/-- An IMPORT ended DONE (R158): a reel at a station position raises STATION, and an unknown one has STATION_UNKNOWN asked for it; a position
other than the IMPORT's own is treated alike (DESIGN CHOICE, log 60). One that took nothing leaves what stands at its position. -/
def State.importDone (s : State) (p : Fin 8) (dest : Option Place) : State :=
  match dest with
  | some (.station q) =>
    (if (s.station q).volume.isNone then s.askEquipment (.stationUnknown q) else s).raise .station
  | some _ => s
  | none => if (s.station p).presence then s.raise .station else s

/-- An IMPORT ended FAILED after its PICK: a reel that its failed PLACE has left at the position it was for raises STATION (R160; another position
than its own DESIGN CHOICE, log 60). -/
def State.importDropped (s : State) : Option Place → State
  | some (.station q) => if (s.station q).occupied then s.raise .station else s
  | _ => s

/-- An IMPORT ended FAILED before its PICK: the reel at its position raises STATION, and is tested at the next room notice (R158, R160). -/
def State.importUnpicked (s : State) (p : Fin 8) : State :=
  let x := s.station p
  if x.occupied then (if x.volume.isNone then s.setImportOwed p true else s).raise .station else s

/-- The end of an IMPORT is taken: its reservations are cleared, and after what the end itself leaves its positions are tested (R156, R158). -/
def State.importEnded (s : State) (r : OrderEnd) : State :=
  let s := s.unreserveSilently r.id
  match r.source with
  | some (.station p) =>
    if !r.ok && r.unpicked then s.importUnpicked p
    else ((if r.ok then s.importDone p r.dest else s.importDropped r.dest).notify (.importTest p)).testLeft r.dest
  | _ => s

/-- An unstarted IMPORT was removed at the entry to QUIESCING (R156). -/
def State.importRemoved (s : State) (r : OrderEnd) : State :=
  match r.source with
  | some (.station p) =>
    if (s.station p).presence && (s.station p).volume.isNone then s.setImportOwed p true else s
  | _ => s

/-- LINK RESET at the station positions (R153). -/
def State.resetStations (s : State) : State :=
  s.mapStations (fun x => { x with reserved := none, awaiting := none, importOwed := false })

/-! ### Debouncing (R151) -/

/-- The raw level, the debounced level and the interval of an input, as they stand. -/
def State.inputLevels (s : State) : RailInput → Bool × Bool × Option Nat
  | .door => (s.mon.doorRaw, s.mon.doorClosed, s.mon.doorInterval)
  | .presence p => ((s.station p).raw, (s.station p).presence, (s.station p).interval)

/-- An input takes a raw level, a debounced level and an interval. -/
def State.setInput (s : State) (i : RailInput) (raw debounced : Bool) (interval : Option Nat) : State :=
  match i with
  | .door => { s with mon := { s.mon with doorRaw := raw, doorClosed := debounced, doorInterval := interval } }
  | .presence p => s.updStation p (fun x => { x with raw := raw, presence := debounced, interval := interval })

/-- The raw level of an input changes (R151). -/
def State.inputRaw (s : State) (i : RailInput) (level : Bool) : State :=
  let (raw, debounced, interval) := s.inputLevels i
  if raw = level then s
  else s.setInput i level debounced (if level = debounced then none else match interval with
    | some t => some t
    | none => some s.stationDebounce)

/-- A debounce interval of an input ends with its raw level new: the debounced level takes it (R151). None when no such interval
runs. -/
def State.inputLevel (s : State) (i : RailInput) (level : Bool) : Option State :=
  let (raw, debounced, interval) := s.inputLevels i
  if interval.isSome ∧ raw = level ∧ debounced ≠ level then some (s.setInput i level level none) else none

end Sys2Proof.Machine
end

