-- ==== Sys2Proof/Machine/Requests.lean ====
section
/-! DEFINITION. Mount Service, the life of a request: its states and timer, finishing, resolution, drive choice and the claim, its
orders, returns, the walk and the put-away (sections 3.3 to 3.7, 3.10). -/

namespace Sys2Proof.Machine

/-! ### States and the wait timer (R54 to R56) -/

/-- A request enters PROMPTED with its prompt's number and its resume state; a MANUAL_MOUNT stops the timer (R54, R55). -/
def State.enterPrompted (s : State) (tag : Half) (n : Nat) (resume : ReqState) (kind : PromptKind) : State :=
  s.updRequest tag (fun r => { r with
    state := .prompted
    prompt := some n
    resume := some resume
    timer := if kind = .manualMount then none else r.timer })

/-- The position awaiting a ring fit for a request awaits it no more; a reel there is tested for an import (R72, R156). -/
def State.clearAwaiting (s : State) (tag : Half) : State :=
  allPositions.foldl (fun s p =>
    if (s.station p).awaiting = some tag then
      (s.updStation p (fun x => { x with awaiting := none })).notify (.importTest p)
    else s) s

/-- The request's prompt is withdrawn and its ring fit awaits no reel (R131). -/
def State.withdrawPrompt (s : State) (tag : Half) : State :=
  match (s.request? tag).bind (·.prompt) with
  | some n => (s.withdraw n).clearAwaiting tag
  | none => s

/-- A request enters a state other than PROMPTED, a prompt it still has withdrawn first: its timer starts, runs on or stops (R54, R55). -/
def State.enter (s : State) (tag : Half) (st : ReqState) (reason : Option WaitReason) : State :=
  let s := s.withdrawPrompt tag
  s.updRequest tag (fun r => { r with
    state := st
    reason := reason
    prompt := none
    resume := none
    timer := s.timerIn r st })

/-- A request finishes, a prompt it still has withdrawn first: its final reply is owed, and it drops what it held (R56). -/
def State.finish (s : State) (tag : Half) (reply : Reply) : State :=
  match s.request? tag with
  | none => s
  | some _ =>
    let s := (s.withdrawPrompt tag).clearAwaiting tag
    let s := s.updRequest tag (fun r => { r with
      state := .finished, outcome := some reply, volume := none, claimed := none, order := none, prompt := none, resume := none,
      reason := none, pending := none, timer := none, after := none, toStation := false, awaitVolume := none })
    { s with port := { s.port with replyOwed := s.port.replyOwed ++ [(tag, reply)] } }

/-- A request that may be PROMPTED: it is in the queue, and owes no final reply (DESIGN CHOICE of the guard, log 49). -/
def State.promptable (s : State) (tag : Half) : Bool := (s.request? tag).isSome && !(s.port.replyOwed.any (fun x => x.1 == tag))

/-- A request-related prompt naming a request, an earlier one withdrawn first; none when the Prompt Unit refuses it (R55, R129). -/
def State.promptRequest (s : State) (tag : Half) (kind : PromptKind) (volume : Option Nat) (drive : Option (Fin 16))
    (resume : ReqState) : Option State :=
  if s.promptable tag then
    ((s.withdrawPrompt tag).askRequestPrompt kind ⟨some tag, volume, drive, none, none⟩).map
      (fun (s, n) => s.enterPrompted tag n resume kind)
  else none

/-- The drive a request holds by a claim. -/
def State.ownDrive (s : State) (r : Request) : Option (Fin 16) :=
  r.claimed.filter (fun d => (s.drive d).claimTag == some r.tag)

/-- The claim of a request on a CLAIMED drive is given up, when no PLACE is expected there (R28). -/
def State.dropClaim (s : State) (tag : Half) (outcome : RecOutcome) : State :=
  match (s.request? tag).bind s.ownDrive with
  | some d =>
    let x := s.drive d
    if x.state = .claimed ∧ x.placeExpected = false then s.giveUpClaim d outcome else s
  | none => s

/-- A request drops its order when it has not started (R54, R90). -/
def State.dropUnstarted (s : State) (tag : Half) : State :=
  match (s.request? tag).bind (·.order) with
  | none => s
  | some id =>
    match s.order? id with
    | some o =>
      if o.started || o.state == .failed then s
      else (s.removeOrder id).updRequest tag (fun r => { r with order := none })
    | none => s.updRequest tag (fun r => { r with order := none })

/-! ### Resolution (R57 to R59, R76) -/

/-- Another live request names a volume (R48). -/
def State.othersName (s : State) (tag : Half) (e : Nat) : Bool :=
  s.ms.queue.any (fun r => r.tag != tag && r.volume == some e)

/-- A volume is the chosen volume of a request, unless another live request names it (R48). -/
def State.nameVolume (s : State) (tag : Half) (e : Nat) : State :=
  if s.othersName tag e then s else s.updRequest tag (fun r => { r with volume := some e })

/-- The volume is at a place an arm may fetch it from (R57, R64). -/
def State.fetchable (s : State) (v : Volume) : Bool :=
  match v.loc with
  | .home => true
  | .misplaced slot => !(s.sch.pool.any (·.usesSlot slot))
  | .atStation p => !(s.sch.pool.any (·.usesPosition p)) && (s.station p).reserved.isNone
  | .inArm _ | .inDrive _ | .outside | .missing => false

/-- The densities of a drive include a density (R61). -/
def Densities.carry (d : Densities) : Density → Bool
  | .d800 => d.d800
  | .d1600 => d.d1600
  | .d6250 => d.d6250

/-- A drive suits a wanted density; with none any drive suits (R61). -/
def Drive.suits (x : Drive) (wanted : Option Density) : Bool := wanted.all x.densities.carry

/-- A scratch volume suits a request's density (R58). -/
def suitsScratch (wanted : Option Density) (v : Volume) : Bool := wanted.isNone || v.density.isNone || v.density == wanted

/-- The order of choice among scratch volumes: mount count, then last mount with an absent one oldest (R58). -/
def scratchBefore (x y : Nat × Volume) : Bool :=
  if x.2.mounts ≠ y.2.mounts then x.2.mounts < y.2.mounts
  else match x.2.lastMount, y.2.lastMount with
    | none, some _ => true
    | some t, some u => t < u
    | _, none => false

/-- The scratch volume chosen for a request; among equals the lowest index, which the table lists first (R58). -/
def State.chooseScratch (s : State) (r : Request) : Option (Nat × Volume) :=
  ((s.scratchOffered r.pool).filter (fun e => suitsScratch r.density e.2 && !s.othersName r.tag e.1)).foldl
    (fun best e => match best with
      | none => some e
      | some b => if scratchBefore e b then some e else best) none

/-- A SCRATCH is resolved (R58). With no candidate SCRATCH_EMPTY is asked for, but for one that waits for its pool; this holds too for one resolved
again after its volume was lost (DESIGN CHOICE, log 61). -/
def State.resolveScratch (s : State) (tag : Half) : State :=
  match s.request? tag with
  | none => s
  | some r =>
    let s := s.updRequest tag (fun r => { r with volume := none })
    match s.chooseScratch r with
    | some (e, v) =>
      if r.drive.any (fun d => !(s.drive d).suits v.density) then s.finish tag (.failed .driveUnsuitable)
      else (s.nameVolume tag e).enter tag .waitDrive none
    | none =>
      if r.state = .waitVolume ∧ r.reason = some .pool then s
      else
        match s.promptRequest tag .scratchEmpty none none .waitVolume with
        | some s => s
        | none => s.finish tag (.failed .promptsFull)

/-- A request learns that its volume is MISSING (R76). -/
def State.lostVolume (s : State) (tag : Half) : State :=
  let s := (s.dropUnstarted tag).dropClaim tag .failed
  match s.request? tag with
  | none => s
  | some r =>
    match r.kind with
    | .mount =>
      match s.promptRequest tag .volumeLost (match r.volume with
        | some e => some e
        | none => s.entryOf r.serial) none .waitVolume with
      | some s => s
      | none => s.finish tag (.failed .promptsFull)
    | .scratch => s.resolveScratch tag
    | .eject => s.finish tag (.failed .volumeLost)
    | .demount => s

/-- The state the location of a volume gives a MOUNT, or an EJECT in place of WAIT_DRIVE WAIT_ARM (R57, R59). -/
def State.stateFor (s : State) (r : Request) (v : Volume) : ReqState :=
  if s.fetchable v ∨ v.loc = .outside then (if r.kind = .eject then .waitArm else .waitDrive) else .waitVolume

/-- The wait reason that goes with a state from resolution. -/
def reasonFor (st : ReqState) : Option WaitReason := if st = .waitVolume then some .volume else none

/-- A MOUNT or EJECT is resolved by looking at its volume (R57, R59). -/
def State.resolveNamed (s : State) (tag : Half) : State :=
  match s.request? tag with
  | none => s
  | some r =>
    match (s.entryOf r.serial).bind (fun e => (s.vol? e).map (fun v => (e, v))) with
    | none => (s.updRequest tag (fun r => { r with volume := none })).enter tag .waitVolume (some .volume)
    | some (e, v) =>
      let taken := s.othersName tag e
      if v.loc = .missing ∧ taken = false then
        let s := s.nameVolume tag e
        if r.state = .waitVolume then s.enter tag .waitVolume (some .volume) else s.lostVolume tag
      else if r.kind = .mount ∧ v.suspect ∧ r.proceeded ≠ some e then
        match s.promptRequest tag .volumeSuspect (some e) none (if taken then .waitVolume else s.stateFor r v) with
        | some s => s
        | none => s.finish tag (.failed .promptsFull)
      else if taken then
        (s.updRequest tag (fun r => { r with volume := none })).enter tag .waitVolume (some .volume)
      else
        let s := s.nameVolume tag e
        match r.kind, v.loc with
        | .eject, .atStation p =>
          if s.fetchable v then s.finish tag (.ejected p) else s.enter tag .waitVolume (some .volume)
        | _, _ => s.enter tag (s.stateFor r v) (reasonFor (s.stateFor r v))

/-- A request is resolved (R57 to R59). -/
def State.resolve (s : State) (tag : Half) : State :=
  match (s.request? tag).map Request.kind with
  | some .scratch => s.resolveScratch tag
  | some .mount | some .eject => s.resolveNamed tag
  | some .demount | none => s

/-! ### Drive choice, claim and order (R61 to R64, R83) -/

/-- The wanted density of a request for a volume (R61). -/
def wantedDensity (r : Request) (v : Volume) : Option Density := if v.density.isSome then v.density else r.density

/-- A drive comes before another in the choice: in the volume's zone when that is preferred, then by use seconds; among equals the lower
number, which is looked at first (R62). -/
def State.driveBefore (s : State) (zone : Option Nat) (x y : Fin 16) : Bool :=
  let near (d : Fin 16) : Bool := zone.any (fun z => zoneOf (s.drive d).column == z)
  if near x ≠ near y then near x else (s.drive x).useSeconds < (s.drive y).useSeconds

/-- The best of a list of drives (R62). -/
def State.bestDrive (s : State) (zone : Option Nat) (ds : List (Fin 16)) : Option (Fin 16) :=
  ds.foldl (fun best d => match best with
    | none => some d
    | some b => if s.driveBefore zone d b then some d else best) none

/-- The drive of a request in WAIT_DRIVE, or the reason it waits (R62). A manual mount has no place: reach and zone do not count. -/
def State.chooseDrive (s : State) (r : Request) (v : Volume) : Except WaitReason (Fin 16) :=
  let offered := match r.drive with
    | some d => [d]
    | none => allDrives
  let suitable := offered.filter (fun d => (s.drive d).claimable && (s.drive d).suits (wantedDensity r v))
  let reached := suitable.filter (fun d => v.place.all (fun q => s.placesReach q (.drive d)))
  let zone := if s.preferNearest then v.place.map s.placeZone else none
  match suitable, s.bestDrive zone reached with
  | [], _ => .error .drive
  | _ :: _, none => .error .arm
  | _ :: _, some d => .ok d

/-- The claim of a grant (R24, R63). -/
def State.newClaim (s : State) (r : Request) (manual : Option Nat) : Claim where
  tag := some r.tag
  account := r.account
  stamp := s.clock
  reserved := true
  write := r.write
  scratch := r.kind == .scratch
  assisted := false
  ringHold := false
  manual := manual
  named := none
  detached := false

/-- The grant, one step: the drive is CLAIMED, the reservation and the account's drives in use rise, the request holds the drive
(R28, R63). -/
def State.grant (s : State) (r : Request) (d : Fin 16) (manual : Option Nat) : State :=
  let s := s.updDrive d (fun x => { x with state := .claimed, claim := some (s.newClaim r manual) })
  (s.countGrant r.account).updRequest r.tag (fun r => { r with claimed := some d, reason := none })

/-- A request in WAIT_ARM without an order asks for it (R64, R83). -/
def State.askOrder (s : State) (tag : Half) : State :=
  match s.request? tag with
  | none => s
  | some r =>
    match r.volume.bind (fun e => (s.vol? e).map (fun v => (e, v))) with
    | none => s
    | some (e, v) =>
      if v.loc = .missing then s.lostVolume tag
      else
        match (if s.fetchable v then v.place else none) with
        | none => s.enter tag .waitArm (some .volume)
        | some source =>
          match r.kind, v.loc with
          | .eject, .atStation p => s.finish tag (.ejected p)
          | .eject, _ =>
            match s.positionFrom source with
            | none => s.enter tag .waitArm (some .station)
            | some p =>
              match s.createCarry .eject source (.station p) e (some tag) with
              | some (s, id) => (s.enter tag .waitArm none).updRequest tag (fun r => { r with order := some id })
              | none => s.enter tag .waitArm (some .arm)
          | _, _ =>
            match s.ownDrive r with
            | none => s.enter tag .waitDrive none
            | some d =>
              match s.createCarry .fetch source (.drive d) e (some tag) with
              | some (s, id) => (s.enter tag .waitArm none).updRequest tag (fun r => { r with order := some id })
              | none => s.enter tag .waitArm (some .arm)

/-- A request with its claim granted goes on (R64): a manual mount to the operator, any other to its order. -/
def State.afterGrant (s : State) (tag : Half) (d : Fin 16) (manual : Option Nat) : State :=
  match manual with
  | none => (s.enter tag .waitArm none).askOrder tag
  | some e =>
    match s.promptRequest tag .manualMount (some e) (some d) .loading with
    | some s => s
    | none => (s.dropClaim tag .failed).finish tag (.failed .promptsFull)

/-- A request in WAIT_DRIVE is examined (R63). -/
def State.examine (s : State) (tag : Half) : State :=
  match s.request? tag with
  | none => s
  | some r =>
    match r.volume.bind (fun e => (s.vol? e).map (fun v => (e, v))) with
    | none => s.enter tag .waitVolume (some .volume)
    | some (e, v) =>
      if v.loc = .missing then s.lostVolume tag
      else if !(s.accountRoom r.account) then s.enter tag .waitDrive (some .account)
      else if !s.recordRoom then s.enter tag .waitDrive (some .records)
      else
        match s.chooseDrive r v with
        | .error reason => s.enter tag .waitDrive (some reason)
        | .ok d =>
          let manual := if v.loc = .outside then some e else none
          (s.grant r d manual).afterGrant tag d manual

/-- A request does what its state allows at a walk, a resolved one going on at once (R65; DEDUCED, log 14). -/
def State.walkStep (s : State) (tag : Half) : State :=
  let s := match (s.request? tag).map Request.state with
    | some .queued | some .waitVolume => s.resolve tag
    | _ => s
  match s.request? tag with
  | none => s
  | some r =>
    match r.state with
    | .waitDrive => s.examine tag
    | .waitArm => if r.order.isNone then s.askOrder tag else s
    | .queued | .waitVolume | .moving | .loading | .verify | .prompted | .releasing | .returning | .finished => s

/-! ### Returns (R70, R82) -/

/-- The live request that awaits the return from a drive: a DEMOUNT of it whose reel no order carries yet, or one putting away the reel on it (R82). -/
def State.returnFor (s : State) (d : Fin 16) : Option Request :=
  s.ms.queue.find? (fun r =>
    (r.state == .releasing || r.state == .returning) &&
      ((r.kind == .demount && r.drive == some d && r.awaitVolume.isNone && (r.order.bind s.order?).isNone) ||
        (r.claimed == some d && (s.drive d).claimTag == some r.tag)))

/-- A request awaits the end of a return order: the order takes its tag (R60). -/
def State.joinOrder (s : State) (tag : Half) (id : Nat) : State :=
  ((s.updOrder id (fun o => { o with tag := some tag })).enter tag .returning none).updRequest tag (fun r => { r with order := some id })

/-- The request that awaits the return from a RELEASED drive joins a return order of the pool that no request has (R60, R81; DEDUCED, log 64). -/
def State.joinReturn (s : State) (d : Fin 16) : State :=
  match s.returnOrder d, s.returnFor d with
  | some o, some r => if (s.drive d).state = .released ∧ o.tag.isNone then s.joinOrder r.tag o.id else s
  | _, _ => s

/-- The owed drive RECOVERs are created, and joined by the requests that await them (R60, R86). -/
def State.recoverDrives (s : State) : State := allDrives.foldl State.joinReturn s.createOwedRecovers

/-- The claim of a drive carries the tag of a live request (R50, R82). -/
def State.claimLive (s : State) (d : Fin 16) : Bool := (s.drive d).claimTag.any (fun t => (s.request? t).isSome)

/-- The position recorded for a request's ring fit (R70). -/
def State.awaitingPosition (s : State) (tag : Half) : Option (Fin 8) :=
  allPositions.find? (fun p => (s.station p).awaiting == some tag)

/-- A position is chosen for a ring fit: the nearest free reachable one from the drive, recorded there and in the prompt (R70, R145). -/
def State.choosePositionFor (s : State) (tag : Half) (d : Fin 16) : State :=
  match s.awaitingPosition tag, s.positionFrom (.drive d) with
  | none, some p =>
    let s := s.updStation p (fun x => { x with awaiting := some tag })
    match (s.request? tag).bind (·.prompt) with
    | some n => s.promptPosition n p
    | none => s
  | _, _ => s

/-- The RETURN of a ring fit to the recorded position (R70). -/
def State.ringReturn (s : State) (d : Fin 16) : State :=
  let x := s.drive d
  match x.claimTag, x.volume with
  | some tag, some e =>
    if x.claim.any (·.manual.isSome) then s
    else
      let s := s.choosePositionFor tag d
      if x.state ≠ .released ∨ (s.returnOrder d).isSome then s
      else
        match s.awaitingPosition tag with
        | none => s
        | some p =>
          match s.createCarry .giveBack (.drive d) (.station p) e (some tag) with
          | some (s, id) => s.updRequest tag (fun r => { r with order := some id })
          | none => s
  | _, _ => s

/-- The return of a drive is created where it is owed, in ACTIVE, unless one of the pool serves (R81, R82). -/
def State.tryReturn (s : State) (d : Fin 16) : State :=
  let s := s.joinReturn d
  let x := s.drive d
  if s.service ≠ .active then s
  else if x.holdsRing then s.ringReturn d
  else
    match x.state, x.volume with
    | .released, some e =>
      if (s.returnOrder d).isSome then s
      else
        let r := s.returnFor d
        if r.isSome || (s.autoReturn && !s.claimLive d) then
          match s.returnDest d e (r.any (·.toStation)) with
          | none => s
          | some dest =>
            match s.createCarry .giveBack (.drive d) dest e (r.map (·.tag)) with
            | none => s
            | some (s, id) =>
              match r with
              | none => s
              | some r => (s.enter r.tag .returning none).updRequest r.tag (fun r => { r with order := some id })
        else s
    | _, _ => s

/-! ### The walk (R65) -/

/-- The tags of the live requests by priority, 0 first, and within one by arrival (R65). -/
def State.walkOrder (s : State) : List Half :=
  [0, 1, 2, 3].flatMap (fun p => (s.ms.queue.filter (fun r => r.priority == p)).map (·.tag))

/-- The walk: the owed returns in drive number order, then each waiting request (R65). -/
def State.walk (s : State) : State :=
  if s.service ≠ .active then s
  else
    let s := allDrives.foldl State.tryReturn s
    s.walkOrder.foldl State.walkStep s

/-! ### The put-away (R72, R73, R80) -/

/-- A request goes back for another try: to WAIT_DRIVE, an EJECT to WAIT_ARM (R72, R75). -/
def State.tryAgain (s : State) (r : Request) : State :=
  if r.kind = .eject then s.enter r.tag .waitArm none else s.enter r.tag .waitDrive none

/-- The volume of a request is MISSING. -/
def State.volumeMissing (s : State) (r : Request) : Bool := r.volume.any (fun e => (s.vol? e).any (fun v => v.loc == .missing))

/-- A put-away ends: the request finishes with its pending outcome, or goes back to where the rule that began it says (R72); one that retries a
failed order learns first whether its volume is MISSING (R75). -/
def State.endPutAway (s : State) (tag : Half) : State :=
  match s.request? tag with
  | none => s
  | some r =>
    let s := s.updRequest tag (fun r => { r with order := none, after := none, awaitVolume := none, toStation := false })
    match r.pending, r.after with
    | some reply, _ => s.finish tag reply
    | none, some .resolve => s.resolve tag
    | none, some .waitArm => s.enter tag .waitArm none
    | none, some .waitDrive => s.tryAgain r
    | none, some .retried => if s.volumeMissing r then s.lostVolume tag else s.tryAgain r
    | none, none => s

/-- The record outcome of a claim given up in a put-away: CANCELLED once a system CANCEL has set the pending outcome (R75). -/
def Request.giveUpOutcome (r : Request) : RecOutcome := if r.pending = some .cancelled then .cancelled else r.recOutcome

/-- The put-away by the claimed drive, with no order left (R72). -/
def State.pursueDrive (s : State) (tag : Half) : State :=
  match s.request? tag with
  | none => s
  | some r =>
    match s.ownDrive r with
    | none => s.endPutAway tag
    | some d =>
      let s := s.updClaim d (fun c => { c with named := some r.giveUpOutcome })
      let x := s.drive d
      match x.state with
      | .claimed =>
        if x.placeExpected then s.enter tag .returning none
        else (s.giveUpClaim d r.giveUpOutcome).endPutAway tag
      | .placed | .loaded | .unloading | .released => (s.enter tag .releasing none).unload d
      | .check => (s.stopLabelTimer d).enter tag .releasing none
      | .empty | .offline | .unmanaged => s.endPutAway tag

/-- The leg an arm has in hand is a PLACE at a drive (R80). -/
def State.placingAtDrive (s : State) (a : ArmId) : Bool :=
  let hand := match (s.arm a).outstanding with
    | some (.leg l _ _ _) => l.placeDrive?.isSome
    | _ => false
  hand || (s.armPort a).waiting.any (fun f => match f with
    | .leg l => l.placeDrive?.isSome
    | .home | .status | .stop => false)

/-- The put-away by where the work stands (R72): an order not started is removed; one that runs is cut or replaced by the gripper, but
waits for a PLACE at the drive that is outstanding (R80); then the drive. -/
def State.pursue (s : State) (tag : Half) : State :=
  let s := s.dropUnstarted tag
  match ((s.request? tag).bind (·.order)).bind s.order? with
  | none => s.pursueDrive tag
  | some o =>
    let s := s.enter tag .returning none
    if o.state = .failed ∨ o.putBack.isSome then s
    else
      match s.takenBy o.id, s.request? tag with
      | some a, some r =>
        if s.placingAtDrive a then s
        else if (s.arm a).gripper = .empty then s.cutOrder a o.id
        else (s.replaceRest a o.id r.toStation).dropClaim tag r.giveUpOutcome
      | _, _ => s

/-- A put-away begins (R72): the ring hold and the awaiting tag are cleared first. -/
def State.putAway (s : State) (tag : Half) (pending : Option Reply) (after : Option AfterPutAway) (outcome : RecOutcome)
    (toStation : Bool) : State :=
  let s := (s.withdrawPrompt tag).clearAwaiting tag
  let s := match (s.request? tag).bind s.ownDrive with
    | some d => s.updClaim d (fun c => { c with ringHold := false, named := some outcome })
    | none => s
  let s := s.updRequest tag (fun r => { r with
    pending := pending, after := after, recOutcome := outcome, toStation := toStation })
  s.pursue tag

/-- A request asks for a prompt, and with the prompts full it is put away FAILED(PROMPTS_FULL) (R55). -/
def State.promptOrFail (s : State) (tag : Half) (kind : PromptKind) (volume : Option Nat) (drive : Option (Fin 16))
    (resume : ReqState) : State :=
  match s.promptRequest tag kind volume drive resume with
  | some s => s
  | none => s.putAway tag (some (.failed .promptsFull)) none .failed false

/-- A request whose volume may be in an arm waits for its recovery, else its put-away goes on (R72, R75, R80). -/
def State.awaitOrPursue (s : State) (tag : Half) (volume : Option Nat) : State :=
  match s.request? tag with
  | none => s
  | some r =>
    let inArm := volume.any (fun e => (s.vol? e).any (fun v => match v.loc with
      | .inArm _ => true
      | .home | .inDrive _ | .atStation _ | .outside | .missing | .misplaced _ => false))
    if inArm then
      let s := s.dropClaim tag r.giveUpOutcome
      (s.enter tag .returning none).updRequest tag (fun r => { r with awaitVolume := volume })
    else s.pursue tag

/-- The requests that wait for the recovery of a volume which is in an arm no more go on (R75). -/
def State.checkAwaits (s : State) : State :=
  s.ms.queue.foldl (fun s r =>
    match r.awaitVolume with
    | none => s
    | some e =>
      let still := (s.vol? e).any (fun v => match v.loc with
        | .inArm _ => true
        | .home | .inDrive _ | .atStation _ | .outside | .missing | .misplaced _ => false)
      if still then s
      else (s.updRequest r.tag (fun r => { r with awaitVolume := none })).pursue r.tag) s

end Sys2Proof.Machine
end

