-- ==== Sys2Proof/Machine/MountReports.lean ====
section
/-! DEFINITION. Mount Service on the reports of the other blocks: drives, orders, prompts and their replies, labels, cancels and the
wait timer (sections 3.6, 3.8, 3.9). -/

namespace Sys2Proof.Machine

/-! ### Loading, ring and label (R66 to R70) -/

/-- A session's read-only override flag on a drive (R24). -/
def State.readOnlyFlag (s : State) (d : Fin 16) : Bool := (s.drive d).session.any (·.readOnly)

/-- A request finishes MOUNTED with the fields of R56. -/
def State.finishMounted (s : State) (r : Request) (d : Fin 16) : State :=
  let serial := ((r.volume.bind s.serialOf)).getD (List.replicate serialLength space)
  s.finish r.tag (.mounted d serial (s.readOnlyFlag d))

/-- A loaded request that needs no ring, or has its answer: VERIFY with the label timer, or MOUNTED (R67). -/
def State.afterRing (s : State) (tag : Half) (d : Fin 16) : State :=
  match s.request? tag with
  | none => s
  | some r => if r.verify then (s.enter tag .verify none).startLabelTimer d else s.finishMounted r d

/-- The ring check of a loaded request (R67). -/
def State.ringCheck (s : State) (tag : Half) (d : Fin 16) (protect : Bool) : State :=
  match s.request? tag with
  | none => s
  | some r =>
    if r.write && protect then s.promptOrFail tag .ringNeeded r.volume (some d) .loading else s.afterRing tag d

/-- The RING_NEEDED prompt a request is PROMPTED with (R70). -/
def State.ringPrompt (s : State) (r : Request) : Option Prompt :=
  if r.state = .prompted then (r.prompt.bind s.prompt?).filter (fun p => p.kind == .ringNeeded) else none

/-- The ring prompt stands in AWAIT_REEL. -/
def Prompt.awaitsReel (p : Prompt) : Bool := p.sub == some .awaitReel

/-- The live request a drive's notice concerns: the one of its tag, or else a DEMOUNT of the drive (R42, R72, R81). -/
def State.noticed (s : State) (d : Fin 16) (tag : Option Half) : Option Request :=
  match tag.bind s.request? with
  | some r => some r
  | none => s.ms.queue.find? (fun r => r.kind == RequestKind.demount && r.drive == some d && r.state != ReqState.finished)

/-- The loaded notice (R67, R70, R72, R81, R170). -/
def State.onLoaded (s : State) (d : Fin 16) (tag : Option Half) (protect refit : Bool) : State :=
  let s := match (s.drive d).claim with
    | some c => if c.scratch && !refit then s.countScratchIssue c.account else s
    | none => s
  match s.noticed d tag with
  | none => s
  | some r =>
    match r.state with
    | .loading => s.ringCheck r.tag d protect
    | .releasing => s.unload d
    | .prompted =>
      match s.ringPrompt r with
      | some p =>
        if !p.awaitsReel then s
        else if protect then s.restartPrompt p.number .awaitReply
        else (s.withdrawPrompt r.tag).afterRing r.tag d
      | none => s
    | .queued | .waitVolume | .waitDrive | .waitArm | .moving | .verify | .returning | .finished => s

/-- The loaded-again notice (R67, R72, R81). -/
def State.onLoadedAgain (s : State) (d : Fin 16) (tag : Option Half) : State :=
  match s.noticed d tag with
  | none => s
  | some r =>
    match r.state with
    | .verify => s.startLabelTimer d
    | .releasing => s.unload d
    | .queued | .waitVolume | .waitDrive | .waitArm | .moving | .loading | .prompted | .returning | .finished => s

/-- The load-failed notice (R74). -/
def State.onLoadFailed (s : State) (tag : Option Half) : State :=
  match tag.bind s.request? with
  | none => s
  | some r =>
    match s.ringPrompt r with
    | some _ => (s.withdrawPrompt r.tag).enter r.tag .loading none
    | none => s

/-- A request's volume is where it was, or lost, after its load failed: a retry, or FAILED(LOAD_FAILED) (R74). -/
def State.retryLoad (s : State) (r : Request) : State :=
  if 0 < r.retries then
    (s.updRequest r.tag (fun r => { r with retries := r.retries - 1 })).putAway r.tag none (some .waitDrive) .failed false
  else s.putAway r.tag (some (.failed .loadFailed)) none .failed false

/-- The tape was released before its request was done with it (R69). -/
def State.releasedEarly (s : State) (r : Request) (d : Fin 16) : State :=
  ((s.stopLabelTimer d).withdrawPrompt r.tag).putAway r.tag (some (.failed .releasedEarly)) none .failed false

/-- The reel-ready notice (R69, R70, R72 to R74, R81, R82). -/
def State.onReelReady (s : State) (d : Fin 16) (tag : Option Half) : State :=
  let x := s.drive d
  let s := match x.volume, x.claim.bind (·.manual) with
    | none, some e => if x.state = DriveState.released then s.nameByHand d e else s
    | _, _ => s
  match tag.bind s.request? with
  | none => s.tryReturn d
  | some r =>
    match r.state with
    | .loading => s.retryLoad r
    | .verify => s.releasedEarly r d
    | .prompted =>
      if (s.drive d).holdsRing then s.tryReturn d
      else if r.resume = some ReqState.loading ∨ r.resume = some ReqState.verify then s.releasedEarly r d
      else s
    | .queued | .waitVolume | .waitDrive | .waitArm | .moving | .releasing | .returning | .finished => s.tryReturn d

/-- The PLACE at a request's claimed drive has completed (R66). -/
def State.onPlaced (s : State) (tag : Option Half) : State :=
  match tag.bind s.request? with
  | none => s
  | some r => if r.state = .moving then s.enter r.tag .loading none else s

/-- The claim-lost notice (R77). -/
def State.onClaimLost (s : State) (tag : Option Half) : State :=
  match tag.bind s.request? with
  | none => s
  | some r =>
    let s := (s.withdrawPrompt r.tag).dropUnstarted r.tag
    let s := s.updRequest r.tag (fun r => { r with claimed := none, after := some .waitDrive })
    match ((s.request? r.tag).bind (·.order)).bind s.order? with
    | some _ => s.enter r.tag .returning none
    | none => s.endPutAway r.tag

/-- The orders that were to take a reel from a drive found empty: removed, or cut where one runs (DESIGN CHOICE, log 15). -/
def State.dropDriveOrders (s : State) (d : Fin 16) : State :=
  s.sch.pool.foldl (fun s o =>
    if o.returnsDrive d && (s.drive d).volume.isNone then
      match s.takenBy o.id with
      | some a =>
        if o.started then
          (if (s.arm a).gripper = .empty ∧ o.state = .running ∧ s.armBusy a = false then s.cutOrder a o.id else s)
        else s.removeOrder o.id
      | none => if o.state = .failed then s else s.removeOrder o.id
    else s) s

/-- The volume-lost notice (R42, R69, R72, R74, R81). -/
def State.onVolumeLost (s : State) (d : Fin 16) (tag : Option Half) : State :=
  let awaiting := s.noticed d tag
  let s := s.dropDriveOrders d
  match awaiting with
  | none => s
  | some r =>
    match r.state with
    | .loading | .verify | .prompted => (s.withdrawPrompt r.tag).lostVolume r.tag
    | .releasing | .returning => s.endPutAway r.tag
    | .queued | .waitVolume | .waitDrive | .waitArm | .moving | .finished => s

/-- The request in VERIFY on a drive (R53, R68). -/
def State.verifying (s : State) (d : Fin 16) : Option Request :=
  ((s.drive d).claimTag.bind s.request?).filter (fun r => r.state == .verify)

/-- A LABEL frame (R40, R53, R68). -/
def State.takeLabel (s : State) (d : Fin 16) (serial : Text) : State :=
  if (s.drive d).labelTimer.isNone then s
  else
    let s := s.stopLabelTimer d
    match s.verifying d with
    | none => s
    | some r =>
      if (r.volume.bind s.serialOf) = some serial then s.finishMounted r d
      else
        let s := match r.volume with
          | some e => s.raiseErrors e
          | none => s
        s.promptOrFail r.tag .labelMismatch r.volume (some d) .verify

/-- The label timer of a drive expires (R40, R69). -/
def State.labelExpiry (s : State) (d : Fin 16) : State :=
  if (s.drive d).labelTimer.isNone then s
  else
    let s := s.stopLabelTimer d
    match s.verifying d with
    | none => s
    | some r => s.putAway r.tag (some (.failed .noLabel)) none .failed false

/-! ### Order reports (R64, R66, R75, R80 to R83) -/

/-- The order-started report (R64). -/
def State.onOrderStarted (s : State) (id : Nat) : State :=
  match ((s.order? id).bind (·.tag)).bind s.request? with
  | none => s
  | some r => if r.state = .waitArm then s.enter r.tag .moving none else s

/-- A request uses a retry for a failed order, and continues by its volume's fate (R75). With no retry left its pending outcome is set at once, so that
a CANCEL is TOO_LATE while it waits for the RECOVER (DESIGN CHOICE, log 66). -/
def State.retryOrder (s : State) (r : Request) : State :=
  let had := 0 < r.retries
  let s := (s.updRequest r.tag (fun r => { r with retries := r.retries - 1 })).dropClaim r.tag .failed
  if s.volumeMissing r then (if had then s.lostVolume r.tag else s.finish r.tag (.failed .armFailed))
  else
    let s := s.updRequest r.tag (fun r => { r with
      pending := if had then none else some (.failed .armFailed)
      after := if had then some .retried else none
      recOutcome := .failed })
    s.awaitOrPursue r.tag r.volume

/-- An order of a request ended DONE (R66, R72, R81, R83). -/
def State.orderDone (s : State) (r : Request) (rep : OrderEnd) : State :=
  match r.state with
  | .moving =>
    match r.kind, rep.dest with
    | .eject, some (.station p) => s.finish r.tag (.ejected p)
    | _, _ => s.putAway r.tag none (some .waitDrive) .failed false
  | .returning => s.awaitOrPursue r.tag r.volume
  | .queued | .waitVolume | .waitDrive | .waitArm | .loading | .verify | .prompted | .releasing | .finished => s

/-- The reel of a RETURN that failed is still on its drive (R75, R81). -/
def State.reelOnDrive (s : State) (rep : OrderEnd) : Bool :=
  match rep.source with
  | some (.drive d) => (s.drive d).volume.isSome && (s.drive d).volume == rep.volume
  | _ => false

/-- A put-away ends with its order, whether DONE or FAILED: its claim is given up already, and an EJECT's reel was picked (R72, R77; DEDUCED, log 62).
A failure with the claim in force or with the reel still to be picked waits for the volume's fate (R75, R80). -/
def State.endsWithOrder (s : State) (r : Request) (rep : OrderEnd) : Bool :=
  (s.ownDrive r).isNone && (r.kind != .eject || !rep.unpicked)

/-- An order of a request ended FAILED (R75 to R77, R80, R81). -/
def State.orderFailed (s : State) (r : Request) (rep : OrderEnd) : State :=
  if rep.kind = .giveBack ∨ rep.kind = .recover then
    if s.reelOnDrive rep then s
    else if r.state = .prompted then
      let s := (s.withdrawPrompt r.tag).enter r.tag .moving none
      if rep.door then (s.updRequest r.tag (fun r => { r with order := none })).enter r.tag .waitArm (some .volume)
      else s.retryOrder r
    else if r.kind = .demount then
      s.awaitOrPursue r.tag rep.volume
    else s.awaitOrPursue r.tag r.volume
  else if r.state = .returning then
    if s.endsWithOrder r rep then s.pursue r.tag else s.awaitOrPursue r.tag r.volume
  else
    let s := s.withdrawPrompt r.tag
    if rep.door then s.enter r.tag .waitArm (some .volume)
    else if rep.cause = some .caseMismatch ∨ rep.cause = some .noCase then s.lostVolume r.tag
    else s.retryOrder r

/-- A STATUS has shown that the PICK of a RETURN which failed with the door did take the reel from its drive: the request that awaited the
return, and has no order left, goes on as for a RETURN that failed after its PICK (R12, R75). -/
def State.onReelTaken (s : State) (d : Fin 16) (volume : Option Nat) : State :=
  let waits := fun r : Request => r.order.isNone && (
    ((r.state == .returning || r.state == .releasing) &&
      ((r.kind == .demount && r.drive == some d) || (r.volume == volume && volume.isSome && r.awaitVolume.isNone))) ||
    (r.state == .prompted && r.claimed == some d && (s.drive d).holdsRing))
  match s.ms.queue.find? waits with
  | none => s
  | some r =>
    if r.state = .prompted then (s.withdrawPrompt r.tag).enter r.tag .waitArm (some .volume)
    else s.awaitOrPursue r.tag volume

/-- The order-end report at Mount Service (R66, R75). -/
def State.onOrderEnded (s : State) (rep : OrderEnd) : State :=
  match rep.tag.bind s.request? with
  | none => s
  | some r =>
    if r.state = .finished then s
    else
      let s := s.updRequest r.tag (fun r => { r with order := if r.order = some rep.id then none else r.order })
      if rep.ok then s.orderDone r rep else s.orderFailed r rep

/-- An order was removed at the entry to QUIESCING: its request keeps its state and claim and loses the order (R64, R184). -/
def State.onOrderRemoved (s : State) (rep : OrderEnd) : State :=
  match rep.tag with
  | some t => s.updRequest t (fun r => { r with order := if r.order = some rep.id then none else r.order })
  | none => s

/-! ### Cancel and the wait timer (R52, R54, R79) -/

/-- A request is cancelled from a state, or from the resume state of a prompt (R79). -/
def State.cancelFrom (s : State) (r : Request) (st : ReqState) : State :=
  match st with
  | .queued | .waitVolume | .waitDrive => s.finish r.tag .cancelled
  | .waitArm => ((s.dropUnstarted r.tag).dropClaim r.tag .cancelled).finish r.tag .cancelled
  | .moving | .loading | .verify | .prompted => s.putAway r.tag (some .cancelled) none .cancelled false
  | .releasing | .returning =>
    let s := s.updRequest r.tag (fun r => { r with pending := some .cancelled, recOutcome := .cancelled })
    match s.ownDrive r with
    | some d => s.updClaim d (fun c => { c with named := some .cancelled })
    | none => s
  | .finished => s

/-- A live request is cancelled (R79). -/
def State.cancelRequest (s : State) (r : Request) : State :=
  if r.state = .prompted then (s.withdrawPrompt r.tag).cancelFrom r (r.resume.getD .waitVolume) else s.cancelFrom r r.state

/-- The wait timer of a request expires (R54). -/
def State.waitExpiry (s : State) (tag : Half) : State :=
  match s.request? tag with
  | none => s
  | some r =>
    match r.timer with
    | none => s
    | some _ =>
      let s := (s.withdrawPrompt tag).updRequest tag (fun r => { r with timer := none })
      s.putAway tag (some (.failed .timedOut)) none .failed false

/-- A request-related prompt has reached the end of its escalation and was withdrawn (R78, R143). -/
def State.promptTimedOut (s : State) (tag : Half) : State :=
  s.putAway tag (some (.failed .operatorTimeout)) none .failed false

/-! ### Replies (R55, R68, R70, R71, R76) -/

/-- An operator's reply marks the claim and an open session assisted (R55). -/
def State.markAssisted (s : State) (r : Request) : State :=
  match s.ownDrive r with
  | some d => s.updDrive d (fun x => { x with
      claim := x.claim.map (fun c => { c with assisted := true })
      session := x.session.map (fun c => { c with assisted := true }) })
  | none => s

/-- MANUAL_MOUNT DONE (R34, R71). -/
def State.manualMountDone (s : State) (r : Request) : State :=
  match s.ownDrive r with
  | some d => (s.enter r.tag .loading none).manualDone d
  | none => s

/-- MANUAL_MOUNT CANCEL (R71). -/
def State.manualMountCancel (s : State) (r : Request) : State :=
  (s.dropClaim r.tag .failed).finish r.tag (.failed .operatorCancel)

/-- RING_NEEDED READONLY (R70). In the second AWAIT_REPLY the tag that awaits the reel at the position stays there until the request finishes or is put
away (DESIGN CHOICE, log 65). -/
def State.ringReadonly (s : State) (r : Request) : State :=
  match s.ownDrive r with
  | some d =>
    (s.updDrive d (fun x => { x with session := x.session.map (fun c => { c with readOnly := true }) })).afterRing r.tag d
  | none => s

/-- RING_NEEDED CANCEL (R70). -/
def State.ringCancel (s : State) (r : Request) : State := s.putAway r.tag (some (.failed .ring)) none .failed false

/-- RING_NEEDED FIT: ring hold, unload, and for an arm-fetched volume a position; the prompt enters AWAIT_REEL (R70, R145). -/
def State.ringFit (s : State) (r : Request) (n : Nat) : State :=
  match s.ownDrive r with
  | none => s
  | some d =>
    let s := (s.restartPrompt n .awaitReel).updPrompt n (fun p => { p with position := none })
    let s := (s.clearAwaiting r.tag).updClaim d (fun c => { c with ringHold := true })
    let s := s.unload d
    let s := if (s.drive d).claim.any (·.manual.isSome) then s else s.choosePositionFor r.tag d
    s.notify .importTestAll

/-- LABEL_MISMATCH ACCEPT (R68). -/
def State.labelAccept (s : State) (r : Request) : State :=
  match s.ownDrive r with
  | some d => s.finishMounted r d
  | none => s

/-- LABEL_MISMATCH REJECT: to a station; a MOUNT fails, a SCRATCH chooses again (R68). -/
def State.labelReject (s : State) (r : Request) : State :=
  if r.kind = .scratch then s.putAway r.tag none (some .resolve) .failed true
  else s.putAway r.tag (some (.failed .label)) none .failed true

/-- VOLUME_SUSPECT PROCEED: the request enters its resume state, its volume named unless another live request names it (R48, R71). -/
def State.suspectProceed (s : State) (r : Request) (volume : Option Nat) : State :=
  let s := s.updRequest r.tag (fun r => { r with proceeded := volume })
  match volume with
  | none => s.enter r.tag .waitVolume (some .volume)
  | some e =>
    if s.othersName r.tag e then s.enter r.tag .waitVolume (some .volume)
    else
      let st := r.resumes
      (s.nameVolume r.tag e).enter r.tag st (reasonFor st)

/-- VOLUME_LOST FOUND, or its reel recognised at an import pick (R76, R144). -/
def State.lostFound (s : State) (tag : Half) : State := s.enter tag .waitVolume (some .volume)

/-- SCRATCH_EMPTY DONE (R71). -/
def State.scratchDone (s : State) (tag : Half) : State := s.enter tag .waitVolume (some .pool)

end Sys2Proof.Machine
end

