-- ==== Sys2Proof/Machine/Service.lean ====
section
/-! DEFINITION. The Service Controller: the service states, settling, quiesce, resume, and the door (chapter 9). -/

namespace Sys2Proof.Machine

/-- The service state changes and SERVICE is raised (R179). -/
def State.enterService (s : State) (st : SvcState) : State := { s with svc := { s.svc with state := st } }.raise .service

def State.clearHomingOwed (s : State) : State := { s with svc := { s.svc with owedA := false, owedB := false } }

def State.setDoorMark (s : State) (b : Bool) : State := { s with svc := { s.svc with doorMark := b } }

/-- Both arms look at their lists (R89). -/
def State.armsLook (s : State) : State := (s.notify (.armLook .armA)).notify (.armLook .armB)

/-- The state enters ACTIVE (R183). -/
def State.enterActive (s : State) : State :=
  let fromHoming := s.service == .homing
  let s := ((s.enterService .active).setDoorMark false).walk
  let s := s.testOwedImports
  let s := if fromHoming && s.auditAtStart then s.askFullAudit else s
  s.retryScan.armsLook

/-- An arm is settled (R182). -/
def State.settled (s : State) (a : ArmId) : Bool :=
  !s.homingOwed a &&
    (match (s.arm a).state with
     | .idle | .outOfService => true
     | .running => ((s.arm a).order.bind s.order?).any (fun o => o.kind == .scan)
     | .unhomed | .homing | .holding | .statusWait | .faulted | .parked => false)

/-- An arm is at rest for QUIESCED (R185). -/
def atRest : ArmState → Bool
  | .parked | .outOfService | .faulted => true
  | .unhomed | .homing | .idle | .running | .holding | .statusWait => false

/-- The Service Controller tests the end of settling and of quiescing (R182, R185). -/
def State.checkService (s : State) : State :=
  match s.service with
  | .homing | .resuming => if s.settled .armA && s.settled .armB then s.enterActive else s
  | .quiescing =>
    if atRest (s.arm .armA).state && atRest (s.arm .armB).state && s.sch.pool.isEmpty then s.enterService .quiesced else s
  | .starting | .active | .quiesced | .interrupted => s

/-- START in STARTING (R181). -/
def State.startLibrary (s : State) : State :=
  let s := ((s.enterService .homing).setHomingOwed .armA true).setHomingOwed .armB true
  (s.enterHoming .armA).enterHoming .armB

/-- QUIESCE in ACTIVE, HOMING or RESUMING (R184). -/
def State.enterQuiescing (s : State) : State :=
  ((s.enterService .quiescing).clearHomingOwed.removeUnstarted.abortAudit).armsLook

/-- The audit after the door, the owed SCAN and the owed drive RECOVERs, on every entry to RESUMING (R117, R187). -/
def State.afterResuming (s : State) (opened : Bool) : State :=
  let s := if opened && s.auditAfterDoor then s.askFullAudit else s
  ((s.retryScan).setDoorMark false).recoverDrives

/-- The arms RESUME homes: at once when PARKED or IDLE, at work when next IDLE (R112, R182). -/
def State.resumeArm (s : State) (a : ArmId) : State :=
  match (s.arm a).state with
  | .parked | .idle => (s.setHomingOwed a true).enterHoming a
  | .running | .statusWait => s.setHomingOwed a true
  | .holding => (s.setHomingOwed a true).notify (.armLook a)
  | .unhomed | .homing | .faulted | .outOfService => s

/-- RESUME, from the system or the panel; none where it is refused WRONG_STATE (R187). -/
def State.resumeLibrary (s : State) : Option State :=
  match s.service with
  | .quiescing | .quiesced =>
    let s := s.enterService .resuming
    let s := (s.resumeArm .armA).resumeArm .armB
    some (s.afterResuming s.svc.doorMark)
  | .starting | .homing | .active | .resuming | .interrupted => none

/-- The library is interrupted by the door (R111, R123, R188). -/
def State.interrupt (s : State) : State := ((s.enterService .interrupted).clearHomingOwed.doorStopsArms).abortAudit

/-- A debounced door opening (R188). -/
def State.doorOpens (s : State) : State :=
  match s.service with
  | .starting | .interrupted => s
  | .quiesced => s.setDoorMark true
  | .quiescing => (s.setDoorMark true).interrupt
  | .homing | .active | .resuming => s.interrupt

/-- The FAULTED arms home at the door's closing (R111, R182). -/
def State.homeFaulted (s : State) (a : ArmId) : State :=
  if (s.arm a).state = .faulted then (s.setHomingOwed a true).enterHoming a else s

/-- A debounced door closing (R188). -/
def State.doorCloses (s : State) : State :=
  match s.service with
  | .interrupted => (((s.enterService .resuming).homeFaulted .armA).homeFaulted .armB).afterResuming true
  | .starting | .homing | .active | .quiescing | .quiesced | .resuming => s

/-- An arm has entered HOMING: it takes the library out of QUIESCED (R186); with the door open it is stopped and the open door is taken
as an opening (R189). -/
def State.onArmHoming (s : State) (a : ArmId) : State :=
  if (s.arm a).state ≠ .homing then s
  else
    let s := if s.service = .quiesced then s.enterService .quiescing else s
    if s.mon.doorClosed then s else (s.stopHoming a).doorOpens

end Sys2Proof.Machine
end

