-- ==== Sys2Proof/Machine/Settle.lean ====
section
/-! DEFINITION. What one block tells another inside a step: each notice is handed to the block that takes it, until none is left. -/

namespace Sys2Proof.Machine

/-- The order-end report goes to the order's owner, and to Mount Service for a tagged order (R90). -/
def State.reportEnd (s : State) (r : OrderEnd) : State :=
  match r.kind with
  | .scan => s.scanEnded r
  | .handIn => (s.importEnded r).onOrderEnded r
  | .fetch | .giveBack | .eject | .recover => s.onOrderEnded r

/-- The removal of an order at the entry to QUIESCING goes to its owner (R112). -/
def State.reportRemoved (s : State) (r : OrderEnd) : State :=
  match r.kind with
  | .scan => s.scanRemoved r
  | .handIn => s.importRemoved r
  | .fetch | .giveBack | .eject | .recover => s.onOrderRemoved r

/-- The arms try again what they hold or wait with (R91, R92). -/
def State.retryArms (s : State) : State :=
  match s.armStep .armA with
  | some t => ((t.armStep .armB).getD t).notify .retry
  | none =>
    match s.armStep .armB with
    | some t => t.notify .retry
    | none => s

/-- A notice is handed to the block that takes it. -/
def State.take (s : State) : Notice → State
  | .walk | .driveEmpty _ => s.walk
  | .placed _ tag => s.onPlaced tag
  | .loaded d tag protect refit => s.onLoaded d tag protect refit
  | .loadedAgain d tag => s.onLoadedAgain d tag
  | .loadFailed _ tag => s.onLoadFailed tag
  | .reelReady d tag => s.onReelReady d tag
  | .reelTaken d volume => s.onReelTaken d volume
  | .claimLost _ tag => s.onClaimLost tag
  | .volumeLost d tag => s.onVolumeLost d tag
  | .orderStarted id => s.onOrderStarted id
  | .orderEnded r => s.reportEnd r
  | .orderRemoved r => s.reportRemoved r
  | .armFree a => s.armIsFree a
  | .armLook a => s.armLooks a
  | .armGo a => (s.armStep a).getD s
  | .armHoming a => s.onArmHoming a
  | .armEntered _ => (s.bindUnbound.notify .walk).reimports
  | .importPicked id a p => s.importPicked id a p
  | .importTest p => s.testImport p
  | .importTestAll => s.testAllImports
  | .room => s.retryScan.testOwedImports
  | .recovers => s.recoverDrives
  | .scanRead id slot counts => s.scanRead id slot counts
  | .scanPassed id slot => s.scanPassed id slot
  | .lostFound tag => s.lostFound tag
  | .retry => s.retryArms

/-- A station position has become free (R160). -/
def State.freed (before after : State) : Bool := allPositions.any (fun p => !before.positionFree p && after.positionFree p)

/-- After each act: the condition-bound flags follow (R196), waiting claims are tested (R95), recovered volumes noted (R75), the service state tested (R182, R185), and freed
positions told to Mount Service (R160). -/
def State.follow (before after : State) : State :=
  let s := ((State.testClaims 8 after.refreshConditions).checkAwaits).checkService
  if before.freed s then s.notifyFree else s

/-- One notice is taken; what the arms hold is tried again after it. -/
def State.takeNotice (s : State) (n : Notice) : State :=
  let t := State.follow s (s.take n)
  if n = .retry then t else t.notify .retry

/-- The notices are taken, oldest first, until none is left (DESIGN CHOICE of the order and of the bound, log 2). -/
def State.drain : Nat → State → State
  | 0, s => s
  | fuel + 1, s =>
    match s.notices with
    | [] => s
    | n :: rest => State.drain fuel ({ s with notices := rest }.takeNotice n)

/-- The eleven blocks reach the System Port by raised events and owed final replies alone (R56, R196): of the port's state these pass from
an act, and the commands waiting are not touched. -/
def State.confine (before after : State) : State :=
  { after with
    port := { before.port with
      flags := after.port.flags, noticeOwed := after.port.noticeOwed, replyOwed := after.port.replyOwed }
    pending := before.pending }

/-- An act of a block, followed by all that it causes in the other blocks. -/
def State.act (s : State) (f : State → State) : State :=
  s.confine (State.drain Config.fuel ((State.follow s (f s)).notify .retry))

end Sys2Proof.Machine
end

