-- ==== Sys2Proof/Machine/Frames.lean ====
section
/-! DEFINITION. Frames on the system port and the arm ports: the envelope and its check byte, the receiver, the fields of received
bodies, and the bytes of what the processor sends (R191 to R193, R207, R208, sections 11.2 and 11.3). -/

namespace Sys2Proof.Machine

/-! ### The envelope (R191) -/

/-- The start byte. -/
def startByte : Byte := 0xC5

/-- The sum of bytes, modulo 256. -/
def byteSum (bs : List Byte) : Byte := bs.foldl (· + ·) 0

/-- The bytes of a frame: start byte, length, class, body, and the check byte that brings the sum to 0 (R191). -/
def frameBytes (cls : Byte) (body : List Byte) : List Byte :=
  let inner := byte (body.length + 1) :: cls :: body
  startByte :: inner ++ [0 - byteSum inner]

/-! ### The receiver (R192) -/

/-- What the bytes after a start byte make: a frame not yet complete, one to be discarded, or a whole one with the bytes that follow. -/
inductive Collected where
  | partly
  | bad
  | whole (cls : Byte) (body rest : List Byte)
deriving DecidableEq, Repr

/-- The bytes after a start byte, by the length byte and the check sum (R192). -/
def collect : List Byte → Collected
  | [] => .partly
  | len :: more =>
    let n := len.toNat
    if n = 0 ∨ 240 < n then .bad
    else if more.length ≤ n then .partly
    else if byteSum (len :: more.take (n + 1)) ≠ 0 then .bad
    else match more.take n with
      | cls :: body => .whole cls body (more.drop (n + 1))
      | [] => .bad

/-- What a receiver brings about: a discard, or a whole frame. -/
inductive Received where
  | discard
  | frame (cls : Byte) (body : List Byte)
deriving DecidableEq, Repr

/-- A hunting receiver examines bytes: it drops them up to a start byte, and after a discard examines again those that follow that
start byte (R192). -/
def hunt : Nat → List Byte → Rx × List Received
  | 0, _ => (.hunting, [])
  | _ + 1, [] => (.hunting, [])
  | n + 1, b :: rest =>
    if b ≠ startByte then hunt n rest
    else match collect rest with
      | .partly => (.collecting rest, [])
      | .bad => ((hunt n rest).1, .discard :: (hunt n rest).2)
      | .whole cls body after => ((hunt n after).1, .frame cls body :: (hunt n after).2)

/-- A byte arrives at a receiver (R192). -/
def Rx.receive (rx : Rx) (b : Byte) : Rx × List Received :=
  match rx with
  | .hunting => hunt 2 [b]
  | .collecting bytes => hunt (bytes.length + 3) (startByte :: bytes ++ [b])

/-- A gap of more than 200 ms: a partial frame is discarded (R192). -/
def Rx.gap : Rx → Rx × List Received
  | .hunting => (.hunting, [])
  | .collecting _ => (.hunting, [.discard])

/-! ### Received bodies (sections 11.2 and 11.7, R194, R208) -/

/-- The codes of the known CONTROL commands run from 1 to 19 (section 11.2). -/
def knownCommand (code : Byte) : Bool := 1 ≤ code.toNat && code.toNat ≤ 19

/-- The kind of a REQUEST that takes a queue entry. -/
def requestKind (b : Byte) : Option RequestKind :=
  if b = 1 then some .mount
  else if b = 2 then some .scratch
  else if b = 3 then some .demount
  else if b = 4 then some .eject
  else none

/-- The fields at offsets 1 to 21 of a REQUEST body, the tag first; none when the body is too short. -/
def requestFields (t1 t0 : Byte) (rest : List Byte) : Option RequestFields :=
  match rest.take 6, rest.drop 6 with
  | serial, pool :: drive :: flags :: density :: priority :: account =>
    if account.length < 8 then none
    else some ⟨halfOfBytes t1 t0, serial, pool, drive, flags, density, priority, account.take 8⟩
  | _, _ => none

/-- A REQUEST body (section 11.2): a LABEL whatever its length, else by its tag and kind (R194, R208). -/
def parseRequest : List Byte → SysFrame
  | [] => .requestShort 0
  | kind :: more =>
    if kind = 6 then
      match more with
      | drive :: serial => if serial.length < 6 then .labelShort else .label drive (serial.take 6)
      | [] => .labelShort
    else
      match more with
      | t1 :: t0 :: rest =>
        if kind = 5 then .cancel (halfOfBytes t1 t0)
        else match requestKind kind with
          | none => .requestUnknown (halfOfBytes t1 t0)
          | some k => match requestFields t1 t0 rest with
            | some f => .request k f
            | none => .requestShort (halfOfBytes t1 t0)
      | _ => .requestShort 0

/-- The fields of a known CONTROL command; none when the body does not hold them (section 11.2). -/
def controlFields (code : Byte) (fields : List Byte) : Option SysFrame :=
  match code.toNat, fields with
  | 1, table :: i1 :: i0 :: wrap :: _ => some (.select table (halfOfBytes i1 i0) wrap)
  | 2, n :: _ => some (.readEntries n)
  | 3, entry => some (.writeEntry entry)
  | 4, _ => some .clearTable
  | 5, _ => some .start
  | 6, _ => some .quiesce
  | 7, _ => some .resume
  | 8, _ => some .linkReset
  | 9, a1 :: a0 :: b1 :: b0 :: _ => some (.audit (halfOfBytes a1 a0) (halfOfBytes b1 b0))
  | 10, b3 :: b2 :: b1 :: b0 :: _ => some (.setClock (stampOfBytes b3 b2 b1 b0))
  | 11, _ => some .readClock
  | 12, m1 :: m0 :: _ => some (.eventMask (halfOfBytes m1 m0))
  | 13, e1 :: e0 :: _ => some (.eventClear (halfOfBytes e1 e0))
  | 14, _ => some .readEvents
  | 15, n :: _ => some (.readRecords n)
  | 16, n1 :: n0 :: _ => some (.releaseRecords (halfOfBytes n1 n0))
  | 17, index :: _ => some (.resetCounters index)
  | 18, arm :: out :: _ => some (.armService arm out)
  | 19, drive :: out :: _ => some (.driveService drive out)
  | _, _ => none

/-- A CONTROL body: an unknown command is answered UNKNOWN, a short one BAD_FIELD (R194, R208). -/
def parseControl : List Byte → SysFrame
  | [] => .unknown 0
  | code :: fields => if knownCommand code then (controlFields code fields).getD (.controlShort code) else .unknown code

/-- A whole frame received on the system port, by its class (R194). -/
def parseFrame (cls : Byte) (body : List Byte) : SysFrame :=
  if cls = 1 then parseRequest body
  else if cls = 3 then parseControl body
  else .unknown (body.headD 0)

/-- The code of a request kind in a REQUEST body. -/
def kindByte (k : RequestKind) : Byte := byte k.code

/-- The bytes of the fields of a REQUEST, offsets 1 to 21. -/
def fieldBytes (f : RequestFields) : List Byte :=
  bytesOfHalf f.tag ++ f.serial ++ [f.pool, f.drive, f.flags, f.density, f.priority] ++ f.account

/-- The class and body by which the system sends a frame; a frame that is no proper command is given by its shortest body. -/
def SysFrame.encode : SysFrame → Byte × List Byte
  | .request k f => (1, kindByte k :: fieldBytes f)
  | .cancel tag => (1, 5 :: bytesOfHalf tag)
  | .label drive serial => (1, 6 :: drive :: serial)
  | .labelShort => (1, [6])
  | .requestShort tag => if tag = 0 then (1, []) else (1, 1 :: bytesOfHalf tag)
  | .requestUnknown tag => (1, 0 :: bytesOfHalf tag)
  | .select table index wrap => (3, 1 :: table :: bytesOfHalf index ++ [wrap])
  | .readEntries n => (3, [2, n])
  | .writeEntry entry => (3, 3 :: entry)
  | .clearTable => (3, [4])
  | .start => (3, [5])
  | .quiesce => (3, [6])
  | .resume => (3, [7])
  | .linkReset => (3, [8])
  | .audit first last => (3, 9 :: bytesOfHalf first ++ bytesOfHalf last)
  | .setClock value => (3, 10 :: bytesOfStamp value)
  | .readClock => (3, [11])
  | .eventMask mask => (3, 12 :: bytesOfHalf mask)
  | .eventClear events => (3, 13 :: bytesOfHalf events)
  | .readEvents => (3, [14])
  | .readRecords n => (3, [15, n])
  | .releaseRecords n => (3, 16 :: bytesOfHalf n)
  | .resetCounters index => (3, [17, index])
  | .armService arm out => (3, [18, arm, out])
  | .driveService drive out => (3, [19, drive, out])
  | .controlShort code => (3, [code])
  | .unknown echo => (0, [echo])

/-- The frames whose fields have their lengths, and that are what their encoding says. -/
def SysFrame.wf : SysFrame → Bool
  | .request _ f => f.wf
  | .label _ serial => serial.length == serialLength
  | .controlShort code => knownCommand code && (controlFields code []).isNone
  | .cancel _ | .labelShort | .requestShort _ | .requestUnknown _ | .select _ _ _ | .readEntries _ | .writeEntry _
  | .clearTable | .start | .quiesce | .resume | .linkReset | .audit _ _ | .setClock _ | .readClock | .eventMask _
  | .eventClear _ | .readEvents | .readRecords _ | .releaseRecords _ | .resetCounters _ | .armService _ _
  | .driveService _ _ | .unknown _ => true

/-! ### Arm reports (section 11.3) -/

/-- A report of an arm controller. -/
inductive ArmReport where
  | legDone (r : LegReport)
  | legFault (code loaded : Byte)
  | homeDone (column : Byte)
  | statusReply (r : StatusReport)
deriving DecidableEq, Repr

/-- A whole frame on an arm port: a class-7 frame of a known code that holds its fields, else no report (R193, R208). -/
def parseReport (cls : Byte) (body : List Byte) : Option ArmReport :=
  if cls ≠ 7 then none
  else match body with
    | code :: fields =>
      match code.toNat, fields with
      | 1, loaded :: reading :: serial =>
        if serial.length < 6 then none else some (.legDone ⟨loaded, reading, serial.take 6⟩)
      | 2, fault :: loaded :: _ => some (.legFault fault loaded)
      | 3, column :: _ => some (.homeDone column)
      | 4, column :: loaded :: faultFlag :: reading :: serial =>
        if serial.length < 6 then none else some (.statusReply ⟨column, loaded, faultFlag, reading, serial.take 6⟩)
      | _, _ => none
    | [] => none

/-! ### What the processor sends -/

/-- The body of a REPLY after its code, summary and tag (section 11.2). -/
def Reply.fields : Reply → List Byte
  | .accepted n => [byte n]
  | .refused r | .failed r => [byte r.code]
  | .mounted d serial readOnly => byte d.val :: serial ++ [flagByte readOnly]
  | .demounted d => [byte d.val]
  | .ejected p => [byte (stationOf p), byte (p.val % 4)]
  | .cancelled => []

/-- The class of a message of the processor (R191). -/
def OutMsg.cls : OutMsg → Byte
  | .reply _ _ _ => 2
  | .response _ _ _ _ _ _ => 4
  | .notice => 5

/-- The body of a message with its event summary (section 11.2). -/
def OutMsg.body (summary : Half) : OutMsg → List Byte
  | .reply tag r _ => byte r.code :: bytesOfHalf summary ++ bytesOfHalf tag ++ r.fields
  | .response part last result code data _ =>
    byte (part % 128 + (if last then 128 else 0)) :: bytesOfHalf summary ++ [byte result, code] ++ data
  | .notice => bytesOfHalf summary

/-- The bytes of a frame on the system line (R191). -/
def OutFrame.bytes (f : OutFrame) : List Byte := frameBytes f.msg.cls (f.msg.body f.summary)

/-- The code of a place (section 11.3). -/
def Place.code : Place → Nat
  | .rail _ | .arm _ => 0
  | .slot _ => 1
  | .drive _ => 2
  | .station _ => 3

/-- The level, drive or position of a place: a position is 0 to 3 within its station, which the column tells. -/
def Place.argument : Place → Nat
  | .rail _ | .arm _ => 0
  | .slot n => slotLevel n
  | .drive d => d.val
  | .station p => p.val % 4

/-- A place as place, column, and level, drive or position. -/
def State.placeBytes (s : State) (p : Place) : List Byte := [byte p.code, byte (s.placeColumn p), byte p.argument]

/-- The kind of a leg (section 11.3). -/
def Leg.code : Leg → Nat
  | .travel _ => 0
  | .pick _ => 1
  | .place _ => 2
  | .read _ => 3
  | .home => 4

/-- The place of a leg, absent while it is still to be chosen. -/
def Leg.at? : Leg → Option Place
  | .travel c => c.map .rail
  | .pick p => some p
  | .place p => p
  | .read n => some (.slot n)
  | .home => none

/-- The body of a frame for an arm controller (section 11.3). -/
def State.armFrameBody (s : State) : ArmFrame → List Byte
  | .leg l => 1 :: byte l.code :: ((l.at?).map s.placeBytes).getD [absentByte, absentByte, absentByte]
  | .home => [2]
  | .status => [3]
  | .stop => [4]

/-- The bytes of a frame for an arm controller, class 6 (section 11.3). -/
def State.armFrameBytes (s : State) (f : ArmFrame) : List Byte := frameBytes 6 (s.armFrameBody f)

end Sys2Proof.Machine
end

