-- ==== Sys2Proof/Machine/RequestFrames.lean ====
section
/-! DEFINITION. Mount Service on REQUEST frames: the checks of a request and its acceptance, CANCEL, LABEL, and the frames that are no
request (R50 to R53, R60, R194, R208). -/

namespace Sys2Proof.Machine

/-- The immediate REPLY to a REQUEST frame. -/
def replyNow (tag : Half) (r : Reply) : List OutMsg := [.reply tag r false]

/-- The first of a list of checks that fails gives the refusal. -/
def firstRefusal : List (Bool × Reason) → Option Reason
  | [] => none
  | (failed, r) :: rest => if failed then some r else firstRefusal rest

/-! ### The fields of a REQUEST (section 11.2) -/

/-- A directed or named drive; absent when FF (R207). -/
def requestDrive (f : RequestFields) : Option (Fin 16) := driveOfByte f.drive

/-- The density of a request; none when absent or out of range. -/
def requestDensity (f : RequestFields) : Option Density := (densityOfByte f.density).join

/-- Bit 0 of the flags is write, bit 1 verify. -/
def requestWrite (f : RequestFields) : Bool := f.flags.getLsbD 0
def requestVerify (f : RequestFields) : Bool := f.flags.getLsbD 1

/-- The account code is absent or a padded code (R208). -/
def accountGiven (f : RequestFields) : Bool := isBlank f.account || isPaddedName f.account

/-- A MOUNT or SCRATCH may be directed: no drive, or one of 0 to 15. -/
def directionGiven (f : RequestFields) : Bool := f.drive == absentByte || (requestDrive f).isSome

/-- The fields of a request are within their sets and ranges, by its kind (R50). -/
def fieldsGood (f : RequestFields) (k : RequestKind) : Bool :=
  f.tag != 0 && f.priority.toNat ≤ 3 && accountGiven f &&
    (match k with
     | .mount => isPaddedName f.serial && directionGiven f && (densityOfByte f.density).isSome
     | .scratch => f.pool.toNat ≤ 7 && directionGiven f && (densityOfByte f.density).isSome
     | .demount => (requestDrive f).isSome
     | .eject => isPaddedName f.serial)

/-! ### The checks of R50 -/

/-- The volume a MOUNT or EJECT names. -/
def State.namedVolume (s : State) (f : RequestFields) : Option Volume := (s.entryOf f.serial).bind s.vol?

/-- The checks every request answers to. -/
def State.commonChecks (s : State) (tag : Half) (quiescing : Bool) (good : Bool) : List (Bool × Reason) :=
  [(s.service == .starting, .notStarted),
   (quiescing && (s.service == .quiescing || s.service == .quiesced), .quiesced),
   ((s.request? tag).isSome, .duplicateTag),
   (Config.maxRequests ≤ s.ms.queue.length, .queueFull),
   (!good, .badField)]

/-- The account checks of MOUNT, SCRATCH and EJECT. -/
def State.accountChecks (s : State) (f : RequestFields) : List (Bool × Reason) :=
  [(!isBlank f.account && (s.accountOf f.account).isNone && s.refuseUnknownAccount, .unknownAccount),
   ((s.account? (s.chargedTo f.account)).any (·.closed), .accountClosed)]

/-- The volume checks of MOUNT and EJECT; OUTSIDE refuses an EJECT alone. -/
def State.volumeChecks (s : State) (f : RequestFields) (eject : Bool) : List (Bool × Reason) :=
  let v := s.namedVolume f
  let inDrive := v.any (fun v => match v.loc with
    | .inDrive _ => true
    | .home | .inArm _ | .atStation _ | .outside | .missing | .misplaced _ => false)
  [(v.isNone, .unknownVolume),
   (v.any s.mountBarred, .fenced),
   (inDrive, .inUse),
   (v.any (fun v => v.loc == .missing), .missing),
   (eject && v.any (fun v => v.loc == .outside), .outside)]

/-- A directed drive is installed and online and has the wanted density. -/
def State.directedFits (s : State) (f : RequestFields) (volume : Option Volume) : Bool :=
  match requestDrive f with
  | none => true
  | some d =>
    let x := s.drive d
    let wanted := match volume.bind (·.density) with
      | some y => some y
      | none => requestDensity f
    x.installed && x.online && x.suits wanted

/-- A drive state a DEMOUNT is taken in (R50, R60). -/
def mountedState : DriveState → Bool
  | .loaded | .unloading | .released => true
  | .offline | .empty | .claimed | .placed | .check | .unmanaged => false

/-- The checks of a DEMOUNT. -/
def State.demountChecks (s : State) (f : RequestFields) : List (Bool × Reason) :=
  match requestDrive f with
  | none => []
  | some d =>
    [(!mountedState (s.drive d).state, .notMounted),
     (s.claimLive d || s.ms.queue.any (fun r => r.kind == RequestKind.demount && r.drive == some d), .inUse)]

/-- The refusal of a request frame, in the order of R50. -/
def State.refusal (s : State) (k : RequestKind) (f : RequestFields) : Option Reason :=
  let own := match k with
    | .mount =>
      s.accountChecks f ++ s.volumeChecks f false ++ [(!(s.directedFits f (s.namedVolume f)), .driveUnsuitable)]
    | .scratch => s.accountChecks f ++ [(!(s.directedFits f none), .driveUnsuitable)]
    | .demount => s.demountChecks f
    | .eject => s.accountChecks f ++ s.volumeChecks f true
  firstRefusal (s.commonChecks f.tag (k != .demount) (fieldsGood f k) ++ own)

/-! ### Acceptance (R51, R60) -/

/-- The request built from a frame (R49, R51). -/
def State.newRequest (s : State) (k : RequestKind) (f : RequestFields) : Request where
  tag := f.tag
  kind := k
  fields := f
  serial := f.serial
  pool := f.pool.toNat
  drive := if k = .eject then none else requestDrive f
  write := requestWrite f
  verify := requestVerify f
  density := requestDensity f
  account := s.chargedTo f.account
  priority := f.priority.toNat
  arrival := s.clock
  retries := s.requestRetries
  state := .queued
  resume := none
  volume := none
  claimed := none
  order := none
  prompt := none
  reason := none
  pending := none
  outcome := none
  timer := if s.waitLimit f.priority.toNat = 0 then none else some (s.waitLimit f.priority.toNat)
  proceeded := none
  after := none
  recOutcome := .failed
  toStation := false
  awaitVolume := none

/-- A request joins the end of the queue (R48, R51). -/
def State.joinQueue (s : State) (r : Request) : State := { s with ms := { s.ms with queue := s.ms.queue ++ [r] } }

/-- A DEMOUNT is resolved on its drive (R60). -/
def State.resolveDemount (s : State) (tag : Half) (d : Fin 16) : State :=
  let s := s.updRequest tag (fun r => { r with pending := some (.demounted d) })
  match (s.drive d).state with
  | .released =>
    match s.returnOrder d with
    | some o => s.joinOrder tag o.id
    | none => (s.enter tag .releasing none).tryReturn d
  | .loaded | .unloading => (s.enter tag .releasing none).unload d
  | .offline | .empty | .claimed | .placed | .check | .unmanaged => s

/-- What follows the acceptance of a request (R51, R60). -/
def State.afterAcceptance (s : State) (k : RequestKind) (f : RequestFields) : State :=
  match k, requestDrive f with
  | .demount, some d => s.resolveDemount f.tag d
  | .demount, none => s
  | _, _ => if s.service = SvcState.active then s.walkStep f.tag else s

/-- A MOUNT, SCRATCH, DEMOUNT or EJECT frame is taken: the state it leaves and its immediate reply (R50, R51). -/
def State.takeRequest (s : State) (k : RequestKind) (f : RequestFields) : State × List OutMsg :=
  match s.refusal k f with
  | some r => (s, replyNow f.tag (.refused r))
  | none =>
    let s := s.joinQueue (s.newRequest k f)
    (s.act (fun s => s.afterAcceptance k f), replyNow f.tag (.accepted s.ms.queue.length))

/-- A REQUEST of an unknown kind is refused under R50 (R194). -/
def State.takeUnknownKind (s : State) (tag : Half) : State × List OutMsg :=
  (s, replyNow tag (.refused ((firstRefusal (s.commonChecks tag false false)).getD .badField)))

/-! ### CANCEL and LABEL (R52, R53) -/

/-- The place of a request in the queue, counted from 1. -/
def State.positionOf (s : State) (tag : Half) : Nat := s.ms.queue.findIdx (fun r => r.tag == tag) + 1

/-- The refusal of a CANCEL (R52). -/
def State.cancelRefusal (s : State) (tag : Half) : Option Reason :=
  if s.service = .starting then some .notStarted
  else match s.request? tag with
    | none => some .notFound
    | some r => if r.state = .finished then some .notFound else if r.pending.isSome then some .tooLate else none

/-- A CANCEL frame is taken (R52). -/
def State.takeCancel (s : State) (tag : Half) : State × List OutMsg :=
  match s.cancelRefusal tag, s.request? tag with
  | some reason, _ => (s, replyNow tag (.refused reason))
  | none, some r => (s.act (fun s => s.cancelRequest r), replyNow tag (.accepted (s.positionOf tag)))
  | none, none => (s, replyNow tag (.refused .notFound))

/-- A LABEL frame is handed to its drive; one that fails its checks is discarded (R40, R53). It has no reply. -/
def State.labelFrame (s : State) (drive : Byte) (serial : Text) : State :=
  match driveOfByte drive with
  | some d => if isPaddedName serial && (s.drive d).labelTimer.isSome then s.act (fun s => s.takeLabel d serial) else s
  | none => s

end Sys2Proof.Machine
end

