-- ==== Sys2Proof/Machine/ArmReports.lean ====
section
/-! DEFINITION. The Arm Scheduler on the reports of the arm controllers and on its own timers (R99 to R101, R105, R108, R208). -/

namespace Sys2Proof.Machine

/-! ### Readings (R208, section 11.3) -/

/-- A yes or no byte of a report: any value but 0 is yes (DESIGN CHOICE, log 16). -/
def said (b : Byte) : Bool := b != 0

/-- The serial of a report, or "unreadable" when it is no padded serial (R208). -/
def readSerial (t : Text) : Reading := if isPaddedName t then .serial t else .unreadable

/-- The reading of a LEG_DONE: an empty gripper has read no case (R100); a READ may report no case with either flag. -/
def legReading (r : LegReport) (l : Leg) : Reading := if r.loaded = 0 then .noCase
  else if r.reading = 0 then readSerial r.serial
  else match l with
    | .read _ => if r.reading = 1 then .noCase else .unreadable
    | .travel _ | .pick _ | .place _ | .home => .unreadable

/-- What a STATUS_REPLY says of the gripper: a loaded one with another reading than a serial is an unknown reel (section 11.3). -/
def statusResult (r : StatusReport) : StatusResult := if r.loaded = 0 then .empty
  else if r.reading = 0 && isPaddedName r.serial then .serial r.serial else .unreadable

/-- Whether a gripper flag fits a leg (R100). -/
def State.flagFits (s : State) (a : ArmId) (l : Leg) (loaded : Bool) : Bool :=
  match l with
  | .travel _ => loaded == ((s.arm a).gripper != .empty)
  | .place _ => !loaded
  | .pick (.drive _) => loaded
  | .pick _ | .read _ | .home => true

/-! ### Reports (R100, R101, R104, R108) -/

/-- A report that answers nothing outstanding: LATE_COMPLETION, but from a FAULTED arm or after a door's STOP (R101). -/
def State.lateReport (s : State) (a : ArmId) : State :=
  if (s.arm a).state = .faulted ∨ (s.arm a).stopped then s else s.raise .lateCompletion

/-- A LEG_DONE that reaches the leg outstanding, so many ticks after its hand-out (R100). Past the maximum the leg has timed out, and the
report is late (R101). -/
def State.legReported (s : State) (a : ArmId) (l : Leg) (volume : Option Nat) (window : Nat × Nat) (r : LegReport) (ticks : Nat) :
    State :=
  if window.2 < ticks then (s.legFails a l volume .legTimeout).lateReport a
  else if ticks < window.1 then s.legFails a l volume .shortLeg
  else if s.flagFits a l (said r.loaded) then s.legCompletes a l volume (legReading r l)
  else s.legFails a l volume .armReported

def State.takeLegDone (s : State) (a : ArmId) (r : LegReport) (ticks : Nat) : State :=
  match (s.arm a).outstanding with
  | some (.leg l volume lo hi) => s.legReported a l volume (lo, hi) r ticks
  | some (.home _) | some (.status _) | none => s.lateReport a

/-- Nothing is outstanding on an arm's port. -/
def State.clearOutstanding (s : State) (a : ArmId) : State := s.updArm a (fun x => { x with outstanding := none })

/-- A LEG_FAULT answers the leg or the HOME outstanding; its code is stored (R100, R108, R208). -/
def State.takeLegFault (s : State) (a : ArmId) (code : Byte) : State :=
  match (s.arm a).outstanding with
  | some (.leg l volume _ _) => (s.updArm a (fun x => { x with lastFault := some code })).legFails a l volume .armReported
  | some (.home _) =>
    ((s.clearOutstanding a).updArm a (fun x => { x with lastFault := some code })).homingFails a .noReply
  | some (.status _) | none => s.lateReport a

/-- A HOME_DONE (R101, R108). -/
def State.takeHomeDone (s : State) (a : ArmId) (column : Byte) : State :=
  match (s.arm a).outstanding with
  | some (.home _) => s.homeReached a column.toNat
  | some (.leg _ _ _ _) | some (.status _) | none => s.lateReport a

/-- The column of a report lies in a zone the arm holds (R104, R208). -/
def State.columnHeld (s : State) (a : ArmId) (column : Nat) : Bool := column < 32 && s.holds a (zoneOf column)

/-- A STATUS_REPLY to a STATUS outstanding: used, or taken as unanswered (R104, R105, R108). -/
def State.statusReplied (s : State) (a : ArmId) (r : StatusReport) : State :=
  let s := s.clearOutstanding a
  let column := r.column.toNat
  let unanswered := if said r.faultFlag then statusResult r else .noReply
  let used := !said r.faultFlag && s.columnHeld a column
  match (s.arm a).state with
  | .statusWait => if used then s.statusUsed a column (statusResult r) else s.statusUnanswered a unanswered
  | .homing => if used then s.homed a column (statusResult r) else s.homingFails a unanswered
  | .unhomed | .idle | .running | .holding | .faulted | .outOfService | .parked => s

def State.takeStatusReply (s : State) (a : ArmId) (r : StatusReport) : State :=
  match (s.arm a).outstanding with
  | some (.status _) => s.statusReplied a r
  | some (.leg _ _ _ _) | some (.home _) | none => s.lateReport a

/-- A report of an arm controller is taken; `ticks` counts from the hand-out of the leg outstanding (log 4). -/
def State.takeReport (s : State) (a : ArmId) (r : ArmReport) (ticks : Nat) : State :=
  match r with
  | .legDone r => s.takeLegDone a r ticks
  | .legFault code _ => s.takeLegFault a code
  | .homeDone column => s.takeHomeDone a column
  | .statusReply r => s.takeStatusReply a r

/-! ### Timers (R99, R100, R105, R108); a stopped timer does not expire (log 3) -/

/-- The maximum of the leg outstanding expires. -/
def State.legTimesOut (s : State) (a : ArmId) : State :=
  match (s.arm a).outstanding with
  | some (.leg l volume _ _) => s.legFails a l volume .legTimeout
  | some (.home _) | some (.status _) | none => s

/-- The HOME limit expires. -/
def State.homeTimesOut (s : State) (a : ArmId) : State :=
  match (s.arm a).outstanding with
  | some (.home _) => (s.clearOutstanding a).homingFails a .noReply
  | some (.leg _ _ _ _) | some (.status _) | none => s

/-- The STATUS limit expires. -/
def State.statusTimesOut (s : State) (a : ArmId) : State :=
  match (s.arm a).outstanding with
  | some (.status _) =>
    let s := s.clearOutstanding a
    match (s.arm a).state with
    | .statusWait => s.statusUnanswered a .noReply
    | .homing => s.homingFails a .noReply
    | .unhomed | .idle | .running | .holding | .faulted | .outOfService | .parked => s
  | some (.leg _ _ _ _) | some (.home _) | none => s

/-- The linger timer expires: every lingering zone of the arm is released (R99). -/
def State.lingerEnds (s : State) (a : ArmId) : State :=
  match (s.arm a).linger with
  | some _ => (s.updArm a (fun x => { x with linger := none })).releaseLingering a
  | none => s

end Sys2Proof.Machine
end

