-- ==== Sys2Proof/Machine/Entries.lean ====
section
/-! DEFINITION. The thirteen cursor tables as they read: their sizes and the bytes of each entry, and the accounting record (R200,
sections 11.4 to 11.6). -/

namespace Sys2Proof.Machine

/-- The thirteen tables, in the order of R200. -/
inductive Table where
  | directory
  | slots
  | fences
  | drives
  | requests
  | orders
  | arms
  | prompts
  | templates
  | accounts
  | stations
  | audit
  | settings
deriving DecidableEq, Repr

/-- The tables in order; a table is coded by its place, counted from 1 (section 11.2). -/
def tableAt : Nat → Table
  | 0 => .directory
  | 1 => .slots
  | 2 => .fences
  | 3 => .drives
  | 4 => .requests
  | 5 => .orders
  | 6 => .arms
  | 7 => .prompts
  | 8 => .templates
  | 9 => .accounts
  | 10 => .stations
  | 11 => .audit
  | _ => .settings

/-- The largest size of a table (R200). -/
def Table.largest : Table → Nat
  | .directory | .slots => Config.slots
  | .fences | .stations => 8
  | .drives => 16
  | .requests => Config.maxRequests
  | .orders => 32
  | .arms => 3
  | .prompts => 42
  | .templates => 32
  | .accounts => Config.accounts
  | .audit => 65
  | .settings => 51

/-- The present end of a table (R200). -/
def State.tableEnd (s : State) : Table → Nat
  | .requests => s.ms.queue.length
  | .orders => s.sch.pool.length
  | .prompts => s.pr.list.length + s.pr.owed.length
  | .audit => 1 + s.aud.deferred.length
  | .directory => Table.largest .directory
  | .slots => Table.largest .slots
  | .fences => Table.largest .fences
  | .drives => Table.largest .drives
  | .arms => Table.largest .arms
  | .templates => Table.largest .templates
  | .accounts => Table.largest .accounts
  | .stations => Table.largest .stations
  | .settings => Table.largest .settings

/-- The tables that may be written (R200). -/
def Table.writable : Table → Bool
  | .directory | .fences | .drives | .templates | .accounts | .settings => true
  | .slots | .requests | .orders | .arms | .prompts | .stations | .audit => false

/-! ### Protection of directory entries (R20) -/

/-- The live request whose volume an entry is. -/
def State.requestNaming (s : State) (e : Nat) : Option Half := (s.ms.queue.find? (fun r => r.volume == some e)).map (·.tag)

/-- The order of the pool whose volume an entry is. -/
def State.orderNaming (s : State) (e : Nat) : Option Nat := (s.sch.pool.find? (fun o => o.volume == some e)).map (·.id)

/-- An entry's location protects it (R20). -/
def State.placeProtects (s : State) : Loc → Bool
  | .inArm _ | .inDrive _ => true
  | .atStation p => s.sch.pool.any (·.usesPosition p) || (s.station p).reserved.isSome
  | .home | .outside | .missing | .misplaced _ => false

/-- A directory entry is protected (R20). -/
def State.protected? (s : State) (e : Nat) : Bool :=
  (s.vol? e).any (fun v => s.placeProtects v.loc) || (s.requestNaming e).isSome || (s.orderNaming e).isSome

/-! ### Entries (sections 11.4 and 11.5) -/

/-- The code of a location (R1) and its argument (section 11.4). -/
def Loc.code : Loc → Nat
  | .home => 0
  | .inArm _ => 1
  | .inDrive _ => 2
  | .atStation _ => 3
  | .outside => 4
  | .missing => 5
  | .misplaced _ => 6

def Loc.argument : Loc → Option Nat
  | .inArm a => some (armCode a)
  | .inDrive d => some d.val
  | .atStation p => some p.val
  | .misplaced n => some n
  | .home | .outside | .missing => none

/-- The use of a volume and its pool, absent for PRIVATE. -/
def Use.bytes : Use → List Byte
  | .own => [0, absentByte]
  | .scratch pool => [1, byte pool]

/-- A serial of no entry reads blank. -/
def blankSerial : Text := List.replicate serialLength space

/-- A directory entry in use. -/
def State.volumeBytes (s : State) (e : Nat) (v : Volume) : List Byte :=
  half e ++ [1] ++ v.serial ++ optHalf v.home ++ [byte v.loc.code] ++ optHalf v.loc.argument ++ v.use.bytes ++
    [byte (densityCode v.density), byte v.ring.code] ++ half v.mounts ++ optStamp v.lastMount ++
    [flagsByte [v.lastMount.isSome, v.suspect], byte v.errors, flagByte (s.protected? e)] ++ optTag (s.requestNaming e) ++
    [optId (s.orderNaming e)]

/-- A free directory entry: in use no, its other fields blank (R1). -/
def freeEntryBytes (e : Nat) : List Byte :=
  half e ++ [0] ++ blankSerial ++ optHalf none ++ [0] ++ optHalf none ++ [0, absentByte, 0, 0] ++ half 0 ++ optStamp none ++
    [0, 0, 0, 0, 0, 0]

/-- A slot with its state, entry, reading and serial (R4, section 11.5). -/
def State.slotBytes (s : State) (n : Nat) : List Byte :=
  half n ++
    (match s.slotState n with
     | .free => [0] ++ optHalf none ++ [absentByte] ++ blankSerial
     | .vacant e => [1] ++ half e ++ [absentByte] ++ blankSerial
     | .occupied e => [2] ++ half e ++ [absentByte] ++ blankSerial
     | .foreign (.serial t) => [3] ++ optHalf none ++ [0] ++ t
     | .foreign .unreadable => [3] ++ optHalf none ++ [2] ++ blankSerial)

def fenceBytes (i : Nat) : Option Fence → List Byte
  | some f => [byte i, 1] ++ half f.first ++ half f.last ++
      [flagsByte [f.armBar, f.mountBar, f.scratchBar], flagByte f.enabled]
  | none => [byte i, 0] ++ optHalf none ++ optHalf none ++ [0, 0]

def Densities.marks (d : Densities) : List Bool := [d.d800, d.d1600, d.d6250]

def Edges.marks (e : Edges) : List Bool :=
  [e.loadedRise, e.loadedFall, e.releasedRise, e.releasedFall, e.protectRise, e.protectFall]

def Drive.bytes (x : Drive) (d : Nat) : List Byte :=
  let claim := match x.claim with
    | some c => [flagsByte [true, c.reserved, c.write, c.scratch, c.assisted, c.ringHold]] ++ optTag c.tag ++
        [byte c.account] ++ bytesOfStamp c.stamp ++ optHalf c.manual
    | none => [0] ++ optTag none ++ [absentByte] ++ optStamp none ++ optHalf none
  let session := match x.session with
    | some c => [flagsByte [true, c.write, c.readOnly, c.assisted]] ++ bytesOfStamp c.loadStamp
    | none => [0] ++ optStamp none
  [byte d, flagByte x.installed, byte x.column, flagsByte x.densities.marks, flagByte x.online] ++
    bytesOfStamp x.useSeconds ++ bytesOfStamp x.loadCount ++ [byte x.debounce, flagsByte x.edges.marks, byte x.state.code] ++
    optHalf x.volume ++ [flagsByte [x.sense.loaded, x.sense.released, x.sense.protect]] ++ claim ++ session ++
    [flagsByte [x.labelTimer.isSome, x.loadTimer.isSome, x.releaseTimer.isSome]]

/-- The fields of a request at offsets 3 to 13 of its REQUEST body, the unnamed bits of its flags 0 (R207). -/
def fieldBytesHeld (f : RequestFields) : List Byte :=
  f.serial ++ [f.pool, f.drive, flagsByte [f.flags.getLsbD 0, f.flags.getLsbD 1], f.density, f.priority]

def Request.bytes (r : Request) : List Byte :=
  bytesOfHalf r.tag ++ [byte r.kind.code, byte r.state.code, optByte (r.resume.map ReqState.code)] ++
    fieldBytesHeld r.fields ++ [byte r.account] ++ bytesOfStamp r.arrival ++ [byte r.retries] ++ optHalf r.volume ++
    [optByte (r.claimed.map (·.val)), optId r.order, optId r.prompt, optByte (r.reason.map WaitReason.code),
     optByte (r.pending.map Reply.code), optByte ((r.pending.bind Reply.reason?).map Reason.code)]

/-- A place that may be absent, three bytes. -/
def State.optPlaceBytes (s : State) (p : Option Place) : List Byte :=
  (p.map s.placeBytes).getD [absentByte, absentByte, absentByte]

/-- A leg as kind, column, and level or position; the drive number for a leg at a drive (DEDUCED, log 80). -/
def State.legBytes (s : State) (l : Leg) : List Byte :=
  byte l.code :: (match l.at? with
    | some p => [byte (s.placeColumn p), byte p.argument]
    | none => [absentByte, absentByte])

def State.orderBytes (s : State) (o : Order) : List Byte :=
  [byte o.id, byte o.kind.code, byte o.state.code, optByte (o.bound.map armCode)] ++ s.optPlaceBytes o.source ++
    s.optPlaceBytes o.dest ++ optHalf o.volume ++ optTag o.tag ++
    [flagsByte [o.cut, o.door], byte o.next, byte o.legs.length] ++ o.legs.flatMap s.legBytes

/-- The code of a gripper (section 11.5). -/
def Gripper.code : Gripper → Nat
  | .empty => 0
  | .volume _ => 1
  | .unknown => 2

/-- The target of a yield move. -/
def Move.yieldTarget? : Move → Option Nat
  | .yieldTo c => some c
  | .park => none

def Arm.bytes (x : Arm) : List Byte :=
  let target := x.move.bind Move.yieldTarget?
  [byte x.state.code, byte x.column, byte x.gripper.code] ++ optHalf x.gripper.volume? ++
    [optId x.order, optByte x.leg, byte x.failCount,
     flagsByte [x.leaveMark, x.limitMark, x.linger.isSome, target.isSome], optByte target, x.lastFault.getD absentByte]

/-- The code of a zone's holder: 0 none, 1 A, 2 B. -/
def holderCode : Option Holding → Byte
  | none => 0
  | some h => byte (1 + armCode h.arm)

/-- The zone table with the claim list. A claim's first zone is its lowest (DESIGN CHOICE, log 79). -/
def State.railBytes (s : State) : List Byte :=
  s.sch.zones.toList.map holderCode ++ [byte s.sch.claims.length] ++
    s.sch.claims.flatMap (fun c => [byte (armCode c.arm), byte c.lo, byte c.hi] ++ bytesOfStamp c.stamp)

def SubState.code : SubState → Nat
  | .awaitReply => 0
  | .awaitReel => 1

def Prompt.bytes (p : Prompt) : List Byte :=
  [byte p.number, byte p.kind.code, byte p.kind.severity] ++ optTag p.tag ++ optHalf p.volume ++
    [optByte (p.drive.map (·.val)), optByte (p.arm.map armCode), optByte (p.position.map (·.val)), byte p.template] ++
    bytesOfStamp p.issued ++
    [byte p.level, flagByte p.acked, optByte (p.sub.map SubState.code), flagByte p.lineOwed, 0]

/-- An owed equipment prompt: number 0 and the owed mark (section 11.5). -/
def State.owedBytes (s : State) (e : Equipment) : List Byte :=
  let (kind, names) := s.equipmentNames e
  [0, byte kind.code, byte kind.severity] ++ optTag none ++ optHalf names.volume ++
    [optByte (names.drive.map (·.val)), optByte (names.arm.map armCode), optByte (names.position.map (·.val)), absentByte] ++
    optStamp none ++ [0, 0, absentByte, 0, 1]

def Account.bytes (x : Account) (i : Nat) : List Byte :=
  [byte i, 1] ++ x.code ++ [flagByte x.closed, byte x.limit, byte x.inUse] ++ bytesOfStamp x.mounts ++
    bytesOfStamp x.assisted ++ bytesOfStamp x.scratchIssued ++ bytesOfStamp x.failed ++ bytesOfStamp x.driveSeconds

/-- A free account: in use no, its other fields blank (R161). -/
def freeAccountBytes (i : Nat) : List Byte :=
  [byte i, 0] ++ List.replicate codeLength space ++ List.replicate 23 0

def Station.bytes (x : Station) (p : Nat) : List Byte :=
  [byte p, flagByte x.presence] ++ optHalf x.volume ++ [optId x.reserved] ++ optTag x.awaiting ++
    [flagsByte [x.lifted, x.importOwed]]

def AuditBlock.bytes (b : AuditBlock) : List Byte :=
  [byte b.state.code] ++ optHalf (b.range.map (·.1)) ++ optHalf (b.range.map (·.2)) ++ [flagByte b.deferredPass] ++
    optHalf b.nextSlot ++ [optId b.scan, flagByte b.scanOwed] ++ half b.matched ++ half b.foundMissing ++
    half b.foundForeign ++ half b.foundMisplaced ++ half b.recovered ++ half b.skipped ++ [byte b.outcome.code]

/-- The three bytes of a settings value (section 11.4). A time that a mode does not carry reads 0 (DESIGN CHOICE, log 74). -/
def settingBytes : SettingValue → List Byte
  | .number n => half n ++ [0]
  | .cadence .off => [0, 0, 0]
  | .cadence .steady => [1, 0, 0]
  | .cadence (.oneShot t) => [2, byte t, 0]
  | .cadence (.blink t u) => [3, byte t, byte u]

/-- The entry of a table at an index below its end. -/
def State.entryBytes (s : State) (t : Table) (i : Nat) : List Byte :=
  match t with
  | .directory => match s.vol? i with
    | some v => s.volumeBytes i v
    | none => freeEntryBytes i
  | .slots => s.slotBytes i
  | .fences => fenceBytes i (s.dir.fences[i]?).join
  | .drives => ((s.drv.drives[i]?).map (fun x => x.bytes i)).getD []
  | .requests => ((s.ms.queue[i]?).map Request.bytes).getD []
  | .orders => ((s.sch.pool[i]?).map s.orderBytes).getD []
  | .arms => if i = 0 then s.sch.armA.bytes else if i = 1 then s.sch.armB.bytes else s.railBytes
  | .prompts => match s.pr.list[i]? with
    | some p => p.bytes
    | none => ((s.pr.owed[i - s.pr.list.length]?).map s.owedBytes).getD []
  | .templates => byte i :: byte ((s.pr.templates[i]?).getD []).length :: (s.pr.templates[i]?).getD []
  | .accounts => match s.account? i with
    | some x => x.bytes i
    | none => freeAccountBytes i
  | .stations => ((s.mon.stations[i]?).map (fun x => x.bytes i)).getD []
  | .audit => if i = 0 then s.aud.bytes else ((s.aud.deferred[i - 1]?).map half).getD []
  | .settings => byte i :: ((s.port.settings[i]?).map settingBytes).getD []

/-! ### The accounting record (section 11.6) -/

def AcctRecord.bytes (r : AcctRecord) : List Byte :=
  bytesOfHalf r.seq ++ [byte r.account] ++ r.code ++ r.serial ++ [byte r.drive.val] ++ optTag r.tag ++
    bytesOfStamp r.claimStamp ++ optStamp r.loadStamp ++ optStamp r.releaseStamp ++
    [flagsByte [r.loadStamp.isSome, r.releaseStamp.isSome]] ++ bytesOfStamp r.duration ++ [byte r.outcome.code] ++
    [flagsByte [r.write, r.readOnly, r.assisted, r.scratch]]

end Sys2Proof.Machine
end

