-- ==== Sys2Proof/Machine/TableWrites.lean ====
section
/-! DEFINITION. What the owners of the writable tables check and take: WRITE ENTRY and CLEAR TABLE on DIRECTORY, FENCES, DRIVES,
TEMPLATES, ACCOUNTS and SETTINGS (R17, R20 to R22, R46, R132, R149, R175 to R178, R203). A write whose entry is shorter than its
layout is out of its coding (R208). -/

namespace Sys2Proof.Machine

/-! ### DIRECTORY (R20 to R22) -/

/-- A home slot received: absent when FFFF; none when out of range. -/
def homeOfHalf (h : Half) : Option (Option Nat) :=
  if h = 0xFFFF then some none else if h.toNat < Config.slots then some (some h.toNat) else none

/-- The location a write may give: HOME, OUTSIDE or MISSING. -/
def writtenLoc (b : Byte) : Option Loc :=
  if b = 0 then some .home else if b = 4 then some .outside else if b = 5 then some .missing else none

/-- The use a write gives: PRIVATE, or SCRATCH with a pool of 0 to 7. -/
def writtenUse (use pool : Byte) : Option Use :=
  if use = 0 then some .own else if use = 1 ∧ pool.toNat ≤ 7 then some (.scratch pool.toNat) else none

def writtenRing (b : Byte) : Option Ring :=
  if b = 0 then some .fitted else if b = 1 then some .notFitted else if b = 2 then some .unknown else none

/-- The fields of a directory write that leaves the entry in use. -/
def writtenVolume : List Byte → Option Volume
  | s0 :: s1 :: s2 :: s3 :: s4 :: s5 :: h1 :: h0 :: loc :: _ :: _ :: use :: pool :: dens :: ring :: m1 :: m0 ::
      l3 :: l2 :: l1 :: l0 :: flags :: errors :: _ =>
    match homeOfHalf (halfOfBytes h1 h0), writtenLoc loc, writtenUse use pool, densityOfByte dens, writtenRing ring with
    | some home, some loc, some use, some density, some ring =>
      let serial := [s0, s1, s2, s3, s4, s5]
      if isPaddedName serial = true ∧ errors.toNat ≤ 15 ∧ ¬(loc = .home ∧ home = none) then
        some {
          serial := serial
          home := home
          loc := loc
          use := use
          density := density
          ring := ring
          mounts := (halfOfBytes m1 m0).toNat
          lastMount := if flags.getLsbD 0 then some (stampOfBytes l3 l2 l1 l0) else none
          errors := errors.toNat
          suspect := flags.getLsbD 1 }
      else none
    | _, _, _, _, _ => none
  | _ => none

/-- Whether the home slot of a write is taken: by another entry, or HOME over a finding of another serial (R20). -/
def State.slotTaken (s : State) (e : Nat) (v : Volume) : Bool :=
  match v.home with
  | none => false
  | some h =>
    s.dir.entries.any (fun x => x.1 != e && x.2.home == some h) ||
      (v.loc == .home && (match s.finding? h with
        | some (.serial t) => t != v.serial
        | some .unreadable | none => false))

/-- The station position of an entry records no volume (R21). -/
def State.leaveStation (s : State) (v : Volume) : State :=
  match v.loc with
  | .atStation p => s.clearStationVolume p
  | .home | .inArm _ | .inDrive _ | .outside | .missing | .misplaced _ => s

/-- A write that leaves the entry in use is taken (R21). -/
def State.writeVolume (s : State) (e : Nat) (v : Volume) : State :=
  let s := match s.vol? e with
    | some old => s.leaveStation old
    | none => s
  let s := s.setVol e v
  match v.loc, v.home with
  | .home, some h =>
    (if s.finding? h = some (.serial v.serial) then s.clearFinding h else s).notify .walk
  | _, _ => s

/-- A write that frees an entry is taken: a position that recorded it records no volume, and a reel left in the rack becomes a finding
(R22). -/
def State.freeEntry (s : State) (e : Nat) : State :=
  match s.vol? e with
  | none => s
  | some v =>
    let s := s.mapStations (fun x => if x.volume = some e then { x with volume := none } else x)
    let s := match v.loc, v.home with
      | .home, some h => s.setFinding h (.serial v.serial)
      | _, _ => s
    { s with dir := { s.dir with entries := eraseAt e s.dir.entries } }

/-- A write through the DIRECTORY cursor (R20). -/
def State.writeDirectory (s : State) (e : Nat) (entry : List Byte) : Except Reason State :=
  match entry with
  | _ :: _ :: used :: fields =>
    if fields.length < 27 then .error .badField
    else match yesNo used with
      | none => .error .badField
      | some false => if s.protected? e then .error .inUse else .ok (s.freeEntry e)
      | some true =>
        match writtenVolume fields with
        | none => .error .badField
        | some v =>
          if s.protected? e then .error .inUse
          else if s.dir.entries.any (fun x => x.1 != e && x.2.serial == v.serial) then .error .duplicateSerial
          else if s.slotTaken e v then .error .slotTaken
          else .ok (s.writeVolume e v)
  | _ => .error .badField

/-- CLEAR TABLE on DIRECTORY (R22). -/
def State.clearDirectory (s : State) : Except Reason State :=
  if s.dir.entries.any (fun x => s.protected? x.1) then .error .inUse
  else .ok (s.dir.entries.foldl (fun s x => s.freeEntry x.1) s)

/-! ### FENCES (R17) -/

/-- The fence of a write; none when it is refused. -/
def writtenFence : List Byte → Option (Option Fence)
  | _ :: defined :: f1 :: f0 :: l1 :: l0 :: kinds :: enabled :: _ =>
    match yesNo defined, yesNo enabled with
    | some false, _ => some none
    | some true, some on =>
      let first := (halfOfBytes f1 f0).toNat
      let last := (halfOfBytes l1 l0).toNat
      let fence : Fence := ⟨first, last, kinds.getLsbD 0, kinds.getLsbD 1, kinds.getLsbD 2, on⟩
      if first < Config.slots ∧ last < Config.slots ∧ first ≤ last ∧ (fence.armBar || fence.mountBar || fence.scratchBar) = true
      then some (some fence) else none
    | _, _ => none
  | _ => none

/-- A write through the FENCES cursor, with the fence-changed notice (R17). -/
def State.writeFence (s : State) (i : Nat) (entry : List Byte) : Except Reason State :=
  match writtenFence entry with
  | none => .error .badField
  | some f => .ok ({ s with dir := { s.dir with fences := s.dir.fences.setIfInBounds i f } }.notify .walk)

/-- CLEAR TABLE on FENCES (R17). -/
def State.clearFences (s : State) : State :=
  { s with dir := { s.dir with fences := Vector.replicate 8 none } }.notify .walk

/-! ### DRIVES (R46) -/

/-- The fields of a drive write. -/
structure DriveFields where
  installed : Bool
  column : Nat
  densities : Densities
  online : Bool
  useSeconds : Stamp
  loadCount : Stamp
  debounce : Nat
  edges : Edges
deriving DecidableEq, Repr

/-- The fields of a drive write; none when one is out of range (R46). Of the density bits those that name none are ignored, as R207 has it
for every set (DESIGN CHOICE, log 52). -/
def writtenDrive : List Byte → Option DriveFields
  | _ :: installed :: column :: dens :: online :: u3 :: u2 :: u1 :: u0 :: c3 :: c2 :: c1 :: c0 :: debounce :: edges :: rest =>
    match yesNo installed, yesNo online with
    | some installed, some online =>
      if column.toNat ≤ 31 ∧ dens &&& 7 ≠ 0 ∧ debounce ≠ 0 ∧ 20 ≤ rest.length then
        some ⟨installed, column.toNat, ⟨dens.getLsbD 0, dens.getLsbD 1, dens.getLsbD 2⟩, online, stampOfBytes u3 u2 u1 u0,
          stampOfBytes c3 c2 c1 c0, debounce.toNat,
          ⟨edges.getLsbD 0, edges.getLsbD 1, edges.getLsbD 2, edges.getLsbD 3, edges.getLsbD 4, edges.getLsbD 5⟩⟩
      else none
    | _, _ => none
  | _ => none

/-- A drive whose table fields may change: EMPTY or OFFLINE (R46). -/
def Drive.atRest (x : Drive) : Bool := x.state == .empty || x.state == .offline

/-- A taken drive write, with its installed and online effects and the drive-brought-online notice (R26, R45, R46). Of a write
that changes both, installed acts first (DESIGN CHOICE, log 75). -/
def State.takeDriveWrite (s : State) (d : Fin 16) (w : DriveFields) : State :=
  let x := s.drive d
  let s := s.updDrive d (fun x => { x with
    column := w.column, densities := w.densities, useSeconds := w.useSeconds, loadCount := w.loadCount,
    debounce := w.debounce, edges := w.edges })
  let s := s.setInstalled d w.installed
  let s := if x.online = w.online then s else if w.online then s.serviceOnline d else s.serviceOffline d
  if x.atRest && !(x.installed && x.online) && (s.drive d).claimable then s.notify .walk else s

/-- A write through the DRIVES cursor (R46). -/
def State.writeDrive (s : State) (d : Fin 16) (entry : List Byte) : Except Reason State :=
  match writtenDrive entry with
  | none => .error .badField
  | some w =>
    let x := s.drive d
    let same := x.installed == w.installed && x.column == w.column && x.densities == w.densities
    if !same && !x.atRest then .error .inUse else .ok (s.takeDriveWrite d w)

/-- CLEAR TABLE on DRIVES: the power-on values over the raw levels that stand (R23, R46). -/
def State.clearDrives (s : State) : Except Reason State :=
  if allDrives.any (fun d => !(s.drive d).atRest) then .error .inUse
  else
    let s := allDrives.foldl State.clearDriveVolume s
    .ok { s with drv := ⟨mapVec (fun x => Drive.powerOn x.raw) s.drv.drives⟩ }

/-! ### TEMPLATES (R132) -/

/-- A printable 7-bit character. -/
def printable (b : Byte) : Bool := 0x20 ≤ b.toNat && b.toNat ≤ 0x7E

/-- A write through the TEMPLATES cursor (R132). -/
def State.writeTemplate (s : State) (i : Nat) (entry : List Byte) : Except Reason State :=
  match entry with
  | _ :: length :: text =>
    let text' := text.take length.toNat
    if 64 < length.toNat ∨ text.length < length.toNat ∨ text'.all printable = false then .error .badField
    else .ok { s with pr := { s.pr with templates := s.pr.templates.setIfInBounds i text' } }
  | _ => .error .badField

def State.clearTemplates (s : State) : State := { s with pr := { s.pr with templates := Vector.replicate 32 [] } }

/-! ### ACCOUNTS (R175 to R178) -/

/-- The fields of an account write. -/
structure AccountFields where
  code : Text
  closed : Bool
  limit : Nat
deriving DecidableEq, Repr

/-- The fields of an account write at an index; entry 0 keeps its code (R175). -/
def writtenAccount (i : Nat) (fields : List Byte) : Option AccountFields :=
  match fields.take 8, fields.drop 8 with
  | code, state :: limit :: _ =>
    match yesNo state with
    | some closed =>
      if isPaddedName code = true ∧ limit.toNat ≤ 16 ∧ (i = 0 → code = defaultCode) then some ⟨code, closed, limit.toNat⟩
      else none
    | none => none
  | _, _ => none

/-- A live request is charged to an account (R175). -/
def State.charged (s : State) (i : Nat) : Bool := s.ms.queue.any (fun r => r.account == i)

/-- An account that may not be freed or renamed: drives in use, or a live request charged to it (R175). -/
def State.accountHeld (s : State) (i : Nat) : Bool := (s.account? i).any (fun a => 0 < a.inUse) || s.charged i

/-- A taken write that leaves an account in use (R176, R177). -/
def State.takeAccountWrite (s : State) (i : Nat) (w : AccountFields) : State :=
  match s.account? i with
  | some a =>
    let a := { a with code := w.code, closed := w.closed, limit := w.limit }
    s.setAccount i (if (s.account? i).any (fun old => old.code != w.code) then a.cleared else a)
  | none => s.setAccount i ⟨w.code, w.closed, w.limit, 0, 0, 0, 0, 0, 0⟩

/-- A write through the ACCOUNTS cursor (R175). -/
def State.writeAccount (s : State) (i : Nat) (entry : List Byte) : Except Reason State :=
  match entry with
  | _ :: used :: fields =>
    if fields.length < 31 then .error .badField
    else match yesNo used with
      | none => .error .badField
      | some false =>
        if i = 0 then .error .badField
        else if (s.account? i).isSome ∧ s.accountHeld i = true then .error .inUse
        else .ok { s with acc := { s.acc with accounts := eraseAt i s.acc.accounts } }
      | some true =>
        match writtenAccount i fields with
        | none => .error .badField
        | some w =>
          let renamed := (s.account? i).any (fun a => a.code != w.code)
          if renamed && s.accountHeld i then .error .inUse
          else if s.acc.accounts.any (fun x => x.1 != i && x.2.code == w.code) then .error .duplicateCode
          else .ok (s.takeAccountWrite i w)
  | _ => .error .badField

/-- CLEAR TABLE on ACCOUNTS (R178). -/
def State.clearAccounts (s : State) : Except Reason State :=
  if s.acc.accounts.any (fun x => s.accountHeld x.1) then .error .inUse
  else .ok { s with acc := { s.acc with accounts := [(0, Account.default)] } }

/-! ### SETTINGS (R149, R203) -/

/-- The range of a number item (section 11.9). -/
def settingRange (i : Nat) : Nat × Nat :=
  if i = 0 ∨ i = 6 then (1, 15)
  else if i = 1 then (0, 3)
  else if i ≤ 5 then (0, 65535)
  else if i = 7 then (5, 120)
  else if i = 8 then (5, 300)
  else if i = 9 then (10, 600)
  else if i = 10 then (5, 255)
  else if i = 11 then (0, 50)
  else if i = 12 then (1, 255)
  else if i = 13 then (1, 50)
  else if i = 14 ∨ i = 16 ∨ i = 18 then (0, 255)
  else if i = 15 ∨ i = 17 ∨ i = 19 then (1, 255)
  else if i = 20 then (10, 255)
  else if i = 21 then (1, 30)
  else if i = 22 then (0, 16)
  else if i ≤ 25 then (1, 60)
  else if i = 34 then (128, 255)
  else if i ≤ 40 then (0, 1)
  else if i = 41 then (10, 255)
  else (0, 31)

/-- A number within an item's named values and its window's other bound (R203). -/
def State.numberFits (s : State) (i n : Nat) : Bool :=
  (settingRange i).1 ≤ n && n ≤ (settingRange i).2 &&
    (i != 22 || n == 0 || n == 4 || n == 8 || n == 16) &&
    (!(i == 14 || i == 16 || i == 18) || n ≤ s.setting (i + 1)) &&
    (!(i == 15 || i == 17 || i == 19) || s.setting (i - 1) ≤ n)

/-- The cadence of a write; none for an unknown mode or a time of 0 that its mode carries (R149). -/
def writtenCadence (mode on off : Byte) : Option Cadence :=
  if mode = 0 then some .off
  else if mode = 1 then some .steady
  else if mode = 2 then (if on = 0 then none else some (.oneShot on.toNat))
  else if mode = 3 then (if on = 0 ∨ off = 0 then none else some (.blink on.toNat off.toNat))
  else none

/-- The items of the cadence table. -/
def isCadenceItem (i : Nat) : Bool := 26 ≤ i && i ≤ 33

/-- The value of a settings write at an item; none when it is refused (R203). -/
def State.writtenSetting (s : State) (i : Nat) : List Byte → Option SettingValue
  | _ :: b0 :: b1 :: b2 :: _ =>
    if isCadenceItem i then (writtenCadence b0 b1 b2).map .cadence
    else if b2 = 0 ∧ s.numberFits i (halfOfBytes b0 b1).toNat = true then some (.number (halfOfBytes b0 b1).toNat)
    else none
  | _ => none

/-- A cadence item written at a unit's governing level starts a unit that has no phase to end (R149). -/
def State.cadenceWritten (s : State) (i : Nat) (o : Output) : State :=
  if (s.attnUnit o).level.any (fun level => cadenceIndex o level == i) then s.restartIdleUnit o else s

/-- An item takes a value (R203, R204). -/
def State.takeSetting (s : State) (i : Nat) (v : SettingValue) : State :=
  let s := { s with port := { s.port with settings := s.port.settings.setIfInBounds i v } }
  (s.cadenceWritten i .lamp).cadenceWritten i .horn

/-- A write through the SETTINGS cursor (R203). -/
def State.writeSetting (s : State) (i : Nat) (entry : List Byte) : Except Reason State :=
  match s.writtenSetting i entry with
  | none => .error .badField
  | some v => .ok (s.takeSetting i v)

/-- CLEAR TABLE on SETTINGS (R203). -/
def State.clearSettings (s : State) : State :=
  ({ s with port := { s.port with settings := defaultSettings } }.restartIdleUnit .lamp).restartIdleUnit .horn

/-! ### By table -/

/-- The owner of a writable table checks an entry and takes it, or refuses it. -/
def State.ownerWrite (s : State) (t : Table) (i : Nat) (entry : List Byte) : Except Reason State :=
  match t with
  | .directory => s.writeDirectory i entry
  | .fences => s.writeFence i entry
  | .drives => if h : i < 16 then s.writeDrive ⟨i, h⟩ entry else .error .endOfTable
  | .templates => s.writeTemplate i entry
  | .accounts => s.writeAccount i entry
  | .settings => s.writeSetting i entry
  | .slots | .requests | .orders | .arms | .prompts | .stations | .audit => .error .readOnly

/-- The owner of a writable table clears it, or refuses to. -/
def State.ownerClear (s : State) (t : Table) : Except Reason State :=
  match t with
  | .directory => s.clearDirectory
  | .fences => .ok s.clearFences
  | .drives => s.clearDrives
  | .templates => .ok s.clearTemplates
  | .accounts => s.clearAccounts
  | .settings => .ok s.clearSettings
  | .slots | .requests | .orders | .arms | .prompts | .stations | .audit => .error .readOnly

/-- The tables whose writes concern other blocks: what they cause is passed on. -/
def Table.tells : Table → Bool
  | .directory | .fences | .drives => true
  | .slots | .requests | .orders | .arms | .prompts | .templates | .accounts | .stations | .audit | .settings => false

end Sys2Proof.Machine
end

