-- ==== Sys2Proof/Machine/Port.lean ====
section
/-! DEFINITION. The System Port: the table cursors, the CONTROL commands, LINK RESET, the transmitter, and how a step ends (chapter 10,
R147, R190). -/

namespace Sys2Proof.Machine

/-! ### Cursors (R200 to R202) -/

def State.cursor (s : State) (t : Fin 13) : Cursor := s.port.cursors[t]

def State.setCursor (s : State) (t : Fin 13) (c : Cursor) : State :=
  { s with port := { s.port with cursors := s.port.cursors.set t c } }

/-- The table a code names: 1 DIRECTORY to 13 SETTINGS (section 11.2). -/
def tableOfByte (b : Byte) : Option (Fin 13) :=
  if h : 1 ≤ b.toNat ∧ b.toNat ≤ 13 then some ⟨b.toNat - 1, by omega⟩ else none

/-- SELECT (R200). -/
def State.select (s : State) (table : Byte) (index : Half) (wrap : Byte) : State × Result :=
  match tableOfByte table, yesNo wrap with
  | some t, some w =>
    if index.toNat < (tableAt t).largest then
      let s := s.setCursor t ⟨index.toNat, w⟩
      ({ s with port := { s.port with current := some t } }, .done (half (s.tableEnd (tableAt t))))
    else (s, .refused .badField)
  | _, _ => (s, .refused .badField)

/-- What a read gives from a cursor: the first index, the indexes, and where the cursor then stands (R201). With no entry given, the first index is
where the read started: the cursor's, or 0 with the wrap flag (DESIGN CHOICE, log 73). -/
def readPlan (c : Cursor) (last n : Nat) : Nat × List Nat × Nat :=
  if c.wrap then
    let start := if c.index < last then c.index else 0
    let count := min n last
    (start, (List.range count).map (fun k => (start + k) % last), if last = 0 then 0 else (start + count) % last)
  else
    let count := min n (last - c.index)
    (c.index, (List.range count).map (· + c.index), c.index + count)

/-- READ ENTRIES (R201): with no current table NOT_SELECTED, whatever the count (DEDUCED, log 72). -/
def State.readEntries (s : State) (n : Byte) : State × Result :=
  match s.port.current with
  | none => (s, .refused .notSelected)
  | some t =>
    if n.toNat < 1 ∨ 8 < n.toNat then (s, .refused .badField)
    else
      let table := tableAt t
      let c := s.cursor t
      let plan := readPlan c (s.tableEnd table) n.toNat
      (s.setCursor t ⟨plan.2.2, c.wrap⟩,
        .done (half plan.1 ++ [byte plan.2.1.length] ++ plan.2.1.flatMap (s.entryBytes table)))

/-- The index after an entry written, by the wrap flag (R202). -/
def nextIndex (i last : Nat) (wrap : Bool) : Nat := if i + 1 < last then i + 1 else if wrap then 0 else last

/-- A change of a table's owner, with what it causes in the other blocks where the table tells them. -/
def State.passOn (s t : State) (tells : Bool) : State := if tells then s.act (fun _ => t) else t

/-- WRITE ENTRY (R202). -/
def State.writeEntry (s : State) (entry : List Byte) : State × Result :=
  match s.port.current with
  | none => (s, .refused .notSelected)
  | some t =>
    let table := tableAt t
    let c := s.cursor t
    if !table.writable then (s, .refused .readOnly)
    else if table.largest ≤ c.index then (s, .refused .endOfTable)
    else match s.ownerWrite table c.index entry with
      | .error r => (s, .refused r)
      | .ok w =>
        let next : Cursor := ⟨nextIndex c.index table.largest c.wrap, c.wrap⟩
        ((s.setCursor t next).passOn (w.setCursor t next) table.tells, .done [])

/-- CLEAR TABLE (R202). -/
def State.clearTable (s : State) : State × Result :=
  match s.port.current with
  | none => (s, .refused .notSelected)
  | some t =>
    let table := tableAt t
    if !table.writable then (s, .refused .readOnly)
    else match s.ownerClear table with
      | .error r => (s, .refused r)
      | .ok w =>
        let next : Cursor := ⟨0, (s.cursor t).wrap⟩
        ((s.setCursor t next).passOn (w.setCursor t next) table.tells, .done [])

/-! ### The commands of the other owners -/

/-- The service state as a response carries it. -/
def State.serviceByte (s : State) : Byte := byte s.service.code

/-- START (R181). -/
def State.commandStart (s : State) : State × Result :=
  if s.service = .starting then
    let t := s.act State.startLibrary
    (t, .done [t.serviceByte])
  else (s, .refused .wrongState)

/-- QUIESCE as the Service Controller takes it, from the system or the panel; none where it is refused (R184). -/
def State.takeQuiesce (s : State) : Option State :=
  match s.service with
  | .active | .homing | .resuming => some (s.act State.enterQuiescing)
  | .quiescing | .quiesced => some s
  | .starting | .interrupted => none

/-- RESUME as the Service Controller takes it; none where it is refused (R187). -/
def State.takeResume (s : State) : Option State := (s.resumeLibrary).map (fun t => s.act (fun _ => t))

/-- A taken command answers DONE with the service state, one not taken WRONG_STATE (R199). -/
def State.serviceResult (s : State) (t : Option State) : State × Result :=
  match t with
  | some t => (t, .done [t.serviceByte])
  | none => (s, .refused .wrongState)

/-- AUDIT (R116). -/
def State.commandAudit (s : State) (first last : Half) : State × Result :=
  if ¬(first.toNat ≤ last.toNat ∧ last.toNat < Config.slots) then (s, .refused .badField)
  else if s.service ≠ .active then (s, .refused .wrongState)
  else if s.aud.state ≠ .idle then (s, .refused .busy)
  else (s.act (fun s => s.beginAudit first.toNat last.toNat), .done [])

/-- SET CLOCK (R205). -/
def State.setClock (s : State) (value : Stamp) : State := { s with port := { s.port with clock := value } }

/-- The three figures of the record queue: held, reserved, next sequence number (R171). -/
def State.recordFigures (s : State) : List Byte :=
  half s.acc.records.length ++ half s.acc.reserved ++ bytesOfHalf s.acc.nextSeq

/-- READ RECORDS (R171). -/
def State.readRecords (s : State) (n : Byte) : Result :=
  if 1 ≤ n.toNat ∧ n.toNat ≤ 16 then
    let given := s.acc.records.take n.toNat
    .done (s.recordFigures ++ [byte given.length] ++ given.flatMap AcctRecord.bytes)
  else .refused .badField

/-- The oldest records leave the queue (R172). -/
def State.dropRecords (s : State) (n : Nat) : State := { s with acc := { s.acc with records := s.acc.records.drop n } }

/-- RELEASE RECORDS (R172). -/
def State.releaseRecords (s : State) (n : Half) : State × Result :=
  if 1 ≤ n.toNat ∧ n.toNat ≤ 256 then
    let removed := min n.toNat s.acc.records.length
    let t := s.dropRecords n.toNat
    let answer := .done (half removed ++ t.recordFigures)
    (if removed = 0 then t else s.act (fun s => (s.dropRecords n.toNat).notify .walk), answer)
  else (s, .refused .badField)

/-- RESET COUNTERS (R174). -/
def State.resetCounters (s : State) (index : Byte) : State × Result :=
  if index = absentByte then
    ({ s with acc := { s.acc with accounts := s.acc.accounts.map (fun x => (x.1, x.2.cleared)) } }, .done [])
  else if Config.accounts ≤ index.toNat then (s, .refused .badField)
  else match s.account? index.toNat with
    | none => (s, .refused .notFound)
    | some _ => (s.updAccount index.toNat Account.cleared, .done [])

/-- ARM SERVICE (R109). -/
def State.commandArmService (s : State) (arm out : Byte) : State × Result :=
  match armOfByte arm, yesNo out with
  | some a, some true => (s.act (fun s => s.armOut a), .done [])
  | some a, some false => (s.act (fun s => s.armIn a), .done [])
  | _, _ => (s, .refused .badField)

/-- DRIVE SERVICE (R45). -/
def State.commandDriveService (s : State) (drive out : Byte) : State × Result :=
  match driveOfByte drive, yesNo out with
  | some d, some true => (s.act (fun s => s.serviceOffline d), .done [])
  | some d, some false => (s.act (fun s => s.serviceOnline d), .done [])
  | _, _ => (s, .refused .badField)

/-! ### Answers (R191, R194) -/

/-- The data one part of a response carries (section 11.2). -/
def partSize : Nat := 234

/-- Data cut into parts. -/
def parts : Nat → List Byte → List (List Byte)
  | 0, data => [data]
  | n + 1, data => if data.length ≤ partSize then [data] else data.take partSize :: parts n (data.drop partSize)

/-- The messages of a response, its parts numbered from 0 with the last marked (R191). -/
def responseOf (code : Byte) (r : Result) (reset : Bool) : List OutMsg :=
  match r with
  | .done data =>
    let ps := parts data.length data
    ps.zipIdx.map (fun x => .response x.2 (x.2 + 1 == ps.length) 0 code x.1 reset)
  | .refused reason => [.response 0 true 1 code [byte reason.code] reset]
  | .unknown => [.response 0 true 2 code [] reset]

/-- A taking with a result, answered by a response. -/
def respond (code : Byte) (x : State × Result) : State × List OutMsg := (x.1, responseOf code x.2 false)

/-! ### LINK RESET (R147, R190, R206) -/

/-- The service state after LINK RESET (R190). -/
def stateAfterReset : SvcState → SvcState
  | .starting => .starting
  | .quiesced => .quiesced
  | .interrupted => .interrupted
  | .homing | .active | .quiescing | .resuming => .homing

/-- The arms are homed by LINK RESET (R113, R190). -/
def resetHomes (svc : SvcState) : Bool :=
  match svc with
  | .starting | .quiesced | .interrupted => false
  | .homing | .active | .quiescing | .resuming => true

/-- LINK RESET is taken: its DONE carries the state of R190, and no frame is taken until the reset has taken hold (R206). -/
def State.takeLinkReset (s : State) : State × List OutMsg :=
  ({ s with port := { s.port with resetting := true } }, responseOf 8 (.done [byte (stateAfterReset s.service).code]) true)

/-- The port at the reset: receiver, buffer, answers and final replies dropped, plain flags and the notice-owed mark cleared (R206). -/
def State.resetPort (s : State) : State :=
  let s := { s with port := { s.port with
    rx := .hunting, buffer := [], immediate := [], replyOwed := [], resetting := false } }
  let s := s.clearEvents plainPositions
  { s with port := { s.port with noticeOwed := false } }

/-- The equipment prompts that present conditions ask for, in the order of R147. -/
def State.derivedEquipment (s : State) : List Equipment :=
  (allDrives.filter (fun d => (s.drive d).state == .check)).map .driveCheck ++
    (allArms.filter (fun a => (s.arm a).state == .outOfService && !(s.arm a).leaveMark)).map .armOut ++
    (allPositions.filter (fun p => (s.station p).presence && (s.station p).volume.isNone && (s.station p).reserved.isNone)).map
      .stationUnknown

/-- LINK RESET at the Prompt Unit and the Attention Generator (R147, R148). -/
def State.resetPrompts (s : State) : State :=
  let s := { s with
    pr := { s.pr with list := [], owed := [], answers := [], withdrawals := [], allWithdrawn := true }
    att := ⟨AttnUnit.powerOn, AttnUnit.powerOn⟩ }
  (s.derivedEquipment.foldl State.askEquipment s).attend none

/-- The service state at LINK RESET; SERVICE is raised when it changes (R190). -/
def State.resetService (s : State) : State :=
  let st := stateAfterReset s.service
  let s := if st = s.service then s else s.enterService st
  s.clearHomingOwed

/-- The blocks at LINK RESET, each by its own rule (R47, R48, R113, R124, R147, R153, R190). -/
def State.resetBlocks (s : State) : State :=
  let homes := resetHomes s.service
  let s := { s with ms := ⟨[]⟩, pr := { s.pr with list := [] } }
  let s := (s.resetDrives.resetAudit).resetService
  let s := ((s.resetScheduler homes).resetStations).resetPrompts
  s.notify .recovers

/-- The reset takes hold, at the port and then in the blocks; a notice is owed when the summary is not empty once the blocks have acted (R206). -/
def State.performReset (s : State) : State :=
  let s := (s.resetPort.act State.resetBlocks).refreshConditions
  { s with port := { s.port with noticeOwed := s.summary != 0 } }

/-! ### Taking frames (R194) -/

/-- A frame is handed to its owner, which answers it in the same taking (R194, R199). -/
def State.takeFrame (s : State) : SysFrame → State × List OutMsg
  | .request k f => s.takeRequest k f
  | .cancel tag => s.takeCancel tag
  | .label drive serial => (s.labelFrame drive serial, [])
  | .labelShort => (s, [])
  | .requestShort tag => (s, replyNow tag (.refused .badField))
  | .requestUnknown tag => s.takeUnknownKind tag
  | .select table index wrap => respond 1 (s.select table index wrap)
  | .readEntries n => respond 2 (s.readEntries n)
  | .writeEntry entry => respond 3 (s.writeEntry entry)
  | .clearTable => respond 4 s.clearTable
  | .start => respond 5 s.commandStart
  | .quiesce => respond 6 (s.serviceResult s.takeQuiesce)
  | .resume => respond 7 (s.serviceResult s.takeResume)
  | .linkReset => s.takeLinkReset
  | .audit first last => respond 9 (s.commandAudit first last)
  | .setClock value => respond 10 (s.setClock value, .done (bytesOfStamp value))
  | .readClock => respond 11 (s, .done (bytesOfStamp s.clock))
  | .eventMask mask => respond 12 (s.setMask mask, .done (bytesOfHalf (s.setMask mask).port.mask))
  | .eventClear events =>
    respond 13 (s.clearEvents events, .done (bytesOfHalf ((s.clearEvents events).port.flags &&& events)))
  | .readEvents => respond 14 (s, .done (bytesOfHalf s.port.flags ++ bytesOfHalf s.port.mask ++ [s.serviceByte]))
  | .readRecords n => respond 15 (s, s.readRecords n)
  | .releaseRecords n => respond 16 (s.releaseRecords n)
  | .resetCounters index => respond 17 (s.resetCounters index)
  | .armService arm out => respond 18 (s.commandArmService arm out)
  | .driveService drive out => respond 19 (s.commandDriveService drive out)
  | .controlShort code => respond code (s, .refused .badField)
  | .unknown echo => respond echo (s, .unknown)

/-- A whole frame joins the buffer, or is discarded as an overrun (R193). -/
def State.deliver (s : State) (f : SysFrame) : State :=
  if s.port.buffer.length < Config.maxBuffer then { s with port := { s.port with buffer := s.port.buffer ++ [f] } }
  else s.raise .linkError

/-- The oldest frame in the buffer may be taken: no immediate answer waits, and no reset is on its way (R194, R206). -/
def State.mayTake (s : State) : Bool := s.port.immediate.isEmpty && !s.port.resetting && !s.port.buffer.isEmpty

/-- The oldest frame in the buffer is taken, and its answer waits for the line (R194). -/
def State.takeNext (s : State) : State :=
  match s.port.buffer with
  | [] => s
  | f :: rest =>
    let x := { s with port := { s.port with buffer := rest } }.takeFrame f
    let t := x.1.refreshConditions
    { t with port := { t.port with immediate := t.port.immediate ++ x.2 } }

/-! ### The transmitter (R195, R197) -/

/-- A message is handed to the line with the summary as it stands; one that is not empty clears the notice-owed mark (R195, R197). -/
def State.handOut (s : State) (m : OutMsg) : State :=
  { s with port := { s.port with
    sending := some ⟨m, s.summary⟩
    noticeOwed := if s.summary = 0 then s.port.noticeOwed else false } }

/-- A request leaves the queue at the hand-out of its final reply, and the claim it kept loses its tag (R48, R56). -/
def State.leaveQueue (s : State) (tag : Half) : State :=
  { s with
    ms := ⟨s.ms.queue.filter (fun r => r.tag != tag)⟩
    drv := ⟨mapVec (fun x => { x with claim := x.claim.map (fun c => if c.tag = some tag then { c with tag := none } else c) })
      s.drv.drives⟩ }

/-- The free line takes the first of an immediate answer, a final reply and the NOTICE; none when nothing waits (R195). -/
def State.nextOut (s : State) : Option State :=
  match s.port.sending, s.port.immediate, s.port.replyOwed with
  | some _, _, _ => none
  | none, m :: rest, _ => some ({ s with port := { s.port with immediate := rest } }.handOut m)
  | none, [], (tag, r) :: rest =>
    some (({ s with port := { s.port with replyOwed := rest } }.leaveQueue tag).handOut (.reply tag r true))
  | none, [], [] => if s.port.noticeOwed then some (s.handOut .notice) else none

/-- The port works: the line is filled and frames are taken as long as it can go on (R194, R195). -/
def State.pump : Nat → State → State
  | 0, s => s
  | n + 1, s =>
    match s.nextOut with
    | some t => State.pump n t
    | none => if s.mayTake then State.pump n s.takeNext else s

/-- More rounds than a full buffer and a free line give. -/
def pumpRounds : Nat := 12

/-- The end of every step: the condition-bound flags follow, the port and the panel line go on (R135, R194 to R196). -/
def State.finishStep (s : State) : State := ((State.pump pumpRounds s.refreshConditions).panelPump).refreshConditions

/-- The frame being sent has been sent to its end; the end of the LINK RESET response lets the reset take hold (R195, R206). -/
def State.frameSent (s : State) : State :=
  match s.port.sending with
  | none => s
  | some f =>
    let s := { s with port := { s.port with sending := none } }
    match f.msg with
    | .response _ true _ _ _ true => s.performReset
    | _ => s

/-- The response of LINK RESET is being sent. -/
def State.resetAwaited (s : State) : Bool :=
  match s.port.sending with
  | some ⟨.response _ true _ _ _ true, _⟩ => true
  | _ => false

/-! ### Bytes received (R192, R193) -/

/-- A receiver of a port. -/
def State.rx (s : State) : PortId → Rx
  | .system => s.port.rx
  | .arm a => (s.armPort a).rx

def State.setRx (s : State) (p : PortId) (rx : Rx) : State :=
  match p with
  | .system => { s with port := { s.port with rx := rx } }
  | .arm a => s.setArmPort a { s.armPort a with rx := rx }

/-- What a receiver brings about is taken: a discard raises LINK_ERROR, a whole frame goes to the buffer, where the port works on it, or
to the Arm Scheduler (R192, R193). -/
def State.takeReceived (s : State) (p : PortId) (ticks : Nat) (r : Received) : State :=
  match p, r with
  | _, .discard => s.raise .linkError
  | .system, .frame cls body => State.pump pumpRounds (s.deliver (parseFrame cls body))
  | .arm a, .frame cls body =>
    match parseReport cls body with
    | some rep => (s.act (fun s => s.takeReport a rep ticks)).refreshConditions
    | none => s.raise .linkError

/-- A receiver's new state and what it brings about. -/
def State.received (s : State) (p : PortId) (ticks : Nat) (x : Rx × List Received) : State :=
  x.2.foldl (fun s r => s.takeReceived p ticks r) (s.setRx p x.1)

end Sys2Proof.Machine
end

