-- ==== Sys2Proof/Machine/Panel.lean ====
section
/-! DEFINITION. The operator panel: typed characters, the forms of a line, ACK, LIST, the replies to prompts and what each does, and the
escalation timer (R137 to R146). -/

namespace Sys2Proof.Machine

/-! ### A line (R137, R138) -/

/-- A lower-case letter is held as the upper-case letter. -/
def upperCase (b : Byte) : Byte := if 0x61 ≤ b.toNat ∧ b.toNat ≤ 0x7A then b - 0x20 else b

/-- A line has ended: the held line is emptied and its mark cleared; while 4 answers wait the line is discarded (R137). -/
def State.lineEnded (s : State) (f : State → State) : State :=
  let s := { s with pr := { s.pr with held := [], tooLong := false } }
  if Config.maxAnswers ≤ s.pr.answers.length then s else f s

/-- The words of a line, split at spaces (R138). -/
def splitWords : Text → Text → List Text
  | [], [] => []
  | word, [] => [word]
  | [], c :: rest => if c = space then splitWords [] rest else splitWords [c] rest
  | word, c :: rest => if c = space then word :: splitWords [] rest else splitWords (word ++ [c]) rest

def isDigit (b : Byte) : Bool := 0x30 ≤ b.toNat && b.toNat ≤ 0x39

/-- A word of digits alone. -/
def allDigits (w : Text) : Bool := !w.isEmpty && w.all isDigit

/-- The number a word of digits gives, leading zeros allowed. -/
def numberOf (w : Text) : Nat := w.foldl (fun n b => 10 * n + (b.toNat - 0x30)) 0

def wordAck : Text := ascii ['A', 'C', 'K']
def wordAll : Text := ascii ['A', 'L', 'L']
def wordList : Text := ascii ['L', 'I', 'S', 'T']
def wordQuiesce : Text := ascii ['Q', 'U', 'I', 'E', 'S', 'C', 'E']
def wordResume : Text := ascii ['R', 'E', 'S', 'U', 'M', 'E']

/-- The reply words (R126). -/
def ReplyWord.text : ReplyWord → Text
  | .done => ascii ['D', 'O', 'N', 'E']
  | .cancel => ascii ['C', 'A', 'N', 'C', 'E', 'L']
  | .fit => ascii ['F', 'I', 'T']
  | .readonly => ascii ['R', 'E', 'A', 'D', 'O', 'N', 'L', 'Y']
  | .accept => ascii ['A', 'C', 'C', 'E', 'P', 'T']
  | .reject => ascii ['R', 'E', 'J', 'E', 'C', 'T']
  | .proceed => ascii ['P', 'R', 'O', 'C', 'E', 'E', 'D']
  | .found => ascii ['F', 'O', 'U', 'N', 'D']
  | .offline => ascii ['O', 'F', 'F', 'L', 'I', 'N', 'E']
  | .keep => ascii ['K', 'E', 'E', 'P']

/-- The reply a word spells. -/
def replyWord (w : Text) : Option ReplyWord :=
  [ReplyWord.done, .cancel, .fit, .readonly, .accept, .reject, .proceed, .found, .offline, .keep].find? (fun r => r.text == w)

/-! ### ACK, LIST and the service words (R139, R140) -/

/-- ACK n (R139). -/
def State.lineAck (s : State) (n : Nat) : State :=
  match s.prompt? n with
  | some _ => (s.ackPrompt n).answer .accepted
  | none => s.answer .noSuchPrompt

/-- ACK ALL (R139). -/
def State.lineAckAll (s : State) : State := s.ackAllPrompts.answer .accepted

/-- LIST (R140). -/
def State.lineList (s : State) : State := s.listPrompts.answer .accepted

/-- A service word: ACCEPTED when the command is taken, REPLY NOT VALID when it is refused (R140). -/
def State.lineService (s : State) (t : Option State) : State :=
  match t with
  | some t => t.answer .accepted
  | none => s.answer .replyNotValid

/-! ### Replies (R141, R144 to R146) -/

/-- What an accepted reply to a request-related prompt does at Mount Service (R144, R145). -/
def State.requestReply (s : State) (p : Prompt) (r : Request) (w : ReplyWord) : State :=
  match p.kind, w with
  | .manualMount, .done => s.manualMountDone r
  | .manualMount, _ => s.manualMountCancel r
  | .ringNeeded, .fit => s.ringFit r p.number
  | .ringNeeded, .readonly => s.ringReadonly r
  | .ringNeeded, _ => s.ringCancel r
  | .labelMismatch, .accept => s.labelAccept r
  | .labelMismatch, _ => s.labelReject r
  | .volumeSuspect, .proceed => s.suspectProceed r p.volume
  | .volumeSuspect, _ => s.finish r.tag (.failed .operatorCancel)
  | .volumeLost, .found => s.lostFound r.tag
  | .volumeLost, _ => s.finish r.tag (.failed .volumeLost)
  | .scratchEmpty, .done => s.scratchDone r.tag
  | .scratchEmpty, _ => s.finish r.tag (.failed .noScratch)
  | .stationUnknown, _ | .driveCheck, _ | .armOut, _ => s

/-- What an accepted reply to an equipment prompt does at its owner; STATION_UNKNOWN DONE has its position tested as the prompt leaves
the list (R146, R156). -/
def State.equipmentReply (s : State) (p : Prompt) (w : ReplyWord) : State :=
  match p.kind, p.drive, p.arm, w with
  | .driveCheck, some d, _, .done => s.recheck d false
  | .driveCheck, some d, _, .offline => s.recheck d true
  | .armOut, _, some a, .done => s.armIn a
  | _, _, _, _ => s

/-- The request a prompt names. -/
def State.promptedRequest (s : State) (p : Prompt) : Option Request := p.tag.bind s.request?

/-- An accepted reply is acted on: the assisted marks, the list, the owner (R141). -/
def State.actReply (s : State) (p : Prompt) (w : ReplyWord) : State :=
  let r := if p.kind.requestRelated then s.promptedRequest p else none
  let s := match r with
    | some r => s.markAssisted r
    | none => s
  let s := if w = .fit then s else s.leaveList p.number false
  match r with
  | some r => s.requestReply p r w
  | none => s.equipmentReply p w

/-- A reply word for a prompt of the kind the reply is for: NO SUCH PROMPT, REPLY NOT VALID, or ACCEPTED and acted on (R138, R141). -/
def State.reply (s : State) (n : Nat) (kind : PromptKind → Bool) (w : ReplyWord) : State :=
  match s.prompt? n with
  | none => s.answer .noSuchPrompt
  | some p =>
    if kind p.kind && p.accepts.contains w then (s.answer .accepted).act (fun s => s.actReply p w)
    else s.answer .replyNotValid

/-! ### Typed lines (R137, R138) -/

/-- A line that begins with a number (R138). -/
def State.numberLine (s : State) (n : Nat) (rest : List Text) : State :=
  match rest, s.prompt? n with
  | [], _ => s.answer .notUnderstood
  | _ :: _, none => s.answer .noSuchPrompt
  | [w], some _ =>
    match replyWord w with
    | some w => s.reply n (fun _ => true) w
    | none => s.answer .replyNotValid
  | _ :: _ :: _, some _ => s.answer .replyNotValid

/-- The words of a line are taken by the first form that fits (R138). -/
def State.wordsLine (s : State) (words : List Text) : State :=
  match words with
  | [] => s
  | first :: rest =>
    if first = wordAck then
      match rest with
      | [w] => if w = wordAll then s.lineAckAll else if allDigits w then s.lineAck (numberOf w) else s.answer .notUnderstood
      | _ => s.answer .notUnderstood
    else if first = wordList ∧ rest = [] then s.lineList
    else if first = wordQuiesce ∧ rest = [] then s.lineService s.takeQuiesce
    else if first = wordResume ∧ rest = [] then s.lineService s.takeResume
    else if allDigits first then s.numberLine (numberOf first) rest
    else s.answer .notUnderstood

/-- The carriage return: the held line is taken (R137). -/
def State.endLine (s : State) : State :=
  let line := s.pr.held
  let long := s.pr.tooLong
  s.lineEnded (fun s => if long then s.answer .lineTooLong else s.wordsLine (splitWords [] line))

/-- A printable character is held, or marks the line as too long (R137). -/
def State.holdChar (s : State) (b : Byte) : State :=
  if s.pr.held.length < Config.maxPanelInput then { s with pr := { s.pr with held := s.pr.held ++ [upperCase b] } }
  else { s with pr := { s.pr with tooLong := true } }

/-- A character typed at the panel (R137). -/
def State.typeChar (s : State) (code : BitVec 7) : State :=
  let b : Byte := code.setWidth 8
  if b = 0x0D then s.endLine
  else if b = 0x08 ∨ b = 0x7F then { s with pr := { s.pr with held := s.pr.held.dropLast } }
  else if b.toNat < 0x20 then s
  else s.holdChar b

/-- A line is typed, then carriage return (R137, R138). -/
def State.typeLine (s : State) (text : PanelText) : State := (text.foldl State.typeChar s).typeChar 0x0D

/-! ### Timers (R54, R142, R143) -/

/-- The escalation timer of a prompt expires; a stopped timer does not (R142, R143). -/
def State.escalationExpiry (s : State) (n : Nat) : State :=
  match s.prompt? n with
  | none => s
  | some p =>
    if p.timer.isNone then s
    else if p.level < 3 then s.escalate p
    else if p.kind.requestRelated then
      s.act (fun s =>
        let s := s.withdraw n
        match p.tag with
        | some t => s.promptTimedOut t
        | none => s)
    else s.endEscalation p

end Sys2Proof.Machine
end

