-- ==== Sys2Proof/Machine/ArmCommands.lean ====
section
/-! DEFINITION. The meanings of the arms' commands: frames sent, reports, supervision limits and linger (chapter 4). -/

namespace Sys2Proof.Machine

/-- ARM_FRAME_SENT: the next frame waiting takes the line, a STOP ahead of any other (R85, R193). -/
def execArmFrameSent (a : ArmId) (s : State) : Host.Outcome State Fault Refusal :=
  .next (s.armLineFree a).finishStep

/-- LEG_DONE (R6 to R11, R90, R99 to R102). -/
def execLegDone (a : ArmId) (r : LegReport) (ticks : Nat) (s : State) : Host.Outcome State Fault Refusal :=
  .next (s.act (fun s => s.takeReport a (.legDone r) ticks)).finishStep

/-- LEG_FAULT (R100, R103, R108, R208). -/
def execLegFault (a : ArmId) (code loaded : Byte) (s : State) : Host.Outcome State Fault Refusal :=
  .next (s.act (fun s => s.takeReport a (.legFault code loaded) 0)).finishStep

/-- HOME_DONE (R101, R108). -/
def execHomeDone (a : ArmId) (column : Byte) (s : State) : Host.Outcome State Fault Refusal :=
  .next (s.act (fun s => s.takeReport a (.homeDone column) 0)).finishStep

/-- STATUS_REPLY (R12, R104, R105, R107, R108). -/
def execStatusReply (a : ArmId) (r : StatusReport) (s : State) : Host.Outcome State Fault Refusal :=
  .next (s.act (fun s => s.takeReport a (.statusReply r) 0)).finishStep

/-- LEG_TIMEOUT (R100, R103). -/
def execLegTimeout (a : ArmId) (s : State) : Host.Outcome State Fault Refusal :=
  .next (s.act (fun s => s.legTimesOut a)).finishStep

/-- HOME_TIMEOUT (R108). -/
def execHomeTimeout (a : ArmId) (s : State) : Host.Outcome State Fault Refusal :=
  .next (s.act (fun s => s.homeTimesOut a)).finishStep

/-- STATUS_TIMEOUT (R105, R108). -/
def execStatusTimeout (a : ArmId) (s : State) : Host.Outcome State Fault Refusal :=
  .next (s.act (fun s => s.statusTimesOut a)).finishStep

/-- LINGER_EXPIRY: the lingering zones are released, and waiting claims are tested again (R95, R99). -/
def execLingerExpiry (a : ArmId) (s : State) : Host.Outcome State Fault Refusal :=
  .next (s.act (fun s => s.lingerEnds a)).finishStep

end Sys2Proof.Machine
end

