-- ==== Sys2Proof/Machine/DriveCommands.lean ====
section
/-! DEFINITION. The meanings of the drives' commands: sense lines, pulses and timers, and the wait timer of a request (chapters 2 and 3). A debounced
change is taken when the line's interval ends at a new raw level; with no such interval, and for a stopped timer, nothing changes (log 3). -/

namespace Sys2Proof.Machine

/-- A debounced change of a drive's line is taken, and the state machine acts on it (R25, R26). -/
def State.senseChange (s : State) (d : Fin 16) (line : SenseLine) (level : Bool) (f : State → State) : State :=
  match s.driveLevel d line level with
  | some t => s.act (fun _ => f t)
  | none => s

/-- A timer's expiry acts while the timer runs (log 3). -/
def State.expires (s : State) (running : Bool) (f : State → State) : State := if running then s.act f else s

/-- DRIVE_RAW_CHANGE (R25). -/
def execDriveRawChange (d : Fin 16) (line : SenseLine) (level : Bool) (s : State) : Host.Outcome State Fault Refusal :=
  .next (s.driveRaw d line level).finishStep

/-- LOADED_RISE (R30, R33, R34, R37, R38, R44). -/
def execLoadedRise (d : Fin 16) (s : State) : Host.Outcome State Fault Refusal :=
  .next (s.senseChange d .loaded true (fun s => s.onLoadedRise d)).finishStep

/-- LOADED_FALL (R37, R44). -/
def execLoadedFall (d : Fin 16) (s : State) : Host.Outcome State Fault Refusal :=
  .next (s.senseChange d .loaded false (fun s => s.onLoadedFall d)).finishStep

/-- RELEASED_RISE (R32, R37, R44). -/
def execReleasedRise (d : Fin 16) (s : State) : Host.Outcome State Fault Refusal :=
  .next (s.senseChange d .released true (fun s => s.onReleasedRise d)).finishStep

/-- RELEASED_FALL (R44). -/
def execReleasedFall (d : Fin 16) (s : State) : Host.Outcome State Fault Refusal :=
  .next (s.senseChange d .released false (fun s => s.onReleasedFall d)).finishStep

/-- PROTECT_CHANGE: the change to the raw level that stands (R35). -/
def execProtectChange (d : Fin 16) (s : State) : Host.Outcome State Fault Refusal :=
  .next (((s.driveLevel d .protect (s.drive d).raw.protect).map (fun s => s.onProtectChange d)).getD s).finishStep

/-- PULSE_END: the output turns off and nothing else changes (R27). -/
def execPulseEnd (d : Fin 16) (s : State) : Host.Outcome State Fault Refusal :=
  .next (s.updDrive d (fun x => { x with pulse := none })).finishStep

/-- LOAD_TIMER_EXPIRY (R31). -/
def execLoadTimerExpiry (d : Fin 16) (s : State) : Host.Outcome State Fault Refusal :=
  .next (s.expires (s.drive d).loadTimer.isSome (fun s => s.loadTimerExpiry d)).finishStep

/-- RELEASE_TIMER_EXPIRY (R37, R41). -/
def execReleaseTimerExpiry (d : Fin 16) (s : State) : Host.Outcome State Fault Refusal :=
  .next (s.expires (s.drive d).releaseTimer.isSome (fun s => s.releaseTimerExpiry d)).finishStep

/-- LABEL_TIMER_EXPIRY (R40, R69). -/
def execLabelTimerExpiry (d : Fin 16) (s : State) : Host.Outcome State Fault Refusal :=
  .next (s.expires (s.drive d).labelTimer.isSome (fun s => s.labelExpiry d)).finishStep

/-- WAIT_TIMER_EXPIRY (R54). -/
def execWaitTimerExpiry (tag : Half) (s : State) : Host.Outcome State Fault Refusal :=
  .next (s.expires ((s.request? tag).any (·.timer.isSome)) (fun s => s.waitExpiry tag)).finishStep

end Sys2Proof.Machine
end

