-- ==== Sys2Proof/Machine/PanelCommands.lean ====
section
/-! DEFINITION. The meanings of the operator panel's commands: characters, lines, ACK, LIST, the service words, the replies, and the lines sent
(chapter 6). A reply command is the line "n WORD" for a prompt of its kind; for one of another kind it is REPLY NOT VALID (log 18). -/

namespace Sys2Proof.Machine

/-- PANEL_CHARACTER (R137). -/
def execPanelCharacter (code : BitVec 7) (s : State) : Host.Outcome State Fault Refusal :=
  .next (s.typeChar code).finishStep

/-- PANEL_LINE (R137, R138). -/
def execPanelLine (text : PanelText) (s : State) : Host.Outcome State Fault Refusal :=
  .next (s.typeLine text).finishStep

/-- ACK (R139). -/
def execAck (n : Nat) (s : State) : Host.Outcome State Fault Refusal :=
  .next (s.lineEnded (fun s => s.lineAck n)).finishStep

/-- ACK_ALL (R139). -/
def execAckAll (s : State) : Host.Outcome State Fault Refusal :=
  .next (s.lineEnded State.lineAckAll).finishStep

/-- LIST (R140). -/
def execList (s : State) : Host.Outcome State Fault Refusal :=
  .next (s.lineEnded State.lineList).finishStep

/-- PANEL_QUIESCE (R140, R184). -/
def execPanelQuiesce (s : State) : Host.Outcome State Fault Refusal :=
  .next (s.lineEnded (fun s => s.lineService s.takeQuiesce)).finishStep

/-- PANEL_RESUME (R140, R187). -/
def execPanelResume (s : State) : Host.Outcome State Fault Refusal :=
  .next (s.lineEnded (fun s => s.lineService s.takeResume)).finishStep

/-- MANUAL_MOUNT_DONE (R34, R66, R141). -/
def execManualMountDone (n : Nat) (s : State) : Host.Outcome State Fault Refusal :=
  .next (s.lineEnded (fun s => s.reply n (· == .manualMount) .done)).finishStep

/-- MANUAL_MOUNT_CANCEL (R71, R141). -/
def execManualMountCancel (n : Nat) (s : State) : Host.Outcome State Fault Refusal :=
  .next (s.lineEnded (fun s => s.reply n (· == .manualMount) .cancel)).finishStep

/-- RING_NEEDED_FIT (R38, R70, R145). -/
def execRingNeededFit (n : Nat) (s : State) : Host.Outcome State Fault Refusal :=
  .next (s.lineEnded (fun s => s.reply n (· == .ringNeeded) .fit)).finishStep

/-- RING_NEEDED_READONLY (R70, R145). -/
def execRingNeededReadonly (n : Nat) (s : State) : Host.Outcome State Fault Refusal :=
  .next (s.lineEnded (fun s => s.reply n (· == .ringNeeded) .readonly)).finishStep

/-- RING_NEEDED_CANCEL (R70, R72, R145). -/
def execRingNeededCancel (n : Nat) (s : State) : Host.Outcome State Fault Refusal :=
  .next (s.lineEnded (fun s => s.reply n (· == .ringNeeded) .cancel)).finishStep

/-- LABEL_MISMATCH_ACCEPT (R68). -/
def execLabelMismatchAccept (n : Nat) (s : State) : Host.Outcome State Fault Refusal :=
  .next (s.lineEnded (fun s => s.reply n (· == .labelMismatch) .accept)).finishStep

/-- LABEL_MISMATCH_REJECT (R68). -/
def execLabelMismatchReject (n : Nat) (s : State) : Host.Outcome State Fault Refusal :=
  .next (s.lineEnded (fun s => s.reply n (· == .labelMismatch) .reject)).finishStep

/-- VOLUME_SUSPECT_PROCEED (R71). -/
def execVolumeSuspectProceed (n : Nat) (s : State) : Host.Outcome State Fault Refusal :=
  .next (s.lineEnded (fun s => s.reply n (· == .volumeSuspect) .proceed)).finishStep

/-- VOLUME_SUSPECT_CANCEL (R71). -/
def execVolumeSuspectCancel (n : Nat) (s : State) : Host.Outcome State Fault Refusal :=
  .next (s.lineEnded (fun s => s.reply n (· == .volumeSuspect) .cancel)).finishStep

/-- VOLUME_LOST_FOUND (R76). -/
def execVolumeLostFound (n : Nat) (s : State) : Host.Outcome State Fault Refusal :=
  .next (s.lineEnded (fun s => s.reply n (· == .volumeLost) .found)).finishStep

/-- VOLUME_LOST_CANCEL (R76). -/
def execVolumeLostCancel (n : Nat) (s : State) : Host.Outcome State Fault Refusal :=
  .next (s.lineEnded (fun s => s.reply n (· == .volumeLost) .cancel)).finishStep

/-- SCRATCH_EMPTY_DONE (R71). -/
def execScratchEmptyDone (n : Nat) (s : State) : Host.Outcome State Fault Refusal :=
  .next (s.lineEnded (fun s => s.reply n (· == .scratchEmpty) .done)).finishStep

/-- SCRATCH_EMPTY_CANCEL (R71). -/
def execScratchEmptyCancel (n : Nat) (s : State) : Host.Outcome State Fault Refusal :=
  .next (s.lineEnded (fun s => s.reply n (· == .scratchEmpty) .cancel)).finishStep

/-- STATION_UNKNOWN_DONE (R146, R156). -/
def execStationUnknownDone (n : Nat) (s : State) : Host.Outcome State Fault Refusal :=
  .next (s.lineEnded (fun s => s.reply n (· == .stationUnknown) .done)).finishStep

/-- DRIVE_CHECK_DONE (R42, R146). -/
def execDriveCheckDone (n : Nat) (s : State) : Host.Outcome State Fault Refusal :=
  .next (s.lineEnded (fun s => s.reply n (· == .driveCheck) .done)).finishStep

/-- DRIVE_CHECK_OFFLINE (R43, R146). -/
def execDriveCheckOffline (n : Nat) (s : State) : Host.Outcome State Fault Refusal :=
  .next (s.lineEnded (fun s => s.reply n (· == .driveCheck) .offline)).finishStep

/-- ARM_OUT_DONE (R110, R146). -/
def execArmOutDone (n : Nat) (s : State) : Host.Outcome State Fault Refusal :=
  .next (s.lineEnded (fun s => s.reply n (· == .armOut) .done)).finishStep

/-- ARM_OUT_KEEP (R110, R146). -/
def execArmOutKeep (n : Nat) (s : State) : Host.Outcome State Fault Refusal :=
  .next (s.lineEnded (fun s => s.reply n (· == .armOut) .keep)).finishStep

/-- PANEL_LINE_SENT: the line is free, and the next waiting line is chosen and composed (R133, R135). -/
def execPanelLineSent (s : State) : Host.Outcome State Fault Refusal :=
  .next { s with pr := { s.pr with sending := none } }.finishStep

/-- ESCALATION_EXPIRY (R142, R143). -/
def execEscalationExpiry (n : Nat) (s : State) : Host.Outcome State Fault Refusal :=
  .next (s.escalationExpiry n).finishStep

/-- PHASE_TIMER_EXPIRY (R148, R149). -/
def execPhaseTimerExpiry (o : Output) (s : State) : Host.Outcome State Fault Refusal :=
  .next (s.phaseExpiry o).finishStep

end Sys2Proof.Machine
end

