-- ==== Sys2Proof/Machine/StationCommands.lean ====
section
/-! DEFINITION. The meanings of the door and station commands (chapter 7, R188). -/

namespace Sys2Proof.Machine

/-- A debounced change of the door or a presence input is taken (R151); with no interval that ends at the new level nothing changes
(log 3). -/
def State.inputChange (s : State) (i : RailInput) (level : Bool) (f : State → State) : State :=
  match s.inputLevel i level with
  | some t => s.act (fun _ => f t)
  | none => s

/-- INPUT_RAW_CHANGE (R151). -/
def execInputRawChange (i : RailInput) (level : Bool) (s : State) : Host.Outcome State Fault Refusal :=
  .next (s.inputRaw i level).finishStep

/-- DOOR_OPENING (R111, R152, R188). -/
def execDoorOpening (s : State) : Host.Outcome State Fault Refusal :=
  .next (s.inputChange .door false State.doorOpens).finishStep

/-- DOOR_CLOSING (R111, R152, R188). -/
def execDoorClosing (s : State) : Host.Outcome State Fault Refusal :=
  .next (s.inputChange .door true State.doorCloses).finishStep

/-- PRESENCE_RISE (R154, R156). -/
def execPresenceRise (p : Fin 8) (s : State) : Host.Outcome State Fault Refusal :=
  .next (s.inputChange (.presence p) true (fun s => s.onPresenceRise p)).finishStep

/-- PRESENCE_FALL (R9, R155, R160). -/
def execPresenceFall (p : Fin 8) (s : State) : Host.Outcome State Fault Refusal :=
  .next (s.inputChange (.presence p) false (fun s => s.onPresenceFall p)).finishStep

end Sys2Proof.Machine
end

