-- ==== Sys2Proof/Machine/SystemCommands.lean ====
section
/-! DEFINITION. The meanings of power-on, the clock, and the commands of the system port: bytes, frames, the transmitter and LINK RESET (chapters 3 and 10).
A frame command is the arrival of the whole frame: it joins the buffer and is taken in its turn (R193, R194). -/

namespace Sys2Proof.Machine

/-- POWER_ON_RESET: every block takes its power-on state over the levels that stand on its inputs (R179, R196). -/
def execPowerOnReset (s : State) : Host.Outcome State Fault Refusal :=
  .next (State.powerOn (mapVec Drive.raw s.drv.drives) s.mon.doorRaw (mapVec Station.raw s.mon.stations) s.pending)

/-- CLOCK_SECOND: the clock rises by one and wraps (R205). -/
def execClockSecond (s : State) : Host.Outcome State Fault Refusal :=
  .next (s.setClock (s.clock + 1)).finishStep

/-- BYTE_RECEIVED (R192, R193). -/
def execByteReceived (port : PortId) (b : Byte) (ticks : Nat) (s : State) : Host.Outcome State Fault Refusal :=
  .next (s.received port ticks ((s.rx port).receive b)).finishStep

/-- GAP_TIMEOUT (R192). -/
def execGapTimeout (port : PortId) (s : State) : Host.Outcome State Fault Refusal :=
  .next (s.received port 0 (s.rx port).gap).finishStep

/-- FRAME_SENT (R195); the end of the LINK RESET response lets the reset take hold (R206, log 17). -/
def execFrameSent (s : State) : Host.Outcome State Fault Refusal :=
  .next s.frameSent.finishStep

/-- MOUNT (R50, R51, R57). -/
def execMount (f : RequestFields) (s : State) : Host.Outcome State Fault Refusal :=
  .next (s.deliver (.request .mount f)).finishStep

/-- SCRATCH (R50, R51, R58). -/
def execScratch (f : RequestFields) (s : State) : Host.Outcome State Fault Refusal :=
  .next (s.deliver (.request .scratch f)).finishStep

/-- DEMOUNT (R50, R51, R60). -/
def execDemount (f : RequestFields) (s : State) : Host.Outcome State Fault Refusal :=
  .next (s.deliver (.request .demount f)).finishStep

/-- EJECT (R50, R51, R59). -/
def execEject (f : RequestFields) (s : State) : Host.Outcome State Fault Refusal :=
  .next (s.deliver (.request .eject f)).finishStep

/-- CANCEL (R52, R79). -/
def execCancel (tag : Half) (s : State) : Host.Outcome State Fault Refusal :=
  .next (s.deliver (.cancel tag)).finishStep

/-- LABEL (R40, R53, R68). -/
def execLabel (drive : Byte) (serial : Text) (s : State) : Host.Outcome State Fault Refusal :=
  .next (s.deliver (.label drive serial)).finishStep

/-- SHORT_REQUEST (R194, R208). -/
def execShortRequest (body : List Byte) (s : State) : Host.Outcome State Fault Refusal :=
  .next (s.deliver (parseFrame 1 body)).finishStep

/-- UNKNOWN_REQUEST_KIND (R50, R194). -/
def execUnknownRequestKind (body : List Byte) (s : State) : Host.Outcome State Fault Refusal :=
  .next (s.deliver (parseFrame 1 body)).finishStep

/-- UNKNOWN_FRAME (R194). -/
def execUnknownFrame (cls : Byte) (body : List Byte) (s : State) : Host.Outcome State Fault Refusal :=
  .next (s.deliver (parseFrame cls body)).finishStep

/-- SELECT (R200). -/
def execSelect (table : Byte) (index : Half) (wrap : Byte) (s : State) : Host.Outcome State Fault Refusal :=
  .next (s.deliver (.select table index wrap)).finishStep

/-- READ_ENTRIES (R201). -/
def execReadEntries (n : Byte) (s : State) : Host.Outcome State Fault Refusal :=
  .next (s.deliver (.readEntries n)).finishStep

/-- WRITE_ENTRY (R17, R20, R46, R132, R175, R202, R203). -/
def execWriteEntry (entry : List Byte) (s : State) : Host.Outcome State Fault Refusal :=
  .next (s.deliver (.writeEntry entry)).finishStep

/-- CLEAR_TABLE (R17, R22, R46, R132, R178, R202, R203). -/
def execClearTable (s : State) : Host.Outcome State Fault Refusal :=
  .next (s.deliver .clearTable).finishStep

/-- START (R181). -/
def execStart (s : State) : Host.Outcome State Fault Refusal :=
  .next (s.deliver .start).finishStep

/-- QUIESCE (R184). -/
def execQuiesce (s : State) : Host.Outcome State Fault Refusal :=
  .next (s.deliver .quiesce).finishStep

/-- RESUME (R187). -/
def execResume (s : State) : Host.Outcome State Fault Refusal :=
  .next (s.deliver .resume).finishStep

/-- LINK_RESET: the DONE is composed; the reset takes hold when it has been sent (R190, R206). -/
def execLinkReset (s : State) : Host.Outcome State Fault Refusal :=
  .next (s.deliver .linkReset).finishStep

/-- RESET_TAKES_HOLD: the LINK RESET response being sent ends, and the reset takes hold; with none being sent there is no reset to take hold
(R190, R206, log 17). -/
def execResetTakesHold (s : State) : Host.Outcome State Fault Refusal :=
  .next (if s.resetAwaited then s.frameSent else s).finishStep

/-- AUDIT (R116, R117). -/
def execAudit (first last : Half) (s : State) : Host.Outcome State Fault Refusal :=
  .next (s.deliver (.audit first last)).finishStep

/-- SET_CLOCK (R205). -/
def execSetClock (value : Stamp) (s : State) : Host.Outcome State Fault Refusal :=
  .next (s.deliver (.setClock value)).finishStep

/-- READ_CLOCK (R205). -/
def execReadClock (s : State) : Host.Outcome State Fault Refusal :=
  .next (s.deliver .readClock).finishStep

/-- EVENT_MASK (R197, R198). -/
def execEventMask (mask : Half) (s : State) : Host.Outcome State Fault Refusal :=
  .next (s.deliver (.eventMask mask)).finishStep

/-- EVENT_CLEAR (R198). -/
def execEventClear (events : Half) (s : State) : Host.Outcome State Fault Refusal :=
  .next (s.deliver (.eventClear events)).finishStep

/-- READ_EVENTS (R198). -/
def execReadEvents (s : State) : Host.Outcome State Fault Refusal :=
  .next (s.deliver .readEvents).finishStep

/-- READ_RECORDS (R171). -/
def execReadRecords (n : Byte) (s : State) : Host.Outcome State Fault Refusal :=
  .next (s.deliver (.readRecords n)).finishStep

/-- RELEASE_RECORDS (R172). -/
def execReleaseRecords (n : Half) (s : State) : Host.Outcome State Fault Refusal :=
  .next (s.deliver (.releaseRecords n)).finishStep

/-- RESET_COUNTERS (R174). -/
def execResetCounters (index : Byte) (s : State) : Host.Outcome State Fault Refusal :=
  .next (s.deliver (.resetCounters index)).finishStep

/-- ARM_SERVICE_IN (R109). -/
def execArmServiceIn (arm : Byte) (s : State) : Host.Outcome State Fault Refusal :=
  .next (s.deliver (.armService arm 0)).finishStep

/-- ARM_SERVICE_OUT (R109). -/
def execArmServiceOut (arm : Byte) (s : State) : Host.Outcome State Fault Refusal :=
  .next (s.deliver (.armService arm 1)).finishStep

/-- DRIVE_SERVICE_ONLINE (R45). -/
def execDriveServiceOnline (drive : Byte) (s : State) : Host.Outcome State Fault Refusal :=
  .next (s.deliver (.driveService drive 0)).finishStep

/-- DRIVE_SERVICE_OFFLINE (R43, R45). -/
def execDriveServiceOffline (drive : Byte) (s : State) : Host.Outcome State Fault Refusal :=
  .next (s.deliver (.driveService drive 1)).finishStep

end Sys2Proof.Machine
end

