-- ==== Sys2Proof/Machine/Dispatch.lean ====
section
/-! DEFINITION. The dispatch: one arm for each command. -/

namespace Sys2Proof.Machine

/-- The effect of a command on everything but the queue. -/
def exec (i : Instr) (s : State) : Host.Outcome State Fault Refusal :=
  match i with
  | .powerOnReset => Sys2Proof.Machine.execPowerOnReset s
  | .byteReceived port byte ticks => Sys2Proof.Machine.execByteReceived port byte ticks s
  | .gapTimeout port => Sys2Proof.Machine.execGapTimeout port s
  | .frameSent => Sys2Proof.Machine.execFrameSent s
  | .armFrameSent arm => Sys2Proof.Machine.execArmFrameSent arm s
  | .mount f => Sys2Proof.Machine.execMount f s
  | .scratch f => Sys2Proof.Machine.execScratch f s
  | .demount f => Sys2Proof.Machine.execDemount f s
  | .eject f => Sys2Proof.Machine.execEject f s
  | .cancel tag => Sys2Proof.Machine.execCancel tag s
  | .label drive serial => Sys2Proof.Machine.execLabel drive serial s
  | .shortRequest body => Sys2Proof.Machine.execShortRequest body s
  | .unknownFrame cls body => Sys2Proof.Machine.execUnknownFrame cls body s
  | .select table index wrap => Sys2Proof.Machine.execSelect table index wrap s
  | .readEntries n => Sys2Proof.Machine.execReadEntries n s
  | .writeEntry entry => Sys2Proof.Machine.execWriteEntry entry s
  | .clearTable => Sys2Proof.Machine.execClearTable s
  | .start => Sys2Proof.Machine.execStart s
  | .quiesce => Sys2Proof.Machine.execQuiesce s
  | .resume => Sys2Proof.Machine.execResume s
  | .linkReset => Sys2Proof.Machine.execLinkReset s
  | .resetTakesHold => Sys2Proof.Machine.execResetTakesHold s
  | .audit first last => Sys2Proof.Machine.execAudit first last s
  | .setClock value => Sys2Proof.Machine.execSetClock value s
  | .readClock => Sys2Proof.Machine.execReadClock s
  | .eventMask mask => Sys2Proof.Machine.execEventMask mask s
  | .eventClear events => Sys2Proof.Machine.execEventClear events s
  | .readEvents => Sys2Proof.Machine.execReadEvents s
  | .readRecords n => Sys2Proof.Machine.execReadRecords n s
  | .releaseRecords n => Sys2Proof.Machine.execReleaseRecords n s
  | .resetCounters index => Sys2Proof.Machine.execResetCounters index s
  | .armServiceIn arm => Sys2Proof.Machine.execArmServiceIn arm s
  | .armServiceOut arm => Sys2Proof.Machine.execArmServiceOut arm s
  | .driveServiceOnline drive => Sys2Proof.Machine.execDriveServiceOnline drive s
  | .driveServiceOffline drive => Sys2Proof.Machine.execDriveServiceOffline drive s
  | .panelCharacter code => Sys2Proof.Machine.execPanelCharacter code s
  | .panelLine text => Sys2Proof.Machine.execPanelLine text s
  | .ack n => Sys2Proof.Machine.execAck n s
  | .ackAll => Sys2Proof.Machine.execAckAll s
  | .list => Sys2Proof.Machine.execList s
  | .panelQuiesce => Sys2Proof.Machine.execPanelQuiesce s
  | .panelResume => Sys2Proof.Machine.execPanelResume s
  | .manualMountDone n => Sys2Proof.Machine.execManualMountDone n s
  | .manualMountCancel n => Sys2Proof.Machine.execManualMountCancel n s
  | .ringNeededFit n => Sys2Proof.Machine.execRingNeededFit n s
  | .ringNeededReadonly n => Sys2Proof.Machine.execRingNeededReadonly n s
  | .ringNeededCancel n => Sys2Proof.Machine.execRingNeededCancel n s
  | .labelMismatchAccept n => Sys2Proof.Machine.execLabelMismatchAccept n s
  | .labelMismatchReject n => Sys2Proof.Machine.execLabelMismatchReject n s
  | .volumeSuspectProceed n => Sys2Proof.Machine.execVolumeSuspectProceed n s
  | .volumeSuspectCancel n => Sys2Proof.Machine.execVolumeSuspectCancel n s
  | .volumeLostFound n => Sys2Proof.Machine.execVolumeLostFound n s
  | .volumeLostCancel n => Sys2Proof.Machine.execVolumeLostCancel n s
  | .scratchEmptyDone n => Sys2Proof.Machine.execScratchEmptyDone n s
  | .scratchEmptyCancel n => Sys2Proof.Machine.execScratchEmptyCancel n s
  | .stationUnknownDone n => Sys2Proof.Machine.execStationUnknownDone n s
  | .driveCheckDone n => Sys2Proof.Machine.execDriveCheckDone n s
  | .driveCheckOffline n => Sys2Proof.Machine.execDriveCheckOffline n s
  | .armOutDone n => Sys2Proof.Machine.execArmOutDone n s
  | .armOutKeep n => Sys2Proof.Machine.execArmOutKeep n s
  | .panelLineSent => Sys2Proof.Machine.execPanelLineSent s
  | .legDone arm report ticks => Sys2Proof.Machine.execLegDone arm report ticks s
  | .legFault arm code loaded => Sys2Proof.Machine.execLegFault arm code loaded s
  | .homeDone arm column => Sys2Proof.Machine.execHomeDone arm column s
  | .statusReply arm report => Sys2Proof.Machine.execStatusReply arm report s
  | .legTimeout arm => Sys2Proof.Machine.execLegTimeout arm s
  | .homeTimeout arm => Sys2Proof.Machine.execHomeTimeout arm s
  | .statusTimeout arm => Sys2Proof.Machine.execStatusTimeout arm s
  | .lingerExpiry arm => Sys2Proof.Machine.execLingerExpiry arm s
  | .driveRawChange drive line level => Sys2Proof.Machine.execDriveRawChange drive line level s
  | .loadedRise drive => Sys2Proof.Machine.execLoadedRise drive s
  | .loadedFall drive => Sys2Proof.Machine.execLoadedFall drive s
  | .releasedRise drive => Sys2Proof.Machine.execReleasedRise drive s
  | .releasedFall drive => Sys2Proof.Machine.execReleasedFall drive s
  | .protectChange drive => Sys2Proof.Machine.execProtectChange drive s
  | .pulseEnd drive => Sys2Proof.Machine.execPulseEnd drive s
  | .loadTimerExpiry drive => Sys2Proof.Machine.execLoadTimerExpiry drive s
  | .releaseTimerExpiry drive => Sys2Proof.Machine.execReleaseTimerExpiry drive s
  | .labelTimerExpiry drive => Sys2Proof.Machine.execLabelTimerExpiry drive s
  | .waitTimerExpiry tag => Sys2Proof.Machine.execWaitTimerExpiry tag s
  | .escalationExpiry n => Sys2Proof.Machine.execEscalationExpiry n s
  | .phaseTimerExpiry output => Sys2Proof.Machine.execPhaseTimerExpiry output s
  | .inputRawChange input level => Sys2Proof.Machine.execInputRawChange input level s
  | .doorOpening => Sys2Proof.Machine.execDoorOpening s
  | .doorClosing => Sys2Proof.Machine.execDoorClosing s
  | .presenceRise p => Sys2Proof.Machine.execPresenceRise p s
  | .presenceFall p => Sys2Proof.Machine.execPresenceFall p s
  | .clockSecond => Sys2Proof.Machine.execClockSecond s
  | .unknownRequestKind body => Sys2Proof.Machine.execUnknownRequestKind body s

end Sys2Proof.Machine
end

