-- ==== Sys2Proof/Safety.lean ====
section
/-! DEFINITION. What the statements speak of: the parts of the state that the block leaves as it finds them, the laws of its tables and
lists, and the rest its port and panel line reach at the end of every command. -/

namespace Sys2Proof.Machine

/-! ### What the machine of itself does not change -/

/-- What is written in the drive table or comes in on the lines of a drive (R23, R25). -/
def Drive.wiring (x : Drive) : (Bool × Nat × Densities) × (Nat × Edges) × Levels × Levels × Intervals :=
  ((x.installed, x.column, x.densities), (x.debounce, x.edges), x.sense, x.raw, x.intervals)

/-- What comes in on the presence line of a position (R151). -/
def Station.wiring (x : Station) : Bool × Bool × Option Nat := (x.raw, x.presence, x.interval)

/-- What only a write of the directory gives an entry (R20). -/
def Volume.identity (v : Volume) : Text × Option Nat := (v.serial, v.home)

/-- What only a write of the account table gives an account (R175). -/
def Account.identity (a : Account) : Text × Bool × Nat := (a.code, a.closed, a.limit)

/-- What a request was accepted with (R49, R51). -/
def Request.asked (r : Request) :
    (Half × RequestKind × RequestFields × Text × Nat) × (Option (Fin 16) × Bool × Bool × Option Density) × Nat × Nat × Stamp :=
  ((r.tag, r.kind, r.fields, r.serial, r.pool), (r.drive, r.write, r.verify, r.density), r.account, r.priority, r.arrival)

/-- The identities of the directory entries in use. -/
def State.volumeIdentities (s : State) : List (Nat × Text × Option Nat) := s.dir.entries.map (fun e => (e.1, e.2.identity))

/-- The identities of the accounts in use. -/
def State.accountIdentities (s : State) : List (Nat × Text × Bool × Nat) := s.acc.accounts.map (fun e => (e.1, e.2.identity))

/-- The requests in the queue as they were accepted. -/
def State.requestsAsked (s : State) :
    List ((Half × RequestKind × RequestFields × Text × Nat) × (Option (Fin 16) × Bool × Bool × Option Density) × Nat × Nat × Stamp) :=
  s.ms.queue.map Request.asked

/-! ### The laws of the tables and lists -/

/-- No two entries in use have one serial (R2), one home slot (R4), and each has its place in the table (R1). -/
abbrev State.DirectoryLawful (s : State) : Prop :=
  Canonical s.dir.entries ∧ Canonical s.dir.findings ∧ (s.volumeIdentities.map (fun x => x.2.1)).Nodup ∧
    (s.volumeIdentities.filterMap (fun x => x.2.2)).Nodup ∧ ∀ x ∈ s.volumeIdentities, x.1 < Config.slots

/-- No two accounts in use have one code, and entry 0 is always in use (R161). -/
abbrev State.AccountsLawful (s : State) : Prop :=
  Canonical s.acc.accounts ∧ (s.accountIdentities.map (fun x => x.2.1)).Nodup ∧ 0 ∈ s.accountIdentities.map (fun x => x.1)

/-- The queue holds at most 64 requests, no two with one tag and none with the tag 0 (R48, R50). -/
abbrev State.QueueLawful (s : State) : Prop :=
  s.ms.queue.length ≤ Config.maxRequests ∧ (s.requestsAsked.map (fun x => x.1.1)).Nodup ∧ 0 ∉ s.requestsAsked.map (fun x => x.1.1)

/-- The lists of bounded length: prompts (R125), orders (R86), answers and withdrawals (R135), whole frames received (R193). -/
abbrev State.ListsFit (s : State) : Prop :=
  s.pr.list.length ≤ Config.maxPrompts ∧ s.sch.pool.length ≤ 32 ∧ s.pr.answers.length ≤ Config.maxAnswers ∧
    s.pr.withdrawals.length ≤ Config.maxWithdrawals ∧ s.port.buffer.length ≤ Config.maxBuffer

/-- The laws of the part's tables and lists. -/
abbrev State.Lawful (s : State) : Prop := s.DirectoryLawful ∧ s.AccountsLawful ∧ s.QueueLawful ∧ s.ListsFit

/-! ### The laws of the part -/

/-- The location of a volume in use. -/
def State.locOf (s : State) (e : Nat) : Option Loc := (s.vol? e).map (·.loc)

/-- A gripper names a volume exactly when its location is IN_ARM of that arm (R6). -/
abbrev State.GrippersPaired (s : State) : Prop := ∀ a e, (s.arm a).gripper = .volume e ↔ s.locOf e = some (.inArm a)

/-- A drive names a volume exactly when its location is IN_DRIVE of that drive (R8). -/
abbrev State.DrivesPaired (s : State) : Prop := ∀ d e, (s.drive d).volume = some e ↔ s.locOf e = some (.inDrive d)

/-- No directory entry is the chosen volume of more than one live request (R48). -/
abbrev State.VolumesChosenOnce (s : State) : Prop :=
  ∀ r ∈ s.ms.queue, ∀ q ∈ s.ms.queue, ∀ e, r.volume = some e → q.volume = some e → r.tag = q.tag

/-- The request-related prompts of the list (R126). -/
def State.relatedPrompts (s : State) : List Prompt := s.pr.list.filter (fun p => p.kind.requestRelated)

/-- A request is PROMPTED exactly when one outstanding request-related prompt names it, by its number too, and each such prompt names one request
(R55); none is PROMPTED whose final reply is owed. -/
abbrev State.PromptsPaired (s : State) : Prop :=
  (∀ r ∈ s.ms.queue, r.state = .prompted → ∃ p ∈ s.relatedPrompts, p.tag = some r.tag ∧ r.prompt = some p.number) ∧
  (∀ p ∈ s.relatedPrompts, ∃ r ∈ s.ms.queue, p.tag = some r.tag ∧ r.prompt = some p.number ∧ r.state = .prompted) ∧
  (s.relatedPrompts.map (·.tag)).Nodup ∧
  ∀ x ∈ s.port.replyOwed, ∀ r ∈ s.ms.queue, r.tag = x.1 → r.state ≠ .prompted

/-- An arm holds a zone otherwise than as a lingering one (R94). -/
def State.firm (s : State) (a : ArmId) (z : Nat) : Prop := ∃ k, s.zone? z = some ⟨a, k⟩ ∧ k ≠ .lingering

/-- The commands that wait for an arm's line, STOP aside (R193). -/
def State.waitingFrames (s : State) (a : ArmId) : List ArmFrame := (s.armPort a).waiting.filter (fun f => !f.isStop)

/-- Where an arm goes by a TRAVEL lies in a zone it holds (R95). -/
def State.goesInto (s : State) (a : ArmId) : Leg → Prop
  | .travel (some c) => c < 32 ∧ s.firm a (zoneOf c)
  | .travel none | .pick _ | .place _ | .read _ | .home => True

/-- An arm holds the zone it stands in, and only zones it reaches; UNHOMED it holds none, at its end column with nothing in hand (R94, R61, R84).
A leg in hand or waiting for the line goes into the arm's zones, and a leg waits behind nothing else. A claim is that of a RUNNING arm with nothing
in hand, from its own zone to that of the target (R95). An IDLE arm has nothing in hand. -/
abbrev State.ArmLawful (s : State) (a : ArmId) : Prop :=
  (∀ z, s.holds a z = true → armReaches a z = true) ∧
  ((s.arm a).state ≠ .unhomed → (s.arm a).column < 32 ∧ s.firm a (s.armZone a)) ∧
  ((s.arm a).state = .unhomed → (∀ z, s.holds a z = false) ∧ (s.arm a).column = armEnd a ∧ (s.arm a).outstanding = none ∧
    s.waitingFrames a = []) ∧
  (∀ l v lo hi, (s.arm a).outstanding = some (.leg l v lo hi) → s.goesInto a l) ∧
  (∀ l, .leg l ∈ s.waitingFrames a → (s.arm a).outstanding = none ∧ s.waitingFrames a = [.leg l] ∧ s.goesInto a l) ∧
  (∀ c ∈ s.sch.claims, c.arm = a → (s.arm a).state = .running ∧ s.armBusy a = false ∧
    (c.lo, c.hi) = spanOf (s.armZone a) (zoneOf c.target)) ∧
  ((s.arm a).state = .idle → s.armBusy a = false)

/-- The holding of zones (R94): arm A's zones all lie below arm B's, so its column does too, and each arm is as `ArmLawful` says. A zone has one
holder at most by the form of the zone table. -/
abbrev State.RailLawful (s : State) : Prop :=
  (∀ y z, s.holds .armA y = true → s.holds .armB z = true → y < z) ∧ (s.arm .armA).column < (s.arm .armB).column ∧ ∀ a, s.ArmLawful a

/-- The laws of the part (R6, R8, R48, R55, R94). -/
abbrev State.PartLawful (s : State) : Prop :=
  s.GrippersPaired ∧ s.DrivesPaired ∧ s.VolumesChosenOnce ∧ s.PromptsPaired ∧ s.RailLawful

/-! ### What every command ends with -/

/-- The condition-bound flags are as their conditions give them (R196). -/
abbrev State.FlagsSettled (s : State) : Prop := s.port.flags = ((s.port.flags &&& plainPositions) ||| s.conditionFlags)

/-- No NOTICE is owed while the masked summary is empty (R197). -/
abbrev State.NoticeSettled (s : State) : Prop := s.summary = 0 → s.port.noticeOwed = false

/-- A free line has nothing to send (R195), and no frame that may be taken waits (R194). -/
abbrev State.LineSettled (s : State) : Prop :=
  (s.port.sending = none → s.port.immediate = [] ∧ s.port.replyOwed = [] ∧ s.port.noticeOwed = false) ∧ s.mayTake = false

/-- A free panel line has nothing to send (R135). -/
abbrev State.PanelSettled (s : State) : Prop :=
  s.pr.sending = none →
    s.pr.allWithdrawn = false ∧ s.pr.answers = [] ∧ s.pr.withdrawals = [] ∧ s.pr.list.find? (·.lineOwed) = none

/-- The port and the panel line have gone on as far as they can. -/
abbrev State.Settled (s : State) : Prop := s.FlagsSettled ∧ s.NoticeSettled ∧ s.LineSettled ∧ s.PanelSettled

/-- The receive buffer holds at most 4 whole frames (R193). -/
abbrev State.BufferFits (s : State) : Prop := s.port.buffer.length ≤ Config.maxBuffer

/-- A settled block whose system line is free and which takes frames: a frame that arrives is taken at once. -/
abbrev State.Free (s : State) : Prop := s.Settled ∧ s.port.sending = none ∧ s.port.resetting = false

/-- What the messages of one taking leave at a free line: the first is handed out, the others wait (R194, R195). -/
def State.sends (s : State) : List OutMsg → State
  | [] => s
  | m :: rest => ({ s with port := { s.port with immediate := rest } }).handOut m

/-- The other blocks have acted on what an act of a block left. -/
def State.afterAct (s u : State) : State := s.confine (State.drain Config.fuel ((State.follow s u).notify .retry))

/-! ### How the commands act -/

/-- A command is an act of a block, after which the other blocks have acted: `u` is what the act itself leaves. -/
def State.ActsBy (s : State) (c : Instr) (u : State) : Prop := exec c s = .next (s.afterAct u).finishStep

/-- A command is the taking of a frame whose act leaves `u`, answered by the one message `m`. -/
def State.AnswersBy (s : State) (c : Instr) (u : State) (m : OutMsg) : Prop :=
  exec c s = .next ((s.afterAct u).refreshConditions.sends [m]).panelPump

/-- The DONE of a command with its data, in one part (R191, R199). -/
def doneOf (code : Byte) (data : List Byte) : OutMsg := .response 0 true 0 code data false

/-- The REFUSED of a command with its reason code (R199). -/
def refusedOf (code : Byte) (reason : Nat) : OutMsg := .response 0 true 1 code [byte reason] false

/-- The class and the body of the frame whose arrival a command is (section 11.2); none for a command that is no frame. -/
def sentBy : Instr → Option (Byte × List Byte)
  | .mount f => some (SysFrame.encode (.request .mount f))
  | .scratch f => some (SysFrame.encode (.request .scratch f))
  | .demount f => some (SysFrame.encode (.request .demount f))
  | .eject f => some (SysFrame.encode (.request .eject f))
  | .cancel tag => some (SysFrame.encode (.cancel tag))
  | .label drive serial => some (SysFrame.encode (.label drive serial))
  | .shortRequest body | .unknownRequestKind body => some (1, body)
  | .unknownFrame cls body => some (cls, body)
  | .select table index wrap => some (SysFrame.encode (.select table index wrap))
  | .readEntries n => some (SysFrame.encode (.readEntries n))
  | .writeEntry entry => some (SysFrame.encode (.writeEntry entry))
  | .clearTable => some (SysFrame.encode .clearTable)
  | .start => some (SysFrame.encode .start)
  | .quiesce => some (SysFrame.encode .quiesce)
  | .resume => some (SysFrame.encode .resume)
  | .linkReset => some (SysFrame.encode .linkReset)
  | .audit first last => some (SysFrame.encode (.audit first last))
  | .setClock value => some (SysFrame.encode (.setClock value))
  | .readClock => some (SysFrame.encode .readClock)
  | .eventMask mask => some (SysFrame.encode (.eventMask mask))
  | .eventClear events => some (SysFrame.encode (.eventClear events))
  | .readEvents => some (SysFrame.encode .readEvents)
  | .readRecords n => some (SysFrame.encode (.readRecords n))
  | .releaseRecords n => some (SysFrame.encode (.releaseRecords n))
  | .resetCounters index => some (SysFrame.encode (.resetCounters index))
  | .armServiceIn arm => some (SysFrame.encode (.armService arm 0))
  | .armServiceOut arm => some (SysFrame.encode (.armService arm 1))
  | .driveServiceOnline drive => some (SysFrame.encode (.driveService drive 0))
  | .driveServiceOffline drive => some (SysFrame.encode (.driveService drive 1))
  | _ => none

/-- A receiver that is given bytes one after another, and what it reports in all. -/
def feed (rx : Rx) (bs : List Byte) : Rx × List Received :=
  bs.foldl (fun x b => ((x.1.receive b).1, x.2 ++ (x.1.receive b).2)) (rx, [])

/-- The state after bytes have arrived on the system port, one after another. -/
def State.afterBytes (s : State) (bs : List Byte) : State :=
  bs.foldl (fun s b => match exec (.byteReceived .system b 0) s with
    | .next t => t
    | .fault _ | .refused _ => s) s

/-- The reports, limits, timers, typed lines and lines sent: the commands that bring in no level, no byte and no frame of the system. -/
def isInner : Instr → Bool
  | .legDone _ _ _ | .legFault _ _ _ | .homeDone _ _ | .statusReply _ _ | .legTimeout _ | .homeTimeout _ | .statusTimeout _
  | .lingerExpiry _ | .pulseEnd _ | .loadTimerExpiry _ | .releaseTimerExpiry _ | .labelTimerExpiry _ | .waitTimerExpiry _
  | .escalationExpiry _ | .phaseTimerExpiry _ | .panelCharacter _ | .panelLine _ | .ack _ | .ackAll | .list | .panelQuiesce
  | .panelResume | .manualMountDone _ | .manualMountCancel _ | .ringNeededFit _ | .ringNeededReadonly _ | .ringNeededCancel _
  | .labelMismatchAccept _ | .labelMismatchReject _ | .volumeSuspectProceed _ | .volumeSuspectCancel _ | .volumeLostFound _
  | .volumeLostCancel _ | .scratchEmptyDone _ | .scratchEmptyCancel _ | .stationUnknownDone _ | .driveCheckDone _
  | .driveCheckOffline _ | .armOutDone _ | .armOutKeep _ | .panelLineSent | .armFrameSent _ | .clockSecond => true
  | _ => false

end Sys2Proof.Machine
end

