-- ==== Sys2Proof/Certificates/Slice0/Obligations.lean ====
section
/-! DEFINITION. The statements for the provers. -/

open Sys2Proof Sys2Proof.Machine

/-! ### Reset, the queue of commands, and the laws that every command keeps -/

/-- The values the manual gives for power-on, at `State.reset` (R1, R17, R24, R47, R84, R86, R94, R114, R125, R127, R148, R161, R163, R164, R179,
R195 to R197, R200, R205); the laws of the tables and of the part (R6, R8, R48, R55, R94) and the rest hold there. -/
def Obligations.ResetValues : Prop :=
  let s := State.reset
  s.svc = ⟨.starting, false, false, false⟩ ∧ s.port.clock = 0 ∧ s.port.mask = 0x1FFF ∧ s.port.flags = 0 ∧
  s.port.sending = none ∧ s.port.buffer = [] ∧ s.port.replyOwed = [] ∧ s.port.noticeOwed = false ∧ s.port.rx = .hunting ∧
  s.port.current = none ∧ (∀ t : Fin 13, s.port.cursors[t] = ⟨0, false⟩) ∧
  s.dir.entries = [] ∧ s.dir.findings = [] ∧ (∀ i : Fin 8, s.dir.fences[i] = none) ∧
  s.ms.queue = [] ∧ s.sch.pool = [] ∧ s.sch.nextId = 1 ∧ s.sch.claims = [] ∧ (∀ z : Fin 8, s.sch.zones[z] = none) ∧
  ((s.arm .armA).state, (s.arm .armA).column, (s.arm .armA).gripper) = (.unhomed, 0, .empty) ∧
  ((s.arm .armB).state, (s.arm .armB).column, (s.arm .armB).gripper) = (.unhomed, 31, .empty) ∧
  (∀ a, ((s.arm a).order, (s.arm a).outstanding, (s.arm a).failCount, (s.arm a).lastFault) = (none, none, 0, none)) ∧
  (∀ d, ((s.drive d).installed, (s.drive d).state, (s.drive d).volume, (s.drive d).claim, (s.drive d).session) =
    (false, .empty, none, none, none)) ∧
  (s.aud.state, s.aud.outcome, s.aud.deferred) = (.idle, .none, []) ∧
  s.pr.list = [] ∧ s.pr.counter = 1 ∧ s.pr.sending = none ∧ s.pr.held = [] ∧
  s.att.lamp.output = false ∧ s.att.horn.output = false ∧
  s.acc.accounts = [(0, ⟨defaultCode, false, 16, 0, 0, 0, 0, 0, 0⟩)] ∧ s.acc.records = [] ∧ s.acc.reserved = 0 ∧ s.acc.nextSeq = 0 ∧
  (∀ p, ((s.station p).volume, (s.station p).reserved, (s.station p).awaiting, (s.station p).lifted) = (none, none, none, false)) ∧
  s.pending = [] ∧ s.Lawful ∧ s.PartLawful ∧ s.Settled

/-- POWER_ON_RESET completes from every state: what comes in on the pins stands, and beside it the part is as at `State.reset`: debounced
door and presence take the raw levels, a position found high owes an import, and DOOR_OPEN alone of the flags is set, when the door
is found open. -/
def Obligations.PowerOnResetCompletes : Prop :=
  ∀ s : State, ∃ t, exec .powerOnReset s = .next t ∧ t.pending = s.pending ∧
    (∀ d, t.drive d = { State.reset.drive d with raw := (s.drive d).raw }) ∧
    (∀ p, t.station p = { State.reset.station p with
      raw := (s.station p).raw, presence := (s.station p).raw, importOwed := (s.station p).raw }) ∧
    (t.mon.doorRaw, t.mon.doorClosed, t.mon.doorInterval) = (s.mon.doorRaw, s.mon.doorRaw, none) ∧
    t.port = { State.reset.port with flags := if s.mon.doorRaw then 0 else positionBit 8 } ∧
    { t with drv := State.reset.drv, mon := State.reset.mon, port := State.reset.port, pending := [] } = State.reset

/-- A step takes the command at the front of the queue and runs it on the state with the queue's rest; on an empty queue the block idles (DESIGN
CHOICE, log 5). -/
def Obligations.StepTakesTheFront : Prop :=
  (∀ (c : Instr) (rest : List Instr) (s : State),
    step { s with pending := c :: rest } = exec c { s with pending := rest }) ∧
  ∀ s : State, s.pending = [] → step s = .next s

/-- No command stops the part, and none touches the commands that wait behind it. -/
def Obligations.NoCommandStops : Prop := ∀ (c : Instr) (s : State), ∃ t, exec c s = .next t ∧ t.pending = s.pending

/-- Every step leaves the part settled: the condition-bound flags as their conditions give them (R196), no notice owed on an empty summary (R197),
nothing waiting for a free line, system or panel (R135, R195), no frame waiting that may be taken (R194). -/
def Obligations.EveryStepSettles : Prop :=
  ∀ s t : State, s.Settled → s.BufferFits → step s = .next t → t.Settled ∧ t.BufferFits

/-- Every step keeps the laws of the tables and lists: no two volumes with one serial or one home, no two accounts with one code, entry 0 in use, no
two live requests with one tag, and the bounds of the lists. With them it keeps the laws of the part: a gripper or a drive names a volume exactly
when the volume is recorded there (R6, R8; a manual session or a reading takes the name away elsewhere: DEDUCED, log 50), no volume is chosen
for two requests (R48), a request is PROMPTED exactly when one request-related prompt names it (R55), and the zones of the rail lie apart, each
arm in its own, each leg into them (R94, R95). -/
def Obligations.EveryStepKeepsTheLaws : Prop :=
  ∀ s t : State, s.Lawful → step s = .next t → t.Lawful ∧ (s.PartLawful → t.PartLawful)

/-- The frame of the reports, limits, timers, lines typed and lines sent: none of them changes what comes in from outside or what only the system
writes: the levels on the lines, the door, the identities of volumes and accounts, fences, templates, settings, mask and cursors, the
frames received, and the records already written; the requests that stay keep what they were accepted with, in their order. The clock is
changed by its second alone. -/
def Obligations.InnerCommandsKeepTheInputs : Prop :=
  ∀ (c : Instr) (s t : State), isInner c = true → s.Settled → Canonical s.dir.entries → Canonical s.acc.accounts →
    exec c s = .next t →
    (∀ d, (t.drive d).wiring = (s.drive d).wiring) ∧ (∀ p, (t.station p).wiring = (s.station p).wiring) ∧
    (t.mon.doorRaw, t.mon.doorClosed, t.mon.doorInterval) = (s.mon.doorRaw, s.mon.doorClosed, s.mon.doorInterval) ∧
    t.volumeIdentities = s.volumeIdentities ∧ t.accountIdentities = s.accountIdentities ∧ t.dir.fences = s.dir.fences ∧
    t.pr.templates = s.pr.templates ∧ t.port.settings = s.port.settings ∧ t.port.mask = s.port.mask ∧
    t.port.cursors = s.port.cursors ∧ t.port.current = s.port.current ∧ t.port.rx = s.port.rx ∧ t.port.buffer = s.port.buffer ∧
    s.acc.records <+: t.acc.records ∧ t.requestsAsked.Sublist s.requestsAsked ∧
    t.port.clock = (if c = .clockSecond then s.port.clock + 1 else s.port.clock)

/-! ### Frames and the receiver (R191 to R194) -/

/-- The fields of every frame come back from its class and body: no byte of a layout is dropped or moved. -/
def Obligations.FramesRoundTrip : Prop :=
  ∀ f : SysFrame, f.wf = true → parseFrame f.encode.1 f.encode.2 = f

/-- A hunting receiver that is given the bytes of a frame reports nothing before the last of them, then that frame, and hunts again. -/
def Obligations.ReceiverTakesWholeFrames : Prop :=
  ∀ (cls : Byte) (body : List Byte), body.length ≤ maxBody →
    (∀ n, 0 < n → n < body.length + 4 →
      feed .hunting ((frameBytes cls body).take n) = (.collecting ((frameBytes cls body).take n).tail, [])) ∧
    feed .hunting (frameBytes cls body) = (.hunting, [.frame cls body])

/-- The check byte brings the sum of length, class, body and check byte to 0; the start byte C5 is not in the sum, and the length counts
class and body. -/
def Obligations.EnvelopeOfAFrame : Prop :=
  ∀ (cls : Byte) (body : List Byte), body.length ≤ maxBody →
    ∃ check, frameBytes cls body = 0xC5 :: byte (body.length + 1) :: cls :: body ++ [check] ∧
      ((byte (body.length + 1) :: cls :: body ++ [check]).map BitVec.toNat).sum % 256 = 0

/-- Bytes that arrive one after another on the system port act, at the last of them, as the command whose frame they are. -/
def Obligations.BytesActAsTheirCommand : Prop :=
  ∀ (c : Instr) (cls : Byte) (body : List Byte) (s : State), c.wf = true → sentBy c = some (cls, body) →
    s.Settled → s.BufferFits → s.port.rx = .hunting →
    exec c s = .next (s.afterBytes (frameBytes cls body))

/-- The body of the frame that a report of an arm controller is, and the arm (section 11.7). -/
def Sys2Proof.Machine.reportBody : Instr → Option (ArmId × List Byte)
  | .legDone a r _ => some (a, [1, r.loaded, r.reading] ++ r.serial)
  | .legFault a code loaded => some (a, [2, code, loaded])
  | .homeDone a column => some (a, [3, column])
  | .statusReply a r => some (a, [4, r.column, r.loaded, r.faultFlag, r.reading] ++ r.serial)
  | _ => none

/-- Bytes on any port: a byte that is no start byte is dropped by a hunting receiver with no event, a start byte begins a frame, and a length byte
of 0 or above 240 discards the frame and raises LINK_ERROR, as a gap discards a partial frame; to a hunting receiver a gap is nothing (R192). A frame whose check sum is
not 0 is discarded with LINK_ERROR, and the bytes after its start byte are examined again as if newly arrived (R192). A whole report on an arm port acts
as its command; a whole frame there that is none is discarded with LINK_ERROR (R193). -/
def Obligations.HuntingAndDiscard : Prop :=
  (∀ (p : PortId) (b : Byte) (ticks : Nat) (s : State), s.Settled →
    (s.rx p = .hunting → b ≠ 0xC5 → exec (.byteReceived p b ticks) s = .next s) ∧
    (s.rx p = .hunting → b = 0xC5 → exec (.byteReceived p b ticks) s = .next (s.setRx p (.collecting []))) ∧
    (s.rx p = .collecting [] → b.toNat = 0 ∨ 240 < b.toNat →
      exec (.byteReceived p b ticks) s = .next ((s.setRx p .hunting).raise .linkError).finishStep) ∧
    (s.rx p = .collecting [] → 0 < b.toNat → b.toNat ≤ 240 →
      exec (.byteReceived p b ticks) s = .next (s.setRx p (.collecting [b]))) ∧
    (s.rx p = .hunting → exec (.gapTimeout p) s = .next s) ∧
    (∀ bs, s.rx p = .collecting bs → exec (.gapTimeout p) s = .next ((s.setRx p .hunting).raise .linkError).finishStep)) ∧
  (∀ (p : PortId) (b length : Byte) (more : List Byte) (ticks : Nat) (s : State), s.rx p = .collecting (length :: more) →
    1 ≤ length.toNat → length.toNat ≤ 240 → more.length = length.toNat →
    ((length :: more ++ [b]).map BitVec.toNat).sum % 256 ≠ 0 →
    let again := feed .hunting (length :: more ++ [b])
    exec (.byteReceived p b ticks) s = .next (again.2.foldl (fun u x => u.takeReceived p ticks x)
      ((s.setRx p again.1).raise .linkError)).finishStep ∧
    ((∀ x ∈ length :: more ++ [b], x ≠ 0xC5) → again = (.hunting, []))) ∧
  (∀ (a : ArmId) (b : Byte) (bs : List Byte) (ticks : Nat) (s : State), s.rx (.arm a) = .collecting bs →
    (∀ c body, reportBody c = some (a, body) → c.wf = true → (∀ r t, c = .legDone a r t → t = ticks) →
      frameBytes 7 body = 0xC5 :: bs ++ [b] →
      exec (.byteReceived (.arm a) b ticks) s = exec c (s.setRx (.arm a) .hunting)) ∧
    (∀ cls body, frameBytes cls body = 0xC5 :: bs ++ [b] → body.length ≤ maxBody → parseReport cls body = none →
      exec (.byteReceived (.arm a) b ticks) s = .next ((s.setRx (.arm a) .hunting).raise .linkError).finishStep)) ∧
  (∀ (cls : Byte) (body : List Byte), cls ≠ 7 ∨ body = [] ∨ (body.headD 0).toNat = 0 ∨ 4 < (body.headD 0).toNat →
    parseReport cls body = none)

/-- A whole frame that finds 4 in the buffer is discarded as an overrun with LINK_ERROR; one that finds room behind an answer still to be handed out, or
behind a LINK RESET, joins the end of the buffer and waits; one that arrives while the line is in use, with no answer waiting, is taken at once, and
its answer waits for the line. -/
def Obligations.FramesBehindALineInUse : Prop :=
  ∀ (c : Instr) (cls : Byte) (body : List Byte) (s : State), c.wf = true → sentBy c = some (cls, body) → s.Settled →
    (s.port.buffer.length = 4 → exec c s = .next (s.raise .linkError).finishStep) ∧
    (s.port.buffer.length < 4 → s.port.immediate ≠ [] ∨ s.port.resetting = true →
      exec c s = .next { s with port := { s.port with buffer := s.port.buffer ++ [parseFrame cls body] } }) ∧
    (s.port.sending ≠ none → s.port.immediate = [] → s.port.resetting = false →
      ∃ t, exec c s = .next t ∧ t.port.immediate = (s.takeFrame (parseFrame cls body)).2 ∧ t.port.sending = s.port.sending ∧
        t.port.buffer = [])

/-- SHORT_REQUEST, UNKNOWN_REQUEST_KIND and UNKNOWN_FRAME at a free port: answered REFUSED(BAD_FIELD) with the tag the body carries, by R50 with BAD_FIELD at the
least, and UNKNOWN echoing the first body byte; a LABEL too short for its layout has no answer. Nothing else changes. -/
def Obligations.FramesThatAreNoCommand : Prop :=
  ∀ (s : State) (body : List Byte), s.Free →
    ((Instr.shortRequest body).wf = true → ∀ t, t = (match body with
        | _ :: hi :: lo :: _ => hi ++ lo
        | _ => (0 : Half)) →
      exec (.shortRequest body) s =
        .next (if body.head? = some 6 then s else s.sends [.reply t (.refused .badField) false])) ∧
    (∀ k hi lo rest, body = k :: hi :: lo :: rest → (Instr.unknownRequestKind body).wf = true → ∃ r,
      exec (.unknownRequestKind body) s = .next (s.sends [.reply (hi ++ lo) (.refused r) false]) ∧
        (s.svc.state ≠ .starting → s.request? (hi ++ lo) = none → s.ms.queue.length < 64 → r = .badField)) ∧
    (∀ cls, (Instr.unknownFrame cls body).wf = true →
      exec (.unknownFrame cls body) s = .next (s.sends [.response 0 true 2 (body.headD 0) [] false]))

/-! ### The commands of the system port (R171 to R174, R191, R195 to R207) -/

/-- SET CLOCK sets the clock at once and is answered with it, READ CLOCK changes nothing and is answered with the clock, and the end of a second adds one to
it, wrapping (R205). -/
def Obligations.ClockCommands : Prop :=
  (∀ (s : State) (v : Stamp), s.Free →
    exec (.setClock v) s = .next ({ s with port := { s.port with clock := v } }.sends [doneOf 10 (bytesOfStamp v)])) ∧
  (∀ s : State, s.Free → exec .readClock s = .next (s.sends [doneOf 11 (bytesOfStamp s.port.clock)])) ∧
  (∀ s : State, s.Settled →
    exec .clockSecond s = .next { s with port := { s.port with clock := s.port.clock + 1 } })

/-- EVENT MASK, EVENT CLEAR and READ EVENTS (R198). What is sent carries the masked summary as it stands after the command; the mark of an owed
notice, clear at a free line, stays clear, because a summary that has become non-empty goes out with the response. -/
def Obligations.EventCommands : Prop :=
  (∀ (s : State) (m : Half), s.Free →
    exec (.eventMask m) s = .next { s with port := { s.port with
      mask := m &&& 0x1FFF
      sending := some ⟨doneOf 12 (bytesOfHalf (m &&& 0x1FFF)), s.port.flags &&& (m &&& 0x1FFF)⟩ } }) ∧
  (∀ (s : State) (e : Half), s.Free →
    let flags := s.port.flags &&& ~~~(e &&& 0x1E4F)
    flags &&& 0x01B0 = s.conditionFlags ∧ flags &&& e = s.conditionFlags &&& e ∧
    exec (.eventClear e) s = .next { s with port := { s.port with
      flags := flags
      sending := some ⟨doneOf 13 (bytesOfHalf (s.conditionFlags &&& e)), flags &&& s.port.mask⟩ } }) ∧
  (∀ s : State, s.Free →
    exec .readEvents s =
      .next (s.sends [doneOf 14 (bytesOfHalf s.port.flags ++ bytesOfHalf s.port.mask ++ [byte s.svc.state.code])]))

/-- The largest sizes of the thirteen tables, DIRECTORY first (R200). -/
def Sys2Proof.Machine.tableSizes : List Nat := [2048, 2048, 8, 16, 64, 32, 3, 42, 32, 64, 8, 65, 51]

/-- The present end of a table: a table of varying size ends with what it holds (R200). -/
def Sys2Proof.Machine.presentEnd (s : State) (t : Fin 13) : Nat :=
  if t = 4 then s.ms.queue.length
  else if t = 5 then s.sch.pool.length
  else if t = 7 then s.pr.list.length + s.pr.owed.length
  else if t = 11 then 1 + s.aud.deferred.length
  else tableSizes.getD t.val 0

/-- SELECT sets the current table and its cursor and gives the table's present end; an unknown table, an index not below the largest size or a wrap
flag that is neither yes nor no is BAD_FIELD, and changes nothing (R200, R208). -/
def Obligations.SelectCommand : Prop :=
  (∀ (s : State) (t : Fin 13) (index : Half) (wrap : Bool), s.Free → index.toNat < tableSizes.getD t.val 0 →
    exec (.select (byte (t.val + 1)) index (if wrap then 1 else 0)) s =
      .next ({ s with port := { s.port with cursors := s.port.cursors.set t ⟨index.toNat, wrap⟩, current := some t } }.sends
        [doneOf 1 (half (presentEnd s t))])) ∧
  (∀ (s : State) (table wrap : Byte) (index : Half), s.Free →
    table.toNat = 0 ∨ 13 < table.toNat ∨ 1 < wrap.toNat ∨ tableSizes.getD (table.toNat - 1) 0 ≤ index.toNat →
    exec (.select table index wrap) s = .next (s.sends [refusedOf 1 5]))

/-- READ ENTRIES gives entries in index order from the cursor, to the table's end, or on from entry 0 with the wrap flag, no entry twice; the cursor
holds the index after the last given; a count outside 1 to 8 is BAD_FIELD, no current table NOT_SELECTED (R200, R201). That NOT_SELECTED comes before the
count is judged (DEDUCED, log 72), and the first index given with no entry (DESIGN CHOICE, log 73), are the model's. -/
def Obligations.ReadEntriesCommand : Prop :=
  (∀ (s : State) (n : Byte), s.Free → s.port.current = none → exec (.readEntries n) s = .next (s.sends [refusedOf 2 24])) ∧
  (∀ (s : State) (n : Byte) (t : Fin 13), s.Free → s.port.current = some t → n.toNat < 1 ∨ 8 < n.toNat →
    exec (.readEntries n) s = .next (s.sends [refusedOf 2 5])) ∧
  (∀ (s : State) (n : Byte) (t : Fin 13) (i : Nat), s.Free → s.port.current = some t → 1 ≤ n.toNat → n.toNat ≤ 8 →
    s.port.cursors[t] = ⟨i, false⟩ →
    let k := min n.toNat (presentEnd s t - i)
    exec (.readEntries n) s =
      .next ({ s with port := { s.port with cursors := s.port.cursors.set t ⟨i + k, false⟩ } }.sends
        (responseOf 2 (.done (half i ++ [byte k] ++ (List.range k).flatMap (fun j => s.entryBytes (tableAt t) (j + i)))) false))) ∧
  (∀ (s : State) (n : Byte) (t : Fin 13) (i : Nat), s.Free → s.port.current = some t → 1 ≤ n.toNat → n.toNat ≤ 8 →
    s.port.cursors[t] = ⟨i, true⟩ →
    let e := presentEnd s t
    let k := min n.toNat e
    let start := if i < e then i else 0
    exec (.readEntries n) s =
      .next ({ s with port := { s.port with
          cursors := s.port.cursors.set t ⟨if e = 0 then 0 else (start + k) % e, true⟩ } }.sends
        (responseOf 2 (.done (half start ++ [byte k] ++ (List.range k).flatMap (fun j => s.entryBytes (tableAt t) ((start + j) % e))))
          false)))

/-- The parts of a response are together its data, each fits a frame of at most 240 bytes after its length, they are numbered from 0, and the last alone
is marked (R191). -/
def Obligations.ResponsesInParts : Prop :=
  ∀ (code : Byte) (data : List Byte), data.length < 25000 → ∃ ps : List (List Byte),
    ps ≠ [] ∧ ps.flatten = data ∧
    responseOf code (.done data) false =
      ps.zipIdx.map (fun x => OutMsg.response x.2 (x.2 + 1 == ps.length) 0 code x.1 false) ∧
    (∀ p ∈ ps, ∀ (part : Nat) (last : Bool) (summary : Half),
      ((OutMsg.response part last 0 code p false).body summary).length ≤ 239) ∧
    (data.length ≤ 234 → ps = [data])

/-- WRITE ENTRY with no current table, on a read-only table, or at the end of a table: the refusal, and the cursor stays (R200, R202). -/
def Obligations.WriteEntryRefusals : Prop :=
  ∀ (s : State) (entry : List Byte), s.Free →
    (s.port.current = none → exec (.writeEntry entry) s = .next (s.sends [refusedOf 3 24])) ∧
    (∀ t ∈ ([1, 4, 5, 6, 7, 10, 11] : List (Fin 13)), s.port.current = some t →
      exec (.writeEntry entry) s = .next (s.sends [refusedOf 3 22])) ∧
    (∀ t ∈ ([0, 2, 3, 8, 9, 12] : List (Fin 13)), s.port.current = some t → tableSizes.getD t.val 0 ≤ s.port.cursors[t].index →
      exec (.writeEntry entry) s = .next (s.sends [refusedOf 3 23]))

/-- Where the cursor of a table goes after a taken write: to the next index, after the last to 0 with the wrap flag and to the end without (R202). -/
def Sys2Proof.Machine.movedCursor (t : Fin 13) (c : Cursor) : Cursor :=
  ⟨if c.index + 1 < tableSizes.getD t.val 0 then c.index + 1 else if c.wrap then 0 else tableSizes.getD t.val 0, c.wrap⟩

/-- The cursor of the current table has moved after a taken write (R202). -/
def Sys2Proof.Machine.moved (s : State) (t : Fin 13) : State :=
  { s with port := { s.port with cursors := s.port.cursors.set t (movedCursor t s.port.cursors[t]) } }

/-- The account a taken write leaves in use: drives in use are kept, and the counters with the code; a new account or a new code starts its counters at 0
(R176, R177). -/
def Sys2Proof.Machine.accountAfter (old : Option Account) (code : Text) (closed : Bool) (limit : Nat) : Account :=
  match old with
  | none => ⟨code, closed, limit, 0, 0, 0, 0, 0, 0⟩
  | some x =>
    if x.code = code then { x with closed := closed, limit := limit }
    else ⟨code, closed, limit, x.inUse, 0, 0, 0, 0, 0⟩

/-- WRITE ENTRY on ACCOUNTS: BAD_FIELD, then IN_USE, then DUPLICATE_CODE, else it is taken (R175): a freed entry is free, a new or renamed one has its
counters 0, a kept code keeps them (R176, R177). -/
def Obligations.AccountWrites : Prop :=
  ∀ (s : State) (a used state limit : Byte) (code rest : List Byte), s.Free → s.port.current = some 9 →
    s.port.cursors[(9 : Fin 13)].index < 64 → code.length = 8 → 21 ≤ rest.length →
    let i := s.port.cursors[(9 : Fin 13)].index
    let entry := a :: used :: code ++ state :: limit :: rest
    let bad := 1 < used.toNat ∨ (used = 0 ∧ i = 0) ∨
      (used = 1 ∧ (¬(isPaddedName code = true) ∨ 16 < limit.toNat ∨ 1 < state.toNat ∨ (i = 0 ∧ code ≠ defaultCode)))
    let held := ∃ x, s.account? i = some x ∧ (used = 0 ∨ x.code ≠ code) ∧ (0 < x.inUse ∨ ∃ r ∈ s.ms.queue, r.account = i)
    let double := used = 1 ∧ ∃ x ∈ s.acc.accounts, x.1 ≠ i ∧ x.2.code = code
    (bad → exec (.writeEntry entry) s = .next (s.sends [refusedOf 3 5])) ∧
    (¬bad → held → exec (.writeEntry entry) s = .next (s.sends [refusedOf 3 10])) ∧
    (¬bad → ¬held → double → exec (.writeEntry entry) s = .next (s.sends [refusedOf 3 21])) ∧
    (¬bad → ¬held → ¬double → used = 0 →
      exec (.writeEntry entry) s =
        .next (({ moved s 9 with acc := { s.acc with accounts := eraseAt i s.acc.accounts } }).sends [doneOf 3 []])) ∧
    (¬bad → ¬held → ¬double → used = 1 →
      exec (.writeEntry entry) s = .next (({ moved s 9 with acc := { s.acc with
        accounts := insertAt i (accountAfter (s.account? i) code (state == 1) limit.toNat) s.acc.accounts } }).sends [doneOf 3 []]))

/-- The range of each settings item (section 11.9); a cadence item, 26 to 33, has none. -/
def Sys2Proof.Machine.itemRanges : List (Nat × Nat) :=
  [(1, 15), (0, 3), (0, 65535), (0, 65535), (0, 65535), (0, 65535), (1, 15), (5, 120), (5, 300), (10, 600), (5, 255), (0, 50), (1, 255)] ++
  [(1, 50), (0, 255), (1, 255), (0, 255), (1, 255), (0, 255), (1, 255), (10, 255), (1, 30), (0, 16), (1, 60), (1, 60), (1, 60)] ++
  List.replicate 8 (0, 0) ++ [(128, 255), (0, 1), (0, 1), (0, 1), (0, 1), (0, 1), (0, 1), (10, 255)] ++ List.replicate 9 (0, 31)

/-- What a settings write gives (R149, R203, section 11.9): a number within its item's range, the linger one of 0, 4, 8 and 16, a window's minimum not above its
maximum; a cadence of a known mode whose times are not 0. -/
def Sys2Proof.Machine.readsSettings : Prop :=
  (∀ (s : State) (i n : Nat), i < 26 ∨ 34 ≤ i → i < 51 →
    (s.numberFits i n = true ↔ (itemRanges.getD i (0, 0)).1 ≤ n ∧ n ≤ (itemRanges.getD i (0, 0)).2 ∧
      (i = 22 → n = 0 ∨ n = 4 ∨ n = 8 ∨ n = 16) ∧ (i = 14 ∨ i = 16 ∨ i = 18 → n ≤ s.setting (i + 1)) ∧
      (i = 15 ∨ i = 17 ∨ i = 19 → s.setting (i - 1) ≤ n))) ∧
  (∀ (s : State) (i : Nat) (a x y z : Byte) (rest : List Byte), i < 51 →
    s.writtenSetting i (a :: x :: y :: z :: rest) =
      if i < 26 ∨ 34 ≤ i then (if z = 0 ∧ s.numberFits i (x ++ y : Half).toNat = true then some (.number (x ++ y : Half).toNat) else none)
      else if x = 0 then some (.cadence .off)
      else if x = 1 then some (.cadence .steady)
      else if x = 2 ∧ y ≠ 0 then some (.cadence (.oneShot y.toNat))
      else if x = 3 ∧ y ≠ 0 ∧ z ≠ 0 then some (.cadence (.blink y.toNat z.toNat))
      else none)

/-- WRITE ENTRY on TEMPLATES takes a text of up to 64 printable characters, an empty one making the entry empty, and refuses any other BAD_FIELD
(R132). On SETTINGS, items 0 to 25 take a number within the item's range and its window's other bound, and every item takes the value the
owner takes, or refuses BAD_FIELD (R203); which it takes is said by item (R149, section 11.9). -/
def Obligations.TemplateAndSettingWrites : Prop :=
  readsSettings ∧
  (∀ (s : State) (a n : Byte) (text rest : List Byte), s.Free → s.port.current = some 8 → s.port.cursors[(8 : Fin 13)].index < 32 →
    text.length = n.toNat →
    exec (.writeEntry (a :: n :: text ++ rest)) s =
      .next (if n.toNat ≤ 64 ∧ (∀ c ∈ text, 32 ≤ c.toNat ∧ c.toNat ≤ 126) then
          ({ moved s 8 with pr := { s.pr with
            templates := s.pr.templates.setIfInBounds s.port.cursors[(8 : Fin 13)].index text } }).sends [doneOf 3 []]
        else s.sends [refusedOf 3 5])) ∧
  (∀ (s : State) (a hi lo : Byte) (rest : List Byte), s.Free → s.port.current = some 12 →
    let i := s.port.cursors[(12 : Fin 13)].index
    i < 26 →
    exec (.writeEntry (a :: hi :: lo :: 0 :: rest)) s =
      .next (if s.numberFits i (hi ++ lo : Half).toNat = true then
          ({ moved s 12 with port := { (moved s 12).port with
            settings := s.port.settings.setIfInBounds i (.number (hi ++ lo : Half).toNat) } }).sends [doneOf 3 []]
        else s.sends [refusedOf 3 5])) ∧
  (∀ (s : State) (entry : List Byte), s.Free → s.port.current = some 12 →
    let i := s.port.cursors[(12 : Fin 13)].index
    i < 51 →
    (s.writtenSetting i entry = none → exec (.writeEntry entry) s = .next (s.sends [refusedOf 3 5])) ∧
    (∀ v, s.writtenSetting i entry = some v → ∃ t, exec (.writeEntry entry) s = .next t ∧
      t.port.settings = s.port.settings.setIfInBounds i v ∧ t.port.sending = some ⟨doneOf 3 [], t.summary⟩))

/-- The fields of a directory write in their layout, and of a fence or drive write (sections 11.4 and 11.5): which are in range, and what each gives. The bits of a
density set that name none are ignored (log 52). -/
def Sys2Proof.Machine.readsEntries : Prop :=
  (∀ (serial rest : List Byte) (h m : Half) (loc x y use pool dens ring flags errors : Byte) (last : Stamp), serial.length = 6 →
    writtenVolume (serial ++ bytesOfHalf h ++ [loc, x, y, use, pool, dens, ring] ++ bytesOfHalf m ++ bytesOfStamp last ++
        flags :: errors :: rest) =
      if isPaddedName serial = true ∧ (h = 0xFFFF ∨ h.toNat < 2048) ∧ (loc = 0 ∨ loc = 4 ∨ loc = 5) ∧ ¬(loc = 0 ∧ h = 0xFFFF) ∧
          (use = 0 ∨ use = 1 ∧ pool.toNat ≤ 7) ∧ dens.toNat ≤ 3 ∧ ring.toNat ≤ 2 ∧ errors.toNat ≤ 15 then
        some {
          serial := serial, home := if h = 0xFFFF then none else some h.toNat
          loc := if loc = 0 then .home else if loc = 4 then .outside else .missing
          use := if use = 0 then .own else .scratch pool.toNat
          density := if dens = 0 then none else if dens = 1 then some .d800 else if dens = 2 then some .d1600 else some .d6250
          ring := if ring = 0 then .fitted else if ring = 1 then .notFitted else .unknown
          mounts := m.toNat, lastMount := if flags.getLsbD 0 then some last else none, errors := errors.toNat
          suspect := flags.getLsbD 1 }
      else none) ∧
  (∀ (i defined kinds enabled : Byte) (first last : Half) (rest : List Byte),
    writtenFence (i :: defined :: bytesOfHalf first ++ bytesOfHalf last ++ kinds :: enabled :: rest) =
      if 1 < defined.toNat then none else if defined = 0 then some none
      else if enabled.toNat ≤ 1 ∧ first.toNat < 2048 ∧ last.toNat < 2048 ∧ first.toNat ≤ last.toNat ∧ kinds &&& 7 ≠ 0 then
        some (some ⟨first.toNat, last.toNat, kinds.getLsbD 0, kinds.getLsbD 1, kinds.getLsbD 2, enabled == 1⟩)
      else none) ∧
  (∀ (i installed column dens online debounce edges : Byte) (seconds loads : Stamp) (rest : List Byte), 20 ≤ rest.length →
    writtenDrive (i :: installed :: column :: dens :: online :: bytesOfStamp seconds ++ bytesOfStamp loads ++
        debounce :: edges :: rest) =
      if installed.toNat ≤ 1 ∧ online.toNat ≤ 1 ∧ column.toNat ≤ 31 ∧ dens &&& 7 ≠ 0 ∧ debounce ≠ 0 then
        some ⟨installed == 1, column.toNat, ⟨dens.getLsbD 0, dens.getLsbD 1, dens.getLsbD 2⟩, online == 1, seconds, loads, debounce.toNat,
          ⟨edges.getLsbD 0, edges.getLsbD 1, edges.getLsbD 2, edges.getLsbD 3, edges.getLsbD 4, edges.getLsbD 5⟩⟩
      else none)

/-- A write or a clearing that other blocks are told of is taken: the cursor has moved, `u` is what the owner leaves, and the other blocks have acted. -/
def Sys2Proof.Machine.taken (c : Instr) (code : Byte) (s moved u : State) : Prop :=
  exec c s = .next ((moved.afterAct u).refreshConditions.sends [doneOf code []]).panelPump

/-- The slot map follows the findings: a slot with one is FOREIGN with it (R4). -/
def Sys2Proof.Machine.slotsFollow (s u : State) (state : Nat → SlotState) : Prop :=
  (∀ n f, u.finding? n = some f → u.slotState n = .foreign f) ∧ (∀ n, u.finding? n = none → u.slotState n = state n) ∧
    u.drv = s.drv ∧ u.ms = s.ms ∧ u.sch = s.sch

/-- A taken write leaves an entry as written, with the slot map and the station table in step (R21). -/
def Sys2Proof.Machine.entryWritten (s u : State) (i : Nat) (v : Volume) : Prop :=
  (∀ e, u.vol? e = if e = i then some v else s.vol? e) ∧
  (∀ n, u.finding? n = if v.loc = .home ∧ v.home = some n ∧ s.finding? n = some (.serial v.serial) then none else s.finding? n) ∧
  slotsFollow s u (fun n =>
    if v.home = some n then (if v.loc = .home then .occupied i else .vacant i)
    else if (s.vol? i).bind (·.home) = some n then .free else s.slotState n) ∧
  (∀ p, u.station p =
    if (s.vol? i).map (·.loc) = some (.atStation p) then { s.station p with volume := none } else s.station p) ∧
  (v.loc = .home → Notice.walk ∈ u.notices)

/-- A taken write frees an entry: its slot is FOREIGN where the reel was HOME, and a position that recorded it records no volume (R22). -/
def Sys2Proof.Machine.entryFreed (s u : State) (i : Nat) : Prop :=
  (∀ e, u.vol? e = if e = i then none else s.vol? e) ∧
  (∀ n, u.finding? n = match s.vol? i with
    | some v => if v.loc = .home ∧ v.home = some n then some (.serial v.serial) else s.finding? n
    | none => s.finding? n) ∧
  slotsFollow s u (fun n => if (s.vol? i).bind (·.home) = some n then .free else s.slotState n) ∧
  ∀ p, u.station p =
    if (s.vol? i).isSome ∧ (s.station p).volume = some i then { s.station p with volume := none } else s.station p

/-- A drive with the fields of a taken write, its levels and its state after a change of installed (R25, R26, R46). -/
def Sys2Proof.Machine.rewired (x : Drive) (w : DriveFields) : Drive :=
  let same := x.installed = w.installed
  { x with
    installed := w.installed, column := w.column, densities := w.densities, useSeconds := w.useSeconds, loadCount := w.loadCount
    debounce := w.debounce, edges := w.edges
    sense := if same then x.sense else if w.installed then x.raw else ⟨false, false, false⟩
    intervals := if same then x.intervals else ⟨none, none, none⟩
    pulse := if x.installed = true ∧ w.installed = false then none else x.pulse
    state := if x.installed = false ∧ w.installed = true ∧ (x.raw.loaded = true ∨ x.raw.released = true) then .unmanaged else x.state }

/-- A taken drive write: the fields as written, the effects of installed and online (R26, R45, R46), and the notice of a drive brought online. -/
def Sys2Proof.Machine.driveWritten (s u : State) (d : Fin 16) (w : DriveFields) : Prop :=
  let x := s.drive d
  let y := rewired x w
  let high := y.sense.loaded = true ∨ y.sense.released = true
  (y.online = w.online → u.drive d = y) ∧
  (y.online = false → w.online = true → u.drive d = { y with
    online := true, state := if y.state ≠ .offline then y.state else if high then .unmanaged else .empty }) ∧
  (y.online = true → w.online = false → y.state ≠ .check → u.drive d =
    if y.state = .offline then y
    else { y with online := false, state := if y.state = .empty ∨ y.state = .unmanaged then .offline else y.state }) ∧
  (y.online = true → w.online = false → y.state = .check → (u.drive d).online = false ∧
    (u.drive d).state = if y.sense.released then .released else if y.sense.loaded then .unloading else .offline) ∧
  (y.state ≠ .check → (∀ d', d' ≠ d → u.drive d' = s.drive d') ∧ u.dir = s.dir) ∧
  (x.state = .empty ∨ x.state = .offline → ¬(x.installed = true ∧ x.online = true) →
    (u.drive d).installed = true → (u.drive d).online = true → (u.drive d).state = .empty → Notice.walk ∈ u.notices)

/-- WRITE ENTRY on DIRECTORY, FENCES and DRIVES: the checks of R20, R17 and R46 in their order, and the whole entry a taken write leaves, with the slot map and the
stations (R21, R22) or the drive's levels, state and online (R26, R45, R46); of the rest of the state a refused write changes nothing. An in-use or a
yes or no byte above 1 is BAD_FIELD (log 6); the corners are those of logs 33, 34, 47, 52 and 75. -/
def Obligations.DirectoryFenceAndDriveWrites : Prop :=
  readsEntries ∧
  (∀ (s : State) (a b used : Byte) (fields : List Byte), s.Free → s.Lawful → s.port.current = some 0 →
    s.port.cursors[(0 : Fin 13)].index < 2048 → 27 ≤ fields.length →
    let i := s.port.cursors[(0 : Fin 13)].index
    let entry := a :: b :: used :: fields
    (1 < used.toNat → exec (.writeEntry entry) s = .next (s.sends [refusedOf 3 5])) ∧
    (used = 0 → s.protected? i = true → exec (.writeEntry entry) s = .next (s.sends [refusedOf 3 10])) ∧
    (used = 0 → s.protected? i = false → (∃ t, exec (.writeEntry entry) s = .next t ∧
      t.port.sending = some ⟨doneOf 3 [], t.summary⟩ ∧ t.volumeIdentities = eraseAt i s.volumeIdentities) ∧
      ∃ u, taken (.writeEntry entry) 3 s (moved s 0) u ∧ entryFreed s u i) ∧
    (used = 1 → writtenVolume fields = none → exec (.writeEntry entry) s = .next (s.sends [refusedOf 3 5])) ∧
    (∀ v, used = 1 → writtenVolume fields = some v →
      (s.protected? i = true → exec (.writeEntry entry) s = .next (s.sends [refusedOf 3 10])) ∧
      (s.protected? i = false → (∃ x ∈ s.dir.entries, x.1 ≠ i ∧ x.2.serial = v.serial) →
        exec (.writeEntry entry) s = .next (s.sends [refusedOf 3 19])) ∧
      (s.protected? i = false → (¬∃ x ∈ s.dir.entries, x.1 ≠ i ∧ x.2.serial = v.serial) → s.slotTaken i v = true →
        exec (.writeEntry entry) s = .next (s.sends [refusedOf 3 20])) ∧
      (s.protected? i = false → (¬∃ x ∈ s.dir.entries, x.1 ≠ i ∧ x.2.serial = v.serial) → s.slotTaken i v = false →
        (∃ t, exec (.writeEntry entry) s = .next t ∧ t.port.sending = some ⟨doneOf 3 [], t.summary⟩ ∧
          t.volumeIdentities = insertAt i (v.serial, v.home) s.volumeIdentities) ∧
        ∃ u, taken (.writeEntry entry) 3 s (moved s 0) u ∧ entryWritten s u i v))) ∧
  (∀ (s : State) (entry : List Byte), s.Free → s.port.current = some 2 → s.port.cursors[(2 : Fin 13)].index < 8 →
    (writtenFence entry = none → exec (.writeEntry entry) s = .next (s.sends [refusedOf 3 5])) ∧
    (∀ f, writtenFence entry = some f → ∃ t, exec (.writeEntry entry) s = .next t ∧
      t.port.sending = some ⟨doneOf 3 [], t.summary⟩ ∧
      t.dir.fences = s.dir.fences.setIfInBounds s.port.cursors[(2 : Fin 13)].index f)) ∧
  (∀ (s : State) (entry : List Byte) (d : Fin 16), s.Free → s.port.current = some 3 → s.port.cursors[(3 : Fin 13)].index = d.val →
    (writtenDrive entry = none → exec (.writeEntry entry) s = .next (s.sends [refusedOf 3 5])) ∧
    (∀ w, writtenDrive entry = some w →
      let x := s.drive d
      let rests := x.state = .empty ∨ x.state = .offline
      let same := x.installed = w.installed ∧ x.column = w.column ∧ x.densities = w.densities
      (¬rests → ¬same → exec (.writeEntry entry) s = .next (s.sends [refusedOf 3 10])) ∧
      (rests ∨ same → (∃ t, exec (.writeEntry entry) s = .next t ∧ t.port.sending = some ⟨doneOf 3 [], t.summary⟩ ∧
        ((t.drive d).installed, (t.drive d).column, (t.drive d).densities) = (w.installed, w.column, w.densities) ∧
        ((t.drive d).debounce, (t.drive d).edges) = (w.debounce, w.edges)) ∧
        ∃ u, taken (.writeEntry entry) 3 s (moved s 3) u ∧ driveWritten s u d w)))

/-- The rack and the positions after the directory is cleared: a reel that was HOME is a finding, any other slot is FREE or keeps its finding, and a position that
recorded an entry records none (R22). -/
def Sys2Proof.Machine.directoryCleared (s u : State) : Prop :=
  u.dir.entries = [] ∧
  (∀ x ∈ s.dir.entries, x.2.loc = .home → ∀ n, x.2.home = some n → u.slotState n = .foreign (.serial x.2.serial)) ∧
  (∀ n, (∀ x ∈ s.dir.entries, ¬(x.2.loc = .home ∧ x.2.home = some n)) → u.slotState n = match s.finding? n with
    | some f => .foreign f
    | none => .free) ∧
  ∀ p, u.station p =
    if ((s.station p).volume.bind s.vol?).isSome then { s.station p with volume := none } else s.station p

/-- CLEAR TABLE: NOT_SELECTED with no current table, READ_ONLY on a read-only one; TEMPLATES all empty, FENCES all unused and SETTINGS at their defaults, always;
ACCOUNTS left with entry 0 alone at its power-on value, DIRECTORY with every entry freed, DRIVES at their power-on values over the raw levels, or
each refused IN_USE; the table's cursor becomes 0 (R17, R22, R46, R132, R178, R202, R203). -/
def Obligations.ClearTableCommand : Prop :=
  ∀ s : State, s.Free →
    let cleared := fun t : Fin 13 =>
      ({ s with port := { s.port with cursors := s.port.cursors.set t ⟨0, s.port.cursors[t].wrap⟩ } } : State)
    (s.port.current = none → exec .clearTable s = .next (s.sends [refusedOf 4 24])) ∧
    (∀ t ∈ ([1, 4, 5, 6, 7, 10, 11] : List (Fin 13)), s.port.current = some t →
      exec .clearTable s = .next (s.sends [refusedOf 4 22])) ∧
    (s.port.current = some 8 → exec .clearTable s =
      .next (({ cleared 8 with pr := { s.pr with templates := Vector.replicate 32 [] } }).sends [doneOf 4 []])) ∧
    (s.port.current = some 9 →
      let held := ∃ x ∈ s.acc.accounts, (∃ y, s.account? x.1 = some y ∧ 0 < y.inUse) ∨ ∃ r ∈ s.ms.queue, r.account = x.1
      (held → exec .clearTable s = .next (s.sends [refusedOf 4 10])) ∧
      (¬held → exec .clearTable s = .next
        (({ cleared 9 with acc := { s.acc with accounts := [(0, ⟨defaultCode, false, 16, 0, 0, 0, 0, 0, 0⟩)] } }).sends [doneOf 4 []]))) ∧
    (s.port.current = some 2 → ∃ t, exec .clearTable s = .next t ∧ t.port.sending = some ⟨doneOf 4 [], t.summary⟩ ∧
      ∀ i : Fin 8, t.dir.fences[i] = none) ∧
    (s.port.current = some 3 → (∃ d, (s.drive d).state ≠ .empty ∧ (s.drive d).state ≠ .offline) →
      exec .clearTable s = .next (s.sends [refusedOf 4 10])) ∧
    (s.port.current = some 3 → (∀ d, (s.drive d).state = .empty ∨ (s.drive d).state = .offline) →
      ∃ u, taken .clearTable 4 s (cleared 3) u ∧ (∀ d, u.drive d = { State.reset.drive d with raw := (s.drive d).raw }) ∧
        ((∀ d, (s.drive d).volume = none) → u.dir = s.dir)) ∧
    (s.port.current = some 0 → (∃ x ∈ s.dir.entries, s.protected? x.1 = true) →
      exec .clearTable s = .next (s.sends [refusedOf 4 10])) ∧
    (s.port.current = some 0 → s.Lawful → (∀ x ∈ s.dir.entries, s.protected? x.1 = false) →
      ∃ u, taken .clearTable 4 s (cleared 0) u ∧ directoryCleared s u) ∧
    (s.port.current = some 12 → ∃ t, exec .clearTable s = .next t ∧ t.port.sending = some ⟨doneOf 4 [], t.summary⟩ ∧
      t.port.settings = State.reset.port.settings ∧ t.port.cursors = (cleared 12).port.cursors ∧
      ∀ o, t.attnUnit o = match (s.attnUnit o).level, (s.attnUnit o).timer with
        | some l, none => startCadence (some l) (State.reset.cadenceItem (match o with | .lamp => 26 + 2 * l | .horn => 27 + 2 * l))
        | _, _ => s.attnUnit o)

/-- The line is free again when a frame has been sent to its end, and takes the first of an immediate answer, the oldest final reply, whose request then
leaves the queue and whose claim loses its tag, and the NOTICE; with none of them it stays free (R48, R195). With nothing being sent, FRAME_SENT changes
nothing; RESET_TAKES_HOLD is the end of the LINK RESET response, and with none being sent changes nothing (log 17). -/
def Obligations.FrameSentFreesTheLine : Prop :=
  (∀ s : State, s.Settled → s.port.sending = none → exec .frameSent s = .next s) ∧
  (∀ s : State, s.resetAwaited = true → exec .resetTakesHold s = exec .frameSent s) ∧
  (∀ s : State, s.Settled → s.resetAwaited = false → exec .resetTakesHold s = .next s) ∧
  ∀ s : State, s.Settled → s.port.buffer = [] → s.port.sending.isSome = true → s.resetAwaited = false →
    let freed := { s with port := { s.port with sending := none } }
    (∀ m rest, s.port.immediate = m :: rest → exec .frameSent s = .next (freed.sends (m :: rest))) ∧
    (∀ tag r rest, s.port.immediate = [] → s.port.replyOwed = (tag, r) :: rest →
      ∃ t, exec .frameSent s = .next t ∧ t.port.sending = some ⟨.reply tag r true, s.summary⟩ ∧ t.port.replyOwed = rest ∧
        t.ms.queue = s.ms.queue.filter (fun q => q.tag != tag) ∧
        ∀ d, (t.drive d).claimTag = if (s.drive d).claimTag = some tag then none else (s.drive d).claimTag) ∧
    (s.port.immediate = [] → s.port.replyOwed = [] → s.port.noticeOwed = true →
      exec .frameSent s = .next (freed.sends [.notice])) ∧
    (s.port.immediate = [] → s.port.replyOwed = [] → s.port.noticeOwed = false → exec .frameSent s = .next freed)

/-- LINK RESET is answered DONE with the service state that the reset will leave, and no frame is taken until it has taken hold (R190, R206; the wait
for it is log 30). -/
def Obligations.LinkResetIsAnswered : Prop :=
  ∀ s : State, s.Free → ∃ code, exec .linkReset s =
      .next ({ s with port := { s.port with resetting := true } }.sends [.response 0 true 0 8 [byte code] true]) ∧
    (s.svc.state = .starting → code = 0) ∧ (s.svc.state = .quiesced → code = 4) ∧ (s.svc.state = .interrupted → code = 6) ∧
    (s.svc.state = .homing ∨ s.svc.state = .active ∨ s.svc.state = .quiescing ∨ s.svc.state = .resuming → code = 1)

/-- The port when the reset takes hold: receiver, buffer, answers and reply-owed list dropped, plain flags and the notice-owed mark cleared (R206). -/
def Sys2Proof.Machine.portReset (s : State) : State :=
  { s with port := { s.port with
    sending := none, rx := .hunting, buffer := [], immediate := [], replyOwed := [], resetting := false
    flags := s.port.flags &&& ~~~0x1E4F, noticeOwed := false } }

/-- The equipment prompts that present conditions ask for, in the order of R147. -/
def Sys2Proof.Machine.presentEquipment (u : State) : List Equipment :=
  (List.finRange 16).filterMap (fun d => if (u.drive d).state = .check then some (.driveCheck d) else none) ++
  [ArmId.armA, ArmId.armB].filterMap (fun a =>
    if (u.arm a).state = .outOfService ∧ (u.arm a).leaveMark = false then some (.armOut a) else none) ++
  (List.finRange 8).filterMap (fun p =>
    if (u.station p).presence = true ∧ (u.station p).volume = none ∧ (u.station p).reserved = none then some (.stationUnknown p)
    else none)

/-- What LINK RESET leaves of the requests, orders, claims and prompts, and of the audit record (R48, R113, R124, R147). -/
def Sys2Proof.Machine.listsReset (s u : State) : Prop :=
  u.ms.queue = [] ∧ u.port.replyOwed = [] ∧ u.sch.pool = [] ∧ u.sch.claims = [] ∧ u.sch.nextId = s.sch.nextId ∧
  (u.pr.answers, u.pr.withdrawals, u.pr.allWithdrawn, u.pr.sending) = ([], [], true, s.pr.sending) ∧
  u.pr.templates = s.pr.templates ∧ (u.pr.held, u.pr.tooLong) = (s.pr.held, s.pr.tooLong) ∧
  u.pr.list.length = min 16 (presentEquipment u).length ∧ u.pr.owed = (presentEquipment u).drop 16 ∧
  (∀ (i : Nat) (p : Prompt) (e : Equipment), u.pr.list[i]? = some p → (presentEquipment u)[i]? = some e →
    p.isFor e = true ∧ p.level = 0 ∧ p.acked = false ∧ p.lineOwed = true) ∧
  (u.aud.range, u.aud.deferredPass, u.aud.nextSlot, u.aud.deferred) =
    (s.aud.range, s.aud.deferredPass, s.aud.nextSlot, s.aud.deferred) ∧
  (u.aud.matched, u.aud.foundMissing, u.aud.foundForeign, u.aud.foundMisplaced, u.aud.recovered, u.aud.skipped) =
    (s.aud.matched, s.aud.foundMissing, s.aud.foundForeign, s.aud.foundMisplaced, s.aud.recovered, s.aud.skipped) ∧
  u.aud.state = .idle ∧ (s.aud.state = .idle → u.aud = s.aud) ∧
  (s.aud.state ≠ .idle → u.aud.outcome = .aborted ∧ u.aud.scanOwed = false ∧ u.aud.scan = none)

/-- What LINK RESET leaves of the drives, the positions and the arms (R47, R113, R153). -/
def Sys2Proof.Machine.unitsReset (s u : State) : Prop :=
  (∀ d, let x := s.drive d
    (x.state ≠ .claimed → (u.drive d).state = x.state ∧ (u.drive d).session = x.session ∧ (u.drive d).volume = x.volume) ∧
    (∀ c, x.state ≠ .empty → x.state ≠ .offline → x.state ≠ .unmanaged → (u.drive d).claim = some c →
      c.tag = none ∧ c.ringHold = false) ∧
    (x.state = .claimed → x.placeExpected = false → x.claim.isSome = true → (u.drive d).claim = none ∧ (u.drive d).state =
      if x.sense.loaded ∨ x.sense.released then .unmanaged else if x.online then .empty else .offline) ∧
    (x.state = .placed → (u.drive d).loadTimer = none ∧ u.sch.owedRecovers[d] = true)) ∧
  (∀ p, u.station p = { s.station p with reserved := none, awaiting := none, importOwed := false }) ∧
  (∀ a, let x := s.arm a
    let homes := s.svc.state ≠ .starting ∧ s.svc.state ≠ .quiesced ∧ s.svc.state ≠ .interrupted
    (u.arm a).order = none ∧ (u.arm a).move = none ∧ (u.arm a).linger = none ∧ (u.arm a).failCount = x.failCount ∧
    (u.arm a).column = x.column ∧
    (homes → x.outstanding = none → (∀ f ∈ (s.armPort a).waiting, f ≠ .home ∧ f ≠ .status) →
      x.state = .idle ∨ x.state = .running ∨ x.state = .holding ∨ x.state = .parked →
        (u.arm a).state = .homing ∧ u.homingOwed a = true) ∧
    (¬homes ∨ x.outstanding.isSome = true → (u.arm a).state = x.state) ∧
    (x.state = .unhomed ∨ x.state = .faulted ∨ x.state = .outOfService → (u.arm a).state = x.state))

/-- What LINK RESET leaves of the service state, the marks of the Service Controller and the attention units (R148, R190): the state and the door-opened mark by the
table of R190, a homing-owed mark for each arm that is sent to HOMING, and units that follow the prompts asked for afresh, which are at level 0. -/
def Sys2Proof.Machine.serviceReset (s u : State) : Prop :=
  let homes := s.svc.state ≠ .starting ∧ s.svc.state ≠ .quiesced ∧ s.svc.state ≠ .interrupted
  (homes → u.svc.state = .homing) ∧ (¬homes → u.svc.state = s.svc.state) ∧ u.svc.doorMark = s.svc.doorMark ∧
  (∀ a, u.homingOwed a = true ↔
    homes ∧ (s.arm a).state ≠ .unhomed ∧ (s.arm a).state ≠ .faulted ∧ (s.arm a).state ≠ .outOfService) ∧
  (presentEquipment u = [] → u.att = ⟨⟨none, .off, .off, none⟩, ⟨none, .off, .off, none⟩⟩) ∧
  (presentEquipment u ≠ [] →
    u.att = ⟨startCadence (some 0) (s.cadenceItem 26), startCadence (some 0) (s.cadenceItem 27)⟩)

/-- When the reset takes hold, the request queue, the receive buffer and the answers are empty, the receiver hunts and frames are taken again; the reply-owed list, the order
pool, the claims and the prompts are emptied, the equipment prompts asked for afresh, the audit ended, and drives, positions and arms act; the service state goes by R190, and the attention units start anew; the directory's
and the accounts' identities, fences, templates, settings, mask, clock, cursors, records, the line being typed and all that comes in on
the lines stay as they were. A free panel line takes ALL PROMPTS WITHDRAWN at once, a line being sent is finished first (R1, R17, R47, R48, R113, R124,
R132, R135, R137, R147, R148, R151, R153, R161, R164, R190, R203, R205, R206). Lingering zones are released in every arm state (DEDUCED, log 67), and a yield, park or
standoff under way is dropped (DESIGN CHOICE, log 68). -/
def Obligations.LinkResetTakesHold : Prop :=
  ∀ s : State, s.resetAwaited = true → Canonical s.dir.entries → Canonical s.acc.accounts →
    (∃ t, exec .resetTakesHold s = .next t ∧
      t.ms.queue = [] ∧ t.port.buffer = [] ∧ t.port.immediate = [] ∧ t.port.rx = .hunting ∧ t.port.resetting = false ∧
      t.pr.answers = [] ∧ t.volumeIdentities = s.volumeIdentities ∧ t.accountIdentities = s.accountIdentities ∧
      t.dir.fences = s.dir.fences ∧ t.pr.templates = s.pr.templates ∧ t.port.settings = s.port.settings ∧
      t.port.mask = s.port.mask ∧ t.port.clock = s.port.clock ∧ t.port.cursors = s.port.cursors ∧
      t.port.current = s.port.current ∧ s.acc.records <+: t.acc.records ∧ (t.pr.held, t.pr.tooLong) = (s.pr.held, s.pr.tooLong) ∧
      (∀ d, (t.drive d).wiring = (s.drive d).wiring) ∧ (∀ p, (t.station p).wiring = (s.station p).wiring) ∧
      (t.mon.doorRaw, t.mon.doorClosed, t.mon.doorInterval) = (s.mon.doorRaw, s.mon.doorClosed, s.mon.doorInterval) ∧
      (s.pr.sending = none → t.pr.sending = some (allWithdrawnLine ++ [0x0D, 0x0A]) ∧ t.pr.allWithdrawn = false) ∧
      (s.pr.sending.isSome = true → t.pr.sending = s.pr.sending ∧ t.pr.allWithdrawn = true)) ∧
    ∃ u, listsReset s u ∧ unitsReset s u ∧ serviceReset s u ∧
      let v := ((portReset s).afterAct u).refreshConditions
      exec .resetTakesHold s = .next { v with port := { v.port with noticeOwed := v.summary != 0 } }.finishStep

/-- READ RECORDS gives the three figures and copies of the oldest n records, or of all when fewer are held, and changes no state; a count outside 1 to
16 is BAD_FIELD (R171). -/
def Obligations.ReadRecordsCommand : Prop :=
  ∀ (s : State) (n : Byte), s.Free →
    (n.toNat < 1 ∨ 16 < n.toNat → exec (.readRecords n) s = .next (s.sends [refusedOf 15 5])) ∧
    (1 ≤ n.toNat → n.toNat ≤ 16 →
      let given := s.acc.records.take n.toNat
      exec (.readRecords n) s = .next (s.sends (responseOf 15 (.done (half s.acc.records.length ++ half s.acc.reserved ++
        bytesOfHalf s.acc.nextSeq ++ [byte given.length] ++ given.flatMap AcctRecord.bytes)) false)))

/-- RELEASE RECORDS removes the oldest n records, or all when fewer are held, and is answered with the count removed and the three figures after it; a
count outside 1 to 256 is BAD_FIELD; a release that removes nothing changes nothing (R172). -/
def Obligations.ReleaseRecordsCommand : Prop :=
  ∀ (s : State) (n : Half), s.Free →
    (n.toNat < 1 ∨ 256 < n.toNat → exec (.releaseRecords n) s = .next (s.sends [refusedOf 16 5])) ∧
    (1 ≤ n.toNat → n.toNat ≤ 256 →
      let left := s.acc.records.drop n.toNat
      let answer := doneOf 16 (half (min n.toNat s.acc.records.length) ++ half left.length ++ half s.acc.reserved ++
        bytesOfHalf s.acc.nextSeq)
      (s.acc.records = [] → exec (.releaseRecords n) s = .next (s.sends [answer])) ∧
      (s.acc.records ≠ [] → ∃ t, exec (.releaseRecords n) s = .next t ∧ t.port.sending = some ⟨answer, t.summary⟩ ∧
        left <+: t.acc.records))

/-- RESET COUNTERS clears the five counters of the named account, or of every account in use, and nothing else; an index above 63 is BAD_FIELD, one
of a free entry NOT_FOUND (R174). -/
def Obligations.ResetCountersCommand : Prop :=
  (∀ (s : State) (index : Byte), s.Free → index ≠ 0xFF → 63 < index.toNat →
    exec (.resetCounters index) s = .next (s.sends [refusedOf 17 5])) ∧
  (∀ (s : State) (index : Byte), s.Free → index.toNat ≤ 63 → s.account? index.toNat = none →
    exec (.resetCounters index) s = .next (s.sends [refusedOf 17 15])) ∧
  (∀ (s : State) (index : Byte) (a : Account), s.Free → index.toNat ≤ 63 → s.account? index.toNat = some a →
    exec (.resetCounters index) s = .next (({ s with acc := { s.acc with
      accounts := insertAt index.toNat ⟨a.code, a.closed, a.limit, a.inUse, 0, 0, 0, 0, 0⟩ s.acc.accounts } }).sends [doneOf 17 []])) ∧
  (∀ s : State, s.Free →
    exec (.resetCounters 0xFF) s = .next (({ s with acc := { s.acc with
      accounts := s.acc.accounts.map (fun x : Nat × Account =>
        (x.1, (⟨x.2.code, x.2.closed, x.2.limit, x.2.inUse, 0, 0, 0, 0, 0⟩ : Account))) } }).sends
        [doneOf 17 []]))

/-- AUDIT is checked for its slots, the service state and the audit record in that order, and a taken one begins an audit of the range: RUNNING, every count
0, no deferred slot, the outcome none (R116, R117). -/
def Obligations.AuditCommand : Prop :=
  ∀ (s : State) (first last : Half), s.Free →
    let bad := 2047 < first.toNat ∨ 2047 < last.toNat ∨ last.toNat < first.toNat
    (bad → exec (.audit first last) s = .next (s.sends [refusedOf 9 5])) ∧
    (¬bad → s.svc.state ≠ .active → exec (.audit first last) s = .next (s.sends [refusedOf 9 17])) ∧
    (¬bad → s.svc.state = .active → s.aud.state ≠ .idle → exec (.audit first last) s = .next (s.sends [refusedOf 9 18])) ∧
    (¬bad → s.svc.state = .active → s.aud.state = .idle → ∃ u, s.AnswersBy (.audit first last) u (doneOf 9 []) ∧
      u.aud.state = .running ∧ u.aud.range = some (first.toNat, last.toNat) ∧ u.aud.nextSlot = some first.toNat ∧
      u.aud.deferredPass = false ∧ u.aud.deferred = [] ∧ u.aud.outcome = .none ∧
      (u.aud.matched, u.aud.foundMissing, u.aud.foundForeign, u.aud.foundMisplaced, u.aud.recovered, u.aud.skipped) = (0, 0, 0, 0, 0, 0))

/-- ARM SERVICE and DRIVE SERVICE: an unknown arm or drive is BAD_FIELD; OUT sets the leave mark of an arm that is not out of service, IN clears it and homes
an arm out of service; OFFLINE and ONLINE write the drive's online field and move it as its state says (R45, R109). That the leave mark is set for a
PARKED arm too, which leaves at once, is the model's choice (DESIGN CHOICE, log 59). -/
def Obligations.ServiceCommandsOfArmsAndDrives : Prop :=
  (∀ (s : State) (b : Byte), s.Free → 1 < b.toNat →
    exec (.armServiceOut b) s = .next (s.sends [refusedOf 18 5]) ∧ exec (.armServiceIn b) s = .next (s.sends [refusedOf 18 5])) ∧
  (∀ (s : State) (b : Byte), s.Free → 15 < b.toNat →
    exec (.driveServiceOnline b) s = .next (s.sends [refusedOf 19 5]) ∧
    exec (.driveServiceOffline b) s = .next (s.sends [refusedOf 19 5])) ∧
  (∀ (s : State) (a : ArmId), s.Free → ∃ u, s.AnswersBy (.armServiceOut (byte (armCode a))) u (doneOf 18 []) ∧
    ((s.arm a).state = .outOfService → u = s) ∧
    ((s.arm a).state ≠ .outOfService → (u.arm a).leaveMark = true) ∧
    ((s.arm a).state = .parked → (u.arm a).state = .outOfService)) ∧
  (∀ (s : State) (a : ArmId), s.Free → ∃ u, s.AnswersBy (.armServiceIn (byte (armCode a))) u (doneOf 18 []) ∧
    (u.arm a).leaveMark = false ∧
    (u.arm a).state = (if (s.arm a).state = .outOfService then .homing else (s.arm a).state)) ∧
  (∀ (s : State) (d : Fin 16), s.Free → (s.drive d).state ≠ .check →
    ∃ u, s.AnswersBy (.driveServiceOffline (byte d.val)) u (doneOf 19 []) ∧
      u = (if (s.drive d).state = .offline then s else s.setDrive d { s.drive d with
        online := false
        state := if (s.drive d).state = .empty ∨ (s.drive d).state = .unmanaged then .offline else (s.drive d).state })) ∧
  (∀ (s : State) (d : Fin 16), s.Free → (s.drive d).state = .check →
    ∃ u, s.AnswersBy (.driveServiceOffline (byte d.val)) u (doneOf 19 []) ∧ (u.drive d).online = false ∧
      ((s.drive d).sense.released = true → (u.drive d).state = .released) ∧
      ((s.drive d).sense.released = false → (s.drive d).sense.loaded = true → (u.drive d).state = .unloading) ∧
      ((s.drive d).sense.released = false → (s.drive d).sense.loaded = false → (u.drive d).state = .offline)) ∧
  (∀ (s : State) (d : Fin 16), s.Free → ∃ u, s.AnswersBy (.driveServiceOnline (byte d.val)) u (doneOf 19 []) ∧
    u.drive d = { s.drive d with
      online := true
      state := if (s.drive d).state ≠ .offline then (s.drive d).state
        else if (s.drive d).sense.loaded ∨ (s.drive d).sense.released then .unmanaged else .empty })

/-- START is taken in STARTING: HOMING, both homing-owed marks, both arms home; elsewhere it is WRONG_STATE. QUIESCE is taken in ACTIVE, HOMING and RESUMING, where
QUIESCING begins with the homing-owed marks clear, and in QUIESCING and QUIESCED, where it changes nothing; elsewhere it is WRONG_STATE. RESUME is
taken in QUIESCING and QUIESCED, where RESUMING begins and the door-opened mark is cleared; elsewhere it is WRONG_STATE (R181, R184, R187). -/
def Obligations.ServiceStateCommands : Prop :=
  ∀ s : State, s.Free →
    (s.svc.state = .starting → ∃ u, s.AnswersBy .start u (doneOf 5 [byte (s.afterAct u).svc.state.code]) ∧
      u.svc = ⟨.homing, s.svc.doorMark, true, true⟩ ∧ ∀ a, (u.arm a).state = .homing) ∧
    (s.svc.state ≠ .starting → exec .start s = .next (s.sends [refusedOf 5 17])) ∧
    (s.svc.state = .active ∨ s.svc.state = .homing ∨ s.svc.state = .resuming →
      ∃ u, s.AnswersBy .quiesce u (doneOf 6 [byte (s.afterAct u).svc.state.code]) ∧
        u.svc = ⟨.quiescing, s.svc.doorMark, false, false⟩) ∧
    (s.svc.state = .quiescing ∨ s.svc.state = .quiesced →
      exec .quiesce s = .next (s.sends [doneOf 6 [byte s.svc.state.code]])) ∧
    (s.svc.state = .starting ∨ s.svc.state = .interrupted → exec .quiesce s = .next (s.sends [refusedOf 6 17])) ∧
    (s.svc.state = .quiescing ∨ s.svc.state = .quiesced →
      ∃ u, s.AnswersBy .resume u (doneOf 7 [byte (s.afterAct u).svc.state.code]) ∧ u.svc.state = .resuming ∧ u.svc.doorMark = false) ∧
    (s.svc.state ≠ .quiescing → s.svc.state ≠ .quiesced → exec .resume s = .next (s.sends [refusedOf 7 17]))

/-! ### Requests (R50 to R53) -/

/-- The serial of a request is present and spelled A to Z and 0 to 9, padded; the account code is blank or spelled so (R2, R50, R208). -/
def Sys2Proof.Machine.goodFields (k : RequestKind) (f : RequestFields) : Prop :=
  f.tag ≠ 0 ∧ f.priority.toNat ≤ 3 ∧ (isBlank f.account = true ∨ isPaddedName f.account = true) ∧
    (k = .mount ∨ k = .eject → isPaddedName f.serial = true) ∧ (k = .scratch → f.pool.toNat ≤ 7) ∧
    (k = .demount → f.drive.toNat ≤ 15) ∧
    (k = .mount ∨ k = .scratch → (f.drive = 0xFF ∨ f.drive.toNat ≤ 15) ∧ f.density.toNat ≤ 3)

/-- The first check of R50 that fails gives the refusal. -/
def Obligations.RequestRefusals : Prop :=
  ∀ (s : State) (k : RequestKind) (f : RequestFields) (c : Instr), s.Free →
    c = (match k with | .mount => .mount f | .scratch => .scratch f | .demount => .demount f | .eject => .eject f) →
    let refused := fun r : Reason => exec c s = .next (s.sends [.reply f.tag (.refused r) false])
    let quiescing := k ≠ .demount ∧ (s.svc.state = .quiescing ∨ s.svc.state = .quiesced)
    let account := if isBlank f.account = true then 0 else (s.accountOf f.account).getD 0
    let volume := if k = .mount ∨ k = .eject then s.namedVolume f else none
    let wanted := match volume.bind (·.density) with | some y => some y | none => requestDensity f
    let unsuitable := ∃ d : Fin 16, d.val = f.drive.toNat ∧
      ¬((s.drive d).installed = true ∧ (s.drive d).online = true ∧ (s.drive d).suits wanted = true)
    (s.svc.state = .starting → refused .notStarted) ∧
    (s.svc.state ≠ .starting → quiescing → refused .quiesced) ∧
    (s.svc.state ≠ .starting → ¬quiescing →
      ((∃ r ∈ s.ms.queue, r.tag = f.tag) → refused .duplicateTag) ∧
      ((∀ r ∈ s.ms.queue, r.tag ≠ f.tag) →
        (64 ≤ s.ms.queue.length → refused .queueFull) ∧
        (s.ms.queue.length < 64 →
          (¬goodFields k f → refused .badField) ∧
          (goodFields k f →
            (k = .demount → ∀ d : Fin 16, d.val = f.drive.toNat →
              let mounted := (s.drive d).state = .loaded ∨ (s.drive d).state = .unloading ∨ (s.drive d).state = .released
              (¬mounted → refused .notMounted) ∧
              (mounted → s.claimLive d = true ∨ (∃ r ∈ s.ms.queue, r.kind = .demount ∧ r.drive = some d) → refused .inUse)) ∧
            (k ≠ .demount →
              let unknown := isBlank f.account = false ∧ s.accountOf f.account = none ∧ s.refuseUnknownAccount = true
              let closed := ∃ a, s.account? account = some a ∧ a.closed = true
              (unknown → refused .unknownAccount) ∧
              (¬unknown → closed → refused .accountClosed) ∧
              (¬unknown → ¬closed → k = .mount ∨ k = .eject → s.namedVolume f = none → refused .unknownVolume) ∧
              (¬unknown → ¬closed → k = .mount ∨ k = .eject → ∀ v, s.namedVolume f = some v →
                (s.mountBarred v = true → refused .fenced) ∧
                (s.mountBarred v = false → (∃ d, v.loc = .inDrive d) → refused .inUse) ∧
                (s.mountBarred v = false → v.loc = .missing → refused .missing) ∧
                (s.mountBarred v = false → v.loc = .outside → k = .eject → refused .outside) ∧
                (s.mountBarred v = false → (∀ d, v.loc ≠ .inDrive d) → v.loc ≠ .missing → k = .mount → unsuitable →
                  refused .driveUnsuitable)) ∧
              (¬unknown → ¬closed → k = .scratch → unsuitable → refused .driveUnsuitable))))))

/-- A DEMOUNT is resolved at its taking (R60): its pending outcome is DEMOUNTED, a LOADED or UNLOADING drive is unloaded, a return order of the pool takes its
tag, and else the reel on a RELEASED drive waits for its return. -/
def Sys2Proof.Machine.demountTaken (s u : State) (tag : Half) (d : Fin 16) : Prop :=
  let x := s.drive d
  let mine := fun (p : Request → Prop) => ∃ q, u.request? tag = some q ∧ q.pending = some (.demounted d) ∧ p q
  (x.state = .loaded ∨ x.state = .unloading → mine (·.state = .releasing) ∧ (u.drive d).state = .unloading ∧
    (u.drive d).pulse = some (.unload, s.pulseWidth)) ∧
  (x.state = .loaded → (u.drive d).releaseTimer = some s.releaseLimit) ∧
  (x.state = .released → ∀ o, s.returnOrder d = some o → mine (fun q => q.state = .returning ∧ q.order = some o.id) ∧
    ∀ p ∈ u.sch.pool, p.id = o.id → p.tag = some tag) ∧
  (x.state = .released → s.returnOrder d = none → s.svc.state ≠ .active → mine (·.state = .releasing) ∧ u.sch.pool = s.sch.pool)

/-- A MOUNT whose volume is not suspect is resolved at its taking in ACTIVE (R57, R61 to R64): with another live request naming the volume it waits for it; with the
volume at home it waits for the account, for records, for its drive or for an arm that reaches both, else it has its claim, and its FETCH when the
pool has room. The choice among several drives is not stated here. -/
def Sys2Proof.Machine.mountTaken (s u : State) (f : RequestFields) : Prop :=
  ∀ e v, s.entryOf f.serial = some e → s.vol? e = some v → v.suspect = false →
    let named := ∃ r ∈ s.ms.queue, r.volume = some e
    let a := s.chargedTo f.account
    let mine := fun (p : Request → Prop) => ∃ q, u.request? f.tag = some q ∧ p q
    let waits := fun reason => mine (fun q => q.state = .waitDrive ∧ q.reason = some reason ∧ q.volume = some e ∧ q.claimed = none)
    (named → mine (fun q => q.state = .waitVolume ∧ q.reason = some .volume ∧ q.volume = none)) ∧
    (¬named → v.loc = .home →
      (s.accountRoom a = false → waits .account) ∧
      (s.accountRoom a = true → s.recordRoom = false → waits .records) ∧
      (s.accountRoom a = true → s.recordRoom = true → ∀ d h, requestDrive f = some d → v.home = some h →
        let x := s.drive d
        let reached := s.placesReach (.slot h) (.drive d)
        (x.state ≠ .empty → waits .drive) ∧
        (x.state = .empty → reached = false → waits .arm) ∧
        (x.state = .empty → reached = true →
          (u.drive d).state = .claimed ∧
          (u.drive d).claim = some ⟨some f.tag, a, s.port.clock, true, f.flags.getLsbD 0, false, false, false, none, none, false⟩ ∧
          u.acc.reserved = s.acc.reserved + 1 ∧
          (28 ≤ s.sch.pool.length → mine (fun q => q.state = .waitArm ∧ q.reason = some .arm ∧ q.claimed = some d ∧ q.order = none)) ∧
          (s.sch.pool.length < 28 → ∃ o ∈ u.sch.pool, o.kind = .fetch ∧ o.source = some (.slot h) ∧ o.dest = some (.drive d) ∧
            o.volume = some e ∧ o.tag = some f.tag ∧
            mine (fun q => q.state = .waitArm ∧ q.claimed = some d ∧ q.volume = some e ∧ q.order = some o.id)))))

/-- A request that R50 does not refuse joins the end of the queue with the fields of its frame and the clock as its arrival, and is answered
ACCEPTED with its place (R48, R49, R51). A DEMOUNT, and in ACTIVE a MOUNT, is resolved at its taking (R57, R60 to R64). -/
def Obligations.RequestAccepted : Prop :=
  ∀ (s : State) (k : RequestKind) (f : RequestFields) (c : Instr), s.Free →
    c = (match k with | .mount => .mount f | .scratch => .scratch f | .demount => .demount f | .eject => .eject f) →
    s.refusal k f = none →
    ∃ t, exec c s = .next t ∧
      t.port.sending = some ⟨.reply f.tag (.accepted (s.ms.queue.length + 1)) false, t.summary⟩ ∧
      t.requestsAsked = s.requestsAsked ++ [((f.tag, k, f, f.serial, f.pool.toNat),
        ((if k = .eject then none else requestDrive f), f.flags.getLsbD 0, f.flags.getLsbD 1, requestDensity f),
        s.chargedTo f.account, f.priority.toNat, s.port.clock)] ∧
      (k ≠ .demount → s.svc.state ≠ .active → ∃ r, s.AnswersBy c (s.joinQueue r) (.reply f.tag (.accepted (s.ms.queue.length + 1)) false) ∧
        r.state = .queued ∧ r.retries = s.requestRetries ∧
        r.timer = (if s.waitLimit f.priority.toNat = 0 then none else some (s.waitLimit f.priority.toNat)) ∧
        (r.volume, r.claimed, r.order, r.prompt, r.pending, r.outcome) = (none, none, none, none, none, none)) ∧
      (k = .demount → ∀ d : Fin 16, d.val = f.drive.toNat →
        ∃ u, s.AnswersBy c u (.reply f.tag (.accepted (s.ms.queue.length + 1)) false) ∧ demountTaken s u f.tag d) ∧
      (k = .mount → s.svc.state = .active →
        ∃ u, s.AnswersBy c u (.reply f.tag (.accepted (s.ms.queue.length + 1)) false) ∧ mountTaken s u f)

/-- The claim of a request on a CLAIMED drive with no PLACE expected is given up (R28): the claim is gone, and where its record was reserved a record without a
session is written, CANCELLED. -/
def Sys2Proof.Machine.claimGivenUp (s u : State) (r : Request) : Prop :=
  ∀ d, s.ownDrive r = some d → (s.drive d).state = .claimed → (s.drive d).placeExpected = false →
    (u.drive d).claim = none ∧ (u.drive d).volume = (s.drive d).volume ∧
      ∀ c, (s.drive d).claim = some c → c.reserved = true →
        ∃ rec, rec ∈ u.acc.records ∧ rec.tag = c.tag ∧ rec.outcome = .cancelled ∧ rec.drive = d

/-- A CANCEL of a request in a state, or with that resume state (R72, R79). -/
def Sys2Proof.Machine.cancelledFrom (s u : State) (r : Request) (st : ReqState) : Prop :=
  let finished := ∃ q, u.request? r.tag = some q ∧ q.state = .finished ∧ q.outcome = some .cancelled
  let pending := ∃ q, u.request? r.tag = some q ∧ (q.pending = some .cancelled ∨ q.outcome = some .cancelled)
  let enters := fun st => ∃ q, u.request? r.tag = some q ∧ q.state = st ∧ q.pending = some .cancelled
  (st = .queued ∨ st = .waitVolume ∨ st = .waitDrive → finished) ∧
  (st = .waitArm → finished ∧ claimGivenUp s u r ∧
    ∀ id o, r.order = some id → s.order? id = some o → o.started = false → o.state ≠ .failed → u.order? id = none) ∧
  (st = .moving ∨ st = .loading ∨ st = .verify → pending ∧
    (r.order = none → ∀ d, s.ownDrive r = some d →
      ((s.drive d).state = .claimed → (s.drive d).placeExpected = false → finished ∧ claimGivenUp s u r) ∧
      ((s.drive d).state = .loaded ∨ (s.drive d).state = .placed → enters .releasing ∧ (u.drive d).state = .unloading ∧
        (u.drive d).labelTimer = none ∧ (u.drive d).pulse = some (.unload, s.pulseWidth) ∧
        ((u.drive d).claim.bind (·.named)) = some .cancelled) ∧
      ((s.drive d).state = .check → enters .releasing ∧ (u.drive d).labelTimer = none)) ∧
    (∀ id o a, r.order = some id → s.order? id = some o → o.started = true → o.state ≠ .failed → o.putBack = none →
      s.takenBy id = some a → s.placingAtDrive a = false →
      ((s.arm a).gripper = .empty → s.armBusy a = true → enters .returning ∧
        ∃ p, u.order? id = some p ∧ p.cut = true ∧ p.legs = o.legs.take (o.next + 1)) ∧
      (∀ e h, (s.arm a).gripper = .volume e → s.homeForArm a e = some h → enters .returning ∧ claimGivenUp s u r ∧
        ∃ p, u.order? id = some p ∧ p.dest = some (.slot h) ∧ p.legs = o.legs.take (if s.armBusy a then o.next + 1 else o.next) ++
          [.travel (some (slotColumn h)), .place (some (.slot h))]))) ∧
  (st = .releasing ∨ st = .returning → (∃ q, u.request? r.tag = some q ∧ q.pending = some .cancelled) ∧
    (∀ d, s.ownDrive r = some d → (u.drive d).state = (s.drive d).state ∧ ((u.drive d).claim.bind (·.named)) = some .cancelled) ∧
    u.sch.pool = s.sch.pool)

/-- CANCEL: NOT_STARTED in STARTING, NOT_FOUND for no live request or one in FINISHED, TOO_LATE for one with a pending outcome; else ACCEPTED with the place of the
request in the order of arrival (log 40), and the request is cancelled as its state says: it finishes CANCELLED at once, or its put-away begins, or the
put-away in progress ends with CANCELLED; a prompt is withdrawn first, and the resume state says the rest (R52, R72, R79). -/
def Obligations.CancelCommand : Prop :=
  ∀ (s : State) (tag : Half), s.Free →
    let refused := fun r : Reason => exec (.cancel tag) s = .next (s.sends [.reply tag (.refused r) false])
    (s.svc.state = .starting → refused .notStarted) ∧
    (s.svc.state ≠ .starting → s.request? tag = none → refused .notFound) ∧
    (∀ r, s.svc.state ≠ .starting → s.request? tag = some r →
      (r.state = .finished → refused .notFound) ∧
      (r.state ≠ .finished → r.pending.isSome = true → refused .tooLate) ∧
      (r.state ≠ .finished → r.pending = none → ∃ u,
        s.AnswersBy (.cancel tag) u (.reply tag (.accepted (s.ms.queue.findIdx (fun q => q.tag == tag) + 1)) false) ∧
        u.requestsAsked = s.requestsAsked ∧
        (r.state = .queued ∨ r.state = .waitVolume ∨ r.state = .waitDrive →
          (u.request? tag).map (fun q => (q.state, q.outcome)) = some (.finished, some .cancelled) ∧
          u.port.replyOwed = s.port.replyOwed ++ [(tag, .cancelled)]) ∧
        (r.state ≠ .prompted → cancelledFrom s u r r.state) ∧
        (r.state = .prompted → (∀ st, r.resume = some st → cancelledFrom s u r st) ∧
          ∀ n, r.prompt = some n → (s.prompt? n).isSome = true → n ∈ u.pr.withdrawals ∧ (s.pr.owed = [] → u.prompt? n = none))))

/-- LABEL: discarded, with nothing changed, for a drive above 15, a serial not spelled A to Z and 0 to 9, one of six spaces among them (log 36), or a drive whose
label timer does not run; else the timer stops, a serial equal to the volume's finishes the request in VERIFY on that drive MOUNTED, and a different one
raises the volume's error count and asks for LABEL_MISMATCH, or with the prompts full ends the request FAILED(PROMPTS_FULL) (R15, R40, R53, R55, R68). -/
def Obligations.LabelCommand : Prop :=
  (∀ (s : State) (drive : Byte) (serial : Text), s.Free →
    15 < drive.toNat ∨ isPaddedName serial = false ∨ (∃ d : Fin 16, d.val = drive.toNat ∧ (s.drive d).labelTimer = none) →
    exec (.label drive serial) s = .next s) ∧
  (∀ (s : State) (d : Fin 16) (serial : Text), s.Free → isPaddedName serial = true → (s.drive d).labelTimer.isSome = true →
    ∃ u, s.ActsBy (.label (byte d.val) serial) u ∧ (u.drive d).labelTimer = none ∧
      (s.verifying d = none → u = s.stopLabelTimer d) ∧
      (∀ r, s.verifying d = some r → r.volume.bind s.serialOf = some serial →
        u.port.replyOwed = s.port.replyOwed ++
          [(r.tag, .mounted d serial ((s.drive d).session.any (·.readOnly)))]) ∧
      (∀ r e v, s.verifying d = some r → r.volume = some e → s.vol? e = some v → v.serial ≠ serial →
        (∃ w, u.vol? e = some w ∧ w.errors = min 15 (v.errors + 1) ∧
          w.suspect = (v.suspect || s.volumeErrorLimit ≤ min 15 (v.errors + 1))) ∧
        (s.request? r.tag = some r → r.prompt = none → (∀ x ∈ s.port.replyOwed, x.1 ≠ r.tag) →
          let full := 14 ≤ (s.pr.list.filter (fun p => p.kind.requestRelated)).length ∨ 16 ≤ s.pr.list.length
          (full → ∃ q, u.request? r.tag = some q ∧
            (q.pending = some (.failed .promptsFull) ∨ q.outcome = some (.failed .promptsFull))) ∧
          (¬full → ∃ q p, u.request? r.tag = some q ∧ q.state = .prompted ∧ q.resume = some .verify ∧ p ∈ u.pr.list ∧
            q.prompt = some p.number ∧ p.kind = .labelMismatch ∧ p.tag = some r.tag ∧ p.volume = some e ∧ p.drive = some d))))
/-! ### The operator panel (R126, R131, R133 to R146) -/

/-- A text as it is typed: 7-bit codes. -/
def Sys2Proof.Machine.typed (t : Text) : PanelText := t.map (BitVec.setWidth 7)

/-- The held line is emptied, and an answer goes to the panel line: at once when it is free, else behind the answers that wait (R135, R137). -/
def Sys2Proof.Machine.panelSays (s : State) (a : Answer) : State :=
  if s.pr.sending.isSome then
    { s with pr := { s.pr with held := [], tooLong := false, answers := s.pr.answers ++ [a] } }
  else { s with pr := { s.pr with held := [], tooLong := false, sending := some (a.text ++ lineEnd) } }

/-- Characters: backspace and delete remove the last held, other control characters but carriage return do nothing, printable ones are held
in upper case, up to 40, and the next marks the line as too long (R137). A line typed is its characters one after another, then carriage return.
A line too long is answered LINE TOO LONG, a blank one is not answered, and while 4 answers wait any line is discarded. -/
def Obligations.PanelCharacters : Prop :=
  (∀ (s : State) (c : BitVec 7), s.Settled → c = 8 ∨ c = 127 →
    exec (.panelCharacter c) s = .next { s with pr := { s.pr with held := s.pr.held.dropLast } }) ∧
  (∀ (s : State) (c : BitVec 7), s.Settled → c.toNat < 32 → c ≠ 8 → c ≠ 13 → exec (.panelCharacter c) s = .next s) ∧
  (∀ (s : State) (c : BitVec 7), s.Settled → 32 ≤ c.toNat → c.toNat < 127 → s.pr.held.length < 40 →
    exec (.panelCharacter c) s = .next { s with pr := { s.pr with
      held := s.pr.held ++ [if 97 ≤ c.toNat ∧ c.toNat ≤ 122 then byte (c.toNat - 32) else byte c.toNat] } }) ∧
  (∀ (s : State) (c : BitVec 7), s.Settled → 32 ≤ c.toNat → c.toNat < 127 → 40 ≤ s.pr.held.length →
    exec (.panelCharacter c) s = .next { s with pr := { s.pr with tooLong := true } }) ∧
  (∀ s : State, s.Settled → 4 ≤ s.pr.answers.length →
    exec (.panelCharacter 13) s = .next { s with pr := { s.pr with held := [], tooLong := false } }) ∧
  (∀ s : State, s.Settled → s.pr.answers.length < 4 → s.pr.tooLong = true →
    exec (.panelCharacter 13) s = .next (panelSays s .lineTooLong)) ∧
  (∀ s : State, s.Settled → s.pr.tooLong = false → (∀ b ∈ s.pr.held, b = space) →
    exec (.panelCharacter 13) s = .next { s with pr := { s.pr with held := [], tooLong := false } }) ∧
  (∀ (s : State) (text : PanelText), s.Settled → (∀ c ∈ text, c ≠ 13) → ∃ u, u.Settled ∧
    text.foldl (fun o c => match o with
      | Host.Outcome.next t => exec (.panelCharacter c) t
      | o => o) (.next s) = .next u ∧ exec (.panelLine text) s = exec (.panelCharacter 13) u)

/-- The reply commands: the kind of prompt each is for, and its word (R126). -/
def Sys2Proof.Machine.replyCommands : List ((Nat → Instr) × PromptKind × ReplyWord) :=
  [(.manualMountDone, .manualMount, .done), (.manualMountCancel, .manualMount, .cancel),
   (.ringNeededFit, .ringNeeded, .fit), (.ringNeededReadonly, .ringNeeded, .readonly), (.ringNeededCancel, .ringNeeded, .cancel),
   (.labelMismatchAccept, .labelMismatch, .accept), (.labelMismatchReject, .labelMismatch, .reject),
   (.volumeSuspectProceed, .volumeSuspect, .proceed), (.volumeSuspectCancel, .volumeSuspect, .cancel),
   (.volumeLostFound, .volumeLost, .found), (.volumeLostCancel, .volumeLost, .cancel),
   (.scratchEmptyDone, .scratchEmpty, .done), (.scratchEmptyCancel, .scratchEmpty, .cancel),
   (.stationUnknownDone, .stationUnknown, .done),
   (.driveCheckDone, .driveCheck, .done), (.driveCheckOffline, .driveCheck, .offline),
   (.armOutDone, .armOut, .done), (.armOutKeep, .armOut, .keep)]

/-- A line typed at an empty held line acts as the command it spells (R138 to R141). -/
def Obligations.TypedLinesActAsTheirCommands : Prop :=
  ∀ s : State, s.pr.held = [] → s.pr.tooLong = false →
    let types := fun (t : Text) (c : Instr) => exec (.panelLine (typed t)) s = exec c s
    types (ascii ['L', 'I', 'S', 'T']) .list ∧
    types (ascii ['Q', 'U', 'I', 'E', 'S', 'C', 'E']) .panelQuiesce ∧
    types (ascii ['R', 'E', 'S', 'U', 'M', 'E']) .panelResume ∧
    types (ascii ['A', 'C', 'K', ' ', 'A', 'L', 'L']) .ackAll ∧
    ∀ n < 100,
      types (ascii ['A', 'C', 'K', ' '] ++ twoDigits n) (.ack n) ∧
      ∀ x ∈ replyCommands, (∀ p, s.prompt? n = some p → p.kind = x.2.1) → types (twoDigits n ++ [space] ++ x.2.2.text) (x.1 n)

/-- A prompt acknowledged: its timer is stopped, its level stays (R139). -/
def Sys2Proof.Machine.acknowledged (p : Prompt) : Prompt := { p with acked := true, timer := none }

/-- The answers of the lines that no form fits and of the replies that no prompt takes (R138, R141). ACK n acknowledges the outstanding prompt n and stops its timer, ACK
ALL does so to every prompt, LIST owes every prompt's line; each is answered ACCEPTED, and but for the attention outputs changes nothing else (R139, R140). -/
def Obligations.AnswersOfPanelLines : Prop :=
  ∀ s : State, s.Settled → s.pr.answers.length < 4 →
    (∀ (n : Nat), ∀ x ∈ replyCommands,
      (s.prompt? n = none → exec (x.1 n) s = .next (panelSays s .noSuchPrompt)) ∧
      (∀ p, s.prompt? n = some p → p.kind ≠ x.2.1 ∨ p.accepts.contains x.2.2 = false →
        exec (x.1 n) s = .next (panelSays s .replyNotValid))) ∧
    (∀ n, s.prompt? n = none → exec (.ack n) s = .next (panelSays s .noSuchPrompt)) ∧
    (s.pr.held = [] → s.pr.tooLong = false →
      let answered := fun (t : Text) (a : Answer) => exec (.panelLine (typed t)) s = .next (panelSays s a)
      answered (ascii ['A', 'C', 'K']) .notUnderstood ∧ answered (ascii ['L', 'I', 'S', 'T', ' ', 'A', 'L', 'L']) .notUnderstood ∧
      answered (ascii ['D', 'O', 'N', 'E']) .notUnderstood ∧
      ∀ n < 100, answered (twoDigits n) .notUnderstood ∧
        (s.prompt? n = none → answered (twoDigits n ++ ascii [' ', 'L', 'I', 'S', 'T']) .noSuchPrompt) ∧
        ((s.prompt? n).isSome = true → answered (twoDigits n ++ ascii [' ', 'L', 'I', 'S', 'T']) .replyNotValid ∧
          answered (twoDigits n ++ ascii [' ', 'D', 'O', 'N', 'E', ' ', '1']) .replyNotValid)) ∧
    (∀ n p, s.prompt? n = some p →
      exec (.ack n) s = .next (panelSays ({ s with pr := { s.pr with
        list := s.pr.list.map (fun q : Prompt => if q.number = n then acknowledged q else q) } }.attend none) .accepted)) ∧
    exec .ackAll s = .next (panelSays ({ s with pr := { s.pr with list := s.pr.list.map acknowledged } }.attend none) .accepted) ∧
    exec .list s = .next (panelSays { s with pr := { s.pr with
      list := s.pr.list.map (fun q : Prompt => { q with lineOwed := true }) } } .accepted)

/-- The panel's QUIESCE and RESUME: REPLY NOT VALID where the command of that name is refused, ACCEPTED where it is taken, with the effect of that command
(R140, R184, R187). -/
def Obligations.PanelServiceWords : Prop :=
  ∀ s : State, s.Settled → s.pr.answers.length < 4 →
    let emptied := { s with pr := { s.pr with held := [], tooLong := false } }
    (s.svc.state = .starting ∨ s.svc.state = .interrupted → exec .panelQuiesce s = .next (panelSays s .replyNotValid)) ∧
    (s.svc.state = .quiescing ∨ s.svc.state = .quiesced → exec .panelQuiesce s = .next (panelSays s .accepted)) ∧
    (s.svc.state = .active ∨ s.svc.state = .homing ∨ s.svc.state = .resuming → ∃ u,
      exec .panelQuiesce s = .next ((emptied.afterAct u).answer .accepted).finishStep ∧
      u.svc = ⟨.quiescing, s.svc.doorMark, false, false⟩) ∧
    (s.svc.state ≠ .quiescing → s.svc.state ≠ .quiesced → exec .panelResume s = .next (panelSays s .replyNotValid)) ∧
    (s.svc.state = .quiescing ∨ s.svc.state = .quiesced → ∃ u,
      exec .panelResume s = .next ((emptied.afterAct u).answer .accepted).finishStep ∧
      u.svc.state = .resuming ∧ u.svc.doorMark = false)

/-- The reply commands answered ACCEPTED: the answer waits for the line, then the reply acts, and leaves `u` (R141). -/
def Sys2Proof.Machine.State.replies (s : State) (c : Instr) (u : State) : Prop :=
  let answered := { s with pr := { s.pr with held := [], tooLong := false, answers := s.pr.answers ++ [Answer.accepted] } }
  exec c s = .next (answered.afterAct u).finishStep

/-- A request finishes with a reply: it owes the reply, holds nothing, and is FINISHED (R56). -/
def Sys2Proof.Machine.finishedWith (s u : State) (r : Request) (reply : Reply) : Prop :=
  u.port.replyOwed = s.port.replyOwed ++ [(r.tag, reply)] ∧
    ∃ q, u.request? r.tag = some q ∧ q.state = .finished ∧ q.outcome = some reply ∧ q.volume = none ∧ q.claimed = none ∧ q.order = none

/-- A request has entered WAIT_VOLUME for a reason, and names no prompt (R55, R71, R76). -/
def Sys2Proof.Machine.waitsFor (u : State) (r : Request) (reason : WaitReason) : Prop :=
  ∃ q, u.request? r.tag = some q ∧ q.state = .waitVolume ∧ q.reason = some reason ∧ q.prompt = none ∧ q.resume = none

/-- A request is to finish with an outcome: it is pending, or given (R72). -/
def Sys2Proof.Machine.endsWith (u : State) (r : Request) (reply : Reply) : Prop :=
  ∃ q, u.request? r.tag = some q ∧ (q.pending = some reply ∨ q.outcome = some reply)

/-- A prompt answered has left the list; no owed equipment prompt takes its number (R131). -/
def Sys2Proof.Machine.answeredPrompt (s u : State) (n : Nat) : Prop := s.pr.owed = [] → u.prompt? n = none

/-- The replies by which a request finishes, or waits for its volume: CANCEL of VOLUME_SUSPECT, VOLUME_LOST, SCRATCH_EMPTY and MANUAL_MOUNT, LABEL_MISMATCH ACCEPT,
FOUND, SCRATCH_EMPTY DONE and PROCEED (R68, R71, R76, R144). -/
def Obligations.RepliesThatSettleARequest : Prop :=
  ∀ (s : State) (n : Nat) (p : Prompt) (tag : Half) (r : Request), s.pr.answers.length < 4 → s.prompt? n = some p →
    p.tag = some tag → s.request? tag = some r →
    let finishes := fun (c : Instr) (reply : Reply) => ∃ u, s.replies c u ∧ answeredPrompt s u n ∧ finishedWith s u r reply
    let waits := fun (c : Instr) (reason : WaitReason) => ∃ u, s.replies c u ∧ answeredPrompt s u n ∧ waitsFor u r reason
    (p.kind = .volumeSuspect → finishes (.volumeSuspectCancel n) (.failed .operatorCancel)) ∧
    (p.kind = .volumeLost → finishes (.volumeLostCancel n) (.failed .volumeLost) ∧ waits (.volumeLostFound n) .volume) ∧
    (p.kind = .scratchEmpty → finishes (.scratchEmptyCancel n) (.failed .noScratch) ∧ waits (.scratchEmptyDone n) .pool) ∧
    (p.kind = .manualMount → finishes (.manualMountCancel n) (.failed .operatorCancel)) ∧
    (p.kind = .labelMismatch → ∀ d serial, s.ownDrive r = some d → r.volume.bind s.serialOf = some serial →
      finishes (.labelMismatchAccept n) (.mounted d serial (s.readOnlyFlag d))) ∧
    (p.kind = .volumeSuspect → ∀ e, p.volume = some e → ∃ u, s.replies (.volumeSuspectProceed n) u ∧ answeredPrompt s u n ∧
      ∃ q, u.request? tag = some q ∧ q.proceeded = some e ∧ q.prompt = none ∧
        q.state = if s.othersName tag e then .waitVolume else r.resumes)

/-- The replies that act on the drive of a request: MANUAL_MOUNT DONE, the three of RING_NEEDED, and LABEL_MISMATCH REJECT (R34, R36, R38, R55, R68, R70, R71, R145). -/
def Obligations.RepliesThatActOnADrive : Prop :=
  ∀ (s : State) (n : Nat) (p : Prompt) (tag : Half) (r : Request), s.pr.answers.length < 4 → s.prompt? n = some p →
    p.tag = some tag → s.request? tag = some r →
    let does := fun (c : Instr) (effect : State → Prop) => ∃ u, s.replies c u ∧ effect u
    (p.kind = .ringNeeded → does (.ringNeededCancel n) (fun u => answeredPrompt s u n ∧ endsWith u r (.failed .ring))) ∧
    (p.kind = .labelMismatch → r.kind = .mount →
      does (.labelMismatchReject n) (fun u => answeredPrompt s u n ∧ endsWith u r (.failed .label))) ∧
    (∀ d, s.ownDrive r = some d →
      (p.kind = .labelMismatch → r.order = none → (s.drive d).state = .loaded → does (.labelMismatchReject n) (fun u =>
        answeredPrompt s u n ∧ (u.drive d).state = .unloading ∧ ∃ q, u.request? tag = some q ∧ q.state = .releasing ∧
          q.toStation = true)) ∧
      (p.kind = .manualMount → (s.drive d).sense.loaded = false → does (.manualMountDone n) (fun u =>
        answeredPrompt s u n ∧ (∃ q, u.request? tag = some q ∧ q.state = .loading) ∧
        (u.drive d).loadTimer = some ⟨s.loadLimit, 0⟩ ∧ ((u.drive d).claim.any (·.assisted)) = true)) ∧
      (p.kind = .manualMount → (s.drive d).sense.loaded = true → does (.manualMountDone n) (fun u =>
        answeredPrompt s u n ∧ (u.drive d).state = .loaded ∧ ((u.drive d).session.any (·.assisted)) = true)) ∧
      (p.kind = .ringNeeded → p.sub = some .awaitReply →
        ((s.drive d).session.isSome = true → does (.ringNeededReadonly n) (fun u =>
          answeredPrompt s u n ∧ ((u.drive d).session.any (·.readOnly)) = true ∧
          ∃ q, u.request? tag = some q ∧ q.state = (if r.verify then .verify else .finished))) ∧
        ((s.drive d).state = .loaded → does (.ringNeededFit n) (fun u =>
          (∃ q, u.prompt? n = some q ∧ q.sub = some .awaitReel ∧ q.level = 0 ∧ q.acked = false ∧ q.lineOwed = true) ∧
          (u.drive d).holdsRing = true ∧ (u.drive d).state = .unloading ∧ (u.drive d).pulse = some (.unload, s.pulseWidth)))))

/-- An accepted reply to an equipment prompt: it leaves the list, and its owner acts (R42, R43, R110, R146, R156). -/
def Obligations.EquipmentReplies : Prop :=
  ∀ (s : State) (n : Nat) (p : Prompt), s.pr.answers.length < 4 → s.prompt? n = some p →
    let does := fun (c : Instr) (effect : State → Prop) => ∃ u, s.replies c u ∧ answeredPrompt s u n ∧ effect u
    (p.kind = .stationUnknown → ∀ q, p.position = some q → does (.stationUnknownDone n) (fun u =>
      ∀ x, u.station x = s.station x ∧ Notice.importTest q ∈ u.notices)) ∧
    (p.kind = .armOut → ∀ a, p.arm = some a →
      does (.armOutKeep n) (fun u => ∀ b, u.arm b = s.arm b) ∧
      ((s.arm a).state = .outOfService → does (.armOutDone n) (fun u =>
        (u.arm a).state = .homing ∧ (u.arm a).leaveMark = false ∧ (u.arm a).failCount = 0))) ∧
    (p.kind = .driveCheck → ∀ d, p.drive = some d → (s.drive d).state = .check →
      ((s.drive d).sense.released = true →
        does (.driveCheckDone n) (fun u => (u.drive d).state = .released ∧ (u.drive d).online = (s.drive d).online) ∧
        does (.driveCheckOffline n) (fun u => (u.drive d).state = .released ∧ (u.drive d).online = false)) ∧
      ((s.drive d).sense.released = false → (s.drive d).sense.loaded = true →
        does (.driveCheckDone n) (fun u => (u.drive d).state = .loaded ∧ (u.drive d).online = (s.drive d).online) ∧
        does (.driveCheckOffline n) (fun u => (u.drive d).state = .unloading ∧ (u.drive d).online = false ∧
          (u.drive d).pulse = some (.unload, s.pulseWidth) ∧ (u.drive d).releaseTimer = some s.releaseLimit)) ∧
      ((s.drive d).sense.released = false → (s.drive d).sense.loaded = false →
        does (.driveCheckDone n) (fun u => (u.drive d).state = (if (s.drive d).online then .empty else .offline) ∧
          (u.drive d).claim = none ∧ (u.drive d).session = none ∧ (u.drive d).volume = none) ∧
        does (.driveCheckOffline n) (fun u => (u.drive d).state = .offline ∧ (u.drive d).online = false ∧
          (u.drive d).claim = none ∧ (u.drive d).session = none ∧ (u.drive d).volume = none)))

/-- When a line has been sent the next is the first of ALL PROMPTS WITHDRAWN, the oldest answer, the oldest withdrawal, and the first outstanding
prompt whose line is owed, composed as it then stands (R133, R135). -/
def Obligations.PanelLineSent : Prop :=
  ∀ s : State, s.Settled → s.pr.sending.isSome = true →
    let sends := fun (pr : PromptBlock) (line : Text) =>
      exec .panelLineSent s = .next { s with pr := { pr with sending := some (line ++ [0x0D, 0x0A]) } }
    (s.pr.allWithdrawn = true → sends { s.pr with allWithdrawn := false } allWithdrawnLine) ∧
    (s.pr.allWithdrawn = false → ∀ a rest, s.pr.answers = a :: rest → sends { s.pr with answers := rest } a.text) ∧
    (s.pr.allWithdrawn = false → s.pr.answers = [] →
      (∀ n rest, s.pr.withdrawals = n :: rest → sends { s.pr with withdrawals := rest } (withdrawalLine n)) ∧
      (s.pr.withdrawals = [] →
        (∀ before p after, s.pr.list = before ++ p :: after → (∀ q ∈ before, q.lineOwed = false ∧ q.number ≠ p.number) →
          (∀ q ∈ after, q.number ≠ p.number) → p.lineOwed = true →
          sends { s.pr with list := before ++ { p with lineOwed := false } :: after }
            ((twoDigits p.number ++ List.replicate p.level 0x2A ++ [space] ++ s.composedText p).take 72)) ∧
        ((∀ p ∈ s.pr.list, p.lineOwed = false) → exec .panelLineSent s = .next { s with pr := { s.pr with sending := none } })))

/-- An expiry of a running escalation timer below level 3 raises the level, restarts the timer and owes the line; at level 3 it stops an equipment prompt's
timer and owes its line, and withdraws a request-related prompt, whose request is put away FAILED(OPERATOR_TIMEOUT) (R142, R143). A stopped timer does not
expire (log 3). -/
def Obligations.EscalationExpiry : Prop :=
  ∀ (s : State) (n : Nat), s.Settled →
    ((∀ p, s.prompt? n = some p → p.timer = none) → exec (.escalationExpiry n) s = .next s) ∧
    (∀ p, s.prompt? n = some p → p.timer.isSome = true →
      let rewrite := fun f : Prompt → Prompt =>
        { s with pr := { s.pr with list := s.pr.list.map (fun q : Prompt => if q.number = n then f q else q) } }
      (p.level < 3 → exec (.escalationExpiry n) s = .next ((rewrite (fun q => { q with
        level := q.level + 1, timer := some (s.escalationPeriod p.kind.severity), lineOwed := true })).attend
          (some (p.level + 1))).panelPump) ∧
      (3 ≤ p.level → p.kind.requestRelated = false → exec (.escalationExpiry n) s = .next (rewrite (fun q => { q with
        timer := none, lineOwed := true })).panelPump) ∧
      (3 ≤ p.level → p.kind.requestRelated = true → ∃ u, s.ActsBy (.escalationExpiry n) u ∧ answeredPrompt s u n ∧
        ∀ tag r, p.tag = some tag → s.request? tag = some r → endsWith u r (.failed .operatorTimeout)))

/-- A cadence unit: what starts a cadence, what each expiry of its phase timer does, and how it follows its governing level (R148 to R150; where the
cadence table's mode has changed, log 7). A stopped timer does not expire (log 3). -/
def Obligations.AttentionUnits : Prop :=
  (∀ (s : State) (o : Output), s.Settled → (s.attnUnit o).timer = none → exec (.phaseTimerExpiry o) s = .next s) ∧
  (∀ (s : State) (o : Output) (level : Nat) (c : Cadence) (p : Phase) (t : Nat), s.Settled →
    s.attnUnit o = ⟨some level, c, p, some t⟩ →
    let now := s.cadenceItem (match o with | .lamp => 26 + 2 * level | .horn => 27 + 2 * level)
    let goes := fun u : AttnUnit => exec (.phaseTimerExpiry o) s = .next (s.setAttnUnit o u)
    (∀ on off on' off', c = .blink on off → now = .blink on' off' →
      (p = .on → goes ⟨some level, now, .off, some off'⟩) ∧ (p = .off → goes ⟨some level, now, .on, some on'⟩)) ∧
    (∀ on on', c = .oneShot on → now = .oneShot on' → goes ⟨some level, now, .ended, none⟩)) ∧
  (∀ (level : Option Nat) (on off : Nat),
    startCadence level .off = ⟨level, .off, .off, none⟩ ∧ startCadence level .steady = ⟨level, .steady, .on, none⟩ ∧
    startCadence level (.oneShot on) = ⟨level, .oneShot on, .on, some on⟩ ∧
    startCadence level (.blink on off) = ⟨level, .blink on off, .on, some on⟩) ∧
  (∀ (s : State) (entered : Option Nat) (o : Output),
    let t := s.attend entered
    t.pr = s.pr ∧ (t.attnUnit o).level = s.governing o ∧
    (s.governing o ≠ (s.attnUnit o).level → t.attnUnit o = startCadence (s.governing o) (match s.governing o with
      | none => .off
      | some level => s.cadenceItem (match o with | .lamp => 26 + 2 * level | .horn => 27 + 2 * level))) ∧
    (∀ l on, s.governing o = some l → (s.attnUnit o).level = some l → (s.attnUnit o).cadence = .oneShot on → entered = some l →
      t.attnUnit o = startCadence (some l) (s.cadenceItem (match o with | .lamp => 26 + 2 * l | .horn => 27 + 2 * l))) ∧
    (s.governing o = (s.attnUnit o).level → entered ≠ s.governing o ∨ (∀ on, (s.attnUnit o).cadence ≠ .oneShot on) →
      t.attnUnit o = s.attnUnit o)) ∧
  (∀ s : State, (∀ p ∈ s.pr.list, p.level ≤ (s.governing .lamp).getD 0) ∧
    (∀ p ∈ s.pr.list, p.acked = false → p.level ≤ (s.governing .horn).getD 0) ∧
    (s.governing .lamp = none ↔ s.pr.list = []) ∧ (s.governing .horn = none ↔ ∀ p ∈ s.pr.list, p.acked = true) ∧
    (∀ l, s.governing .lamp = some l → ∃ p ∈ s.pr.list, p.level = l) ∧
    (∀ l, s.governing .horn = some l → ∃ p ∈ s.pr.list, p.acked = false ∧ p.level = l))
/-! ### The arms (R6 to R12, R85, R90, R99 to R108) -/

/-- The frame being sent on an arm port ends: the first frame waiting takes the line, and a LEG, HOME or STATUS becomes outstanding at that moment, with
the limits of the settings as they then stand (R85, R100, R193). -/
def Obligations.ArmFrameSent : Prop :=
  ∀ (s : State) (a : ArmId), s.Settled →
    (s.armPort a).sending = none ∧ exec (.armFrameSent a) s = .next s ∨ (s.armPort a).sending.isSome = true ∧
    ((s.armPort a).waiting = [] → exec (.armFrameSent a) s = .next (s.setArmPort a ⟨(s.armPort a).rx, none, []⟩)) ∧
    (∀ f rest, (s.armPort a).waiting = f :: rest →
      let sent := s.setArmPort a ⟨(s.armPort a).rx, some f, rest⟩
      let out := fun o : Outstanding => exec (.armFrameSent a) s = .next (sent.updArm a (fun x => { x with outstanding := some o }))
      let leg := fun (l : Leg) (lo hi : Nat) => f = .leg l → out (.leg l (s.legVolume a l) lo hi)
      (f = .stop → exec (.armFrameSent a) s = .next sent) ∧
      (f = .home → out (.home s.homeLimit)) ∧ (f = .status → out (.status s.statusLimit)) ∧
      (∀ c, let d := (c - (s.arm a).column) + ((s.arm a).column - c)
        leg (.travel (some c)) (d * s.setting 11) (s.setting 12 + d * s.setting 13)) ∧
      (∀ p, leg (.pick p) (s.setting 14) (s.setting 15)) ∧ (∀ p, leg (.place p) (s.setting 16) (s.setting 17)) ∧
      (∀ slot, leg (.read slot) (s.setting 18) (s.setting 19)))

/-- The reading and the gripper flag of a LEG_DONE that completes a leg as it should (R100). -/
def Sys2Proof.Machine.fits (s : State) (a : ArmId) (l : Leg) (r : LegReport) : Prop :=
  (∀ c, l = .travel c → ((s.arm a).gripper = .empty ↔ r.loaded = 0)) ∧ (∀ p, l = .place p → r.loaded = 0) ∧
    (∀ d, l = .pick (.drive d) → r.loaded ≠ 0)

/-- A leg of an arm has failed with a cause: the failure is pending, the order FAILED, the arm in STATUS_WAIT, and STATUS sent (R103). -/
def Sys2Proof.Machine.legFailed (s u : State) (a : ArmId) (l : Leg) (volume : Option Nat) (cause : Cause) : Prop :=
  (u.arm a).state = .statusWait ∧ (u.arm a).failure = some ⟨l, volume, cause, false⟩ ∧ (u.arm a).linger = none ∧
    (u.arm a).gripper = (s.arm a).gripper ∧ (u.arm a).column = (s.arm a).column ∧ u.sch.zones = s.sch.zones ∧
    (∀ id o, (s.arm a).order = some id → s.order? id = some o → (u.order? id).map (·.state) = some .failed) ∧
    ((s.armPort a).sending = none → (u.armPort a).sending = some .status ∧ (u.arm a).outstanding = some (.status s.statusLimit)) ∧
    ((s.armPort a).sending.isSome = true → (u.armPort a).waiting = (s.armPort a).waiting ++ [.status] ∧ (u.arm a).outstanding = none)

/-- A report that answers nothing outstanding raises LATE_COMPLETION, but from a FAULTED arm or one stopped at a door opening (R101). -/
def Sys2Proof.Machine.late (s : State) (a : ArmId) : State :=
  if (s.arm a).state = .faulted ∨ (s.arm a).stopped = true then s else s.raise .lateCompletion

/-- What ends a leg's window (R100, R101): a LEG_DONE too early, with a gripper flag that does not fit, a LEG_FAULT, or the end of its time fails the leg; a LEG_DONE past
it comes late; with no leg outstanding a report is late, but from a FAULTED arm or one stopped at a door opening. -/
def Obligations.LegOutcomes : Prop :=
  (∀ (s : State) (a : ArmId) (l : Leg) (volume : Option Nat) (lo hi : Nat), (s.arm a).outstanding = some (.leg l volume lo hi) →
    (∀ (r : LegReport) (ticks : Nat), ticks < lo → ticks ≤ hi →
      ∃ u, s.ActsBy (.legDone a r ticks) u ∧ legFailed s u a l volume .shortLeg) ∧
    (∀ (r : LegReport) (ticks : Nat), hi < ticks →
      ∃ u, s.ActsBy (.legDone a r ticks) u ∧ legFailed s u a l volume .legTimeout ∧
        ((s.arm a).stopped = false → u.port.flags.getLsbD 11 = true)) ∧
    (∀ (r : LegReport) (ticks : Nat), lo ≤ ticks → ticks ≤ hi → ¬fits s a l r →
      ∃ u, s.ActsBy (.legDone a r ticks) u ∧ legFailed s u a l volume .armReported) ∧
    (∀ code loaded, ∃ u, s.ActsBy (.legFault a code loaded) u ∧ legFailed s u a l volume .armReported ∧
      (u.arm a).lastFault = some code) ∧
    (∃ u, s.ActsBy (.legTimeout a) u ∧ legFailed s u a l volume .legTimeout)) ∧
  (∀ (s : State) (a : ArmId), (∀ l volume lo hi, (s.arm a).outstanding ≠ some (.leg l volume lo hi)) →
    (∀ r ticks, s.ActsBy (.legDone a r ticks) (late s a)) ∧ s.ActsBy (.legTimeout a) s ∧
    ((∀ limit, (s.arm a).outstanding ≠ some (.home limit)) → ∀ code loaded, s.ActsBy (.legFault a code loaded) (late s a))) ∧
  (∀ (s : State) (a : ArmId), (∀ limit, (s.arm a).outstanding ≠ some (.home limit)) → ∀ column, s.ActsBy (.homeDone a column) (late s a)) ∧
  (∀ (s : State) (a : ArmId), (∀ limit, (s.arm a).outstanding ≠ some (.status limit)) → ∀ r, s.ActsBy (.statusReply a r) (late s a))

/-- A completed TRAVEL, READ, and the PICK and PLACE of a known reel (R6 to R10, R99): the column is the target; the volume is in the gripper, or at the
slot, drive or position, and gripper, drive and position name it in step; a reading is compared with the slot map. A PICK at a slot or a position that reads
another reel, or none, leaves the expected volume MISSING, wherever it is recorded by then (DESIGN CHOICE, log 69), at a slot with its error count raised when a reel is held (R11, R102). A gripper byte other than 0
counts as loaded (log 16), and a reading code other than 0 with a reel held as unreadable (DEDUCED, log 37); a station PICK that reads another
reel holds it unknown, whichever volume its serial names (DEDUCED, log 63), and leaves no record there (DESIGN CHOICE, log 57). Of a PLACE at a drive the case with LOADED already high, and the end of a put-back, are not stated here. -/
def Obligations.CompletedLegs : Prop :=
  ∀ (s : State) (a : ArmId) (l : Leg) (volume : Option Nat) (lo hi : Nat) (r : LegReport) (ticks : Nat),
    (s.arm a).outstanding = some (.leg l volume lo hi) → lo ≤ ticks → ticks ≤ hi → fits s a l r →
    ∃ u, s.ActsBy (.legDone a r ticks) u ∧
      (∀ c, l = .travel (some c) → (s.arm a).move = none → (u.arm a).column = c ∧ (u.arm a).gripper = (s.arm a).gripper ∧
        u.dir = s.dir) ∧
      (∀ slot e v, l = .pick (.slot slot) → volume = some e → s.vol? e = some v → r.loaded ≠ 0 → r.reading = 0 → r.serial = v.serial →
        isPaddedName v.serial = true →
          (u.arm a).gripper = .volume e ∧ u.vol? e = some { v with loc := .inArm a }) ∧
      (∀ d e v, l = .pick (.drive d) → (s.drive d).volume = some e → s.vol? e = some v → (s.drive d).state = .released →
        (∃ c, (s.drive d).claim = some c) →
        (u.arm a).gripper = .volume e ∧ u.vol? e = some { v with loc := .inArm a } ∧ (u.drive d).volume = none ∧
        ((s.drive d).holdsRing = false → (u.drive d).claim = none ∧ (u.drive d).session = none) ∧
        (u.drive d).state = if (s.drive d).holdsRing then .claimed else if (s.drive d).online then .empty else .offline) ∧
      (∀ slot e v, l = .place (some (.slot slot)) → (s.arm a).gripper = .volume e → s.vol? e = some v →
        (∀ o, (s.arm a).order.bind s.order? = some o → o.putBack = none) →
          (u.arm a).gripper = .empty ∧ u.vol? e = some { v with loc := .home } ∧
          (Canonical s.dir.findings → ∀ h, v.home = some h → u.finding? h = none)) ∧
      (∀ d e v, l = .place (some (.drive d)) → (s.arm a).gripper = .volume e → s.vol? e = some v →
        (∀ o, (s.arm a).order.bind s.order? = some o → o.putBack = none) → (s.drive d).sense.loaded = false →
          (u.arm a).gripper = .empty ∧ u.vol? e = some { v with loc := .inDrive d } ∧ (u.drive d).volume = some e ∧
          (u.drive d).state = .placed ∧ (u.drive d).pulse = some (.load, s.pulseWidth)) ∧
      (∀ p e v, l = .place (some (.station p)) → (s.arm a).gripper = .volume e → s.vol? e = some v →
        (∀ o, (s.arm a).order.bind s.order? = some o → o.putBack = none) →
          (u.arm a).gripper = .empty ∧ u.vol? e = some { v with loc := .atStation p } ∧ (u.station p).volume = some e ∧
          (u.station p).lifted = false) ∧
      (∀ slot, l = .read slot → (u.arm a).gripper = (s.arm a).gripper ∧ u.dir = (s.slotReading slot (legReading r l)).1.dir) ∧
      (∀ slot e v, l = .pick (.slot slot) → volume = some e → s.vol? e = some v →
        (r.loaded = 0 → ∃ w, u.vol? e = some w ∧ w.loc = .missing ∧ w.errors = v.errors) ∧
        (r.loaded ≠ 0 → r.reading ≠ 0 ∨ r.serial ≠ v.serial → (u.arm a).gripper = .unknown ∧
          ∃ w, u.vol? e = some w ∧ w.loc = .missing ∧ w.errors = min 15 (v.errors + 1))) ∧
      (∀ p e v, l = .pick (.station p) → volume = some e → s.vol? e = some v →
        (r.loaded ≠ 0 → r.reading = 0 → r.serial = v.serial → isPaddedName v.serial = true → v.loc = .atStation p →
          s.entryOf v.serial = some e → (u.arm a).gripper = .volume e ∧ u.vol? e = some { v with loc := .inArm a } ∧
            (u.station p).volume = none ∧ (u.station p).lifted = true) ∧
        (r.loaded ≠ 0 → r.reading ≠ 0 ∨ r.serial ≠ v.serial → (u.arm a).gripper = .unknown ∧ (u.station p).volume = none ∧
          ∃ w, u.vol? e = some w ∧ w.loc = .missing))

/-- Nothing but what an arm does is left to do: no request, claim, owed order, import or return waits, and the other arm runs nothing. -/
def Sys2Proof.Machine.quietBut (s : State) (a : ArmId) : Prop :=
  s.notices = [] ∧ s.ms.queue = [] ∧ s.sch.claims = [] ∧ s.aud.scanOwed = false ∧
    (∀ d : Fin 16, s.sch.owedRecovers[d] = false ∧ (s.drive d).claim = none ∧ (s.drive d).state ≠ .released) ∧
    (∀ p, (s.station p).reserved = none ∧ (s.station p).importOwed = false) ∧ (s.arm (otherArm a)).state ≠ .running ∧
    (s.arm a).leaveMark = false ∧ (s.arm a).limitMark = false ∧ (s.arm a).move = none ∧ (s.armPort a).waiting = []

/-- A STATUS_REPLY in STATUS_WAIT that is used: the column is the reply's, the failed order leaves the pool, and the failure count rises, up to 15; at the
arm failure limit an empty arm leaves service (R104, R107), and below it, with nothing else to do, the next state has the arm IDLE. One taken as unanswered,
by the limit, its fault flag, which is read before its column (log 38), or its column, takes the arm out of service (R105). A flag or gripper byte other
than 0 is taken as yes (log 16). -/
def Obligations.StatusOutcomes : Prop :=
  ∀ (s : State) (a : ArmId) (limit : Nat), (s.arm a).outstanding = some (.status limit) → (s.arm a).state = .statusWait →
    (∀ r : StatusReport, r.faultFlag = 0 → r.loaded = 0 → r.column.toNat < 32 → s.holds a (r.column.toNat / 4) = true →
      (s.arm a).limitMark = false →
      let leaves := s.armFailureLimit ≤ min 15 ((s.arm a).failCount + 1)
      (∃ u, s.ActsBy (.statusReply a r) u ∧ (u.arm a).column = r.column.toNat ∧ (u.arm a).gripper = .empty ∧
        (u.arm a).failCount = min 15 ((s.arm a).failCount + 1) ∧ (u.arm a).order = none ∧ (u.arm a).failure = none ∧
        (∀ id, (s.arm a).order = some id → u.order? id = none) ∧
        (∀ z, u.holds a z = true ↔ z = r.column.toNat / 4) ∧ (leaves → (u.arm a).state = .outOfService)) ∧
      (∀ (o : Order) (f : Failure), quietBut s a → s.svc.state = .active → s.sch.pool = [o] → (s.arm a).order = some o.id →
        o.kind ≠ .scan → o.kind ≠ .handIn → (s.arm a).failure = some f → (∃ p, f.leg = .pick p) ∨ f.volume = none →
        ∃ t, exec (.statusReply a r) s = .next t ∧ (t.arm a).state = (if leaves then .outOfService else .idle) ∧
          (t.arm a).column = r.column.toNat ∧ (t.arm a).gripper = .empty ∧ (t.arm a).order = none ∧ t.sch.pool = [])) ∧
    (∀ r : StatusReport, r.faultFlag ≠ 0 ∨ 32 ≤ r.column.toNat ∨ s.holds a (r.column.toNat / 4) = false →
      ∃ u, s.ActsBy (.statusReply a r) u ∧ (u.arm a).state = .outOfService ∧ (u.arm a).failCount = (s.arm a).failCount ∧
        u.sch.zones = s.sch.zones ∧ (r.faultFlag ≠ 0 → r.loaded = 0 → (u.arm a).gripper = .empty)) ∧
    (∃ u, s.ActsBy (.statusTimeout a) u ∧ (u.arm a).state = .outOfService ∧ (u.arm a).failCount = (s.arm a).failCount ∧
      u.sch.zones = s.sch.zones ∧ (∀ e, (s.arm a).failure = none → (s.arm a).gripper = .volume e → s.vol? e ≠ none →
        (u.arm a).gripper = .unknown ∧ ∃ v, u.vol? e = some v ∧ v.loc = .missing))

/-- Homing (R108): a HOME_DONE with a column in a held zone sets the column and sends STATUS, and the arm stays HOMING; the used reply clears the homing-owed
mark, and with nothing else to do the next state has an empty arm IDLE; a failed reply, the HOME limit, a LEG_FAULT and the STATUS limit take the arm
out of service. The linger timer's end releases the arm's lingering zones, and no others (R99). The fault flag is read before the column (log 38), a flag
or gripper byte other than 0 is taken as yes (log 16), and timers that do not run do not expire (log 3). -/
def Obligations.HomingAndLinger : Prop :=
  (∀ (s : State) (a : ArmId) (limit : Nat), (s.arm a).outstanding = some (.home limit) → (s.arm a).state = .homing →
    (∀ column : Byte, column.toNat < 32 → s.holds a (column.toNat / 4) = true → (s.armPort a).sending = none →
      ∃ u, s.ActsBy (.homeDone a column) u ∧ (u.arm a).column = column.toNat ∧ (u.arm a).state = .homing ∧
        (∀ z, u.holds a z = true ↔ z = column.toNat / 4) ∧
        (u.arm a).outstanding = some (.status s.statusLimit) ∧ (u.armPort a).sending = some .status) ∧
    (∀ column : Byte, 32 ≤ column.toNat ∨ s.holds a (column.toNat / 4) = false →
      ∃ u, s.ActsBy (.homeDone a column) u ∧ (u.arm a).state = .outOfService ∧ u.sch.zones = s.sch.zones) ∧
    (∀ code loaded, ∃ u, s.ActsBy (.legFault a code loaded) u ∧ (u.arm a).state = .outOfService ∧ (u.arm a).lastFault = some code) ∧
    (∃ u, s.ActsBy (.homeTimeout a) u ∧ (u.arm a).state = .outOfService ∧ (u.arm a).outstanding = none ∧ u.sch.zones = s.sch.zones)) ∧
  (∀ (s : State) (a : ArmId) (limit : Nat), (s.arm a).outstanding = some (.status limit) → (s.arm a).state = .homing →
    (∀ r : StatusReport, r.faultFlag = 0 → r.column.toNat < 32 → s.holds a (r.column.toNat / 4) = true →
      (∃ u, s.ActsBy (.statusReply a r) u ∧ (u.arm a).column = r.column.toNat ∧ u.homingOwed a = false ∧
        (∀ z, u.holds a z = true ↔ z = r.column.toNat / 4) ∧
        (r.loaded = 0 → (u.arm a).gripper = .empty ∧ ((s.arm a).leaveMark = true → (u.arm a).state = .outOfService))) ∧
      (r.loaded = 0 → quietBut s a → s.svc.state = .homing → s.homingOwed (otherArm a) = true → s.sch.pool = [] →
        (s.arm a).failure = none → (s.arm a).gripper.volume? = none → (s.arm a).order = none →
        ∃ t, exec (.statusReply a r) s = .next t ∧ (t.arm a).state = .idle ∧ (t.arm a).column = r.column.toNat ∧
          (t.arm a).gripper = .empty ∧ t.homingOwed a = false ∧ t.svc.state = .homing)) ∧
    (∀ r : StatusReport, r.faultFlag ≠ 0 ∨ 32 ≤ r.column.toNat ∨ s.holds a (r.column.toNat / 4) = false →
      ∃ u, s.ActsBy (.statusReply a r) u ∧ (u.arm a).state = .outOfService ∧ u.sch.zones = s.sch.zones) ∧
    (∃ u, s.ActsBy (.statusTimeout a) u ∧ (u.arm a).state = .outOfService ∧ u.sch.zones = s.sch.zones)) ∧
  (∀ (s : State) (a : ArmId) (t : Nat), (s.arm a).linger = some t →
    ∃ u, s.ActsBy (.lingerExpiry a) u ∧ (u.arm a).linger = none ∧
      ∀ z, u.zone? z = if s.zone? z = some ⟨a, .lingering⟩ then none else s.zone? z) ∧
  (∀ (s : State) (a : ArmId), (s.arm a).linger = none → s.ActsBy (.lingerExpiry a) s) ∧
  (∀ (s : State) (a : ArmId), (∀ t, (s.arm a).outstanding ≠ some (.home t)) → s.ActsBy (.homeTimeout a) s) ∧
  (∀ (s : State) (a : ArmId), (∀ t, (s.arm a).outstanding ≠ some (.status t)) → s.ActsBy (.statusTimeout a) s)
/-! ### Drives (R25 to R44, R54, R69) -/

/-- A debounced change of a line is due: an interval runs at an installed drive, and its raw input holds the new level (R25). -/
def Sys2Proof.Machine.due (s : State) (d : Fin 16) (line : SenseLine) (level : Bool) : Prop :=
  (s.drive d).installed = true ∧ ((s.drive d).intervals.get line).isSome = true ∧ (s.drive d).raw.get line = level ∧
    (s.drive d).sense.get line ≠ level

/-- The debounced level of a line has changed, its interval has ended, and DRIVE_SENSE is raised where the edge is enabled (R25, R26). -/
def Sys2Proof.Machine.sensed (s : State) (d : Fin 16) (line : SenseLine) (level : Bool) : State :=
  let t := s.setDrive d { s.drive d with
    sense := (s.drive d).sense.put line level, intervals := (s.drive d).intervals.put line none }
  if (s.drive d).edges.enabled line level then t.raise .driveSense else t

/-- A change of a raw input away from its debounced level starts an interval, with the drive's debounce time or the door and station setting, one back to it drops the
interval; the debounced level stays. No interval runs at a drive that is not installed (R25, R26, R151). -/
def Obligations.RawInputChanges : Prop :=
  (∀ (s : State) (d : Fin 16) (line : SenseLine) (level : Bool), s.Settled →
    let x := s.drive d
    let becomes := fun i : Intervals =>
      exec (.driveRawChange d line level) s = .next (s.setDrive d { x with raw := x.raw.put line level, intervals := i })
    (x.raw.get line = level → becomes x.intervals) ∧ (x.installed = false → becomes x.intervals) ∧
    (x.raw.get line ≠ level → x.installed = true → x.sense.get line = level → becomes (x.intervals.put line none)) ∧
    (x.raw.get line ≠ level → x.installed = true → x.sense.get line ≠ level → becomes (x.intervals.put line (some x.debounce)))) ∧
  (∀ (s : State) (level : Bool), s.Settled →
    (s.mon.doorRaw = level → exec (.inputRawChange .door level) s = .next s) ∧
    (s.mon.doorRaw ≠ level → exec (.inputRawChange .door level) s = .next { s with mon := { s.mon with
      doorRaw := level
      doorInterval := if level = s.mon.doorClosed then none else some (s.mon.doorInterval.getD s.stationDebounce) } })) ∧
  (∀ (s : State) (p : Fin 8) (level : Bool), s.Settled →
    ((s.station p).raw = level → exec (.inputRawChange (.presence p) level) s = .next s) ∧
    ((s.station p).raw ≠ level → exec (.inputRawChange (.presence p) level) s = .next (s.setStation p { s.station p with
      raw := level
      interval := if level = (s.station p).presence then none else some ((s.station p).interval.getD s.stationDebounce) })))

/-- The debounced changes of LOADED (R30, R33, R34, R37, R38, R44). With no change due nothing changes (log 3). -/
def Obligations.LoadedChanges : Prop :=
  (∀ (s : State) (d : Fin 16), s.Settled → (¬due s d .loaded true → exec (.loadedRise d) s = .next s) ∧
    (¬due s d .loaded false → exec (.loadedFall d) s = .next s)) ∧
  (∀ (s : State) (d : Fin 16), due s d .loaded true →
    let x := s.drive d
    let t := sensed s d .loaded true
    ∃ u, s.ActsBy (.loadedRise d) u ∧ (u.drive d).sense = x.sense.put .loaded true ∧
      (x.state = .empty → u = t.setDrive d { t.drive d with state := .unmanaged, loadCount := x.loadCount + 1 }) ∧
      (x.state = .claimed → x.placeExpected = true → u = t) ∧
      (∀ c, x.state = .claimed → x.placeExpected = false → x.claim = some c → c.manual = none →
        (u.drive d).state = .unmanaged ∧ (u.drive d).claim = none ∧ (u.drive d).loadTimer = none) ∧
      (∀ c e, x.state = .claimed → x.placeExpected = false → x.claim = some c → c.manual = some e → x.loadTimer = none → u = t) ∧
      (∀ c, (x.state = .placed ∧ c.detached = false) ∨
          (x.state = .claimed ∧ x.placeExpected = false ∧ c.manual.isSome = true ∧ x.loadTimer.isSome = true) ∨
          (x.state = .released ∧ c.ringHold = true) → x.claim = some c →
        (u.drive d).state = .loaded ∧ (u.drive d).loadTimer = none ∧ (u.drive d).loadCount = x.loadCount + 1 ∧
        (u.drive d).session = some ⟨c.account, s.port.clock, c.write, false, c.assisted⟩ ∧
        (∀ e v, x.volume = some e → s.vol? e = some v → ∃ w, u.vol? e = some w ∧ w.mounts = min 65535 (v.mounts + 1) ∧
          w.lastMount = some s.port.clock ∧ w.ring = (if x.sense.protect then .notFitted else .fitted) ∧
          w.use = if c.scratch then .own else v.use)) ∧
      (x.state = .released → x.holdsRing = false → (u.drive d).state = .check) ∧
      (x.state = .unloading → u = if x.session = none then t.setDrive d { t.drive d with pulse := some (.unload, s.pulseWidth) } else t) ∧
      (x.state = .unmanaged ∨ x.state = .offline ∨ x.state = .loaded ∨ x.state = .check → u = t)) ∧
  (∀ (s : State) (d : Fin 16), due s d .loaded false →
    let x := s.drive d
    let t := sensed s d .loaded false
    ∃ u, s.ActsBy (.loadedFall d) u ∧
      (x.state = .loaded → u = t.setDrive d { t.drive d with state := .unloading, releaseTimer := some s.releaseLimit }) ∧
      (x.state = .unmanaged → (u.drive d).state =
        if x.sense.released then .unmanaged else if x.online then .empty else .offline) ∧
      (x.state ≠ .loaded → x.state ≠ .unmanaged → u = t))

/-- The debounced changes of RELEASED and PROTECT (R13, R32, R35, R37, R44). With no change due nothing changes (log 3). -/
def Obligations.ReleasedAndProtectChanges : Prop :=
  (∀ (s : State) (d : Fin 16), s.Settled → (¬due s d .released true → exec (.releasedRise d) s = .next s) ∧
    (¬due s d .released false → exec (.releasedFall d) s = .next s) ∧
    (¬due s d .protect (s.drive d).raw.protect → exec (.protectChange d) s = .next s)) ∧
  (∀ (s : State) (d : Fin 16), due s d .released true →
    let x := s.drive d
    let t := sensed s d .released true
    ∃ u, s.ActsBy (.releasedRise d) u ∧
      (x.state = .empty → u = t.setDrive d { t.drive d with state := .unmanaged }) ∧
      (x.state = .placed → (u.drive d).state = .check ∧ (u.drive d).loadTimer = none ∧
        (∀ e v, x.volume = some e → s.vol? e = some v → ∃ w, u.vol? e = some w ∧ w.errors = min 15 (v.errors + 1))) ∧
      (x.state = .loaded ∨ x.state = .unloading → (u.drive d).state = .released ∧ (u.drive d).releaseTimer = none ∧
        (∀ c session, x.claim = some c → x.session = some session → c.ringHold = false → c.reserved = true →
          (u.drive d).session = none ∧ ∃ rec, u.acc.records = s.acc.records ++ [rec] ∧ rec.drive = d ∧ rec.tag = c.tag ∧
            rec.account = session.account ∧ rec.outcome = .completed ∧ rec.releaseStamp = some s.port.clock)) ∧
      (x.state = .unmanaged ∨ x.state = .offline ∨ x.state = .claimed ∨ x.state = .released ∨ x.state = .check → u = t)) ∧
  (∀ (s : State) (d : Fin 16), due s d .released false →
    let x := s.drive d
    let t := sensed s d .released false
    ∃ u, s.ActsBy (.releasedFall d) u ∧
      (x.state = .unmanaged → (u.drive d).state = if x.sense.loaded then .unmanaged else if x.online then .empty else .offline) ∧
      (x.state ≠ .unmanaged → u = t)) ∧
  (∀ (s : State) (d : Fin 16) (level : Bool), due s d .protect level →
    let x := s.drive d
    let t := sensed s d .protect level
    ∃ u, exec (.protectChange d) s = .next u.finishStep ∧
      (∀ e v, x.session.isSome = true → x.volume = some e → s.vol? e = some v →
        u = t.setVol e { v with ring := if level then .notFitted else .fitted }) ∧
      (x.session = none ∨ x.volume = none → u = t))

/-- The end of a pulse turns it off and changes nothing else (R27); what the load, release and label timers do at their end (R31, R37, R40, R41, R69), and the wait timer
of a request (R54). A timer that does not run does not expire (log 3). -/
def Obligations.DriveTimers : Prop :=
  (∀ (s : State) (d : Fin 16), s.Settled → exec (.pulseEnd d) s = .next (s.setDrive d { s.drive d with pulse := none })) ∧
  (∀ (s : State) (d : Fin 16), s.Settled →
    ((s.drive d).loadTimer = none → exec (.loadTimerExpiry d) s = .next s) ∧
    ((s.drive d).releaseTimer = none → exec (.releaseTimerExpiry d) s = .next s) ∧
    ((s.drive d).labelTimer = none → exec (.labelTimerExpiry d) s = .next s)) ∧
  (∀ (s : State) (tag : Half), s.Settled → (∀ r, s.request? tag = some r → r.timer = none) →
    exec (.waitTimerExpiry tag) s = .next s) ∧
  (∀ (s : State) (d : Fin 16) (t : LoadTimer), (s.drive d).loadTimer = some t →
    (t.expiries = 0 → s.ActsBy (.loadTimerExpiry d) (s.setDrive d { s.drive d with
      pulse := some (.load, s.pulseWidth), loadTimer := some ⟨s.loadLimit, 1⟩ })) ∧
    (t.expiries ≠ 0 → ∃ u, s.ActsBy (.loadTimerExpiry d) u ∧ (u.drive d).state = .check ∧ (u.drive d).loadTimer = none ∧
      (u.drive d).volume = (s.drive d).volume ∧ (u.drive d).claim = (s.drive d).claim ∧
      (∀ e v, (s.drive d).state = .placed → (s.drive d).volume = some e → s.vol? e = some v →
        ∃ w, u.vol? e = some w ∧ w.errors = min 15 (v.errors + 1)))) ∧
  (∀ (s : State) (d : Fin 16) (t : Nat), (s.drive d).releaseTimer = some t →
    ∃ u, s.ActsBy (.releaseTimerExpiry d) u ∧ u.dir = s.dir ∧
      u.drive d = { s.drive d with state := .check, loadTimer := none, labelTimer := none, releaseTimer := none }) ∧
  (∀ (s : State) (d : Fin 16) (t : Nat), (s.drive d).labelTimer = some t →
    ∃ u, s.ActsBy (.labelTimerExpiry d) u ∧ (u.drive d).labelTimer = none ∧
      (s.verifying d = none → u = s.setDrive d { s.drive d with labelTimer := none }) ∧
      (∀ r, s.verifying d = some r → endsWith u r (.failed .noLabel))) ∧
  (∀ (s : State) (tag : Half) (r : Request) (t : Nat), s.request? tag = some r → r.timer = some t →
    ∃ u, s.ActsBy (.waitTimerExpiry tag) u ∧ endsWith u r (.failed .timedOut) ∧
      ∀ n, r.prompt = some n → answeredPrompt s u n)

/-! ### Door and stations (R151 to R160, R188) -/

/-- A debounced change of the door or of a presence input is due: an interval runs, and the raw input holds the new level (R151). -/
def Sys2Proof.Machine.inputDue (s : State) (i : RailInput) (level : Bool) : Prop :=
  match i with
  | .door => s.mon.doorInterval.isSome = true ∧ s.mon.doorRaw = level ∧ s.mon.doorClosed ≠ level
  | .presence p => (s.station p).interval.isSome = true ∧ (s.station p).raw = level ∧ (s.station p).presence ≠ level

/-- The door (R111, R152, R188): an opening changes nothing in STARTING and INTERRUPTED, sets the door-opened mark in QUIESCED, and elsewhere interrupts the library,
which stops both arms and fails what they had outstanding; a closing takes INTERRUPTED to RESUMING and homes the FAULTED arms. With no change due
nothing changes (log 3). -/
def Obligations.DoorChanges : Prop :=
  (∀ s : State, s.Settled → (¬inputDue s .door false → exec .doorOpening s = .next s) ∧
    (¬inputDue s .door true → exec .doorClosing s = .next s)) ∧
  (∀ s : State, inputDue s .door false →
    let t := { s with mon := { s.mon with doorRaw := false, doorClosed := false, doorInterval := none } }
    ∃ u, s.ActsBy .doorOpening u ∧ u.mon.doorClosed = false ∧
      (s.svc.state = .starting ∨ s.svc.state = .interrupted → u = t) ∧
      (s.svc.state = .quiesced → u = { t with svc := { t.svc with doorMark := true } }) ∧
      (s.svc.state = .homing ∨ s.svc.state = .active ∨ s.svc.state = .resuming ∨ s.svc.state = .quiescing →
        u.svc = ⟨.interrupted, s.svc.doorMark || s.svc.state == .quiescing, false, false⟩ ∧ u.sch.claims = [] ∧
        ∀ a, (u.arm a).stopped = true ∧ (u.arm a).outstanding = none ∧
          ((s.arm a).state ≠ .unhomed → (s.arm a).state ≠ .outOfService → (u.arm a).state = .faulted) ∧
          (∀ l volume lo hi, (s.arm a).outstanding = some (.leg l volume lo hi) →
            (u.arm a).failure = some ⟨l, volume, .door, true⟩))) ∧
  (∀ s : State, inputDue s .door true →
    let t := { s with mon := { s.mon with doorRaw := true, doorClosed := true, doorInterval := none } }
    ∃ u, s.ActsBy .doorClosing u ∧ u.mon.doorClosed = true ∧ (s.svc.state ≠ .interrupted → u = t) ∧
      (s.svc.state = .interrupted → u.svc.state = .resuming ∧ u.svc.doorMark = false ∧
        ∀ a, (s.arm a).state = .faulted → (u.arm a).state = .homing ∧ u.homingOwed a = true))

/-- The presence of a station position (R154, R155): each change raises STATION. A rise clears the lifted mark, else is nothing at a position that is reserved, records
a volume or has a STATION_UNKNOWN, else is tested for an import. A fall clears the lifted mark, else a recorded volume is OUTSIDE and no more recorded;
the import owed mark is cleared, and a position that is free then gives the position-free notice (R160). With no change due nothing changes (log 3). -/
def Obligations.PresenceChanges : Prop :=
  (∀ (s : State) (p : Fin 8), s.Settled → (¬inputDue s (.presence p) true → exec (.presenceRise p) s = .next s) ∧
    (¬inputDue s (.presence p) false → exec (.presenceFall p) s = .next s)) ∧
  (∀ (s : State) (p : Fin 8), inputDue s (.presence p) true →
    let x := s.station p
    let t := (s.setStation p { x with raw := true, presence := true, interval := none }).raise .station
    ∃ u, s.ActsBy (.presenceRise p) u ∧ u.port.flags.getLsbD 9 = true ∧ (u.station p).presence = true ∧
      (x.lifted = true → u = t.setStation p { t.station p with lifted := false }) ∧
      (x.lifted = false → x.reserved.isSome ∨ x.volume.isSome ∨ s.equipmentStands (.stationUnknown p) → u = t) ∧
      (x.lifted = false → x.reserved = none → x.volume = none → s.equipmentStands (.stationUnknown p) = false →
        (s.stationAutoImport = false → s.reelAwaited = false → u = t.setStation p { t.station p with importOwed := false }) ∧
        (s.stationAutoImport = true ∨ s.reelAwaited = true → s.svc.state ≠ .active →
          u = t.setStation p { t.station p with importOwed := true }) ∧
        (s.stationAutoImport = true ∨ s.reelAwaited = true → s.svc.state = .active → s.sch.pool.length < 28 →
          ∃ o, u.sch.pool = s.sch.pool ++ [o] ∧ o.kind = .handIn ∧ o.source = some (.station p) ∧
            (u.station p).reserved = some o.id ∧ (u.station p).importOwed = false))) ∧
  (∀ (s : State) (p : Fin 8), inputDue s (.presence p) false →
    let x := s.station p
    ∃ u, s.ActsBy (.presenceFall p) u ∧ u.port.flags.getLsbD 9 = true ∧ (u.station p).presence = false ∧
      (u.station p).lifted = false ∧ (u.station p).importOwed = false ∧
      (u.positionFree p = true → Notice.walk ∈ u.notices ∧ Notice.recovers ∈ u.notices) ∧
      (x.lifted = true → u.dir = s.dir ∧ (u.station p).volume = x.volume) ∧
      (x.lifted = false → (u.station p).volume = none ∧
        ∀ e v, x.volume = some e → s.vol? e = some v → ∃ w, u.vol? e = some w ∧ w = { v with loc := .outside }) ∧
      (∀ q, s.pr.list.find? (·.isFor (.stationUnknown p)) = some q →
        q.number ∈ u.pr.withdrawals ∧ answeredPrompt s u q.number))

/-! ### Readings and prompts (R10, R127 to R129) -/

/-- What is found at a slot whose own volume, or finding, does not stand against it (R10): a serial of no known volume, or an unreadable one, and that of a volume
recorded elsewhere, is FOREIGN there; a volume that is MISSING, OUTSIDE or MISPLACED in another slot is HOME or MISPLACED here, its old finding
cleared. `t` is what the reading leaves, `counts` what it counts. -/
def Sys2Proof.Machine.found (s t : State) (slot : Nat) (r : Reading) (counts : List AuditCount) : Prop :=
  (r = .noCase → t = s ∧ counts = []) ∧
  (r = .unreadable → t = s.setFinding slot .unreadable ∧ counts = [.foundForeign]) ∧
  (∀ serial, r = .serial serial → s.entryOf serial = none → t = s.setFinding slot (.serial serial) ∧ counts = [.foundForeign]) ∧
  (∀ serial e v, r = .serial serial → s.entryOf serial = some e → s.vol? e = some v →
    (v.loc = .missing ∨ v.loc = .outside ∨ (∃ other, other ≠ slot ∧ v.loc = .misplaced other) →
      (v.home = some slot → t.vol? e = some { v with loc := .home } ∧ counts = [.recovered] ∧ Notice.walk ∈ t.notices) ∧
      (v.home ≠ some slot → t.vol? e = some { v with loc := .misplaced slot } ∧ t.finding? slot = some (.serial serial) ∧
        counts = [.foundMisplaced]) ∧
      (∀ other, v.loc = .misplaced other → other ≠ slot → s.findingNames other e = true → t.finding? other = none)) ∧
    (v.loc = .home ∨ (∃ a, v.loc = .inArm a) ∨ (∃ d, v.loc = .inDrive d) ∨ (∃ p, v.loc = .atStation p) →
      t = s.setFinding slot (.serial serial) ∧ counts = [.foundForeign]))

/-- An arm's reading at a rack slot (R10): what it makes of the volume the slot is OCCUPIED by, of a finding there, and of what is found. -/
def Obligations.SlotReadings : Prop :=
  ∀ (s : State) (slot : Nat) (r : Reading), Canonical s.dir.entries → Canonical s.dir.findings →
    let t := (s.slotReading slot r).1
    let counts := (s.slotReading slot r).2
    (∀ e v, s.slotState slot = .occupied e → s.vol? e = some v →
      (r = .serial v.serial → t = s ∧ counts = [.matched]) ∧
      (r ≠ .serial v.serial → v.loc ≠ .missing → counts.head? = some .foundMissing ∧ t.port.flags.getLsbD 12 = true) ∧
      (r = .noCase → v.loc ≠ .missing → t.vol? e = some { v with loc := .missing } ∧ counts = [.foundMissing]) ∧
      (r ≠ .serial v.serial → r ≠ .noCase → ∃ rest, counts = .foundMissing :: rest ∧ found (s.makeMissing e) t slot r rest)) ∧
    (s.slotState slot = .free ∨ (∃ e, s.slotState slot = .vacant e) → found s t slot r counts) ∧
    (∀ f, s.slotState slot = .foreign f →
      (f.matches r = true → t = s ∧ counts = [.foundForeign]) ∧
      (f.matches r = false → r = .noCase → t.finding? slot = none) ∧
      (f.matches r = false → ∃ m rest, found m t slot r rest ∧ m.finding? slot = none ∧
        ((m = s.clearFinding slot ∧ counts = rest ∧
            ∀ serial e v, f = .serial serial → s.entryOf serial = some e → s.vol? e = some v → v.loc ≠ .misplaced slot) ∨
          ∃ serial e v, f = .serial serial ∧ s.entryOf serial = some e ∧ s.vol? e = some v ∧ v.loc = .misplaced slot ∧
            m.vol? e = some { v with loc := .missing } ∧ counts = .foundMissing :: rest)))

/-- A prompt is issued with the counter's number, or the first upward from it that no outstanding prompt holds, and the counter moves past it, from 99 to 1 (R127); it
joins the end of the list at level 0, PENDING, its timer running, its line owed (R128). A request-related one is refused at 14 such or 16 prompts; an equipment one
that stands already changes nothing, and at 16 prompts is owed (R129). -/
def Obligations.PromptIssue : Prop :=
  (∀ (s : State) (kind : PromptKind) (names : Names), s.pr.list.length < 16 → 1 ≤ s.pr.counter → s.pr.counter ≤ 99 →
    (∀ p ∈ s.pr.list, 1 ≤ p.number ∧ p.number ≤ 99) →
    let t := (s.issue kind names).1
    let n := (s.issue kind names).2
    1 ≤ n ∧ n ≤ 99 ∧ (∀ p ∈ s.pr.list, p.number ≠ n) ∧ t.pr.counter = (if n = 99 then 1 else n + 1) ∧
    (∃ k, n = (s.pr.counter - 1 + k) % 99 + 1 ∧ ∀ j < k, ∃ p ∈ s.pr.list, p.number = (s.pr.counter - 1 + j) % 99 + 1) ∧
    t.pr.list = s.pr.list ++ [{
      number := n, kind := kind, tag := names.tag, volume := names.volume, drive := names.drive, arm := names.arm,
      position := names.position, template := s.setting (42 + kind.code), issued := s.port.clock, level := 0, acked := false,
      timer := some (s.escalationPeriod kind.severity), sub := if kind = .ringNeeded then some .awaitReply else none,
      lineOwed := true }] ∧
    t.port.flags.getLsbD 2 = true ∧ t.dir = s.dir ∧ t.ms = s.ms ∧ t.drv = s.drv ∧ t.sch = s.sch) ∧
  (∀ (s : State) (kind : PromptKind) (names : Names),
    s.askRequestPrompt kind names = none ↔
      14 ≤ (s.pr.list.filter (fun p => p.kind.requestRelated)).length ∨ 16 ≤ s.pr.list.length) ∧
  (∀ (s : State) (e : Equipment),
    ((∃ p ∈ s.pr.list, p.isFor e = true) ∨ e ∈ s.pr.owed → s.askEquipment e = s) ∧
    ((∀ p ∈ s.pr.list, p.isFor e = false) → e ∉ s.pr.owed → 16 ≤ s.pr.list.length →
      s.askEquipment e = { s with pr := { s.pr with owed := s.pr.owed ++ [e] } }) ∧
    ((∀ p ∈ s.pr.list, p.isFor e = false) → e ∉ s.pr.owed → s.pr.list.length < 16 →
      s.askEquipment e = (s.issue (s.equipmentNames e).1 (s.equipmentNames e).2).1))
end

