-- ==== Sys2Proof/Laws/Tables.lean ====
section
/-! SUPPORT. The sparse tables: what an entry written or freed does to each place, and that the canonical form is kept. -/

namespace Sys2Proof.Machine

variable {α : Type}

theorem lookup_insertAt_self (k : Nat) (v : α) (t : List (Nat × α)) : lookup k (insertAt k v t) = some v := by
  induction t with
  | nil => simp [insertAt, lookup]
  | cons x rest ih =>
    obtain ⟨j, w⟩ := x
    simp only [insertAt]
    split
    · simp [lookup]
    · split
      · simp [lookup]
      · rename_i h1 h2
        have : ¬ j = k := fun e => h2 e.symm
        simp [lookup, this, ih]

theorem lookup_insertAt_ne {k i : Nat} (v : α) (t : List (Nat × α)) (h : i ≠ k) :
    lookup i (insertAt k v t) = lookup i t := by
  have hk : ¬ k = i := fun e => h e.symm
  induction t with
  | nil => simp [insertAt, lookup, hk]
  | cons x rest ih =>
    obtain ⟨j, w⟩ := x
    simp only [insertAt]
    split
    · simp [lookup, hk]
    · split
      · rename_i h1 h2; subst h2; simp [lookup, hk]
      · simp only [lookup, ih]

theorem lookup_eraseAt_ne {k i : Nat} (t : List (Nat × α)) (h : i ≠ k) : lookup i (eraseAt k t) = lookup i t := by
  have hk : ¬ k = i := fun e => h e.symm
  induction t with
  | nil => rfl
  | cons x rest ih =>
    obtain ⟨j, w⟩ := x
    simp only [eraseAt]
    split
    · rename_i e; subst e; simp [lookup, hk]
    · simp only [lookup, ih]

theorem mem_insertAt {k : Nat} {v : α} {t : List (Nat × α)} {x : Nat × α} (h : x ∈ insertAt k v t) : x = (k, v) ∨ x ∈ t := by
  induction t with
  | nil => simp_all [insertAt]
  | cons y rest ih =>
    obtain ⟨j, w⟩ := y
    simp only [insertAt] at h
    split at h
    · simp_all
    · split at h
      · simp_all; tauto
      · simp only [List.mem_cons] at h ⊢
        rcases h with h | h
        · exact .inr (.inl h)
        · rcases ih h with h | h
          · exact .inl h
          · exact .inr (.inr h)

theorem mem_eraseAt {k : Nat} {t : List (Nat × α)} {x : Nat × α} (h : x ∈ eraseAt k t) : x ∈ t := by
  induction t with
  | nil => simp [eraseAt] at h
  | cons y rest ih =>
    obtain ⟨j, w⟩ := y
    simp only [eraseAt] at h
    split at h
    · simp_all
    · simp only [List.mem_cons] at h ⊢
      rcases h with h | h
      · exact .inl h
      · exact .inr (ih h)

theorem canonical_insertAt (k : Nat) (v : α) (t : List (Nat × α)) (h : Canonical t) : Canonical (insertAt k v t) := by
  induction t with
  | nil => simp [insertAt, Canonical]
  | cons x rest ih =>
    obtain ⟨j, w⟩ := x
    have h' := List.pairwise_cons.mp h
    simp only [insertAt]
    split
    · rename_i hkj
      refine List.pairwise_cons.mpr ⟨fun y hy => ?_, h⟩
      rcases List.mem_cons.mp hy with rfl | hy
      · exact hkj
      · exact Nat.lt_trans hkj (h'.1 y hy)
    · split
      · rename_i _ e; subst e
        exact List.pairwise_cons.mpr ⟨h'.1, h'.2⟩
      · rename_i h1 h2
        refine List.pairwise_cons.mpr ⟨fun y hy => ?_, ih h'.2⟩
        rcases mem_insertAt hy with rfl | hy
        · show j < k; omega
        · exact h'.1 y hy

theorem canonical_eraseAt (k : Nat) (t : List (Nat × α)) (h : Canonical t) : Canonical (eraseAt k t) := by
  induction t with
  | nil => exact h
  | cons x rest ih =>
    obtain ⟨j, w⟩ := x
    have h' := List.pairwise_cons.mp h
    simp only [eraseAt]
    split
    · exact h'.2
    · exact List.pairwise_cons.mpr ⟨fun y hy => h'.1 y (mem_eraseAt hy), ih h'.2⟩

theorem lookup_eraseAt_self (k : Nat) (t : List (Nat × α)) (h : Canonical t) : lookup k (eraseAt k t) = none := by
  induction t with
  | nil => rfl
  | cons x rest ih =>
    obtain ⟨j, w⟩ := x
    have h' := List.pairwise_cons.mp h
    simp only [eraseAt]
    split
    · rename_i e
      subst e
      clear ih h
      have gone : ∀ r : List (Nat × α), (∀ y ∈ r, j < y.1) → lookup j r = none := by
        intro r
        induction r with
        | nil => intro _; rfl
        | cons y rest ih =>
          intro hr
          have := hr y List.mem_cons_self
          have hne : ¬ y.1 = j := by omega
          simp only [lookup, hne, if_false]
          exact ih (fun z hz => hr z (List.mem_cons_of_mem _ hz))
      exact gone rest h'.1
    · rename_i e
      simp only [lookup, e, if_false]
      exact ih h'.2

/-- Where an entry is written again and what a reading of entries sees of it is the same, the reading of the table is the same. -/
theorem map_insertAt {β : Type} (f : Nat × α → β) {k : Nat} {v w : α} {t : List (Nat × α)} (h : Canonical t)
    (hk : lookup k t = some w) (hf : f (k, v) = f (k, w)) : (insertAt k v t).map f = t.map f := by
  induction t with
  | nil => simp [lookup] at hk
  | cons x rest ih =>
    obtain ⟨j, u⟩ := x
    have h' := List.pairwise_cons.mp h
    simp only [lookup] at hk
    simp only [insertAt]
    split at hk
    · rename_i e
      subst e
      simp_all
    · rename_i e
      have hmem : ∀ r : List (Nat × α), lookup k r = some w → ∃ y ∈ r, y.1 = k := by
        intro r
        induction r with
        | nil => intro hr; simp [lookup] at hr
        | cons y rest ih =>
          intro hr
          simp only [lookup] at hr
          split at hr
          · rename_i e; exact ⟨y, List.mem_cons_self, e⟩
          · obtain ⟨z, hz, e⟩ := ih hr; exact ⟨z, List.mem_cons_of_mem _ hz, e⟩
      obtain ⟨y, hy, ey⟩ := hmem rest hk
      have hlt := h'.1 y hy
      simp only [] at hlt
      have h1 : ¬ k < j := by omega
      have h2 : ¬ k = j := by omega
      simp only [h1, h2, if_false, List.map_cons, ih h'.2 hk]

end Sys2Proof.Machine
end

