-- ==== Sys2Proof/Laws/Keeps.lean ====
section
/-! SUPPORT. What every operation inside a step keeps, whatever it does: the inputs, what the system has written, the requests as they
were accepted, and the bounds of the lists. One lemma for each operation, of the form: what led to a state that keeps all this
and then the operation keep it. -/

namespace Sys2Proof.Machine

/-- The laws of the part that an operation inside a step may break for the next one to mend. -/
inductive Law where
  | paired
  | chosen
  | prompted
  | rail

/-- A law of the part; that of the prompts with the tags' (R48), on which it rests. -/
def State.law (s : State) : Law → Prop
  | .paired => s.GrippersPaired ∧ s.DrivesPaired
  | .chosen => s.VolumesChosenOnce
  | .prompted => (s.requestsAsked.map (fun x => x.1.1)).Nodup ∧ s.PromptsPaired
  | .rail => s.RailLawful

/-- What the rail law looks at of an arm. -/
def Arm.onRail (x : Arm) : ArmState × Nat × Option Outstanding := (x.state, x.column, x.outstanding)

/-- What the rail law looks at (R94). -/
def SchedBlock.rail (x : SchedBlock) : Vector (Option Holding) 8 × List RailClaim ×
    ((ArmState × Nat × Option Outstanding) × List ArmFrame) × (ArmState × Nat × Option Outstanding) × List ArmFrame :=
  (x.zones, x.claims, (x.armA.onRail, x.portA.waiting), x.armB.onRail, x.portB.waiting)

/-- What the law of the prompts looks at of a request. -/
def Request.standing (r : Request) : ReqState × Option Nat := (r.state, r.prompt)

/-- What the law of the prompts looks at of a prompt. -/
def Prompt.naming (p : Prompt) : Nat × PromptKind × Option Half := (p.number, p.kind, p.tag)

/-- `t` keeps what `s` had and only its writers change; records are only appended, final replies are only added, plain events are only
raised, and the bounded lists stay within their bounds. The laws of a set `L` are kept. -/
structure Keeps (L : Law → Prop) (s t : State) : Prop where
  port : { t.port with flags := 0, noticeOwed := false, replyOwed := [] } =
    { s.port with flags := 0, noticeOwed := false, replyOwed := [] }
  flags : s.port.flags &&& plainPositions &&& t.port.flags = s.port.flags &&& plainPositions
  replies : s.port.replyOwed <+: t.port.replyOwed
  pending : t.pending = s.pending
  fences : t.dir.fences = s.dir.fences
  drives : ∀ d, (t.drive d).wiring = (s.drive d).wiring
  stations : ∀ p, (t.station p).wiring = (s.station p).wiring
  door : (t.mon.doorRaw, t.mon.doorClosed, t.mon.doorInterval) = (s.mon.doorRaw, s.mon.doorClosed, s.mon.doorInterval)
  panel : (t.pr.templates, t.pr.sending, t.pr.held, t.pr.tooLong, t.pr.answers, t.pr.allWithdrawn) =
    (s.pr.templates, s.pr.sending, s.pr.held, s.pr.tooLong, s.pr.answers, s.pr.allWithdrawn)
  asked : t.requestsAsked = s.requestsAsked
  volumes : Canonical s.dir.entries → Canonical t.dir.entries ∧ t.volumeIdentities = s.volumeIdentities
  findings : Canonical s.dir.findings → Canonical t.dir.findings
  accounts : Canonical s.acc.accounts → Canonical t.acc.accounts ∧ t.accountIdentities = s.accountIdentities
  records : s.acc.records <+: t.acc.records
  prompts : t.pr.list.length ≤ max s.pr.list.length Config.maxPrompts
  withdrawals : t.pr.withdrawals.length ≤ max s.pr.withdrawals.length Config.maxWithdrawals
  pool : t.sch.pool.length ≤ max s.sch.pool.length 32
  laws : ∀ i, L i → s.law i → t.law i

variable {L : Law → Prop}

/-! ### What the laws rest on -/

theorem paired_of {s t : State} (hg : ∀ a, (t.arm a).gripper = (s.arm a).gripper) (hd : ∀ d, (t.drive d).volume = (s.drive d).volume)
    (hl : ∀ e, t.locOf e = s.locOf e) (k : s.law .paired) : t.law .paired :=
  ⟨fun a e => by rw [hg, hl]; exact k.1 a e, fun d e => by rw [hd, hl]; exact k.2 d e⟩

theorem chosen_of {s t : State}
    (h : ∀ r ∈ t.ms.queue, ∃ q ∈ s.ms.queue, q.tag = r.tag ∧ (r.volume = none ∨ r.volume = q.volume)) (k : s.law .chosen) :
    t.law .chosen := by
  intro r hr q hq e he hf
  obtain ⟨r', hr', tr, vr⟩ := h r hr
  obtain ⟨q', hq', tq, vq⟩ := h q hq
  rcases vr with vr | vr
  · rw [vr] at he; cases he
  · rcases vq with vq | vq
    · rw [vq] at hf; cases hf
    · rw [← tr, ← tq]
      exact k r' hr' q' hq' e (vr ▸ he) (vq ▸ hf)

theorem prompted_of {s t : State} (ha : t.requestsAsked = s.requestsAsked)
    (hq : t.ms.queue.map (fun r => (r.tag, r.standing)) = s.ms.queue.map (fun r => (r.tag, r.standing)))
    (hp : t.relatedPrompts.map Prompt.naming = s.relatedPrompts.map Prompt.naming)
    (ho : ∀ x ∈ t.port.replyOwed, x ∈ s.port.replyOwed) (k : s.law .prompted) : t.law .prompted := by
  obtain ⟨k0, k1, k2, k3, k4⟩ := k
  have back : ∀ r ∈ t.ms.queue, ∃ q ∈ s.ms.queue, q.tag = r.tag ∧ q.standing = r.standing := by
    intro r hr
    have : (r.tag, r.standing) ∈ s.ms.queue.map (fun r => (r.tag, r.standing)) := hq ▸ List.mem_map.mpr ⟨r, hr, rfl⟩
    obtain ⟨q, hq', e⟩ := List.mem_map.mp this
    exact ⟨q, hq', congrArg Prod.fst e, congrArg Prod.snd e⟩
  have forth : ∀ r ∈ s.ms.queue, ∃ q ∈ t.ms.queue, q.tag = r.tag ∧ q.standing = r.standing := by
    intro r hr
    have : (r.tag, r.standing) ∈ t.ms.queue.map (fun r => (r.tag, r.standing)) := hq.symm ▸ List.mem_map.mpr ⟨r, hr, rfl⟩
    obtain ⟨q, hq', e⟩ := List.mem_map.mp this
    exact ⟨q, hq', congrArg Prod.fst e, congrArg Prod.snd e⟩
  have pback : ∀ p ∈ t.relatedPrompts, ∃ q ∈ s.relatedPrompts, q.naming = p.naming := by
    intro p hp'
    have : p.naming ∈ s.relatedPrompts.map Prompt.naming := hp ▸ List.mem_map.mpr ⟨p, hp', rfl⟩
    obtain ⟨q, hq', e⟩ := List.mem_map.mp this
    exact ⟨q, hq', e⟩
  have pforth : ∀ p ∈ s.relatedPrompts, ∃ q ∈ t.relatedPrompts, q.naming = p.naming := by
    intro p hp'
    have : p.naming ∈ t.relatedPrompts.map Prompt.naming := hp.symm ▸ List.mem_map.mpr ⟨p, hp', rfl⟩
    obtain ⟨q, hq', e⟩ := List.mem_map.mp this
    exact ⟨q, hq', e⟩
  refine ⟨by rw [ha]; exact k0, ?_, ?_, ?_, ?_⟩
  · intro r hr hs
    obtain ⟨q, hq', tq, sq⟩ := back r hr
    simp only [Request.standing, Prod.mk.injEq] at sq
    obtain ⟨p, hp', tp, np⟩ := k1 q hq' (sq.1.trans hs)
    obtain ⟨p', hp'', e⟩ := pforth p hp'
    simp only [Prompt.naming, Prod.mk.injEq] at e
    exact ⟨p', hp'', by rw [e.2.2, tp, tq], by rw [e.1, ← np, sq.2]⟩
  · intro p hp'
    obtain ⟨p', hp'', e⟩ := pback p hp'
    simp only [Prompt.naming, Prod.mk.injEq] at e
    obtain ⟨r, hr, tr, nr, sr⟩ := k2 p' hp''
    obtain ⟨q, hq', tq, sq⟩ := forth r hr
    simp only [Request.standing, Prod.mk.injEq] at sq
    exact ⟨q, hq', by rw [← e.2.2, tr, tq], by rw [sq.2, nr, e.1], sq.1.trans sr⟩
  · have : t.relatedPrompts.map (·.tag) = s.relatedPrompts.map (·.tag) := by
      have := congrArg (List.map (fun x : Nat × PromptKind × Option Half => x.2.2)) hp
      simpa [List.map_map, Function.comp_def, Prompt.naming] using this
    rw [this]; exact k3
  · intro x hx r hr tr
    obtain ⟨q, hq', tq, sq⟩ := back r hr
    simp only [Request.standing, Prod.mk.injEq] at sq
    exact fun c => k4 x (ho x hx) q hq' (tq.trans tr) (sq.1.trans c)

theorem rail_of {s t : State} (h : t.sch.rail = s.sch.rail) (k : s.law .rail) : t.law .rail := by
  have hs : ∀ a, (t.arm a).state = (s.arm a).state ∧ (t.arm a).column = (s.arm a).column ∧
      (t.arm a).outstanding = (s.arm a).outstanding ∧ (t.armPort a).waiting = (s.armPort a).waiting := by
    simp only [SchedBlock.rail, Arm.onRail, Prod.mk.injEq] at h
    intro a
    cases a <;> simp only [State.arm, State.armPort] <;> tauto
  have hz : t.sch.zones = s.sch.zones := congrArg (fun x => x.1) h
  have hc : t.sch.claims = s.sch.claims := congrArg (fun x => x.2.1) h
  simp only [State.law, State.RailLawful, State.ArmLawful, State.holds, State.firm, State.goesInto.eq_def, State.waitingFrames, State.armBusy,
    State.armZone, State.zone?] at k ⊢
  simp only [hz, hc, (hs _).1, (hs _).2.1, (hs _).2.2.1, (hs _).2.2.2]
  exact k

theorem Keeps.refl (s : State) : Keeps L s s where
  port := rfl
  flags := by ext i hi; simp; exact fun a _ => a
  replies := List.prefix_refl _
  pending := rfl
  fences := rfl
  drives _ := rfl
  stations _ := rfl
  door := rfl
  panel := rfl
  asked := rfl
  volumes h := ⟨h, rfl⟩
  findings h := h
  accounts h := ⟨h, rfl⟩
  records := List.prefix_refl _
  prompts := Nat.le_max_left _ _
  withdrawals := Nat.le_max_left _ _
  pool := Nat.le_max_left _ _
  laws _ _ k := k

theorem Keeps.trans {s t u : State} (h : Keeps L s t) (k : Keeps L t u) : Keeps L s u where
  port := k.port.trans h.port
  flags := by
    have h1 := h.flags; have h2 := k.flags
    ext i hi
    have h1 := congrArg (fun x : Half => x[i]) h1
    have h2 := congrArg (fun x : Half => x[i]) h2
    simp only [BitVec.getElem_and] at *
    grind
  replies := h.replies.trans k.replies
  pending := k.pending.trans h.pending
  fences := k.fences.trans h.fences
  drives d := (k.drives d).trans (h.drives d)
  stations p := (k.stations p).trans (h.stations p)
  door := k.door.trans h.door
  panel := k.panel.trans h.panel
  asked := k.asked.trans h.asked
  volumes c := by
    have a := h.volumes c; have b := k.volumes a.1
    exact ⟨b.1, b.2.trans a.2⟩
  findings c := k.findings (h.findings c)
  accounts c := by
    have a := h.accounts c; have b := k.accounts a.1
    exact ⟨b.1, b.2.trans a.2⟩
  records := h.records.trans k.records
  prompts := by have a := h.prompts; have b := k.prompts; omega
  withdrawals := by have a := h.withdrawals; have b := k.withdrawals; omega
  pool := by have a := h.pool; have b := k.pool; omega
  laws i hi c := k.laws i hi (h.laws i hi c)

/-! ### The blocks that hold nothing of this, and the plain updates -/

theorem Keeps.same {s t u : State} (h : Keeps L s t) (port : u.port = t.port) (pending : u.pending = t.pending) (dir : u.dir = t.dir)
    (drv : u.drv = t.drv) (mon : u.mon = t.mon) (pr : u.pr = t.pr) (ms : u.ms = t.ms) (acc : u.acc = t.acc)
    (sch : u.sch = t.sch) : Keeps L s u where
  port := by rw [port]; exact h.port
  flags := by rw [port]; exact h.flags
  replies := by rw [port]; exact h.replies
  pending := by rw [pending]; exact h.pending
  fences := by rw [dir]; exact h.fences
  drives d := by simp only [State.drive, drv]; exact h.drives d
  stations p := by simp only [State.station, mon]; exact h.stations p
  door := by rw [mon]; exact h.door
  panel := by rw [pr]; exact h.panel
  asked := by simp only [State.requestsAsked, ms]; exact h.asked
  volumes := by simp only [State.volumeIdentities, dir]; exact h.volumes
  findings := by rw [dir]; exact h.findings
  accounts := by simp only [State.accountIdentities, acc]; exact h.accounts
  records := by rw [acc]; exact h.records
  prompts := by rw [pr]; exact h.prompts
  withdrawals := by rw [pr]; exact h.withdrawals
  pool := by rw [sch]; exact h.pool
  laws i hi c := by
    have := h.laws i hi c
    cases i with
    | paired =>
      refine paired_of (s := t) (fun a => ?_) (fun d => ?_) (fun e => ?_) this
      · cases a <;> simp only [State.arm, sch]
      · simp only [State.drive, drv]
      · simp only [State.locOf, State.vol?, dir]
    | chosen => simpa only [State.law, State.VolumesChosenOnce, ms] using this
    | prompted =>
      simpa only [State.law, State.PromptsPaired, State.requestsAsked, State.relatedPrompts, ms, pr, port] using this
    | rail => exact rail_of (by rw [sch]) this

section
variable {s t : State}

theorem Keeps.itself : Keeps L s s := Keeps.refl s

theorem Keeps.ite {c : Prop} [Decidable c] {u v : State} (h : Keeps L s u) (k : Keeps L s v) : Keeps L s (if c then u else v) := by
  split <;> assumption

theorem Keeps.notify (h : Keeps L s t) {n : Notice} : Keeps L s (t.notify n) := by
  unfold State.notify; split
  · exact h
  · exact h.same rfl rfl rfl rfl rfl rfl rfl rfl rfl

theorem Keeps.setNotices (h : Keeps L s t) {l : List Notice} : Keeps L s { t with notices := l } :=
  h.same rfl rfl rfl rfl rfl rfl rfl rfl rfl

theorem Keeps.setAud (h : Keeps L s t) {a : AuditBlock} : Keeps L s { t with aud := a } := h.same rfl rfl rfl rfl rfl rfl rfl rfl rfl

theorem Keeps.setAtt (h : Keeps L s t) {a : AttnBlock} : Keeps L s { t with att := a } := h.same rfl rfl rfl rfl rfl rfl rfl rfl rfl

theorem Keeps.setSvc (h : Keeps L s t) {a : SvcBlock} : Keeps L s { t with svc := a } := h.same rfl rfl rfl rfl rfl rfl rfl rfl rfl

/-- An update of the scheduler that lets the pool grow within its bound. -/
theorem Keeps.setSch (h : Keeps L s t) {x : SchedBlock} (hp : x.pool.length ≤ max t.sch.pool.length 32)
    (hg : L .paired → (x.armA.gripper, x.armB.gripper) = (t.sch.armA.gripper, t.sch.armB.gripper))
    (hr : L .rail → x.rail = t.sch.rail) : Keeps L s { t with sch := x } where
  port := h.port
  flags := h.flags
  replies := h.replies
  pending := h.pending
  fences := h.fences
  drives := h.drives
  stations := h.stations
  door := h.door
  panel := h.panel
  asked := h.asked
  volumes := h.volumes
  findings := h.findings
  accounts := h.accounts
  records := h.records
  prompts := h.prompts
  withdrawals := h.withdrawals
  pool := by have := h.pool; simp only []; omega
  laws i hi c := by
    have := h.laws i hi c
    cases i with
    | paired =>
      refine paired_of (s := t) (fun a => ?_) (fun d => rfl) (fun e => rfl) this
      cases a
      · exact congrArg Prod.fst (hg hi)
      · exact congrArg Prod.snd (hg hi)
    | chosen | prompted => exact this
    | rail => exact rail_of (s := t) (hr hi) this

/-- An update of the Prompt Unit that keeps the templates and what is typed and sent. -/
theorem Keeps.setPr (h : Keeps L s t) {x : PromptBlock}
    (hp : (x.templates, x.sending, x.held, x.tooLong, x.answers, x.allWithdrawn) =
      (t.pr.templates, t.pr.sending, t.pr.held, t.pr.tooLong, t.pr.answers, t.pr.allWithdrawn))
    (hl : x.list.length ≤ max s.pr.list.length 16) (hw : x.withdrawals.length ≤ max t.pr.withdrawals.length 16)
    (hn : L .prompted → (x.list.filter (fun p => p.kind.requestRelated)).map Prompt.naming = t.relatedPrompts.map Prompt.naming) :
    Keeps L s { t with pr := x } where
  port := h.port
  flags := h.flags
  replies := h.replies
  pending := h.pending
  fences := h.fences
  drives := h.drives
  stations := h.stations
  door := h.door
  panel := hp.trans h.panel
  asked := h.asked
  volumes := h.volumes
  findings := h.findings
  accounts := h.accounts
  records := h.records
  prompts := hl
  withdrawals := by have := h.withdrawals; simp only [Config.maxWithdrawals] at *; omega
  pool := h.pool
  laws i hi c := by
    have := h.laws i hi c
    cases i with
    | paired | chosen | rail => exact this
    | prompted => exact prompted_of (s := t) rfl rfl (hn hi) (fun _ hx => hx) this

/-- An update of the directory that keeps the fences, and the identities of the entries. -/
theorem Keeps.setDir (h : Keeps L s t) {x : DirBlock} (hf : x.fences = t.dir.fences)
    (hv : Canonical t.dir.entries → Canonical x.entries ∧
      x.entries.map (fun e => (e.1, e.2.identity)) = t.dir.entries.map (fun e => (e.1, e.2.identity)))
    (hg : Canonical t.dir.findings → Canonical x.findings)
    (hl : L .paired → ∀ e, (lookup e x.entries).map (·.loc) = t.locOf e) : Keeps L s { t with dir := x } where
  port := h.port
  flags := h.flags
  replies := h.replies
  pending := h.pending
  fences := hf.trans h.fences
  drives := h.drives
  stations := h.stations
  door := h.door
  panel := h.panel
  asked := h.asked
  volumes c := ⟨(hv (h.volumes c).1).1, (hv (h.volumes c).1).2.trans (h.volumes c).2⟩
  findings c := hg (h.findings c)
  accounts := h.accounts
  records := h.records
  prompts := h.prompts
  withdrawals := h.withdrawals
  pool := h.pool
  laws i hi c := by
    have := h.laws i hi c
    cases i with
    | paired => exact paired_of (s := t) (fun _ => rfl) (fun _ => rfl) (hl hi) this
    | chosen | prompted | rail => exact this

/-- An update of the Accounting Unit that appends to its records and keeps the accounts' identities. -/
theorem Keeps.setAcc (h : Keeps L s t) {x : AcctBlock} (hr : t.acc.records <+: x.records)
    (hv : Canonical t.acc.accounts → Canonical x.accounts ∧
      x.accounts.map (fun e => (e.1, e.2.identity)) = t.acc.accounts.map (fun e => (e.1, e.2.identity))) :
    Keeps L s { t with acc := x } where
  port := h.port
  flags := h.flags
  replies := h.replies
  pending := h.pending
  fences := h.fences
  drives := h.drives
  stations := h.stations
  door := h.door
  panel := h.panel
  asked := h.asked
  volumes := h.volumes
  findings := h.findings
  accounts c := ⟨(hv (h.accounts c).1).1, (hv (h.accounts c).1).2.trans (h.accounts c).2⟩
  records := h.records.trans hr
  prompts := h.prompts
  withdrawals := h.withdrawals
  pool := h.pool
  laws i hi c := by
    have := h.laws i hi c
    cases i <;> exact this

/-- An update of the queue that keeps the requests as they were accepted. -/
theorem Keeps.setMs (h : Keeps L s t) {x : MountBlock} (hq : x.queue.map Request.asked = t.ms.queue.map Request.asked)
    (hc : L .chosen → ∀ r ∈ x.queue, ∃ q ∈ t.ms.queue, q.tag = r.tag ∧ (r.volume = none ∨ r.volume = q.volume))
    (hs : L .prompted → x.queue.map (fun r => (r.tag, r.standing)) = t.ms.queue.map (fun r => (r.tag, r.standing))) :
    Keeps L s { t with ms := x } where
  port := h.port
  flags := h.flags
  replies := h.replies
  pending := h.pending
  fences := h.fences
  drives := h.drives
  stations := h.stations
  door := h.door
  panel := h.panel
  asked := hq.trans h.asked
  volumes := h.volumes
  findings := h.findings
  accounts := h.accounts
  records := h.records
  prompts := h.prompts
  withdrawals := h.withdrawals
  pool := h.pool
  laws i hi c := by
    have := h.laws i hi c
    cases i with
    | paired | rail => exact this
    | chosen => exact chosen_of (s := t) (hc hi) this
    | prompted => exact prompted_of (s := t) hq (hs hi) rfl (fun _ hx => hx) this

/-- An update of the drives that keeps their wiring. -/
theorem Keeps.setDrv (h : Keeps L s t) {x : DriveBlock} (hd : ∀ d : Fin 16, (x.drives[d]).wiring = (t.drive d).wiring)
    (hv : L .paired → ∀ d : Fin 16, (x.drives[d]).volume = (t.drive d).volume) :
    Keeps L s { t with drv := x } where
  port := h.port
  flags := h.flags
  replies := h.replies
  pending := h.pending
  fences := h.fences
  drives d := (hd d).trans (h.drives d)
  stations := h.stations
  door := h.door
  panel := h.panel
  asked := h.asked
  volumes := h.volumes
  findings := h.findings
  accounts := h.accounts
  records := h.records
  prompts := h.prompts
  withdrawals := h.withdrawals
  pool := h.pool
  laws i hi c := by
    have := h.laws i hi c
    cases i with
    | paired => exact paired_of (s := t) (fun _ => rfl) (hv hi) (fun _ => rfl) this
    | chosen | prompted | rail => exact this

/-- An update of the station positions that keeps their wiring and the door's. -/
theorem Keeps.setStations (h : Keeps L s t) {x : Vector Station 8} (hd : ∀ p : Fin 8, (x[p]).wiring = (t.station p).wiring) :
    Keeps L s { t with mon := { t.mon with stations := x } } where
  port := h.port
  flags := h.flags
  replies := h.replies
  pending := h.pending
  fences := h.fences
  drives := h.drives
  stations p := (hd p).trans (h.stations p)
  door := h.door
  panel := h.panel
  asked := h.asked
  volumes := h.volumes
  findings := h.findings
  accounts := h.accounts
  records := h.records
  prompts := h.prompts
  withdrawals := h.withdrawals
  pool := h.pool
  laws i hi c := by
    have := h.laws i hi c
    cases i <;> exact this

/-- New events, and a final reply more. -/
theorem Keeps.setEvents (h : Keeps L s t) {f : Half} (hf : t.port.flags &&& plainPositions &&& f = t.port.flags &&& plainPositions) :
    Keeps L s (t.setEvents f t.port.mask) where
  port := h.port
  flags := by
    have h1 := h.flags
    show s.port.flags &&& plainPositions &&& f = s.port.flags &&& plainPositions
    ext i hi
    have h1 := congrArg (fun x : Half => x[i]) h1
    have h2 := congrArg (fun x : Half => x[i]) hf
    simp only [BitVec.getElem_and] at *
    grind
  replies := h.replies
  pending := h.pending
  fences := h.fences
  drives := h.drives
  stations := h.stations
  door := h.door
  panel := h.panel
  asked := h.asked
  volumes := h.volumes
  findings := h.findings
  accounts := h.accounts
  records := h.records
  prompts := h.prompts
  withdrawals := h.withdrawals
  pool := h.pool
  laws i hi c := by
    have := h.laws i hi c
    cases i <;> exact this

theorem Keeps.refreshConditions (h : Keeps L s t) : Keeps L s t.refreshConditions := by
  refine h.setEvents ?_
  ext i hi
  simp only [BitVec.getElem_and, BitVec.getElem_or]
  grind

theorem Keeps.raise (h : Keeps L s t) {e : Event} : Keeps L s (t.raise e) := by
  refine h.refreshConditions.setEvents ?_
  ext i hi
  simp only [BitVec.getElem_and, BitVec.getElem_or]
  grind

theorem Keeps.oweReply (h : Keeps L s t) {x : Half × Reply}
    (hx : L .prompted → ∀ r ∈ t.ms.queue, r.tag = x.1 → r.state ≠ .prompted) :
    Keeps L s { t with port := { t.port with replyOwed := t.port.replyOwed ++ [x] } } where
  port := h.port
  flags := h.flags
  replies := h.replies.trans (List.prefix_append ..)
  pending := h.pending
  fences := h.fences
  drives := h.drives
  stations := h.stations
  door := h.door
  panel := h.panel
  asked := h.asked
  volumes := h.volumes
  findings := h.findings
  accounts := h.accounts
  records := h.records
  prompts := h.prompts
  withdrawals := h.withdrawals
  pool := h.pool
  laws i hi c := by
    have := h.laws i hi c
    cases i with
    | paired | chosen | rail => exact this
    | prompted =>
      obtain ⟨k0, k1, k2, k3, k4⟩ := this
      refine ⟨k0, k1, k2, k3, fun y hy => ?_⟩
      rcases List.mem_append.mp hy with hy | hy
      · exact k4 y hy
      · obtain rfl := List.mem_singleton.mp hy
        exact hx hi

/-! ### A law broken and mended -/

/-- The laws of a set but one. -/
def without (L : Law → Prop) (i : Law) : Law → Prop := fun j => L j ∧ j ≠ i

/-- No law. -/
def noLaw : Law → Prop := fun _ => False

/-- Every law. -/
def allLaws : Law → Prop := fun _ => True

/-- One law alone. -/
def only (i : Law) : Law → Prop := fun j => j = i

/-- Fewer laws are kept too. -/
theorem Keeps.fewer (h : Keeps L s t) {M : Law → Prop} (hm : ∀ i, M i → L i) : Keeps M s t :=
  { h with laws := fun i hi => h.laws i (hm i hi) }

theorem Keeps.but (h : Keeps L s t) {i : Law} : Keeps (without L i) s t := h.fewer (fun _ k => k.1)

/-- What keeps the other laws, and this one, keeps them all. -/
theorem Keeps.mend {i : Law} (h : Keeps (without L i) s t) (hi : L i → s.law i → t.law i) : Keeps L s t :=
  have k : ∀ j, L j → s.law j → t.law j := fun j hj => by
    by_cases e : j = i
    · subst e; exact hi hj
    · exact h.laws j ⟨hj, e⟩
  { h with laws := k }

theorem without_self {i : Law} {p : Prop} (h : without L i i) : p := absurd rfl h.2

/-- What keeps one law alone, at a state that has it. -/
theorem Keeps.law {i : Law} (h : Keeps (only i) s t) (k : s.law i) : t.law i := h.laws i rfl k

/-! ### The named updates -/

theorem Keeps.updDrive (h : Keeps L s t) {d : Fin 16} {f : Drive → Drive} (hf : ∀ x, (f x).wiring = x.wiring)
    (hv : L .paired → ∀ x, (f x).volume = x.volume) :
    Keeps L s (t.updDrive d f) := by
  refine h.setDrv (fun e => ?_) (fun hi e => ?_)
  · show ((t.drv.drives.set d (f (t.drive d)))[e]).wiring = _
    by_cases hd : d = e
    · subst hd; simp [State.drive, hf]
    · have : ¬ d.val = e.val := fun c => hd (Fin.ext c)
      simp [State.drive, this]
  · show ((t.drv.drives.set d (f (t.drive d)))[e]).volume = _
    by_cases hd : d = e
    · subst hd; simp [State.drive, hv hi]
    · have : ¬ d.val = e.val := fun c => hd (Fin.ext c)
      simp [State.drive, this]

theorem Keeps.updStation (h : Keeps L s t) {p : Fin 8} {f : Station → Station} (hf : ∀ x, (f x).wiring = x.wiring) :
    Keeps L s (t.updStation p f) := by
  refine h.setStations (fun e => ?_)
  show ((t.mon.stations.set p (f (t.station p)))[e]).wiring = _
  by_cases hd : p = e
  · subst hd; simp [State.station, hf]
  · have : ¬ p.val = e.val := fun c => hd (Fin.ext c)
    simp [State.station, this]

theorem Keeps.mapStations (h : Keeps L s t) {f : Station → Station} (hf : ∀ x, (f x).wiring = x.wiring) :
    Keeps L s (t.mapStations f) := by
  refine h.setStations (fun e => ?_)
  simp [mapVec, State.station, hf]

theorem Keeps.setArm (h : Keeps L s t) {a : ArmId} {x : Arm} (hg : L .paired → x.gripper = (t.arm a).gripper)
    (hr : L .rail → x.onRail = (t.arm a).onRail) : Keeps L s (t.setArm a x) := by
  cases a
  · refine h.setSch (Nat.le_max_left _ _) (fun hi => ?_) (fun hi => ?_)
    · rw [hg hi]; rfl
    · simp only [SchedBlock.rail, hr hi]; rfl
  · refine h.setSch (Nat.le_max_left _ _) (fun hi => ?_) (fun hi => ?_)
    · rw [hg hi]; rfl
    · simp only [SchedBlock.rail, hr hi]; rfl

theorem Keeps.updArm (h : Keeps L s t) {a : ArmId} {f : Arm → Arm} (hg : L .paired → ∀ x, (f x).gripper = x.gripper)
    (hr : L .rail → ∀ x, (f x).onRail = x.onRail) : Keeps L s (t.updArm a f) := h.setArm (fun hi => hg hi _) (fun hi => hr hi _)

theorem Keeps.setArmPort (h : Keeps L s t) {a : ArmId} {x : ArmPort} (hr : L .rail → x.waiting = (t.armPort a).waiting) :
    Keeps L s (t.setArmPort a x) := by
  cases a
  · refine h.setSch (Nat.le_max_left _ _) (fun _ => rfl) (fun hi => ?_)
    simp only [SchedBlock.rail, hr hi]; rfl
  · refine h.setSch (Nat.le_max_left _ _) (fun _ => rfl) (fun hi => ?_)
    simp only [SchedBlock.rail, hr hi]; rfl

theorem Keeps.updOrder (h : Keeps L s t) {i : Nat} {f : Order → Order} : Keeps L s (t.updOrder i f) := by
  refine h.setSch ?_ (fun _ => rfl) (fun _ => rfl); simp

theorem Keeps.dropOrder (h : Keeps L s t) {i : Nat} : Keeps L s (t.dropOrder i) := by
  refine h.setSch ?_ (fun _ => rfl) (fun _ => rfl)
  have := List.length_filter_le (fun o : Order => o.id != i) t.sch.pool
  simp only []; omega

theorem Keeps.updRequest (h : Keeps L s t) {tag : Half} {f : Request → Request} (hf : ∀ x, (f x).asked = x.asked)
    (hc : L .chosen → ∀ x, (f x).volume = none ∨ (f x).volume = x.volume) (hs : L .prompted → ∀ x, (f x).standing = x.standing) :
    Keeps L s (t.updRequest tag f) := by
  have ht : ∀ x, (f x).tag = x.tag := fun x => congrArg (fun y => y.1.1) (hf x)
  refine h.setMs ?_ (fun hi r hr => ?_) (fun hi => ?_)
  · simp only [List.map_map]
    refine List.map_congr_left (fun r _ => ?_)
    simp only [Function.comp]
    split
    · exact hf r
    · rfl
  · obtain ⟨q, hq, rfl⟩ := List.mem_map.mp hr
    refine ⟨q, hq, ?_⟩
    split
    · exact ⟨(ht q).symm, hc hi q⟩
    · exact ⟨rfl, .inr rfl⟩
  · simp only [List.map_map]
    refine List.map_congr_left (fun r _ => ?_)
    simp only [Function.comp]
    split
    · rw [ht, hs hi]
    · rfl

/-- A change of prompts that keeps what they name keeps which of them are request-related, and their names. -/
theorem naming_map {f : Prompt → Prompt} (hf : ∀ x, (f x).naming = x.naming) (l : List Prompt) :
    ((l.map f).filter (fun p => p.kind.requestRelated)).map Prompt.naming =
      (l.filter (fun p => p.kind.requestRelated)).map Prompt.naming := by
  induction l with
  | nil => rfl
  | cons x l ih =>
    have hk : (f x).kind = x.kind := congrArg (fun y => y.2.1) (hf x)
    simp only [List.map_cons, List.filter_cons, hk]
    split
    · simp only [List.map_cons, ih, hf]
    · exact ih

theorem Keeps.updPrompt (h : Keeps L s t) {n : Nat} {f : Prompt → Prompt} (hn : L .prompted → ∀ x, (f x).naming = x.naming) :
    Keeps L s (t.updPrompt n f) := by
  refine h.setPr rfl ?_ ?_ (fun hi => ?_)
  · have := h.prompts; simp only [List.length_map, Config.maxPrompts] at *; omega
  · simp only []; omega
  · refine naming_map (fun x => ?_) _
    split
    · exact hn hi x
    · rfl

theorem Keeps.setVol (h : Keeps L s t) {e : Nat} {v w : Volume} (hv : t.vol? e = some v) (hw : w.identity = v.identity)
    (hl : L .paired → w.loc = v.loc) : Keeps L s (t.setVol e w) := by
  refine h.setDir rfl (fun c => ⟨canonical_insertAt _ _ _ c, map_insertAt _ c hv ?_⟩) id (fun hi x => ?_)
  · simp [hw]
  · by_cases hx : x = e
    · subst hx; rw [lookup_insertAt_self, State.locOf, hv]; exact congrArg some (hl hi)
    · rw [lookup_insertAt_ne _ _ hx]; rfl

theorem Keeps.setFinding (h : Keeps L s t) {n : Nat} {f : Finding} : Keeps L s (t.setFinding n f) :=
  h.setDir rfl (fun c => ⟨c, rfl⟩) (canonical_insertAt _ _ _) (fun _ _ => rfl)

theorem Keeps.clearFinding (h : Keeps L s t) {n : Nat} : Keeps L s (t.clearFinding n) :=
  h.setDir rfl (fun c => ⟨c, rfl⟩) (canonical_eraseAt _ _) (fun _ _ => rfl)

theorem Keeps.updAccount (h : Keeps L s t) {i : Nat} {f : Account → Account} (hf : ∀ x, (f x).identity = x.identity) :
    Keeps L s (t.updAccount i f) := by
  unfold State.updAccount
  split
  · rename_i x hx
    refine h.setAcc (List.prefix_refl _) (fun c => ⟨canonical_insertAt _ _ _ c, map_insertAt _ c hx ?_⟩)
    simp [hf]
  · exact h

/-- What every part of a list of acts keeps, all of them keep. -/
theorem Keeps.foldl {α : Type} {f : State → α → State} (hf : ∀ {t : State} {a : α}, Keeps L s t → Keeps L s (f t a)) {l : List α}
    (h : Keeps L s t) : Keeps L s (l.foldl f t) := by
  induction l generalizing t with
  | nil => exact h
  | cons a l ih => exact ih (hf h)

end

end Sys2Proof.Machine
end

