-- ==== Sys2Proof/Laws/State.lean ====
section
/-! SUPPORT. One lemma for each named update and each part of the state it leaves alone. -/

namespace Sys2Proof.Machine

/-! ### The blocks -/

@[simp] theorem State.setVol_drv {s : State} {e : Nat} {v : Volume} : (s.setVol e v).drv = s.drv := rfl
@[simp] theorem State.setVol_ms {s : State} {e : Nat} {v : Volume} : (s.setVol e v).ms = s.ms := rfl
@[simp] theorem State.setVol_sch {s : State} {e : Nat} {v : Volume} : (s.setVol e v).sch = s.sch := rfl
@[simp] theorem State.setVol_aud {s : State} {e : Nat} {v : Volume} : (s.setVol e v).aud = s.aud := rfl
@[simp] theorem State.setVol_pr {s : State} {e : Nat} {v : Volume} : (s.setVol e v).pr = s.pr := rfl
@[simp] theorem State.setVol_att {s : State} {e : Nat} {v : Volume} : (s.setVol e v).att = s.att := rfl
@[simp] theorem State.setVol_mon {s : State} {e : Nat} {v : Volume} : (s.setVol e v).mon = s.mon := rfl
@[simp] theorem State.setVol_acc {s : State} {e : Nat} {v : Volume} : (s.setVol e v).acc = s.acc := rfl
@[simp] theorem State.setVol_svc {s : State} {e : Nat} {v : Volume} : (s.setVol e v).svc = s.svc := rfl
@[simp] theorem State.setVol_port {s : State} {e : Nat} {v : Volume} : (s.setVol e v).port = s.port := rfl
@[simp] theorem State.setVol_notices {s : State} {e : Nat} {v : Volume} : (s.setVol e v).notices = s.notices := rfl
@[simp] theorem State.setVol_pending {s : State} {e : Nat} {v : Volume} : (s.setVol e v).pending = s.pending := rfl

@[simp] theorem State.setFinding_drv {s : State} {n : Nat} {f : Finding} : (s.setFinding n f).drv = s.drv := rfl
@[simp] theorem State.setFinding_ms {s : State} {n : Nat} {f : Finding} : (s.setFinding n f).ms = s.ms := rfl
@[simp] theorem State.setFinding_sch {s : State} {n : Nat} {f : Finding} : (s.setFinding n f).sch = s.sch := rfl
@[simp] theorem State.setFinding_aud {s : State} {n : Nat} {f : Finding} : (s.setFinding n f).aud = s.aud := rfl
@[simp] theorem State.setFinding_pr {s : State} {n : Nat} {f : Finding} : (s.setFinding n f).pr = s.pr := rfl
@[simp] theorem State.setFinding_att {s : State} {n : Nat} {f : Finding} : (s.setFinding n f).att = s.att := rfl
@[simp] theorem State.setFinding_mon {s : State} {n : Nat} {f : Finding} : (s.setFinding n f).mon = s.mon := rfl
@[simp] theorem State.setFinding_acc {s : State} {n : Nat} {f : Finding} : (s.setFinding n f).acc = s.acc := rfl
@[simp] theorem State.setFinding_svc {s : State} {n : Nat} {f : Finding} : (s.setFinding n f).svc = s.svc := rfl
@[simp] theorem State.setFinding_port {s : State} {n : Nat} {f : Finding} : (s.setFinding n f).port = s.port := rfl
@[simp] theorem State.setFinding_notices {s : State} {n : Nat} {f : Finding} : (s.setFinding n f).notices = s.notices := rfl
@[simp] theorem State.setFinding_pending {s : State} {n : Nat} {f : Finding} : (s.setFinding n f).pending = s.pending := rfl

@[simp] theorem State.clearFinding_drv {s : State} {n : Nat} : (s.clearFinding n).drv = s.drv := rfl
@[simp] theorem State.clearFinding_ms {s : State} {n : Nat} : (s.clearFinding n).ms = s.ms := rfl
@[simp] theorem State.clearFinding_sch {s : State} {n : Nat} : (s.clearFinding n).sch = s.sch := rfl
@[simp] theorem State.clearFinding_aud {s : State} {n : Nat} : (s.clearFinding n).aud = s.aud := rfl
@[simp] theorem State.clearFinding_pr {s : State} {n : Nat} : (s.clearFinding n).pr = s.pr := rfl
@[simp] theorem State.clearFinding_att {s : State} {n : Nat} : (s.clearFinding n).att = s.att := rfl
@[simp] theorem State.clearFinding_mon {s : State} {n : Nat} : (s.clearFinding n).mon = s.mon := rfl
@[simp] theorem State.clearFinding_acc {s : State} {n : Nat} : (s.clearFinding n).acc = s.acc := rfl
@[simp] theorem State.clearFinding_svc {s : State} {n : Nat} : (s.clearFinding n).svc = s.svc := rfl
@[simp] theorem State.clearFinding_port {s : State} {n : Nat} : (s.clearFinding n).port = s.port := rfl
@[simp] theorem State.clearFinding_notices {s : State} {n : Nat} : (s.clearFinding n).notices = s.notices := rfl
@[simp] theorem State.clearFinding_pending {s : State} {n : Nat} : (s.clearFinding n).pending = s.pending := rfl

@[simp] theorem State.setDrive_dir {s : State} {d : Fin 16} {x : Drive} : (s.setDrive d x).dir = s.dir := rfl
@[simp] theorem State.setDrive_ms {s : State} {d : Fin 16} {x : Drive} : (s.setDrive d x).ms = s.ms := rfl
@[simp] theorem State.setDrive_sch {s : State} {d : Fin 16} {x : Drive} : (s.setDrive d x).sch = s.sch := rfl
@[simp] theorem State.setDrive_aud {s : State} {d : Fin 16} {x : Drive} : (s.setDrive d x).aud = s.aud := rfl
@[simp] theorem State.setDrive_pr {s : State} {d : Fin 16} {x : Drive} : (s.setDrive d x).pr = s.pr := rfl
@[simp] theorem State.setDrive_att {s : State} {d : Fin 16} {x : Drive} : (s.setDrive d x).att = s.att := rfl
@[simp] theorem State.setDrive_mon {s : State} {d : Fin 16} {x : Drive} : (s.setDrive d x).mon = s.mon := rfl
@[simp] theorem State.setDrive_acc {s : State} {d : Fin 16} {x : Drive} : (s.setDrive d x).acc = s.acc := rfl
@[simp] theorem State.setDrive_svc {s : State} {d : Fin 16} {x : Drive} : (s.setDrive d x).svc = s.svc := rfl
@[simp] theorem State.setDrive_port {s : State} {d : Fin 16} {x : Drive} : (s.setDrive d x).port = s.port := rfl
@[simp] theorem State.setDrive_notices {s : State} {d : Fin 16} {x : Drive} : (s.setDrive d x).notices = s.notices := rfl
@[simp] theorem State.setDrive_pending {s : State} {d : Fin 16} {x : Drive} : (s.setDrive d x).pending = s.pending := rfl

@[simp] theorem State.updDrive_dir {s : State} {d : Fin 16} {f : Drive → Drive} : (s.updDrive d f).dir = s.dir := rfl
@[simp] theorem State.updDrive_ms {s : State} {d : Fin 16} {f : Drive → Drive} : (s.updDrive d f).ms = s.ms := rfl
@[simp] theorem State.updDrive_sch {s : State} {d : Fin 16} {f : Drive → Drive} : (s.updDrive d f).sch = s.sch := rfl
@[simp] theorem State.updDrive_aud {s : State} {d : Fin 16} {f : Drive → Drive} : (s.updDrive d f).aud = s.aud := rfl
@[simp] theorem State.updDrive_pr {s : State} {d : Fin 16} {f : Drive → Drive} : (s.updDrive d f).pr = s.pr := rfl
@[simp] theorem State.updDrive_att {s : State} {d : Fin 16} {f : Drive → Drive} : (s.updDrive d f).att = s.att := rfl
@[simp] theorem State.updDrive_mon {s : State} {d : Fin 16} {f : Drive → Drive} : (s.updDrive d f).mon = s.mon := rfl
@[simp] theorem State.updDrive_acc {s : State} {d : Fin 16} {f : Drive → Drive} : (s.updDrive d f).acc = s.acc := rfl
@[simp] theorem State.updDrive_svc {s : State} {d : Fin 16} {f : Drive → Drive} : (s.updDrive d f).svc = s.svc := rfl
@[simp] theorem State.updDrive_port {s : State} {d : Fin 16} {f : Drive → Drive} : (s.updDrive d f).port = s.port := rfl
@[simp] theorem State.updDrive_notices {s : State} {d : Fin 16} {f : Drive → Drive} : (s.updDrive d f).notices = s.notices := rfl
@[simp] theorem State.updDrive_pending {s : State} {d : Fin 16} {f : Drive → Drive} : (s.updDrive d f).pending = s.pending := rfl

@[simp] theorem State.updClaim_dir {s : State} {d : Fin 16} {f : Claim → Claim} : (s.updClaim d f).dir = s.dir := rfl
@[simp] theorem State.updClaim_ms {s : State} {d : Fin 16} {f : Claim → Claim} : (s.updClaim d f).ms = s.ms := rfl
@[simp] theorem State.updClaim_sch {s : State} {d : Fin 16} {f : Claim → Claim} : (s.updClaim d f).sch = s.sch := rfl
@[simp] theorem State.updClaim_aud {s : State} {d : Fin 16} {f : Claim → Claim} : (s.updClaim d f).aud = s.aud := rfl
@[simp] theorem State.updClaim_pr {s : State} {d : Fin 16} {f : Claim → Claim} : (s.updClaim d f).pr = s.pr := rfl
@[simp] theorem State.updClaim_att {s : State} {d : Fin 16} {f : Claim → Claim} : (s.updClaim d f).att = s.att := rfl
@[simp] theorem State.updClaim_mon {s : State} {d : Fin 16} {f : Claim → Claim} : (s.updClaim d f).mon = s.mon := rfl
@[simp] theorem State.updClaim_acc {s : State} {d : Fin 16} {f : Claim → Claim} : (s.updClaim d f).acc = s.acc := rfl
@[simp] theorem State.updClaim_svc {s : State} {d : Fin 16} {f : Claim → Claim} : (s.updClaim d f).svc = s.svc := rfl
@[simp] theorem State.updClaim_port {s : State} {d : Fin 16} {f : Claim → Claim} : (s.updClaim d f).port = s.port := rfl
@[simp] theorem State.updClaim_notices {s : State} {d : Fin 16} {f : Claim → Claim} : (s.updClaim d f).notices = s.notices := rfl
@[simp] theorem State.updClaim_pending {s : State} {d : Fin 16} {f : Claim → Claim} : (s.updClaim d f).pending = s.pending := rfl

@[simp] theorem State.setDriveState_dir {s : State} {d : Fin 16} {x : DriveState} : (s.setDriveState d x).dir = s.dir := rfl
@[simp] theorem State.setDriveState_ms {s : State} {d : Fin 16} {x : DriveState} : (s.setDriveState d x).ms = s.ms := rfl
@[simp] theorem State.setDriveState_sch {s : State} {d : Fin 16} {x : DriveState} : (s.setDriveState d x).sch = s.sch := rfl
@[simp] theorem State.setDriveState_aud {s : State} {d : Fin 16} {x : DriveState} : (s.setDriveState d x).aud = s.aud := rfl
@[simp] theorem State.setDriveState_pr {s : State} {d : Fin 16} {x : DriveState} : (s.setDriveState d x).pr = s.pr := rfl
@[simp] theorem State.setDriveState_att {s : State} {d : Fin 16} {x : DriveState} : (s.setDriveState d x).att = s.att := rfl
@[simp] theorem State.setDriveState_mon {s : State} {d : Fin 16} {x : DriveState} : (s.setDriveState d x).mon = s.mon := rfl
@[simp] theorem State.setDriveState_acc {s : State} {d : Fin 16} {x : DriveState} : (s.setDriveState d x).acc = s.acc := rfl
@[simp] theorem State.setDriveState_svc {s : State} {d : Fin 16} {x : DriveState} : (s.setDriveState d x).svc = s.svc := rfl
@[simp] theorem State.setDriveState_port {s : State} {d : Fin 16} {x : DriveState} : (s.setDriveState d x).port = s.port := rfl
@[simp] theorem State.setDriveState_notices {s : State} {d : Fin 16} {x : DriveState} : (s.setDriveState d x).notices = s.notices := rfl
@[simp] theorem State.setDriveState_pending {s : State} {d : Fin 16} {x : DriveState} : (s.setDriveState d x).pending = s.pending := rfl

@[simp] theorem State.updStation_dir {s : State} {p : Fin 8} {f : Station → Station} : (s.updStation p f).dir = s.dir := rfl
@[simp] theorem State.updStation_drv {s : State} {p : Fin 8} {f : Station → Station} : (s.updStation p f).drv = s.drv := rfl
@[simp] theorem State.updStation_ms {s : State} {p : Fin 8} {f : Station → Station} : (s.updStation p f).ms = s.ms := rfl
@[simp] theorem State.updStation_sch {s : State} {p : Fin 8} {f : Station → Station} : (s.updStation p f).sch = s.sch := rfl
@[simp] theorem State.updStation_aud {s : State} {p : Fin 8} {f : Station → Station} : (s.updStation p f).aud = s.aud := rfl
@[simp] theorem State.updStation_pr {s : State} {p : Fin 8} {f : Station → Station} : (s.updStation p f).pr = s.pr := rfl
@[simp] theorem State.updStation_att {s : State} {p : Fin 8} {f : Station → Station} : (s.updStation p f).att = s.att := rfl
@[simp] theorem State.updStation_acc {s : State} {p : Fin 8} {f : Station → Station} : (s.updStation p f).acc = s.acc := rfl
@[simp] theorem State.updStation_svc {s : State} {p : Fin 8} {f : Station → Station} : (s.updStation p f).svc = s.svc := rfl
@[simp] theorem State.updStation_port {s : State} {p : Fin 8} {f : Station → Station} : (s.updStation p f).port = s.port := rfl
@[simp] theorem State.updStation_notices {s : State} {p : Fin 8} {f : Station → Station} : (s.updStation p f).notices = s.notices := rfl
@[simp] theorem State.updStation_pending {s : State} {p : Fin 8} {f : Station → Station} : (s.updStation p f).pending = s.pending := rfl

@[simp] theorem State.mapStations_dir {s : State} {f : Station → Station} : (s.mapStations f).dir = s.dir := rfl
@[simp] theorem State.mapStations_drv {s : State} {f : Station → Station} : (s.mapStations f).drv = s.drv := rfl
@[simp] theorem State.mapStations_ms {s : State} {f : Station → Station} : (s.mapStations f).ms = s.ms := rfl
@[simp] theorem State.mapStations_sch {s : State} {f : Station → Station} : (s.mapStations f).sch = s.sch := rfl
@[simp] theorem State.mapStations_aud {s : State} {f : Station → Station} : (s.mapStations f).aud = s.aud := rfl
@[simp] theorem State.mapStations_pr {s : State} {f : Station → Station} : (s.mapStations f).pr = s.pr := rfl
@[simp] theorem State.mapStations_att {s : State} {f : Station → Station} : (s.mapStations f).att = s.att := rfl
@[simp] theorem State.mapStations_acc {s : State} {f : Station → Station} : (s.mapStations f).acc = s.acc := rfl
@[simp] theorem State.mapStations_svc {s : State} {f : Station → Station} : (s.mapStations f).svc = s.svc := rfl
@[simp] theorem State.mapStations_port {s : State} {f : Station → Station} : (s.mapStations f).port = s.port := rfl
@[simp] theorem State.mapStations_notices {s : State} {f : Station → Station} : (s.mapStations f).notices = s.notices := rfl
@[simp] theorem State.mapStations_pending {s : State} {f : Station → Station} : (s.mapStations f).pending = s.pending := rfl

@[simp] theorem State.setArm_dir {s : State} {a : ArmId} {x : Arm} : (s.setArm a x).dir = s.dir := by cases a <;> rfl
@[simp] theorem State.setArm_drv {s : State} {a : ArmId} {x : Arm} : (s.setArm a x).drv = s.drv := by cases a <;> rfl
@[simp] theorem State.setArm_ms {s : State} {a : ArmId} {x : Arm} : (s.setArm a x).ms = s.ms := by cases a <;> rfl
@[simp] theorem State.setArm_aud {s : State} {a : ArmId} {x : Arm} : (s.setArm a x).aud = s.aud := by cases a <;> rfl
@[simp] theorem State.setArm_pr {s : State} {a : ArmId} {x : Arm} : (s.setArm a x).pr = s.pr := by cases a <;> rfl
@[simp] theorem State.setArm_att {s : State} {a : ArmId} {x : Arm} : (s.setArm a x).att = s.att := by cases a <;> rfl
@[simp] theorem State.setArm_mon {s : State} {a : ArmId} {x : Arm} : (s.setArm a x).mon = s.mon := by cases a <;> rfl
@[simp] theorem State.setArm_acc {s : State} {a : ArmId} {x : Arm} : (s.setArm a x).acc = s.acc := by cases a <;> rfl
@[simp] theorem State.setArm_svc {s : State} {a : ArmId} {x : Arm} : (s.setArm a x).svc = s.svc := by cases a <;> rfl
@[simp] theorem State.setArm_port {s : State} {a : ArmId} {x : Arm} : (s.setArm a x).port = s.port := by cases a <;> rfl
@[simp] theorem State.setArm_notices {s : State} {a : ArmId} {x : Arm} : (s.setArm a x).notices = s.notices := by cases a <;> rfl
@[simp] theorem State.setArm_pending {s : State} {a : ArmId} {x : Arm} : (s.setArm a x).pending = s.pending := by cases a <;> rfl

@[simp] theorem State.updArm_dir {s : State} {a : ArmId} {f : Arm → Arm} : (s.updArm a f).dir = s.dir := by cases a <;> rfl
@[simp] theorem State.updArm_drv {s : State} {a : ArmId} {f : Arm → Arm} : (s.updArm a f).drv = s.drv := by cases a <;> rfl
@[simp] theorem State.updArm_ms {s : State} {a : ArmId} {f : Arm → Arm} : (s.updArm a f).ms = s.ms := by cases a <;> rfl
@[simp] theorem State.updArm_aud {s : State} {a : ArmId} {f : Arm → Arm} : (s.updArm a f).aud = s.aud := by cases a <;> rfl
@[simp] theorem State.updArm_pr {s : State} {a : ArmId} {f : Arm → Arm} : (s.updArm a f).pr = s.pr := by cases a <;> rfl
@[simp] theorem State.updArm_att {s : State} {a : ArmId} {f : Arm → Arm} : (s.updArm a f).att = s.att := by cases a <;> rfl
@[simp] theorem State.updArm_mon {s : State} {a : ArmId} {f : Arm → Arm} : (s.updArm a f).mon = s.mon := by cases a <;> rfl
@[simp] theorem State.updArm_acc {s : State} {a : ArmId} {f : Arm → Arm} : (s.updArm a f).acc = s.acc := by cases a <;> rfl
@[simp] theorem State.updArm_svc {s : State} {a : ArmId} {f : Arm → Arm} : (s.updArm a f).svc = s.svc := by cases a <;> rfl
@[simp] theorem State.updArm_port {s : State} {a : ArmId} {f : Arm → Arm} : (s.updArm a f).port = s.port := by cases a <;> rfl
@[simp] theorem State.updArm_notices {s : State} {a : ArmId} {f : Arm → Arm} : (s.updArm a f).notices = s.notices := by cases a <;> rfl
@[simp] theorem State.updArm_pending {s : State} {a : ArmId} {f : Arm → Arm} : (s.updArm a f).pending = s.pending := by cases a <;> rfl

@[simp] theorem State.setArmPort_dir {s : State} {a : ArmId} {x : ArmPort} : (s.setArmPort a x).dir = s.dir := by cases a <;> rfl
@[simp] theorem State.setArmPort_drv {s : State} {a : ArmId} {x : ArmPort} : (s.setArmPort a x).drv = s.drv := by cases a <;> rfl
@[simp] theorem State.setArmPort_ms {s : State} {a : ArmId} {x : ArmPort} : (s.setArmPort a x).ms = s.ms := by cases a <;> rfl
@[simp] theorem State.setArmPort_aud {s : State} {a : ArmId} {x : ArmPort} : (s.setArmPort a x).aud = s.aud := by cases a <;> rfl
@[simp] theorem State.setArmPort_pr {s : State} {a : ArmId} {x : ArmPort} : (s.setArmPort a x).pr = s.pr := by cases a <;> rfl
@[simp] theorem State.setArmPort_att {s : State} {a : ArmId} {x : ArmPort} : (s.setArmPort a x).att = s.att := by cases a <;> rfl
@[simp] theorem State.setArmPort_mon {s : State} {a : ArmId} {x : ArmPort} : (s.setArmPort a x).mon = s.mon := by cases a <;> rfl
@[simp] theorem State.setArmPort_acc {s : State} {a : ArmId} {x : ArmPort} : (s.setArmPort a x).acc = s.acc := by cases a <;> rfl
@[simp] theorem State.setArmPort_svc {s : State} {a : ArmId} {x : ArmPort} : (s.setArmPort a x).svc = s.svc := by cases a <;> rfl
@[simp] theorem State.setArmPort_port {s : State} {a : ArmId} {x : ArmPort} : (s.setArmPort a x).port = s.port := by cases a <;> rfl
@[simp] theorem State.setArmPort_notices {s : State} {a : ArmId} {x : ArmPort} : (s.setArmPort a x).notices = s.notices := by cases a <;> rfl
@[simp] theorem State.setArmPort_pending {s : State} {a : ArmId} {x : ArmPort} : (s.setArmPort a x).pending = s.pending := by cases a <;> rfl

@[simp] theorem State.mapZones_dir {s : State} {f : Nat → Option Holding → Option Holding} : (s.mapZones f).dir = s.dir := rfl
@[simp] theorem State.mapZones_drv {s : State} {f : Nat → Option Holding → Option Holding} : (s.mapZones f).drv = s.drv := rfl
@[simp] theorem State.mapZones_ms {s : State} {f : Nat → Option Holding → Option Holding} : (s.mapZones f).ms = s.ms := rfl
@[simp] theorem State.mapZones_aud {s : State} {f : Nat → Option Holding → Option Holding} : (s.mapZones f).aud = s.aud := rfl
@[simp] theorem State.mapZones_pr {s : State} {f : Nat → Option Holding → Option Holding} : (s.mapZones f).pr = s.pr := rfl
@[simp] theorem State.mapZones_att {s : State} {f : Nat → Option Holding → Option Holding} : (s.mapZones f).att = s.att := rfl
@[simp] theorem State.mapZones_mon {s : State} {f : Nat → Option Holding → Option Holding} : (s.mapZones f).mon = s.mon := rfl
@[simp] theorem State.mapZones_acc {s : State} {f : Nat → Option Holding → Option Holding} : (s.mapZones f).acc = s.acc := rfl
@[simp] theorem State.mapZones_svc {s : State} {f : Nat → Option Holding → Option Holding} : (s.mapZones f).svc = s.svc := rfl
@[simp] theorem State.mapZones_port {s : State} {f : Nat → Option Holding → Option Holding} : (s.mapZones f).port = s.port := rfl
@[simp] theorem State.mapZones_notices {s : State} {f : Nat → Option Holding → Option Holding} : (s.mapZones f).notices = s.notices := rfl
@[simp] theorem State.mapZones_pending {s : State} {f : Nat → Option Holding → Option Holding} : (s.mapZones f).pending = s.pending := rfl

@[simp] theorem State.updOrder_dir {s : State} {i : Nat} {f : Order → Order} : (s.updOrder i f).dir = s.dir := rfl
@[simp] theorem State.updOrder_drv {s : State} {i : Nat} {f : Order → Order} : (s.updOrder i f).drv = s.drv := rfl
@[simp] theorem State.updOrder_ms {s : State} {i : Nat} {f : Order → Order} : (s.updOrder i f).ms = s.ms := rfl
@[simp] theorem State.updOrder_aud {s : State} {i : Nat} {f : Order → Order} : (s.updOrder i f).aud = s.aud := rfl
@[simp] theorem State.updOrder_pr {s : State} {i : Nat} {f : Order → Order} : (s.updOrder i f).pr = s.pr := rfl
@[simp] theorem State.updOrder_att {s : State} {i : Nat} {f : Order → Order} : (s.updOrder i f).att = s.att := rfl
@[simp] theorem State.updOrder_mon {s : State} {i : Nat} {f : Order → Order} : (s.updOrder i f).mon = s.mon := rfl
@[simp] theorem State.updOrder_acc {s : State} {i : Nat} {f : Order → Order} : (s.updOrder i f).acc = s.acc := rfl
@[simp] theorem State.updOrder_svc {s : State} {i : Nat} {f : Order → Order} : (s.updOrder i f).svc = s.svc := rfl
@[simp] theorem State.updOrder_port {s : State} {i : Nat} {f : Order → Order} : (s.updOrder i f).port = s.port := rfl
@[simp] theorem State.updOrder_notices {s : State} {i : Nat} {f : Order → Order} : (s.updOrder i f).notices = s.notices := rfl
@[simp] theorem State.updOrder_pending {s : State} {i : Nat} {f : Order → Order} : (s.updOrder i f).pending = s.pending := rfl

@[simp] theorem State.dropOrder_dir {s : State} {i : Nat} : (s.dropOrder i).dir = s.dir := rfl
@[simp] theorem State.dropOrder_drv {s : State} {i : Nat} : (s.dropOrder i).drv = s.drv := rfl
@[simp] theorem State.dropOrder_ms {s : State} {i : Nat} : (s.dropOrder i).ms = s.ms := rfl
@[simp] theorem State.dropOrder_aud {s : State} {i : Nat} : (s.dropOrder i).aud = s.aud := rfl
@[simp] theorem State.dropOrder_pr {s : State} {i : Nat} : (s.dropOrder i).pr = s.pr := rfl
@[simp] theorem State.dropOrder_att {s : State} {i : Nat} : (s.dropOrder i).att = s.att := rfl
@[simp] theorem State.dropOrder_mon {s : State} {i : Nat} : (s.dropOrder i).mon = s.mon := rfl
@[simp] theorem State.dropOrder_acc {s : State} {i : Nat} : (s.dropOrder i).acc = s.acc := rfl
@[simp] theorem State.dropOrder_svc {s : State} {i : Nat} : (s.dropOrder i).svc = s.svc := rfl
@[simp] theorem State.dropOrder_port {s : State} {i : Nat} : (s.dropOrder i).port = s.port := rfl
@[simp] theorem State.dropOrder_notices {s : State} {i : Nat} : (s.dropOrder i).notices = s.notices := rfl
@[simp] theorem State.dropOrder_pending {s : State} {i : Nat} : (s.dropOrder i).pending = s.pending := rfl

@[simp] theorem State.updRequest_dir {s : State} {tag : Half} {f : Request → Request} : (s.updRequest tag f).dir = s.dir := rfl
@[simp] theorem State.updRequest_drv {s : State} {tag : Half} {f : Request → Request} : (s.updRequest tag f).drv = s.drv := rfl
@[simp] theorem State.updRequest_sch {s : State} {tag : Half} {f : Request → Request} : (s.updRequest tag f).sch = s.sch := rfl
@[simp] theorem State.updRequest_aud {s : State} {tag : Half} {f : Request → Request} : (s.updRequest tag f).aud = s.aud := rfl
@[simp] theorem State.updRequest_pr {s : State} {tag : Half} {f : Request → Request} : (s.updRequest tag f).pr = s.pr := rfl
@[simp] theorem State.updRequest_att {s : State} {tag : Half} {f : Request → Request} : (s.updRequest tag f).att = s.att := rfl
@[simp] theorem State.updRequest_mon {s : State} {tag : Half} {f : Request → Request} : (s.updRequest tag f).mon = s.mon := rfl
@[simp] theorem State.updRequest_acc {s : State} {tag : Half} {f : Request → Request} : (s.updRequest tag f).acc = s.acc := rfl
@[simp] theorem State.updRequest_svc {s : State} {tag : Half} {f : Request → Request} : (s.updRequest tag f).svc = s.svc := rfl
@[simp] theorem State.updRequest_port {s : State} {tag : Half} {f : Request → Request} : (s.updRequest tag f).port = s.port := rfl
@[simp] theorem State.updRequest_notices {s : State} {tag : Half} {f : Request → Request} : (s.updRequest tag f).notices = s.notices := rfl
@[simp] theorem State.updRequest_pending {s : State} {tag : Half} {f : Request → Request} : (s.updRequest tag f).pending = s.pending := rfl

@[simp] theorem State.joinQueue_dir {s : State} {r : Request} : (s.joinQueue r).dir = s.dir := rfl
@[simp] theorem State.joinQueue_drv {s : State} {r : Request} : (s.joinQueue r).drv = s.drv := rfl
@[simp] theorem State.joinQueue_sch {s : State} {r : Request} : (s.joinQueue r).sch = s.sch := rfl
@[simp] theorem State.joinQueue_aud {s : State} {r : Request} : (s.joinQueue r).aud = s.aud := rfl
@[simp] theorem State.joinQueue_pr {s : State} {r : Request} : (s.joinQueue r).pr = s.pr := rfl
@[simp] theorem State.joinQueue_att {s : State} {r : Request} : (s.joinQueue r).att = s.att := rfl
@[simp] theorem State.joinQueue_mon {s : State} {r : Request} : (s.joinQueue r).mon = s.mon := rfl
@[simp] theorem State.joinQueue_acc {s : State} {r : Request} : (s.joinQueue r).acc = s.acc := rfl
@[simp] theorem State.joinQueue_svc {s : State} {r : Request} : (s.joinQueue r).svc = s.svc := rfl
@[simp] theorem State.joinQueue_port {s : State} {r : Request} : (s.joinQueue r).port = s.port := rfl
@[simp] theorem State.joinQueue_notices {s : State} {r : Request} : (s.joinQueue r).notices = s.notices := rfl
@[simp] theorem State.joinQueue_pending {s : State} {r : Request} : (s.joinQueue r).pending = s.pending := rfl

@[simp] theorem State.updPrompt_dir {s : State} {n : Nat} {f : Prompt → Prompt} : (s.updPrompt n f).dir = s.dir := rfl
@[simp] theorem State.updPrompt_drv {s : State} {n : Nat} {f : Prompt → Prompt} : (s.updPrompt n f).drv = s.drv := rfl
@[simp] theorem State.updPrompt_ms {s : State} {n : Nat} {f : Prompt → Prompt} : (s.updPrompt n f).ms = s.ms := rfl
@[simp] theorem State.updPrompt_sch {s : State} {n : Nat} {f : Prompt → Prompt} : (s.updPrompt n f).sch = s.sch := rfl
@[simp] theorem State.updPrompt_aud {s : State} {n : Nat} {f : Prompt → Prompt} : (s.updPrompt n f).aud = s.aud := rfl
@[simp] theorem State.updPrompt_att {s : State} {n : Nat} {f : Prompt → Prompt} : (s.updPrompt n f).att = s.att := rfl
@[simp] theorem State.updPrompt_mon {s : State} {n : Nat} {f : Prompt → Prompt} : (s.updPrompt n f).mon = s.mon := rfl
@[simp] theorem State.updPrompt_acc {s : State} {n : Nat} {f : Prompt → Prompt} : (s.updPrompt n f).acc = s.acc := rfl
@[simp] theorem State.updPrompt_svc {s : State} {n : Nat} {f : Prompt → Prompt} : (s.updPrompt n f).svc = s.svc := rfl
@[simp] theorem State.updPrompt_port {s : State} {n : Nat} {f : Prompt → Prompt} : (s.updPrompt n f).port = s.port := rfl
@[simp] theorem State.updPrompt_notices {s : State} {n : Nat} {f : Prompt → Prompt} : (s.updPrompt n f).notices = s.notices := rfl
@[simp] theorem State.updPrompt_pending {s : State} {n : Nat} {f : Prompt → Prompt} : (s.updPrompt n f).pending = s.pending := rfl

@[simp] theorem State.answer_dir {s : State} {a : Answer} : (s.answer a).dir = s.dir := rfl
@[simp] theorem State.answer_drv {s : State} {a : Answer} : (s.answer a).drv = s.drv := rfl
@[simp] theorem State.answer_ms {s : State} {a : Answer} : (s.answer a).ms = s.ms := rfl
@[simp] theorem State.answer_sch {s : State} {a : Answer} : (s.answer a).sch = s.sch := rfl
@[simp] theorem State.answer_aud {s : State} {a : Answer} : (s.answer a).aud = s.aud := rfl
@[simp] theorem State.answer_att {s : State} {a : Answer} : (s.answer a).att = s.att := rfl
@[simp] theorem State.answer_mon {s : State} {a : Answer} : (s.answer a).mon = s.mon := rfl
@[simp] theorem State.answer_acc {s : State} {a : Answer} : (s.answer a).acc = s.acc := rfl
@[simp] theorem State.answer_svc {s : State} {a : Answer} : (s.answer a).svc = s.svc := rfl
@[simp] theorem State.answer_port {s : State} {a : Answer} : (s.answer a).port = s.port := rfl
@[simp] theorem State.answer_notices {s : State} {a : Answer} : (s.answer a).notices = s.notices := rfl
@[simp] theorem State.answer_pending {s : State} {a : Answer} : (s.answer a).pending = s.pending := rfl

@[simp] theorem State.sendLine_dir {s : State} {line : Text} : (s.sendLine line).dir = s.dir := rfl
@[simp] theorem State.sendLine_drv {s : State} {line : Text} : (s.sendLine line).drv = s.drv := rfl
@[simp] theorem State.sendLine_ms {s : State} {line : Text} : (s.sendLine line).ms = s.ms := rfl
@[simp] theorem State.sendLine_sch {s : State} {line : Text} : (s.sendLine line).sch = s.sch := rfl
@[simp] theorem State.sendLine_aud {s : State} {line : Text} : (s.sendLine line).aud = s.aud := rfl
@[simp] theorem State.sendLine_att {s : State} {line : Text} : (s.sendLine line).att = s.att := rfl
@[simp] theorem State.sendLine_mon {s : State} {line : Text} : (s.sendLine line).mon = s.mon := rfl
@[simp] theorem State.sendLine_acc {s : State} {line : Text} : (s.sendLine line).acc = s.acc := rfl
@[simp] theorem State.sendLine_svc {s : State} {line : Text} : (s.sendLine line).svc = s.svc := rfl
@[simp] theorem State.sendLine_port {s : State} {line : Text} : (s.sendLine line).port = s.port := rfl
@[simp] theorem State.sendLine_notices {s : State} {line : Text} : (s.sendLine line).notices = s.notices := rfl
@[simp] theorem State.sendLine_pending {s : State} {line : Text} : (s.sendLine line).pending = s.pending := rfl

@[simp] theorem State.setAttnUnit_dir {s : State} {o : Output} {u : AttnUnit} : (s.setAttnUnit o u).dir = s.dir := by cases o <;> rfl
@[simp] theorem State.setAttnUnit_drv {s : State} {o : Output} {u : AttnUnit} : (s.setAttnUnit o u).drv = s.drv := by cases o <;> rfl
@[simp] theorem State.setAttnUnit_ms {s : State} {o : Output} {u : AttnUnit} : (s.setAttnUnit o u).ms = s.ms := by cases o <;> rfl
@[simp] theorem State.setAttnUnit_sch {s : State} {o : Output} {u : AttnUnit} : (s.setAttnUnit o u).sch = s.sch := by cases o <;> rfl
@[simp] theorem State.setAttnUnit_aud {s : State} {o : Output} {u : AttnUnit} : (s.setAttnUnit o u).aud = s.aud := by cases o <;> rfl
@[simp] theorem State.setAttnUnit_pr {s : State} {o : Output} {u : AttnUnit} : (s.setAttnUnit o u).pr = s.pr := by cases o <;> rfl
@[simp] theorem State.setAttnUnit_mon {s : State} {o : Output} {u : AttnUnit} : (s.setAttnUnit o u).mon = s.mon := by cases o <;> rfl
@[simp] theorem State.setAttnUnit_acc {s : State} {o : Output} {u : AttnUnit} : (s.setAttnUnit o u).acc = s.acc := by cases o <;> rfl
@[simp] theorem State.setAttnUnit_svc {s : State} {o : Output} {u : AttnUnit} : (s.setAttnUnit o u).svc = s.svc := by cases o <;> rfl
@[simp] theorem State.setAttnUnit_port {s : State} {o : Output} {u : AttnUnit} : (s.setAttnUnit o u).port = s.port := by cases o <;> rfl
@[simp] theorem State.setAttnUnit_notices {s : State} {o : Output} {u : AttnUnit} : (s.setAttnUnit o u).notices = s.notices := by cases o <;> rfl
@[simp] theorem State.setAttnUnit_pending {s : State} {o : Output} {u : AttnUnit} : (s.setAttnUnit o u).pending = s.pending := by cases o <;> rfl

@[simp] theorem State.updAudit_dir {s : State} {f : AuditBlock → AuditBlock} : (s.updAudit f).dir = s.dir := rfl
@[simp] theorem State.updAudit_drv {s : State} {f : AuditBlock → AuditBlock} : (s.updAudit f).drv = s.drv := rfl
@[simp] theorem State.updAudit_ms {s : State} {f : AuditBlock → AuditBlock} : (s.updAudit f).ms = s.ms := rfl
@[simp] theorem State.updAudit_sch {s : State} {f : AuditBlock → AuditBlock} : (s.updAudit f).sch = s.sch := rfl
@[simp] theorem State.updAudit_pr {s : State} {f : AuditBlock → AuditBlock} : (s.updAudit f).pr = s.pr := rfl
@[simp] theorem State.updAudit_att {s : State} {f : AuditBlock → AuditBlock} : (s.updAudit f).att = s.att := rfl
@[simp] theorem State.updAudit_mon {s : State} {f : AuditBlock → AuditBlock} : (s.updAudit f).mon = s.mon := rfl
@[simp] theorem State.updAudit_acc {s : State} {f : AuditBlock → AuditBlock} : (s.updAudit f).acc = s.acc := rfl
@[simp] theorem State.updAudit_svc {s : State} {f : AuditBlock → AuditBlock} : (s.updAudit f).svc = s.svc := rfl
@[simp] theorem State.updAudit_port {s : State} {f : AuditBlock → AuditBlock} : (s.updAudit f).port = s.port := rfl
@[simp] theorem State.updAudit_notices {s : State} {f : AuditBlock → AuditBlock} : (s.updAudit f).notices = s.notices := rfl
@[simp] theorem State.updAudit_pending {s : State} {f : AuditBlock → AuditBlock} : (s.updAudit f).pending = s.pending := rfl

@[simp] theorem State.setAccount_dir {s : State} {i : Nat} {x : Account} : (s.setAccount i x).dir = s.dir := rfl
@[simp] theorem State.setAccount_drv {s : State} {i : Nat} {x : Account} : (s.setAccount i x).drv = s.drv := rfl
@[simp] theorem State.setAccount_ms {s : State} {i : Nat} {x : Account} : (s.setAccount i x).ms = s.ms := rfl
@[simp] theorem State.setAccount_sch {s : State} {i : Nat} {x : Account} : (s.setAccount i x).sch = s.sch := rfl
@[simp] theorem State.setAccount_aud {s : State} {i : Nat} {x : Account} : (s.setAccount i x).aud = s.aud := rfl
@[simp] theorem State.setAccount_pr {s : State} {i : Nat} {x : Account} : (s.setAccount i x).pr = s.pr := rfl
@[simp] theorem State.setAccount_att {s : State} {i : Nat} {x : Account} : (s.setAccount i x).att = s.att := rfl
@[simp] theorem State.setAccount_mon {s : State} {i : Nat} {x : Account} : (s.setAccount i x).mon = s.mon := rfl
@[simp] theorem State.setAccount_svc {s : State} {i : Nat} {x : Account} : (s.setAccount i x).svc = s.svc := rfl
@[simp] theorem State.setAccount_port {s : State} {i : Nat} {x : Account} : (s.setAccount i x).port = s.port := rfl
@[simp] theorem State.setAccount_notices {s : State} {i : Nat} {x : Account} : (s.setAccount i x).notices = s.notices := rfl
@[simp] theorem State.setAccount_pending {s : State} {i : Nat} {x : Account} : (s.setAccount i x).pending = s.pending := rfl

@[simp] theorem State.dropRecords_dir {s : State} {n : Nat} : (s.dropRecords n).dir = s.dir := rfl
@[simp] theorem State.dropRecords_drv {s : State} {n : Nat} : (s.dropRecords n).drv = s.drv := rfl
@[simp] theorem State.dropRecords_ms {s : State} {n : Nat} : (s.dropRecords n).ms = s.ms := rfl
@[simp] theorem State.dropRecords_sch {s : State} {n : Nat} : (s.dropRecords n).sch = s.sch := rfl
@[simp] theorem State.dropRecords_aud {s : State} {n : Nat} : (s.dropRecords n).aud = s.aud := rfl
@[simp] theorem State.dropRecords_pr {s : State} {n : Nat} : (s.dropRecords n).pr = s.pr := rfl
@[simp] theorem State.dropRecords_att {s : State} {n : Nat} : (s.dropRecords n).att = s.att := rfl
@[simp] theorem State.dropRecords_mon {s : State} {n : Nat} : (s.dropRecords n).mon = s.mon := rfl
@[simp] theorem State.dropRecords_svc {s : State} {n : Nat} : (s.dropRecords n).svc = s.svc := rfl
@[simp] theorem State.dropRecords_port {s : State} {n : Nat} : (s.dropRecords n).port = s.port := rfl
@[simp] theorem State.dropRecords_notices {s : State} {n : Nat} : (s.dropRecords n).notices = s.notices := rfl
@[simp] theorem State.dropRecords_pending {s : State} {n : Nat} : (s.dropRecords n).pending = s.pending := rfl

@[simp] theorem State.setDoorMark_dir {s : State} {b : Bool} : (s.setDoorMark b).dir = s.dir := rfl
@[simp] theorem State.setDoorMark_drv {s : State} {b : Bool} : (s.setDoorMark b).drv = s.drv := rfl
@[simp] theorem State.setDoorMark_ms {s : State} {b : Bool} : (s.setDoorMark b).ms = s.ms := rfl
@[simp] theorem State.setDoorMark_sch {s : State} {b : Bool} : (s.setDoorMark b).sch = s.sch := rfl
@[simp] theorem State.setDoorMark_aud {s : State} {b : Bool} : (s.setDoorMark b).aud = s.aud := rfl
@[simp] theorem State.setDoorMark_pr {s : State} {b : Bool} : (s.setDoorMark b).pr = s.pr := rfl
@[simp] theorem State.setDoorMark_att {s : State} {b : Bool} : (s.setDoorMark b).att = s.att := rfl
@[simp] theorem State.setDoorMark_mon {s : State} {b : Bool} : (s.setDoorMark b).mon = s.mon := rfl
@[simp] theorem State.setDoorMark_acc {s : State} {b : Bool} : (s.setDoorMark b).acc = s.acc := rfl
@[simp] theorem State.setDoorMark_port {s : State} {b : Bool} : (s.setDoorMark b).port = s.port := rfl
@[simp] theorem State.setDoorMark_notices {s : State} {b : Bool} : (s.setDoorMark b).notices = s.notices := rfl
@[simp] theorem State.setDoorMark_pending {s : State} {b : Bool} : (s.setDoorMark b).pending = s.pending := rfl

@[simp] theorem State.setHomingOwed_dir {s : State} {a : ArmId} {b : Bool} : (s.setHomingOwed a b).dir = s.dir := by cases a <;> rfl
@[simp] theorem State.setHomingOwed_drv {s : State} {a : ArmId} {b : Bool} : (s.setHomingOwed a b).drv = s.drv := by cases a <;> rfl
@[simp] theorem State.setHomingOwed_ms {s : State} {a : ArmId} {b : Bool} : (s.setHomingOwed a b).ms = s.ms := by cases a <;> rfl
@[simp] theorem State.setHomingOwed_sch {s : State} {a : ArmId} {b : Bool} : (s.setHomingOwed a b).sch = s.sch := by cases a <;> rfl
@[simp] theorem State.setHomingOwed_aud {s : State} {a : ArmId} {b : Bool} : (s.setHomingOwed a b).aud = s.aud := by cases a <;> rfl
@[simp] theorem State.setHomingOwed_pr {s : State} {a : ArmId} {b : Bool} : (s.setHomingOwed a b).pr = s.pr := by cases a <;> rfl
@[simp] theorem State.setHomingOwed_att {s : State} {a : ArmId} {b : Bool} : (s.setHomingOwed a b).att = s.att := by cases a <;> rfl
@[simp] theorem State.setHomingOwed_mon {s : State} {a : ArmId} {b : Bool} : (s.setHomingOwed a b).mon = s.mon := by cases a <;> rfl
@[simp] theorem State.setHomingOwed_acc {s : State} {a : ArmId} {b : Bool} : (s.setHomingOwed a b).acc = s.acc := by cases a <;> rfl
@[simp] theorem State.setHomingOwed_port {s : State} {a : ArmId} {b : Bool} : (s.setHomingOwed a b).port = s.port := by cases a <;> rfl
@[simp] theorem State.setHomingOwed_notices {s : State} {a : ArmId} {b : Bool} : (s.setHomingOwed a b).notices = s.notices := by cases a <;> rfl
@[simp] theorem State.setHomingOwed_pending {s : State} {a : ArmId} {b : Bool} : (s.setHomingOwed a b).pending = s.pending := by cases a <;> rfl

@[simp] theorem State.setEvents_dir {s : State} {f m : Half} : (s.setEvents f m).dir = s.dir := rfl
@[simp] theorem State.setEvents_drv {s : State} {f m : Half} : (s.setEvents f m).drv = s.drv := rfl
@[simp] theorem State.setEvents_ms {s : State} {f m : Half} : (s.setEvents f m).ms = s.ms := rfl
@[simp] theorem State.setEvents_sch {s : State} {f m : Half} : (s.setEvents f m).sch = s.sch := rfl
@[simp] theorem State.setEvents_aud {s : State} {f m : Half} : (s.setEvents f m).aud = s.aud := rfl
@[simp] theorem State.setEvents_pr {s : State} {f m : Half} : (s.setEvents f m).pr = s.pr := rfl
@[simp] theorem State.setEvents_att {s : State} {f m : Half} : (s.setEvents f m).att = s.att := rfl
@[simp] theorem State.setEvents_mon {s : State} {f m : Half} : (s.setEvents f m).mon = s.mon := rfl
@[simp] theorem State.setEvents_acc {s : State} {f m : Half} : (s.setEvents f m).acc = s.acc := rfl
@[simp] theorem State.setEvents_svc {s : State} {f m : Half} : (s.setEvents f m).svc = s.svc := rfl
@[simp] theorem State.setEvents_notices {s : State} {f m : Half} : (s.setEvents f m).notices = s.notices := rfl
@[simp] theorem State.setEvents_pending {s : State} {f m : Half} : (s.setEvents f m).pending = s.pending := rfl

@[simp] theorem State.raise_dir {s : State} {e : Event} : (s.raise e).dir = s.dir := rfl
@[simp] theorem State.raise_drv {s : State} {e : Event} : (s.raise e).drv = s.drv := rfl
@[simp] theorem State.raise_ms {s : State} {e : Event} : (s.raise e).ms = s.ms := rfl
@[simp] theorem State.raise_sch {s : State} {e : Event} : (s.raise e).sch = s.sch := rfl
@[simp] theorem State.raise_aud {s : State} {e : Event} : (s.raise e).aud = s.aud := rfl
@[simp] theorem State.raise_pr {s : State} {e : Event} : (s.raise e).pr = s.pr := rfl
@[simp] theorem State.raise_att {s : State} {e : Event} : (s.raise e).att = s.att := rfl
@[simp] theorem State.raise_mon {s : State} {e : Event} : (s.raise e).mon = s.mon := rfl
@[simp] theorem State.raise_acc {s : State} {e : Event} : (s.raise e).acc = s.acc := rfl
@[simp] theorem State.raise_svc {s : State} {e : Event} : (s.raise e).svc = s.svc := rfl
@[simp] theorem State.raise_notices {s : State} {e : Event} : (s.raise e).notices = s.notices := rfl
@[simp] theorem State.raise_pending {s : State} {e : Event} : (s.raise e).pending = s.pending := rfl

@[simp] theorem State.refreshConditions_dir {s : State} : (s.refreshConditions).dir = s.dir := rfl
@[simp] theorem State.refreshConditions_drv {s : State} : (s.refreshConditions).drv = s.drv := rfl
@[simp] theorem State.refreshConditions_ms {s : State} : (s.refreshConditions).ms = s.ms := rfl
@[simp] theorem State.refreshConditions_sch {s : State} : (s.refreshConditions).sch = s.sch := rfl
@[simp] theorem State.refreshConditions_aud {s : State} : (s.refreshConditions).aud = s.aud := rfl
@[simp] theorem State.refreshConditions_pr {s : State} : (s.refreshConditions).pr = s.pr := rfl
@[simp] theorem State.refreshConditions_att {s : State} : (s.refreshConditions).att = s.att := rfl
@[simp] theorem State.refreshConditions_mon {s : State} : (s.refreshConditions).mon = s.mon := rfl
@[simp] theorem State.refreshConditions_acc {s : State} : (s.refreshConditions).acc = s.acc := rfl
@[simp] theorem State.refreshConditions_svc {s : State} : (s.refreshConditions).svc = s.svc := rfl
@[simp] theorem State.refreshConditions_notices {s : State} : (s.refreshConditions).notices = s.notices := rfl
@[simp] theorem State.refreshConditions_pending {s : State} : (s.refreshConditions).pending = s.pending := rfl

@[simp] theorem State.clearEvents_dir {s : State} {e : Half} : (s.clearEvents e).dir = s.dir := rfl
@[simp] theorem State.clearEvents_drv {s : State} {e : Half} : (s.clearEvents e).drv = s.drv := rfl
@[simp] theorem State.clearEvents_ms {s : State} {e : Half} : (s.clearEvents e).ms = s.ms := rfl
@[simp] theorem State.clearEvents_sch {s : State} {e : Half} : (s.clearEvents e).sch = s.sch := rfl
@[simp] theorem State.clearEvents_aud {s : State} {e : Half} : (s.clearEvents e).aud = s.aud := rfl
@[simp] theorem State.clearEvents_pr {s : State} {e : Half} : (s.clearEvents e).pr = s.pr := rfl
@[simp] theorem State.clearEvents_att {s : State} {e : Half} : (s.clearEvents e).att = s.att := rfl
@[simp] theorem State.clearEvents_mon {s : State} {e : Half} : (s.clearEvents e).mon = s.mon := rfl
@[simp] theorem State.clearEvents_acc {s : State} {e : Half} : (s.clearEvents e).acc = s.acc := rfl
@[simp] theorem State.clearEvents_svc {s : State} {e : Half} : (s.clearEvents e).svc = s.svc := rfl
@[simp] theorem State.clearEvents_notices {s : State} {e : Half} : (s.clearEvents e).notices = s.notices := rfl
@[simp] theorem State.clearEvents_pending {s : State} {e : Half} : (s.clearEvents e).pending = s.pending := rfl

@[simp] theorem State.setMask_dir {s : State} {m : Half} : (s.setMask m).dir = s.dir := rfl
@[simp] theorem State.setMask_drv {s : State} {m : Half} : (s.setMask m).drv = s.drv := rfl
@[simp] theorem State.setMask_ms {s : State} {m : Half} : (s.setMask m).ms = s.ms := rfl
@[simp] theorem State.setMask_sch {s : State} {m : Half} : (s.setMask m).sch = s.sch := rfl
@[simp] theorem State.setMask_aud {s : State} {m : Half} : (s.setMask m).aud = s.aud := rfl
@[simp] theorem State.setMask_pr {s : State} {m : Half} : (s.setMask m).pr = s.pr := rfl
@[simp] theorem State.setMask_att {s : State} {m : Half} : (s.setMask m).att = s.att := rfl
@[simp] theorem State.setMask_mon {s : State} {m : Half} : (s.setMask m).mon = s.mon := rfl
@[simp] theorem State.setMask_acc {s : State} {m : Half} : (s.setMask m).acc = s.acc := rfl
@[simp] theorem State.setMask_svc {s : State} {m : Half} : (s.setMask m).svc = s.svc := rfl
@[simp] theorem State.setMask_notices {s : State} {m : Half} : (s.setMask m).notices = s.notices := rfl
@[simp] theorem State.setMask_pending {s : State} {m : Half} : (s.setMask m).pending = s.pending := rfl

@[simp] theorem State.setCursor_dir {s : State} {t : Fin 13} {c : Cursor} : (s.setCursor t c).dir = s.dir := rfl
@[simp] theorem State.setCursor_drv {s : State} {t : Fin 13} {c : Cursor} : (s.setCursor t c).drv = s.drv := rfl
@[simp] theorem State.setCursor_ms {s : State} {t : Fin 13} {c : Cursor} : (s.setCursor t c).ms = s.ms := rfl
@[simp] theorem State.setCursor_sch {s : State} {t : Fin 13} {c : Cursor} : (s.setCursor t c).sch = s.sch := rfl
@[simp] theorem State.setCursor_aud {s : State} {t : Fin 13} {c : Cursor} : (s.setCursor t c).aud = s.aud := rfl
@[simp] theorem State.setCursor_pr {s : State} {t : Fin 13} {c : Cursor} : (s.setCursor t c).pr = s.pr := rfl
@[simp] theorem State.setCursor_att {s : State} {t : Fin 13} {c : Cursor} : (s.setCursor t c).att = s.att := rfl
@[simp] theorem State.setCursor_mon {s : State} {t : Fin 13} {c : Cursor} : (s.setCursor t c).mon = s.mon := rfl
@[simp] theorem State.setCursor_acc {s : State} {t : Fin 13} {c : Cursor} : (s.setCursor t c).acc = s.acc := rfl
@[simp] theorem State.setCursor_svc {s : State} {t : Fin 13} {c : Cursor} : (s.setCursor t c).svc = s.svc := rfl
@[simp] theorem State.setCursor_notices {s : State} {t : Fin 13} {c : Cursor} : (s.setCursor t c).notices = s.notices := rfl
@[simp] theorem State.setCursor_pending {s : State} {t : Fin 13} {c : Cursor} : (s.setCursor t c).pending = s.pending := rfl

@[simp] theorem State.setClock_dir {s : State} {v : Stamp} : (s.setClock v).dir = s.dir := rfl
@[simp] theorem State.setClock_drv {s : State} {v : Stamp} : (s.setClock v).drv = s.drv := rfl
@[simp] theorem State.setClock_ms {s : State} {v : Stamp} : (s.setClock v).ms = s.ms := rfl
@[simp] theorem State.setClock_sch {s : State} {v : Stamp} : (s.setClock v).sch = s.sch := rfl
@[simp] theorem State.setClock_aud {s : State} {v : Stamp} : (s.setClock v).aud = s.aud := rfl
@[simp] theorem State.setClock_pr {s : State} {v : Stamp} : (s.setClock v).pr = s.pr := rfl
@[simp] theorem State.setClock_att {s : State} {v : Stamp} : (s.setClock v).att = s.att := rfl
@[simp] theorem State.setClock_mon {s : State} {v : Stamp} : (s.setClock v).mon = s.mon := rfl
@[simp] theorem State.setClock_acc {s : State} {v : Stamp} : (s.setClock v).acc = s.acc := rfl
@[simp] theorem State.setClock_svc {s : State} {v : Stamp} : (s.setClock v).svc = s.svc := rfl
@[simp] theorem State.setClock_notices {s : State} {v : Stamp} : (s.setClock v).notices = s.notices := rfl
@[simp] theorem State.setClock_pending {s : State} {v : Stamp} : (s.setClock v).pending = s.pending := rfl

@[simp] theorem State.handOut_dir {s : State} {m : OutMsg} : (s.handOut m).dir = s.dir := rfl
@[simp] theorem State.handOut_drv {s : State} {m : OutMsg} : (s.handOut m).drv = s.drv := rfl
@[simp] theorem State.handOut_ms {s : State} {m : OutMsg} : (s.handOut m).ms = s.ms := rfl
@[simp] theorem State.handOut_sch {s : State} {m : OutMsg} : (s.handOut m).sch = s.sch := rfl
@[simp] theorem State.handOut_aud {s : State} {m : OutMsg} : (s.handOut m).aud = s.aud := rfl
@[simp] theorem State.handOut_pr {s : State} {m : OutMsg} : (s.handOut m).pr = s.pr := rfl
@[simp] theorem State.handOut_att {s : State} {m : OutMsg} : (s.handOut m).att = s.att := rfl
@[simp] theorem State.handOut_mon {s : State} {m : OutMsg} : (s.handOut m).mon = s.mon := rfl
@[simp] theorem State.handOut_acc {s : State} {m : OutMsg} : (s.handOut m).acc = s.acc := rfl
@[simp] theorem State.handOut_svc {s : State} {m : OutMsg} : (s.handOut m).svc = s.svc := rfl
@[simp] theorem State.handOut_notices {s : State} {m : OutMsg} : (s.handOut m).notices = s.notices := rfl
@[simp] theorem State.handOut_pending {s : State} {m : OutMsg} : (s.handOut m).pending = s.pending := rfl

@[simp] theorem State.leaveQueue_dir {s : State} {tag : Half} : (s.leaveQueue tag).dir = s.dir := rfl
@[simp] theorem State.leaveQueue_sch {s : State} {tag : Half} : (s.leaveQueue tag).sch = s.sch := rfl
@[simp] theorem State.leaveQueue_aud {s : State} {tag : Half} : (s.leaveQueue tag).aud = s.aud := rfl
@[simp] theorem State.leaveQueue_pr {s : State} {tag : Half} : (s.leaveQueue tag).pr = s.pr := rfl
@[simp] theorem State.leaveQueue_att {s : State} {tag : Half} : (s.leaveQueue tag).att = s.att := rfl
@[simp] theorem State.leaveQueue_mon {s : State} {tag : Half} : (s.leaveQueue tag).mon = s.mon := rfl
@[simp] theorem State.leaveQueue_acc {s : State} {tag : Half} : (s.leaveQueue tag).acc = s.acc := rfl
@[simp] theorem State.leaveQueue_svc {s : State} {tag : Half} : (s.leaveQueue tag).svc = s.svc := rfl
@[simp] theorem State.leaveQueue_port {s : State} {tag : Half} : (s.leaveQueue tag).port = s.port := rfl
@[simp] theorem State.leaveQueue_notices {s : State} {tag : Half} : (s.leaveQueue tag).notices = s.notices := rfl
@[simp] theorem State.leaveQueue_pending {s : State} {tag : Half} : (s.leaveQueue tag).pending = s.pending := rfl

/-! ### The System Port, field by field -/

@[simp] theorem State.setEvents_port_rx {s : State} {f m : Half} : (s.setEvents f m).port.rx = s.port.rx := rfl
@[simp] theorem State.setEvents_port_buffer {s : State} {f m : Half} : (s.setEvents f m).port.buffer = s.port.buffer := rfl
@[simp] theorem State.setEvents_port_sending {s : State} {f m : Half} : (s.setEvents f m).port.sending = s.port.sending := rfl
@[simp] theorem State.setEvents_port_immediate {s : State} {f m : Half} : (s.setEvents f m).port.immediate = s.port.immediate := rfl
@[simp] theorem State.setEvents_port_replyOwed {s : State} {f m : Half} : (s.setEvents f m).port.replyOwed = s.port.replyOwed := rfl
@[simp] theorem State.setEvents_port_resetting {s : State} {f m : Half} : (s.setEvents f m).port.resetting = s.port.resetting := rfl
@[simp] theorem State.setEvents_port_cursors {s : State} {f m : Half} : (s.setEvents f m).port.cursors = s.port.cursors := rfl
@[simp] theorem State.setEvents_port_current {s : State} {f m : Half} : (s.setEvents f m).port.current = s.port.current := rfl
@[simp] theorem State.setEvents_port_settings {s : State} {f m : Half} : (s.setEvents f m).port.settings = s.port.settings := rfl
@[simp] theorem State.setEvents_port_clock {s : State} {f m : Half} : (s.setEvents f m).port.clock = s.port.clock := rfl

@[simp] theorem State.raise_port_rx {s : State} {e : Event} : (s.raise e).port.rx = s.port.rx := rfl
@[simp] theorem State.raise_port_buffer {s : State} {e : Event} : (s.raise e).port.buffer = s.port.buffer := rfl
@[simp] theorem State.raise_port_sending {s : State} {e : Event} : (s.raise e).port.sending = s.port.sending := rfl
@[simp] theorem State.raise_port_immediate {s : State} {e : Event} : (s.raise e).port.immediate = s.port.immediate := rfl
@[simp] theorem State.raise_port_replyOwed {s : State} {e : Event} : (s.raise e).port.replyOwed = s.port.replyOwed := rfl
@[simp] theorem State.raise_port_resetting {s : State} {e : Event} : (s.raise e).port.resetting = s.port.resetting := rfl
@[simp] theorem State.raise_port_mask {s : State} {e : Event} : (s.raise e).port.mask = s.port.mask := rfl
@[simp] theorem State.raise_port_cursors {s : State} {e : Event} : (s.raise e).port.cursors = s.port.cursors := rfl
@[simp] theorem State.raise_port_current {s : State} {e : Event} : (s.raise e).port.current = s.port.current := rfl
@[simp] theorem State.raise_port_settings {s : State} {e : Event} : (s.raise e).port.settings = s.port.settings := rfl
@[simp] theorem State.raise_port_clock {s : State} {e : Event} : (s.raise e).port.clock = s.port.clock := rfl

@[simp] theorem State.refreshConditions_port_rx {s : State} : (s.refreshConditions).port.rx = s.port.rx := rfl
@[simp] theorem State.refreshConditions_port_buffer {s : State} : (s.refreshConditions).port.buffer = s.port.buffer := rfl
@[simp] theorem State.refreshConditions_port_sending {s : State} : (s.refreshConditions).port.sending = s.port.sending := rfl
@[simp] theorem State.refreshConditions_port_immediate {s : State} : (s.refreshConditions).port.immediate = s.port.immediate := rfl
@[simp] theorem State.refreshConditions_port_replyOwed {s : State} : (s.refreshConditions).port.replyOwed = s.port.replyOwed := rfl
@[simp] theorem State.refreshConditions_port_resetting {s : State} : (s.refreshConditions).port.resetting = s.port.resetting := rfl
@[simp] theorem State.refreshConditions_port_mask {s : State} : (s.refreshConditions).port.mask = s.port.mask := rfl
@[simp] theorem State.refreshConditions_port_cursors {s : State} : (s.refreshConditions).port.cursors = s.port.cursors := rfl
@[simp] theorem State.refreshConditions_port_current {s : State} : (s.refreshConditions).port.current = s.port.current := rfl
@[simp] theorem State.refreshConditions_port_settings {s : State} : (s.refreshConditions).port.settings = s.port.settings := rfl
@[simp] theorem State.refreshConditions_port_clock {s : State} : (s.refreshConditions).port.clock = s.port.clock := rfl

@[simp] theorem State.clearEvents_port_rx {s : State} {e : Half} : (s.clearEvents e).port.rx = s.port.rx := rfl
@[simp] theorem State.clearEvents_port_buffer {s : State} {e : Half} : (s.clearEvents e).port.buffer = s.port.buffer := rfl
@[simp] theorem State.clearEvents_port_sending {s : State} {e : Half} : (s.clearEvents e).port.sending = s.port.sending := rfl
@[simp] theorem State.clearEvents_port_immediate {s : State} {e : Half} : (s.clearEvents e).port.immediate = s.port.immediate := rfl
@[simp] theorem State.clearEvents_port_replyOwed {s : State} {e : Half} : (s.clearEvents e).port.replyOwed = s.port.replyOwed := rfl
@[simp] theorem State.clearEvents_port_resetting {s : State} {e : Half} : (s.clearEvents e).port.resetting = s.port.resetting := rfl
@[simp] theorem State.clearEvents_port_mask {s : State} {e : Half} : (s.clearEvents e).port.mask = s.port.mask := rfl
@[simp] theorem State.clearEvents_port_cursors {s : State} {e : Half} : (s.clearEvents e).port.cursors = s.port.cursors := rfl
@[simp] theorem State.clearEvents_port_current {s : State} {e : Half} : (s.clearEvents e).port.current = s.port.current := rfl
@[simp] theorem State.clearEvents_port_settings {s : State} {e : Half} : (s.clearEvents e).port.settings = s.port.settings := rfl
@[simp] theorem State.clearEvents_port_clock {s : State} {e : Half} : (s.clearEvents e).port.clock = s.port.clock := rfl

@[simp] theorem State.setMask_port_rx {s : State} {m : Half} : (s.setMask m).port.rx = s.port.rx := rfl
@[simp] theorem State.setMask_port_buffer {s : State} {m : Half} : (s.setMask m).port.buffer = s.port.buffer := rfl
@[simp] theorem State.setMask_port_sending {s : State} {m : Half} : (s.setMask m).port.sending = s.port.sending := rfl
@[simp] theorem State.setMask_port_immediate {s : State} {m : Half} : (s.setMask m).port.immediate = s.port.immediate := rfl
@[simp] theorem State.setMask_port_replyOwed {s : State} {m : Half} : (s.setMask m).port.replyOwed = s.port.replyOwed := rfl
@[simp] theorem State.setMask_port_resetting {s : State} {m : Half} : (s.setMask m).port.resetting = s.port.resetting := rfl
@[simp] theorem State.setMask_port_flags {s : State} {m : Half} : (s.setMask m).port.flags = s.port.flags := rfl
@[simp] theorem State.setMask_port_cursors {s : State} {m : Half} : (s.setMask m).port.cursors = s.port.cursors := rfl
@[simp] theorem State.setMask_port_current {s : State} {m : Half} : (s.setMask m).port.current = s.port.current := rfl
@[simp] theorem State.setMask_port_settings {s : State} {m : Half} : (s.setMask m).port.settings = s.port.settings := rfl
@[simp] theorem State.setMask_port_clock {s : State} {m : Half} : (s.setMask m).port.clock = s.port.clock := rfl

@[simp] theorem State.setCursor_port_rx {s : State} {t : Fin 13} {c : Cursor} : (s.setCursor t c).port.rx = s.port.rx := rfl
@[simp] theorem State.setCursor_port_buffer {s : State} {t : Fin 13} {c : Cursor} : (s.setCursor t c).port.buffer = s.port.buffer := rfl
@[simp] theorem State.setCursor_port_sending {s : State} {t : Fin 13} {c : Cursor} : (s.setCursor t c).port.sending = s.port.sending := rfl
@[simp] theorem State.setCursor_port_immediate {s : State} {t : Fin 13} {c : Cursor} : (s.setCursor t c).port.immediate = s.port.immediate := rfl
@[simp] theorem State.setCursor_port_replyOwed {s : State} {t : Fin 13} {c : Cursor} : (s.setCursor t c).port.replyOwed = s.port.replyOwed := rfl
@[simp] theorem State.setCursor_port_resetting {s : State} {t : Fin 13} {c : Cursor} : (s.setCursor t c).port.resetting = s.port.resetting := rfl
@[simp] theorem State.setCursor_port_flags {s : State} {t : Fin 13} {c : Cursor} : (s.setCursor t c).port.flags = s.port.flags := rfl
@[simp] theorem State.setCursor_port_mask {s : State} {t : Fin 13} {c : Cursor} : (s.setCursor t c).port.mask = s.port.mask := rfl
@[simp] theorem State.setCursor_port_noticeOwed {s : State} {t : Fin 13} {c : Cursor} : (s.setCursor t c).port.noticeOwed = s.port.noticeOwed := rfl
@[simp] theorem State.setCursor_port_current {s : State} {t : Fin 13} {c : Cursor} : (s.setCursor t c).port.current = s.port.current := rfl
@[simp] theorem State.setCursor_port_settings {s : State} {t : Fin 13} {c : Cursor} : (s.setCursor t c).port.settings = s.port.settings := rfl
@[simp] theorem State.setCursor_port_clock {s : State} {t : Fin 13} {c : Cursor} : (s.setCursor t c).port.clock = s.port.clock := rfl

@[simp] theorem State.setClock_port_rx {s : State} {v : Stamp} : (s.setClock v).port.rx = s.port.rx := rfl
@[simp] theorem State.setClock_port_buffer {s : State} {v : Stamp} : (s.setClock v).port.buffer = s.port.buffer := rfl
@[simp] theorem State.setClock_port_sending {s : State} {v : Stamp} : (s.setClock v).port.sending = s.port.sending := rfl
@[simp] theorem State.setClock_port_immediate {s : State} {v : Stamp} : (s.setClock v).port.immediate = s.port.immediate := rfl
@[simp] theorem State.setClock_port_replyOwed {s : State} {v : Stamp} : (s.setClock v).port.replyOwed = s.port.replyOwed := rfl
@[simp] theorem State.setClock_port_resetting {s : State} {v : Stamp} : (s.setClock v).port.resetting = s.port.resetting := rfl
@[simp] theorem State.setClock_port_flags {s : State} {v : Stamp} : (s.setClock v).port.flags = s.port.flags := rfl
@[simp] theorem State.setClock_port_mask {s : State} {v : Stamp} : (s.setClock v).port.mask = s.port.mask := rfl
@[simp] theorem State.setClock_port_noticeOwed {s : State} {v : Stamp} : (s.setClock v).port.noticeOwed = s.port.noticeOwed := rfl
@[simp] theorem State.setClock_port_cursors {s : State} {v : Stamp} : (s.setClock v).port.cursors = s.port.cursors := rfl
@[simp] theorem State.setClock_port_current {s : State} {v : Stamp} : (s.setClock v).port.current = s.port.current := rfl
@[simp] theorem State.setClock_port_settings {s : State} {v : Stamp} : (s.setClock v).port.settings = s.port.settings := rfl

@[simp] theorem State.handOut_port_rx {s : State} {m : OutMsg} : (s.handOut m).port.rx = s.port.rx := rfl
@[simp] theorem State.handOut_port_buffer {s : State} {m : OutMsg} : (s.handOut m).port.buffer = s.port.buffer := rfl
@[simp] theorem State.handOut_port_immediate {s : State} {m : OutMsg} : (s.handOut m).port.immediate = s.port.immediate := rfl
@[simp] theorem State.handOut_port_replyOwed {s : State} {m : OutMsg} : (s.handOut m).port.replyOwed = s.port.replyOwed := rfl
@[simp] theorem State.handOut_port_resetting {s : State} {m : OutMsg} : (s.handOut m).port.resetting = s.port.resetting := rfl
@[simp] theorem State.handOut_port_flags {s : State} {m : OutMsg} : (s.handOut m).port.flags = s.port.flags := rfl
@[simp] theorem State.handOut_port_mask {s : State} {m : OutMsg} : (s.handOut m).port.mask = s.port.mask := rfl
@[simp] theorem State.handOut_port_cursors {s : State} {m : OutMsg} : (s.handOut m).port.cursors = s.port.cursors := rfl
@[simp] theorem State.handOut_port_current {s : State} {m : OutMsg} : (s.handOut m).port.current = s.port.current := rfl
@[simp] theorem State.handOut_port_settings {s : State} {m : OutMsg} : (s.handOut m).port.settings = s.port.settings := rfl
@[simp] theorem State.handOut_port_clock {s : State} {m : OutMsg} : (s.handOut m).port.clock = s.port.clock := rfl

@[simp] theorem State.confine_port_rx {s : State} {u : State} : (s.confine u).port.rx = s.port.rx := rfl
@[simp] theorem State.confine_port_buffer {s : State} {u : State} : (s.confine u).port.buffer = s.port.buffer := rfl
@[simp] theorem State.confine_port_sending {s : State} {u : State} : (s.confine u).port.sending = s.port.sending := rfl
@[simp] theorem State.confine_port_immediate {s : State} {u : State} : (s.confine u).port.immediate = s.port.immediate := rfl
@[simp] theorem State.confine_port_resetting {s : State} {u : State} : (s.confine u).port.resetting = s.port.resetting := rfl
@[simp] theorem State.confine_port_mask {s : State} {u : State} : (s.confine u).port.mask = s.port.mask := rfl
@[simp] theorem State.confine_port_cursors {s : State} {u : State} : (s.confine u).port.cursors = s.port.cursors := rfl
@[simp] theorem State.confine_port_current {s : State} {u : State} : (s.confine u).port.current = s.port.current := rfl
@[simp] theorem State.confine_port_settings {s : State} {u : State} : (s.confine u).port.settings = s.port.settings := rfl
@[simp] theorem State.confine_port_clock {s : State} {u : State} : (s.confine u).port.clock = s.port.clock := rfl

@[simp] theorem State.act_port_rx {s : State} {f : State → State} : (s.act f).port.rx = s.port.rx := rfl
@[simp] theorem State.act_port_buffer {s : State} {f : State → State} : (s.act f).port.buffer = s.port.buffer := rfl
@[simp] theorem State.act_port_sending {s : State} {f : State → State} : (s.act f).port.sending = s.port.sending := rfl
@[simp] theorem State.act_port_immediate {s : State} {f : State → State} : (s.act f).port.immediate = s.port.immediate := rfl
@[simp] theorem State.act_port_resetting {s : State} {f : State → State} : (s.act f).port.resetting = s.port.resetting := rfl
@[simp] theorem State.act_port_mask {s : State} {f : State → State} : (s.act f).port.mask = s.port.mask := rfl
@[simp] theorem State.act_port_cursors {s : State} {f : State → State} : (s.act f).port.cursors = s.port.cursors := rfl
@[simp] theorem State.act_port_current {s : State} {f : State → State} : (s.act f).port.current = s.port.current := rfl
@[simp] theorem State.act_port_settings {s : State} {f : State → State} : (s.act f).port.settings = s.port.settings := rfl
@[simp] theorem State.act_port_clock {s : State} {f : State → State} : (s.act f).port.clock = s.port.clock := rfl

@[simp] theorem State.confine_pending {s u : State} : (s.confine u).pending = s.pending := rfl

@[simp] theorem State.act_pending {s : State} {f : State → State} : (s.act f).pending = s.pending := rfl

/-! ### What is written is what is read -/

@[simp] theorem State.drive_setDrive_self {s : State} {d : Fin 16} {x : Drive} : (s.setDrive d x).drive d = x := by
  simp [State.drive, State.setDrive]

@[simp] theorem State.drive_updDrive_self {s : State} {d : Fin 16} {f : Drive → Drive} : (s.updDrive d f).drive d = f (s.drive d) := by
  simp [State.updDrive]

theorem State.drive_updDrive_ne {s : State} {d e : Fin 16} {f : Drive → Drive} (h : e ≠ d) : (s.updDrive d f).drive e = s.drive e := by
  have : ¬ d.val = e.val := fun c => h (Fin.ext c.symm)
  simp [State.updDrive, State.setDrive, State.drive, this]

@[simp] theorem State.station_updStation_self {s : State} {p : Fin 8} {f : Station → Station} :
    (s.updStation p f).station p = f (s.station p) := by
  simp [State.station, State.updStation, State.setStation]

theorem State.station_updStation_ne {s : State} {p q : Fin 8} {f : Station → Station} (h : q ≠ p) :
    (s.updStation p f).station q = s.station q := by
  have : ¬ p.val = q.val := fun c => h (Fin.ext c.symm)
  simp [State.updStation, State.setStation, State.station, this]

@[simp] theorem State.arm_setArm_self {s : State} {a : ArmId} {x : Arm} : (s.setArm a x).arm a = x := by cases a <;> rfl

@[simp] theorem State.arm_updArm_self {s : State} {a : ArmId} {f : Arm → Arm} : (s.updArm a f).arm a = f (s.arm a) := by cases a <;> rfl

theorem State.arm_updArm_ne {s : State} {a b : ArmId} {f : Arm → Arm} (h : b ≠ a) : (s.updArm a f).arm b = s.arm b := by
  cases a <;> cases b <;> first | rfl | exact absurd rfl h

@[simp] theorem State.armPort_setArmPort_self {s : State} {a : ArmId} {x : ArmPort} : (s.setArmPort a x).armPort a = x := by
  cases a <;> rfl

@[simp] theorem State.arm_setArmPort {s : State} {a b : ArmId} {x : ArmPort} : (s.setArmPort a x).arm b = s.arm b := by
  cases a <;> cases b <;> rfl

@[simp] theorem State.armPort_updArm {s : State} {a b : ArmId} {f : Arm → Arm} : (s.updArm a f).armPort b = s.armPort b := by
  cases a <;> cases b <;> rfl

end Sys2Proof.Machine
end

