-- ==== Sys2Proof/Laws/Records.lean ====
section
/-! SUPPORT. What each named update leaves of the records that are read by name: volumes, drives, positions, arms, orders, requests, prompts. -/

namespace Sys2Proof.Machine

/-! ### Notices -/

@[simp] theorem State.notify_dir {s : State} {n : Notice} : (s.notify n).dir = s.dir := by
  unfold State.notify
  split <;> rfl

@[simp] theorem State.notify_drv {s : State} {n : Notice} : (s.notify n).drv = s.drv := by
  unfold State.notify
  split <;> rfl

@[simp] theorem State.notify_ms {s : State} {n : Notice} : (s.notify n).ms = s.ms := by
  unfold State.notify
  split <;> rfl

@[simp] theorem State.notify_sch {s : State} {n : Notice} : (s.notify n).sch = s.sch := by
  unfold State.notify
  split <;> rfl

@[simp] theorem State.notify_aud {s : State} {n : Notice} : (s.notify n).aud = s.aud := by
  unfold State.notify
  split <;> rfl

@[simp] theorem State.notify_pr {s : State} {n : Notice} : (s.notify n).pr = s.pr := by
  unfold State.notify
  split <;> rfl

@[simp] theorem State.notify_att {s : State} {n : Notice} : (s.notify n).att = s.att := by
  unfold State.notify
  split <;> rfl

@[simp] theorem State.notify_mon {s : State} {n : Notice} : (s.notify n).mon = s.mon := by
  unfold State.notify
  split <;> rfl

@[simp] theorem State.notify_acc {s : State} {n : Notice} : (s.notify n).acc = s.acc := by
  unfold State.notify
  split <;> rfl

@[simp] theorem State.notify_svc {s : State} {n : Notice} : (s.notify n).svc = s.svc := by
  unfold State.notify
  split <;> rfl

@[simp] theorem State.notify_port {s : State} {n : Notice} : (s.notify n).port = s.port := by
  unfold State.notify
  split <;> rfl

@[simp] theorem State.notify_pending {s : State} {n : Notice} : (s.notify n).pending = s.pending := by
  unfold State.notify
  split <;> rfl

/-! ### The record an update writes -/

@[simp] theorem State.setVol_vol?_self {s : State} {e : Nat} {v : Volume} : (s.setVol e v).vol? e = some v := lookup_insertAt_self _ _ _

theorem State.setVol_vol?_ne {s : State} {e i : Nat} {v : Volume} (h : i ≠ e) : (s.setVol e v).vol? i = s.vol? i := lookup_insertAt_ne _ _ h

@[simp] theorem State.setFinding_finding?_self {s : State} {n : Nat} {f : Finding} : (s.setFinding n f).finding? n = some f :=
  lookup_insertAt_self _ _ _

theorem State.setFinding_finding?_ne {s : State} {n i : Nat} {f : Finding} (h : i ≠ n) : (s.setFinding n f).finding? i = s.finding? i :=
  lookup_insertAt_ne _ _ h

theorem State.clearFinding_finding?_ne {s : State} {n i : Nat} (h : i ≠ n) : (s.clearFinding n).finding? i = s.finding? i :=
  lookup_eraseAt_ne _ h

theorem State.clearFinding_finding?_self {s : State} {n : Nat} (h : Canonical s.dir.findings) : (s.clearFinding n).finding? n = none :=
  lookup_eraseAt_self _ _ h

@[simp] theorem State.setDrive_drive_self {s : State} {d : Fin 16} {x : Drive} : (s.setDrive d x).drive d = x := by
  unfold State.drive State.setDrive
  simp

theorem State.setDrive_drive_ne {s : State} {d e : Fin 16} {x : Drive} (h : e ≠ d) : (s.setDrive d x).drive e = s.drive e := by
  have k : ¬(d : Nat) = e := fun c => h (Fin.ext c.symm)
  unfold State.drive State.setDrive
  simp [k]

@[simp] theorem State.updDrive_drive_self {s : State} {d : Fin 16} {f : Drive → Drive} : (s.updDrive d f).drive d = f (s.drive d) :=
  State.setDrive_drive_self

theorem State.updDrive_drive_ne {s : State} {d e : Fin 16} {f : Drive → Drive} (h : e ≠ d) : (s.updDrive d f).drive e = s.drive e :=
  State.setDrive_drive_ne h

@[simp] theorem State.setDriveState_drive_self {s : State} {d : Fin 16} {y : DriveState} :
    (s.setDriveState d y).drive d = { s.drive d with state := y } := State.setDrive_drive_self

@[simp] theorem State.updClaim_drive_self {s : State} {d : Fin 16} {f : Claim → Claim} :
    (s.updClaim d f).drive d = { s.drive d with claim := (s.drive d).claim.map f } := State.setDrive_drive_self

@[simp] theorem State.setStation_station_self {s : State} {p : Fin 8} {y : Station} : (s.setStation p y).station p = y := by
  unfold State.station State.setStation
  simp

theorem State.setStation_station_ne {s : State} {p q : Fin 8} {y : Station} (h : q ≠ p) : (s.setStation p y).station q = s.station q := by
  have k : ¬(p : Nat) = q := fun c => h (Fin.ext c.symm)
  unfold State.station State.setStation
  simp [k]

@[simp] theorem State.updStation_station_self {s : State} {p : Fin 8} {f : Station → Station} :
    (s.updStation p f).station p = f (s.station p) := State.setStation_station_self

theorem State.updStation_station_ne {s : State} {p q : Fin 8} {f : Station → Station} (h : q ≠ p) :
    (s.updStation p f).station q = s.station q := State.setStation_station_ne h

@[simp] theorem State.updArm_arm_self {s : State} {a : ArmId} {f : Arm → Arm} : (s.updArm a f).arm a = f (s.arm a) := by
  cases a <;> rfl

theorem State.updArm_arm_ne {s : State} {a b : ArmId} {f : Arm → Arm} (h : b ≠ a) : (s.updArm a f).arm b = s.arm b := by
  cases a <;> cases b <;> first | rfl | exact absurd rfl h

@[simp] theorem State.nameGripper_arm_self {s : State} {a : ArmId} {g : Gripper} :
    (s.nameGripper a g).arm a = { s.arm a with gripper := g } := State.updArm_arm_self

@[simp] theorem State.setArmPort_armPort_self {s : State} {a : ArmId} {y : ArmPort} : (s.setArmPort a y).armPort a = y := by
  cases a <;> rfl

/-- Of the orders an update changes one by one, the first with an id stays the first with that id. -/
theorem State.updOrder_order? {s : State} {n i : Nat} {f : Order → Order} (hf : ∀ o, (f o).id = o.id) :
    (s.updOrder n f).order? i = (s.order? i).map (fun o => if o.id = n then f o else o) := by
  unfold State.order? State.updOrder
  dsimp only
  induction s.sch.pool with
  | nil => rfl
  | cons o rest ih =>
    have h : (if o.id = n then f o else o).id = o.id := by split <;> simp [hf]
    simp only [List.map_cons, List.find?_cons, h]
    split
    · rfl
    · exact ih

/-- A dropped order is no more found. -/
@[simp] theorem State.dropOrder_order?_self {s : State} {n : Nat} : (s.dropOrder n).order? n = none := by
  unfold State.order? State.dropOrder
  simp

/-- Of the requests an update changes one by one, the first with a tag stays the first with that tag. -/
theorem State.updRequest_request? {s : State} {t h : Half} {f : Request → Request} (hf : ∀ r, (f r).tag = r.tag) :
    (s.updRequest t f).request? h = (s.request? h).map (fun r => if r.tag = t then f r else r) := by
  unfold State.request? State.updRequest
  dsimp only
  induction s.ms.queue with
  | nil => rfl
  | cons r rest ih =>
    have k : (if r.tag = t then f r else r).tag = r.tag := by split <;> simp [hf]
    simp only [List.map_cons, List.find?_cons, k]
    split
    · rfl
    · exact ih

/-- Of the prompts an update changes one by one, the first with a number stays the first with that number. -/
theorem State.updPrompt_prompt? {s : State} {n i : Nat} {f : Prompt → Prompt} (hf : ∀ p, (f p).number = p.number) :
    (s.updPrompt n f).prompt? i = (s.prompt? i).map (fun p => if p.number = n then f p else p) := by
  unfold State.prompt? State.updPrompt
  dsimp only
  induction s.pr.list with
  | nil => rfl
  | cons p rest ih =>
    have k : (if p.number = n then f p else p).number = p.number := by split <;> simp [hf]
    simp only [List.map_cons, List.find?_cons, k]
    split
    · rfl
    · exact ih

/-- The request found by a tag carries it. -/
theorem State.request?_tag {s : State} {h : Half} {r : Request} (e : s.request? h = some r) : r.tag = h := by
  have := List.find?_some e
  simpa using this

/-- The prompt found by a number carries it. -/
theorem State.prompt?_number {s : State} {n : Nat} {p : Prompt} (e : s.prompt? n = some p) : p.number = n := by
  have := List.find?_some e
  simpa using this

/-- The order found by an id carries it. -/
theorem State.order?_id {s : State} {n : Nat} {o : Order} (e : s.order? n = some o) : o.id = n := by
  have := List.find?_some e
  simpa using this

/-- Old findings of a volume do not change what the entries say. -/
@[simp] theorem State.leaveMisplaced_vol? {s : State} {e i : Nat} {v : Volume} {l : Loc} : (s.leaveMisplaced e v l).vol? i = s.vol? i := by
  unfold State.leaveMisplaced
  split
  · split
    · rfl
    · split <;> rfl
  all_goals rfl

/-- What a change of place may change outside the directory: what the grippers, the drives and the positions name. -/
structure Named (s t : State) : Prop where
  rest : ∃ dir g h drv stations, t = { s with
    dir := dir, drv := drv, mon := { s.mon with stations := stations }
    sch := { s.sch with armA := { s.sch.armA with gripper := g }, armB := { s.sch.armB with gripper := h } } }
  drives : ∀ d, ∃ e, t.drive d = { s.drive d with volume := e }
  stations : ∀ p, ∃ e, t.station p = { s.station p with volume := e }

theorem Named.setDir {s t : State} {dir : DirBlock} (h : Named s t) : Named s { t with dir := dir } where
  rest := by obtain ⟨_, g, k, drv, st, rfl⟩ := h.rest; exact ⟨dir, g, k, drv, st, rfl⟩
  drives := h.drives
  stations := h.stations

theorem Named.refl (s : State) : Named s s where
  rest := ⟨_, _, _, _, _, rfl⟩
  drives _ := ⟨_, rfl⟩
  stations _ := ⟨_, rfl⟩

theorem State.leaveMisplaced_named {s : State} {e : Nat} {v : Volume} {l : Loc} : Named s (s.leaveMisplaced e v l) := by
  unfold State.leaveMisplaced
  split
  · split
    · exact Named.refl s
    · split
      · exact (Named.refl s).setDir
      · exact Named.refl s
  all_goals exact Named.refl s

theorem Named.unhold {s t : State} (h : Named s t) {e : Nat} {l : Loc} : Named s (t.unhold e l) := by
  unfold State.unhold
  split
  · split
    · obtain ⟨dir, g, k, drv, st, rfl⟩ := h.rest
      rename_i a _
      cases a
      · exact ⟨⟨dir, .unknown, k, drv, st, rfl⟩, h.drives, h.stations⟩
      · exact ⟨⟨dir, g, .unknown, drv, st, rfl⟩, h.drives, h.stations⟩
    · exact h
  · split
    · obtain ⟨dir, g, k, drv, st, rfl⟩ := h.rest
      rename_i d _
      refine ⟨⟨dir, g, k, _, st, rfl⟩, fun x => ?_, h.stations⟩
      obtain ⟨e', he⟩ := h.drives x
      by_cases hx : x = d
      · subst hx; rw [State.updDrive_drive_self, he]; exact ⟨none, rfl⟩
      · rw [State.updDrive_drive_ne hx, he]; exact ⟨e', rfl⟩
    · exact h
  · split
    · obtain ⟨dir, g, k, drv, st, rfl⟩ := h.rest
      rename_i p _
      refine ⟨⟨dir, g, k, drv, _, rfl⟩, h.drives, fun x => ?_⟩
      obtain ⟨e', he⟩ := h.stations x
      unfold State.clearStationVolume
      by_cases hx : x = p
      · subst hx; rw [State.updStation_station_self, he]; exact ⟨none, rfl⟩
      · rw [State.updStation_station_ne hx, he]; exact ⟨e', rfl⟩
    · exact h
  all_goals exact h

/-- A volume that changes its place changes outside the directory only what named it. -/
theorem State.relocate_named {s : State} {e : Nat} {l : Loc} : Named s (s.relocate e l) := by
  unfold State.relocate
  split
  · exact Named.refl s
  · dsimp only
    have h : ∀ v : Volume, Named s (if v.loc = l then s else (s.leaveMisplaced e v l).unhold e v.loc) := by
      intro v
      split
      · exact Named.refl s
      · exact State.leaveMisplaced_named.unhold
    split
    · exact (h _).setDir
    · exact (h _).setDir

@[simp] theorem State.unhold_vol? {s : State} {e i : Nat} {l : Loc} : (s.unhold e l).vol? i = s.vol? i := by
  unfold State.unhold
  split
  · split
    · rename_i a _; cases a <;> rfl
    · rfl
  all_goals first | rfl | (split <;> rfl)

/-- A volume that changes its place keeps everything else. -/
theorem State.relocate_vol?_self {s : State} {e : Nat} {v : Volume} {l : Loc} (h : s.vol? e = some v) :
    (s.relocate e l).vol? e = some { v with loc := l } := by
  unfold State.relocate
  rw [h]
  exact State.setVol_vol?_self

/-- A volume that changes its place leaves the other entries as they are. -/
theorem State.relocate_vol?_ne {s : State} {e i : Nat} {l : Loc} (h : i ≠ e) : (s.relocate e l).vol? i = s.vol? i := by
  unfold State.relocate
  split
  · rfl
  · dsimp only
    rw [State.setVol_vol?_ne h]
    split <;> split <;> first | rfl | exact State.unhold_vol?.trans State.leaveMisplaced_vol?

@[simp] theorem State.unhold_finding? {s : State} {e i : Nat} {l : Loc} : (s.unhold e l).finding? i = s.finding? i := by
  unfold State.unhold
  split
  · split
    · rename_i a _; cases a <;> rfl
    · rfl
  all_goals first | rfl | (split <;> rfl)

@[simp] theorem State.unhold_dir {s : State} {e : Nat} {l : Loc} : (s.unhold e l).dir = s.dir := by
  unfold State.unhold
  split
  · split
    · rename_i a _; cases a <;> rfl
    · rfl
  all_goals first | rfl | (split <;> rfl)

/-- The old finding of a volume that leaves a slot goes, and no other (R5). -/
theorem State.leaveMisplaced_finding? {s : State} {e n : Nat} {v : Volume} {l : Loc} (h : Canonical s.dir.findings) :
    (s.leaveMisplaced e v l).finding? n =
      if v.loc = .misplaced n ∧ l ≠ .missing ∧ l ≠ .outside ∧ l ≠ .misplaced n ∧ s.findingNames n e = true then none else s.finding? n := by
  unfold State.leaveMisplaced
  generalize v.loc = was
  cases was with
  | misplaced slot =>
    dsimp only
    by_cases hs : slot = n
    · subst hs
      by_cases hl : l = .missing ∨ l = .outside ∨ l = .misplaced slot
      · rw [if_pos hl, if_neg (fun c => by rcases hl with q | q | q <;> simp_all)]
      · rw [if_neg hl]
        simp only [not_or] at hl
        by_cases hf : s.findingNames slot e = true
        · rw [if_pos hf, if_pos ⟨rfl, hl.1, hl.2.1, hl.2.2, hf⟩, State.clearFinding_finding?_self h]
        · rw [if_neg hf, if_neg (fun c => hf c.2.2.2.2)]
    · rw [if_neg (c := Loc.misplaced slot = .misplaced n ∧ _) (fun c => hs (Loc.misplaced.inj c.1))]
      split
      · rfl
      · split
        · exact State.clearFinding_finding?_ne (Ne.symm hs)
        · rfl
  | _ => rw [if_neg (fun c => by cases c.1)]

theorem State.leaveMisplaced_canonical {s : State} {e : Nat} {v : Volume} {l : Loc} (h : Canonical s.dir.findings) :
    Canonical (s.leaveMisplaced e v l).dir.findings := by
  unfold State.leaveMisplaced
  split
  · split
    · exact h
    · split
      · exact canonical_eraseAt _ _ h
      · exact h
  all_goals exact h

/-- Of the findings, a volume that changes its place clears the one at its home slot that it returns to, and its old one (R4, R5). -/
theorem State.relocate_finding? {s : State} {e n : Nat} {v : Volume} {l : Loc} (hv : s.vol? e = some v) (h : Canonical s.dir.findings) :
    (s.relocate e l).finding? n =
      if (l = .home ∧ v.home = some n) ∨
          (v.loc = .misplaced n ∧ l ≠ .missing ∧ l ≠ .outside ∧ l ≠ .misplaced n ∧ s.findingNames n e = true)
        then none else s.finding? n := by
  unfold State.relocate
  rw [hv]
  dsimp only
  change (match l, v.home with
    | .home, some h => State.clearFinding _ h
    | _, _ => _ : State).finding? n = _
  have hu : (if v.loc = l then s else (s.leaveMisplaced e v l).unhold e v.loc).finding? n =
      if v.loc = .misplaced n ∧ l ≠ .missing ∧ l ≠ .outside ∧ l ≠ .misplaced n ∧ s.findingNames n e = true then none else s.finding? n := by
    split
    · rename_i hl
      rw [if_neg (fun c => c.2.2.2.1 (hl ▸ c.1))]
    · rw [State.unhold_finding?, State.leaveMisplaced_finding? h]
  have hc : Canonical (if v.loc = l then s else (s.leaveMisplaced e v l).unhold e v.loc).dir.findings := by
    split
    · exact h
    · rw [State.unhold_dir]; exact State.leaveMisplaced_canonical h
  generalize (if v.loc = l then s else (s.leaveMisplaced e v l).unhold e v.loc) = w at hu hc
  have other : ∀ {q : Prop} {home : Option Nat} [Decidable q], ¬(l = .home ∧ home = some n) →
      (if (l = .home ∧ home = some n) ∨ q then none else s.finding? n) = if q then none else s.finding? n :=
    fun k => if_congr (or_iff_right k) rfl rfl
  by_cases hl : l = .home
  · cases hk : v.home with
    | none =>
      subst hl
      exact hu.trans (other (fun c => by cases c.2)).symm
    | some k =>
      subst hl
      by_cases hn : n = k
      · rw [if_pos (Or.inl ⟨rfl, by rw [hn]⟩), hn]
        exact State.clearFinding_finding?_self hc
      · refine ((State.clearFinding_finding?_ne hn).trans hu).trans (other (fun c => hn ?_)).symm
        exact (Option.some.inj c.2).symm
  · refine Eq.trans ?_ (other (fun c => hl c.1)).symm
    split
    · exact absurd rfl hl
    · exact hu

/-! ### The records an update leaves alone -/

@[simp] theorem State.setVol_finding? {s : State} {e : Nat} {v : Volume} {i : Nat} : (s.setVol e v).finding? i = s.finding? i := rfl
@[simp] theorem State.setVol_drive {s : State} {e : Nat} {v : Volume} {x : Fin 16} : (s.setVol e v).drive x = s.drive x := rfl
@[simp] theorem State.setVol_station {s : State} {e : Nat} {v : Volume} {x : Fin 8} : (s.setVol e v).station x = s.station x := rfl
@[simp] theorem State.setVol_arm {s : State} {e : Nat} {v : Volume} {b : ArmId} : (s.setVol e v).arm b = s.arm b := rfl
@[simp] theorem State.setVol_armPort {s : State} {e : Nat} {v : Volume} {b : ArmId} : (s.setVol e v).armPort b = s.armPort b := rfl
@[simp] theorem State.setVol_order? {s : State} {e : Nat} {v : Volume} {i : Nat} : (s.setVol e v).order? i = s.order? i := rfl
@[simp] theorem State.setVol_zone? {s : State} {e : Nat} {v : Volume} {i : Nat} : (s.setVol e v).zone? i = s.zone? i := rfl
@[simp] theorem State.setVol_request? {s : State} {e : Nat} {v : Volume} {h : Half} : (s.setVol e v).request? h = s.request? h := rfl
@[simp] theorem State.setVol_prompt? {s : State} {e : Nat} {v : Volume} {i : Nat} : (s.setVol e v).prompt? i = s.prompt? i := rfl
@[simp] theorem State.setVol_account? {s : State} {e : Nat} {v : Volume} {i : Nat} : (s.setVol e v).account? i = s.account? i := rfl
@[simp] theorem State.setVol_setting {s : State} {e : Nat} {v : Volume} {i : Nat} : (s.setVol e v).setting i = s.setting i := rfl
@[simp] theorem State.setVol_service {s : State} {e : Nat} {v : Volume} : (s.setVol e v).service = s.service := rfl

@[simp] theorem State.setFinding_vol? {s : State} {n : Nat} {f : Finding} {i : Nat} : (s.setFinding n f).vol? i = s.vol? i := rfl
@[simp] theorem State.setFinding_serialOf {s : State} {n : Nat} {f : Finding} {i : Nat} : (s.setFinding n f).serialOf i = s.serialOf i := rfl
@[simp] theorem State.setFinding_drive {s : State} {n : Nat} {f : Finding} {x : Fin 16} : (s.setFinding n f).drive x = s.drive x := rfl
@[simp] theorem State.setFinding_station {s : State} {n : Nat} {f : Finding} {x : Fin 8} : (s.setFinding n f).station x = s.station x := rfl
@[simp] theorem State.setFinding_arm {s : State} {n : Nat} {f : Finding} {b : ArmId} : (s.setFinding n f).arm b = s.arm b := rfl
@[simp] theorem State.setFinding_armPort {s : State} {n : Nat} {f : Finding} {b : ArmId} : (s.setFinding n f).armPort b = s.armPort b := rfl
@[simp] theorem State.setFinding_order? {s : State} {n : Nat} {f : Finding} {i : Nat} : (s.setFinding n f).order? i = s.order? i := rfl
@[simp] theorem State.setFinding_zone? {s : State} {n : Nat} {f : Finding} {i : Nat} : (s.setFinding n f).zone? i = s.zone? i := rfl
@[simp] theorem State.setFinding_request? {s : State} {n : Nat} {f : Finding} {h : Half} : (s.setFinding n f).request? h = s.request? h := rfl
@[simp] theorem State.setFinding_prompt? {s : State} {n : Nat} {f : Finding} {i : Nat} : (s.setFinding n f).prompt? i = s.prompt? i := rfl
@[simp] theorem State.setFinding_account? {s : State} {n : Nat} {f : Finding} {i : Nat} : (s.setFinding n f).account? i = s.account? i := rfl
@[simp] theorem State.setFinding_setting {s : State} {n : Nat} {f : Finding} {i : Nat} : (s.setFinding n f).setting i = s.setting i := rfl
@[simp] theorem State.setFinding_service {s : State} {n : Nat} {f : Finding} : (s.setFinding n f).service = s.service := rfl

@[simp] theorem State.clearFinding_vol? {s : State} {n : Nat} {i : Nat} : (s.clearFinding n).vol? i = s.vol? i := rfl
@[simp] theorem State.clearFinding_serialOf {s : State} {n : Nat} {i : Nat} : (s.clearFinding n).serialOf i = s.serialOf i := rfl
@[simp] theorem State.clearFinding_drive {s : State} {n : Nat} {x : Fin 16} : (s.clearFinding n).drive x = s.drive x := rfl
@[simp] theorem State.clearFinding_station {s : State} {n : Nat} {x : Fin 8} : (s.clearFinding n).station x = s.station x := rfl
@[simp] theorem State.clearFinding_arm {s : State} {n : Nat} {b : ArmId} : (s.clearFinding n).arm b = s.arm b := rfl
@[simp] theorem State.clearFinding_armPort {s : State} {n : Nat} {b : ArmId} : (s.clearFinding n).armPort b = s.armPort b := rfl
@[simp] theorem State.clearFinding_order? {s : State} {n : Nat} {i : Nat} : (s.clearFinding n).order? i = s.order? i := rfl
@[simp] theorem State.clearFinding_zone? {s : State} {n : Nat} {i : Nat} : (s.clearFinding n).zone? i = s.zone? i := rfl
@[simp] theorem State.clearFinding_request? {s : State} {n : Nat} {h : Half} : (s.clearFinding n).request? h = s.request? h := rfl
@[simp] theorem State.clearFinding_prompt? {s : State} {n : Nat} {i : Nat} : (s.clearFinding n).prompt? i = s.prompt? i := rfl
@[simp] theorem State.clearFinding_account? {s : State} {n : Nat} {i : Nat} : (s.clearFinding n).account? i = s.account? i := rfl
@[simp] theorem State.clearFinding_setting {s : State} {n : Nat} {i : Nat} : (s.clearFinding n).setting i = s.setting i := rfl
@[simp] theorem State.clearFinding_service {s : State} {n : Nat} : (s.clearFinding n).service = s.service := rfl

/-- A change of place changes of a drive no more than the volume it names. -/
theorem State.relocate_drive {s : State} {e : Nat} {l : Loc} {x : Fin 16} :
    ∃ v, (s.relocate e l).drive x = { s.drive x with volume := v } := State.relocate_named.drives x

/-- A change of place changes of a position no more than the volume it records. -/
theorem State.relocate_station {s : State} {e : Nat} {l : Loc} {x : Fin 8} :
    ∃ v, (s.relocate e l).station x = { s.station x with volume := v } := State.relocate_named.stations x

/-- A change of place changes of an arm no more than what its gripper holds. -/
theorem State.relocate_arm {s : State} {e : Nat} {l : Loc} {b : ArmId} :
    ∃ g, (s.relocate e l).arm b = { s.arm b with gripper := g } := by
  obtain ⟨_, g, k, _, _, h⟩ := (State.relocate_named (s := s) (e := e) (l := l)).rest
  rw [h]
  cases b
  · exact ⟨g, rfl⟩
  · exact ⟨k, rfl⟩

@[simp] theorem State.relocate_armPort {s : State} {e : Nat} {l : Loc} {b : ArmId} : (s.relocate e l).armPort b = s.armPort b := by
  obtain ⟨_, _, _, _, _, k⟩ := (State.relocate_named (s := s) (e := e) (l := l)).rest
  rw [k]; cases b <;> rfl
@[simp] theorem State.relocate_order? {s : State} {e : Nat} {l : Loc} {i : Nat} : (s.relocate e l).order? i = s.order? i := by
  obtain ⟨_, _, _, _, _, k⟩ := (State.relocate_named (s := s) (e := e) (l := l)).rest
  rw [k]; rfl
@[simp] theorem State.relocate_zone? {s : State} {e : Nat} {l : Loc} {i : Nat} : (s.relocate e l).zone? i = s.zone? i := by
  obtain ⟨_, _, _, _, _, k⟩ := (State.relocate_named (s := s) (e := e) (l := l)).rest
  rw [k]; rfl
@[simp] theorem State.relocate_request? {s : State} {e : Nat} {l : Loc} {h : Half} : (s.relocate e l).request? h = s.request? h := by
  obtain ⟨_, _, _, _, _, k⟩ := (State.relocate_named (s := s) (e := e) (l := l)).rest
  rw [k]; rfl
@[simp] theorem State.relocate_prompt? {s : State} {e : Nat} {l : Loc} {i : Nat} : (s.relocate e l).prompt? i = s.prompt? i := by
  obtain ⟨_, _, _, _, _, k⟩ := (State.relocate_named (s := s) (e := e) (l := l)).rest
  rw [k]; rfl
@[simp] theorem State.relocate_account? {s : State} {e : Nat} {l : Loc} {i : Nat} : (s.relocate e l).account? i = s.account? i := by
  obtain ⟨_, _, _, _, _, k⟩ := (State.relocate_named (s := s) (e := e) (l := l)).rest
  rw [k]; rfl
@[simp] theorem State.relocate_setting {s : State} {e : Nat} {l : Loc} {i : Nat} : (s.relocate e l).setting i = s.setting i := by
  obtain ⟨_, _, _, _, _, k⟩ := (State.relocate_named (s := s) (e := e) (l := l)).rest
  rw [k]; rfl
@[simp] theorem State.relocate_service {s : State} {e : Nat} {l : Loc} : (s.relocate e l).service = s.service := by
  obtain ⟨_, _, _, _, _, k⟩ := (State.relocate_named (s := s) (e := e) (l := l)).rest
  rw [k]; rfl

@[simp] theorem State.setDrive_vol? {s : State} {d : Fin 16} {y : Drive} {i : Nat} : (s.setDrive d y).vol? i = s.vol? i := rfl
@[simp] theorem State.setDrive_finding? {s : State} {d : Fin 16} {y : Drive} {i : Nat} : (s.setDrive d y).finding? i = s.finding? i := rfl
@[simp] theorem State.setDrive_serialOf {s : State} {d : Fin 16} {y : Drive} {i : Nat} : (s.setDrive d y).serialOf i = s.serialOf i := rfl
@[simp] theorem State.setDrive_station {s : State} {d : Fin 16} {y : Drive} {x : Fin 8} : (s.setDrive d y).station x = s.station x := rfl
@[simp] theorem State.setDrive_arm {s : State} {d : Fin 16} {y : Drive} {b : ArmId} : (s.setDrive d y).arm b = s.arm b := rfl
@[simp] theorem State.setDrive_armPort {s : State} {d : Fin 16} {y : Drive} {b : ArmId} : (s.setDrive d y).armPort b = s.armPort b := rfl
@[simp] theorem State.setDrive_order? {s : State} {d : Fin 16} {y : Drive} {i : Nat} : (s.setDrive d y).order? i = s.order? i := rfl
@[simp] theorem State.setDrive_zone? {s : State} {d : Fin 16} {y : Drive} {i : Nat} : (s.setDrive d y).zone? i = s.zone? i := rfl
@[simp] theorem State.setDrive_request? {s : State} {d : Fin 16} {y : Drive} {h : Half} : (s.setDrive d y).request? h = s.request? h := rfl
@[simp] theorem State.setDrive_prompt? {s : State} {d : Fin 16} {y : Drive} {i : Nat} : (s.setDrive d y).prompt? i = s.prompt? i := rfl
@[simp] theorem State.setDrive_account? {s : State} {d : Fin 16} {y : Drive} {i : Nat} : (s.setDrive d y).account? i = s.account? i := rfl
@[simp] theorem State.setDrive_setting {s : State} {d : Fin 16} {y : Drive} {i : Nat} : (s.setDrive d y).setting i = s.setting i := rfl
@[simp] theorem State.setDrive_service {s : State} {d : Fin 16} {y : Drive} : (s.setDrive d y).service = s.service := rfl

@[simp] theorem State.updDrive_vol? {s : State} {d : Fin 16} {f : Drive → Drive} {i : Nat} : (s.updDrive d f).vol? i = s.vol? i := rfl
@[simp] theorem State.updDrive_finding? {s : State} {d : Fin 16} {f : Drive → Drive} {i : Nat} : (s.updDrive d f).finding? i = s.finding? i := rfl
@[simp] theorem State.updDrive_serialOf {s : State} {d : Fin 16} {f : Drive → Drive} {i : Nat} : (s.updDrive d f).serialOf i = s.serialOf i := rfl
@[simp] theorem State.updDrive_station {s : State} {d : Fin 16} {f : Drive → Drive} {x : Fin 8} : (s.updDrive d f).station x = s.station x := rfl
@[simp] theorem State.updDrive_arm {s : State} {d : Fin 16} {f : Drive → Drive} {b : ArmId} : (s.updDrive d f).arm b = s.arm b := rfl
@[simp] theorem State.updDrive_armPort {s : State} {d : Fin 16} {f : Drive → Drive} {b : ArmId} : (s.updDrive d f).armPort b = s.armPort b := rfl
@[simp] theorem State.updDrive_order? {s : State} {d : Fin 16} {f : Drive → Drive} {i : Nat} : (s.updDrive d f).order? i = s.order? i := rfl
@[simp] theorem State.updDrive_zone? {s : State} {d : Fin 16} {f : Drive → Drive} {i : Nat} : (s.updDrive d f).zone? i = s.zone? i := rfl
@[simp] theorem State.updDrive_request? {s : State} {d : Fin 16} {f : Drive → Drive} {h : Half} : (s.updDrive d f).request? h = s.request? h := rfl
@[simp] theorem State.updDrive_prompt? {s : State} {d : Fin 16} {f : Drive → Drive} {i : Nat} : (s.updDrive d f).prompt? i = s.prompt? i := rfl
@[simp] theorem State.updDrive_account? {s : State} {d : Fin 16} {f : Drive → Drive} {i : Nat} : (s.updDrive d f).account? i = s.account? i := rfl
@[simp] theorem State.updDrive_setting {s : State} {d : Fin 16} {f : Drive → Drive} {i : Nat} : (s.updDrive d f).setting i = s.setting i := rfl
@[simp] theorem State.updDrive_service {s : State} {d : Fin 16} {f : Drive → Drive} : (s.updDrive d f).service = s.service := rfl

@[simp] theorem State.updClaim_vol? {s : State} {d : Fin 16} {f : Claim → Claim} {i : Nat} : (s.updClaim d f).vol? i = s.vol? i := rfl
@[simp] theorem State.updClaim_finding? {s : State} {d : Fin 16} {f : Claim → Claim} {i : Nat} : (s.updClaim d f).finding? i = s.finding? i := rfl
@[simp] theorem State.updClaim_serialOf {s : State} {d : Fin 16} {f : Claim → Claim} {i : Nat} : (s.updClaim d f).serialOf i = s.serialOf i := rfl
@[simp] theorem State.updClaim_station {s : State} {d : Fin 16} {f : Claim → Claim} {x : Fin 8} : (s.updClaim d f).station x = s.station x := rfl
@[simp] theorem State.updClaim_arm {s : State} {d : Fin 16} {f : Claim → Claim} {b : ArmId} : (s.updClaim d f).arm b = s.arm b := rfl
@[simp] theorem State.updClaim_armPort {s : State} {d : Fin 16} {f : Claim → Claim} {b : ArmId} : (s.updClaim d f).armPort b = s.armPort b := rfl
@[simp] theorem State.updClaim_order? {s : State} {d : Fin 16} {f : Claim → Claim} {i : Nat} : (s.updClaim d f).order? i = s.order? i := rfl
@[simp] theorem State.updClaim_zone? {s : State} {d : Fin 16} {f : Claim → Claim} {i : Nat} : (s.updClaim d f).zone? i = s.zone? i := rfl
@[simp] theorem State.updClaim_request? {s : State} {d : Fin 16} {f : Claim → Claim} {h : Half} : (s.updClaim d f).request? h = s.request? h := rfl
@[simp] theorem State.updClaim_prompt? {s : State} {d : Fin 16} {f : Claim → Claim} {i : Nat} : (s.updClaim d f).prompt? i = s.prompt? i := rfl
@[simp] theorem State.updClaim_account? {s : State} {d : Fin 16} {f : Claim → Claim} {i : Nat} : (s.updClaim d f).account? i = s.account? i := rfl
@[simp] theorem State.updClaim_setting {s : State} {d : Fin 16} {f : Claim → Claim} {i : Nat} : (s.updClaim d f).setting i = s.setting i := rfl
@[simp] theorem State.updClaim_service {s : State} {d : Fin 16} {f : Claim → Claim} : (s.updClaim d f).service = s.service := rfl

@[simp] theorem State.setDriveState_vol? {s : State} {d : Fin 16} {y : DriveState} {i : Nat} : (s.setDriveState d y).vol? i = s.vol? i := rfl
@[simp] theorem State.setDriveState_finding? {s : State} {d : Fin 16} {y : DriveState} {i : Nat} : (s.setDriveState d y).finding? i = s.finding? i := rfl
@[simp] theorem State.setDriveState_serialOf {s : State} {d : Fin 16} {y : DriveState} {i : Nat} : (s.setDriveState d y).serialOf i = s.serialOf i := rfl
@[simp] theorem State.setDriveState_station {s : State} {d : Fin 16} {y : DriveState} {x : Fin 8} : (s.setDriveState d y).station x = s.station x := rfl
@[simp] theorem State.setDriveState_arm {s : State} {d : Fin 16} {y : DriveState} {b : ArmId} : (s.setDriveState d y).arm b = s.arm b := rfl
@[simp] theorem State.setDriveState_armPort {s : State} {d : Fin 16} {y : DriveState} {b : ArmId} : (s.setDriveState d y).armPort b = s.armPort b := rfl
@[simp] theorem State.setDriveState_order? {s : State} {d : Fin 16} {y : DriveState} {i : Nat} : (s.setDriveState d y).order? i = s.order? i := rfl
@[simp] theorem State.setDriveState_zone? {s : State} {d : Fin 16} {y : DriveState} {i : Nat} : (s.setDriveState d y).zone? i = s.zone? i := rfl
@[simp] theorem State.setDriveState_request? {s : State} {d : Fin 16} {y : DriveState} {h : Half} : (s.setDriveState d y).request? h = s.request? h := rfl
@[simp] theorem State.setDriveState_prompt? {s : State} {d : Fin 16} {y : DriveState} {i : Nat} : (s.setDriveState d y).prompt? i = s.prompt? i := rfl
@[simp] theorem State.setDriveState_account? {s : State} {d : Fin 16} {y : DriveState} {i : Nat} : (s.setDriveState d y).account? i = s.account? i := rfl
@[simp] theorem State.setDriveState_setting {s : State} {d : Fin 16} {y : DriveState} {i : Nat} : (s.setDriveState d y).setting i = s.setting i := rfl
@[simp] theorem State.setDriveState_service {s : State} {d : Fin 16} {y : DriveState} : (s.setDriveState d y).service = s.service := rfl

@[simp] theorem State.setStation_vol? {s : State} {p : Fin 8} {y : Station} {i : Nat} : (s.setStation p y).vol? i = s.vol? i := rfl
@[simp] theorem State.setStation_finding? {s : State} {p : Fin 8} {y : Station} {i : Nat} : (s.setStation p y).finding? i = s.finding? i := rfl
@[simp] theorem State.setStation_serialOf {s : State} {p : Fin 8} {y : Station} {i : Nat} : (s.setStation p y).serialOf i = s.serialOf i := rfl
@[simp] theorem State.setStation_drive {s : State} {p : Fin 8} {y : Station} {x : Fin 16} : (s.setStation p y).drive x = s.drive x := rfl
@[simp] theorem State.setStation_arm {s : State} {p : Fin 8} {y : Station} {b : ArmId} : (s.setStation p y).arm b = s.arm b := rfl
@[simp] theorem State.setStation_armPort {s : State} {p : Fin 8} {y : Station} {b : ArmId} : (s.setStation p y).armPort b = s.armPort b := rfl
@[simp] theorem State.setStation_order? {s : State} {p : Fin 8} {y : Station} {i : Nat} : (s.setStation p y).order? i = s.order? i := rfl
@[simp] theorem State.setStation_zone? {s : State} {p : Fin 8} {y : Station} {i : Nat} : (s.setStation p y).zone? i = s.zone? i := rfl
@[simp] theorem State.setStation_request? {s : State} {p : Fin 8} {y : Station} {h : Half} : (s.setStation p y).request? h = s.request? h := rfl
@[simp] theorem State.setStation_prompt? {s : State} {p : Fin 8} {y : Station} {i : Nat} : (s.setStation p y).prompt? i = s.prompt? i := rfl
@[simp] theorem State.setStation_account? {s : State} {p : Fin 8} {y : Station} {i : Nat} : (s.setStation p y).account? i = s.account? i := rfl
@[simp] theorem State.setStation_setting {s : State} {p : Fin 8} {y : Station} {i : Nat} : (s.setStation p y).setting i = s.setting i := rfl
@[simp] theorem State.setStation_service {s : State} {p : Fin 8} {y : Station} : (s.setStation p y).service = s.service := rfl

@[simp] theorem State.updStation_vol? {s : State} {p : Fin 8} {f : Station → Station} {i : Nat} : (s.updStation p f).vol? i = s.vol? i := rfl
@[simp] theorem State.updStation_finding? {s : State} {p : Fin 8} {f : Station → Station} {i : Nat} : (s.updStation p f).finding? i = s.finding? i := rfl
@[simp] theorem State.updStation_serialOf {s : State} {p : Fin 8} {f : Station → Station} {i : Nat} : (s.updStation p f).serialOf i = s.serialOf i := rfl
@[simp] theorem State.updStation_drive {s : State} {p : Fin 8} {f : Station → Station} {x : Fin 16} : (s.updStation p f).drive x = s.drive x := rfl
@[simp] theorem State.updStation_arm {s : State} {p : Fin 8} {f : Station → Station} {b : ArmId} : (s.updStation p f).arm b = s.arm b := rfl
@[simp] theorem State.updStation_armPort {s : State} {p : Fin 8} {f : Station → Station} {b : ArmId} : (s.updStation p f).armPort b = s.armPort b := rfl
@[simp] theorem State.updStation_order? {s : State} {p : Fin 8} {f : Station → Station} {i : Nat} : (s.updStation p f).order? i = s.order? i := rfl
@[simp] theorem State.updStation_zone? {s : State} {p : Fin 8} {f : Station → Station} {i : Nat} : (s.updStation p f).zone? i = s.zone? i := rfl
@[simp] theorem State.updStation_request? {s : State} {p : Fin 8} {f : Station → Station} {h : Half} : (s.updStation p f).request? h = s.request? h := rfl
@[simp] theorem State.updStation_prompt? {s : State} {p : Fin 8} {f : Station → Station} {i : Nat} : (s.updStation p f).prompt? i = s.prompt? i := rfl
@[simp] theorem State.updStation_account? {s : State} {p : Fin 8} {f : Station → Station} {i : Nat} : (s.updStation p f).account? i = s.account? i := rfl
@[simp] theorem State.updStation_setting {s : State} {p : Fin 8} {f : Station → Station} {i : Nat} : (s.updStation p f).setting i = s.setting i := rfl
@[simp] theorem State.updStation_service {s : State} {p : Fin 8} {f : Station → Station} : (s.updStation p f).service = s.service := rfl

@[simp] theorem State.updArm_vol? {s : State} {a : ArmId} {f : Arm → Arm} {i : Nat} : (s.updArm a f).vol? i = s.vol? i := by cases a <;> rfl
@[simp] theorem State.updArm_finding? {s : State} {a : ArmId} {f : Arm → Arm} {i : Nat} : (s.updArm a f).finding? i = s.finding? i := by cases a <;> rfl
@[simp] theorem State.updArm_serialOf {s : State} {a : ArmId} {f : Arm → Arm} {i : Nat} : (s.updArm a f).serialOf i = s.serialOf i := by cases a <;> rfl
@[simp] theorem State.updArm_drive {s : State} {a : ArmId} {f : Arm → Arm} {x : Fin 16} : (s.updArm a f).drive x = s.drive x := by cases a <;> rfl
@[simp] theorem State.updArm_station {s : State} {a : ArmId} {f : Arm → Arm} {x : Fin 8} : (s.updArm a f).station x = s.station x := by cases a <;> rfl
@[simp] theorem State.updArm_armPort {s : State} {a : ArmId} {f : Arm → Arm} {b : ArmId} : (s.updArm a f).armPort b = s.armPort b := by cases a <;> cases b <;> rfl
@[simp] theorem State.updArm_order? {s : State} {a : ArmId} {f : Arm → Arm} {i : Nat} : (s.updArm a f).order? i = s.order? i := by cases a <;> rfl
@[simp] theorem State.updArm_zone? {s : State} {a : ArmId} {f : Arm → Arm} {i : Nat} : (s.updArm a f).zone? i = s.zone? i := by cases a <;> rfl
@[simp] theorem State.updArm_request? {s : State} {a : ArmId} {f : Arm → Arm} {h : Half} : (s.updArm a f).request? h = s.request? h := by cases a <;> rfl
@[simp] theorem State.updArm_prompt? {s : State} {a : ArmId} {f : Arm → Arm} {i : Nat} : (s.updArm a f).prompt? i = s.prompt? i := by cases a <;> rfl
@[simp] theorem State.updArm_account? {s : State} {a : ArmId} {f : Arm → Arm} {i : Nat} : (s.updArm a f).account? i = s.account? i := by cases a <;> rfl
@[simp] theorem State.updArm_setting {s : State} {a : ArmId} {f : Arm → Arm} {i : Nat} : (s.updArm a f).setting i = s.setting i := by cases a <;> rfl
@[simp] theorem State.updArm_service {s : State} {a : ArmId} {f : Arm → Arm} : (s.updArm a f).service = s.service := by cases a <;> rfl

@[simp] theorem State.nameGripper_vol? {s : State} {a : ArmId} {g : Gripper} {i : Nat} : (s.nameGripper a g).vol? i = s.vol? i := by cases a <;> rfl
@[simp] theorem State.nameGripper_finding? {s : State} {a : ArmId} {g : Gripper} {i : Nat} : (s.nameGripper a g).finding? i = s.finding? i := by cases a <;> rfl
@[simp] theorem State.nameGripper_serialOf {s : State} {a : ArmId} {g : Gripper} {i : Nat} : (s.nameGripper a g).serialOf i = s.serialOf i := by cases a <;> rfl
@[simp] theorem State.nameGripper_drive {s : State} {a : ArmId} {g : Gripper} {x : Fin 16} : (s.nameGripper a g).drive x = s.drive x := by cases a <;> rfl
@[simp] theorem State.nameGripper_station {s : State} {a : ArmId} {g : Gripper} {x : Fin 8} : (s.nameGripper a g).station x = s.station x := by cases a <;> rfl
@[simp] theorem State.nameGripper_armPort {s : State} {a : ArmId} {g : Gripper} {b : ArmId} : (s.nameGripper a g).armPort b = s.armPort b := by cases a <;> cases b <;> rfl
@[simp] theorem State.nameGripper_order? {s : State} {a : ArmId} {g : Gripper} {i : Nat} : (s.nameGripper a g).order? i = s.order? i := by cases a <;> rfl
@[simp] theorem State.nameGripper_zone? {s : State} {a : ArmId} {g : Gripper} {i : Nat} : (s.nameGripper a g).zone? i = s.zone? i := by cases a <;> rfl
@[simp] theorem State.nameGripper_request? {s : State} {a : ArmId} {g : Gripper} {h : Half} : (s.nameGripper a g).request? h = s.request? h := by cases a <;> rfl
@[simp] theorem State.nameGripper_prompt? {s : State} {a : ArmId} {g : Gripper} {i : Nat} : (s.nameGripper a g).prompt? i = s.prompt? i := by cases a <;> rfl
@[simp] theorem State.nameGripper_account? {s : State} {a : ArmId} {g : Gripper} {i : Nat} : (s.nameGripper a g).account? i = s.account? i := by cases a <;> rfl
@[simp] theorem State.nameGripper_setting {s : State} {a : ArmId} {g : Gripper} {i : Nat} : (s.nameGripper a g).setting i = s.setting i := by cases a <;> rfl
@[simp] theorem State.nameGripper_service {s : State} {a : ArmId} {g : Gripper} : (s.nameGripper a g).service = s.service := by cases a <;> rfl

@[simp] theorem State.setArmPort_vol? {s : State} {a : ArmId} {y : ArmPort} {i : Nat} : (s.setArmPort a y).vol? i = s.vol? i := by cases a <;> rfl
@[simp] theorem State.setArmPort_finding? {s : State} {a : ArmId} {y : ArmPort} {i : Nat} : (s.setArmPort a y).finding? i = s.finding? i := by cases a <;> rfl
@[simp] theorem State.setArmPort_serialOf {s : State} {a : ArmId} {y : ArmPort} {i : Nat} : (s.setArmPort a y).serialOf i = s.serialOf i := by cases a <;> rfl
@[simp] theorem State.setArmPort_drive {s : State} {a : ArmId} {y : ArmPort} {x : Fin 16} : (s.setArmPort a y).drive x = s.drive x := by cases a <;> rfl
@[simp] theorem State.setArmPort_station {s : State} {a : ArmId} {y : ArmPort} {x : Fin 8} : (s.setArmPort a y).station x = s.station x := by cases a <;> rfl
@[simp] theorem State.setArmPort_arm {s : State} {a : ArmId} {y : ArmPort} {b : ArmId} : (s.setArmPort a y).arm b = s.arm b := by cases a <;> cases b <;> rfl
@[simp] theorem State.setArmPort_order? {s : State} {a : ArmId} {y : ArmPort} {i : Nat} : (s.setArmPort a y).order? i = s.order? i := by cases a <;> rfl
@[simp] theorem State.setArmPort_zone? {s : State} {a : ArmId} {y : ArmPort} {i : Nat} : (s.setArmPort a y).zone? i = s.zone? i := by cases a <;> rfl
@[simp] theorem State.setArmPort_request? {s : State} {a : ArmId} {y : ArmPort} {h : Half} : (s.setArmPort a y).request? h = s.request? h := by cases a <;> rfl
@[simp] theorem State.setArmPort_prompt? {s : State} {a : ArmId} {y : ArmPort} {i : Nat} : (s.setArmPort a y).prompt? i = s.prompt? i := by cases a <;> rfl
@[simp] theorem State.setArmPort_account? {s : State} {a : ArmId} {y : ArmPort} {i : Nat} : (s.setArmPort a y).account? i = s.account? i := by cases a <;> rfl
@[simp] theorem State.setArmPort_setting {s : State} {a : ArmId} {y : ArmPort} {i : Nat} : (s.setArmPort a y).setting i = s.setting i := by cases a <;> rfl
@[simp] theorem State.setArmPort_service {s : State} {a : ArmId} {y : ArmPort} : (s.setArmPort a y).service = s.service := by cases a <;> rfl

@[simp] theorem State.updOrder_vol? {s : State} {n : Nat} {f : Order → Order} {i : Nat} : (s.updOrder n f).vol? i = s.vol? i := rfl
@[simp] theorem State.updOrder_finding? {s : State} {n : Nat} {f : Order → Order} {i : Nat} : (s.updOrder n f).finding? i = s.finding? i := rfl
@[simp] theorem State.updOrder_serialOf {s : State} {n : Nat} {f : Order → Order} {i : Nat} : (s.updOrder n f).serialOf i = s.serialOf i := rfl
@[simp] theorem State.updOrder_drive {s : State} {n : Nat} {f : Order → Order} {x : Fin 16} : (s.updOrder n f).drive x = s.drive x := rfl
@[simp] theorem State.updOrder_station {s : State} {n : Nat} {f : Order → Order} {x : Fin 8} : (s.updOrder n f).station x = s.station x := rfl
@[simp] theorem State.updOrder_arm {s : State} {n : Nat} {f : Order → Order} {b : ArmId} : (s.updOrder n f).arm b = s.arm b := by cases b <;> rfl
@[simp] theorem State.updOrder_armPort {s : State} {n : Nat} {f : Order → Order} {b : ArmId} : (s.updOrder n f).armPort b = s.armPort b := by cases b <;> rfl
@[simp] theorem State.updOrder_zone? {s : State} {n : Nat} {f : Order → Order} {i : Nat} : (s.updOrder n f).zone? i = s.zone? i := rfl
@[simp] theorem State.updOrder_request? {s : State} {n : Nat} {f : Order → Order} {h : Half} : (s.updOrder n f).request? h = s.request? h := rfl
@[simp] theorem State.updOrder_prompt? {s : State} {n : Nat} {f : Order → Order} {i : Nat} : (s.updOrder n f).prompt? i = s.prompt? i := rfl
@[simp] theorem State.updOrder_account? {s : State} {n : Nat} {f : Order → Order} {i : Nat} : (s.updOrder n f).account? i = s.account? i := rfl
@[simp] theorem State.updOrder_setting {s : State} {n : Nat} {f : Order → Order} {i : Nat} : (s.updOrder n f).setting i = s.setting i := rfl
@[simp] theorem State.updOrder_service {s : State} {n : Nat} {f : Order → Order} : (s.updOrder n f).service = s.service := rfl

@[simp] theorem State.dropOrder_vol? {s : State} {n : Nat} {i : Nat} : (s.dropOrder n).vol? i = s.vol? i := rfl
@[simp] theorem State.dropOrder_finding? {s : State} {n : Nat} {i : Nat} : (s.dropOrder n).finding? i = s.finding? i := rfl
@[simp] theorem State.dropOrder_serialOf {s : State} {n : Nat} {i : Nat} : (s.dropOrder n).serialOf i = s.serialOf i := rfl
@[simp] theorem State.dropOrder_drive {s : State} {n : Nat} {x : Fin 16} : (s.dropOrder n).drive x = s.drive x := rfl
@[simp] theorem State.dropOrder_station {s : State} {n : Nat} {x : Fin 8} : (s.dropOrder n).station x = s.station x := rfl
@[simp] theorem State.dropOrder_arm {s : State} {n : Nat} {b : ArmId} : (s.dropOrder n).arm b = s.arm b := by cases b <;> rfl
@[simp] theorem State.dropOrder_armPort {s : State} {n : Nat} {b : ArmId} : (s.dropOrder n).armPort b = s.armPort b := by cases b <;> rfl
@[simp] theorem State.dropOrder_zone? {s : State} {n : Nat} {i : Nat} : (s.dropOrder n).zone? i = s.zone? i := rfl
@[simp] theorem State.dropOrder_request? {s : State} {n : Nat} {h : Half} : (s.dropOrder n).request? h = s.request? h := rfl
@[simp] theorem State.dropOrder_prompt? {s : State} {n : Nat} {i : Nat} : (s.dropOrder n).prompt? i = s.prompt? i := rfl
@[simp] theorem State.dropOrder_account? {s : State} {n : Nat} {i : Nat} : (s.dropOrder n).account? i = s.account? i := rfl
@[simp] theorem State.dropOrder_setting {s : State} {n : Nat} {i : Nat} : (s.dropOrder n).setting i = s.setting i := rfl
@[simp] theorem State.dropOrder_service {s : State} {n : Nat} : (s.dropOrder n).service = s.service := rfl

@[simp] theorem State.withdrawClaim_vol? {s : State} {a : ArmId} {i : Nat} : (s.withdrawClaim a).vol? i = s.vol? i := rfl
@[simp] theorem State.withdrawClaim_finding? {s : State} {a : ArmId} {i : Nat} : (s.withdrawClaim a).finding? i = s.finding? i := rfl
@[simp] theorem State.withdrawClaim_serialOf {s : State} {a : ArmId} {i : Nat} : (s.withdrawClaim a).serialOf i = s.serialOf i := rfl
@[simp] theorem State.withdrawClaim_drive {s : State} {a : ArmId} {x : Fin 16} : (s.withdrawClaim a).drive x = s.drive x := rfl
@[simp] theorem State.withdrawClaim_station {s : State} {a : ArmId} {x : Fin 8} : (s.withdrawClaim a).station x = s.station x := rfl
@[simp] theorem State.withdrawClaim_arm {s : State} {a : ArmId} {b : ArmId} : (s.withdrawClaim a).arm b = s.arm b := by cases b <;> rfl
@[simp] theorem State.withdrawClaim_armPort {s : State} {a : ArmId} {b : ArmId} : (s.withdrawClaim a).armPort b = s.armPort b := by cases b <;> rfl
@[simp] theorem State.withdrawClaim_order? {s : State} {a : ArmId} {i : Nat} : (s.withdrawClaim a).order? i = s.order? i := rfl
@[simp] theorem State.withdrawClaim_zone? {s : State} {a : ArmId} {i : Nat} : (s.withdrawClaim a).zone? i = s.zone? i := rfl
@[simp] theorem State.withdrawClaim_request? {s : State} {a : ArmId} {h : Half} : (s.withdrawClaim a).request? h = s.request? h := rfl
@[simp] theorem State.withdrawClaim_prompt? {s : State} {a : ArmId} {i : Nat} : (s.withdrawClaim a).prompt? i = s.prompt? i := rfl
@[simp] theorem State.withdrawClaim_account? {s : State} {a : ArmId} {i : Nat} : (s.withdrawClaim a).account? i = s.account? i := rfl
@[simp] theorem State.withdrawClaim_setting {s : State} {a : ArmId} {i : Nat} : (s.withdrawClaim a).setting i = s.setting i := rfl
@[simp] theorem State.withdrawClaim_service {s : State} {a : ArmId} : (s.withdrawClaim a).service = s.service := rfl

@[simp] theorem State.mapZones_vol? {s : State} {f : Nat → Option Holding → Option Holding} {i : Nat} : (s.mapZones f).vol? i = s.vol? i := rfl
@[simp] theorem State.mapZones_finding? {s : State} {f : Nat → Option Holding → Option Holding} {i : Nat} : (s.mapZones f).finding? i = s.finding? i := rfl
@[simp] theorem State.mapZones_serialOf {s : State} {f : Nat → Option Holding → Option Holding} {i : Nat} : (s.mapZones f).serialOf i = s.serialOf i := rfl
@[simp] theorem State.mapZones_drive {s : State} {f : Nat → Option Holding → Option Holding} {x : Fin 16} : (s.mapZones f).drive x = s.drive x := rfl
@[simp] theorem State.mapZones_station {s : State} {f : Nat → Option Holding → Option Holding} {x : Fin 8} : (s.mapZones f).station x = s.station x := rfl
@[simp] theorem State.mapZones_arm {s : State} {f : Nat → Option Holding → Option Holding} {b : ArmId} : (s.mapZones f).arm b = s.arm b := by cases b <;> rfl
@[simp] theorem State.mapZones_armPort {s : State} {f : Nat → Option Holding → Option Holding} {b : ArmId} : (s.mapZones f).armPort b = s.armPort b := by cases b <;> rfl
@[simp] theorem State.mapZones_order? {s : State} {f : Nat → Option Holding → Option Holding} {i : Nat} : (s.mapZones f).order? i = s.order? i := rfl
@[simp] theorem State.mapZones_request? {s : State} {f : Nat → Option Holding → Option Holding} {h : Half} : (s.mapZones f).request? h = s.request? h := rfl
@[simp] theorem State.mapZones_prompt? {s : State} {f : Nat → Option Holding → Option Holding} {i : Nat} : (s.mapZones f).prompt? i = s.prompt? i := rfl
@[simp] theorem State.mapZones_account? {s : State} {f : Nat → Option Holding → Option Holding} {i : Nat} : (s.mapZones f).account? i = s.account? i := rfl
@[simp] theorem State.mapZones_setting {s : State} {f : Nat → Option Holding → Option Holding} {i : Nat} : (s.mapZones f).setting i = s.setting i := rfl
@[simp] theorem State.mapZones_service {s : State} {f : Nat → Option Holding → Option Holding} : (s.mapZones f).service = s.service := rfl

@[simp] theorem State.updRequest_vol? {s : State} {t : Half} {f : Request → Request} {i : Nat} : (s.updRequest t f).vol? i = s.vol? i := rfl
@[simp] theorem State.updRequest_finding? {s : State} {t : Half} {f : Request → Request} {i : Nat} : (s.updRequest t f).finding? i = s.finding? i := rfl
@[simp] theorem State.updRequest_serialOf {s : State} {t : Half} {f : Request → Request} {i : Nat} : (s.updRequest t f).serialOf i = s.serialOf i := rfl
@[simp] theorem State.updRequest_drive {s : State} {t : Half} {f : Request → Request} {x : Fin 16} : (s.updRequest t f).drive x = s.drive x := rfl
@[simp] theorem State.updRequest_station {s : State} {t : Half} {f : Request → Request} {x : Fin 8} : (s.updRequest t f).station x = s.station x := rfl
@[simp] theorem State.updRequest_arm {s : State} {t : Half} {f : Request → Request} {b : ArmId} : (s.updRequest t f).arm b = s.arm b := rfl
@[simp] theorem State.updRequest_armPort {s : State} {t : Half} {f : Request → Request} {b : ArmId} : (s.updRequest t f).armPort b = s.armPort b := rfl
@[simp] theorem State.updRequest_order? {s : State} {t : Half} {f : Request → Request} {i : Nat} : (s.updRequest t f).order? i = s.order? i := rfl
@[simp] theorem State.updRequest_zone? {s : State} {t : Half} {f : Request → Request} {i : Nat} : (s.updRequest t f).zone? i = s.zone? i := rfl
@[simp] theorem State.updRequest_prompt? {s : State} {t : Half} {f : Request → Request} {i : Nat} : (s.updRequest t f).prompt? i = s.prompt? i := rfl
@[simp] theorem State.updRequest_account? {s : State} {t : Half} {f : Request → Request} {i : Nat} : (s.updRequest t f).account? i = s.account? i := rfl
@[simp] theorem State.updRequest_setting {s : State} {t : Half} {f : Request → Request} {i : Nat} : (s.updRequest t f).setting i = s.setting i := rfl
@[simp] theorem State.updRequest_service {s : State} {t : Half} {f : Request → Request} : (s.updRequest t f).service = s.service := rfl

@[simp] theorem State.updPrompt_vol? {s : State} {n : Nat} {f : Prompt → Prompt} {i : Nat} : (s.updPrompt n f).vol? i = s.vol? i := rfl
@[simp] theorem State.updPrompt_finding? {s : State} {n : Nat} {f : Prompt → Prompt} {i : Nat} : (s.updPrompt n f).finding? i = s.finding? i := rfl
@[simp] theorem State.updPrompt_serialOf {s : State} {n : Nat} {f : Prompt → Prompt} {i : Nat} : (s.updPrompt n f).serialOf i = s.serialOf i := rfl
@[simp] theorem State.updPrompt_drive {s : State} {n : Nat} {f : Prompt → Prompt} {x : Fin 16} : (s.updPrompt n f).drive x = s.drive x := rfl
@[simp] theorem State.updPrompt_station {s : State} {n : Nat} {f : Prompt → Prompt} {x : Fin 8} : (s.updPrompt n f).station x = s.station x := rfl
@[simp] theorem State.updPrompt_arm {s : State} {n : Nat} {f : Prompt → Prompt} {b : ArmId} : (s.updPrompt n f).arm b = s.arm b := rfl
@[simp] theorem State.updPrompt_armPort {s : State} {n : Nat} {f : Prompt → Prompt} {b : ArmId} : (s.updPrompt n f).armPort b = s.armPort b := rfl
@[simp] theorem State.updPrompt_order? {s : State} {n : Nat} {f : Prompt → Prompt} {i : Nat} : (s.updPrompt n f).order? i = s.order? i := rfl
@[simp] theorem State.updPrompt_zone? {s : State} {n : Nat} {f : Prompt → Prompt} {i : Nat} : (s.updPrompt n f).zone? i = s.zone? i := rfl
@[simp] theorem State.updPrompt_request? {s : State} {n : Nat} {f : Prompt → Prompt} {h : Half} : (s.updPrompt n f).request? h = s.request? h := rfl
@[simp] theorem State.updPrompt_account? {s : State} {n : Nat} {f : Prompt → Prompt} {i : Nat} : (s.updPrompt n f).account? i = s.account? i := rfl
@[simp] theorem State.updPrompt_setting {s : State} {n : Nat} {f : Prompt → Prompt} {i : Nat} : (s.updPrompt n f).setting i = s.setting i := rfl
@[simp] theorem State.updPrompt_service {s : State} {n : Nat} {f : Prompt → Prompt} : (s.updPrompt n f).service = s.service := rfl

@[simp] theorem State.raise_vol? {s : State} {e : Event} {i : Nat} : (s.raise e).vol? i = s.vol? i := rfl
@[simp] theorem State.raise_finding? {s : State} {e : Event} {i : Nat} : (s.raise e).finding? i = s.finding? i := rfl
@[simp] theorem State.raise_serialOf {s : State} {e : Event} {i : Nat} : (s.raise e).serialOf i = s.serialOf i := rfl
@[simp] theorem State.raise_drive {s : State} {e : Event} {x : Fin 16} : (s.raise e).drive x = s.drive x := rfl
@[simp] theorem State.raise_station {s : State} {e : Event} {x : Fin 8} : (s.raise e).station x = s.station x := rfl
@[simp] theorem State.raise_arm {s : State} {e : Event} {b : ArmId} : (s.raise e).arm b = s.arm b := rfl
@[simp] theorem State.raise_armPort {s : State} {e : Event} {b : ArmId} : (s.raise e).armPort b = s.armPort b := rfl
@[simp] theorem State.raise_order? {s : State} {e : Event} {i : Nat} : (s.raise e).order? i = s.order? i := rfl
@[simp] theorem State.raise_zone? {s : State} {e : Event} {i : Nat} : (s.raise e).zone? i = s.zone? i := rfl
@[simp] theorem State.raise_request? {s : State} {e : Event} {h : Half} : (s.raise e).request? h = s.request? h := rfl
@[simp] theorem State.raise_prompt? {s : State} {e : Event} {i : Nat} : (s.raise e).prompt? i = s.prompt? i := rfl
@[simp] theorem State.raise_account? {s : State} {e : Event} {i : Nat} : (s.raise e).account? i = s.account? i := rfl
@[simp] theorem State.raise_setting {s : State} {e : Event} {i : Nat} : (s.raise e).setting i = s.setting i := rfl
@[simp] theorem State.raise_service {s : State} {e : Event} : (s.raise e).service = s.service := rfl

@[simp] theorem State.notify_vol? {s : State} {n : Notice} {i : Nat} : (s.notify n).vol? i = s.vol? i := by simp [State.vol?]
@[simp] theorem State.notify_finding? {s : State} {n : Notice} {i : Nat} : (s.notify n).finding? i = s.finding? i := by simp [State.finding?]
@[simp] theorem State.notify_serialOf {s : State} {n : Notice} {i : Nat} : (s.notify n).serialOf i = s.serialOf i := by simp [State.serialOf, State.vol?]
@[simp] theorem State.notify_drive {s : State} {n : Notice} {x : Fin 16} : (s.notify n).drive x = s.drive x := by simp [State.drive]
@[simp] theorem State.notify_station {s : State} {n : Notice} {x : Fin 8} : (s.notify n).station x = s.station x := by simp [State.station]
@[simp] theorem State.notify_arm {s : State} {n : Notice} {b : ArmId} : (s.notify n).arm b = s.arm b := by cases b <;> simp [State.arm]
@[simp] theorem State.notify_armPort {s : State} {n : Notice} {b : ArmId} : (s.notify n).armPort b = s.armPort b := by cases b <;> simp [State.armPort]
@[simp] theorem State.notify_order? {s : State} {n : Notice} {i : Nat} : (s.notify n).order? i = s.order? i := by simp [State.order?]
@[simp] theorem State.notify_zone? {s : State} {n : Notice} {i : Nat} : (s.notify n).zone? i = s.zone? i := by simp [State.zone?]
@[simp] theorem State.notify_request? {s : State} {n : Notice} {h : Half} : (s.notify n).request? h = s.request? h := by simp [State.request?]
@[simp] theorem State.notify_prompt? {s : State} {n : Notice} {i : Nat} : (s.notify n).prompt? i = s.prompt? i := by simp [State.prompt?]
@[simp] theorem State.notify_account? {s : State} {n : Notice} {i : Nat} : (s.notify n).account? i = s.account? i := by simp [State.account?]
@[simp] theorem State.notify_setting {s : State} {n : Notice} {i : Nat} : (s.notify n).setting i = s.setting i := by simp [State.setting]
@[simp] theorem State.notify_service {s : State} {n : Notice} : (s.notify n).service = s.service := by simp [State.service]

end Sys2Proof.Machine
end

