-- ==== Sys2Proof/Laws/KeepsDirectory.lean ====
section
/-! SUPPORT. What every operation inside a step keeps (Laws/Keeps.lean): the Volume Directory, the Accounting Unit, the Attention Generator and the Prompt Unit. -/

set_option linter.unusedTactic false
set_option linter.unreachableTactic false

namespace Sys2Proof.Machine

variable {s t : State} {L : Law → Prop}

/-! ### The Volume Directory -/

theorem Keeps.leaveMisplaced (h : Keeps L s t) {e : Nat} {v : Volume} {dest : Loc} : Keeps L s (t.leaveMisplaced e v dest) := by
  unfold State.leaveMisplaced
  repeat' first
    | with_reducible exact h | with_reducible apply Keeps.ite | with_reducible apply Keeps.clearFinding | exact fun _ => rfl | exact fun _ _ => rfl
    | exact fun _ _ => Or.inr rfl
    | split | dsimp only

theorem Keeps.nameGripper (h : Keeps L s t) {a : ArmId} {g : Gripper} (hg : L .paired → (t.arm a).gripper = g) :
    Keeps L s (t.nameGripper a g) := h.setArm (fun hi => (hg hi).symm) (fun _ => rfl)

theorem Keeps.clearStationVolume (h : Keeps L s t) {p : Fin 8} : Keeps L s (t.clearStationVolume p) := by
  unfold State.clearStationVolume
  repeat' first
    | with_reducible exact h | with_reducible apply Keeps.ite | with_reducible apply Keeps.updStation | exact fun _ => rfl | exact fun _ _ => rfl
    | exact fun _ _ => Or.inr rfl
    | split | dsimp only

theorem Keeps.unhold (h : Keeps L s t) {e : Nat} {l : Loc} (hL : ¬ L .paired) : Keeps L s (t.unhold e l) := by
  unfold State.unhold
  repeat' first
    | with_reducible exact h | with_reducible apply Keeps.ite | with_reducible apply Keeps.nameGripper
    | with_reducible apply Keeps.updDrive | with_reducible apply Keeps.clearStationVolume | exact fun _ => rfl
    | exact fun k => absurd k hL
    | split | dsimp only

/-- A volume's location changes, the names of it elsewhere left to the rules that call this. -/
theorem Keeps.relocateBut (h : Keeps L s t) {e : Nat} {dest : Loc} (hL : ¬ L .paired) : Keeps L s (t.relocate e dest) := by
  unfold State.relocate
  split
  · exact h
  · rename_i v hv
    have k : Keeps L s (if v.loc = dest then t else (t.leaveMisplaced e v dest).unhold e v.loc) :=
      Keeps.ite h (h.leaveMisplaced.unhold hL)
    have hv : (if v.loc = dest then t else (t.leaveMisplaced e v dest).unhold e v.loc).vol? e = some v := by
      split
      · exact hv
      · simpa using hv
    simp only []
    split
    · exact (k.clearFinding).setVol (v := v) (by simpa using hv) rfl (fun c => absurd c hL)
    · exact k.setVol hv rfl (fun c => absurd c hL)

@[simp] theorem State.leaveMisplaced_sch {e : Nat} {v : Volume} {dest : Loc} : (s.leaveMisplaced e v dest).sch = s.sch := by
  unfold State.leaveMisplaced
  repeat' split
  all_goals rfl

@[simp] theorem State.leaveMisplaced_drv {e : Nat} {v : Volume} {dest : Loc} : (s.leaveMisplaced e v dest).drv = s.drv := by
  unfold State.leaveMisplaced
  repeat' split
  all_goals rfl

@[simp] theorem State.leaveMisplaced_entries {e : Nat} {v : Volume} {dest : Loc} :
    (s.leaveMisplaced e v dest).dir.entries = s.dir.entries := by
  unfold State.leaveMisplaced
  repeat' split
  all_goals rfl

/-- What a gripper names after a volume has changed its location: an unknown reel where it named this one and holds it no more. -/
theorem State.gripper_unhold {e : Nat} {l : Loc} {a : ArmId} : ((s.unhold e l).arm a).gripper =
    if l = .inArm a ∧ (s.arm a).gripper = .volume e then .unknown else (s.arm a).gripper := by
  unfold State.unhold
  cases l with
  | inArm b =>
    by_cases hb : (s.arm b).gripper = .volume e
    · simp only [hb, if_true]
      cases a <;> cases b <;> simp_all [State.nameGripper, State.updArm, State.setArm, State.arm]
    · simp only [hb, if_false]
      by_cases hab : b = a
      · subst hab; simp [hb]
      · simp [hab]
  | inDrive d => simp only []; split <;> simp [State.arm]
  | atStation p => simp only []; split <;> simp [State.arm, State.clearStationVolume]
  | home | outside | missing | misplaced => simp

/-- What a drive names after a volume has changed its location: nothing where it named this one and holds it no more. -/
theorem State.volume_unhold {e : Nat} {l : Loc} {d : Fin 16} : ((s.unhold e l).drive d).volume =
    if l = .inDrive d ∧ (s.drive d).volume = some e then none else (s.drive d).volume := by
  unfold State.unhold
  cases l with
  | inArm b => simp only []; split <;> simp [State.drive, State.nameGripper]
  | inDrive c =>
    by_cases hc : (s.drive c).volume = some e
    · by_cases hcd : c = d
      · subst hcd; simp [hc]
      · have : ¬ c.val = d.val := fun q => hcd (Fin.ext q)
        simp only [hc, if_true, Loc.inDrive.injEq, hcd, false_and, if_false]
        simp [State.drive, State.updDrive, State.setDrive, this]
    · by_cases hcd : c = d
      · subst hcd; simp [hc]
      · simp [hc, hcd]
  | atStation p => simp only []; split <;> simp [State.drive, State.clearStationVolume]
  | home | outside | missing | misplaced => simp

theorem State.locOf_setVol {e x : Nat} {v : Volume} : (s.setVol e v).locOf x = if x = e then some v.loc else s.locOf x := by
  unfold State.locOf State.vol?
  by_cases hx : x = e
  · subst hx; simp [State.setVol, lookup_insertAt_self]
  · simp [State.setVol, lookup_insertAt_ne _ _ hx, hx]

/-- A volume's location after a volume has changed its own. -/
theorem State.locOf_relocate {e x : Nat} {dest : Loc} {v : Volume} (hv : s.vol? e = some v) :
    (s.relocate e dest).locOf x = if x = e then some dest else s.locOf x := by
  unfold State.relocate
  simp only [hv]
  have hd : (if v.loc = dest then s else (s.leaveMisplaced e v dest).unhold e v.loc).dir.entries = s.dir.entries := by
    split <;> simp
  generalize (if v.loc = dest then s else (s.leaveMisplaced e v dest).unhold e v.loc) = u at hd
  have key : ∀ w : State, w.dir.entries = s.dir.entries → (w.setVol e { v with loc := dest }).locOf x =
      if x = e then some dest else s.locOf x := by
    intro w hw
    rw [State.locOf_setVol]
    simp only [State.locOf, State.vol?, hw]
  split
  · exact key _ hd
  · exact key _ hd

theorem State.gripper_relocate {e : Nat} {dest : Loc} {v : Volume} (hv : s.vol? e = some v) {a : ArmId} :
    ((s.relocate e dest).arm a).gripper =
      if dest ≠ v.loc ∧ v.loc = .inArm a ∧ (s.arm a).gripper = .volume e then .unknown else (s.arm a).gripper := by
  have hu : ((if v.loc = dest then s else (s.leaveMisplaced e v dest).unhold e v.loc).arm a).gripper =
      if dest ≠ v.loc ∧ v.loc = .inArm a ∧ (s.arm a).gripper = .volume e then .unknown else (s.arm a).gripper := by
    split
    · rename_i h; simp [h]
    · rename_i h
      have h' : dest ≠ v.loc := fun q => h q.symm
      rw [State.gripper_unhold]
      have : (s.leaveMisplaced e v dest).arm a = s.arm a := by cases a <;> simp [State.arm]
      rw [this]
      simp [h']
  rw [← hu]
  unfold State.relocate
  simp only [hv]
  generalize (if v.loc = dest then s else (s.leaveMisplaced e v dest).unhold e v.loc) = u
  split <;> (cases a <;> rfl)

theorem State.volume_relocate {e : Nat} {dest : Loc} {v : Volume} (hv : s.vol? e = some v) {d : Fin 16} :
    ((s.relocate e dest).drive d).volume =
      if dest ≠ v.loc ∧ v.loc = .inDrive d ∧ (s.drive d).volume = some e then none else (s.drive d).volume := by
  have hu : ((if v.loc = dest then s else (s.leaveMisplaced e v dest).unhold e v.loc).drive d).volume =
      if dest ≠ v.loc ∧ v.loc = .inDrive d ∧ (s.drive d).volume = some e then none else (s.drive d).volume := by
    split
    · rename_i h; simp [h]
    · rename_i h
      have h' : dest ≠ v.loc := fun q => h q.symm
      rw [State.volume_unhold]
      have : (s.leaveMisplaced e v dest).drive d = s.drive d := by simp [State.drive]
      rw [this]
      simp [h']
  rw [← hu]
  unfold State.relocate
  simp only [hv]
  generalize (if v.loc = dest then s else (s.leaveMisplaced e v dest).unhold e v.loc) = u
  split <;> rfl

/-- After a volume of a paired directory has changed its location the grippers and drives name exactly the others they named. -/
theorem State.relocate_names {e : Nat} {dest : Loc} {v : Volume} (hv : s.vol? e = some v) (k : s.law .paired) :
    (∀ a x, x ≠ e → (((s.relocate e dest).arm a).gripper = .volume x ↔ s.locOf x = some (.inArm a))) ∧
    (∀ a, ((s.relocate e dest).arm a).gripper = .volume e ↔ v.loc = .inArm a ∧ dest = .inArm a) ∧
    (∀ d x, x ≠ e → (((s.relocate e dest).drive d).volume = some x ↔ s.locOf x = some (.inDrive d))) ∧
    ∀ d, ((s.relocate e dest).drive d).volume = some e ↔ v.loc = .inDrive d ∧ dest = .inDrive d := by
  have he : s.locOf e = some v.loc := by simp [State.locOf, hv]
  have hg := fun a => k.1 a e
  have hd := fun d => k.2 d e
  simp only [he, Option.some.injEq] at hg hd
  refine ⟨fun a x hx => ?_, fun a => ?_, fun d x hx => ?_, fun d => ?_⟩
  · rw [State.gripper_relocate hv, ← k.1 a x]
    split
    · rename_i c; simp [c.2.2, Ne.symm hx]
    · rfl
  · rw [State.gripper_relocate hv]
    have := hg a
    split
    · rename_i c
      simp only [reduceCtorEq, false_iff, not_and]
      exact fun q r => c.1 (r.trans q.symm)
    · rename_i c
      constructor
      · intro q
        have l := this.mp q
        exact ⟨l, Classical.byContradiction fun r => c ⟨fun w => r (w.trans l), l, q⟩⟩
      · exact fun q => this.mpr q.1
  · rw [State.volume_relocate hv, ← k.2 d x]
    split
    · rename_i c; simp [c.2.2, Ne.symm hx]
    · rfl
  · rw [State.volume_relocate hv]
    have := hd d
    split
    · rename_i c
      simp only [reduceCtorEq, false_iff, not_and]
      exact fun q r => c.1 (r.trans q.symm)
    · rename_i c
      constructor
      · intro q
        have l := this.mp q
        exact ⟨l, Classical.byContradiction fun r => c ⟨fun w => r (w.trans l), l, q⟩⟩
      · exact fun q => this.mpr q.1

/-- A location that no gripper and no drive goes with (R6, R8). -/
def Loc.unheld : Loc → Bool
  | .inArm _ | .inDrive _ => false
  | .home | .atStation _ | .outside | .missing | .misplaced _ => true

theorem State.relocate_none {e : Nat} {dest : Loc} (hv : s.vol? e = none) : s.relocate e dest = s := by
  unfold State.relocate; simp [hv]

theorem State.paired_relocate {e : Nat} {dest : Loc} (hd : dest.unheld = true) (k : s.law .paired) : (s.relocate e dest).law .paired := by
  cases hv : s.vol? e with
  | none => rw [State.relocate_none hv]; exact k
  | some v =>
    have n := State.relocate_names (dest := dest) hv k
    refine ⟨fun a x => ?_, fun d x => ?_⟩ <;> rw [State.locOf_relocate hv] <;> by_cases hx : x = e
    · subst hx
      rw [n.2.1 a]
      cases dest <;> simp_all [Loc.unheld]
    · rw [n.1 a x hx]; simp [hx]
    · subst hx
      rw [n.2.2.2 d]
      cases dest <;> simp_all [Loc.unheld]
    · rw [n.2.2.1 d x hx]; simp [hx]

theorem Keeps.relocate (h : Keeps L s t) {e : Nat} {dest : Loc} (hd : dest.unheld = true) : Keeps L s (t.relocate e dest) :=
  (h.but.relocateBut (fun c => c.2 rfl)).mend (fun hi k => State.paired_relocate hd (h.laws _ hi k))

theorem Keeps.reachHome (h : Keeps L s t) {e : Nat} : Keeps L s (t.reachHome e) := by
  unfold State.reachHome
  repeat' first
    | with_reducible exact h | with_reducible apply Keeps.ite | with_reducible apply Keeps.relocate
    | with_reducible apply Keeps.notify | exact rfl | exact fun _ => rfl | exact fun _ _ => rfl
    | exact fun _ _ => Or.inr rfl
    | split | dsimp only

theorem Keeps.makeMissing (h : Keeps L s t) {e : Nat} : Keeps L s (t.makeMissing e) := by
  unfold State.makeMissing
  repeat' first
    | with_reducible exact h | with_reducible apply Keeps.ite | with_reducible apply Keeps.relocate
    | with_reducible apply Keeps.raise | exact rfl | exact fun _ => rfl | exact fun _ _ => rfl
    | exact fun _ _ => Or.inr rfl
    | split | dsimp only

theorem Keeps.raiseErrors (h : Keeps L s t) {e : Nat} : Keeps L s (t.raiseErrors e) := by
  unfold State.raiseErrors; split
  · exact h
  · rename_i v hv; exact h.setVol hv rfl (fun _ => rfl)

theorem Keeps.loseFrom (h : Keeps L s t) {e : Nat} {l : Loc} : Keeps L s (t.loseFrom e l) := by
  unfold State.loseFrom
  repeat' first
    | with_reducible exact h | with_reducible apply Keeps.ite | with_reducible apply Keeps.makeMissing | exact fun _ => rfl | exact fun _ _ => rfl
    | exact fun _ _ => Or.inr rfl
    | split | dsimp only

theorem State.raise_law {e : Event} {i : Law} (k : s.law i) : (s.raise e).law i := by cases i <;> exact k

theorem State.gripper_nameGripper {a b : ArmId} {g : Gripper} :
    ((s.nameGripper a g).arm b).gripper = if a = b then g else (s.arm b).gripper := by
  cases a <;> cases b <;> rfl

theorem State.paired_nameGripper {a : ArmId} {g : Gripper} (h : ∀ x, (s.arm a).gripper ≠ .volume x) (hg : ∀ x, g ≠ .volume x)
    (k : s.law .paired) : (s.nameGripper a g).law .paired := by
  have hl : ∀ x, (s.nameGripper a g).locOf x = s.locOf x := fun x => by cases a <;> rfl
  have hd : ∀ d, (s.nameGripper a g).drive d = s.drive d := fun d => by cases a <;> rfl
  refine ⟨fun b x => ?_, fun d x => ?_⟩
  · rw [hl, State.gripper_nameGripper]
    split
    · rename_i c; subst c
      rw [← k.1 a x]
      exact iff_of_false (hg x) (h x)
    · exact k.1 b x
  · rw [hl, hd]; exact k.2 d x

/-- A volume lost from where the directory of a paired part records it is MISSING. -/
theorem State.loseFrom_eq {e : Nat} {l : Loc} (h : s.locOf e = some l) (hl : l ≠ .missing) :
    s.loseFrom e l = (s.relocate e .missing).raise .volumeLost := by
  have hv : ∃ v, s.vol? e = some v ∧ v.loc = l := Option.map_eq_some_iff.mp h
  obtain ⟨v, hv, rfl⟩ := hv
  simp [State.loseFrom, State.makeMissing, hv, hl]

theorem State.setGripper_keeps {a : ArmId} {g : Gripper} (hg : ∀ x, g ≠ .volume x) (k : s.law .paired) :
    (s.setGripper a g).law .paired := by
  unfold State.setGripper
  split
  · rename_i e he
    have hl := (k.1 a e).mp he
    rw [State.loseFrom_eq hl (by simp)]
    obtain ⟨v, hv, vl⟩ : ∃ v, s.vol? e = some v ∧ v.loc = .inArm a := Option.map_eq_some_iff.mp hl
    have n := State.relocate_names (dest := .missing) hv k
    refine State.paired_nameGripper (fun x q => ?_) hg (State.raise_law (State.paired_relocate rfl k))
    by_cases hx : x = e
    · subst hx
      exact absurd ((n.2.1 a).mp q).2 (by simp)
    · have := (n.1 a x hx).mp q
      rw [← k.1 a x, he] at this
      exact hx (Gripper.volume.inj this).symm
  · rename_i he; exact State.paired_nameGripper (by simp [he]) hg k
  · rename_i he; exact State.paired_nameGripper (by simp [he]) hg k

theorem Keeps.setGripper (h : Keeps L s t) {a : ArmId} {g : Gripper} (hg : ∀ x, g ≠ .volume x) : Keeps L s (t.setGripper a g) := by
  refine Keeps.mend (i := .paired) ?_ (fun hi k => State.setGripper_keeps hg (h.laws _ hi k))
  have h := h.but (i := .paired)
  unfold State.setGripper
  repeat' first
    | with_reducible exact h | with_reducible apply Keeps.nameGripper
    | with_reducible apply Keeps.loseFrom | exact fun c => without_self c
    | split | dsimp only

/-- The gripper that another reel has left, or that already names the volume. -/
theorem State.setGripper_free {a : ArmId} {g : Gripper} (hg : ∀ x, g ≠ .volume x) (x : Nat) :
    ((s.setGripper a g).arm a).gripper ≠ .volume x := by
  have key : ∀ u : State, ((u.nameGripper a g).arm a).gripper = g := fun u => by rw [State.gripper_nameGripper]; simp
  unfold State.setGripper
  split <;> rw [key] <;> exact hg x

theorem State.raise_vol {e : Event} {x : Nat} : (s.raise e).vol? x = s.vol? x := rfl

theorem State.nameGripper_vol {a : ArmId} {g : Gripper} {x : Nat} : (s.nameGripper a g).vol? x = s.vol? x := by cases a <;> rfl

theorem State.relocate_vol {e x : Nat} {dest : Loc} : ((s.relocate e dest).vol? x).isSome = (s.vol? x).isSome := by
  cases hv : s.vol? e with
  | none => rw [State.relocate_none hv]
  | some v =>
    have := State.locOf_relocate (x := x) (dest := dest) hv
    have e1 := congrArg Option.isSome this
    simp only [State.locOf, Option.isSome_map] at e1
    rw [e1]
    split
    · rename_i c; subst c; simp [hv]
    · simp

theorem State.loseFrom_vol {e x : Nat} {l : Loc} : ((s.loseFrom e l).vol? x).isSome = (s.vol? x).isSome := by
  unfold State.loseFrom State.makeMissing
  repeat' split
  · rw [State.raise_vol, State.relocate_vol]
  · rfl
  · rfl

theorem State.setGripper_vol {a : ArmId} {g : Gripper} {x : Nat} : ((s.setGripper a g).vol? x).isSome = (s.vol? x).isSome := by
  unfold State.setGripper
  split <;> rw [State.nameGripper_vol]
  rw [State.loseFrom_vol]

theorem State.takeInArm_keeps {a : ArmId} {e : Nat} (k : s.law .paired) : (s.takeInArm a e).law .paired := by
  unfold State.takeInArm
  split
  · exact State.setGripper_keeps (by simp) k
  · rename_i w hw
    have hu : (if (s.arm a).gripper = .volume e then s else s.setGripper a .unknown).law .paired ∧
        (∃ v, (if (s.arm a).gripper = .volume e then s else s.setGripper a .unknown).vol? e = some v) ∧
        ∀ x, x ≠ e → ((if (s.arm a).gripper = .volume e then s else s.setGripper a .unknown).arm a).gripper ≠ .volume x := by
      split
      · rename_i c
        exact ⟨k, ⟨w, hw⟩, fun x hx q => hx (Gripper.volume.inj (c.symm.trans q)).symm⟩
      · refine ⟨State.setGripper_keeps (by simp) k, Option.isSome_iff_exists.mp ?_, fun x _ => State.setGripper_free (by simp) x⟩
        rw [State.setGripper_vol, hw]; rfl
    generalize (if (s.arm a).gripper = .volume e then s else s.setGripper a .unknown) = u at hu
    obtain ⟨ku, ⟨v, hv⟩, hx⟩ := hu
    have n := State.relocate_names (dest := .inArm a) hv ku
    have hl : ∀ x, ((u.relocate e (.inArm a)).nameGripper a (.volume e)).locOf x = (u.relocate e (.inArm a)).locOf x :=
      fun x => by cases a <;> rfl
    have hd : ∀ d, ((u.relocate e (.inArm a)).nameGripper a (.volume e)).drive d = (u.relocate e (.inArm a)).drive d :=
      fun d => by cases a <;> rfl
    refine ⟨fun b x => ?_, fun d x => ?_⟩
    · rw [hl, State.locOf_relocate hv, State.gripper_nameGripper]
      by_cases hxe : x = e
      · subst hxe
        by_cases hb : a = b
        · subst hb; simp
        · have := n.2.1 b
          simp [hb, this]
      · by_cases hb : a = b
        · subst hb
          simp only [if_true, hxe, if_false, ← ku.1 a x, Gripper.volume.injEq]
          exact iff_of_false (fun q => hxe q.symm) (hx x hxe)
        · simp only [hb, if_false, hxe]; exact n.1 b x hxe
    · rw [hl, hd, State.locOf_relocate hv]
      by_cases hxe : x = e
      · subst hxe; rw [n.2.2.2 d]; simp
      · simp only [hxe, if_false]; exact n.2.2.1 d x hxe

theorem Keeps.takeInArm (h : Keeps L s t) {a : ArmId} {e : Nat} : Keeps L s (t.takeInArm a e) := by
  refine Keeps.mend (i := .paired) ?_ (fun hi k => State.takeInArm_keeps (h.laws _ hi k))
  have h := h.but (i := .paired)
  unfold State.takeInArm
  repeat' first
    | with_reducible exact h | with_reducible apply Keeps.ite | with_reducible apply Keeps.nameGripper
    | with_reducible apply Keeps.relocateBut | with_reducible apply Keeps.setGripper | exact fun c => without_self c
    | exact fun _ q => Gripper.noConfusion q
    | split | dsimp only

theorem State.drive_updDrive {d c : Fin 16} {f : Drive → Drive} :
    (s.updDrive d f).drive c = if d = c then f (s.drive d) else s.drive c := by
  show (s.drv.drives.set d (f (s.drive d)))[c] = _
  by_cases h : d = c
  · subst h; simp
  · have : ¬ d.val = c.val := fun q => h (Fin.ext q)
    simp [h, State.drive, this]

theorem State.paired_freeDrive {d : Fin 16} (h : ∀ x, s.locOf x ≠ some (.inDrive d)) (k : s.law .paired) :
    (s.updDrive d (fun x => { x with volume := none })).law .paired := by
  refine ⟨k.1, fun c x => ?_⟩
  rw [State.drive_updDrive]
  show _ ↔ s.locOf x = some (.inDrive c)
  split
  · rename_i q; subst q
    exact iff_of_false (by simp) (h x)
  · exact k.2 c x

theorem State.clearDriveVolume_keeps {d : Fin 16} (k : s.law .paired) : (s.clearDriveVolume d).law .paired := by
  unfold State.clearDriveVolume
  split
  · rename_i e he
    have hl := (k.2 d e).mp he
    rw [State.loseFrom_eq hl (by simp)]
    obtain ⟨v, hv, vl⟩ : ∃ v, s.vol? e = some v ∧ v.loc = .inDrive d := Option.map_eq_some_iff.mp hl
    refine State.paired_freeDrive (fun x q => ?_) (State.raise_law (State.paired_relocate rfl k))
    have q : (s.relocate e .missing).locOf x = some (.inDrive d) := q
    rw [State.locOf_relocate hv] at q
    by_cases hx : x = e
    · subst hx; simp at q
    · simp only [hx, if_false] at q
      rw [← k.2 d x, he] at q
      exact hx (Option.some.inj q).symm
  · exact k

theorem Keeps.clearDriveVolume (h : Keeps L s t) {d : Fin 16} : Keeps L s (t.clearDriveVolume d) := by
  refine Keeps.mend (i := .paired) ?_ (fun hi k => State.clearDriveVolume_keeps (h.laws _ hi k))
  have h := h.but (i := .paired)
  unfold State.clearDriveVolume
  repeat' first
    | with_reducible exact h | with_reducible apply Keeps.updDrive
    | with_reducible apply Keeps.loseFrom | exact fun _ => rfl | exact fun c => without_self c
    | split | dsimp only

theorem State.clearDriveVolume_free {d : Fin 16} : ((s.clearDriveVolume d).drive d).volume = none := by
  unfold State.clearDriveVolume
  split
  · rw [State.drive_updDrive]; simp
  · assumption

theorem State.clearDriveVolume_vol {d : Fin 16} {x : Nat} : ((s.clearDriveVolume d).vol? x).isSome = (s.vol? x).isSome := by
  unfold State.clearDriveVolume
  split
  · exact State.loseFrom_vol
  · rfl

theorem State.nameOnDrive_keeps {d : Fin 16} {e : Nat} (k : s.law .paired) : (s.nameOnDrive d e).law .paired := by
  unfold State.nameOnDrive
  split
  · exact k
  · rename_i w hw
    have hu : (if (s.drive d).volume = some e then s else s.clearDriveVolume d).law .paired ∧
        (∃ v, (if (s.drive d).volume = some e then s else s.clearDriveVolume d).vol? e = some v) ∧
        ∀ x, x ≠ e → ((if (s.drive d).volume = some e then s else s.clearDriveVolume d).drive d).volume ≠ some x := by
      split
      · rename_i c
        exact ⟨k, ⟨w, hw⟩, fun x hx q => hx (Option.some.inj (c.symm.trans q)).symm⟩
      · refine ⟨State.clearDriveVolume_keeps k, Option.isSome_iff_exists.mp ?_, fun x _ => by simp [State.clearDriveVolume_free]⟩
        rw [State.clearDriveVolume_vol, hw]; rfl
    generalize (if (s.drive d).volume = some e then s else s.clearDriveVolume d) = u at hu
    obtain ⟨ku, ⟨v, hv⟩, hx⟩ := hu
    have n := State.relocate_names (dest := .inDrive d) hv ku
    refine ⟨fun b x => ?_, fun c x => ?_⟩
    · show ((u.relocate e (.inDrive d)).arm b).gripper = .volume x ↔ (u.relocate e (.inDrive d)).locOf x = _
      rw [State.locOf_relocate hv]
      by_cases hxe : x = e
      · subst hxe; rw [n.2.1 b]; simp
      · simp only [hxe, if_false]; exact n.1 b x hxe
    · rw [State.drive_updDrive]
      show _ ↔ (u.relocate e (.inDrive d)).locOf x = _
      rw [State.locOf_relocate hv]
      by_cases hxe : x = e
      · subst hxe
        by_cases hc : d = c
        · subst hc; simp
        · have := n.2.2.2 c
          simp [hc, this]
      · by_cases hc : d = c
        · subst hc
          simp only [if_true, hxe, if_false, ← ku.2 d x, Option.some.injEq]
          exact iff_of_false (fun q => hxe q.symm) (hx x hxe)
        · simp only [hc, if_false, hxe]; exact n.2.2.1 c x hxe

theorem Keeps.nameOnDrive (h : Keeps L s t) {d : Fin 16} {e : Nat} : Keeps L s (t.nameOnDrive d e) := by
  refine Keeps.mend (i := .paired) ?_ (fun hi k => State.nameOnDrive_keeps (h.laws _ hi k))
  have h := h.but (i := .paired)
  unfold State.nameOnDrive
  repeat' first
    | with_reducible exact h | with_reducible apply Keeps.ite | with_reducible apply Keeps.updDrive
    | with_reducible apply Keeps.relocateBut | with_reducible apply Keeps.clearDriveVolume | exact fun _ => rfl
    | exact fun c => without_self c
    | split | dsimp only

theorem Keeps.pickAtSlot (h : Keeps L s t) {a : ArmId} {slot e : Nat} : Keeps L s (t.pickAtSlot a slot e) := by
  unfold State.pickAtSlot
  repeat' first
    | with_reducible exact h | with_reducible apply Keeps.ite | with_reducible apply Keeps.clearFinding
    | with_reducible apply Keeps.takeInArm | exact fun _ => rfl | exact fun _ _ => rfl
    | exact fun _ _ => Or.inr rfl
    | split | dsimp only

theorem Keeps.placeAtSlot (h : Keeps L s t) {a : ArmId} {e : Nat} : Keeps L s (t.placeAtSlot a e) := by
  unfold State.placeAtSlot
  repeat' first
    | with_reducible exact h | with_reducible apply Keeps.ite | with_reducible apply Keeps.reachHome
    | with_reducible apply Keeps.setGripper | exact rfl | exact fun _ q => Gripper.noConfusion q | exact fun _ => rfl | exact fun _ _ => rfl
    | exact fun _ _ => Or.inr rfl
    | split | dsimp only

theorem Keeps.placeAtDrive (h : Keeps L s t) {a : ArmId} {d : Fin 16} {e : Nat} : Keeps L s (t.placeAtDrive a d e) := by
  unfold State.placeAtDrive
  repeat' first
    | with_reducible exact h | with_reducible apply Keeps.ite | with_reducible apply Keeps.setGripper
    | with_reducible apply Keeps.nameOnDrive | exact rfl | exact fun _ q => Gripper.noConfusion q | exact fun _ => rfl | exact fun _ _ => rfl
    | exact fun _ _ => Or.inr rfl
    | split | dsimp only

theorem Keeps.pickAtDrive (h : Keeps L s t) {a : ArmId} {d : Fin 16} : Keeps L s (t.pickAtDrive a d) := by
  unfold State.pickAtDrive
  repeat' first
    | with_reducible exact h | with_reducible apply Keeps.ite | with_reducible apply Keeps.clearDriveVolume
    | with_reducible apply Keeps.takeInArm | with_reducible apply Keeps.setGripper | exact rfl | exact fun _ q => Gripper.noConfusion q | exact fun _ => rfl | exact fun _ _ => rfl
    | exact fun _ _ => Or.inr rfl
    | split | dsimp only

theorem Keeps.placeAtStation (h : Keeps L s t) {a : ArmId} {p : Fin 8} : Keeps L s (t.placeAtStation a p) := by
  unfold State.placeAtStation
  repeat' first
    | with_reducible exact h | with_reducible apply Keeps.ite | with_reducible apply Keeps.relocate
    | with_reducible apply Keeps.updStation | with_reducible apply Keeps.setGripper | exact rfl | exact fun _ q => Gripper.noConfusion q | exact fun _ => rfl | exact fun _ _ => rfl
    | exact fun _ _ => Or.inr rfl
    | split | dsimp only

theorem Keeps.pickAtStation (h : Keeps L s t) {a : ArmId} {p : Fin 8} {r : Reading} : Keeps L s (t.pickAtStation a p r) := by
  unfold State.pickAtStation
  repeat' first
    | with_reducible exact h | with_reducible apply Keeps.ite | with_reducible apply Keeps.clearStationVolume
    | with_reducible apply Keeps.takeInArm | with_reducible apply Keeps.setGripper | exact rfl | exact fun _ q => Gripper.noConfusion q | exact fun _ => rfl | exact fun _ _ => rfl
    | exact fun _ _ => Or.inr rfl
    | split | dsimp only

/-- One of two acts with what they report. -/
theorem Keeps.iteFst {α : Type} {c : Prop} [Decidable c] {u v : State × α} (h : Keeps L s u.1) (k : Keeps L s v.1) :
    Keeps L s (if c then u else v).1 := by
  split <;> assumption

theorem Keeps.foundAt (h : Keeps L s t) {slot : Nat} {r : Reading} : Keeps L s (t.foundAt slot r).1 := by
  unfold State.foundAt
  split
  · exact h
  · exact h.setFinding
  · split
    · exact h.setFinding
    · split
      · exact h.setFinding
      · exact Keeps.iteFst h.reachHome (Keeps.iteFst (h.relocate rfl).setFinding h.setFinding)

theorem Keeps.findingGone (h : Keeps L s t) {slot : Nat} {f : Finding} : Keeps L s (t.findingGone slot f).1 := by
  unfold State.findingGone
  split
  · exact h.clearFinding
  · split
    · split
      · exact h.clearFinding.makeMissing
      · exact h.clearFinding
    · exact h.clearFinding

theorem Keeps.slotReading (h : Keeps L s t) {slot : Nat} {r : Reading} : Keeps L s (t.slotReading slot r).1 := by
  unfold State.slotReading
  split
  · split
    · exact h
    · simp only []
      split
      · exact h.makeMissing
      · exact h.makeMissing.foundAt
  · exact h.foundAt
  · exact h.foundAt
  · split
    · exact h
    · exact h.findingGone.foundAt

theorem Keeps.pickLoses (h : Keeps L s t) {slot e : Nat} : Keeps L s (t.pickLoses slot e) := by
  unfold State.pickLoses
  split
  · exact h.findingGone.makeMissing
  · exact h.makeMissing

theorem Keeps.setRing (h : Keeps L s t) {e : Nat} {protect : Bool} : Keeps L s (t.setRing e protect) := by
  unfold State.setRing; split
  · rename_i v hv; exact h.setVol hv rfl (fun _ => rfl)
  · exact h

theorem Keeps.countMount (h : Keeps L s t) {e : Nat} {protect : Bool} {density : Option Density} {scratch : Bool} :
    Keeps L s (t.countMount e protect density scratch) := by
  unfold State.countMount; split
  · rename_i v hv; exact h.setVol hv rfl (fun _ => rfl)
  · exact h

theorem Keeps.nameByHand (h : Keeps L s t) {d : Fin 16} {e : Nat} : Keeps L s (t.nameByHand d e) := h.nameOnDrive

/-! ### The Accounting Unit -/

theorem Keeps.countGrant (h : Keeps L s t) {i : Nat} : Keeps L s (t.countGrant i) := by
  have k : Keeps L s (t.updAccount i (fun a => { a with inUse := a.inUse + 1 })) := h.updAccount (fun _ => rfl)
  exact k.setAcc (List.prefix_refl _) (fun c => ⟨c, rfl⟩)

theorem Keeps.countClaimEnd (h : Keeps L s t) {i : Nat} : Keeps L s (t.countClaimEnd i) := by
  unfold State.countClaimEnd
  repeat' first
    | with_reducible exact h | with_reducible apply Keeps.ite | with_reducible apply Keeps.updAccount
    | with_reducible apply Keeps.notify | exact fun _ => rfl | exact fun _ _ => rfl
    | exact fun _ _ => Or.inr rfl
    | split | dsimp only

theorem Keeps.putRecord (h : Keeps L s t) {r : AcctRecord} : Keeps L s (t.putRecord r) := by
  have k := h.setAcc (x := { t.acc with
    records := t.acc.records ++ [r], reserved := t.acc.reserved - 1, nextSeq := t.acc.nextSeq + 1 })
    (List.prefix_append ..) (fun c => ⟨c, rfl⟩)
  unfold State.putRecord
  apply Keeps.updDrive
  · apply Keeps.updAccount
    · exact k
    · exact fun _ => rfl
  · exact fun _ => rfl
  · exact fun _ _ => rfl

theorem Keeps.recordClaim (h : Keeps L s t) {d : Fin 16} {session : Option Session} {outcome : RecOutcome} :
    Keeps L s (t.recordClaim d session outcome) := by
  unfold State.recordClaim
  repeat' first
    | with_reducible exact h | with_reducible apply Keeps.ite | with_reducible apply Keeps.putRecord
    | with_reducible apply Keeps.updDrive | exact fun _ => rfl | exact fun _ _ => rfl
    | exact fun _ _ => Or.inr rfl
    | split | dsimp only

theorem Keeps.countScratchIssue (h : Keeps L s t) {i : Nat} : Keeps L s (t.countScratchIssue i) := by
  unfold State.countScratchIssue
  repeat' first
    | with_reducible exact h | with_reducible apply Keeps.ite | with_reducible apply Keeps.updAccount | exact fun _ => rfl | exact fun _ _ => rfl
    | exact fun _ _ => Or.inr rfl
    | split | dsimp only

/-! ### The Attention Generator -/

theorem Keeps.setAttnUnit (h : Keeps L s t) {o : Output} {u : AttnUnit} : Keeps L s (t.setAttnUnit o u) := by
  cases o <;> exact h.setAtt

theorem Keeps.followUnit (h : Keeps L s t) {entered : Option Nat} {o : Output} : Keeps L s (t.followUnit entered o) := by
  unfold State.followUnit
  repeat' first
    | with_reducible exact h | with_reducible apply Keeps.ite | with_reducible apply Keeps.setAttnUnit | exact fun _ => rfl | exact fun _ _ => rfl
    | exact fun _ _ => Or.inr rfl
    | split | dsimp only

theorem Keeps.attend (h : Keeps L s t) {entered : Option Nat} : Keeps L s (t.attend entered) := by
  unfold State.attend
  repeat' first
    | with_reducible exact h | with_reducible apply Keeps.ite | with_reducible apply Keeps.followUnit | exact fun _ => rfl | exact fun _ _ => rfl
    | exact fun _ _ => Or.inr rfl
    | split | dsimp only

theorem Keeps.phaseExpiry (h : Keeps L s t) {o : Output} : Keeps L s (t.phaseExpiry o) := by
  unfold State.phaseExpiry
  repeat' first
    | with_reducible exact h | with_reducible apply Keeps.ite | with_reducible apply Keeps.setAttnUnit | exact fun _ => rfl | exact fun _ _ => rfl
    | exact fun _ _ => Or.inr rfl
    | split | dsimp only

theorem Keeps.restartIdleUnit (h : Keeps L s t) {o : Output} : Keeps L s (t.restartIdleUnit o) := by
  unfold State.restartIdleUnit
  repeat' first
    | with_reducible exact h | with_reducible apply Keeps.ite | with_reducible apply Keeps.setAttnUnit | exact fun _ => rfl | exact fun _ _ => rfl
    | exact fun _ _ => Or.inr rfl
    | split | dsimp only

/-! ### The Prompt Unit -/

theorem Keeps.issue (h : Keeps L s t) {kind : PromptKind} {names : Names} (hl : t.pr.list.length < max s.pr.list.length 16)
    (hk : L .prompted → kind.requestRelated = false) : Keeps L s (t.issue kind names).1 := by
  unfold State.issue
  dsimp only
  apply Keeps.attend
  apply Keeps.raise
  apply Keeps.setPr h
  · rfl
  · rw [List.length_append]; exact hl
  · exact Nat.le_max_left _ _
  · intro hi
    simp [State.relatedPrompts, List.filter_append, hk hi]

theorem Keeps.askRequestPrompt (h : Keeps L s t) {kind : PromptKind} {names : Names} {x : State × Nat} (hL : ¬ L .prompted)
    (e : t.askRequestPrompt kind names = some x) : Keeps L s x.1 := by
  unfold State.askRequestPrompt at e
  split at e
  · cases e
  · rename_i hc
    have hl : t.pr.list.length < max s.pr.list.length 16 := by simp only [Config.maxPrompts] at hc; omega
    have k := h.issue (kind := kind) (names := names) hl (fun c => absurd c hL)
    generalize t.issue kind names = y at e k
    cases e
    exact Keeps.ite k.notify k

theorem State.equipmentNames_related {e : Equipment} : (s.equipmentNames e).1.requestRelated = false := by cases e <;> rfl

theorem Keeps.askEquipment (h : Keeps L s t) {e : Equipment} : Keeps L s (t.askEquipment e) := by
  unfold State.askEquipment
  split
  · exact h
  · split
    · rename_i hc
      have k := h.issue (kind := (t.equipmentNames e).1) (names := (t.equipmentNames e).2)
        (by simp only [Config.maxPrompts] at hc; omega) (fun _ => State.equipmentNames_related)
      generalize t.equipmentNames e = y at k
      exact k
    · exact h.setPr rfl h.prompts (Nat.le_max_left _ _) (fun _ => rfl)

theorem Keeps.testOwed (h : Keeps L s t) {l : List Equipment} (hl : t.pr.list.length < max s.pr.list.length 16) :
    Keeps L s (t.testOwed l) := by
  induction l with
  | nil => exact h.setPr rfl h.prompts (Nat.le_max_left _ _) (fun _ => rfl)
  | cons e rest ih =>
    unfold State.testOwed
    split
    · have k : Keeps L s { t with pr := { t.pr with owed := rest } } := h.setPr rfl h.prompts (Nat.le_max_left _ _) (fun _ => rfl)
      have k := fun names => k.issue (kind := (State.equipmentNames { t with pr := { t.pr with owed := rest } } e).1) (names := names) hl
        (fun _ => State.equipmentNames_related)
      generalize { t with pr := { t.pr with owed := rest } } = u at k
      exact k _
    · exact ih

theorem Keeps.dropOwed (h : Keeps L s t) {e : Equipment} : Keeps L s (t.dropOwed e) := h.setPr rfl h.prompts (Nat.le_max_left _ _) (fun _ => rfl)

theorem Keeps.queueWithdrawal (h : Keeps L s t) {n : Nat} : Keeps L s (t.queueWithdrawal n) := by
  refine h.setPr rfl h.prompts ?_ (fun _ => rfl)
  dsimp only
  split
  · simp only [List.length_tail, List.length_append, List.length_singleton]; omega
  · rename_i hc
    simp only [List.length_append, List.length_singleton, Config.maxWithdrawals] at *; omega

@[simp] theorem State.attend_pr {l : Option Nat} : (s.attend l).pr = s.pr := by
  have one : ∀ (u : State) (o : Output), (u.followUnit l o).pr = u.pr := by
    intro u o
    unfold State.followUnit
    dsimp only
    split
    · cases o <;> rfl
    · split
      · cases o <;> rfl
      · rfl
  unfold State.attend
  rw [one, one]

@[simp] theorem State.queueWithdrawal_list {n : Nat} : (s.queueWithdrawal n).pr.list = s.pr.list := rfl

/-- A prompt off the list, and its request PROMPTED no more, keep the pairing of requests and prompts (R55). -/
theorem State.prompted_leave {n : Nat} (k : s.law .prompted) :
    (({ s with pr := { s.pr with list := s.pr.list.filter (fun q => q.number != n) } }).unprompt n).law .prompted := by
  obtain ⟨k0, k1, k2, k3, k4⟩ := k
  have ha : (({ s with pr := { s.pr with list := s.pr.list.filter (fun q => q.number != n) } }).unprompt n).requestsAsked =
      s.requestsAsked := by
    simp only [State.requestsAsked, State.unprompt, List.map_map]
    refine List.map_congr_left (fun r _ => ?_)
    simp only [Function.comp]
    split <;> rfl
  have hr : State.relatedPrompts (({ s with pr := { s.pr with list := s.pr.list.filter (fun q => q.number != n) } }).unprompt n) =
      s.relatedPrompts.filter (fun q => q.number != n) := by
    simp only [State.relatedPrompts, State.unprompt, List.filter_filter]
    refine List.filter_congr (fun x _ => ?_)
    exact Bool.and_comm _ _
  have hresumes : ∀ r : Request, r.resumes ≠ .prompted := by
    intro r
    unfold Request.resumes
    split
    · simp
    · simp
    · assumption
  have back : ∀ r ∈ (({ s with pr := { s.pr with list := s.pr.list.filter (fun q => q.number != n) } }).unprompt n).ms.queue,
      r.state = .prompted → r ∈ s.ms.queue ∧ r.prompt ≠ some n := by
    intro r hr hs
    obtain ⟨q, hq, rfl⟩ := List.mem_map.mp hr
    by_cases hc : q.prompt = some n ∧ q.state = .prompted
    · rw [if_pos hc] at hs
      exact absurd hs (hresumes q)
    · rw [if_neg hc] at hs ⊢
      exact ⟨hq, fun w => hc ⟨w, hs⟩⟩
  refine ⟨by rw [ha]; exact k0, ?_, ?_, ?_, ?_⟩
  · intro r hr' hs
    obtain ⟨hq, hn⟩ := back r hr' hs
    obtain ⟨p, hp, tp, np⟩ := k1 r hq hs
    refine ⟨p, hr ▸ List.mem_filter.mpr ⟨hp, ?_⟩, tp, np⟩
    have : p.number ≠ n := fun c => hn (c ▸ np)
    simpa using this
  · intro p hp
    rw [hr] at hp
    obtain ⟨hp, hn⟩ := List.mem_filter.mp hp
    have hn : p.number ≠ n := by simpa using hn
    obtain ⟨r, hq, tr, nr, sr⟩ := k2 p hp
    refine ⟨r, List.mem_map.mpr ⟨r, hq, ?_⟩, tr, nr, sr⟩
    rw [if_neg]
    rw [nr]
    exact fun c => hn (Option.some.inj c.1)
  · rw [hr]
    exact k3.sublist (List.filter_sublist.map _)
  · intro x hx r hr' tr hs
    exact k4 x hx r (back r hr' hs).1 tr hs

theorem Keeps.unprompt (h : Keeps L s t) {n : Nat} (hL : ¬ L .prompted) : Keeps L s (t.unprompt n) := by
  refine h.setMs ?_ (fun _ r hr => ?_) (fun c => absurd c hL)
  · simp only [List.map_map]
    refine List.map_congr_left (fun r _ => ?_)
    simp only [Function.comp]
    split <;> rfl
  · obtain ⟨q, hq, rfl⟩ := List.mem_map.mp hr
    refine ⟨q, hq, ?_⟩
    split <;> exact ⟨rfl, .inr rfl⟩

theorem Keeps.leaveList (h : Keeps L s t) {n : Nat} {line : Bool} : Keeps L s (t.leaveList n line) := by
  unfold State.leaveList
  split
  · exact h
  · rename_i p hp
    have hlen : (t.pr.list.filter (fun q => q.number != n)).length < t.pr.list.length := by
      refine List.length_filter_lt_length_iff_exists.mpr ?_
      have hm := List.mem_of_find?_eq_some hp
      have hn := List.find?_some hp
      exact ⟨p, hm, by simpa using hn⟩
    have hb := h.prompts
    simp only [Config.maxPrompts] at hb
    have k : Keeps L s (({ t with pr := { t.pr with list := t.pr.list.filter (fun q => q.number != n) } }).unprompt n) := by
      refine Keeps.mend (i := .prompted) (Keeps.unprompt ?_ (fun c => without_self c)) (fun hi c => State.prompted_leave (h.laws _ hi c))
      exact h.but.setPr rfl (by simp only []; omega) (Nat.le_max_left _ _) (fun c => without_self c)
    have hu : ((({ t with pr := { t.pr with list := t.pr.list.filter (fun q => q.number != n) } }).unprompt n)).pr.list.length <
      max s.pr.list.length 16 := by
      show (t.pr.list.filter (fun q => q.number != n)).length < _
      omega
    generalize (({ t with pr := { t.pr with list := t.pr.list.filter (fun q => q.number != n) } } : State).unprompt n) = u at k hu
    dsimp only
    have k := (k.raise (e := .promptClosed)).attend (entered := none)
    have hu : ((u.raise .promptClosed).attend none).pr.list.length < max s.pr.list.length 16 := by simpa using hu
    generalize (u.raise .promptClosed).attend none = v at k hu
    have k : Keeps L s (if line = true then v.queueWithdrawal n else v) := Keeps.ite k.queueWithdrawal k
    have hu : (if line = true then v.queueWithdrawal n else v).pr.list.length < max s.pr.list.length 16 := by
      split
      · simpa using hu
      · exact hu
    generalize (if line = true then v.queueWithdrawal n else v) = w at k hu
    split
    · exact k.notify.testOwed (by simpa using hu)
    · exact k.testOwed hu

theorem Keeps.withdraw (h : Keeps L s t) {n : Nat} : Keeps L s (t.withdraw n) := by
  unfold State.withdraw
  repeat' first
    | with_reducible exact h | with_reducible apply Keeps.ite | with_reducible apply Keeps.leaveList | exact fun _ => rfl | exact fun _ _ => rfl
    | exact fun _ _ => Or.inr rfl
    | split | dsimp only

theorem Keeps.endEquipment (h : Keeps L s t) {e : Equipment} : Keeps L s (t.endEquipment e) := by
  unfold State.endEquipment
  repeat' first
    | with_reducible exact h | with_reducible apply Keeps.ite | with_reducible apply Keeps.withdraw
    | with_reducible apply Keeps.dropOwed | exact fun _ => rfl | exact fun _ _ => rfl
    | exact fun _ _ => Or.inr rfl
    | split | dsimp only

theorem Keeps.restartPrompt (h : Keeps L s t) {n : Nat} {sub : SubState} : Keeps L s (t.restartPrompt n sub) := by
  unfold State.restartPrompt
  repeat' first
    | with_reducible exact h | with_reducible apply Keeps.ite | with_reducible apply Keeps.updPrompt
    | with_reducible apply Keeps.attend | exact fun _ => rfl | exact fun _ _ => rfl
    | exact fun _ _ => Or.inr rfl
    | split | dsimp only

theorem Keeps.promptPosition (h : Keeps L s t) {n : Nat} {p : Fin 8} : Keeps L s (t.promptPosition n p) := by
  unfold State.promptPosition
  repeat' first
    | with_reducible exact h | with_reducible apply Keeps.ite | with_reducible apply Keeps.updPrompt | exact fun _ => rfl | exact fun _ _ => rfl
    | exact fun _ _ => Or.inr rfl
    | split | dsimp only

theorem Keeps.ackPrompt (h : Keeps L s t) {n : Nat} : Keeps L s (t.ackPrompt n) := by
  unfold State.ackPrompt
  repeat' first
    | with_reducible exact h | with_reducible apply Keeps.ite | with_reducible apply Keeps.updPrompt
    | with_reducible apply Keeps.attend | exact fun _ => rfl | exact fun _ _ => rfl
    | exact fun _ _ => Or.inr rfl
    | split | dsimp only

theorem Keeps.ackAllPrompts (h : Keeps L s t) : Keeps L s t.ackAllPrompts := by
  unfold State.ackAllPrompts
  apply Keeps.attend
  apply Keeps.setPr h
  · rfl
  · rw [List.length_map]; exact h.prompts
  · exact Nat.le_max_left _ _
  · exact fun _ => naming_map (f := Prompt.acknowledge) (fun _ => rfl) _

theorem Keeps.listPrompts (h : Keeps L s t) : Keeps L s t.listPrompts := by
  refine h.setPr rfl ?_ (Nat.le_max_left _ _) (fun _ => naming_map (f := fun p => { p with lineOwed := true }) (fun _ => rfl) _)
  rw [List.length_map]; exact h.prompts

theorem Keeps.escalate (h : Keeps L s t) {p : Prompt} : Keeps L s (t.escalate p) := by
  unfold State.escalate
  repeat' first
    | with_reducible exact h | with_reducible apply Keeps.ite | with_reducible apply Keeps.updPrompt
    | with_reducible apply Keeps.attend | exact fun _ => rfl | exact fun _ _ => rfl
    | exact fun _ _ => Or.inr rfl
    | split | dsimp only

theorem Keeps.endEscalation (h : Keeps L s t) {p : Prompt} : Keeps L s (t.endEscalation p) := by
  unfold State.endEscalation
  repeat' first
    | with_reducible exact h | with_reducible apply Keeps.ite | with_reducible apply Keeps.updPrompt | exact fun _ => rfl | exact fun _ _ => rfl
    | exact fun _ _ => Or.inr rfl
    | split | dsimp only

end Sys2Proof.Machine
end

