-- ==== Sys2Proof/Laws/KeepsDrives.lean ====
section
/-! SUPPORT. What every operation inside a step keeps (Laws/Keeps.lean): the Drive Interface and the rail. -/

set_option linter.unusedTactic false
set_option linter.unreachableTactic false

namespace Sys2Proof.Machine

variable {s t : State} {L : Law → Prop}

/-! ### The Drive Interface -/

theorem Keeps.startPulse (h : Keeps L s t) {d : Fin 16} {k : PulseKind} : Keeps L s (t.startPulse d k) := by
  unfold State.startPulse
  repeat' first
    | with_reducible exact h | with_reducible apply Keeps.ite | with_reducible apply Keeps.updDrive
    | exact fun _ => rfl | exact fun _ _ => rfl | exact fun _ _ => Or.inr rfl
    | split | dsimp only

theorem Keeps.setDriveState (h : Keeps L s t) {d : Fin 16} {st : DriveState} : Keeps L s (t.setDriveState d st) := by
  unfold State.setDriveState
  repeat' first
    | with_reducible exact h | with_reducible apply Keeps.ite | with_reducible apply Keeps.updDrive
    | exact fun _ => rfl | exact fun _ _ => rfl | exact fun _ _ => Or.inr rfl
    | split | dsimp only

theorem Keeps.updClaim (h : Keeps L s t) {d : Fin 16} {f : Claim → Claim} : Keeps L s (t.updClaim d f) := by
  unfold State.updClaim
  repeat' first
    | with_reducible exact h | with_reducible apply Keeps.ite | with_reducible apply Keeps.updDrive
    | exact fun _ => rfl | exact fun _ _ => rfl | exact fun _ _ => Or.inr rfl
    | split | dsimp only

theorem Keeps.startReleaseTimer (h : Keeps L s t) {d : Fin 16} : Keeps L s (t.startReleaseTimer d) := by
  unfold State.startReleaseTimer
  repeat' first
    | with_reducible exact h | with_reducible apply Keeps.ite | with_reducible apply Keeps.updDrive
    | exact fun _ => rfl | exact fun _ _ => rfl | exact fun _ _ => Or.inr rfl
    | split | dsimp only

theorem Keeps.startLoadTimer (h : Keeps L s t) {d : Fin 16} {expiries : Nat} : Keeps L s (t.startLoadTimer d expiries) := by
  unfold State.startLoadTimer
  repeat' first
    | with_reducible exact h | with_reducible apply Keeps.ite | with_reducible apply Keeps.updDrive
    | exact fun _ => rfl | exact fun _ _ => rfl | exact fun _ _ => Or.inr rfl
    | split | dsimp only

theorem Keeps.stopLoadTimer (h : Keeps L s t) {d : Fin 16} : Keeps L s (t.stopLoadTimer d) := by
  unfold State.stopLoadTimer
  repeat' first
    | with_reducible exact h | with_reducible apply Keeps.ite | with_reducible apply Keeps.updDrive
    | exact fun _ => rfl | exact fun _ _ => rfl | exact fun _ _ => Or.inr rfl
    | split | dsimp only

theorem Keeps.stopLabelTimer (h : Keeps L s t) {d : Fin 16} : Keeps L s (t.stopLabelTimer d) := by
  unfold State.stopLabelTimer
  repeat' first
    | with_reducible exact h | with_reducible apply Keeps.ite | with_reducible apply Keeps.updDrive
    | exact fun _ => rfl | exact fun _ _ => rfl | exact fun _ _ => Or.inr rfl
    | split | dsimp only

theorem Keeps.startLabelTimer (h : Keeps L s t) {d : Fin 16} : Keeps L s (t.startLabelTimer d) := by
  unfold State.startLabelTimer
  repeat' first
    | with_reducible exact h | with_reducible apply Keeps.ite | with_reducible apply Keeps.updDrive
    | exact fun _ => rfl | exact fun _ _ => rfl | exact fun _ _ => Or.inr rfl
    | split | dsimp only

theorem Keeps.restDrive (h : Keeps L s t) {d : Fin 16} : Keeps L s (t.restDrive d) := by
  unfold State.restDrive
  repeat' first
    | with_reducible exact h | with_reducible apply Keeps.ite | with_reducible apply Keeps.setDriveState
    | with_reducible apply Keeps.notify
    | exact fun _ => rfl | exact fun _ _ => rfl | exact fun _ _ => Or.inr rfl
    | split | dsimp only

theorem Keeps.dropClaimed (h : Keeps L s t) {tag : Option Half} : Keeps L s (t.dropClaimed tag) := by
  unfold State.dropClaimed
  repeat' first
    | with_reducible exact h | with_reducible apply Keeps.ite | with_reducible apply Keeps.updRequest
    | exact fun _ => rfl | exact fun _ _ => rfl | exact fun _ _ => Or.inr rfl
    | split | dsimp only

theorem Keeps.endClaim (h : Keeps L s t) {d : Fin 16} : Keeps L s (t.endClaim d) := by
  unfold State.endClaim
  repeat' first
    | with_reducible exact h | with_reducible apply Keeps.ite | with_reducible apply Keeps.updDrive
    | with_reducible apply Keeps.countClaimEnd | with_reducible apply Keeps.dropClaimed
    | exact fun _ => rfl | exact fun _ _ => rfl | exact fun _ _ => Or.inr rfl
    | split | dsimp only

theorem Keeps.enterCheck (h : Keeps L s t) {d : Fin 16} : Keeps L s (t.enterCheck d) := by
  unfold State.enterCheck
  repeat' first
    | with_reducible exact h | with_reducible apply Keeps.ite | with_reducible apply Keeps.updDrive
    | with_reducible apply Keeps.askEquipment
    | exact fun _ => rfl | exact fun _ _ => rfl | exact fun _ _ => Or.inr rfl
    | split | dsimp only

theorem Keeps.completeSession (h : Keeps L s t) {d : Fin 16} : Keeps L s (t.completeSession d) := by
  unfold State.completeSession
  repeat' first
    | with_reducible exact h | with_reducible apply Keeps.ite | with_reducible apply Keeps.recordClaim
    | with_reducible apply Keeps.updDrive
    | exact fun _ => rfl | exact fun _ _ => rfl | exact fun _ _ => Or.inr rfl
    | split | dsimp only

theorem Keeps.closeSession (h : Keeps L s t) {d : Fin 16} : Keeps L s (t.closeSession d) := by
  unfold State.closeSession
  repeat' first
    | with_reducible exact h | with_reducible apply Keeps.ite | with_reducible apply Keeps.completeSession
    | with_reducible apply Keeps.updDrive
    | exact fun _ => rfl | exact fun _ _ => rfl | exact fun _ _ => Or.inr rfl
    | split | dsimp only

theorem Keeps.giveUpClaim (h : Keeps L s t) {d : Fin 16} {outcome : RecOutcome} : Keeps L s (t.giveUpClaim d outcome) := by
  unfold State.giveUpClaim
  repeat' first
    | with_reducible exact h | with_reducible apply Keeps.ite | with_reducible apply Keeps.recordClaim
    | with_reducible apply Keeps.stopLoadTimer | with_reducible apply Keeps.endClaim
    | with_reducible apply Keeps.setDriveState | with_reducible apply Keeps.restDrive
    | exact fun _ => rfl | exact fun _ _ => rfl | exact fun _ _ => Or.inr rfl
    | split | dsimp only

theorem Keeps.loseClaim (h : Keeps L s t) {d : Fin 16} : Keeps L s (t.loseClaim d) := by
  unfold State.loseClaim
  repeat' first
    | with_reducible exact h | with_reducible apply Keeps.ite | with_reducible apply Keeps.recordClaim
    | with_reducible apply Keeps.stopLoadTimer | with_reducible apply Keeps.endClaim
    | with_reducible apply Keeps.setDriveState | with_reducible apply Keeps.notify
    | exact fun _ => rfl | exact fun _ _ => rfl | exact fun _ _ => Or.inr rfl
    | split | dsimp only

theorem Keeps.expectPlace (h : Keeps L s t) {d : Fin 16} : Keeps L s (t.expectPlace d) := by
  unfold State.expectPlace
  repeat' first
    | with_reducible exact h | with_reducible apply Keeps.ite | with_reducible apply Keeps.updDrive
    | exact fun _ => rfl | exact fun _ _ => rfl | exact fun _ _ => Or.inr rfl
    | split | dsimp only

theorem Keeps.takeLoad (h : Keeps L s t) {d : Fin 16} : Keeps L s (t.takeLoad d) := by
  unfold State.takeLoad
  repeat' first
    | with_reducible exact h | with_reducible apply Keeps.ite | with_reducible apply Keeps.nameByHand
    | with_reducible apply Keeps.updDrive | with_reducible apply Keeps.countMount | with_reducible apply Keeps.notify
    | exact fun _ => rfl | exact fun _ _ => rfl | exact fun _ _ => Or.inr rfl
    | split | dsimp only

theorem Keeps.unload (h : Keeps L s t) {d : Fin 16} : Keeps L s (t.unload d) := by
  unfold State.unload
  repeat' first
    | with_reducible exact h | with_reducible apply Keeps.ite | with_reducible apply Keeps.stopLabelTimer
    | with_reducible apply Keeps.startPulse | with_reducible apply Keeps.setDriveState
    | with_reducible apply Keeps.startReleaseTimer | with_reducible apply Keeps.stopLoadTimer
    | with_reducible apply Keeps.notify
    | exact fun _ => rfl | exact fun _ _ => rfl | exact fun _ _ => Or.inr rfl
    | split | dsimp only

theorem Keeps.loadPlaced (h : Keeps L s t) {d : Fin 16} : Keeps L s (t.loadPlaced d) := by
  unfold State.loadPlaced
  repeat' first
    | with_reducible exact h | with_reducible apply Keeps.ite | with_reducible apply Keeps.takeLoad
    | with_reducible apply Keeps.unload
    | exact fun _ => rfl | exact fun _ _ => rfl | exact fun _ _ => Or.inr rfl
    | split | dsimp only

theorem Keeps.oweRecover (h : Keeps L s t) {d : Fin 16} {owed : Bool} : Keeps L s (t.oweRecover d owed) := h.setSch (Nat.le_max_left _ _) (fun _ => rfl) (fun _ => rfl)

theorem Keeps.placedOnDrive (h : Keeps L s t) {d : Fin 16} : Keeps L s (t.placedOnDrive d) := by
  unfold State.placedOnDrive
  repeat' first
    | with_reducible exact h | with_reducible apply Keeps.ite | with_reducible apply Keeps.updDrive
    | with_reducible apply Keeps.notify | with_reducible apply Keeps.oweRecover | with_reducible apply Keeps.loadPlaced
    | with_reducible apply Keeps.startPulse | with_reducible apply Keeps.startLoadTimer
    | exact fun _ => rfl | exact fun _ _ => rfl | exact fun _ _ => Or.inr rfl
    | split | dsimp only

theorem Keeps.placeFailed (h : Keeps L s t) {d : Fin 16} : Keeps L s (t.placeFailed d) := by
  unfold State.placeFailed
  repeat' first
    | with_reducible exact h | with_reducible apply Keeps.ite | with_reducible apply Keeps.updDrive
    | with_reducible apply Keeps.giveUpClaim | with_reducible apply Keeps.loseClaim
    | exact fun _ => rfl | exact fun _ _ => rfl | exact fun _ _ => Or.inr rfl
    | split | dsimp only

theorem Keeps.loadFails (h : Keeps L s t) {d : Fin 16} : Keeps L s (t.loadFails d) := by
  unfold State.loadFails
  repeat' first
    | with_reducible exact h | with_reducible apply Keeps.ite | with_reducible apply Keeps.enterCheck
    | with_reducible apply Keeps.raiseErrors | with_reducible apply Keeps.notify
    | exact fun _ => rfl | exact fun _ _ => rfl | exact fun _ _ => Or.inr rfl
    | split | dsimp only

theorem Keeps.loadTimerExpiry (h : Keeps L s t) {d : Fin 16} : Keeps L s (t.loadTimerExpiry d) := by
  unfold State.loadTimerExpiry
  repeat' first
    | with_reducible exact h | with_reducible apply Keeps.ite | with_reducible apply Keeps.startPulse
    | with_reducible apply Keeps.startLoadTimer | with_reducible apply Keeps.loadFails
    | exact fun _ => rfl | exact fun _ _ => rfl | exact fun _ _ => Or.inr rfl
    | split | dsimp only

theorem Keeps.manualDone (h : Keeps L s t) {d : Fin 16} : Keeps L s (t.manualDone d) := by
  unfold State.manualDone
  repeat' first
    | with_reducible exact h | with_reducible apply Keeps.ite | with_reducible apply Keeps.takeLoad
    | with_reducible apply Keeps.startLoadTimer
    | exact fun _ => rfl | exact fun _ _ => rfl | exact fun _ _ => Or.inr rfl
    | split | dsimp only

theorem Keeps.releaseReel (h : Keeps L s t) {d : Fin 16} : Keeps L s (t.releaseReel d) := by
  unfold State.releaseReel
  repeat' first
    | with_reducible exact h | with_reducible apply Keeps.ite | with_reducible apply Keeps.updDrive
    | with_reducible apply Keeps.closeSession | with_reducible apply Keeps.setDriveState
    | with_reducible apply Keeps.notify
    | exact fun _ => rfl | exact fun _ _ => rfl | exact fun _ _ => Or.inr rfl
    | split | dsimp only

theorem Keeps.releaseTimerExpiry (h : Keeps L s t) {d : Fin 16} : Keeps L s (t.releaseTimerExpiry d) := by
  unfold State.releaseTimerExpiry
  repeat' first
    | with_reducible exact h | with_reducible apply Keeps.ite | with_reducible apply Keeps.enterCheck
    | exact fun _ => rfl | exact fun _ _ => rfl | exact fun _ _ => Or.inr rfl
    | split | dsimp only

theorem Keeps.leaveCheck (h : Keeps L s t) {d : Fin 16} : Keeps L s (t.leaveCheck d) := by
  unfold State.leaveCheck
  repeat' first
    | with_reducible exact h | with_reducible apply Keeps.ite | with_reducible apply Keeps.endEquipment
    | exact fun _ => rfl | exact fun _ _ => rfl | exact fun _ _ => Or.inr rfl
    | split | dsimp only

theorem Keeps.pickedFromDrive (h : Keeps L s t) {d : Fin 16} : Keeps L s (t.pickedFromDrive d) := by
  unfold State.pickedFromDrive
  repeat' first
    | with_reducible exact h | with_reducible apply Keeps.ite | with_reducible apply Keeps.setDriveState
    | with_reducible apply Keeps.updDrive | with_reducible apply Keeps.recordClaim | with_reducible apply Keeps.endClaim
    | with_reducible apply Keeps.leaveCheck | with_reducible apply Keeps.restDrive
    | exact fun _ => rfl | exact fun _ _ => rfl | exact fun _ _ => Or.inr rfl
    | split | dsimp only

theorem Keeps.testUnmanaged (h : Keeps L s t) {d : Fin 16} : Keeps L s (t.testUnmanaged d) := by
  unfold State.testUnmanaged
  repeat' first
    | with_reducible exact h | with_reducible apply Keeps.ite | with_reducible apply Keeps.restDrive
    | exact fun _ => rfl | exact fun _ _ => rfl | exact fun _ _ => Or.inr rfl
    | split | dsimp only

theorem Keeps.onLoadedRise (h : Keeps L s t) {d : Fin 16} : Keeps L s (t.onLoadedRise d) := by
  unfold State.onLoadedRise
  repeat' first
    | with_reducible exact h | with_reducible apply Keeps.ite | with_reducible apply Keeps.updDrive
    | with_reducible apply Keeps.takeLoad | with_reducible apply Keeps.loseClaim | with_reducible apply Keeps.loadPlaced
    | with_reducible apply Keeps.startPulse | with_reducible apply Keeps.unload | with_reducible apply Keeps.enterCheck
    | with_reducible apply Keeps.testUnmanaged
    | exact fun _ => rfl | exact fun _ _ => rfl | exact fun _ _ => Or.inr rfl
    | split | dsimp only

theorem Keeps.onLoadedFall (h : Keeps L s t) {d : Fin 16} : Keeps L s (t.onLoadedFall d) := by
  unfold State.onLoadedFall
  repeat' first
    | with_reducible exact h | with_reducible apply Keeps.ite | with_reducible apply Keeps.setDriveState
    | with_reducible apply Keeps.startReleaseTimer | with_reducible apply Keeps.testUnmanaged
    | exact fun _ => rfl | exact fun _ _ => rfl | exact fun _ _ => Or.inr rfl
    | split | dsimp only

theorem Keeps.onReleasedRise (h : Keeps L s t) {d : Fin 16} : Keeps L s (t.onReleasedRise d) := by
  unfold State.onReleasedRise
  repeat' first
    | with_reducible exact h | with_reducible apply Keeps.ite | with_reducible apply Keeps.setDriveState
    | with_reducible apply Keeps.loadFails | with_reducible apply Keeps.releaseReel
    | with_reducible apply Keeps.testUnmanaged
    | exact fun _ => rfl | exact fun _ _ => rfl | exact fun _ _ => Or.inr rfl
    | split | dsimp only

theorem Keeps.onReleasedFall (h : Keeps L s t) {d : Fin 16} : Keeps L s (t.onReleasedFall d) := by
  unfold State.onReleasedFall
  repeat' first
    | with_reducible exact h | with_reducible apply Keeps.ite | with_reducible apply Keeps.testUnmanaged
    | exact fun _ => rfl | exact fun _ _ => rfl | exact fun _ _ => Or.inr rfl
    | split | dsimp only

theorem Keeps.onProtectChange (h : Keeps L s t) {d : Fin 16} : Keeps L s (t.onProtectChange d) := by
  unfold State.onProtectChange
  repeat' first
    | with_reducible exact h | with_reducible apply Keeps.ite | with_reducible apply Keeps.setRing
    | exact fun _ => rfl | exact fun _ _ => rfl | exact fun _ _ => Or.inr rfl
    | split | dsimp only

theorem Keeps.checkEmpty (h : Keeps L s t) {d : Fin 16} : Keeps L s (t.checkEmpty d) := by
  unfold State.checkEmpty
  repeat' first
    | with_reducible exact h | with_reducible apply Keeps.ite | with_reducible apply Keeps.updDrive
    | with_reducible apply Keeps.makeMissing | with_reducible apply Keeps.recordClaim
    | with_reducible apply Keeps.endClaim | with_reducible apply Keeps.leaveCheck
    | with_reducible apply Keeps.setDriveState | with_reducible apply Keeps.notify
    | with_reducible apply Keeps.clearDriveVolume
    | exact fun _ => rfl | exact fun _ _ => rfl | exact fun _ _ => Or.inr rfl
    | split | dsimp only

theorem Keeps.checkLoaded (h : Keeps L s t) {d : Fin 16} : Keeps L s (t.checkLoaded d) := by
  unfold State.checkLoaded
  repeat' first
    | with_reducible exact h | with_reducible apply Keeps.ite | with_reducible apply Keeps.leaveCheck
    | with_reducible apply Keeps.setDriveState | with_reducible apply Keeps.notify | with_reducible apply Keeps.takeLoad
    | exact fun _ => rfl | exact fun _ _ => rfl | exact fun _ _ => Or.inr rfl
    | split | dsimp only

theorem Keeps.recheck (h : Keeps L s t) {d : Fin 16} {offline : Bool} : Keeps L s (t.recheck d offline) := by
  unfold State.recheck
  repeat' first
    | with_reducible exact h | with_reducible apply Keeps.ite | with_reducible apply Keeps.updDrive
    | with_reducible apply Keeps.leaveCheck | with_reducible apply Keeps.releaseReel | with_reducible apply Keeps.completeSession
    | with_reducible apply Keeps.checkLoaded | with_reducible apply Keeps.startPulse | with_reducible apply Keeps.unload
    | with_reducible apply Keeps.setDriveState | with_reducible apply Keeps.startReleaseTimer
    | with_reducible apply Keeps.checkEmpty
    | exact fun _ => rfl | exact fun _ _ => rfl | exact fun _ _ => Or.inr rfl
    | split | dsimp only

theorem Keeps.serviceOffline (h : Keeps L s t) {d : Fin 16} : Keeps L s (t.serviceOffline d) := by
  unfold State.serviceOffline
  repeat' first
    | with_reducible exact h | with_reducible apply Keeps.ite | with_reducible apply Keeps.recheck
    | with_reducible apply Keeps.updDrive
    | exact fun _ => rfl | exact fun _ _ => rfl | exact fun _ _ => Or.inr rfl
    | split | dsimp only

theorem Keeps.serviceOnline (h : Keeps L s t) {d : Fin 16} : Keeps L s (t.serviceOnline d) := by
  unfold State.serviceOnline
  repeat' first
    | with_reducible exact h | with_reducible apply Keeps.ite | with_reducible apply Keeps.updDrive
    | with_reducible apply Keeps.setDriveState | with_reducible apply Keeps.notify
    | exact fun _ => rfl | exact fun _ _ => rfl | exact fun _ _ => Or.inr rfl
    | split | dsimp only

theorem Keeps.resetDrive (h : Keeps L s t) {d : Fin 16} : Keeps L s (t.resetDrive d) := by
  unfold State.resetDrive
  repeat' first
    | with_reducible exact h | with_reducible apply Keeps.ite | with_reducible apply Keeps.updClaim
    | with_reducible apply Keeps.giveUpClaim | with_reducible apply Keeps.stopLoadTimer
    | with_reducible apply Keeps.oweRecover | with_reducible apply Keeps.stopLabelTimer
    | exact fun _ => rfl | exact fun _ _ => rfl | exact fun _ _ => Or.inr rfl
    | split | dsimp only

theorem Keeps.resetDrives (h : Keeps L s t) : Keeps L s (t.resetDrives) := by
  unfold State.resetDrives
  repeat' first
    | with_reducible exact h | with_reducible apply Keeps.ite | with_reducible refine Keeps.foldl (fun h => ?_) ?_
    | with_reducible apply Keeps.resetDrive
    | exact fun _ => rfl | exact fun _ _ => rfl | exact fun _ _ => Or.inr rfl
    | split | dsimp only

end Sys2Proof.Machine
end

