-- ==== Sys2Proof/Laws/Rail.lean ====
section
/-! SUPPORT. The holding of zones (R94): what keeps it, and what each act on the zones, the claims, the arms' columns and their lines needs
to keep it. -/

namespace Sys2Proof.Machine

variable {s t : State}

/-! ### What an act leaves of what the law looks at -/

theorem State.zone?_mapZones {f : Nat → Option Holding → Option Holding} {z : Nat} :
    (s.mapZones f).zone? z = if z < 8 then f z (s.zone? z) else none := by
  unfold State.zone? State.mapZones
  by_cases h : z < 8
  · simp [h]
  · simp [h]

theorem State.zone?_big {z : Nat} (h : 8 ≤ z) : s.zone? z = none := by
  unfold State.zone?
  have : ¬ z < 8 := by omega
  simp [this]

theorem State.arm_updArm {a b : ArmId} {f : Arm → Arm} : (s.updArm a f).arm b = if b = a then f (s.arm a) else s.arm b := by
  cases a <;> cases b <;> rfl

theorem State.armPort_setArmPort {a b : ArmId} {x : ArmPort} : (s.setArmPort a x).armPort b = if b = a then x else s.armPort b := by
  cases a <;> cases b <;> rfl

@[simp] theorem State.updArm_claims {a : ArmId} {f : Arm → Arm} : (s.updArm a f).sch.claims = s.sch.claims := by cases a <;> rfl

@[simp] theorem State.setArmPort_claims {a : ArmId} {x : ArmPort} : (s.setArmPort a x).sch.claims = s.sch.claims := by cases a <;> rfl

@[simp] theorem State.mapZones_claims {f : Nat → Option Holding → Option Holding} : (s.mapZones f).sch.claims = s.sch.claims := rfl

theorem State.waitingFrames_self {a : ArmId} {x : ArmPort} :
    (s.setArmPort a x).waitingFrames a = x.waiting.filter (fun f => !f.isStop) := by simp [State.waitingFrames]

theorem State.waitingFrames_ne {a b : ArmId} {x : ArmPort} (h : b ≠ a) : (s.setArmPort a x).waitingFrames b = s.waitingFrames b := by
  simp [State.waitingFrames, State.armPort_setArmPort, h]

theorem State.mem_withdrawClaim {a : ArmId} {c : RailClaim} : c ∈ (s.withdrawClaim a).sch.claims ↔ c ∈ s.sch.claims ∧ c.arm ≠ a := by
  simp [State.withdrawClaim]

theorem State.holds_iff {a : ArmId} {z : Nat} : s.holds a z = true ↔ ∃ k, s.zone? z = some ⟨a, k⟩ := by
  unfold State.holds
  cases s.zone? z with
  | none => simp
  | some h => obtain ⟨b, k⟩ := h; simp

theorem State.firm.holds {a : ArmId} {z : Nat} (h : s.firm a z) : s.holds a z = true := State.holds_iff.mpr (h.imp fun _ q => q.1)

/-- An arm with nothing in hand: no item outstanding, and none waiting for its line. -/
theorem State.armBusy_false {a : ArmId} : s.armBusy a = false ↔ (s.arm a).outstanding = none ∧ s.waitingFrames a = [] := by
  unfold State.armBusy State.waitingFrames
  cases h : (s.arm a).outstanding <;> simp [List.filter_eq_nil_iff]

/-- No LEG is outstanding on an arm's port, and none waits for its line. -/
def State.legFree (s : State) (a : ArmId) : Prop := (s.arm a).outstanding = none ∧ ∀ l, ArmFrame.leg l ∉ s.waitingFrames a

/-- An arm has no claim. -/
def State.unclaimed (s : State) (a : ArmId) : Prop := ∀ c ∈ s.sch.claims, c.arm ≠ a

theorem State.goesInto_mono {a : ArmId} {l : Leg} (h : ∀ z, s.firm a z → t.firm a z) (k : s.goesInto a l) : t.goesInto a l := by
  unfold State.goesInto at k ⊢
  split
  · exact ⟨k.1, h _ k.2⟩
  · trivial
  · trivial
  · trivial
  · trivial
  · trivial

/-! ### The law from its parts -/

/-- The two columns are in order when the zones are, as an UNHOMED arm is at its end (R94). -/
theorem RailLawful.of (h : ∀ y z, s.holds .armA y = true → s.holds .armB z = true → y < z) (k : ∀ a, s.ArmLawful a) : s.RailLawful := by
  refine ⟨h, ?_, k⟩
  have ka := k .armA
  have kb := k .armB
  have hb : 4 ≤ (s.arm .armB).column := by
    by_cases u : (s.arm .armB).state = .unhomed
    · have : (s.arm .armB).column = 31 := (kb.2.2.1 u).2.1
      omega
    · have hz := kb.1 _ (kb.2.1 u).2.holds
      simp [armReaches, State.armZone, zoneOf] at hz
      have := of_decide_eq_true hz.1
      omega
  by_cases u : (s.arm .armA).state = .unhomed
  · have : (s.arm .armA).column = 0 := (ka.2.2.1 u).2.1
    omega
  · have hz := (ka.2.1 u).2.holds
    have hr := ka.1 _ hz
    simp [armReaches, State.armZone, zoneOf] at hr
    have hr := of_decide_eq_true hr
    by_cases v : (s.arm .armB).state = .unhomed
    · have : (s.arm .armB).column = 31 := (kb.2.2.1 v).2.1
      omega
    · have := h _ _ hz (kb.2.1 v).2.holds
      simp only [State.armZone, zoneOf] at this
      omega

/-- What the law says of an arm is said of it after an act that leaves its zones, its record and its line alone, and gives it no claim. -/
theorem ArmLawful.alone {b : ArmId} (hz : ∀ z k, t.zone? z = some ⟨b, k⟩ ↔ s.zone? z = some ⟨b, k⟩)
    (hs : (t.arm b).state = (s.arm b).state) (hc : (t.arm b).column = (s.arm b).column)
    (ho : (t.arm b).outstanding = (s.arm b).outstanding) (hw : t.waitingFrames b = s.waitingFrames b)
    (hl : ∀ c ∈ t.sch.claims, c.arm = b → c ∈ s.sch.claims) (k : s.ArmLawful b) : t.ArmLawful b := by
  have hh : ∀ z, t.holds b z = s.holds b z := by
    intro z
    rw [Bool.eq_iff_iff, State.holds_iff, State.holds_iff]
    exact exists_congr fun k => hz z k
  have hf : ∀ z, t.firm b z ↔ s.firm b z := fun z => exists_congr fun k => and_congr (hz z k) Iff.rfl
  have hbusy : t.armBusy b = s.armBusy b := by
    rw [Bool.eq_iff_iff, ← not_iff_not]
    simp only [Bool.not_eq_true, State.armBusy_false, ho, hw]
  have hzone : t.armZone b = s.armZone b := by simp only [State.armZone, hc]
  obtain ⟨k1, k2, k3, k4, k5, k6, k7⟩ := k
  refine ⟨fun z h => k1 z (hh z ▸ h), fun h => ?_, fun h => ?_, fun l v lo hi h => ?_, fun l h => ?_, fun c h e => ?_, fun h => ?_⟩
  · rw [hc, hzone, hf]; exact k2 (hs ▸ h)
  · rw [hc, ho, hw]
    have := k3 (hs ▸ h)
    exact ⟨fun z => (hh z).trans (this.1 z), this.2⟩
  · exact State.goesInto_mono (fun z => (hf z).mpr) (k4 l v lo hi (ho ▸ h))
  · have := k5 l (hw ▸ h)
    rw [ho, hw]
    exact ⟨this.1, this.2.1, State.goesInto_mono (fun z => (hf z).mpr) this.2.2⟩
  · rw [hs, hbusy, hzone]; exact k6 c (hl c h e) e
  · rw [hbusy]; exact k7 (hs ▸ h)

/-- Lingering zones released, claims withdrawn, outstanding items and waiting frames dropped. -/
theorem RailLawful.shrink (hz : ∀ z, t.zone? z = s.zone? z ∨ (t.zone? z = none ∧ ∃ b, s.zone? z = some ⟨b, .lingering⟩))
    (hs : ∀ a, (t.arm a).state = (s.arm a).state) (hc : ∀ a, (t.arm a).column = (s.arm a).column)
    (ho : ∀ a, (t.arm a).outstanding = (s.arm a).outstanding ∨ (t.arm a).outstanding = none)
    (hw : ∀ a, (t.waitingFrames a).Sublist (s.waitingFrames a)) (hl : ∀ c ∈ t.sch.claims, c ∈ s.sch.claims) (k : s.RailLawful) :
    t.RailLawful := by
  have hh : ∀ a z, t.holds a z = true → s.holds a z = true := by
    intro a z h
    rw [State.holds_iff] at h ⊢
    obtain ⟨q, h⟩ := h
    rcases hz z with e | ⟨e, _⟩
    · exact ⟨q, e ▸ h⟩
    · rw [e] at h; cases h
  have hf : ∀ a z, s.firm a z → t.firm a z := by
    intro a z h
    obtain ⟨q, e1, e2⟩ := h
    rcases hz z with e | ⟨_, b, e⟩
    · exact ⟨q, e ▸ e1, e2⟩
    · rw [e1] at e; cases e; exact absurd rfl e2
  have hidle : ∀ a, s.armBusy a = false → t.armBusy a = false := by
    intro a h
    rw [State.armBusy_false] at h ⊢
    refine ⟨(ho a).elim (fun e => e.trans h.1) id, ?_⟩
    have := hw a
    rw [h.2] at this
    exact List.sublist_nil.mp this
  refine RailLawful.of (fun y z hy hz => k.1 y z (hh _ _ hy) (hh _ _ hz)) (fun a => ?_)
  have hzone : t.armZone a = s.armZone a := by simp only [State.armZone, hc]
  obtain ⟨k1, k2, k3, k4, k5, k6, k7⟩ := k.2.2 a
  refine ⟨fun z h => k1 z (hh a z h), fun h => ?_, fun h => ?_, fun l v lo hi h => ?_, fun l h => ?_, fun c h e => ?_, fun h => ?_⟩
  · rw [hc, hzone]
    have := k2 (hs a ▸ h)
    exact ⟨this.1, hf a _ this.2⟩
  · have := k3 (hs a ▸ h)
    refine ⟨fun z => ?_, (hc a).trans this.2.1, (ho a).elim (fun e => e.trans this.2.2.1) id, ?_⟩
    · by_contra q
      rw [Bool.not_eq_false] at q
      have := this.1 z
      rw [hh a z q] at this
      cases this
    · have q := hw a
      rw [this.2.2.2] at q
      exact List.sublist_nil.mp q
  · rcases ho a with e | e
    · exact State.goesInto_mono (hf a) (k4 l v lo hi (e ▸ h))
    · rw [e] at h; cases h
  · have := k5 l ((hw a).subset h)
    refine ⟨(ho a).elim (fun e => e.trans this.1) id, ?_, State.goesInto_mono (hf a) this.2.2⟩
    have q := hw a
    rw [this.2.1] at q
    rcases List.sublist_singleton.mp q with e | e
    · rw [e] at h; cases h
    · exact e
  · have := k6 c (hl c h) e
    rw [hs, hzone]
    exact ⟨this.1, hidle a this.2.1, this.2.2⟩
  · exact hidle a (k7 (hs a ▸ h))

/-! ### The state of an arm -/

/-- An arm enters another state than UNHOMED: with no claim unless it is RUNNING, with nothing in hand when it is IDLE. -/
theorem RailLawful.setState {a : ArmId} {f : Arm → Arm} (hs : (s.arm a).state ≠ .unhomed) (hf : (f (s.arm a)).state ≠ .unhomed)
    (hc : (f (s.arm a)).column = (s.arm a).column) (ho : (f (s.arm a)).outstanding = (s.arm a).outstanding)
    (hl : (f (s.arm a)).state = .running ∧ (s.arm a).state = .running ∨ s.unclaimed a)
    (hi : (f (s.arm a)).state = .idle → s.armBusy a = false) (k : s.RailLawful) : (s.updArm a f).RailLawful := by
  have hz : ∀ z, (s.updArm a f).zone? z = s.zone? z := fun z => by simp
  have hh : ∀ b z, (s.updArm a f).holds b z = s.holds b z := fun b z => by simp only [State.holds, hz]
  refine RailLawful.of (fun y z hy hz => k.1 y z (hh _ _ ▸ hy) (hh _ _ ▸ hz)) (fun b => ?_)
  by_cases hb : b = a
  · subst hb
    have ha : (s.updArm b f).arm b = f (s.arm b) := by simp
    have hw : (s.updArm b f).waitingFrames b = s.waitingFrames b := by simp [State.waitingFrames]
    have hbusy : (s.updArm b f).armBusy b = s.armBusy b := by
      rw [Bool.eq_iff_iff, ← not_iff_not]
      simp only [Bool.not_eq_true, State.armBusy_false, ha, ho, hw]
    have hzone : (s.updArm b f).armZone b = s.armZone b := by simp only [State.armZone, ha, hc]
    have hg : ∀ l, s.goesInto b l → (s.updArm b f).goesInto b l :=
      fun l => State.goesInto_mono (fun z => fun ⟨q, e, n⟩ => ⟨q, (hz z).trans e, n⟩)
    obtain ⟨k1, k2, k3, k4, k5, k6, k7⟩ := k.2.2 b
    refine ⟨fun z h => k1 z (hh b z ▸ h), fun _ => ?_, fun h => ?_, fun l v lo hi h => ?_, fun l h => ?_, fun c h e => ?_, fun h => ?_⟩
    · rw [ha, hc, hzone]
      exact ⟨(k2 hs).1, (k2 hs).2.imp fun q n => ⟨(hz _).trans n.1, n.2⟩⟩
    · rw [ha] at h; exact absurd h hf
    · rw [ha, ho] at h; exact hg l (k4 l v lo hi h)
    · rw [hw] at h ⊢
      rw [ha, ho]
      exact ⟨(k5 l h).1, (k5 l h).2.1, hg l (k5 l h).2.2⟩
    · rw [State.updArm_claims] at h
      rcases hl with hl | hl
      · rw [ha, hbusy, hzone]; exact ⟨hl.1, (k6 c h e).2⟩
      · exact absurd e (hl c h)
    · rw [ha] at h; rw [hbusy]; exact hi h
  · have ha : (s.updArm a f).arm b = s.arm b := by rw [State.arm_updArm, if_neg hb]
    refine ArmLawful.alone (fun z q => by rw [hz]) (by rw [ha]) (by rw [ha]) (by rw [ha]) ?_ (fun c h _ => by simpa using h) (k.2.2 b)
    simp [State.waitingFrames]

/-- What an arm has outstanding is dropped, and its state changes, neither it nor the one before UNHOMED. -/
theorem RailLawful.clearOutstanding {a : ArmId} {f : Arm → Arm} (hs : (f (s.arm a)).state = (s.arm a).state)
    (hc : (f (s.arm a)).column = (s.arm a).column) (ho : (f (s.arm a)).outstanding = none) (k : s.RailLawful) :
    (s.updArm a f).RailLawful := by
  have key : ∀ b, (s.updArm a f).arm b = if b = a then f (s.arm a) else s.arm b := fun b => State.arm_updArm
  refine RailLawful.shrink (fun z => .inl (by simp)) (fun b => ?_) (fun b => ?_) (fun b => ?_) (fun b => ?_)
    (fun c h => by simpa using h) k
  · rw [key]; split
    · rename_i e; subst e; exact hs
    · rfl
  · rw [key]; split
    · rename_i e; subst e; exact hc
    · rfl
  · rw [key]; split
    · exact .inr ho
    · exact .inl rfl
  · simp [State.waitingFrames]

/-! ### The line of an arm -/

/-- What a frame of an arm's line needs: a LEG nothing in hand, a RUNNING arm with no claim and a way into its own zones; a HOME or STATUS that
no LEG waits, and an arm neither UNHOMED nor IDLE, with no claim; a STOP nothing. -/
def State.mayGo (s : State) (a : ArmId) : ArmFrame → Prop
  | .leg l => s.armBusy a = false ∧ (s.arm a).state = .running ∧ s.unclaimed a ∧ s.goesInto a l
  | .home | .status => (∀ l, ArmFrame.leg l ∉ s.waitingFrames a) ∧ (s.arm a).state ≠ .unhomed ∧ (s.arm a).state ≠ .idle ∧ s.unclaimed a
  | .stop => True

/-- An arm whose item in hand or waiting frames change as its line allows, all else left alone. -/
theorem RailLawful.setLine {a : ArmId} (hz : ∀ z, t.zone? z = s.zone? z) (hc : t.sch.claims = s.sch.claims)
    (hn : ∀ b, b ≠ a → t.arm b = s.arm b ∧ t.waitingFrames b = s.waitingFrames b)
    (hs : (t.arm a).state = (s.arm a).state) (hcol : (t.arm a).column = (s.arm a).column)
    (hu : (s.arm a).state ≠ .unhomed) (hi : (s.arm a).state ≠ .idle) (hl : s.unclaimed a)
    (ho : ∀ l v lo hi, (t.arm a).outstanding = some (.leg l v lo hi) → s.goesInto a l)
    (hw : ∀ l, ArmFrame.leg l ∈ t.waitingFrames a →
      (t.arm a).outstanding = none ∧ t.waitingFrames a = [.leg l] ∧ s.goesInto a l) (k : s.RailLawful) : t.RailLawful := by
  have hh : ∀ b z, t.holds b z = s.holds b z := fun b z => by simp only [State.holds, hz]
  refine RailLawful.of (fun y z hy hz => k.1 y z (hh _ _ ▸ hy) (hh _ _ ▸ hz)) (fun b => ?_)
  by_cases hb : b = a
  · subst hb
    have hf : ∀ z, s.firm b z → t.firm b z := fun z => fun ⟨q, e, n⟩ => ⟨q, (hz z).trans e, n⟩
    have hzone : t.armZone b = s.armZone b := by simp only [State.armZone, hcol]
    obtain ⟨k1, k2, k3, k4, k5, k6, k7⟩ := k.2.2 b
    refine ⟨fun z h => k1 z (hh b z ▸ h), fun h => ?_, fun h => ?_, fun l v lo hi h => ?_, fun l h => ?_, fun c h e => ?_, fun h => ?_⟩
    · rw [hcol, hzone]
      exact ⟨(k2 hu).1, hf _ (k2 hu).2⟩
    · exact absurd (hs ▸ h) hu
    · exact State.goesInto_mono hf (ho l v lo hi h)
    · exact ⟨(hw l h).1, (hw l h).2.1, State.goesInto_mono hf (hw l h).2.2⟩
    · rw [hc] at h; exact absurd e (hl c h)
    · exact absurd (hs ▸ h) hi
  · have := hn b hb
    exact ArmLawful.alone (fun z q => by rw [hz]) (by rw [this.1]) (by rw [this.1]) (by rw [this.1]) this.2
      (fun c h _ => by rwa [hc] at h) (k.2.2 b)

theorem State.putOnLine_zone {a : ArmId} {f : ArmFrame} {z : Nat} : (s.putOnLine a f).zone? z = s.zone? z := by
  unfold State.putOnLine; cases f <;> simp

theorem State.putOnLine_claims {a : ArmId} {f : ArmFrame} : (s.putOnLine a f).sch.claims = s.sch.claims := by
  unfold State.putOnLine; cases f <;> simp

theorem State.putOnLine_waiting {a b : ArmId} {f : ArmFrame} : (s.putOnLine a f).waitingFrames b = s.waitingFrames b := by
  unfold State.putOnLine State.waitingFrames
  cases f <;> cases a <;> cases b <;> rfl

theorem State.putOnLine_arm {a b : ArmId} {f : ArmFrame} (h : b ≠ a) : (s.putOnLine a f).arm b = s.arm b := by
  unfold State.putOnLine
  cases f <;> simp [State.arm_updArm, h]

theorem State.putOnLine_state {a : ArmId} {f : ArmFrame} : ((s.putOnLine a f).arm a).state = (s.arm a).state ∧
    ((s.putOnLine a f).arm a).column = (s.arm a).column := by
  unfold State.putOnLine
  cases f <;> simp

theorem State.putOnLine_outstanding {a : ArmId} {f : ArmFrame} {l : Leg} {v : Option Nat} {lo hi : Nat}
    (h : ((s.putOnLine a f).arm a).outstanding = some (.leg l v lo hi)) :
    f = .leg l ∨ (f = .stop ∧ (s.arm a).outstanding = some (.leg l v lo hi)) := by
  unfold State.putOnLine at h
  cases f <;> simp_all

theorem State.putOnLine_none {a : ArmId} {f : ArmFrame} (h : ((s.putOnLine a f).arm a).outstanding = none) : f = .stop := by
  unfold State.putOnLine at h
  cases f <;> simp_all

theorem RailLawful.putOnLine {a : ArmId} {f : ArmFrame} (h : s.mayGo a f) (k : s.RailLawful) : (s.putOnLine a f).RailLawful := by
  by_cases hf : f = .stop
  · subst hf
    refine rail_of ?_ k
    unfold State.putOnLine
    cases a <;> rfl
  · have hu : (s.arm a).state ≠ .unhomed ∧ (s.arm a).state ≠ .idle ∧ s.unclaimed a ∧ ∀ l, ArmFrame.leg l ∉ s.waitingFrames a := by
      cases f with
      | leg l =>
        obtain ⟨h1, h2, h3, _⟩ := h
        rw [State.armBusy_false] at h1
        rw [h1.2, h2]
        simp [h3]
      | home | status => exact ⟨h.2.1, h.2.2.1, h.2.2.2, h.1⟩
      | stop => exact absurd rfl hf
    refine RailLawful.setLine (a := a) (fun z => State.putOnLine_zone) State.putOnLine_claims
      (fun b hb => ⟨State.putOnLine_arm hb, State.putOnLine_waiting⟩) State.putOnLine_state.1 State.putOnLine_state.2 hu.1 hu.2.1 hu.2.2.1
      (fun l v lo hi ho => ?_) (fun l hl => ?_) k
    · rcases State.putOnLine_outstanding ho with e | e
      · subst e; exact h.2.2.2
      · exact absurd e.1 hf
    · rw [State.putOnLine_waiting] at hl
      exact absurd hl (hu.2.2.2 l)

theorem RailLawful.sendArm {a : ArmId} {f : ArmFrame} (h : s.mayGo a f) (k : s.RailLawful) : (s.sendArm a f).RailLawful := by
  unfold State.sendArm
  dsimp only
  cases (s.armPort a).sending with
  | none => exact RailLawful.putOnLine h k
  | some q =>
    dsimp only
    by_cases hf : f = .stop
    · subst hf
      refine RailLawful.shrink (fun z => .inl (by simp)) (fun b => by simp) (fun b => by simp) (fun b => .inl (by simp)) (fun b => ?_)
        (fun c hc => by simpa using hc) k
      by_cases hb : b = a
      · subst hb
        rw [State.waitingFrames_self]
        simp [State.waitingFrames, ArmFrame.isStop]
      · rw [State.waitingFrames_ne hb]
    · have hu : (s.arm a).state ≠ .unhomed ∧ (s.arm a).state ≠ .idle ∧ s.unclaimed a ∧ ∀ l, ArmFrame.leg l ∉ s.waitingFrames a := by
        cases f with
        | leg l =>
          obtain ⟨h1, h2, h3, _⟩ := h
          rw [State.armBusy_false] at h1
          rw [h1.2, h2]
          simp [h3]
        | home | status => exact ⟨h.2.1, h.2.2.1, h.2.2.2, h.1⟩
        | stop => exact absurd rfl hf
      refine RailLawful.setLine (a := a) (fun z => by simp) (by simp) (fun b hb => ⟨by simp, State.waitingFrames_ne hb⟩) (by simp) (by simp)
        hu.1 hu.2.1 hu.2.2.1 (fun l v lo hi ho => ?_) (fun l hl => ?_) k
      · rw [State.arm_setArmPort] at ho
        exact (k.2.2 a).2.2.2.1 l v lo hi ho
      · have hwa : (if f = .stop then f :: (s.armPort a).waiting else (s.armPort a).waiting ++ [f]).filter (fun f => !f.isStop) =
            s.waitingFrames a ++ [f] := by
          rw [if_neg hf, List.filter_append]
          cases f <;> simp_all [ArmFrame.isStop, State.waitingFrames]
        rw [State.waitingFrames_self, hwa] at hl ⊢
        rcases List.mem_append.mp hl with q | q
        · exact absurd q (hu.2.2.2 l)
        · have e := (List.mem_singleton.mp q).symm
          subst e
          obtain ⟨h1, _, _, h4⟩ := h
          rw [State.armBusy_false] at h1
          rw [State.arm_setArmPort, h1.2]
          exact ⟨h1.1, rfl, h4⟩

/-- The next frame waiting takes the line (R193). -/
theorem RailLawful.armLineFree {a : ArmId} (k : s.RailLawful) : (s.armLineFree a).RailLawful := by
  unfold State.armLineFree
  dsimp only
  split
  · exact k
  · refine rail_of ?_ k
    cases a <;> rfl
  · rename_i f rest _ hw
    have hw : (s.armPort a).waiting = f :: rest := hw
    have hframes : s.waitingFrames a = (f :: rest).filter (fun f => !f.isStop) := by rw [State.waitingFrames, hw]
    generalize hu : s.setArmPort a { s.armPort a with sending := none, waiting := rest } = u
    have huw : u.waitingFrames a = rest.filter (fun f => !f.isStop) := by
      subst hu; simp [State.waitingFrames]
    have hun : ∀ b, b ≠ a → u.waitingFrames b = s.waitingFrames b := by
      intro b hb; subst hu; simp [State.waitingFrames, State.armPort_setArmPort, hb]
    have hua : ∀ b, u.arm b = s.arm b := by intro b; subst hu; simp
    have huz : ∀ z, u.zone? z = s.zone? z := by intro z; subst hu; simp
    have huc : u.sch.claims = s.sch.claims := by subst hu; simp
    have ku : u.RailLawful := by
      refine RailLawful.shrink (fun z => .inl (huz z)) (fun b => by rw [hua]) (fun b => by rw [hua]) (fun b => .inl (by rw [hua])) (fun b => ?_)
        (fun c hc => by rwa [huc] at hc) k
      by_cases hb : b = a
      · subst hb
        rw [huw, hframes]
        exact (List.sublist_cons_self _ _).filter _
      · rw [hun b hb]
    obtain ⟨k1, k2, k3, k4, k5, k6, k7⟩ := k.2.2 a
    by_cases hf : f = .stop
    · subst hf
      exact RailLawful.putOnLine trivial ku
    · have hff : f.isStop = false := by cases f <;> simp_all [ArmFrame.isStop]
      have hfr : s.waitingFrames a = f :: rest.filter (fun f => !f.isStop) := by rw [hframes]; simp [hff]
      have hbusy : s.armBusy a ≠ false := by rw [ne_eq, State.armBusy_false, hfr]; simp
      have hst : (u.arm a).state ≠ .unhomed := by
        rw [hua]
        intro q
        have := (k3 q).2.2.2
        rw [hfr] at this
        cases this
      have hsi : (u.arm a).state ≠ .idle := by rw [hua]; exact fun q => hbusy (k7 q)
      have hun' : u.unclaimed a := by
        intro c hc e
        rw [huc] at hc
        exact hbusy (k6 c hc e).2.1
      have hg : ∀ l, s.goesInto a l → u.goesInto a l :=
        fun l => State.goesInto_mono (fun z => fun ⟨q, e, n⟩ => ⟨q, (huz z).trans e, n⟩)
      have hleg : ∀ l, ArmFrame.leg l ∉ u.waitingFrames a := by
        intro l hl
        rw [huw] at hl
        have := (k5 l (hfr ▸ List.mem_cons_of_mem _ hl)).2.1
        rw [hfr] at this
        simp only [List.cons.injEq] at this
        rw [this.2] at hl
        cases hl
      refine RailLawful.setLine (a := a) (fun z => State.putOnLine_zone) State.putOnLine_claims
        (fun b hb => ⟨State.putOnLine_arm hb, State.putOnLine_waiting⟩) State.putOnLine_state.1 State.putOnLine_state.2 hst hsi hun'
        (fun l v lo hi ho => ?_) (fun l hl => ?_) ku
      · rcases State.putOnLine_outstanding ho with e | e
        · subst e
          exact hg l (k5 l (hfr ▸ List.mem_cons_self)).2.2
        · exact absurd e.1 hf
      · rw [State.putOnLine_waiting] at hl
        exact absurd hl (hleg l)

/-! ### The zones and the claims of one arm -/

/-- Two zones stand as those of an arm and of the other do (R94). -/
def apart : ArmId → Nat → Nat → Prop
  | .armA, y, z => y < z
  | .armB, y, z => z < y

/-- An act on one arm's zones, record, line and claims alone: the zones it adds lie on its own side of the other arm's. -/
theorem RailLawful.forArm (a : ArmId) (hz : ∀ b, b ≠ a → ∀ z k, t.zone? z = some ⟨b, k⟩ ↔ s.zone? z = some ⟨b, k⟩)
    (hn : ∀ b, b ≠ a → t.arm b = s.arm b ∧ t.waitingFrames b = s.waitingFrames b)
    (hl : ∀ b, b ≠ a → ∀ c ∈ t.sch.claims, c.arm = b → c ∈ s.sch.claims)
    (hh : ∀ z, t.holds a z = true → s.holds a z = true ∨ ∀ b, b ≠ a → ∀ y, s.holds b y = true → apart a z y)
    (ha : t.ArmLawful a) (k : s.RailLawful) : t.RailLawful := by
  have other : ∀ b, b ≠ a → ∀ z, t.holds b z = true → s.holds b z = true := by
    intro b hb z h
    rw [State.holds_iff] at h ⊢
    exact h.imp fun q e => (hz b hb z q).mp e
  refine RailLawful.of (fun y z hy hz' => ?_) (fun b => ?_)
  · cases a with
    | armA =>
      have hz' := other .armB (by simp) z hz'
      rcases hh y hy with q | q
      · exact k.1 y z q hz'
      · exact q .armB (by simp) z hz'
    | armB =>
      have hy := other .armA (by simp) y hy
      rcases hh z hz' with q | q
      · exact k.1 y z hy q
      · exact q .armA (by simp) y hy
  · by_cases hb : b = a
    · subst hb; exact ha
    · have := hn b hb
      exact ArmLawful.alone (hz b hb) (by rw [this.1]) (by rw [this.1]) (by rw [this.1]) this.2 (hl b hb) (k.2.2 b)

theorem State.firm.small {a : ArmId} {z : Nat} (h : s.firm a z) : z < 8 := by
  by_contra c
  obtain ⟨q, e, _⟩ := h
  rw [State.zone?_big (by omega)] at e
  cases e

theorem State.holds_small {a : ArmId} {z : Nat} (h : s.holds a z = true) : z < 8 := by
  by_contra c
  obtain ⟨q, e⟩ := State.holds_iff.mp h
  rw [State.zone?_big (by omega)] at e
  cases e

/-- The zone of one arm is not the other's. -/
theorem State.holds_one {a b : ArmId} {z : Nat} (h : s.holds a z = true) (hb : b ≠ a) (k : HoldKind) : s.zone? z ≠ some ⟨b, k⟩ := by
  intro e
  obtain ⟨q, f⟩ := State.holds_iff.mp h
  rw [f] at e
  cases e
  exact hb rfl

/-- An arm's column is set and its other zones released, lingering on or not: what is left is the zone of the column. -/
theorem RailLawful.settle {a : ArmId} {f : Arm → Arm} {g : Nat → Option Holding → Option Holding}
    (hg : ∀ z h, z ≠ zoneOf (f (s.arm a)).column → g z h = if h.any (fun h => h.arm == a) then none else h)
    (hg' : ∀ h, g (zoneOf (f (s.arm a)).column) h = some ⟨a, .standing⟩)
    (hs : (f (s.arm a)).state = (s.arm a).state) (ho : (f (s.arm a)).outstanding = (s.arm a).outstanding)
    (hu : (s.arm a).state ≠ .unhomed) (hl : s.legFree a) (hc : s.unclaimed a) (h32 : (f (s.arm a)).column < 32)
    (hh : s.holds a (zoneOf (f (s.arm a)).column) = true) (k : s.RailLawful) : ((s.updArm a f).mapZones g).RailLawful := by
  generalize hcol : (f (s.arm a)).column = col at *
  have hz : ∀ z, ((s.updArm a f).mapZones g).zone? z =
      if z = zoneOf col then some ⟨a, .standing⟩ else if s.holds a z = true then none else s.zone? z := by
    intro z
    rw [State.zone?_mapZones, State.updArm_zone?]
    by_cases e : z = zoneOf col
    · subst e
      rw [if_pos (State.holds_small hh), if_pos rfl, hg']
    · rw [if_neg e, hg z _ e]
      by_cases e8 : z < 8
      · rw [if_pos e8]; rfl
      · rw [if_neg e8, State.zone?_big (by omega)]; simp
  have ha : ∀ b, ((s.updArm a f).mapZones g).arm b = if b = a then f (s.arm a) else s.arm b := by
    intro b; rw [State.mapZones_arm, State.arm_updArm]
  have hw : ∀ b, ((s.updArm a f).mapZones g).waitingFrames b = s.waitingFrames b := by
    intro b; simp [State.waitingFrames]
  have hholds : ∀ z, ((s.updArm a f).mapZones g).holds a z = true → z = zoneOf col := by
    intro z h
    obtain ⟨q, h⟩ := State.holds_iff.mp h
    rw [hz] at h
    by_contra e
    rw [if_neg e] at h
    split at h
    · cases h
    · rename_i c
      exact c (State.holds_iff.mpr ⟨q, h⟩)
  refine RailLawful.forArm a (fun b hb z q => ?_) (fun b hb => ⟨by rw [ha, if_neg hb], hw b⟩) (fun b hb c h e => by simpa using h)
    (fun z h => ?_) ?_ k
  · rw [hz]
    by_cases e : z = zoneOf col
    · subst e
      rw [if_pos rfl]
      refine iff_of_false (fun w => ?_) (State.holds_one hh hb q)
      simp only [Option.some.injEq, Holding.mk.injEq] at w
      exact hb w.1.symm
    · rw [if_neg e]
      split
      · rename_i c
        exact iff_of_false (by simp) (State.holds_one c hb q)
      · rfl
  · rw [hholds z h]; exact .inl hh
  · have harm : ((s.updArm a f).mapZones g).arm a = f (s.arm a) := by rw [ha, if_pos rfl]
    have hzone : ((s.updArm a f).mapZones g).armZone a = zoneOf col := by rw [State.armZone, harm, hcol]
    obtain ⟨k1, k2, k3, k4, k5, k6, k7⟩ := k.2.2 a
    have hbusy : ((s.updArm a f).mapZones g).armBusy a = s.armBusy a := by
      rw [Bool.eq_iff_iff, ← not_iff_not]
      simp only [Bool.not_eq_true, State.armBusy_false, harm, ho, hw]
    refine ⟨fun z h => ?_, fun _ => ?_, fun h => ?_, fun l v lo hi h => ?_, fun l h => ?_, fun c h e => ?_, fun h => ?_⟩
    · rw [hholds z h]; exact k1 _ hh
    · rw [harm, hcol, hzone]
      exact ⟨h32, .standing, by rw [hz, if_pos rfl], by simp⟩
    · rw [harm, hs] at h; exact absurd h hu
    · rw [harm, ho, hl.1] at h; cases h
    · rw [hw] at h; exact absurd h (hl.2 l)
    · have h : c ∈ s.sch.claims := by simpa using h
      exact absurd e (hc c h)
    · rw [harm, hs] at h; rw [hbusy]; exact k7 h

/-- An arm in service with nothing in hand to move it lets go of all but its standing zone (R97 to R99, R104, R108). -/
theorem RailLawful.releaseOthers {a : ArmId} (hu : (s.arm a).state ≠ .unhomed) (hl : s.legFree a) (hc : s.unclaimed a)
    (k : s.RailLawful) : (s.releaseOthers a).RailLawful := by
  have e : s.updArm a (fun x => x) = s := by cases a <;> rfl
  have own := (k.2.2 a).2.1 hu
  have := RailLawful.settle (a := a) (f := fun x => x) (g := fun (z : Nat) (h : Option Holding) =>
    if z = s.armZone a then some ⟨a, .standing⟩
    else if h.any (fun h => h.arm == a) then none else h) (fun z h hz => if_neg (show ¬ z = s.armZone a from hz)) (fun h => if_pos rfl) rfl rfl hu hl hc own.1
    own.2.holds k
  rw [e] at this
  exact this

/-- The column of a report is taken, in a zone the arm holds, and its other zones are let go (R104, R108). -/
theorem RailLawful.columnSettled {a : ArmId} {column : Nat} (hu : (s.arm a).state ≠ .unhomed) (hl : s.legFree a) (hc : s.unclaimed a)
    (h32 : column < 32) (hh : s.holds a (zoneOf column) = true) (k : s.RailLawful) :
    ((s.updArm a (fun x => { x with column := column })).releaseOthers a).RailLawful := by
  have e : (s.updArm a (fun x => { x with column := column })).armZone a = zoneOf column := by simp [State.armZone]
  unfold State.releaseOthers
  simp only [e]
  exact RailLawful.settle (fun z h hz => if_neg hz) (fun h => if_pos rfl) rfl rfl hu hl hc h32 hh k

/-- An arm stands where its TRAVEL took it, in a zone that it holds (R99). -/
theorem RailLawful.setColumn {a : ArmId} {f : Arm → Arm} (hs : (f (s.arm a)).state = (s.arm a).state)
    (ho : (f (s.arm a)).outstanding = (s.arm a).outstanding) (hu : (s.arm a).state ≠ .unhomed) (hc : s.unclaimed a)
    (h32 : (f (s.arm a)).column < 32) (hf : s.firm a (zoneOf (f (s.arm a)).column)) (k : s.RailLawful) : (s.updArm a f).RailLawful := by
  have hz : ∀ z, (s.updArm a f).zone? z = s.zone? z := fun z => by simp
  have hh : ∀ b z, (s.updArm a f).holds b z = s.holds b z := fun b z => by simp only [State.holds, hz]
  have hff : ∀ z, s.firm a z → (s.updArm a f).firm a z := fun z ⟨q, e, n⟩ => ⟨q, (hz z).trans e, n⟩
  have harm : (s.updArm a f).arm a = f (s.arm a) := by simp
  have hw : ∀ b, (s.updArm a f).waitingFrames b = s.waitingFrames b := fun b => by simp [State.waitingFrames]
  have hbusy : (s.updArm a f).armBusy a = s.armBusy a := by
    rw [Bool.eq_iff_iff, ← not_iff_not]
    simp only [Bool.not_eq_true, State.armBusy_false, harm, ho, hw]
  obtain ⟨k1, k2, k3, k4, k5, k6, k7⟩ := k.2.2 a
  refine RailLawful.forArm a (fun b hb z q => by rw [hz]) (fun b hb => ⟨by rw [State.arm_updArm, if_neg hb], hw b⟩)
    (fun b hb c h e => by simpa using h) (fun z h => .inl (hh a z ▸ h)) ?_ k
  refine ⟨fun z h => k1 z (hh a z ▸ h), fun _ => ?_, fun h => ?_, fun l v lo hi h => ?_, fun l h => ?_, fun c h e => ?_, fun h => ?_⟩
  · rw [harm, State.armZone, harm]; exact ⟨h32, hff _ hf⟩
  · rw [harm, hs] at h; exact absurd h hu
  · rw [harm, ho] at h; exact State.goesInto_mono hff (k4 l v lo hi h)
  · rw [hw] at h ⊢
    rw [harm, ho]
    exact ⟨(k5 l h).1, (k5 l h).2.1, State.goesInto_mono hff (k5 l h).2.2⟩
  · have h : c ∈ s.sch.claims := by simpa using h
    exact absurd e (hc c h)
  · rw [harm, hs] at h; rw [hbusy]; exact k7 h

/-- At an arrival the other zones of an arm linger (R99). -/
theorem RailLawful.linger {a : ArmId} (hu : (s.arm a).state ≠ .unhomed) (hl : s.legFree a) (k : s.RailLawful) :
    (s.mapZones (fun z h =>
      if z = s.armZone a then some ⟨a, .standing⟩
      else if h.any (fun h => h.arm == a) then some ⟨a, .lingering⟩ else h)).RailLawful := by
  have own := (k.2.2 a).2.1 hu
  generalize hu' : s.mapZones (fun z h =>
      if z = s.armZone a then some ⟨a, .standing⟩
      else if h.any (fun h => h.arm == a) then some ⟨a, .lingering⟩ else h) = u
  have hz : ∀ z, u.zone? z =
      if z = s.armZone a then some ⟨a, .standing⟩ else if s.holds a z = true then some ⟨a, .lingering⟩ else s.zone? z := by
    intro z
    subst hu'
    rw [State.zone?_mapZones]
    by_cases e : z = s.armZone a
    · rw [if_pos (e ▸ own.2.small), if_pos e, if_pos e]
    · rw [if_neg e, if_neg e]
      by_cases e8 : z < 8
      · rw [if_pos e8]; rfl
      · rw [if_neg e8]
        have : s.holds a z = false := by rw [State.holds, State.zone?_big (by omega)]; rfl
        rw [this, State.zone?_big (by omega)]; rfl
  have harm : ∀ b, u.arm b = s.arm b := fun b => by subst hu'; simp
  have hw : ∀ b, u.waitingFrames b = s.waitingFrames b := fun b => by subst hu'; simp [State.waitingFrames]
  have hcl : u.sch.claims = s.sch.claims := by subst hu'; rfl
  have hh : ∀ z, u.holds a z = true → s.holds a z = true := by
    intro z h
    obtain ⟨q, h⟩ := State.holds_iff.mp h
    rw [hz] at h
    split at h
    · rename_i e; rw [e]; exact own.2.holds
    · split at h
      · assumption
      · exact State.holds_iff.mpr ⟨q, h⟩
  have hbusy : u.armBusy a = s.armBusy a := by
    rw [Bool.eq_iff_iff, ← not_iff_not]
    simp only [Bool.not_eq_true, State.armBusy_false, harm, hw]
  have hzone : u.armZone a = s.armZone a := by simp only [State.armZone, harm]
  obtain ⟨k1, k2, k3, k4, k5, k6, k7⟩ := k.2.2 a
  refine RailLawful.forArm a (fun b hb z q => ?_) (fun b hb => ⟨harm b, hw b⟩) (fun b hb c h e => by rwa [hcl] at h)
    (fun z h => .inl (hh z h)) ?_ k
  · rw [hz]
    split
    · rename_i e
      rw [e]
      refine iff_of_false (fun w => ?_) (State.holds_one own.2.holds hb q)
      simp only [Option.some.injEq, Holding.mk.injEq] at w
      exact hb w.1.symm
    · split
      · rename_i c
        refine iff_of_false (fun w => ?_) (State.holds_one c hb q)
        simp only [Option.some.injEq, Holding.mk.injEq] at w
        exact hb w.1.symm
      · rfl
  · refine ⟨fun z h => k1 z (hh z h), fun _ => ?_, fun h => ?_, fun l v lo hi h => ?_, fun l h => ?_, fun c h e => ?_, fun h => ?_⟩
    · rw [harm, hzone]
      exact ⟨own.1, .standing, by rw [hz, if_pos rfl], by simp⟩
    · rw [harm] at h; exact absurd h hu
    · rw [harm, hl.1] at h; cases h
    · rw [hw] at h; exact absurd h (hl.2 l)
    · rw [hcl] at h
      rw [harm, hbusy, hzone]
      exact k6 c h e
    · rw [harm] at h; rw [hbusy]; exact k7 h

/-- What the making of a claim does to the zones: the lingering ones of the span are claimed, the others released (R95). -/
def State.claimSpan (s : State) (a : ArmId) (target : Nat) : State :=
  (s.updArm a (fun x => { x with linger := none })).mapZones (fun z h =>
    if h = some ⟨a, .lingering⟩ then
      (if (spanOf (s.armZone a) target).1 ≤ z ∧ z ≤ (spanOf (s.armZone a) target).2 then some ⟨a, .claimed⟩ else none) else h)

/-- A claim joins the list. -/
def State.addClaim (s : State) (c : RailClaim) : State := { s with sch := { s.sch with claims := s.sch.claims ++ [c] } }

/-- A RUNNING arm with nothing in hand makes a claim (R95). -/
theorem RailLawful.makeClaim {a : ArmId} {target : Nat} (hr : (s.arm a).state = .running) (hb : s.armBusy a = false) (k : s.RailLawful) :
    (s.makeClaim a target).RailLawful := by
  have own := (k.2.2 a).2.1 (by rw [hr]; simp)
  have split : s.makeClaim a target = (s.claimSpan a (zoneOf target)).addClaim ⟨a, (spanOf (s.armZone a) (zoneOf target)).1,
    (spanOf (s.armZone a) (zoneOf target)).2, target, s.clock⟩ := by cases a <;> rfl
  rw [split]
  generalize hu' : (s.claimSpan a (zoneOf target)).addClaim _ = u
  have hz : ∀ z, u.zone? z = if s.zone? z = some ⟨a, .lingering⟩ then
      (if (spanOf (s.armZone a) (zoneOf target)).1 ≤ z ∧ z ≤ (spanOf (s.armZone a) (zoneOf target)).2 then some ⟨a, .claimed⟩ else none)
      else s.zone? z := by
    intro z
    subst hu'
    show (s.claimSpan a (zoneOf target)).zone? z = _
    unfold State.claimSpan
    rw [State.zone?_mapZones, State.updArm_zone?]
    by_cases e8 : z < 8
    · rw [if_pos e8]
    · rw [if_neg e8, State.zone?_big (by omega)]; simp
  have harm : ∀ b, u.arm b = if b = a then { s.arm a with linger := none } else s.arm b := by
    intro b; subst hu'
    have : ((s.claimSpan a (zoneOf target)).addClaim ⟨a, (spanOf (s.armZone a) (zoneOf target)).1,
        (spanOf (s.armZone a) (zoneOf target)).2, target, s.clock⟩).arm b = (s.claimSpan a (zoneOf target)).arm b := by cases b <;> rfl
    rw [this]
    unfold State.claimSpan
    rw [State.mapZones_arm, State.arm_updArm]
  have hw : ∀ b, u.waitingFrames b = s.waitingFrames b := by
    intro b; subst hu'
    have : ((s.claimSpan a (zoneOf target)).addClaim ⟨a, (spanOf (s.armZone a) (zoneOf target)).1,
        (spanOf (s.armZone a) (zoneOf target)).2, target, s.clock⟩).waitingFrames b = (s.claimSpan a (zoneOf target)).waitingFrames b := by
      cases b <;> rfl
    rw [this]
    unfold State.claimSpan
    simp [State.waitingFrames]
  have hcl : u.sch.claims = s.sch.claims ++ [⟨a, (spanOf (s.armZone a) (zoneOf target)).1, (spanOf (s.armZone a) (zoneOf target)).2,
      target, s.clock⟩] := by
    subst hu'
    show (s.claimSpan a (zoneOf target)).sch.claims ++ _ = _
    unfold State.claimSpan
    rw [State.mapZones_claims, State.updArm_claims]
  have hh : ∀ z, u.holds a z = true → s.holds a z = true := by
    intro z h
    obtain ⟨q, h⟩ := State.holds_iff.mp h
    rw [hz] at h
    split at h
    · rename_i e; exact State.holds_iff.mpr ⟨_, e⟩
    · exact State.holds_iff.mpr ⟨q, h⟩
  have hf : ∀ z, s.firm a z → u.firm a z := by
    intro z ⟨q, e, n⟩
    refine ⟨q, ?_, n⟩
    rw [hz, if_neg, e]
    rw [e]
    exact fun w => n (by cases w; rfl)
  have ha : u.arm a = { s.arm a with linger := none } := by rw [harm, if_pos rfl]
  have hbusy : u.armBusy a = s.armBusy a := by
    rw [Bool.eq_iff_iff, ← not_iff_not]
    simp only [Bool.not_eq_true, State.armBusy_false, ha, hw]
  have hzone : u.armZone a = s.armZone a := by simp only [State.armZone, ha]
  obtain ⟨k1, k2, k3, k4, k5, k6, k7⟩ := k.2.2 a
  refine RailLawful.forArm a (fun b hb z q => ?_) (fun b hb => ⟨by rw [harm, if_neg hb], hw b⟩) (fun b hb c h e => ?_)
    (fun z h => .inl (hh z h)) ?_ k
  · rw [hz]
    split
    · rename_i e
      rw [e]
      refine iff_of_false (fun w => ?_) (fun w => ?_)
      · split at w
        · simp only [Option.some.injEq, Holding.mk.injEq] at w
          exact hb w.1.symm
        · cases w
      · simp only [Option.some.injEq, Holding.mk.injEq] at w
        exact hb w.1.symm
    · rfl
  · rw [hcl] at h
    rcases List.mem_append.mp h with h | h
    · exact h
    · rw [List.mem_singleton.mp h] at e; exact absurd e.symm hb
  · refine ⟨fun z h => k1 z (hh z h), fun _ => ?_, fun h => ?_, fun l v lo hi h => ?_, fun l h => ?_, fun c h e => ?_, fun h => ?_⟩
    · rw [ha, hzone]; exact ⟨own.1, hf _ own.2⟩
    · rw [ha] at h
      exact absurd (hr.symm.trans h) (by simp)
    · rw [ha] at h; exact State.goesInto_mono hf (k4 l v lo hi h)
    · rw [hw] at h ⊢
      rw [ha]
      exact ⟨(k5 l h).1, (k5 l h).2.1, State.goesInto_mono hf (k5 l h).2.2⟩
    · rw [ha, hbusy, hzone]
      rw [hcl] at h
      rcases List.mem_append.mp h with h | h
      · exact k6 c h e
      · rw [List.mem_singleton.mp h]
        exact ⟨hr, hb, rfl⟩
    · rw [hbusy]; exact hb

/-- A claim that may be granted: its zones pass to its arm, and its TRAVEL may be handed out (R95). -/
theorem RailLawful.grant {c : RailClaim} (hc : c ∈ s.sch.claims) (hg : s.grantable c = true) (k : s.RailLawful) :
    ((s.withdrawClaim c.arm).takeSpan c.arm c.lo c.hi).RailLawful ∧
      ((s.withdrawClaim c.arm).takeSpan c.arm c.lo c.hi).mayGo c.arm (.leg (.travel (some c.target))) := by
  obtain ⟨k1, k2, k3, k4, k5, k6, k7⟩ := k.2.2 c.arm
  obtain ⟨hr, hb, hspan⟩ := k6 c hc rfl
  have own := k2 (by rw [hr]; simp)
  have hreach : armReaches c.arm (zoneOf c.target) = true := (Bool.and_eq_true_iff.mp hg).1
  have hopen : ∀ z, z < 8 → c.lo ≤ z → z ≤ c.hi → ∀ b, b ≠ c.arm → ∀ q, s.zone? z ≠ some ⟨b, q⟩ := by
    intro z h8 h1 h2 b hbn q e
    have := List.all_eq_true.mp (Bool.and_eq_true_iff.mp hg).2 z (List.mem_range.mpr h8)
    simp only [Bool.or_eq_true, decide_eq_true_eq] at this
    rcases this with (q | q) | q
    · omega
    · omega
    · rw [State.openTo, e] at q
      simp at q
      exact hbn q
  have hlo : c.lo = min (s.armZone c.arm) (zoneOf c.target) := congrArg Prod.fst hspan
  have hhi : c.hi = max (s.armZone c.arm) (zoneOf c.target) := congrArg Prod.snd hspan
  have hreach' : ∀ z, c.lo ≤ z → z ≤ c.hi → armReaches c.arm z = true ∧ z < 8 := by
    intro z h1 h2
    have ho := k1 _ own.2.holds
    generalize c.arm = a at *
    cases a with
    | armA =>
      have ho : decide (s.armZone .armA ≤ 6) = true := ho
      have hr : decide (zoneOf c.target ≤ 6) = true := hreach
      have := of_decide_eq_true ho
      have := of_decide_eq_true hr
      refine ⟨?_, by omega⟩
      show decide (z ≤ 6) = true
      exact decide_eq_true (by omega)
    | armB =>
      have ho : (decide (1 ≤ s.armZone .armB) && decide (s.armZone .armB ≤ 7)) = true := ho
      have hr : (decide (1 ≤ zoneOf c.target) && decide (zoneOf c.target ≤ 7)) = true := hreach
      simp only [Bool.and_eq_true, decide_eq_true_eq] at ho hr
      refine ⟨?_, by omega⟩
      show (decide (1 ≤ z) && decide (z ≤ 7)) = true
      simp only [Bool.and_eq_true, decide_eq_true_eq]
      omega
  generalize hu' : (s.withdrawClaim c.arm).takeSpan c.arm c.lo c.hi = u
  have hz : ∀ z, u.zone? z = if c.lo ≤ z ∧ z ≤ c.hi then some ⟨c.arm, .claimed⟩ else s.zone? z := by
    intro z
    subst hu'
    unfold State.takeSpan
    rw [State.zone?_mapZones, State.withdrawClaim_zone?]
    by_cases e8 : z < 8
    · rw [if_pos e8]
    · rw [if_neg e8, if_neg (fun q => e8 (hreach' z q.1 q.2).2), State.zone?_big (by omega)]
  have harm : ∀ b, u.arm b = s.arm b := by
    intro b; subst hu'; unfold State.takeSpan; simp
  have hw : ∀ b, u.waitingFrames b = s.waitingFrames b := by
    intro b; subst hu'; unfold State.takeSpan; simp [State.waitingFrames]
  have hcl : ∀ d, d ∈ u.sch.claims → d ∈ s.sch.claims ∧ d.arm ≠ c.arm := by
    intro d h; subst hu'
    exact State.mem_withdrawClaim.mp h
  have hf : ∀ z, s.firm c.arm z → u.firm c.arm z := by
    intro z ⟨q, e, n⟩
    unfold State.firm
    rw [hz]
    split
    · exact ⟨.claimed, rfl, by simp⟩
    · exact ⟨q, e, n⟩
  have hbusy : u.armBusy c.arm = s.armBusy c.arm := by
    rw [Bool.eq_iff_iff, ← not_iff_not]
    simp only [Bool.not_eq_true, State.armBusy_false, harm, hw]
  have hzone : u.armZone c.arm = s.armZone c.arm := by simp only [State.armZone, harm]
  refine ⟨RailLawful.forArm c.arm (fun b hb z q => ?_) (fun b hb => ⟨harm b, hw b⟩) (fun b hb d h e => (hcl d h).1) (fun z h => ?_) ?_ k, ?_⟩
  · rw [hz]
    split
    · rename_i e
      refine iff_of_false (fun w => ?_) (hopen z (hreach' z e.1 e.2).2 e.1 e.2 b hb q)
      simp only [Option.some.injEq, Holding.mk.injEq] at w
      exact hb w.1.symm
    · rfl
  · by_cases e : c.lo ≤ z ∧ z ≤ c.hi
    · refine .inr fun b hb y hy => ?_
      obtain ⟨q, hq⟩ := State.holds_iff.mp hy
      have hy8 := State.holds_small hy
      have hno : ¬ (c.lo ≤ y ∧ y ≤ c.hi) := fun w => hopen y hy8 w.1 w.2 b hb q hq
      have hown := own.2.holds
      generalize c.arm = a at *
      cases a with
      | armA =>
        cases b with
        | armA => exact absurd rfl hb
        | armB =>
          have := k.1 _ _ hown hy
          show z < y
          omega
      | armB =>
        cases b with
        | armB => exact absurd rfl hb
        | armA =>
          have := k.1 _ _ hy hown
          show y < z
          omega
    · left
      obtain ⟨q, h⟩ := State.holds_iff.mp h
      rw [hz, if_neg e] at h
      exact State.holds_iff.mpr ⟨q, h⟩
  · refine ⟨fun z h => ?_, fun _ => ?_, fun h => ?_, fun l v lo hi h => ?_, fun l h => ?_, fun d h e => ?_, fun h => ?_⟩
    · by_cases e : c.lo ≤ z ∧ z ≤ c.hi
      · exact (hreach' z e.1 e.2).1
      · obtain ⟨q, h⟩ := State.holds_iff.mp h
        rw [hz, if_neg e] at h
        exact k1 z (State.holds_iff.mpr ⟨q, h⟩)
    · rw [harm, hzone]; exact ⟨own.1, hf _ own.2⟩
    · rw [harm] at h; exact absurd (hr.symm.trans h) (by simp)
    · rw [harm] at h; exact State.goesInto_mono hf (k4 l v lo hi h)
    · rw [hw] at h ⊢
      rw [harm]
      exact ⟨(k5 l h).1, (k5 l h).2.1, State.goesInto_mono hf (k5 l h).2.2⟩
    · exact absurd e (hcl d h).2
    · rw [hbusy]; exact hb
  · refine ⟨hbusy.trans hb, by rw [harm]; exact hr, fun d h => (hcl d h).2, ?_, .claimed, ?_, by simp⟩
    · have := (hreach' (zoneOf c.target) (by omega) (by omega)).2
      simp only [zoneOf] at this
      omega
    · rw [hz, if_pos ⟨by omega, by omega⟩]

/-- An arm with no claim and no LEG waiting begins to home: the zones of its path are its own (R108). -/
theorem RailLawful.takePath {a : ArmId} {f : Arm → Arm} (hf : (f (s.arm a)).state = .homing)
    (hcol : (f (s.arm a)).column = (s.arm a).column) (ho : (f (s.arm a)).outstanding = (s.arm a).outstanding)
    (hl : ∀ l, ArmFrame.leg l ∉ s.waitingFrames a) (hc : s.unclaimed a) (k : s.RailLawful) :
    ((s.updArm a f).takePath a).RailLawful := by
  obtain ⟨k1, k2, k3, k4, k5, k6, k7⟩ := k.2.2 a
  have h32 : (s.arm a).column < 32 := by
    by_cases u : (s.arm a).state = .unhomed
    · rw [(k3 u).2.1]; cases a <;> decide
    · exact (k2 u).1
  -- the zone an arm stands in, and the zones it holds, lie on its side of the other arm's
  have side : ∀ z, (z = s.armZone a ∨ s.holds a z = true) → z < 8 ∧ armReaches a z = true ∧
      ∀ b, b ≠ a → ∀ y, s.holds b y = true → apart a z y := by
    have held : ∀ z, s.holds a z = true → z < 8 ∧ armReaches a z = true ∧ ∀ b, b ≠ a → ∀ y, s.holds b y = true → apart a z y := by
      intro z h
      refine ⟨State.holds_small h, k1 z h, fun b hb y hy => ?_⟩
      cases a with
      | armA =>
        cases b with
        | armA => exact absurd rfl hb
        | armB => exact k.1 _ _ h hy
      | armB =>
        cases b with
        | armB => exact absurd rfl hb
        | armA => exact k.1 _ _ hy h
    intro z h
    rcases h with h | h
    · by_cases u : (s.arm a).state = .unhomed
      · have hcol' := (k3 u).2.1
        cases a with
        | armA =>
          have : z = 0 := by rw [h, State.armZone, hcol']; rfl
          refine ⟨by omega, by rw [this]; rfl, fun b hb y hy => ?_⟩
          cases b with
          | armA => exact absurd rfl hb
          | armB =>
            have := (k.2.2 .armB).1 y hy
            have : (decide (1 ≤ y) && decide (y ≤ 7)) = true := this
            simp only [Bool.and_eq_true, decide_eq_true_eq] at this
            show z < y
            omega
        | armB =>
          have : z = 7 := by rw [h, State.armZone, hcol']; rfl
          refine ⟨by omega, by rw [this]; rfl, fun b hb y hy => ?_⟩
          cases b with
          | armB => exact absurd rfl hb
          | armA =>
            have := of_decide_eq_true (show decide (y ≤ 6) = true from (k.2.2 .armA).1 y hy)
            show y < z
            omega
      · rw [h]; exact held _ (k2 u).2.holds
    · exact held z h
  have hstand : ∀ b, b ≠ a → ∀ q, s.zone? (s.armZone a) ≠ some ⟨b, q⟩ := by
    intro b hb q e
    have := (side _ (.inl rfl)).2.2 b hb _ (State.holds_iff.mpr ⟨q, e⟩)
    cases a <;> exact absurd this (Nat.lt_irrefl _)
  generalize hu' : (s.updArm a f).takePath a = u
  -- what the zones come to
  have hz : ∀ z, (u.zone? z = some ⟨a, .standing⟩ ∧ z = s.armZone a) ∨
      (z ≠ s.armZone a ∧ u.zone? z = some ⟨a, .claimed⟩ ∧ (s.zone? z = none ∨ s.zone? z = some ⟨a, .lingering⟩) ∧ z < 8 ∧
        ∃ y, (y = s.armZone a ∨ s.holds a y = true) ∧ (match a with | .armA => z ≤ y | .armB => y ≤ z)) ∨
      (z ≠ s.armZone a ∧ u.zone? z = s.zone? z) := by
    intro z
    have hstand' : (s.updArm a f).armZone a = s.armZone a := by simp [State.armZone, hcol]
    have hholds : ∀ y, (s.updArm a f).holds a y = s.holds a y := fun y => by simp [State.holds]
    subst hu'
    unfold State.takePath
    simp only [hstand', hholds]
    rw [State.zone?_mapZones, State.updArm_zone?]
    by_cases e8 : z < 8
    · rw [if_pos e8]
      by_cases e : z = s.armZone a
      · rw [if_pos e]; exact .inl ⟨rfl, e⟩
      · rw [if_neg e]
        have key : ∀ {p q : Prop} [Decidable p], (p → (s.zone? z = none ∨ s.zone? z = some ⟨a, .lingering⟩) ∧ q) →
            ((if p then some ⟨a, .claimed⟩ else s.zone? z) = some ⟨a, .claimed⟩ ∧ (s.zone? z = none ∨ s.zone? z = some ⟨a, .lingering⟩) ∧ q) ∨
            (if p then some ⟨a, .claimed⟩ else s.zone? z) = s.zone? z := by
          intro p q _ h
          by_cases c : p
          · rw [if_pos c]; exact .inl ⟨rfl, h c⟩
          · rw [if_neg c]; exact .inr rfl
        refine .inr (Or.imp (fun c => ⟨e, c.1, c.2.1, e8, c.2.2⟩) (fun c => ⟨e, c⟩) (key fun c => ?_))
        refine ⟨c.imp (fun c => c.1) (fun c => c.1), ?_⟩
        rcases c with ⟨_, c⟩ | ⟨_, c⟩
        · obtain ⟨y, hy, ty⟩ := List.any_eq_true.mp c
          have hy := (List.mem_filter.mp hy).2
          simp only [Bool.or_eq_true, beq_iff_eq] at hy
          refine ⟨y, hy, ?_⟩
          cases a <;> exact of_decide_eq_true ty
        · refine ⟨s.armZone a, .inl rfl, ?_⟩
          cases a <;> exact of_decide_eq_true c
    · rw [if_neg e8]
      have : z ≠ s.armZone a := fun e => e8 (e ▸ (side _ (.inl rfl)).1)
      exact .inr (.inr ⟨this, (State.zone?_big (by omega)).symm⟩)
  have harm : ∀ b, u.arm b = if b = a then f (s.arm a) else s.arm b := by
    intro b; subst hu'; unfold State.takePath; rw [State.mapZones_arm, State.arm_updArm]
  have hw : ∀ b, u.waitingFrames b = s.waitingFrames b := by
    intro b; subst hu'; unfold State.takePath; simp [State.waitingFrames]
  have hcl : u.sch.claims = s.sch.claims := by
    subst hu'; unfold State.takePath; simp
  have new : ∀ z, u.holds a z = true → armReaches a z = true ∧ (s.holds a z = true ∨ ∀ b, b ≠ a → ∀ y, s.holds b y = true → apart a z y) := by
    intro z h
    rcases hz z with c | c | c
    · have := side z (.inl c.2)
      exact ⟨this.2.1, .inr this.2.2⟩
    · obtain ⟨_, _, _, h8, y, hy, ty⟩ := c
      have := side y hy
      refine ⟨?_, .inr fun b hb w hw' => ?_⟩
      · cases a with
        | armA =>
          have h6 := of_decide_eq_true (show decide (y ≤ 6) = true from this.2.1)
          have ty : z ≤ y := ty
          show decide (z ≤ 6) = true
          exact decide_eq_true (by omega)
        | armB =>
          have h6 : (decide (1 ≤ y) && decide (y ≤ 7)) = true := this.2.1
          simp only [Bool.and_eq_true, decide_eq_true_eq] at h6
          have ty : y ≤ z := ty
          show (decide (1 ≤ z) && decide (z ≤ 7)) = true
          simp only [Bool.and_eq_true, decide_eq_true_eq]
          omega
      · have := this.2.2 b hb w hw'
        cases a with
        | armA => exact Nat.lt_of_le_of_lt ty this
        | armB => exact Nat.lt_of_lt_of_le this ty
    · obtain ⟨q, h⟩ := State.holds_iff.mp h
      rw [c.2] at h
      have h := State.holds_iff.mpr ⟨q, h⟩
      exact ⟨k1 z h, .inl h⟩
  have hff : ∀ z, s.firm a z → u.firm a z := by
    intro z ⟨q, e, n⟩
    rcases hz z with c | c | c
    · exact ⟨.standing, c.1, by simp⟩
    · exact ⟨.claimed, c.2.1, by simp⟩
    · exact ⟨q, c.2.trans e, n⟩
  have ha : u.arm a = f (s.arm a) := by rw [harm, if_pos rfl]
  have hown : u.firm a (s.armZone a) := by
    rcases hz (s.armZone a) with c | c | c
    · exact ⟨.standing, c.1, by simp⟩
    · exact absurd rfl c.1
    · exact absurd rfl c.1
  refine RailLawful.forArm a (fun b hb z q => ?_) (fun b hb => ⟨by rw [harm, if_neg hb], hw b⟩) (fun b hb d h e => by rwa [hcl] at h)
    (fun z h => (new z h).2) ?_ k
  · rcases hz z with c | c | c
    · rw [c.1, c.2]
      refine iff_of_false (fun w => ?_) (hstand b hb q)
      simp only [Option.some.injEq, Holding.mk.injEq] at w
      exact hb w.1.symm
    · rw [c.2.1]
      refine iff_of_false (fun w => ?_) (fun w => ?_)
      · simp only [Option.some.injEq, Holding.mk.injEq] at w
        exact hb w.1.symm
      · rcases c.2.2.1 with e | e
        · rw [e] at w; cases w
        · rw [e] at w
          simp only [Option.some.injEq, Holding.mk.injEq] at w
          exact hb w.1.symm
    · rw [c.2]
  · refine ⟨fun z h => (new z h).1, fun _ => ?_, fun h => ?_, fun l v lo hi h => ?_, fun l h => ?_, fun d h e => ?_, fun h => ?_⟩
    · rw [State.armZone, ha, hcol]; exact ⟨h32, hown⟩
    · rw [ha, hf] at h; cases h
    · rw [ha, ho] at h; exact State.goesInto_mono hff (k4 l v lo hi h)
    · rw [hw] at h; exact absurd h (hl l)
    · rw [hcl] at h; exact absurd e (hc d h)
    · rw [ha, hf] at h; cases h

end Sys2Proof.Machine
end

