-- ==== Sys2Proof/Laws/KeepsOrders.lean ====
section
/-! SUPPORT. What every operation inside a step keeps (Laws/Keeps.lean): the order pool and the Arm Scheduler. -/

set_option linter.unusedTactic false
set_option linter.unreachableTactic false

namespace Sys2Proof.Machine

variable {s t : State} {L : Law → Prop}

/-! ### What leaves the scheduler alone -/

@[simp] theorem State.putRecord_sch {r : AcctRecord} : (s.putRecord r).sch = s.sch := by
  unfold State.putRecord State.updAccount
  simp only [State.updDrive_sch]
  split <;> rfl

@[simp] theorem State.recordClaim_sch {d : Fin 16} {session : Option Session} {outcome : RecOutcome} :
    (s.recordClaim d session outcome).sch = s.sch := by
  unfold State.recordClaim
  repeat' split
  all_goals simp

@[simp] theorem State.endClaim_sch {d : Fin 16} : (s.endClaim d).sch = s.sch := by
  unfold State.endClaim State.countClaimEnd State.updAccount State.dropClaimed
  repeat' split
  all_goals simp [State.setAccount]

@[simp] theorem State.stopLoadTimer_sch {d : Fin 16} : (s.stopLoadTimer d).sch = s.sch := rfl

@[simp] theorem State.restDrive_sch {d : Fin 16} : (s.restDrive d).sch = s.sch := by
  unfold State.restDrive
  repeat' split
  all_goals simp

@[simp] theorem State.giveUpClaim_sch {d : Fin 16} {outcome : RecOutcome} : (s.giveUpClaim d outcome).sch = s.sch := by
  unfold State.giveUpClaim
  dsimp only
  split <;> simp

@[simp] theorem State.loseClaim_sch {d : Fin 16} : (s.loseClaim d).sch = s.sch := by
  unfold State.loseClaim
  repeat' split
  all_goals simp

@[simp] theorem State.placeFailed_sch {d : Fin 16} : (s.placeFailed d).sch = s.sch := by
  unfold State.placeFailed
  dsimp only
  repeat' split
  all_goals simp

@[simp] theorem State.attend_sch {l : Option Nat} : (s.attend l).sch = s.sch := by
  have one : ∀ (u : State) (o : Output), (u.followUnit l o).sch = u.sch := by
    intro u o
    unfold State.followUnit
    dsimp only
    split
    · cases o <;> rfl
    · split
      · cases o <;> rfl
      · rfl
  unfold State.attend
  rw [one, one]

@[simp] theorem State.issue_sch {kind : PromptKind} {names : Names} : (s.issue kind names).1.sch = s.sch := by
  unfold State.issue
  simp

@[simp] theorem State.testOwed_sch {l : List Equipment} : (s.testOwed l).sch = s.sch := by
  induction l with
  | nil => rfl
  | cons e rest ih =>
    unfold State.testOwed
    split
    · exact State.issue_sch
    · exact ih

@[simp] theorem State.endEquipment_sch {e : Equipment} : (s.endEquipment e).sch = s.sch := by
  unfold State.endEquipment State.withdraw State.leaveList
  repeat' split
  all_goals first | rfl | simp [State.queueWithdrawal, State.unprompt]

theorem State.markStarted_rail {a : ArmId} : (s.markStarted a).sch.rail = s.sch.rail := by
  unfold State.markStarted
  repeat' split
  all_goals first | rfl | (rw [State.notify_sch]; rfl)

/-! ### The rail -/

/-- An arm that may let go of zones: in service, no LEG in hand or waiting, no claim. -/
def State.mayRelease (s : State) (a : ArmId) : Prop := (s.arm a).state ≠ .unhomed ∧ s.legFree a ∧ s.unclaimed a

/-- An arm that may start a leg: RUNNING, with nothing in hand and no claim. -/
def State.ready (s : State) (a : ArmId) : Prop := (s.arm a).state = .running ∧ s.armBusy a = false ∧ s.unclaimed a

theorem State.ready.release {a : ArmId} (h : s.ready a) : s.mayRelease a := by
  obtain ⟨h1, h2, h3⟩ := h
  rw [State.armBusy_false] at h2
  exact ⟨by rw [h1]; simp, ⟨h2.1, by rw [h2.2]; simp⟩, h3⟩

/-- What of two states the rail law looks at alike is alike for all it says. -/
theorem State.rail_eq (h : t.sch.rail = s.sch.rail) : (∀ z, t.zone? z = s.zone? z) ∧ t.sch.claims = s.sch.claims ∧
    ∀ a, (t.arm a).state = (s.arm a).state ∧ (t.arm a).column = (s.arm a).column ∧ (t.arm a).outstanding = (s.arm a).outstanding ∧
      t.waitingFrames a = s.waitingFrames a := by
  simp only [SchedBlock.rail, Arm.onRail, Prod.mk.injEq] at h
  obtain ⟨h1, h2, ⟨h3, h4⟩, h5, h6⟩ := h
  refine ⟨fun z => by simp only [State.zone?, h1], h2, fun a => ?_⟩
  cases a <;> simp only [State.arm, State.waitingFrames, State.armPort] <;> simp_all

theorem State.ready_of {a : ArmId} (h : t.sch.rail = s.sch.rail) (k : s.ready a) : t.ready a := by
  obtain ⟨_, e2, e3⟩ := State.rail_eq h
  obtain ⟨k1, k2, k3⟩ := k
  rw [State.armBusy_false] at k2
  refine ⟨(e3 a).1.trans k1, State.armBusy_false.mpr ⟨(e3 a).2.2.1.trans k2.1, (e3 a).2.2.2.trans k2.2⟩, fun c hc => ?_⟩
  rw [e2] at hc
  exact k3 c hc

theorem State.mayGo_of {a : ArmId} {f : ArmFrame} (h : t.sch.rail = s.sch.rail) (k : s.mayGo a f) : t.mayGo a f := by
  obtain ⟨e1, e2, e3⟩ := State.rail_eq h
  have hu : s.unclaimed a → t.unclaimed a := fun q c hc => q c (e2 ▸ hc)
  have hg : ∀ l, s.goesInto a l → t.goesInto a l :=
    fun l => State.goesInto_mono (fun z => fun ⟨q, e, n⟩ => ⟨q, (e1 z).trans e, n⟩)
  cases f with
  | leg l =>
    obtain ⟨k1, k2, k3, k4⟩ := k
    rw [State.armBusy_false] at k1
    exact ⟨State.armBusy_false.mpr ⟨(e3 a).2.2.1.trans k1.1, (e3 a).2.2.2.trans k1.2⟩, (e3 a).1.trans k2, hu k3, hg l k4⟩
  | home | status =>
    obtain ⟨k1, k2, k3, k4⟩ := k
    exact ⟨by rw [(e3 a).2.2.2]; exact k1, by rw [(e3 a).1]; exact k2, by rw [(e3 a).1]; exact k3, hu k4⟩
  | stop => trivial

theorem Keeps.mapZonesBut (h : Keeps L s t) {f : Nat → Option Holding → Option Holding} (hL : ¬ L .rail) : Keeps L s (t.mapZones f) :=
  h.setSch (Nat.le_max_left _ _) (fun _ => rfl) (fun c => absurd c hL)

theorem Keeps.releaseOthers (h : Keeps L s t) {a : ArmId} (hr : L .rail → t.law .rail → t.mayRelease a) : Keeps L s (t.releaseOthers a) :=
  (h.but.mapZonesBut (fun c => without_self c)).mend (fun hi k =>
    have k := h.laws _ hi k
    have q := hr hi k
    RailLawful.releaseOthers q.1 q.2.1 q.2.2 k)

theorem Keeps.releaseLingering (h : Keeps L s t) {a : ArmId} : Keeps L s (t.releaseLingering a) := by
  refine (h.but.mapZonesBut (fun c => without_self c)).mend (i := .rail) (fun hi k => ?_)
  refine RailLawful.shrink (s := t) (t := t.releaseLingering a) (fun z => ?_) (fun b => by cases b <;> rfl) (fun b => by cases b <;> rfl)
    (fun b => .inl (by cases b <;> rfl)) (fun b => by cases b <;> exact List.Sublist.refl _) (fun c hc => hc) (h.laws _ hi k)
  rw [State.releaseLingering, State.zone?_mapZones]
  split
  · split
    · rename_i e; exact .inr ⟨rfl, a, e⟩
    · exact .inl rfl
  · exact .inl (State.zone?_big (by omega)).symm

theorem Keeps.lingerZones (h : Keeps L s t) {a : ArmId} (hr : L .rail → t.law .rail → t.mayRelease a) : Keeps L s (t.lingerZones a) := by
  unfold State.lingerZones
  dsimp only
  split
  · exact (h.releaseOthers hr).updArm (fun _ _ => rfl) (fun _ _ => rfl)
  · refine Keeps.updArm (Keeps.mend (i := .rail) (h.but.mapZonesBut (fun c => without_self c)) (fun hi k => ?_)) (fun _ _ => rfl)
      (fun _ _ => rfl)
    have k := h.laws _ hi k
    exact RailLawful.linger (hr hi k).1 (hr hi k).2.1 k

theorem Keeps.withdrawClaimBut (h : Keeps L s t) {a : ArmId} (hL : ¬ L .rail) : Keeps L s (t.withdrawClaim a) :=
  h.setSch (Nat.le_max_left _ _) (fun _ => rfl) (fun c => absurd c hL)

theorem Keeps.withdrawClaim (h : Keeps L s t) {a : ArmId} : Keeps L s (t.withdrawClaim a) := by
  refine (h.but.withdrawClaimBut (fun c => without_self c)).mend (i := .rail) (fun hi k => ?_)
  refine RailLawful.shrink (fun z => .inl (by simp)) (fun b => by simp) (fun b => by simp) (fun b => .inl (by simp)) (fun b => ?_)
    (fun c hc => (State.mem_withdrawClaim.mp hc).1) (h.laws _ hi k)
  simp [State.waitingFrames]

theorem State.withdrawClaim_unclaimed {a : ArmId} : (s.withdrawClaim a).unclaimed a := fun _ hc => (State.mem_withdrawClaim.mp hc).2

theorem Keeps.makeClaim (h : Keeps L s t) {a : ArmId} {target : Nat}
    (hr : L .rail → t.law .rail → (t.arm a).state = .running ∧ t.armBusy a = false) : Keeps L s (t.makeClaim a target) := by
  refine Keeps.mend (i := .rail) ?_ (fun hi k => ?_)
  · have k : ∀ {M : Law → Prop} (u : State), ¬ M .rail → Keeps M s u → ∀ c,
        Keeps M s { u with sch := { u.sch with claims := u.sch.claims ++ [c] } } :=
      fun u hM h c => h.setSch (Nat.le_max_left _ _) (fun _ => rfl) (fun c => absurd c hM)
    unfold State.makeClaim
    refine k _ (fun c => without_self c) (Keeps.mapZonesBut (Keeps.updArm h.but ?_ ?_) (fun c => without_self c)) _
    · exact fun _ _ => rfl
    · exact fun _ _ => rfl
  · have k := h.laws _ hi k
    exact RailLawful.makeClaim (hr hi k).1 (hr hi k).2 k

/-- An arm's state changes, as the rail law lets it. -/
theorem Keeps.setArmState (h : Keeps L s t) {a : ArmId} {f : Arm → Arm} (hg : L .paired → (f (t.arm a)).gripper = (t.arm a).gripper)
    (hc : (f (t.arm a)).column = (t.arm a).column) (ho : (f (t.arm a)).outstanding = (t.arm a).outstanding)
    (hr : L .rail → t.law .rail → (t.arm a).state ≠ .unhomed ∧ (f (t.arm a)).state ≠ .unhomed ∧ t.unclaimed a ∧
      ((f (t.arm a)).state = .idle → t.armBusy a = false)) : Keeps L s (t.updArm a f) := by
  refine Keeps.mend (i := .rail) (h.but.setArm (fun c => hg c.1) (fun c => without_self c)) (fun hi k => ?_)
  have k := h.laws _ hi k
  have q := hr hi k
  exact RailLawful.setState q.1 q.2.1 hc ho (.inr q.2.2.1) q.2.2.2 k

/-- An arm's record changes as no law but the rail's minds. -/
theorem Keeps.updArmBut (h : Keeps L s t) {a : ArmId} {f : Arm → Arm} (hL : ¬ L .rail)
    (hg : L .paired → (f (t.arm a)).gripper = (t.arm a).gripper) : Keeps L s (t.updArm a f) :=
  h.setArm hg (fun c => absurd c hL)

theorem Keeps.releaseOthersBut (h : Keeps L s t) {a : ArmId} (hL : ¬ L .rail) : Keeps L s (t.releaseOthers a) := by
  unfold State.releaseOthers
  exact h.mapZonesBut hL

/-- What an arm has outstanding is dropped. -/
theorem Keeps.clearArm (h : Keeps L s t) {a : ArmId} {f : Arm → Arm} (hg : L .paired → (f (t.arm a)).gripper = (t.arm a).gripper)
    (hs : (f (t.arm a)).state = (t.arm a).state) (hc : (f (t.arm a)).column = (t.arm a).column)
    (ho : (f (t.arm a)).outstanding = none) : Keeps L s (t.updArm a f) :=
  (h.but.setArm (fun c => hg c.1) (fun c => without_self c)).mend (i := .rail) (fun hi k =>
    RailLawful.clearOutstanding hs hc ho (h.laws _ hi k))

/-- Some of what waits for an arm's line is dropped. -/
theorem Keeps.setArmPortFewer (h : Keeps L s t) {a : ArmId} {x : ArmPort} (hw : x.waiting.Sublist (t.armPort a).waiting) :
    Keeps L s (t.setArmPort a x) := by
  refine (h.but.setArmPort (fun c => without_self c)).mend (i := .rail) (fun hi k => ?_)
  refine RailLawful.shrink (fun z => .inl (by simp)) (fun b => by simp) (fun b => by simp) (fun b => .inl (by simp)) (fun b => ?_)
    (fun c hc => by simpa using hc) (h.laws _ hi k)
  by_cases hb : b = a
  · subst hb
    rw [State.waitingFrames_self]
    exact hw.filter _
  · rw [State.waitingFrames_ne hb]

/-! ### The order pool -/

theorem Keeps.reserve (h : Keeps L s t) {p : Fin 8} {id : Nat} : Keeps L s (t.reserve p id) := by
  unfold State.reserve
  repeat' first
    | with_reducible exact h | with_reducible apply Keeps.ite | with_reducible apply Keeps.updStation
    | exact fun _ => rfl | exact fun _ _ => rfl | exact fun _ _ => Or.inr rfl
    | exact fun _ q => Gripper.noConfusion q | exact rfl
    | split | dsimp only

theorem Keeps.unreserve (h : Keeps L s t) {id : Nat} : Keeps L s (t.unreserve id) := by
  unfold State.unreserve
  repeat' first
    | with_reducible exact h | with_reducible apply Keeps.ite | with_reducible refine Keeps.foldl (fun h => ?_) ?_
    | with_reducible apply Keeps.updStation | with_reducible apply Keeps.notify
    | exact fun _ => rfl | exact fun _ _ => rfl | exact fun _ _ => Or.inr rfl
    | exact fun _ q => Gripper.noConfusion q | exact rfl
    | split | dsimp only

theorem Keeps.unreserveSilently (h : Keeps L s t) {id : Nat} : Keeps L s (t.unreserveSilently id) :=
  h.mapStations (fun x => by split <;> rfl)

theorem Keeps.reserveDest (h : Keeps L s t) {id : Nat} {p : Option Place} : Keeps L s (t.reserveDest id p) := by
  unfold State.reserveDest
  split
  · exact h.reserve
  · exact h

theorem Keeps.bindOrder (h : Keeps L s t) {id : Nat} : Keeps L s (t.bindOrder id) := by
  unfold State.bindOrder
  repeat' first
    | with_reducible exact h | with_reducible apply Keeps.ite | with_reducible apply Keeps.updOrder
    | with_reducible apply Keeps.notify
    | exact fun _ => rfl | exact fun _ _ => rfl | exact fun _ _ => Or.inr rfl
    | exact fun _ q => Gripper.noConfusion q | exact rfl
    | split | dsimp only

theorem Keeps.bindUnbound (h : Keeps L s t) : Keeps L s (t.bindUnbound) := by
  unfold State.bindUnbound
  repeat' first
    | with_reducible exact h | with_reducible apply Keeps.ite | with_reducible refine Keeps.foldl (fun h => ?_) ?_
    | with_reducible apply Keeps.bindOrder
    | exact fun _ => rfl | exact fun _ _ => rfl | exact fun _ _ => Or.inr rfl
    | exact fun _ q => Gripper.noConfusion q | exact rfl
    | split | dsimp only

theorem Keeps.createOrder (h : Keeps L s t) {kind : OrderKind} {source dest : Option Place} {volume : Option Nat}
    {tag : Option Half} {legs : List Leg} {arm : Option ArmId} {x : State × Nat}
    (e : t.createOrder kind source dest volume tag legs arm = some x) : Keeps L s x.1 := by
  unfold State.createOrder at e
  split at e
  · rename_i hc
    have hr : roomFor kind arm.isSome ≤ 32 := by
      unfold roomFor Config.poolRoom Config.poolRoomDriveRecover
      (repeat' split) <;> omega
    have k : ∀ o : Order, ∀ i, Keeps L s { t with sch := { t.sch with pool := t.sch.pool ++ [o], nextId := i } } := by
      intro o i
      refine h.setSch ?_ (fun _ => rfl) (fun _ => rfl)
      simp only [List.length_append, List.length_singleton]
      omega
    dsimp only at e
    cases e
    dsimp only
    split
    · exact (k _ _).reserveDest.notify
    · exact (k _ _).reserveDest.bindOrder
  · cases e

theorem Keeps.createOrder' (h : Keeps L s t) {kind : OrderKind} {source dest : Option Place} {volume : Option Nat} {tag : Option Half}
    {legs : List Leg} {arm : Option ArmId} {u : State} {n : Nat}
    (e : t.createOrder kind source dest volume tag legs arm = some (u, n)) : Keeps L s u := h.createOrder e

theorem Keeps.createCarry (h : Keeps L s t) {kind : OrderKind} {source dest : Place} {volume : Nat} {tag : Option Half}
    {x : State × Nat} (e : t.createCarry kind source dest volume tag = some x) : Keeps L s x.1 := h.createOrder e

theorem Keeps.createCarry' (h : Keeps L s t) {kind : OrderKind} {source dest : Place} {volume : Nat} {tag : Option Half} {u : State} {n : Nat}
    (e : t.createCarry kind source dest volume tag = some (u, n)) : Keeps L s u := h.createCarry e

theorem Keeps.createImport (h : Keeps L s t) {p : Fin 8} {u : State} (e : t.createImport p = some u) : Keeps L s u := by
  unfold State.createImport at e
  obtain ⟨x, hx, rfl⟩ := Option.map_eq_some_iff.mp e
  exact (h.createOrder hx).reserve

theorem Keeps.createScan (h : Keeps L s t) {column : Nat} {slots : List Nat} {x : State × Nat}
    (e : t.createScan column slots = some x) : Keeps L s x.1 := h.createOrder e

theorem Keeps.createScan' (h : Keeps L s t) {column : Nat} {slots : List Nat} {u : State} {n : Nat}
    (e : t.createScan column slots = some (u, n)) : Keeps L s u := h.createScan e

theorem Keeps.ensureRecover (h : Keeps L s t) {a : ArmId} : Keeps L s (t.ensureRecover a) := by
  unfold State.ensureRecover
  split
  · exact h
  · dsimp only
    split
    · rename_i e
      exact h.createOrder e
    · exact h

theorem Keeps.createOwedRecover (h : Keeps L s t) {d : Fin 16} : Keeps L s (t.createOwedRecover d) := by
  unfold State.createOwedRecover
  split
  · exact h
  · split
    · exact h.oweRecover
    · split
      · exact h.oweRecover
      · split
        · exact h
        · split
          · rename_i e
            exact (h.createCarry e).oweRecover
          · exact h

theorem Keeps.createOwedRecovers (h : Keeps L s t) : Keeps L s (t.createOwedRecovers) := by
  unfold State.createOwedRecovers
  repeat' first
    | with_reducible exact h | with_reducible apply Keeps.ite | with_reducible refine Keeps.foldl (fun h => ?_) ?_
    | with_reducible apply Keeps.createOwedRecover
    | exact fun _ => rfl | exact fun _ _ => rfl | exact fun _ _ => Or.inr rfl
    | exact fun _ q => Gripper.noConfusion q | exact rfl
    | split | dsimp only

theorem Keeps.untake (h : Keeps L s t) {a : ArmId} : Keeps L s (t.untake a) := by
  unfold State.untake
  repeat' first
    | with_reducible exact h | with_reducible apply Keeps.ite | with_reducible apply Keeps.withdrawClaim
    | with_reducible apply Keeps.updArm | with_reducible apply Keeps.notify
    | exact fun _ => rfl | exact fun _ _ => rfl | exact fun _ _ => Or.inr rfl
    | exact fun _ q => Gripper.noConfusion q | exact rfl
    | split | dsimp only

theorem Keeps.removeOrder (h : Keeps L s t) {id : Nat} : Keeps L s (t.removeOrder id) := by
  unfold State.removeOrder
  repeat' first
    | with_reducible exact h | with_reducible apply Keeps.ite | with_reducible apply Keeps.untake
    | with_reducible apply Keeps.dropOrder | with_reducible apply Keeps.unreserve
    | exact fun _ => rfl | exact fun _ _ => rfl | exact fun _ _ => Or.inr rfl
    | exact fun _ q => Gripper.noConfusion q | exact rfl
    | split | dsimp only

theorem Keeps.removeUnstarted (h : Keeps L s t) : Keeps L s (t.removeUnstarted) := by
  unfold State.removeUnstarted
  repeat' first
    | with_reducible exact h | with_reducible apply Keeps.ite | with_reducible refine Keeps.foldl (fun h => ?_) ?_
    | with_reducible apply Keeps.removeOrder | with_reducible apply Keeps.notify
    | exact fun _ => rfl | exact fun _ _ => rfl | exact fun _ _ => Or.inr rfl
    | exact fun _ q => Gripper.noConfusion q | exact rfl
    | split | dsimp only

theorem Keeps.rebindOrders (h : Keeps L s t) {a : ArmId} : Keeps L s (t.rebindOrders a) := by
  unfold State.rebindOrders
  repeat' first
    | with_reducible exact h | with_reducible apply Keeps.ite | with_reducible refine Keeps.foldl (fun h => ?_) ?_
    | with_reducible apply Keeps.untake | with_reducible apply Keeps.bindOrder
    | exact fun _ => rfl | exact fun _ _ => rfl | exact fun _ _ => Or.inr rfl
    | exact fun _ q => Gripper.noConfusion q | exact rfl
    | split | dsimp only

/-! ### The Arm Scheduler -/

theorem Keeps.putOnLineBut (h : Keeps L s t) {a : ArmId} {f : ArmFrame} (hL : ¬ L .rail) : Keeps L s (t.putOnLine a f) := by
  unfold State.putOnLine
  repeat' first
    | with_reducible exact h | with_reducible apply Keeps.setArmPort
    | with_reducible apply Keeps.updArm | exact fun _ => rfl | exact fun _ _ => rfl | exact fun c => absurd c hL
    | split | dsimp only

theorem Keeps.sendArm (h : Keeps L s t) {a : ArmId} {f : ArmFrame} (hr : L .rail → t.law .rail → t.mayGo a f) :
    Keeps L s (t.sendArm a f) := by
  refine Keeps.mend (i := .rail) ?_ (fun hi k => RailLawful.sendArm (hr hi (h.laws _ hi k)) (h.laws _ hi k))
  have h := h.but (i := .rail)
  unfold State.sendArm
  dsimp only
  split
  · exact h.putOnLineBut (fun c => without_self c)
  · exact h.setArmPort (fun c => without_self c)

theorem Keeps.armLineFree (h : Keeps L s t) {a : ArmId} : Keeps L s (t.armLineFree a) := by
  refine Keeps.mend (i := .rail) ?_ (fun hi k => RailLawful.armLineFree (h.laws _ hi k))
  have h := h.but (i := .rail)
  unfold State.armLineFree
  dsimp only
  split
  · exact h
  · exact h.setArmPort (fun c => without_self c)
  · exact (h.setArmPort (fun c => without_self c)).putOnLineBut (fun c => without_self c)

theorem Keeps.dropLegs (h : Keeps L s t) {a : ArmId} : Keeps L s (t.dropLegs a) := by
  unfold State.dropLegs
  refine Keeps.foldl (fun h => h.placeFailed) (h.setArmPortFewer ?_)
  exact List.filter_sublist

theorem Keeps.sendStop (h : Keeps L s t) {a : ArmId} : Keeps L s (t.sendStop a) := by
  have k : Keeps L s ((t.dropLegs a).updArm a (fun x => { x with outstanding := none })) :=
    h.dropLegs.clearArm (fun _ => rfl) rfl rfl rfl
  unfold State.sendStop
  dsimp only
  split
  · exact Keeps.sendArm (k.placeFailed.setArmPortFewer (List.nil_sublist _)) (fun _ _ => trivial)
  · exact Keeps.sendArm (k.setArmPortFewer (List.nil_sublist _)) (fun _ _ => trivial)

theorem Keeps.setHomingOwed (h : Keeps L s t) {a : ArmId} {owed : Bool} : Keeps L s (t.setHomingOwed a owed) := by
  cases a <;> exact h.setSvc

theorem Keeps.enterOutOfService (h : Keeps L s t) {a : ArmId} {ask : Bool} : Keeps L s (t.enterOutOfService a ask) := by
  have k : Keeps L s ((t.withdrawClaim a).updArm a (fun x => { x with
      state := if (t.arm a).state = .unhomed then .unhomed else .outOfService, order := none, leg := none, move := none, linger := none,
      inserted := false, limitMark := false })) := by
    by_cases u : (t.arm a).state = .unhomed
    · refine h.withdrawClaim.setArm (fun _ => rfl) (fun _ => ?_)
      simp [Arm.onRail, u]
    · refine h.withdrawClaim.setArmState (fun _ => rfl) rfl rfl (fun _ _ => ?_)
      simp only [u, if_false, State.withdrawClaim_arm]
      exact ⟨u, by simp, State.withdrawClaim_unclaimed, fun q => by cases q⟩
  unfold State.enterOutOfService
  dsimp only
  exact Keeps.ite k.setHomingOwed.rebindOrders.askEquipment k.setHomingOwed.rebindOrders

theorem Keeps.closeOrder (h : Keeps L s t) {id : Nat} {ok : Bool} {cause : Option Cause} {door : Bool} {leg : Option Leg} :
    Keeps L s (t.closeOrder id ok cause door leg) := by
  unfold State.closeOrder
  repeat' first
    | with_reducible exact h | with_reducible apply Keeps.ite | with_reducible apply Keeps.dropOrder
    | with_reducible apply Keeps.unreserveSilently | with_reducible apply Keeps.unreserve
    | with_reducible apply Keeps.notify
    | exact fun _ => rfl | exact fun _ _ => rfl | exact fun _ _ => Or.inr rfl
    | exact fun _ q => Gripper.noConfusion q | exact rfl
    | split | dsimp only

theorem Keeps.endOrder (h : Keeps L s t) {a : ArmId} {o : Order} {ok : Bool} {cause : Option Cause} :
    Keeps L s (t.endOrder a o ok cause) := by
  unfold State.endOrder
  repeat' first
    | with_reducible exact h | with_reducible apply Keeps.ite | with_reducible apply Keeps.closeOrder
    | with_reducible apply Keeps.withdrawClaim | with_reducible apply Keeps.updArm
    | with_reducible apply Keeps.enterOutOfService | with_reducible apply Keeps.notify
    | exact fun _ => rfl | exact fun _ _ => rfl | exact fun _ _ => Or.inr rfl
    | exact fun _ q => Gripper.noConfusion q | exact rfl
    | split | dsimp only

theorem Keeps.markStarted (h : Keeps L s t) {a : ArmId} : Keeps L s (t.markStarted a) := by
  unfold State.markStarted
  repeat' first
    | with_reducible exact h | with_reducible apply Keeps.ite | with_reducible apply Keeps.updOrder
    | with_reducible apply Keeps.notify
    | exact fun _ => rfl | exact fun _ _ => rfl | exact fun _ _ => Or.inr rfl
    | exact fun _ q => Gripper.noConfusion q | exact rfl
    | split | dsimp only

theorem Keeps.handLeg (h : Keeps L s t) {a : ArmId} {l : Leg} (hr : L .rail → t.law .rail → t.mayGo a (.leg l)) :
    Keeps L s (t.handLeg a l) := by
  unfold State.handLeg
  dsimp only
  refine Keeps.sendArm (Keeps.updArm h.markStarted ?_ ?_) (fun hi c => ?_)
  · exact fun _ _ => rfl
  · exact fun _ _ => rfl
  have e : ((t.markStarted a).updArm a (fun x => { x with
      leg := (((t.markStarted a).arm a).order.bind (t.markStarted a).order?).map (·.next) })).sch.rail = t.sch.rail := by
    refine Eq.trans ?_ (State.markStarted_rail (a := a))
    generalize t.markStarted a = u
    cases a <;> rfl
  exact State.mayGo_of e (hr hi (rail_of e.symm c))

theorem Keeps.grantClaim (h : Keeps L s t) {c : RailClaim} (hr : L .rail → t.law .rail → c ∈ t.sch.claims ∧ t.grantable c = true) :
    Keeps L s (t.grantClaim c) := by
  unfold State.grantClaim
  refine Keeps.mend (i := .rail) ?_ (fun hi k => ?_)
  · exact Keeps.handLeg (Keeps.mapZonesBut h.but.withdrawClaim (fun c => without_self c)) (fun c => without_self c)
  · have k := h.laws _ hi k
    have q := RailLawful.grant (hr hi k).1 (hr hi k).2 k
    exact ((Keeps.refl (L := only .rail) _).handLeg (fun _ _ => q.2)).law q.1

theorem State.claimOf_mem {a : ArmId} {c : RailClaim} (h : s.claimOf a = some c) : c ∈ s.sch.claims := List.mem_of_find?_eq_some h

theorem State.claimOf_none {a : ArmId} (h : s.claimOf a = none) : s.unclaimed a := by
  intro c hc e
  have := List.find?_eq_none.mp h c hc
  simp [e] at this

/-- An arm in another state than RUNNING has no claim (R95). -/
theorem RailLawful.unclaimed {a : ArmId} (h : (s.arm a).state ≠ .running) (k : s.RailLawful) : s.unclaimed a :=
  fun c hc e => h ((k.2.2 a).2.2.2.2.2.1 c hc e).1

/-- An arm with something in hand has no claim (R95). -/
theorem RailLawful.unclaimed_busy {a : ArmId} (h : s.armBusy a ≠ false) (k : s.RailLawful) : s.unclaimed a :=
  fun c hc e => h ((k.2.2 a).2.2.2.2.2.1 c hc e).2.1

theorem Keeps.giveYield (h : Keeps L s t) {c : RailClaim} (hr : L .rail → t.mustYield c = true) : Keeps L s (t.giveYield c) := by
  have hi0 : L .rail → (t.arm (otherArm c.arm)).state = .idle := fun hi => by
    have := hr hi
    simp only [State.mustYield, Bool.and_eq_true, beq_iff_eq] at this
    exact this.1.1.1
  have k : Keeps L s (t.updArm (otherArm c.arm) (fun x => { x with
      state := .running, move := some (.yieldTo (t.sideColumn (otherArm c.arm) c.lo c.hi)) })) := by
    refine h.setArmState (fun _ => rfl) rfl rfl (fun hi k => ?_)
    have q := hi0 hi
    exact ⟨by rw [q]; simp, by simp, RailLawful.unclaimed (by rw [q]; simp) k, fun q => by cases q⟩
  have m : Keeps L s ((t.updArm (otherArm c.arm) (fun x => { x with
      state := .running, move := some (.yieldTo (t.sideColumn (otherArm c.arm) c.lo c.hi)) })).makeClaim (otherArm c.arm)
        (t.sideColumn (otherArm c.arm) c.lo c.hi)) := by
    refine Keeps.mend (i := .rail) (k.but.makeClaim (fun c => without_self c)) (fun hi j => ?_)
    have kt := h.laws _ hi j
    have busy := (kt.2.2 (otherArm c.arm)).2.2.2.2.2.2 (hi0 hi)
    refine RailLawful.makeClaim (by simp) ?_ (k.laws _ hi j)
    rw [State.armBusy_false] at busy ⊢
    simpa [State.waitingFrames] using busy
  unfold State.giveYield
  dsimp only
  split
  · rename_i d hd
    split
    · rename_i g
      exact m.grantClaim (fun _ _ => ⟨State.claimOf_mem hd, g⟩)
    · exact m
  · exact m

theorem Keeps.insertTravel (h : Keeps L s t) {a : ArmId} {column : Nat} : Keeps L s (t.insertTravel a column) := by
  unfold State.insertTravel
  repeat' first
    | with_reducible exact h | with_reducible apply Keeps.ite | with_reducible apply Keeps.updOrder
    | with_reducible apply Keeps.updArm
    | exact fun _ => rfl | exact fun _ _ => rfl | exact fun _ _ => Or.inr rfl
    | exact fun _ q => Gripper.noConfusion q | exact rfl
    | split | dsimp only

theorem Keeps.testClaim (h : Keeps L s t) {c : RailClaim} {u : State} (hc : c ∈ t.sch.claims) (e : t.testClaim c = some u) : Keeps L s u := by
  unfold State.testClaim at e
  split at e
  · rename_i g
    cases e; exact h.grantClaim (fun _ _ => ⟨hc, g⟩)
  · split at e
    · dsimp only at e; split at e <;> cases e <;> exact h.withdrawClaim.insertTravel.notify
    · split at e
      · rename_i g
        cases e; exact h.giveYield (fun _ => g)
      · cases e

theorem Keeps.firstClaim (h : Keeps L s t) {l : List RailClaim} {u : State} (hl : ∀ c ∈ l, c ∈ t.sch.claims) (e : t.firstClaim l = some u) :
    Keeps L s u := by
  induction l with
  | nil => cases e
  | cons c rest ih =>
    unfold State.firstClaim at e
    split at e
    · rename_i k; cases e; exact h.testClaim (hl c List.mem_cons_self) k
    · exact ih (fun d hd => hl d (List.mem_cons_of_mem _ hd)) e

theorem Keeps.testClaims (h : Keeps L s t) {n : Nat} : Keeps L s (State.testClaims n t) := by
  induction n generalizing t with
  | zero => exact h
  | succ n ih =>
    unfold State.testClaims
    split
    · rename_i k; exact ih (h.firstClaim (fun _ q => q) k)
    · exact h

theorem Keeps.claimTravel (h : Keeps L s t) {a : ArmId} {target : Nat}
    (hr : L .rail → t.law .rail → (t.arm a).state = .running ∧ t.armBusy a = false) : Keeps L s (t.claimTravel a target) := by
  unfold State.claimTravel
  dsimp only
  have k := h.makeClaim (a := a) (target := target) hr
  generalize t.makeClaim a target = u at k
  cases hd : u.claimOf a with
  | none => exact k
  | some d =>
    dsimp only
    cases hc : u.testClaim d with
    | none => exact k
    | some v => exact k.testClaim (State.claimOf_mem hd) hc

theorem State.releaseOthers_sch {a : ArmId} : (∀ b, (s.releaseOthers a).arm b = s.arm b) ∧ (s.releaseOthers a).sch.claims = s.sch.claims ∧
    ∀ b, (s.releaseOthers a).waitingFrames b = s.waitingFrames b := by
  unfold State.releaseOthers
  exact ⟨fun b => by simp, rfl, fun b => by simp [State.waitingFrames]⟩

theorem Keeps.arriveMove (h : Keeps L s t) {a : ArmId} {m : Move} (hr : L .rail → t.law .rail → t.mayRelease a) :
    Keeps L s (t.arriveMove a m) := by
  have k : Keeps L s ((t.releaseOthers a).updArm a (fun x => { x with move := none, leg := none, linger := none })) :=
    (h.releaseOthers hr).updArm (fun _ _ => rfl) (fun _ _ => rfl)
  unfold State.arriveMove
  dsimp only
  split
  · exact k.notify
  · split
    · exact k.enterOutOfService
    · split
      · refine Keeps.mend (i := .rail) (k.but.updArmBut (fun c => without_self c) (fun _ => rfl)) (fun hi j => ?_)
        have q := hr hi (h.laws _ hi j)
        have e := State.releaseOthers_sch (s := t) (a := a)
        refine RailLawful.setState ?_ (by simp) rfl rfl (.inr ?_) (fun q => by cases q) (k.laws _ hi j)
        · rw [State.arm_updArm_self, e.1]; exact q.1
        · intro c hc
          rw [State.updArm_claims, e.2.1] at hc
          exact q.2.2 c hc
      · exact k.notify

theorem Keeps.advance (h : Keeps L s t) {a : ArmId} : Keeps L s (t.advance a) := by
  unfold State.advance
  repeat' first
    | with_reducible exact h | with_reducible apply Keeps.ite | with_reducible apply Keeps.updArm
    | with_reducible apply Keeps.updOrder | with_reducible apply Keeps.notify
    | exact fun _ => rfl | exact fun _ _ => rfl | exact fun _ _ => Or.inr rfl
    | exact fun _ q => Gripper.noConfusion q | exact rfl
    | split | dsimp only

theorem Keeps.endInserted (h : Keeps L s t) {a : ArmId} (hr : L .rail → t.law .rail → t.mayRelease a) : Keeps L s (t.endInserted a) := by
  have k : Keeps L s ((t.releaseOthers a).updArm a (fun x => { x with inserted := false, leg := none, linger := none })) :=
    (h.releaseOthers hr).updArm (fun _ _ => rfl) (fun _ _ => rfl)
  unfold State.endInserted
  dsimp only
  split
  · exact k.updOrder.notify
  · exact k.notify

theorem Keeps.replaceRest (h : Keeps L s t) {a : ArmId} {id : Nat} {toStation : Bool} :
    Keeps L s (t.replaceRest a id toStation) := by
  unfold State.replaceRest
  repeat' first
    | with_reducible exact h | with_reducible apply Keeps.ite | with_reducible apply Keeps.updStation
    | with_reducible apply Keeps.notify | with_reducible apply Keeps.withdrawClaim | with_reducible apply Keeps.updOrder
    | with_reducible apply Keeps.reserveDest
    | exact fun _ => rfl | exact fun _ _ => rfl | exact fun _ _ => Or.inr rfl
    | exact fun _ q => Gripper.noConfusion q | exact rfl
    | split | dsimp only

theorem Keeps.choosePosition (h : Keeps L s t) {a : ArmId} {o : Order} {u : State} (e : t.choosePosition a o = some u) : Keeps L s u := by
  unfold State.choosePosition at e
  split at e
  · cases e
  · cases e
    refine Keeps.notify (Keeps.reserve (Keeps.updOrder ?_))
    split
    · refine Keeps.ite h (Keeps.notify (Keeps.updStation h ?_))
      exact fun _ => rfl
    · exact h

theorem Keeps.cutOrder (h : Keeps L s t) {a : ArmId} {id : Nat} : Keeps L s (t.cutOrder a id) := by
  unfold State.cutOrder
  repeat' first
    | with_reducible exact h | with_reducible apply Keeps.ite | with_reducible apply Keeps.updOrder
    | with_reducible apply Keeps.endOrder
    | exact fun _ => rfl | exact fun _ _ => rfl | exact fun _ _ => Or.inr rfl
    | exact fun _ q => Gripper.noConfusion q | exact rfl
    | split | dsimp only

/-- A ready arm may be handed any leg but a TRAVEL. -/
theorem State.ready.mayGo {a : ArmId} {l : Leg} (h : s.ready a) (hl : ∀ c, l ≠ .travel c) : s.mayGo a (.leg l) := by
  refine ⟨h.2.1, h.1, h.2.2, ?_⟩
  cases l with
  | travel c => exact absurd rfl (hl c)
  | pick p | place p | read n | home => trivial

theorem Keeps.startPick (h : Keeps L s t) {a : ArmId} {o : Order} {p : Place} {u : State} (hr : L .rail → t.ready a)
    (e : t.startPick a o p = some u) : Keeps L s u := by
  unfold State.startPick at e
  (repeat' split at e) <;> cases e <;> first | exact h.handLeg (fun hi _ => (hr hi).mayGo (fun _ q => Leg.noConfusion q)) | exact h.endOrder

theorem Keeps.startPlace (h : Keeps L s t) {a : ArmId} {o : Order} {p : Place} {u : State} (hr : L .rail → t.ready a)
    (e : t.startPlace a o p = some u) : Keeps L s u := by
  unfold State.startPlace at e
  dsimp only at e
  (repeat' split at e) <;> first
    | exact h.choosePosition e
    | cases e <;> first
      | exact h.handLeg (fun hi _ => (hr hi).mayGo (fun _ q => Leg.noConfusion q))
      | exact h.replaceRest
      | exact h.expectPlace.handLeg (fun hi _ => State.mayGo_of (s := t) rfl ((hr hi).mayGo (fun _ q => Leg.noConfusion q)))

theorem Keeps.startRead (h : Keeps L s t) {a : ArmId} {o : Order} {slot : Nat} (hr : L .rail → t.ready a) :
    Keeps L s (t.startRead a o slot) :=
  Keeps.ite h.updOrder.notify.notify (h.handLeg (fun hi _ => (hr hi).mayGo (fun _ q => Leg.noConfusion q)))

theorem Keeps.stepOrder (h : Keeps L s t) {a : ArmId} {o : Order} {u : State} (hr : L .rail → t.ready a) (e : t.stepOrder a o = some u) :
    Keeps L s u := by
  unfold State.stepOrder at e
  split at e
  · cases e; exact h.endOrder
  · exact h.choosePosition e
  · split at e
    · cases e; exact h.claimTravel (fun hi _ => ⟨(hr hi).1, (hr hi).2.1⟩)
    · split at e <;> cases e
      · exact h.markStarted.endInserted (fun hi _ => (State.ready_of State.markStarted_rail (hr hi)).release)
      · exact (h.markStarted.lingerZones (fun hi _ => (State.ready_of State.markStarted_rail (hr hi)).release)).advance
  · exact h.startPick hr e
  · exact h.startPlace hr e
  · exact h.choosePosition e
  · cases e; exact h.startRead hr
  · cases e

theorem Keeps.armStep (h : Keeps L s t) {a : ArmId} {u : State} (e : t.armStep a = some u) : Keeps L s u := by
  unfold State.armStep at e
  dsimp only at e
  split at e
  · cases e
  · rename_i hc
    simp only [ne_eq, not_or, Decidable.not_not, Bool.not_eq_true, Option.isSome_eq_false_iff, Option.isNone_iff_eq_none] at hc
    have hr : t.ready a := ⟨hc.1, hc.2.1, State.claimOf_none hc.2.2⟩
    split at e
    · split at e <;> cases e
      · exact h.arriveMove (fun _ _ => hr.release)
      · exact h.claimTravel (fun _ _ => ⟨hr.1, hr.2.1⟩)
    · split at e
      · split at e
        · exact h.stepOrder (fun _ => hr) e
        · cases e
      · cases e

theorem Keeps.putBackReel (h : Keeps L s t) {a : ArmId} {place : Place} {r : Reading} : Keeps L s (t.putBackReel a place r) := by
  unfold State.putBackReel
  repeat' first
    | with_reducible exact h | with_reducible apply Keeps.ite | with_reducible apply Keeps.notify
    | with_reducible apply Keeps.updStation | with_reducible apply Keeps.updArm | with_reducible apply Keeps.updOrder
    | with_reducible apply Keeps.reserveDest
    | exact fun _ => rfl | exact fun _ _ => rfl | exact fun _ _ => Or.inr rfl
    | exact fun _ q => Gripper.noConfusion q | exact rfl
    | split | dsimp only

theorem Keeps.endNoCase (h : Keeps L s t) {a : ArmId} : Keeps L s (t.endNoCase a) := by
  unfold State.endNoCase
  repeat' first
    | with_reducible exact h | with_reducible apply Keeps.ite | with_reducible apply Keeps.endOrder
    | with_reducible apply Keeps.notify
    | exact fun _ => rfl | exact fun _ _ => rfl | exact fun _ _ => Or.inr rfl
    | exact fun _ q => Gripper.noConfusion q | exact rfl
    | split | dsimp only

theorem Keeps.advancePick (h : Keeps L s t) {a : ArmId} : Keeps L s (t.advancePick a) := by
  unfold State.advancePick
  repeat' first
    | with_reducible exact h | with_reducible apply Keeps.ite | with_reducible apply Keeps.advance
    | with_reducible apply Keeps.replaceRest
    | exact fun _ => rfl | exact fun _ _ => rfl | exact fun _ _ => Or.inr rfl
    | exact fun _ q => Gripper.noConfusion q | exact rfl
    | split | dsimp only

theorem Keeps.donePickSlot (h : Keeps L s t) {a : ArmId} {slot : Nat} {volume : Option Nat} {r : Reading} :
    Keeps L s (t.donePickSlot a slot volume r) := by
  unfold State.donePickSlot
  repeat' first
    | with_reducible exact h | with_reducible apply Keeps.ite | with_reducible apply Keeps.advance
    | with_reducible apply Keeps.pickAtSlot | with_reducible apply Keeps.advancePick
    | with_reducible apply Keeps.pickLoses | with_reducible apply Keeps.endNoCase
    | with_reducible apply Keeps.raiseErrors | with_reducible apply Keeps.setGripper
    | with_reducible apply Keeps.putBackReel
    | exact fun _ => rfl | exact fun _ _ => rfl | exact fun _ _ => Or.inr rfl
    | exact fun _ q => Gripper.noConfusion q | exact rfl
    | split | dsimp only

theorem Keeps.donePickStation (h : Keeps L s t) {a : ArmId} {p : Fin 8} {volume : Option Nat} {r : Reading} :
    Keeps L s (t.donePickStation a p volume r) := by
  unfold State.donePickStation
  repeat' first
    | with_reducible exact h | with_reducible apply Keeps.ite | with_reducible apply Keeps.updStation
    | with_reducible apply Keeps.pickAtStation | with_reducible apply Keeps.advancePick
    | with_reducible apply Keeps.clearStationVolume | with_reducible apply Keeps.setGripper
    | with_reducible apply Keeps.endNoCase | with_reducible apply Keeps.makeMissing
    | with_reducible apply Keeps.putBackReel | with_reducible apply Keeps.notify | with_reducible apply Keeps.updArm
    | with_reducible apply Keeps.updOrder
    | exact fun _ => rfl | exact fun _ _ => rfl | exact fun _ _ => Or.inr rfl
    | exact fun _ q => Gripper.noConfusion q | exact rfl
    | split | dsimp only

theorem Keeps.donePlace (h : Keeps L s t) {a : ArmId} {p : Place} : Keeps L s (t.donePlace a p) := by
  unfold State.donePlace
  repeat' first
    | with_reducible exact h | with_reducible apply Keeps.ite | with_reducible apply Keeps.setGripper
    | with_reducible apply Keeps.slotReading | with_reducible apply Keeps.updStation
    | with_reducible apply Keeps.askEquipment | with_reducible apply Keeps.endOrder
    | with_reducible apply Keeps.placeAtSlot | with_reducible apply Keeps.advance
    | with_reducible apply Keeps.placeAtDrive | with_reducible apply Keeps.placedOnDrive
    | with_reducible apply Keeps.placeFailed | with_reducible apply Keeps.placeAtStation
    | with_reducible apply Keeps.raise
    | with_reducible apply Keeps.updArm
    | exact fun _ => rfl | exact fun _ _ => rfl | exact fun _ _ => Or.inr rfl
    | exact fun _ q => Gripper.noConfusion q | exact rfl
    | split | dsimp only

theorem Keeps.doneRead (h : Keeps L s t) {a : ArmId} {slot : Nat} {r : Reading} : Keeps L s (t.doneRead a slot r) := by
  unfold State.doneRead
  repeat' first
    | with_reducible exact h | with_reducible apply Keeps.ite | with_reducible apply Keeps.slotReading
    | with_reducible apply Keeps.notify | with_reducible apply Keeps.advance
    | exact fun _ => rfl | exact fun _ _ => rfl | exact fun _ _ => Or.inr rfl
    | exact fun _ q => Gripper.noConfusion q | exact rfl
    | split | dsimp only

theorem Keeps.doneTravel (h : Keeps L s t) {a : ArmId} {target : Nat}
    (hr : L .rail → t.law .rail → t.mayRelease a ∧ target < 32 ∧ t.firm a (zoneOf target)) : Keeps L s (t.doneTravel a target) := by
  have k : Keeps L s (t.updArm a (fun x => { x with column := target })) := by
    refine Keeps.mend (i := .rail) (h.but.updArmBut (fun c => without_self c) (fun _ => rfl)) (fun hi j => ?_)
    have j := h.laws _ hi j
    obtain ⟨⟨q1, q2, q3⟩, q4, q5⟩ := hr hi j
    exact RailLawful.setColumn rfl rfl q1 q3 q4 q5 j
  have m : ∀ (M : Law → Prop), Keeps M s (t.updArm a (fun x => { x with column := target })) → (M .rail → L .rail) →
      M .rail → s.law .rail → (t.updArm a (fun x => { x with column := target })).mayRelease a := by
    intro M _ hm hi j
    obtain ⟨⟨q1, q2, q3⟩, _⟩ := hr (hm hi) (h.laws _ (hm hi) j)
    exact ⟨by simpa using q1, ⟨by simpa using q2.1, by simpa [State.waitingFrames] using q2.2⟩, by simpa [State.unclaimed] using q3⟩
  unfold State.doneTravel
  dsimp only
  split
  · refine Keeps.mend (i := .rail) (k.but.arriveMove (fun c => without_self c)) (fun hi j => ?_)
    exact ((Keeps.refl (L := only .rail) _).arriveMove (fun _ _ => m L k id hi j)).law (k.laws _ hi j)
  · split
    · refine Keeps.mend (i := .rail) (k.but.endInserted (fun c => without_self c)) (fun hi j => ?_)
      exact ((Keeps.refl (L := only .rail) _).endInserted (fun _ _ => m L k id hi j)).law (k.laws _ hi j)
    · refine Keeps.mend (i := .rail) (k.but.lingerZones (fun c => without_self c)).advance (fun hi j => ?_)
      exact ((Keeps.refl (L := only .rail) _).lingerZones (fun _ _ => m L k id hi j)).advance.law (k.laws _ hi j)

/-- An arm with an item outstanding is in service, not IDLE, with no claim, and no LEG waits for its line. -/
theorem RailLawful.outstanding {a : ArmId} (h : (s.arm a).outstanding ≠ none) (k : s.RailLawful) : (s.arm a).state ≠ .unhomed ∧
    (s.arm a).state ≠ .idle ∧ s.unclaimed a ∧ ∀ l, ArmFrame.leg l ∉ s.waitingFrames a := by
  have hb : s.armBusy a ≠ false := by
    rw [ne_eq, State.armBusy_false]
    exact fun q => h q.1
  obtain ⟨k1, k2, k3, k4, k5, k6, k7⟩ := k.2.2 a
  exact ⟨fun q => h (k3 q).2.2.1, fun q => hb (k7 q), RailLawful.unclaimed_busy hb k, fun l q => h (k5 l q).1⟩

theorem Keeps.legCompletes (h : Keeps L s t) {a : ArmId} {l : Leg} {volume : Option Nat} {r : Reading}
    (hr : L .rail → ∃ v lo hi, (t.arm a).outstanding = some (.leg l v lo hi)) :
    Keeps L s (t.legCompletes a l volume r) := by
  have k : Keeps L s (t.updArm a (fun x => { x with outstanding := none })) := h.clearArm (fun _ => rfl) rfl rfl rfl
  unfold State.legCompletes
  dsimp only
  cases l with
  | travel target =>
    refine Keeps.mend (i := .rail) (k.but.doneTravel (fun c => without_self c)) (fun hi j => ?_)
    refine ((Keeps.refl (L := only .rail) _).doneTravel (fun _ _ => ?_)).law (k.laws _ hi j)
    have j := h.laws _ hi j
    obtain ⟨v, lo, hi', e⟩ := hr hi
    have q := RailLawful.outstanding (by rw [e]; simp) j
    refine ⟨⟨by simpa using q.1, ⟨by simp, by simpa [State.waitingFrames] using q.2.2.2⟩, by simpa [State.unclaimed] using q.2.2.1⟩, ?_⟩
    have f : ∀ z, t.firm a z → (t.updArm a (fun x => { x with outstanding := none })).firm a z :=
      fun z ⟨q, e, n⟩ => ⟨q, (State.updArm_zone?).trans e, n⟩
    cases target with
    | none =>
      have own := (j.2.2 a).2.1 q.1
      rw [State.arm_updArm_self]
      exact ⟨own.1, f _ own.2⟩
    | some c =>
      have g := (j.2.2 a).2.2.2.1 _ _ _ _ e
      exact ⟨g.1, f _ g.2⟩
  | pick p =>
    cases p with
    | slot n => exact k.donePickSlot
    | drive d => exact k.pickAtDrive.pickedFromDrive.advancePick
    | station p => exact k.donePickStation
    | arm b | rail c => exact k.advance
  | place p =>
    cases p with
    | none => exact k.advance
    | some p => exact k.donePlace
  | read slot => exact k.doneRead
  | home => exact k

theorem Keeps.legFails (h : Keeps L s t) {a : ArmId} {l : Leg} {volume : Option Nat} {cause : Cause}
    (hr : L .rail → (t.arm a).outstanding ≠ none) : Keeps L s (t.legFails a l volume cause) := by
  -- what the failure does before the arm's record and line are written leaves the rail alone
  have first : ∀ u : State, Keeps L s u → u.sch.rail = t.sch.rail → Keeps L s ((u.updArm a (fun x => { x with
      state := .statusWait, outstanding := none, linger := none, move := none, leg := none, putBack := none,
      failure := some ⟨l, volume, cause, false⟩ })).sendArm a .status) := by
    intro u k e
    refine Keeps.mend (i := .rail) ?_ (fun hi j => ?_)
    · exact Keeps.sendArm (k.but.updArmBut (fun c => without_self c) (fun _ => rfl)) (fun c => without_self c)
    · have j := k.laws _ hi j
      have o : (u.arm a).outstanding ≠ none := by rw [((State.rail_eq e).2.2 a).2.2.1]; exact hr hi
      have q := RailLawful.outstanding o j
      have c1 : u.updArm a (fun x => { x with
          state := .statusWait, outstanding := none, linger := none, move := none, leg := none, putBack := none,
          failure := some ⟨l, volume, cause, false⟩ }) =
          (u.updArm a (fun x => { x with state := .statusWait })).updArm a (fun x => { x with
          outstanding := none, linger := none, move := none, leg := none, putBack := none,
          failure := some ⟨l, volume, cause, false⟩ }) := by cases a <;> rfl
      rw [c1]
      have j1 : (u.updArm a (fun x => { x with state := .statusWait })).RailLawful :=
        RailLawful.setState q.1 (by simp) rfl rfl (.inr q.2.2.1) (fun q => by cases q) j
      refine RailLawful.sendArm ⟨fun l => ?_, by simp, by simp, ?_⟩ (RailLawful.clearOutstanding rfl rfl rfl j1)
      · simpa [State.waitingFrames] using q.2.2.2 l
      · simpa [State.unclaimed] using q.2.2.1
  unfold State.legFails
  dsimp only
  cases l.placeDrive? with
  | none =>
    dsimp only
    split
    · exact first _ h.updOrder rfl
    · exact first _ h rfl
  | some d =>
    dsimp only
    split
    · refine first _ h.placeFailed.updOrder ?_
      show (t.placeFailed d).sch.rail = _
      rw [State.placeFailed_sch]
    · exact first _ h.placeFailed (by rw [State.placeFailed_sch])

theorem Keeps.pickedAfterAll (h : Keeps L s t) {a : ArmId} {p : Place} {e : Nat} : Keeps L s (t.pickedAfterAll a p e) := by
  unfold State.pickedAfterAll
  repeat' first
    | with_reducible exact h | with_reducible apply Keeps.ite | with_reducible apply Keeps.pickAtSlot
    | with_reducible apply Keeps.pickAtDrive | with_reducible apply Keeps.pickedFromDrive
    | with_reducible apply Keeps.notify | with_reducible apply Keeps.clearStationVolume
    | with_reducible apply Keeps.takeInArm | with_reducible apply Keeps.updStation
    | exact fun _ => rfl | exact fun _ _ => rfl | exact fun _ _ => Or.inr rfl
    | exact fun _ q => Gripper.noConfusion q | exact rfl
    | split | dsimp only

theorem Keeps.pickLostWithArm (h : Keeps L s t) {a : ArmId} {p : Place} {volume : Option Nat} :
    Keeps L s (t.pickLostWithArm a p volume) := by
  unfold State.pickLostWithArm
  repeat' first
    | with_reducible exact h | with_reducible apply Keeps.ite | with_reducible apply Keeps.pickAtDrive
    | with_reducible apply Keeps.pickedFromDrive | with_reducible apply Keeps.notify
    | with_reducible apply Keeps.clearStationVolume | with_reducible apply Keeps.makeMissing
    | with_reducible apply Keeps.setGripper
    | exact fun _ => rfl | exact fun _ _ => rfl | exact fun _ _ => Or.inr rfl
    | exact fun _ q => Gripper.noConfusion q | exact rfl
    | split | dsimp only

theorem Keeps.otherReel (h : Keeps L s t) {a : ArmId} {r : StatusResult} : Keeps L s (t.otherReel a r) := by
  unfold State.otherReel
  repeat' first
    | with_reducible exact h | with_reducible apply Keeps.ite | with_reducible apply Keeps.takeInArm
    | with_reducible apply Keeps.setGripper
    | exact fun _ => rfl | exact fun _ _ => rfl | exact fun _ _ => Or.inr rfl
    | exact fun _ q => Gripper.noConfusion q | exact rfl
    | split | dsimp only

theorem Keeps.settleGripper (h : Keeps L s t) {a : ArmId} {pick : Option Place} {volume : Option Nat} {r : StatusResult} :
    Keeps L s (t.settleGripper a pick volume r) := by
  unfold State.settleGripper
  repeat' first
    | with_reducible exact h | with_reducible apply Keeps.ite | with_reducible apply Keeps.setGripper
    | with_reducible apply Keeps.pickLostWithArm | with_reducible apply Keeps.pickedAfterAll
    | with_reducible apply Keeps.otherReel | with_reducible apply Keeps.makeMissing
    | exact fun _ => rfl | exact fun _ _ => rfl | exact fun _ _ => Or.inr rfl
    | exact fun _ q => Gripper.noConfusion q | exact rfl
    | split | dsimp only

theorem Keeps.settleFailure (h : Keeps L s t) {a : ArmId} {r : StatusResult} : Keeps L s (t.settleFailure a r) := by
  unfold State.settleFailure
  repeat' first
    | with_reducible exact h | with_reducible apply Keeps.ite | with_reducible apply Keeps.settleGripper
    | with_reducible apply Keeps.updArm
    | exact fun _ => rfl | exact fun _ _ => rfl | exact fun _ _ => Or.inr rfl
    | exact fun _ q => Gripper.noConfusion q | exact rfl
    | split | dsimp only

theorem Keeps.closeFailed (h : Keeps L s t) {a : ArmId} {f : Option Failure} : Keeps L s (t.closeFailed a f) := by
  unfold State.closeFailed
  repeat' first
    | with_reducible exact h | with_reducible apply Keeps.ite | with_reducible apply Keeps.updArm
    | with_reducible apply Keeps.closeOrder
    | exact fun _ => rfl | exact fun _ _ => rfl | exact fun _ _ => Or.inr rfl
    | exact fun _ q => Gripper.noConfusion q | exact rfl
    | split | dsimp only

theorem Keeps.columnSettled (h : Keeps L s t) {a : ArmId} {column : Nat}
    (hr : L .rail → t.law .rail → t.mayRelease a ∧ column < 32 ∧ t.holds a (zoneOf column) = true) :
    Keeps L s ((t.updArm a (fun x => { x with column := column })).releaseOthers a) :=
  (Keeps.releaseOthersBut (h.but.updArmBut (fun c => without_self c) (fun _ => rfl)) (fun c => without_self c)).mend (i := .rail) (fun hi k =>
    have k := h.laws _ hi k
    have q := hr hi k
    RailLawful.columnSettled q.1.1 q.1.2.1 q.1.2.2 q.2.1 q.2.2 k)

theorem Keeps.statusUsed (h : Keeps L s t) {a : ArmId} {column : Nat} {r : StatusResult}
    (hr : L .rail → t.law .rail → t.mayRelease a ∧ column < 32 ∧ t.holds a (zoneOf column) = true) :
    Keeps L s (t.statusUsed a column r) := by
  have k := h.columnSettled hr
  unfold State.statusUsed
  dsimp only
  generalize (t.updArm a (fun x => { x with column := column })).releaseOthers a = u at k
  repeat' first
    | with_reducible exact k | with_reducible apply Keeps.ite | with_reducible apply Keeps.updArm
    | with_reducible apply Keeps.settleFailure
    | with_reducible apply Keeps.closeFailed | with_reducible apply Keeps.enterOutOfService
    | with_reducible apply Keeps.notify | exact fun _ _ => rfl
    | split | dsimp only

theorem Keeps.statusUnanswered (h : Keeps L s t) {a : ArmId} {r : StatusResult} : Keeps L s (t.statusUnanswered a r) := by
  unfold State.statusUnanswered
  repeat' first
    | with_reducible exact h | with_reducible apply Keeps.ite | with_reducible apply Keeps.updArm
    | with_reducible apply Keeps.enterOutOfService | with_reducible apply Keeps.closeOrder
    | with_reducible apply Keeps.settleFailure
    | exact fun _ => rfl | exact fun _ _ => rfl | exact fun _ _ => Or.inr rfl
    | exact fun _ q => Gripper.noConfusion q | exact rfl
    | split | dsimp only

theorem State.dropLegs_rail {a : ArmId} : (∀ z, (s.dropLegs a).zone? z = s.zone? z) ∧ (s.dropLegs a).sch.claims = s.sch.claims ∧
    (∀ b, (s.dropLegs a).arm b = s.arm b) ∧ ∀ l, ArmFrame.leg l ∉ (s.dropLegs a).waitingFrames a := by
  have fold : ∀ (l : List (Fin 16)) (u : State), (l.foldl State.placeFailed u).sch = u.sch := by
    intro l
    induction l with
    | nil => exact fun _ => rfl
    | cons d l ih => exact fun u => (ih _).trans State.placeFailed_sch
  generalize hk : (s.armPort a).waiting.filter (fun f => match f with
    | .leg _ => false
    | .home | .status | .stop => true) = kept
  have e : (s.dropLegs a).sch = (s.setArmPort a { s.armPort a with waiting := kept }).sch := by
    subst hk
    exact fold _ _
  have ez : ∀ z, (s.dropLegs a).zone? z = s.zone? z := fun z => by
    rw [State.zone?, e]; exact State.setArmPort_zone?
  have ea : ∀ b, (s.dropLegs a).arm b = s.arm b := fun b => by
    have : (s.dropLegs a).arm b = (s.setArmPort a { s.armPort a with waiting := kept }).arm b := by
      cases b <;> simp only [State.arm, e]
    rw [this, State.arm_setArmPort]
  refine ⟨ez, by rw [e, State.setArmPort_claims], ea, fun l hl => ?_⟩
  have : (s.dropLegs a).waitingFrames a = (s.setArmPort a { s.armPort a with waiting := kept }).waitingFrames a := by
    cases a <;> simp only [State.waitingFrames, State.armPort, e]
  rw [this, State.waitingFrames_self] at hl
  subst hk
  have := (List.mem_filter.mp (List.mem_filter.mp hl).1).2
  cases this

theorem Keeps.enterHoming (h : Keeps L s t) {a : ArmId} : Keeps L s (t.enterHoming a) := by
  have path : ∀ u : State, Keeps L s u → ∀ n, Keeps L s (((((u.dropLegs a).withdrawClaim a).updArm a (fun x => { x with
      state := .homing, order := none, leg := none, move := none, inserted := false, stopped := false,
      failCount := if n = ArmState.outOfService then 0 else x.failCount })).takePath a).sendArm a .home) := by
    intro u k n
    refine Keeps.mend (i := .rail) ?_ (fun hi j => ?_)
    · refine Keeps.sendArm ?_ (fun c => without_self c)
      unfold State.takePath
      exact Keeps.mapZonesBut (k.but.dropLegs.withdrawClaim.updArmBut (fun c => without_self c) (fun _ => rfl)) (fun c => without_self c)
    · have d := State.dropLegs_rail (s := u) (a := a)
      have j := (k.dropLegs (a := a)).withdrawClaim (a := a) |>.laws _ hi j
      have hl : ∀ l, ArmFrame.leg l ∉ ((u.dropLegs a).withdrawClaim a).waitingFrames a := by
        intro l
        have : ((u.dropLegs a).withdrawClaim a).waitingFrames a = (u.dropLegs a).waitingFrames a := by simp [State.waitingFrames]
        rw [this]; exact d.2.2.2 l
      have hu : ((u.dropLegs a).withdrawClaim a).unclaimed a := State.withdrawClaim_unclaimed
      generalize (u.dropLegs a).withdrawClaim a = v at hl hu j
      refine RailLawful.sendArm ⟨fun l => ?_, ?_, ?_, ?_⟩ (RailLawful.takePath rfl rfl rfl hl hu j)
      · unfold State.takePath
        simpa [State.waitingFrames] using hl l
      · unfold State.takePath; simp
      · unfold State.takePath; simp
      · unfold State.takePath
        simpa [State.unclaimed] using hu
  have k : Keeps L s (if (t.arm a).state = .outOfService then t.endEquipment (.armOut a) else t) := Keeps.ite h.endEquipment h
  unfold State.enterHoming
  dsimp only
  generalize (if (t.arm a).state = .outOfService then t.endEquipment (.armOut a) else t) = u at k
  have k := path u k (t.arm a).state
  exact Keeps.notify (Keeps.ite k.notify k)

theorem Keeps.homingFails (h : Keeps L s t) {a : ArmId} {r : StatusResult} : Keeps L s (t.homingFails a r) := by
  unfold State.homingFails
  repeat' first
    | with_reducible exact h | with_reducible apply Keeps.ite | with_reducible apply Keeps.settleFailure
    | with_reducible apply Keeps.enterOutOfService
    | exact fun _ => rfl | exact fun _ _ => rfl | exact fun _ _ => Or.inr rfl
    | exact fun _ q => Gripper.noConfusion q | exact rfl
    | split | dsimp only

theorem Keeps.homeReached (h : Keeps L s t) {a : ArmId} {column : Nat} (hr : L .rail → (t.arm a).outstanding ≠ none) :
    Keeps L s (t.homeReached a column) := by
  have k : Keeps L s (t.updArm a (fun x => { x with outstanding := none })) := h.clearArm (fun _ => rfl) rfl rfl rfl
  unfold State.homeReached
  dsimp only
  split
  · rename_i hc
    refine Keeps.mend (i := .rail) (Keeps.sendArm (k.but.columnSettled (fun c => without_self c)) (fun c => without_self c))
      (fun hi j => ?_)
    have q := RailLawful.outstanding (hr hi) (h.laws _ hi j)
    have j := k.laws _ hi j
    have hrel : (t.updArm a (fun x => { x with outstanding := none })).mayRelease a :=
      ⟨by simpa using q.1, ⟨by simp, by simpa [State.waitingFrames] using q.2.2.2⟩, by simpa [State.unclaimed] using q.2.2.1⟩
    have hi : ((t.updArm a (fun x => { x with outstanding := none })).arm a).state ≠ .idle := by simpa using q.2.1
    generalize t.updArm a (fun x => { x with outstanding := none }) = u at j hrel hc hi
    have e := State.releaseOthers_sch (s := u.updArm a (fun x => { x with column := column })) (a := a)
    refine RailLawful.sendArm ⟨fun l => ?_, ?_, ?_, ?_⟩ (RailLawful.columnSettled hrel.1 hrel.2.1 hrel.2.2 hc.1 hc.2 j)
    · rw [e.2.2]
      simpa [State.waitingFrames] using hrel.2.1.2 l
    · rw [e.1]; simpa using hrel.1
    · rw [e.1]; simpa using hi
    · intro c hc
      rw [e.2.1, State.updArm_claims] at hc
      exact hrel.2.2 c hc
  · exact k.homingFails

theorem Keeps.homed (h : Keeps L s t) {a : ArmId} {column : Nat} {r : StatusResult}
    (hr : L .rail → t.law .rail → t.mayRelease a ∧ column < 32 ∧ t.holds a (zoneOf column) = true) :
    Keeps L s (t.homed a column r) := by
  have k := h.columnSettled hr
  unfold State.homed
  dsimp only
  generalize (t.updArm a (fun x => { x with column := column })).releaseOthers a = u at k
  exact Keeps.ite k.settleFailure.setHomingOwed.enterOutOfService k.settleFailure.setHomingOwed.notify

theorem Keeps.takeOrder (h : Keeps L s t) {a : ArmId} {o : Order} (hr : (t.arm a).state = .idle ∨ (t.arm a).state = .holding) :
    Keeps L s (t.takeOrder a o) := by
  have k : Keeps L s (t.updArm a (fun x => { x with state := .running, order := some o.id })) := by
    refine h.setArmState (fun _ => rfl) rfl rfl (fun _ k => ⟨?_, by simp, RailLawful.unclaimed ?_ k, fun q => by cases q⟩)
    · rcases hr with q | q <;> rw [q] <;> simp
    · rcases hr with q | q <;> rw [q] <;> simp
  exact k.updOrder.notify

theorem Keeps.startPark (h : Keeps L s t) {a : ArmId} (hr : (t.arm a).state = .idle) : Keeps L s (t.startPark a) := by
  have k : Keeps L s (t.updArm a (fun x => { x with state := .running, move := some .park })) := by
    refine h.setArmState (fun _ => rfl) rfl rfl (fun _ k => ⟨by rw [hr]; simp, by simp, RailLawful.unclaimed (by rw [hr]; simp) k,
      fun q => by cases q⟩)
  exact k.notify

theorem Keeps.armLooks (h : Keeps L s t) {a : ArmId} : Keeps L s (t.armLooks a) := by
  unfold State.armLooks
  split
  · rename_i e
    split
    · exact h.takeOrder (.inr e)
    · exact h
  · rename_i e
    split
    · exact h.startPark e
    · split
      · exact h.takeOrder (.inl e)
      · exact Keeps.ite (h.startPark e) h
  all_goals exact h

theorem Keeps.armIsFree (h : Keeps L s t) {a : ArmId} : Keeps L s (t.armIsFree a) := by
  unfold State.armIsFree
  dsimp only
  split
  · exact h
  · rename_i hc
    simp only [not_or, Bool.not_eq_true] at hc
    have k : ∀ st : ArmState, st ≠ .unhomed → Keeps L s ((t.withdrawClaim a).updArm a (fun x => { x with state := st })) := by
      intro st hst
      refine h.withdrawClaim.setArmState (fun _ => rfl) rfl rfl (fun _ _ => ⟨?_, hst, State.withdrawClaim_unclaimed, fun _ => ?_⟩)
      · simpa using hc.1
      · have := hc.2.2.2.2.1
        rw [State.armBusy_false] at this ⊢
        simpa [State.waitingFrames] using this
    split
    · exact h.enterHoming
    · split
      · exact (k .idle (by simp)).armLooks
      · exact (k .holding (by simp)).ensureRecover.notify

theorem Keeps.armOut (h : Keeps L s t) {a : ArmId} : Keeps L s (t.armOut a) := by
  unfold State.armOut
  repeat' first
    | with_reducible exact h | with_reducible apply Keeps.ite | with_reducible apply Keeps.updArm
    | with_reducible apply Keeps.enterOutOfService | with_reducible apply Keeps.rebindOrders
    | with_reducible apply Keeps.notify
    | exact fun _ => rfl | exact fun _ _ => rfl | exact fun _ _ => Or.inr rfl
    | exact fun _ q => Gripper.noConfusion q | exact rfl
    | split | dsimp only

theorem Keeps.armIn (h : Keeps L s t) {a : ArmId} : Keeps L s (t.armIn a) := by
  unfold State.armIn
  repeat' first
    | with_reducible exact h | with_reducible apply Keeps.ite | with_reducible apply Keeps.updArm
    | with_reducible apply Keeps.enterHoming
    | exact fun _ => rfl | exact fun _ _ => rfl | exact fun _ _ => Or.inr rfl
    | exact fun _ q => Gripper.noConfusion q | exact rfl
    | split | dsimp only

theorem Keeps.stopArm (h : Keeps L s t) {a : ArmId} : Keeps L s (t.stopArm a) := by
  unfold State.stopArm
  repeat' first
    | with_reducible exact h | with_reducible apply Keeps.ite | with_reducible apply Keeps.sendStop
    | with_reducible apply Keeps.updArm
    | exact fun _ => rfl | exact fun _ _ => rfl | exact fun _ _ => Or.inr rfl
    | exact fun _ q => Gripper.noConfusion q | exact rfl
    | split | dsimp only

theorem Keeps.leaveRecover (h : Keeps L s t) {o : Order} {onDrive : Bool} : Keeps L s (t.leaveRecover o onDrive) := by
  unfold State.leaveRecover; split
  · exact h.updRequest (fun _ => rfl) (fun _ _ => Or.inr rfl) (fun _ _ => rfl)
  · exact h

theorem Keeps.doorFails (h : Keeps L s t) {o : Order} : Keeps L s (t.doorFails o) := by
  unfold State.doorFails
  repeat' first
    | with_reducible exact h | with_reducible apply Keeps.ite | with_reducible apply Keeps.dropOrder
    | with_reducible apply Keeps.unreserve | with_reducible apply Keeps.oweRecover | with_reducible apply Keeps.leaveRecover
    | with_reducible apply Keeps.closeOrder
    | exact fun _ => rfl | exact fun _ _ => rfl | exact fun _ _ => Or.inr rfl
    | exact fun _ q => Gripper.noConfusion q | exact rfl
    | split | dsimp only

theorem Keeps.faultArm (h : Keeps L s t) {a : ArmId} : Keeps L s (t.faultArm a) := by
  unfold State.faultArm
  split
  · rename_i hf
    refine h.withdrawClaim.setArmState (fun _ => rfl) rfl rfl (fun _ _ => ⟨?_, by simp, State.withdrawClaim_unclaimed, fun q => by cases q⟩)
    rw [State.withdrawClaim_arm]
    intro q
    rw [q] at hf
    cases hf
  · exact h

theorem Keeps.doorStopsArms (h : Keeps L s t) : Keeps L s t.doorStopsArms := by
  unfold State.doorStopsArms
  have k := (h.stopArm (a := .armA)).stopArm (a := .armB)
  generalize (t.stopArm .armA).stopArm .armB = u at k
  have k : Keeps L s (u.sch.pool.foldl State.doorFails u) := Keeps.foldl (fun h => h.doorFails) k
  dsimp only
  generalize u.sch.pool.foldl State.doorFails u = v at k
  apply Keeps.faultArm
  apply Keeps.faultArm
  refine (k.but.setSch (x := { v.sch with claims := [] }) (Nat.le_max_left _ _) (fun _ => rfl)
    (fun c => without_self c)).mend (i := .rail) (fun hi c => ?_)
  exact RailLawful.shrink (s := v) (fun z => .inl rfl) (fun a => by cases a <;> rfl) (fun a => by cases a <;> rfl)
    (fun a => by cases a <;> exact .inl rfl) (fun a => by cases a <;> exact List.Sublist.refl _) (fun c hc => absurd hc List.not_mem_nil)
    (k.laws _ hi c)

theorem Keeps.stopHoming (h : Keeps L s t) {a : ArmId} : Keeps L s (t.stopHoming a) := by
  unfold State.stopHoming
  repeat' first
    | with_reducible exact h | with_reducible apply Keeps.ite | with_reducible apply Keeps.sendStop
    | with_reducible apply Keeps.updArm | with_reducible apply Keeps.faultArm
    | exact fun _ => rfl | exact fun _ _ => rfl | exact fun _ _ => Or.inr rfl
    | exact fun _ q => Gripper.noConfusion q | exact rfl
    | split | dsimp only

theorem Keeps.resetArm (h : Keeps L s t) {a : ArmId} {homes : Bool} : Keeps L s (t.resetArm a homes) := by
  unfold State.resetArm
  repeat' first
    | with_reducible exact h | with_reducible apply Keeps.ite | with_reducible apply Keeps.releaseLingering
    | with_reducible apply Keeps.updArm | with_reducible apply Keeps.dropLegs | with_reducible apply Keeps.setHomingOwed
    | with_reducible apply Keeps.enterHoming
    | exact fun _ => rfl | exact fun _ _ => rfl | exact fun _ _ => Or.inr rfl
    | exact fun _ q => Gripper.noConfusion q | exact rfl
    | split | dsimp only

theorem Keeps.keepPutBack (h : Keeps L s t) {a : ArmId} : Keeps L s (t.keepPutBack a) := by
  unfold State.keepPutBack
  repeat' first
    | with_reducible exact h | with_reducible apply Keeps.ite | with_reducible apply Keeps.updArm
    | exact fun _ => rfl | exact fun _ _ => rfl | exact fun _ _ => Or.inr rfl
    | exact fun _ q => Gripper.noConfusion q | exact rfl
    | split | dsimp only

theorem Keeps.resetScheduler (h : Keeps L s t) {homes : Bool} : Keeps L s (t.resetScheduler homes) := by
  unfold State.resetScheduler
  have k := (h.keepPutBack (a := .armA)).keepPutBack (a := .armB)
  generalize (t.keepPutBack .armA).keepPutBack .armB = u at k
  have k : Keeps L s { u with sch := { u.sch with pool := [], claims := [] } } := by
    refine (k.but.setSch (x := { u.sch with pool := [], claims := [] }) (Nat.zero_le _) (fun _ => rfl)
      (fun c => without_self c)).mend (i := .rail) (fun hi c => ?_)
    exact RailLawful.shrink (s := u) (fun z => .inl rfl) (fun a => by cases a <;> rfl) (fun a => by cases a <;> rfl)
      (fun a => by cases a <;> exact .inl rfl) (fun a => by cases a <;> exact List.Sublist.refl _) (fun c hc => absurd hc List.not_mem_nil)
      (k.laws _ hi c)
  exact k.resetArm.resetArm

end Sys2Proof.Machine
end

