-- ==== Sys2Proof/Laws/KeepsRequests.lean ====
section
/-! SUPPORT. What every operation inside a step keeps (Laws/Keeps.lean): the Audit Unit, the station positions and Mount Service. -/

set_option linter.unusedTactic false
set_option linter.unreachableTactic false

namespace Sys2Proof.Machine

variable {s t : State} {L : Law → Prop}

/-! ### The Audit Unit -/

theorem Keeps.updAudit (h : Keeps L s t) {f : AuditBlock → AuditBlock} : Keeps L s (t.updAudit f) := h.setAud

theorem Keeps.endAudit (h : Keeps L s t) {outcome : AuditOutcome} : Keeps L s (t.endAudit outcome) := by
  unfold State.endAudit
  repeat' first
    | with_reducible exact h | with_reducible apply Keeps.ite | with_reducible apply Keeps.updAudit
    | with_reducible apply Keeps.raise
    | exact fun _ => rfl | exact fun _ _ => rfl | exact fun _ _ => Or.inr rfl | exact fun _ _ => Or.inl rfl
    | exact fun _ q => ReqState.noConfusion q | exact rfl
    | split | dsimp only

theorem Keeps.askScan (h : Keeps L s t) : Keeps L s t.askScan := by
  unfold State.askScan
  split
  · exact h
  · dsimp only
    split
    · rename_i e
      refine Keeps.updAudit ?_
      split at e
      · split at e
        · cases e
        · exact h.createScan e
      · cases e
    · exact h.updAudit

theorem Keeps.beginAudit (h : Keeps L s t) {first last : Nat} : Keeps L s (t.beginAudit first last) := by
  unfold State.beginAudit
  repeat' first
    | with_reducible exact h | with_reducible apply Keeps.ite | with_reducible apply Keeps.updAudit
    | with_reducible apply Keeps.askScan
    | exact fun _ => rfl | exact fun _ _ => rfl | exact fun _ _ => Or.inr rfl | exact fun _ _ => Or.inl rfl
    | exact fun _ q => ReqState.noConfusion q | exact rfl
    | split | dsimp only

theorem Keeps.askFullAudit (h : Keeps L s t) : Keeps L s (t.askFullAudit) := by
  unfold State.askFullAudit
  repeat' first
    | with_reducible exact h | with_reducible apply Keeps.ite | with_reducible apply Keeps.beginAudit
    | with_reducible apply Keeps.updAudit
    | exact fun _ => rfl | exact fun _ _ => rfl | exact fun _ _ => Or.inr rfl | exact fun _ _ => Or.inl rfl
    | exact fun _ q => ReqState.noConfusion q | exact rfl
    | split | dsimp only

theorem Keeps.finishAbort (h : Keeps L s t) : Keeps L s (t.finishAbort) := by
  unfold State.finishAbort
  repeat' first
    | with_reducible exact h | with_reducible apply Keeps.ite | with_reducible apply Keeps.endAudit
    | with_reducible apply Keeps.beginAudit
    | exact fun _ => rfl | exact fun _ _ => rfl | exact fun _ _ => Or.inr rfl | exact fun _ _ => Or.inl rfl
    | exact fun _ q => ReqState.noConfusion q | exact rfl
    | split | dsimp only

theorem Keeps.dropScan (h : Keeps L s t) {o : Order} : Keeps L s (t.dropScan o) := by
  unfold State.dropScan
  repeat' first
    | with_reducible exact h | with_reducible apply Keeps.ite | with_reducible apply Keeps.finishAbort
    | with_reducible apply Keeps.removeOrder | with_reducible apply Keeps.updAudit
    | exact fun _ => rfl | exact fun _ _ => rfl | exact fun _ _ => Or.inr rfl | exact fun _ _ => Or.inl rfl
    | exact fun _ q => ReqState.noConfusion q | exact rfl
    | split | dsimp only

theorem Keeps.abortAudit (h : Keeps L s t) : Keeps L s (t.abortAudit) := by
  unfold State.abortAudit
  repeat' first
    | with_reducible exact h | with_reducible apply Keeps.ite | with_reducible apply Keeps.updAudit
    | with_reducible apply Keeps.finishAbort | with_reducible apply Keeps.cutOrder
    | with_reducible apply Keeps.dropScan
    | exact fun _ => rfl | exact fun _ _ => rfl | exact fun _ _ => Or.inr rfl | exact fun _ _ => Or.inl rfl
    | exact fun _ q => ReqState.noConfusion q | exact rfl
    | split | dsimp only

theorem Keeps.scanRead (h : Keeps L s t) {id slot : Nat} {counts : List AuditCount} : Keeps L s (t.scanRead id slot counts) := by
  unfold State.scanRead
  repeat' first
    | with_reducible exact h | with_reducible apply Keeps.ite | with_reducible refine Keeps.foldl (fun h => ?_) ?_
    | with_reducible apply Keeps.updAudit
    | exact fun _ => rfl | exact fun _ _ => rfl | exact fun _ _ => Or.inr rfl | exact fun _ _ => Or.inl rfl
    | exact fun _ q => ReqState.noConfusion q | exact rfl
    | split | dsimp only

theorem Keeps.scanPassed (h : Keeps L s t) {id slot : Nat} : Keeps L s (t.scanPassed id slot) := by
  unfold State.scanPassed
  repeat' first
    | with_reducible exact h | with_reducible apply Keeps.ite | with_reducible apply Keeps.updAudit
    | exact fun _ => rfl | exact fun _ _ => rfl | exact fun _ _ => Or.inr rfl | exact fun _ _ => Or.inl rfl
    | exact fun _ q => ReqState.noConfusion q | exact rfl
    | split | dsimp only

theorem Keeps.planScan (h : Keeps L s t) : Keeps L s (t.planScan) := by
  unfold State.planScan
  repeat' first
    | with_reducible exact h | with_reducible apply Keeps.ite | with_reducible apply Keeps.updAudit
    | with_reducible apply Keeps.endAudit | with_reducible apply Keeps.askScan
    | exact fun _ => rfl | exact fun _ _ => rfl | exact fun _ _ => Or.inr rfl | exact fun _ _ => Or.inl rfl
    | exact fun _ q => ReqState.noConfusion q | exact rfl
    | split | dsimp only

theorem Keeps.scanStops (h : Keeps L s t) {r : OrderEnd} : Keeps L s (t.scanStops r) := by
  unfold State.scanStops
  repeat' first
    | with_reducible exact h | with_reducible apply Keeps.ite | with_reducible apply Keeps.finishAbort
    | with_reducible apply Keeps.updAudit
    | exact fun _ => rfl | exact fun _ _ => rfl | exact fun _ _ => Or.inr rfl | exact fun _ _ => Or.inl rfl
    | exact fun _ q => ReqState.noConfusion q | exact rfl
    | split | dsimp only

theorem Keeps.scanEnded (h : Keeps L s t) {r : OrderEnd} : Keeps L s (t.scanEnded r) := by
  unfold State.scanEnded
  repeat' first
    | with_reducible exact h | with_reducible apply Keeps.ite | with_reducible apply Keeps.updAudit
    | with_reducible apply Keeps.scanStops | with_reducible apply Keeps.planScan
    | exact fun _ => rfl | exact fun _ _ => rfl | exact fun _ _ => Or.inr rfl | exact fun _ _ => Or.inl rfl
    | exact fun _ q => ReqState.noConfusion q | exact rfl
    | split | dsimp only

theorem Keeps.scanRemoved (h : Keeps L s t) {r : OrderEnd} : Keeps L s (t.scanRemoved r) := by
  unfold State.scanRemoved
  repeat' first
    | with_reducible exact h | with_reducible apply Keeps.ite | with_reducible apply Keeps.updAudit
    | with_reducible apply Keeps.finishAbort
    | exact fun _ => rfl | exact fun _ _ => rfl | exact fun _ _ => Or.inr rfl | exact fun _ _ => Or.inl rfl
    | exact fun _ q => ReqState.noConfusion q | exact rfl
    | split | dsimp only

theorem Keeps.retryScan (h : Keeps L s t) : Keeps L s (t.retryScan) := by
  unfold State.retryScan
  repeat' first
    | with_reducible exact h | with_reducible apply Keeps.ite | with_reducible apply Keeps.askScan
    | exact fun _ => rfl | exact fun _ _ => rfl | exact fun _ _ => Or.inr rfl | exact fun _ _ => Or.inl rfl
    | exact fun _ q => ReqState.noConfusion q | exact rfl
    | split | dsimp only

theorem Keeps.resetAudit (h : Keeps L s t) : Keeps L s (t.resetAudit) := by
  unfold State.resetAudit
  repeat' first
    | with_reducible exact h | with_reducible apply Keeps.ite | with_reducible apply Keeps.updAudit
    | exact fun _ => rfl | exact fun _ _ => rfl | exact fun _ _ => Or.inr rfl | exact fun _ _ => Or.inl rfl
    | exact fun _ q => ReqState.noConfusion q | exact rfl
    | split | dsimp only

/-! ### The station positions -/

theorem Keeps.setImportOwed (h : Keeps L s t) {p : Fin 8} {owed : Bool} : Keeps L s (t.setImportOwed p owed) := by
  unfold State.setImportOwed
  repeat' first
    | with_reducible exact h | with_reducible apply Keeps.ite | with_reducible apply Keeps.updStation
    | exact fun _ => rfl | exact fun _ _ => rfl | exact fun _ _ => Or.inr rfl | exact fun _ _ => Or.inl rfl
    | exact fun _ q => ReqState.noConfusion q | exact rfl
    | split | dsimp only

theorem Keeps.askImport (h : Keeps L s t) {p : Fin 8} : Keeps L s (t.askImport p) := by
  unfold State.askImport
  split
  · rename_i e
    split at e
    · exact (h.createImport e).setImportOwed
    · cases e
  · exact h.setImportOwed

theorem Keeps.testImport (h : Keeps L s t) {p : Fin 8} : Keeps L s (t.testImport p) := by
  unfold State.testImport
  repeat' first
    | with_reducible exact h | with_reducible apply Keeps.ite | with_reducible apply Keeps.askImport
    | with_reducible apply Keeps.setImportOwed
    | exact fun _ => rfl | exact fun _ _ => rfl | exact fun _ _ => Or.inr rfl | exact fun _ _ => Or.inl rfl
    | exact fun _ q => ReqState.noConfusion q | exact rfl
    | split | dsimp only

theorem Keeps.testAllImports (h : Keeps L s t) : Keeps L s (t.testAllImports) := by
  unfold State.testAllImports
  repeat' first
    | with_reducible exact h | with_reducible apply Keeps.ite | with_reducible refine Keeps.foldl (fun h => ?_) ?_
    | with_reducible apply Keeps.testImport
    | exact fun _ => rfl | exact fun _ _ => rfl | exact fun _ _ => Or.inr rfl | exact fun _ _ => Or.inl rfl
    | exact fun _ q => ReqState.noConfusion q | exact rfl
    | split | dsimp only

theorem Keeps.testOwedImport (h : Keeps L s t) {p : Fin 8} : Keeps L s (t.testOwedImport p) := by
  unfold State.testOwedImport
  repeat' first
    | with_reducible exact h | with_reducible apply Keeps.ite | with_reducible apply Keeps.askImport
    | with_reducible apply Keeps.testImport
    | exact fun _ => rfl | exact fun _ _ => rfl | exact fun _ _ => Or.inr rfl | exact fun _ _ => Or.inl rfl
    | exact fun _ q => ReqState.noConfusion q | exact rfl
    | split | dsimp only

theorem Keeps.testOwedImports (h : Keeps L s t) : Keeps L s (t.testOwedImports) := by
  unfold State.testOwedImports
  repeat' first
    | with_reducible exact h | with_reducible apply Keeps.ite | with_reducible refine Keeps.foldl (fun h => ?_) ?_
    | with_reducible apply Keeps.testOwedImport
    | exact fun _ => rfl | exact fun _ _ => rfl | exact fun _ _ => Or.inr rfl | exact fun _ _ => Or.inl rfl
    | exact fun _ q => ReqState.noConfusion q | exact rfl
    | split | dsimp only

theorem Keeps.reimports (h : Keeps L s t) : Keeps L s (t.reimports) := by
  unfold State.reimports
  repeat' first
    | with_reducible exact h | with_reducible apply Keeps.ite | with_reducible refine Keeps.foldl (fun h => ?_) ?_
    | with_reducible apply Keeps.askImport
    | exact fun _ => rfl | exact fun _ _ => rfl | exact fun _ _ => Or.inr rfl | exact fun _ _ => Or.inl rfl
    | exact fun _ q => ReqState.noConfusion q | exact rfl
    | split | dsimp only

theorem Keeps.onPresenceRise (h : Keeps L s t) {p : Fin 8} : Keeps L s (t.onPresenceRise p) := by
  unfold State.onPresenceRise
  repeat' first
    | with_reducible exact h | with_reducible apply Keeps.ite | with_reducible apply Keeps.raise
    | with_reducible apply Keeps.updStation | with_reducible apply Keeps.testImport
    | exact fun _ => rfl | exact fun _ _ => rfl | exact fun _ _ => Or.inr rfl | exact fun _ _ => Or.inl rfl
    | exact fun _ q => ReqState.noConfusion q | exact rfl
    | split | dsimp only

theorem Keeps.notifyFree (h : Keeps L s t) : Keeps L s t.notifyFree := by
  unfold State.notifyFree; exact h.notify.notify

theorem Keeps.onPresenceFall (h : Keeps L s t) {p : Fin 8} : Keeps L s (t.onPresenceFall p) := by
  unfold State.onPresenceFall
  repeat' first
    | with_reducible exact h | with_reducible apply Keeps.ite | with_reducible apply Keeps.raise
    | with_reducible apply Keeps.updStation | with_reducible apply Keeps.relocate
    | with_reducible apply Keeps.clearStationVolume | with_reducible apply Keeps.endEquipment
    | with_reducible apply Keeps.setImportOwed | with_reducible apply Keeps.notifyFree
    | exact fun _ => rfl | exact fun _ _ => rfl | exact fun _ _ => Or.inr rfl | exact fun _ _ => Or.inl rfl
    | exact fun _ q => ReqState.noConfusion q | exact rfl
    | split | dsimp only

theorem Keeps.appendTo (h : Keeps L s t) {id : Nat} {dest : Place} {tag : Option Half} : Keeps L s (t.appendTo id dest tag) := by
  unfold State.appendTo
  repeat' first
    | with_reducible exact h | with_reducible apply Keeps.ite | with_reducible apply Keeps.updOrder
    | exact fun _ => rfl | exact fun _ _ => rfl | exact fun _ _ => Or.inr rfl | exact fun _ _ => Or.inl rfl
    | exact fun _ q => ReqState.noConfusion q | exact rfl
    | split | dsimp only

theorem Keeps.importPicked (h : Keeps L s t) {id : Nat} {a : ArmId} {p : Fin 8} : Keeps L s (t.importPicked id a p) := by
  unfold State.importPicked
  repeat' first
    | with_reducible exact h | with_reducible apply Keeps.ite | with_reducible apply Keeps.askEquipment
    | with_reducible apply Keeps.appendTo | with_reducible apply Keeps.updRequest | with_reducible apply Keeps.withdraw
    | with_reducible apply Keeps.notify
    | exact fun _ => rfl | exact fun _ _ => rfl | exact fun _ _ => Or.inr rfl | exact fun _ _ => Or.inl rfl
    | exact fun _ q => ReqState.noConfusion q | exact rfl
    | split | dsimp only

theorem Keeps.testLeft (h : Keeps L s t) {p : Option Place} : Keeps L s (t.testLeft p) := by
  unfold State.testLeft; split
  · exact h.notify
  · exact h

theorem Keeps.importDone (h : Keeps L s t) {p : Fin 8} {dest : Option Place} : Keeps L s (t.importDone p dest) := by
  unfold State.importDone
  repeat' first
    | with_reducible exact h | with_reducible apply Keeps.ite | with_reducible apply Keeps.raise
    | with_reducible apply Keeps.askEquipment
    | exact fun _ => rfl | exact fun _ _ => rfl | exact fun _ _ => Or.inr rfl | exact fun _ _ => Or.inl rfl
    | exact fun _ q => ReqState.noConfusion q | exact rfl
    | split | dsimp only

theorem Keeps.importDropped (h : Keeps L s t) {dest : Option Place} : Keeps L s (t.importDropped dest) := by
  unfold State.importDropped
  repeat' first
    | with_reducible exact h | with_reducible apply Keeps.ite | with_reducible apply Keeps.raise
    | split

theorem Keeps.importUnpicked (h : Keeps L s t) {p : Fin 8} : Keeps L s (t.importUnpicked p) := by
  unfold State.importUnpicked
  repeat' first
    | with_reducible exact h | with_reducible apply Keeps.ite | with_reducible apply Keeps.raise
    | with_reducible apply Keeps.setImportOwed
    | exact fun _ => rfl | exact fun _ _ => rfl | exact fun _ _ => Or.inr rfl | exact fun _ _ => Or.inl rfl
    | exact fun _ q => ReqState.noConfusion q | exact rfl
    | split | dsimp only

theorem Keeps.importEnded (h : Keeps L s t) {r : OrderEnd} : Keeps L s (t.importEnded r) := by
  unfold State.importEnded
  repeat' first
    | with_reducible exact h | with_reducible apply Keeps.ite | with_reducible apply Keeps.unreserveSilently
    | with_reducible apply Keeps.importUnpicked | with_reducible apply Keeps.testLeft
    | with_reducible apply Keeps.notify | with_reducible apply Keeps.importDone | with_reducible apply Keeps.importDropped
    | exact fun _ => rfl | exact fun _ _ => rfl | exact fun _ _ => Or.inr rfl | exact fun _ _ => Or.inl rfl
    | exact fun _ q => ReqState.noConfusion q | exact rfl
    | split | dsimp only

theorem Keeps.importRemoved (h : Keeps L s t) {r : OrderEnd} : Keeps L s (t.importRemoved r) := by
  unfold State.importRemoved
  repeat' first
    | with_reducible exact h | with_reducible apply Keeps.ite | with_reducible apply Keeps.setImportOwed
    | exact fun _ => rfl | exact fun _ _ => rfl | exact fun _ _ => Or.inr rfl | exact fun _ _ => Or.inl rfl
    | exact fun _ q => ReqState.noConfusion q | exact rfl
    | split | dsimp only

theorem Keeps.resetStations (h : Keeps L s t) : Keeps L s (t.resetStations) := by
  unfold State.resetStations
  repeat' first
    | with_reducible exact h | with_reducible apply Keeps.ite | with_reducible apply Keeps.mapStations
    | exact fun _ => rfl | exact fun _ _ => rfl | exact fun _ _ => Or.inr rfl | exact fun _ _ => Or.inl rfl
    | exact fun _ q => ReqState.noConfusion q | exact rfl
    | split | dsimp only

/-! ### The life of a request -/

theorem Keeps.clearAwaiting (h : Keeps L s t) {tag : Half} : Keeps L s (t.clearAwaiting tag) := by
  unfold State.clearAwaiting
  repeat' first
    | with_reducible exact h | with_reducible apply Keeps.ite | with_reducible refine Keeps.foldl (fun h => ?_) ?_
    | with_reducible apply Keeps.updStation | with_reducible apply Keeps.notify
    | exact fun _ => rfl | exact fun _ _ => rfl | exact fun _ _ => Or.inr rfl | exact fun _ _ => Or.inl rfl
    | exact fun _ q => ReqState.noConfusion q | exact rfl
    | split | dsimp only

theorem Keeps.withdrawPrompt (h : Keeps L s t) {tag : Half} : Keeps L s (t.withdrawPrompt tag) := by
  unfold State.withdrawPrompt
  repeat' first
    | with_reducible exact h | with_reducible apply Keeps.ite | with_reducible apply Keeps.clearAwaiting
    | with_reducible apply Keeps.withdraw
    | exact fun _ => rfl | exact fun _ _ => rfl | exact fun _ _ => Or.inr rfl | exact fun _ _ => Or.inl rfl
    | exact fun _ q => ReqState.noConfusion q | exact rfl
    | split | dsimp only

/-! #### What leaves the list of prompts and joins it, as the queue and the owed replies see it -/

@[simp] theorem State.attend_ms {l : Option Nat} : (s.attend l).ms = s.ms := by
  have one : ∀ (u : State) (o : Output), (u.followUnit l o).ms = u.ms := by
    intro u o
    unfold State.followUnit
    dsimp only
    split
    · cases o <;> rfl
    · split
      · cases o <;> rfl
      · rfl
  unfold State.attend
  rw [one, one]

@[simp] theorem State.attend_port {l : Option Nat} : (s.attend l).port = s.port := by
  have one : ∀ (u : State) (o : Output), (u.followUnit l o).port = u.port := by
    intro u o
    unfold State.followUnit
    dsimp only
    split
    · cases o <;> rfl
    · split
      · cases o <;> rfl
      · rfl
  unfold State.attend
  rw [one, one]

theorem State.issue_ms {kind : PromptKind} {names : Names} : (s.issue kind names).1.ms = s.ms := by
  unfold State.issue; simp

theorem State.issue_replyOwed {kind : PromptKind} {names : Names} : (s.issue kind names).1.port.replyOwed = s.port.replyOwed := by
  unfold State.issue; simp [State.raise, State.setEvents, State.refreshConditions]

theorem State.testOwed_ms {l : List Equipment} : (s.testOwed l).ms = s.ms := by
  induction l with
  | nil => rfl
  | cons e rest ih =>
    unfold State.testOwed
    split
    · exact State.issue_ms
    · exact ih

theorem State.testOwed_replyOwed {l : List Equipment} : (s.testOwed l).port.replyOwed = s.port.replyOwed := by
  induction l with
  | nil => rfl
  | cons e rest ih =>
    unfold State.testOwed
    split
    · exact State.issue_replyOwed
    · exact ih

/-- The queue after a prompt has left the list. -/
theorem State.leaveList_ms {n : Nat} {line : Bool} :
    (s.leaveList n line).ms = if (s.prompt? n).isSome then (s.unprompt n).ms else s.ms := by
  unfold State.leaveList
  cases e : s.prompt? n with
  | none => simp
  | some p =>
    dsimp only
    rw [State.testOwed_ms]
    have key : ∀ u : State, u.ms = (s.unprompt n).ms → ((if line = true then u.queueWithdrawal n else u)).ms = (s.unprompt n).ms := by
      intro u hu
      split
      · exact hu
      · exact hu
    split
    · rw [State.notify_ms]
      exact key _ (by rw [State.attend_ms]; rfl)
    · exact key _ (by rw [State.attend_ms]; rfl)

theorem State.leaveList_replyOwed {n : Nat} {line : Bool} : (s.leaveList n line).port.replyOwed = s.port.replyOwed := by
  unfold State.leaveList
  cases s.prompt? n with
  | none => rfl
  | some p =>
    dsimp only
    rw [State.testOwed_replyOwed]
    have key : ∀ u : State, u.port.replyOwed = s.port.replyOwed →
        ((if line = true then u.queueWithdrawal n else u)).port.replyOwed = s.port.replyOwed := by
      intro u hu
      split
      · exact hu
      · exact hu
    split
    · rw [State.notify_port]
      exact key _ (by rw [State.attend_port]; rfl)
    · exact key _ (by rw [State.attend_port]; rfl)

/-- What a list of small acts that leave a part of the state alone leaves of it. -/
theorem foldl_part {α β : Type} {f : State → α → State} {g : State → β} (h : ∀ u a, g (f u a) = g u) (l : List α) (u : State) :
    g (l.foldl f u) = g u := by
  induction l generalizing u with
  | nil => rfl
  | cons a l ih => rw [List.foldl_cons, ih, h]

theorem State.clearAwaiting_ms {tag : Half} : (s.clearAwaiting tag).ms = s.ms := by
  unfold State.clearAwaiting
  refine foldl_part (g := State.ms) (fun u p => ?_) _ _
  split
  · rw [State.notify_ms]; rfl
  · rfl

theorem State.clearAwaiting_replyOwed {tag : Half} : (s.clearAwaiting tag).port.replyOwed = s.port.replyOwed := by
  unfold State.clearAwaiting
  refine foldl_part (g := fun s => s.port.replyOwed) (fun u p => ?_) _ _
  split
  · rw [State.notify_port]; rfl
  · rfl

theorem State.withdrawPrompt_replyOwed {tag : Half} : (s.withdrawPrompt tag).port.replyOwed = s.port.replyOwed := by
  unfold State.withdrawPrompt
  split
  · rw [State.clearAwaiting_replyOwed]; exact State.leaveList_replyOwed
  · rfl

/-- Two requests of a queue whose tags differ pairwise are one when they have one tag. -/
theorem same_request {l : List Request} (h : (l.map (·.tag)).Nodup) {r q : Request} (hr : r ∈ l) (hq : q ∈ l) (e : r.tag = q.tag) :
    r = q := List.inj_on_of_nodup_map h hr hq e

theorem State.tags_nodup (h : (s.requestsAsked.map (fun x => x.1.1)).Nodup) : (s.ms.queue.map (·.tag)).Nodup := by
  simpa [State.requestsAsked, List.map_map, Function.comp_def, Request.asked] using h

/-- The request found by its tag. -/
theorem State.request?_mem {tag : Half} {q : Request} (h : s.request? tag = some q) : q ∈ s.ms.queue ∧ q.tag = tag :=
  ⟨List.mem_of_find?_eq_some h, by simpa using List.find?_some h⟩

/-- After the withdrawal of its prompt no request of a tag is PROMPTED. -/
theorem State.withdrawPrompt_clear {tag : Half} (k : s.law .prompted) :
    ∀ r ∈ (s.withdrawPrompt tag).ms.queue, r.tag = tag → r.state ≠ .prompted := by
  obtain ⟨k0, k1, k2, k3, k4⟩ := k
  have k0 := State.tags_nodup k0
  intro r hr tr hs
  have found : ∀ r ∈ s.ms.queue, r.tag = tag → s.request? tag = some r := by
    intro r hr tr
    cases e : s.request? tag with
    | none => exact absurd (List.find?_eq_none.mp e r hr) (by simp [tr])
    | some q =>
      obtain ⟨hq, tq⟩ := State.request?_mem e
      rw [same_request k0 hr hq (tr.trans tq.symm)]
  unfold State.withdrawPrompt at hr
  split at hr
  · rename_i n hn
    rw [State.clearAwaiting_ms] at hr
    have hr : r ∈ (s.leaveList n true).ms.queue := hr
    rw [State.leaveList_ms] at hr
    split at hr
    · obtain ⟨q, hq, e⟩ := List.mem_map.mp hr
      by_cases c : q.prompt = some n ∧ q.state = .prompted
      · rw [if_pos c] at e
        subst e
        have : q.resumes = .prompted := hs
        unfold Request.resumes at this
        split at this
        · simp at this
        · simp at this
        · contradiction
      · rw [if_neg c] at e
        subst e
        rw [found q hq tr] at hn
        exact c ⟨hn, hs⟩
    · rename_i c
      rw [found r hr tr] at hn
      obtain ⟨p, hp, tp, np⟩ := k1 r hr hs
      have hn : r.prompt = some n := hn
      rw [hn] at np
      refine c (List.find?_isSome.mpr ⟨p, (List.mem_filter.mp hp).1, ?_⟩)
      simpa using (Option.some.inj np).symm
  · rename_i hn
    rw [found r hr tr] at hn
    obtain ⟨p, hp, tp, np⟩ := k1 r hr hs
    have hn : r.prompt = none := hn
    rw [hn] at np
    cases np

/-- Requests of a tag, none of them PROMPTED, written so that none of them is keep the pairing of requests and prompts. -/
theorem State.prompted_updRequest {tag : Half} {f : Request → Request} (hf : ∀ x, (f x).asked = x.asked)
    (hs : ∀ x, (f x).state ≠ .prompted) (hc : ∀ r ∈ s.ms.queue, r.tag = tag → r.state ≠ .prompted) (k : s.law .prompted) :
    (s.updRequest tag f).law .prompted := by
  obtain ⟨k0, k1, k2, k3, k4⟩ := k
  have back : ∀ r ∈ (s.updRequest tag f).ms.queue, r.state = .prompted → r ∈ s.ms.queue := by
    intro r hr hp
    obtain ⟨q, hq, e⟩ := List.mem_map.mp hr
    split at e
    · subst e; exact absurd hp (hs q)
    · subst e; exact hq
  refine ⟨?_, fun r hr hp => k1 r (back r hr hp) hp, fun p hp => ?_, k3, fun x hx r hr tr hp => k4 x hx r (back r hr hp) tr hp⟩
  · have : (s.updRequest tag f).requestsAsked = s.requestsAsked := ((Keeps.refl (L := noLaw) s).updRequest hf (fun c => c.elim)
      (fun c => c.elim)).asked
    rw [this]; exact k0
  · obtain ⟨r, hr, tr, nr, sr⟩ := k2 p hp
    refine ⟨r, List.mem_map.mpr ⟨r, hr, ?_⟩, tr, nr, sr⟩
    rw [if_neg (fun c => hc r hr c sr)]

theorem Keeps.enter (h : Keeps L s t) {tag : Half} {st : ReqState} {reason : Option WaitReason} (hst : L .prompted → st ≠ .prompted) :
    Keeps L s (t.enter tag st reason) := by
  refine Keeps.mend (i := .prompted) ?_ (fun hi k => ?_)
  · unfold State.enter
    apply Keeps.updRequest h.but.withdrawPrompt
    · exact fun _ => rfl
    · exact fun _ _ => Or.inr rfl
    · exact fun c => without_self c
  · have k := (h.withdrawPrompt (tag := tag)).laws _ hi k
    exact State.prompted_updRequest (fun _ => rfl) (fun _ => hst hi) (State.withdrawPrompt_clear (h.laws _ hi (by assumption))) k

theorem Keeps.enterPromptedBut (h : Keeps L s t) {tag : Half} {n : Nat} {resume : ReqState} {kind : PromptKind} (hL : ¬ L .prompted) :
    Keeps L s (t.enterPrompted tag n resume kind) := by
  unfold State.enterPrompted
  apply Keeps.updRequest h
  · exact fun _ => rfl
  · exact fun _ _ => Or.inr rfl
  · exact fun c => absurd c hL

/-- A request of the tag of an update is one that it has written. -/
theorem State.updRequest_tagged {tag : Half} {f : Request → Request} {r : Request} (hr : r ∈ (s.updRequest tag f).ms.queue)
    (ht : r.tag = tag) : ∃ q, r = f q := by
  obtain ⟨q, hq, e⟩ := List.mem_map.mp hr
  split at e
  · exact ⟨q, e.symm⟩
  · rename_i c; subst e; exact absurd ht c

theorem Keeps.finish (h : Keeps L s t) {tag : Half} {reply : Reply} : Keeps L s (t.finish tag reply) := by
  unfold State.finish
  split
  · exact h
  · dsimp only
    apply Keeps.oweReply
    · refine Keeps.mend (i := .prompted) ?_ (fun hi k => ?_)
      · apply Keeps.updRequest
        · exact h.but.withdrawPrompt.clearAwaiting
        · exact fun _ => rfl
        · exact fun _ _ => Or.inl rfl
        · exact fun c => without_self c
      · have c := State.withdrawPrompt_clear (tag := tag) (h.laws _ hi k)
        refine State.prompted_updRequest (fun _ => rfl) (fun _ q => ReqState.noConfusion q) ?_
          ((h.withdrawPrompt (tag := tag)).clearAwaiting (tag := tag) |>.laws _ hi k)
        rw [State.clearAwaiting_ms]
        exact c
    · intro _ r hr tr
      obtain ⟨q, rfl⟩ := State.updRequest_tagged hr tr
      exact fun c => ReqState.noConfusion c

/-- A prompt asked for and issued: it ends the list, with what it was asked for and the number answered. -/
theorem State.askRequestPrompt_spec {kind : PromptKind} {names : Names} {u : State} {n : Nat}
    (e : s.askRequestPrompt kind names = some (u, n)) : u.ms = s.ms ∧ u.port.replyOwed = s.port.replyOwed ∧
      ∃ p : Prompt, u.pr.list = s.pr.list ++ [p] ∧ p.number = n ∧ p.kind = kind ∧ p.tag = names.tag := by
  have key : (s.issue kind names).1.ms = s.ms ∧ (s.issue kind names).1.port.replyOwed = s.port.replyOwed ∧
      ∃ p : Prompt, (s.issue kind names).1.pr.list = s.pr.list ++ [p] ∧ p.number = (s.issue kind names).2 ∧ p.kind = kind ∧
        p.tag = names.tag := by
    refine ⟨State.issue_ms, State.issue_replyOwed, ?_⟩
    unfold State.issue
    simp only [State.attend_pr]
    exact ⟨_, rfl, rfl, rfl, rfl⟩
  unfold State.askRequestPrompt at e
  split at e
  · cases e
  · generalize s.issue kind names = y at e key
    cases e
    split
    · simpa using key
    · exact key

/-- A request that joins the PROMPTED ones with a prompt of its own. -/
theorem State.prompted_enterPrompted {u : State} {tag : Half} {n : Nat} {resume : ReqState} {kind : PromptKind} {p : Prompt}
    (hm : u.ms = s.ms) (ho : u.port.replyOwed = s.port.replyOwed) (hl : u.pr.list = s.pr.list ++ [p]) (hn : p.number = n)
    (hk : p.kind.requestRelated = true) (ht : p.tag = some tag) (hc : ∀ r ∈ s.ms.queue, r.tag = tag → r.state ≠ .prompted)
    (hr : ∃ r ∈ s.ms.queue, r.tag = tag) (hx : ∀ x ∈ s.port.replyOwed, x.1 ≠ tag) (k : s.law .prompted) :
    (u.enterPrompted tag n resume kind).law .prompted := by
  obtain ⟨k0, k1, k2, k3, k4⟩ := k
  have hrel : (u.enterPrompted tag n resume kind).relatedPrompts = s.relatedPrompts ++ [p] := by
    show u.pr.list.filter _ = _
    rw [hl, List.filter_append]
    simp [hk, State.relatedPrompts]
  have hq : (u.enterPrompted tag n resume kind).ms.queue = s.ms.queue.map (fun r => if r.tag = tag then { r with
      state := .prompted
      prompt := some n
      resume := some resume
      timer := if kind = .manualMount then none else r.timer } else r) := by
    show u.ms.queue.map _ = _
    rw [hm]
  have ha : (u.enterPrompted tag n resume kind).requestsAsked = s.requestsAsked := by
    unfold State.requestsAsked
    rw [hq, List.map_map]
    refine List.map_congr_left (fun r _ => ?_)
    simp only [Function.comp]
    split <;> rfl
  have hnew : ∀ q ∈ s.relatedPrompts, q.tag ≠ some tag := by
    intro q hq tq
    obtain ⟨r, hr, tr, _, sr⟩ := k2 q hq
    exact hc r hr (Option.some.inj (tr.symm.trans tq)) sr
  refine ⟨by rw [ha]; exact k0, fun r hr' hs => ?_, fun q hq' => ?_, ?_, fun x hx' r hr' tr hs => ?_⟩
  · rw [hq] at hr'
    rw [hrel]
    obtain ⟨q, hq', e⟩ := List.mem_map.mp hr'
    split at e
    · rename_i c
      subst e
      exact ⟨p, List.mem_append_right _ (List.mem_singleton.mpr rfl), by rw [ht, ← c], by rw [hn]⟩
    · subst e
      obtain ⟨p', hp', tp, np⟩ := k1 q hq' hs
      exact ⟨p', List.mem_append_left _ hp', tp, np⟩
  · rw [hrel] at hq'
    rw [hq]
    rcases List.mem_append.mp hq' with c | c
    · obtain ⟨r, hr', tr, nr, sr⟩ := k2 q c
      exact ⟨r, List.mem_map.mpr ⟨r, hr', if_neg (fun e => hc r hr' e sr)⟩, tr, nr, sr⟩
    · obtain rfl := List.mem_singleton.mp c
      obtain ⟨r, hr', tr⟩ := hr
      refine ⟨_, List.mem_map.mpr ⟨r, hr', rfl⟩, ?_⟩
      rw [if_pos tr]
      exact ⟨by rw [ht, tr], by rw [hn], rfl⟩
  · rw [hrel, List.map_append]
    refine List.nodup_append.mpr ⟨k3, List.nodup_singleton _, ?_⟩
    intro x hx' y hy e
    obtain rfl := List.mem_singleton.mp hy
    obtain ⟨q, hq', tq⟩ := List.mem_map.mp hx'
    exact hnew q hq' (tq.trans (e.trans ht))
  · have hx' : x ∈ u.port.replyOwed := hx'
    rw [ho] at hx'
    rw [hq] at hr'
    obtain ⟨q, hq', e⟩ := List.mem_map.mp hr'
    split at e
    · rename_i c
      subst e
      exact hx x hx' (tr.symm.trans c)
    · subst e
      exact k4 x hx' q hq' tr hs

theorem Keeps.promptRequest (h : Keeps L s t) {tag : Half} {kind : PromptKind} {volume : Option Nat} {drive : Option (Fin 16)}
    {resume : ReqState} {u : State} (e : t.promptRequest tag kind volume drive resume = some u)
    (hk : kind.requestRelated = true) : Keeps L s u := by
  unfold State.promptRequest at e
  split at e
  · rename_i hp
    obtain ⟨x, hx, rfl⟩ := Option.map_eq_some_iff.mp e
    refine Keeps.mend (i := .prompted) ((h.but.withdrawPrompt.askRequestPrompt (fun c => without_self c) hx).enterPromptedBut
      (fun c => without_self c)) (fun hi k => ?_)
    have kt := h.laws _ hi k
    have hp := Bool.and_eq_true_iff.mp hp
    have ka := (Keeps.refl (L := noLaw) t).withdrawPrompt (tag := tag) |>.asked
    obtain ⟨hm, ho, p, hl, hn, hkind, ht⟩ := State.askRequestPrompt_spec hx
    refine State.prompted_enterPrompted hm ho hl hn (by rw [hkind]; exact hk) ht (State.withdrawPrompt_clear kt) ?_ ?_
      ((h.withdrawPrompt (tag := tag)).laws _ hi k)
    · obtain ⟨q, hq⟩ := Option.isSome_iff_exists.mp hp.1
      obtain ⟨hq, tq⟩ := State.request?_mem hq
      have : q.asked ∈ (t.withdrawPrompt tag).requestsAsked := ka ▸ List.mem_map.mpr ⟨q, hq, rfl⟩
      obtain ⟨r, hr, e⟩ := List.mem_map.mp this
      exact ⟨r, hr, (congrArg (fun x => x.1.1) e).trans tq⟩
    · rw [State.withdrawPrompt_replyOwed]
      intro x hx c
      have := hp.2
      simp only [Bool.not_eq_true', List.any_eq_false] at this
      exact this x hx (by simp [c])
  · cases e

theorem Keeps.dropClaim (h : Keeps L s t) {tag : Half} {outcome : RecOutcome} : Keeps L s (t.dropClaim tag outcome) := by
  unfold State.dropClaim
  repeat' first
    | with_reducible exact h | with_reducible apply Keeps.ite | with_reducible apply Keeps.giveUpClaim
    | exact fun _ => rfl | exact fun _ _ => rfl | exact fun _ _ => Or.inr rfl | exact fun _ _ => Or.inl rfl
    | exact fun _ q => ReqState.noConfusion q | exact rfl
    | split | dsimp only

theorem Keeps.dropUnstarted (h : Keeps L s t) {tag : Half} : Keeps L s (t.dropUnstarted tag) := by
  unfold State.dropUnstarted
  repeat' first
    | with_reducible exact h | with_reducible apply Keeps.ite | with_reducible apply Keeps.removeOrder
    | with_reducible apply Keeps.updRequest
    | exact fun _ => rfl | exact fun _ _ => rfl | exact fun _ _ => Or.inr rfl | exact fun _ _ => Or.inl rfl
    | exact fun _ q => ReqState.noConfusion q | exact rfl
    | split | dsimp only

theorem Keeps.nameVolume (h : Keeps L s t) {tag : Half} {e : Nat} : Keeps L s (t.nameVolume tag e) := by
  unfold State.nameVolume
  split
  · exact h
  · rename_i hn
    refine Keeps.mend (i := .chosen) ?_ (fun hi k => ?_)
    · apply Keeps.updRequest h.but
      · exact fun _ => rfl
      · exact fun c => without_self c
      · exact fun _ _ => rfl
    · have k := h.laws _ hi k
      have hn : ∀ r ∈ t.ms.queue, r.tag ≠ tag → r.volume ≠ some e := by
        intro r hr hne c
        refine hn (List.any_eq_true.mpr ⟨r, hr, ?_⟩)
        simp [hne, c]
      intro r hr q hq x hx hy
      obtain ⟨r', hr', er⟩ := List.mem_map.mp hr
      obtain ⟨q', hq', eq⟩ := List.mem_map.mp hq
      split at er <;> split at eq <;> subst er <;> subst eq
      · rename_i c d; exact c.trans d.symm
      · rename_i c d
        exact absurd (hy.trans hx.symm) (hn q' hq' d)
      · rename_i c d
        exact absurd (hx.trans hy.symm) (hn r' hr' c)
      · exact k r' hr' q' hq' x hx hy

theorem Keeps.resolveScratch (h : Keeps L s t) {tag : Half} : Keeps L s (t.resolveScratch tag) := by
  unfold State.resolveScratch
  repeat' first
    | with_reducible exact h | with_reducible apply Keeps.ite | with_reducible apply Keeps.updRequest
    | with_reducible apply Keeps.finish | with_reducible apply Keeps.enter
    | with_reducible refine Keeps.promptRequest ?_ (by assumption) ?_
    | with_reducible apply Keeps.nameVolume
    | exact fun _ => rfl | exact fun _ _ => rfl | exact fun _ _ => Or.inr rfl | exact fun _ _ => Or.inl rfl
    | exact fun _ q => ReqState.noConfusion q | exact rfl
    | split | dsimp only

theorem Keeps.lostVolume (h : Keeps L s t) {tag : Half} : Keeps L s (t.lostVolume tag) := by
  unfold State.lostVolume
  repeat' first
    | with_reducible exact h | with_reducible apply Keeps.ite | with_reducible apply Keeps.dropUnstarted
    | with_reducible apply Keeps.dropClaim | with_reducible refine Keeps.promptRequest ?_ (by assumption) ?_
    | with_reducible apply Keeps.finish | with_reducible apply Keeps.resolveScratch
    | exact fun _ => rfl | exact fun _ _ => rfl | exact fun _ _ => Or.inr rfl | exact fun _ _ => Or.inl rfl
    | exact fun _ q => ReqState.noConfusion q | exact rfl
    | split | dsimp only

theorem State.stateFor_ne {r : Request} {v : Volume} : s.stateFor r v ≠ .prompted := by
  unfold State.stateFor
  repeat' split
  all_goals exact fun q => ReqState.noConfusion q

theorem Request.resumes_ne {r : Request} : r.resumes ≠ .prompted := by
  unfold Request.resumes
  split
  · simp
  · simp
  · assumption

theorem Keeps.resolveNamed (h : Keeps L s t) {tag : Half} : Keeps L s (t.resolveNamed tag) := by
  unfold State.resolveNamed
  repeat' first
    | with_reducible exact h | with_reducible apply Keeps.ite | with_reducible apply Keeps.updRequest
    | with_reducible apply Keeps.enter | with_reducible apply Keeps.lostVolume
    | with_reducible refine Keeps.promptRequest ?_ (by assumption) ?_ | with_reducible apply Keeps.finish
    | with_reducible apply Keeps.nameVolume
    | exact fun _ => rfl | exact fun _ _ => rfl | exact fun _ _ => Or.inr rfl | exact fun _ _ => Or.inl rfl
    | exact fun _ q => ReqState.noConfusion q | exact rfl | exact fun _ => State.stateFor_ne
    | split | dsimp only

theorem Keeps.resolve (h : Keeps L s t) {tag : Half} : Keeps L s (t.resolve tag) := by
  unfold State.resolve
  repeat' first
    | with_reducible exact h | with_reducible apply Keeps.ite | with_reducible apply Keeps.resolveScratch
    | with_reducible apply Keeps.resolveNamed
    | exact fun _ => rfl | exact fun _ _ => rfl | exact fun _ _ => Or.inr rfl | exact fun _ _ => Or.inl rfl
    | exact fun _ q => ReqState.noConfusion q | exact rfl
    | split | dsimp only

theorem Keeps.grant (h : Keeps L s t) {r : Request} {d : Fin 16} {manual : Option Nat} : Keeps L s (t.grant r d manual) := by
  unfold State.grant
  repeat' first
    | with_reducible exact h | with_reducible apply Keeps.ite | with_reducible apply Keeps.updDrive
    | with_reducible apply Keeps.countGrant | with_reducible apply Keeps.updRequest
    | exact fun _ => rfl | exact fun _ _ => rfl | exact fun _ _ => Or.inr rfl | exact fun _ _ => Or.inl rfl
    | exact fun _ q => ReqState.noConfusion q | exact rfl
    | split | dsimp only

theorem Keeps.askOrder (h : Keeps L s t) {tag : Half} : Keeps L s (t.askOrder tag) := by
  unfold State.askOrder
  repeat' first
    | with_reducible exact h | with_reducible apply Keeps.ite | with_reducible apply Keeps.lostVolume
    | with_reducible apply Keeps.enter | with_reducible apply Keeps.finish
    | with_reducible refine Keeps.createCarry' ?_ (by assumption) | with_reducible apply Keeps.updRequest
    | exact fun _ => rfl | exact fun _ _ => rfl | exact fun _ _ => Or.inr rfl | exact fun _ _ => Or.inl rfl
    | exact fun _ q => ReqState.noConfusion q | exact rfl
    | split | dsimp only

theorem Keeps.afterGrant (h : Keeps L s t) {tag : Half} {d : Fin 16} {manual : Option Nat} :
    Keeps L s (t.afterGrant tag d manual) := by
  unfold State.afterGrant
  repeat' first
    | with_reducible exact h | with_reducible apply Keeps.ite | with_reducible apply Keeps.enter
    | with_reducible apply Keeps.askOrder | with_reducible refine Keeps.promptRequest ?_ (by assumption) ?_
    | with_reducible apply Keeps.dropClaim | with_reducible apply Keeps.finish
    | exact fun _ => rfl | exact fun _ _ => rfl | exact fun _ _ => Or.inr rfl | exact fun _ _ => Or.inl rfl
    | exact fun _ q => ReqState.noConfusion q | exact rfl
    | split | dsimp only

theorem Keeps.examine (h : Keeps L s t) {tag : Half} : Keeps L s (t.examine tag) := by
  unfold State.examine
  repeat' first
    | with_reducible exact h | with_reducible apply Keeps.ite | with_reducible apply Keeps.enter
    | with_reducible apply Keeps.lostVolume | with_reducible apply Keeps.grant | with_reducible apply Keeps.afterGrant
    | exact fun _ => rfl | exact fun _ _ => rfl | exact fun _ _ => Or.inr rfl | exact fun _ _ => Or.inl rfl
    | exact fun _ q => ReqState.noConfusion q | exact rfl
    | split | dsimp only

theorem Keeps.walkStep (h : Keeps L s t) {tag : Half} : Keeps L s (t.walkStep tag) := by
  unfold State.walkStep
  repeat' first
    | with_reducible exact h | with_reducible apply Keeps.ite | with_reducible apply Keeps.resolve
    | with_reducible apply Keeps.examine | with_reducible apply Keeps.askOrder
    | exact fun _ => rfl | exact fun _ _ => rfl | exact fun _ _ => Or.inr rfl | exact fun _ _ => Or.inl rfl
    | exact fun _ q => ReqState.noConfusion q | exact rfl
    | split | dsimp only

theorem Keeps.choosePositionFor (h : Keeps L s t) {tag : Half} {d : Fin 16} : Keeps L s (t.choosePositionFor tag d) := by
  unfold State.choosePositionFor
  repeat' first
    | with_reducible exact h | with_reducible apply Keeps.ite | with_reducible apply Keeps.updStation
    | with_reducible apply Keeps.promptPosition
    | exact fun _ => rfl | exact fun _ _ => rfl | exact fun _ _ => Or.inr rfl | exact fun _ _ => Or.inl rfl
    | exact fun _ q => ReqState.noConfusion q | exact rfl
    | split | dsimp only

theorem Keeps.ringReturn (h : Keeps L s t) {d : Fin 16} : Keeps L s (t.ringReturn d) := by
  unfold State.ringReturn
  repeat' first
    | with_reducible exact h | with_reducible apply Keeps.ite | with_reducible apply Keeps.choosePositionFor
    | with_reducible refine Keeps.createCarry' ?_ (by assumption) | with_reducible apply Keeps.updRequest
    | exact fun _ => rfl | exact fun _ _ => rfl | exact fun _ _ => Or.inr rfl | exact fun _ _ => Or.inl rfl
    | exact fun _ q => ReqState.noConfusion q | exact rfl
    | split | dsimp only

theorem Keeps.joinOrder (h : Keeps L s t) {tag : Half} {id : Nat} : Keeps L s (t.joinOrder tag id) := by
  unfold State.joinOrder
  repeat' first
    | with_reducible exact h | with_reducible apply Keeps.updOrder | with_reducible apply Keeps.enter
    | with_reducible apply Keeps.updRequest
    | exact fun _ => rfl | exact fun _ _ => rfl | exact fun _ _ => Or.inr rfl | exact fun _ _ => Or.inl rfl
    | exact fun _ q => ReqState.noConfusion q | exact rfl
    | split | dsimp only

theorem Keeps.joinReturn (h : Keeps L s t) {d : Fin 16} : Keeps L s (t.joinReturn d) := by
  unfold State.joinReturn; split
  · exact Keeps.ite h.joinOrder h
  · exact h

theorem Keeps.recoverDrives (h : Keeps L s t) : Keeps L s t.recoverDrives := by
  unfold State.recoverDrives
  exact Keeps.foldl (fun h => h.joinReturn) h.createOwedRecovers

theorem Keeps.tryReturn (h : Keeps L s t) {d : Fin 16} : Keeps L s (t.tryReturn d) := by
  unfold State.tryReturn
  repeat' first
    | with_reducible exact h | with_reducible apply Keeps.ite | with_reducible apply Keeps.ringReturn
    | with_reducible apply Keeps.joinReturn
    | with_reducible refine Keeps.createCarry' ?_ (by assumption) | with_reducible apply Keeps.enter
    | with_reducible apply Keeps.updRequest
    | exact fun _ => rfl | exact fun _ _ => rfl | exact fun _ _ => Or.inr rfl | exact fun _ _ => Or.inl rfl
    | exact fun _ q => ReqState.noConfusion q | exact rfl
    | split | dsimp only

theorem Keeps.walk (h : Keeps L s t) : Keeps L s (t.walk) := by
  unfold State.walk
  repeat' first
    | with_reducible exact h | with_reducible apply Keeps.ite | with_reducible refine Keeps.foldl (fun h => ?_) ?_
    | with_reducible apply Keeps.tryReturn | with_reducible apply Keeps.walkStep
    | exact fun _ => rfl | exact fun _ _ => rfl | exact fun _ _ => Or.inr rfl | exact fun _ _ => Or.inl rfl
    | exact fun _ q => ReqState.noConfusion q | exact rfl
    | split | dsimp only

theorem Keeps.tryAgain (h : Keeps L s t) {r : Request} : Keeps L s (t.tryAgain r) := by
  unfold State.tryAgain
  repeat' first
    | with_reducible exact h | with_reducible apply Keeps.ite | with_reducible apply Keeps.enter
    | exact fun _ q => ReqState.noConfusion q

theorem Keeps.endPutAway (h : Keeps L s t) {tag : Half} : Keeps L s (t.endPutAway tag) := by
  unfold State.endPutAway
  repeat' first
    | with_reducible exact h | with_reducible apply Keeps.ite | with_reducible apply Keeps.updRequest
    | with_reducible apply Keeps.finish | with_reducible apply Keeps.resolve | with_reducible apply Keeps.enter
    | with_reducible apply Keeps.tryAgain | with_reducible apply Keeps.lostVolume
    | exact fun _ => rfl | exact fun _ _ => rfl | exact fun _ _ => Or.inr rfl | exact fun _ _ => Or.inl rfl
    | exact fun _ q => ReqState.noConfusion q | exact rfl
    | split | dsimp only

theorem Keeps.pursueDrive (h : Keeps L s t) {tag : Half} : Keeps L s (t.pursueDrive tag) := by
  unfold State.pursueDrive
  repeat' first
    | with_reducible exact h | with_reducible apply Keeps.ite | with_reducible apply Keeps.endPutAway
    | with_reducible apply Keeps.updClaim | with_reducible apply Keeps.enter | with_reducible apply Keeps.giveUpClaim
    | with_reducible apply Keeps.unload | with_reducible apply Keeps.stopLabelTimer
    | exact fun _ => rfl | exact fun _ _ => rfl | exact fun _ _ => Or.inr rfl | exact fun _ _ => Or.inl rfl
    | exact fun _ q => ReqState.noConfusion q | exact rfl
    | split | dsimp only

theorem Keeps.pursue (h : Keeps L s t) {tag : Half} : Keeps L s (t.pursue tag) := by
  unfold State.pursue
  repeat' first
    | with_reducible exact h | with_reducible apply Keeps.ite | with_reducible apply Keeps.dropUnstarted
    | with_reducible apply Keeps.pursueDrive | with_reducible apply Keeps.enter | with_reducible apply Keeps.cutOrder
    | with_reducible apply Keeps.replaceRest | with_reducible apply Keeps.dropClaim
    | exact fun _ => rfl | exact fun _ _ => rfl | exact fun _ _ => Or.inr rfl | exact fun _ _ => Or.inl rfl
    | exact fun _ q => ReqState.noConfusion q | exact rfl
    | split | dsimp only

theorem Keeps.putAway (h : Keeps L s t) {tag : Half} {pending : Option Reply} {after : Option AfterPutAway} {outcome : RecOutcome} {toStation : Bool} :
    Keeps L s (t.putAway tag pending after outcome toStation) := by
  unfold State.putAway
  repeat' first
    | with_reducible exact h | with_reducible apply Keeps.ite | with_reducible apply Keeps.clearAwaiting
    | with_reducible apply Keeps.updClaim | with_reducible apply Keeps.updRequest | with_reducible apply Keeps.pursue
    | with_reducible apply Keeps.withdrawPrompt
    | exact fun _ => rfl | exact fun _ _ => rfl | exact fun _ _ => Or.inr rfl | exact fun _ _ => Or.inl rfl
    | exact fun _ q => ReqState.noConfusion q | exact rfl
    | split | dsimp only

theorem Keeps.promptOrFail (h : Keeps L s t) {tag : Half} {kind : PromptKind} {volume : Option Nat} {drive : Option (Fin 16)} {resume : ReqState} (hk : kind.requestRelated = true) :
    Keeps L s (t.promptOrFail tag kind volume drive resume) := by
  unfold State.promptOrFail
  repeat' first
    | with_reducible exact h | with_reducible apply Keeps.ite
    | with_reducible refine Keeps.promptRequest ?_ (by assumption) ?_ | with_reducible apply Keeps.putAway
    | exact fun _ => rfl | exact fun _ _ => rfl | exact fun _ _ => Or.inr rfl | exact fun _ _ => Or.inl rfl
    | exact fun _ q => ReqState.noConfusion q | exact rfl | exact hk
    | split | dsimp only

theorem Keeps.awaitOrPursue (h : Keeps L s t) {tag : Half} {volume : Option Nat} : Keeps L s (t.awaitOrPursue tag volume) := by
  unfold State.awaitOrPursue
  repeat' first
    | with_reducible exact h | with_reducible apply Keeps.ite | with_reducible apply Keeps.dropClaim
    | with_reducible apply Keeps.enter | with_reducible apply Keeps.updRequest | with_reducible apply Keeps.pursue
    | exact fun _ => rfl | exact fun _ _ => rfl | exact fun _ _ => Or.inr rfl | exact fun _ _ => Or.inl rfl
    | exact fun _ q => ReqState.noConfusion q | exact rfl
    | split | dsimp only

theorem Keeps.checkAwaits (h : Keeps L s t) : Keeps L s (t.checkAwaits) := by
  unfold State.checkAwaits
  repeat' first
    | with_reducible exact h | with_reducible apply Keeps.ite | with_reducible refine Keeps.foldl (fun h => ?_) ?_
    | with_reducible apply Keeps.updRequest | with_reducible apply Keeps.pursue
    | exact fun _ => rfl | exact fun _ _ => rfl | exact fun _ _ => Or.inr rfl | exact fun _ _ => Or.inl rfl
    | exact fun _ q => ReqState.noConfusion q | exact rfl
    | split | dsimp only

/-! ### What Mount Service is told -/

theorem Keeps.finishMounted (h : Keeps L s t) {r : Request} {d : Fin 16} : Keeps L s (t.finishMounted r d) := by
  unfold State.finishMounted
  repeat' first
    | with_reducible exact h | with_reducible apply Keeps.ite | with_reducible apply Keeps.finish
    | exact fun _ => rfl | exact fun _ _ => rfl | exact fun _ _ => Or.inr rfl | exact fun _ _ => Or.inl rfl
    | exact fun _ q => ReqState.noConfusion q | exact rfl
    | split | dsimp only

theorem Keeps.afterRing (h : Keeps L s t) {tag : Half} {d : Fin 16} : Keeps L s (t.afterRing tag d) := by
  unfold State.afterRing
  repeat' first
    | with_reducible exact h | with_reducible apply Keeps.ite | with_reducible apply Keeps.enter
    | with_reducible apply Keeps.startLabelTimer | with_reducible apply Keeps.finishMounted
    | exact fun _ => rfl | exact fun _ _ => rfl | exact fun _ _ => Or.inr rfl | exact fun _ _ => Or.inl rfl
    | exact fun _ q => ReqState.noConfusion q | exact rfl
    | split | dsimp only

theorem Keeps.ringCheck (h : Keeps L s t) {tag : Half} {d : Fin 16} {protect : Bool} : Keeps L s (t.ringCheck tag d protect) := by
  unfold State.ringCheck
  repeat' first
    | with_reducible exact h | with_reducible apply Keeps.ite | with_reducible apply Keeps.promptOrFail
    | with_reducible apply Keeps.afterRing
    | exact fun _ => rfl | exact fun _ _ => rfl | exact fun _ _ => Or.inr rfl | exact fun _ _ => Or.inl rfl
    | exact fun _ q => ReqState.noConfusion q | exact rfl
    | split | dsimp only

theorem Keeps.onLoaded (h : Keeps L s t) {d : Fin 16} {tag : Option Half} {protect refit : Bool} :
    Keeps L s (t.onLoaded d tag protect refit) := by
  unfold State.onLoaded
  repeat' first
    | with_reducible exact h | with_reducible apply Keeps.ite | with_reducible apply Keeps.countScratchIssue
    | with_reducible apply Keeps.ringCheck | with_reducible apply Keeps.unload
    | with_reducible apply Keeps.restartPrompt | with_reducible apply Keeps.withdrawPrompt
    | with_reducible apply Keeps.afterRing
    | exact fun _ => rfl | exact fun _ _ => rfl | exact fun _ _ => Or.inr rfl | exact fun _ _ => Or.inl rfl
    | exact fun _ q => ReqState.noConfusion q | exact rfl
    | split | dsimp only

theorem Keeps.onLoadedAgain (h : Keeps L s t) {d : Fin 16} {tag : Option Half} : Keeps L s (t.onLoadedAgain d tag) := by
  unfold State.onLoadedAgain
  repeat' first
    | with_reducible exact h | with_reducible apply Keeps.ite | with_reducible apply Keeps.startLabelTimer
    | with_reducible apply Keeps.unload
    | exact fun _ => rfl | exact fun _ _ => rfl | exact fun _ _ => Or.inr rfl | exact fun _ _ => Or.inl rfl
    | exact fun _ q => ReqState.noConfusion q | exact rfl
    | split | dsimp only

theorem Keeps.onLoadFailed (h : Keeps L s t) {tag : Option Half} : Keeps L s (t.onLoadFailed tag) := by
  unfold State.onLoadFailed
  repeat' first
    | with_reducible exact h | with_reducible apply Keeps.ite | with_reducible apply Keeps.withdrawPrompt
    | with_reducible apply Keeps.enter
    | exact fun _ => rfl | exact fun _ _ => rfl | exact fun _ _ => Or.inr rfl | exact fun _ _ => Or.inl rfl
    | exact fun _ q => ReqState.noConfusion q | exact rfl
    | split | dsimp only

theorem Keeps.retryLoad (h : Keeps L s t) {r : Request} : Keeps L s (t.retryLoad r) := by
  unfold State.retryLoad
  repeat' first
    | with_reducible exact h | with_reducible apply Keeps.ite | with_reducible apply Keeps.updRequest
    | with_reducible apply Keeps.putAway
    | exact fun _ => rfl | exact fun _ _ => rfl | exact fun _ _ => Or.inr rfl | exact fun _ _ => Or.inl rfl
    | exact fun _ q => ReqState.noConfusion q | exact rfl
    | split | dsimp only

theorem Keeps.releasedEarly (h : Keeps L s t) {r : Request} {d : Fin 16} : Keeps L s (t.releasedEarly r d) := by
  unfold State.releasedEarly
  repeat' first
    | with_reducible exact h | with_reducible apply Keeps.ite | with_reducible apply Keeps.stopLabelTimer
    | with_reducible apply Keeps.withdrawPrompt | with_reducible apply Keeps.putAway
    | exact fun _ => rfl | exact fun _ _ => rfl | exact fun _ _ => Or.inr rfl | exact fun _ _ => Or.inl rfl
    | exact fun _ q => ReqState.noConfusion q | exact rfl
    | split | dsimp only

theorem Keeps.onReelReady (h : Keeps L s t) {d : Fin 16} {tag : Option Half} : Keeps L s (t.onReelReady d tag) := by
  unfold State.onReelReady
  repeat' first
    | with_reducible exact h | with_reducible apply Keeps.ite | with_reducible apply Keeps.nameByHand
    | with_reducible apply Keeps.tryReturn | with_reducible apply Keeps.retryLoad
    | with_reducible apply Keeps.releasedEarly
    | exact fun _ => rfl | exact fun _ _ => rfl | exact fun _ _ => Or.inr rfl | exact fun _ _ => Or.inl rfl
    | exact fun _ q => ReqState.noConfusion q | exact rfl
    | split | dsimp only

theorem Keeps.onPlaced (h : Keeps L s t) {tag : Option Half} : Keeps L s (t.onPlaced tag) := by
  unfold State.onPlaced
  repeat' first
    | with_reducible exact h | with_reducible apply Keeps.ite | with_reducible apply Keeps.enter
    | exact fun _ => rfl | exact fun _ _ => rfl | exact fun _ _ => Or.inr rfl | exact fun _ _ => Or.inl rfl
    | exact fun _ q => ReqState.noConfusion q | exact rfl
    | split | dsimp only

theorem Keeps.onClaimLost (h : Keeps L s t) {tag : Option Half} : Keeps L s (t.onClaimLost tag) := by
  unfold State.onClaimLost
  repeat' first
    | with_reducible exact h | with_reducible apply Keeps.ite | with_reducible apply Keeps.withdrawPrompt
    | with_reducible apply Keeps.dropUnstarted | with_reducible apply Keeps.updRequest
    | with_reducible apply Keeps.enter | with_reducible apply Keeps.endPutAway
    | exact fun _ => rfl | exact fun _ _ => rfl | exact fun _ _ => Or.inr rfl | exact fun _ _ => Or.inl rfl
    | exact fun _ q => ReqState.noConfusion q | exact rfl
    | split | dsimp only

theorem Keeps.dropDriveOrders (h : Keeps L s t) {d : Fin 16} : Keeps L s (t.dropDriveOrders d) := by
  unfold State.dropDriveOrders
  repeat' first
    | with_reducible exact h | with_reducible apply Keeps.ite | with_reducible refine Keeps.foldl (fun h => ?_) ?_
    | with_reducible apply Keeps.cutOrder | with_reducible apply Keeps.removeOrder
    | exact fun _ => rfl | exact fun _ _ => rfl | exact fun _ _ => Or.inr rfl | exact fun _ _ => Or.inl rfl
    | exact fun _ q => ReqState.noConfusion q | exact rfl
    | split | dsimp only

theorem Keeps.onVolumeLost (h : Keeps L s t) {d : Fin 16} {tag : Option Half} : Keeps L s (t.onVolumeLost d tag) := by
  unfold State.onVolumeLost
  repeat' first
    | with_reducible exact h | with_reducible apply Keeps.ite | with_reducible apply Keeps.dropDriveOrders
    | with_reducible apply Keeps.withdrawPrompt | with_reducible apply Keeps.lostVolume
    | with_reducible apply Keeps.endPutAway
    | exact fun _ => rfl | exact fun _ _ => rfl | exact fun _ _ => Or.inr rfl | exact fun _ _ => Or.inl rfl
    | exact fun _ q => ReqState.noConfusion q | exact rfl
    | split | dsimp only

theorem Keeps.takeLabel (h : Keeps L s t) {d : Fin 16} {serial : Text} : Keeps L s (t.takeLabel d serial) := by
  unfold State.takeLabel
  repeat' first
    | with_reducible exact h | with_reducible apply Keeps.ite | with_reducible apply Keeps.stopLabelTimer
    | with_reducible apply Keeps.finishMounted | with_reducible apply Keeps.raiseErrors
    | with_reducible apply Keeps.promptOrFail
    | exact fun _ => rfl | exact fun _ _ => rfl | exact fun _ _ => Or.inr rfl | exact fun _ _ => Or.inl rfl
    | exact fun _ q => ReqState.noConfusion q | exact rfl
    | split | dsimp only

theorem Keeps.labelExpiry (h : Keeps L s t) {d : Fin 16} : Keeps L s (t.labelExpiry d) := by
  unfold State.labelExpiry
  repeat' first
    | with_reducible exact h | with_reducible apply Keeps.ite | with_reducible apply Keeps.stopLabelTimer
    | with_reducible apply Keeps.putAway
    | exact fun _ => rfl | exact fun _ _ => rfl | exact fun _ _ => Or.inr rfl | exact fun _ _ => Or.inl rfl
    | exact fun _ q => ReqState.noConfusion q | exact rfl
    | split | dsimp only

theorem Keeps.onOrderStarted (h : Keeps L s t) {id : Nat} : Keeps L s (t.onOrderStarted id) := by
  unfold State.onOrderStarted
  repeat' first
    | with_reducible exact h | with_reducible apply Keeps.ite | with_reducible apply Keeps.enter
    | exact fun _ => rfl | exact fun _ _ => rfl | exact fun _ _ => Or.inr rfl | exact fun _ _ => Or.inl rfl
    | exact fun _ q => ReqState.noConfusion q | exact rfl
    | split | dsimp only

theorem Keeps.retryOrder (h : Keeps L s t) {r : Request} : Keeps L s (t.retryOrder r) := by
  unfold State.retryOrder
  repeat' first
    | with_reducible exact h | with_reducible apply Keeps.ite | with_reducible apply Keeps.updRequest
    | with_reducible apply Keeps.dropClaim | with_reducible apply Keeps.lostVolume | with_reducible apply Keeps.finish
    | with_reducible apply Keeps.awaitOrPursue
    | exact fun _ => rfl | exact fun _ _ => rfl | exact fun _ _ => Or.inr rfl | exact fun _ _ => Or.inl rfl
    | exact fun _ q => ReqState.noConfusion q | exact rfl
    | split | dsimp only

theorem Keeps.orderDone (h : Keeps L s t) {r : Request} {rep : OrderEnd} : Keeps L s (t.orderDone r rep) := by
  unfold State.orderDone
  repeat' first
    | with_reducible exact h | with_reducible apply Keeps.ite | with_reducible apply Keeps.finish
    | with_reducible apply Keeps.putAway | with_reducible apply Keeps.awaitOrPursue
    | exact fun _ => rfl | exact fun _ _ => rfl | exact fun _ _ => Or.inr rfl | exact fun _ _ => Or.inl rfl
    | exact fun _ q => ReqState.noConfusion q | exact rfl
    | split | dsimp only

theorem Keeps.orderFailed (h : Keeps L s t) {r : Request} {rep : OrderEnd} : Keeps L s (t.orderFailed r rep) := by
  unfold State.orderFailed
  repeat' first
    | with_reducible exact h | with_reducible apply Keeps.ite | with_reducible apply Keeps.withdrawPrompt
    | with_reducible apply Keeps.enter | with_reducible apply Keeps.updRequest | with_reducible apply Keeps.retryOrder
    | with_reducible apply Keeps.awaitOrPursue | with_reducible apply Keeps.lostVolume | with_reducible apply Keeps.pursue
    | exact fun _ => rfl | exact fun _ _ => rfl | exact fun _ _ => Or.inr rfl | exact fun _ _ => Or.inl rfl
    | exact fun _ q => ReqState.noConfusion q | exact rfl
    | split | dsimp only

theorem Keeps.onReelTaken (h : Keeps L s t) {d : Fin 16} {volume : Option Nat} : Keeps L s (t.onReelTaken d volume) := by
  unfold State.onReelTaken
  repeat' first
    | with_reducible exact h | with_reducible apply Keeps.ite | with_reducible apply Keeps.withdrawPrompt
    | with_reducible apply Keeps.enter | with_reducible apply Keeps.awaitOrPursue
    | exact fun _ => rfl | exact fun _ _ => rfl | exact fun _ _ => Or.inr rfl | exact fun _ _ => Or.inl rfl
    | exact fun _ q => ReqState.noConfusion q | exact rfl
    | split | dsimp only

theorem Keeps.onOrderEnded (h : Keeps L s t) {rep : OrderEnd} : Keeps L s (t.onOrderEnded rep) := by
  unfold State.onOrderEnded
  repeat' first
    | with_reducible exact h | with_reducible apply Keeps.ite | with_reducible apply Keeps.updRequest
    | with_reducible apply Keeps.orderDone | with_reducible apply Keeps.orderFailed
    | exact fun _ => rfl | exact fun _ _ => rfl | exact fun _ _ => Or.inr rfl | exact fun _ _ => Or.inl rfl
    | exact fun _ q => ReqState.noConfusion q | exact rfl
    | split | dsimp only

theorem Keeps.onOrderRemoved (h : Keeps L s t) {rep : OrderEnd} : Keeps L s (t.onOrderRemoved rep) := by
  unfold State.onOrderRemoved
  repeat' first
    | with_reducible exact h | with_reducible apply Keeps.ite | with_reducible apply Keeps.updRequest
    | exact fun _ => rfl | exact fun _ _ => rfl | exact fun _ _ => Or.inr rfl | exact fun _ _ => Or.inl rfl
    | exact fun _ q => ReqState.noConfusion q | exact rfl
    | split | dsimp only

theorem Keeps.cancelFrom (h : Keeps L s t) {r : Request} {st : ReqState} : Keeps L s (t.cancelFrom r st) := by
  unfold State.cancelFrom
  repeat' first
    | with_reducible exact h | with_reducible apply Keeps.ite | with_reducible apply Keeps.finish
    | with_reducible apply Keeps.dropUnstarted | with_reducible apply Keeps.dropClaim
    | with_reducible apply Keeps.putAway | with_reducible apply Keeps.updRequest
    | with_reducible apply Keeps.updClaim
    | exact fun _ => rfl | exact fun _ _ => rfl | exact fun _ _ => Or.inr rfl | exact fun _ _ => Or.inl rfl
    | exact fun _ q => ReqState.noConfusion q | exact rfl
    | split | dsimp only

theorem Keeps.cancelRequest (h : Keeps L s t) {r : Request} : Keeps L s (t.cancelRequest r) := by
  unfold State.cancelRequest
  repeat' first
    | with_reducible exact h | with_reducible apply Keeps.ite | with_reducible apply Keeps.withdrawPrompt
    | with_reducible apply Keeps.cancelFrom
    | exact fun _ => rfl | exact fun _ _ => rfl | exact fun _ _ => Or.inr rfl | exact fun _ _ => Or.inl rfl
    | exact fun _ q => ReqState.noConfusion q | exact rfl
    | split | dsimp only

theorem Keeps.waitExpiry (h : Keeps L s t) {tag : Half} : Keeps L s (t.waitExpiry tag) := by
  unfold State.waitExpiry
  repeat' first
    | with_reducible exact h | with_reducible apply Keeps.ite | with_reducible apply Keeps.withdrawPrompt
    | with_reducible apply Keeps.updRequest | with_reducible apply Keeps.putAway
    | exact fun _ => rfl | exact fun _ _ => rfl | exact fun _ _ => Or.inr rfl | exact fun _ _ => Or.inl rfl
    | exact fun _ q => ReqState.noConfusion q | exact rfl
    | split | dsimp only

theorem Keeps.promptTimedOut (h : Keeps L s t) {tag : Half} : Keeps L s (t.promptTimedOut tag) := by
  unfold State.promptTimedOut
  repeat' first
    | with_reducible exact h | with_reducible apply Keeps.ite | with_reducible apply Keeps.putAway
    | exact fun _ => rfl | exact fun _ _ => rfl | exact fun _ _ => Or.inr rfl | exact fun _ _ => Or.inl rfl
    | exact fun _ q => ReqState.noConfusion q | exact rfl
    | split | dsimp only

theorem Keeps.markAssisted (h : Keeps L s t) {r : Request} : Keeps L s (t.markAssisted r) := by
  unfold State.markAssisted
  repeat' first
    | with_reducible exact h | with_reducible apply Keeps.ite | with_reducible apply Keeps.updDrive
    | exact fun _ => rfl | exact fun _ _ => rfl | exact fun _ _ => Or.inr rfl | exact fun _ _ => Or.inl rfl
    | exact fun _ q => ReqState.noConfusion q | exact rfl
    | split | dsimp only

theorem Keeps.manualMountDone (h : Keeps L s t) {r : Request} : Keeps L s (t.manualMountDone r) := by
  unfold State.manualMountDone
  repeat' first
    | with_reducible exact h | with_reducible apply Keeps.ite | with_reducible apply Keeps.enter
    | with_reducible apply Keeps.manualDone
    | exact fun _ => rfl | exact fun _ _ => rfl | exact fun _ _ => Or.inr rfl | exact fun _ _ => Or.inl rfl
    | exact fun _ q => ReqState.noConfusion q | exact rfl
    | split | dsimp only

theorem Keeps.manualMountCancel (h : Keeps L s t) {r : Request} : Keeps L s (t.manualMountCancel r) := by
  unfold State.manualMountCancel
  repeat' first
    | with_reducible exact h | with_reducible apply Keeps.ite | with_reducible apply Keeps.dropClaim
    | with_reducible apply Keeps.finish
    | exact fun _ => rfl | exact fun _ _ => rfl | exact fun _ _ => Or.inr rfl | exact fun _ _ => Or.inl rfl
    | exact fun _ q => ReqState.noConfusion q | exact rfl
    | split | dsimp only

theorem Keeps.ringReadonly (h : Keeps L s t) {r : Request} : Keeps L s (t.ringReadonly r) := by
  unfold State.ringReadonly
  repeat' first
    | with_reducible exact h | with_reducible apply Keeps.ite | with_reducible apply Keeps.updDrive
    | with_reducible apply Keeps.afterRing
    | exact fun _ => rfl | exact fun _ _ => rfl | exact fun _ _ => Or.inr rfl | exact fun _ _ => Or.inl rfl
    | exact fun _ q => ReqState.noConfusion q | exact rfl
    | split | dsimp only

theorem Keeps.ringCancel (h : Keeps L s t) {r : Request} : Keeps L s (t.ringCancel r) := by
  unfold State.ringCancel
  repeat' first
    | with_reducible exact h | with_reducible apply Keeps.ite | with_reducible apply Keeps.putAway
    | exact fun _ => rfl | exact fun _ _ => rfl | exact fun _ _ => Or.inr rfl | exact fun _ _ => Or.inl rfl
    | exact fun _ q => ReqState.noConfusion q | exact rfl
    | split | dsimp only

theorem Keeps.ringFit (h : Keeps L s t) {r : Request} {n : Nat} : Keeps L s (t.ringFit r n) := by
  unfold State.ringFit
  repeat' first
    | with_reducible exact h | with_reducible apply Keeps.ite | with_reducible apply Keeps.restartPrompt
    | with_reducible apply Keeps.updPrompt | with_reducible apply Keeps.clearAwaiting
    | with_reducible apply Keeps.updClaim | with_reducible apply Keeps.unload
    | with_reducible apply Keeps.choosePositionFor | with_reducible apply Keeps.notify
    | exact fun _ => rfl | exact fun _ _ => rfl | exact fun _ _ => Or.inr rfl | exact fun _ _ => Or.inl rfl
    | exact fun _ q => ReqState.noConfusion q | exact rfl
    | split | dsimp only

theorem Keeps.labelAccept (h : Keeps L s t) {r : Request} : Keeps L s (t.labelAccept r) := by
  unfold State.labelAccept
  repeat' first
    | with_reducible exact h | with_reducible apply Keeps.ite | with_reducible apply Keeps.finishMounted
    | exact fun _ => rfl | exact fun _ _ => rfl | exact fun _ _ => Or.inr rfl | exact fun _ _ => Or.inl rfl
    | exact fun _ q => ReqState.noConfusion q | exact rfl
    | split | dsimp only

theorem Keeps.labelReject (h : Keeps L s t) {r : Request} : Keeps L s (t.labelReject r) := by
  unfold State.labelReject
  repeat' first
    | with_reducible exact h | with_reducible apply Keeps.ite | with_reducible apply Keeps.putAway
    | with_reducible apply Keeps.resolve
    | exact fun _ => rfl | exact fun _ _ => rfl | exact fun _ _ => Or.inr rfl | exact fun _ _ => Or.inl rfl
    | exact fun _ q => ReqState.noConfusion q | exact rfl
    | split | dsimp only

theorem Keeps.suspectProceed (h : Keeps L s t) {r : Request} {volume : Option Nat} : Keeps L s (t.suspectProceed r volume) := by
  unfold State.suspectProceed
  repeat' first
    | with_reducible exact h | with_reducible apply Keeps.ite | with_reducible apply Keeps.updRequest
    | with_reducible apply Keeps.enter
    | with_reducible apply Keeps.nameVolume
    | exact fun _ => rfl | exact fun _ _ => rfl | exact fun _ _ => Or.inr rfl | exact fun _ _ => Or.inl rfl
    | exact fun _ q => ReqState.noConfusion q | exact rfl | exact fun _ => Request.resumes_ne
    | split | dsimp only

theorem Keeps.lostFound (h : Keeps L s t) {tag : Half} : Keeps L s (t.lostFound tag) := by
  unfold State.lostFound
  repeat' first
    | with_reducible exact h | with_reducible apply Keeps.ite | with_reducible apply Keeps.enter
    | exact fun _ => rfl | exact fun _ _ => rfl | exact fun _ _ => Or.inr rfl | exact fun _ _ => Or.inl rfl
    | exact fun _ q => ReqState.noConfusion q | exact rfl
    | split | dsimp only

theorem Keeps.scratchDone (h : Keeps L s t) {tag : Half} : Keeps L s (t.scratchDone tag) := by
  unfold State.scratchDone
  repeat' first
    | with_reducible exact h | with_reducible apply Keeps.ite | with_reducible apply Keeps.enter
    | exact fun _ => rfl | exact fun _ _ => rfl | exact fun _ _ => Or.inr rfl | exact fun _ _ => Or.inl rfl
    | exact fun _ q => ReqState.noConfusion q | exact rfl
    | split | dsimp only

end Sys2Proof.Machine
end

