-- ==== Sys2Proof/Laws/KeepsSteps.lean ====
section
/-! SUPPORT. What every operation inside a step keeps (Laws/Keeps.lean): the Service Controller, the notices of a step, and the reports of the arms. -/

set_option linter.unusedTactic false
set_option linter.unreachableTactic false

namespace Sys2Proof.Machine

variable {s t : State} {L : Law → Prop}

/-! ### The Service Controller -/

theorem Keeps.enterService (h : Keeps L s t) {st : SvcState} : Keeps L s (t.enterService st) :=
  Keeps.raise (h.setSvc (a := { t.svc with state := st }))

theorem Keeps.clearHomingOwed (h : Keeps L s t) : Keeps L s t.clearHomingOwed := h.setSvc

theorem Keeps.setDoorMark (h : Keeps L s t) {b : Bool} : Keeps L s (t.setDoorMark b) := h.setSvc

theorem Keeps.armsLook (h : Keeps L s t) : Keeps L s (t.armsLook) := by
  unfold State.armsLook
  repeat' first
    | with_reducible exact h | with_reducible apply Keeps.ite | with_reducible apply Keeps.notify
    | exact fun _ => rfl | exact fun _ _ => rfl | exact fun _ _ => Or.inr rfl | exact fun _ _ => Or.inl rfl
    | exact fun _ q => ReqState.noConfusion q | exact rfl
    | split | dsimp only

theorem Keeps.enterActive (h : Keeps L s t) : Keeps L s (t.enterActive) := by
  unfold State.enterActive
  repeat' first
    | with_reducible exact h | with_reducible apply Keeps.ite | with_reducible apply Keeps.enterService
    | with_reducible apply Keeps.setDoorMark | with_reducible apply Keeps.walk
    | with_reducible apply Keeps.testOwedImports | with_reducible apply Keeps.askFullAudit
    | with_reducible apply Keeps.retryScan | with_reducible apply Keeps.armsLook
    | exact fun _ => rfl | exact fun _ _ => rfl | exact fun _ _ => Or.inr rfl | exact fun _ _ => Or.inl rfl
    | exact fun _ q => ReqState.noConfusion q | exact rfl
    | split | dsimp only

theorem Keeps.checkService (h : Keeps L s t) : Keeps L s (t.checkService) := by
  unfold State.checkService
  repeat' first
    | with_reducible exact h | with_reducible apply Keeps.ite | with_reducible apply Keeps.enterActive
    | with_reducible apply Keeps.enterService
    | exact fun _ => rfl | exact fun _ _ => rfl | exact fun _ _ => Or.inr rfl | exact fun _ _ => Or.inl rfl
    | exact fun _ q => ReqState.noConfusion q | exact rfl
    | split | dsimp only

theorem Keeps.startLibrary (h : Keeps L s t) : Keeps L s (t.startLibrary) := by
  unfold State.startLibrary
  repeat' first
    | with_reducible exact h | with_reducible apply Keeps.ite | with_reducible apply Keeps.enterService
    | with_reducible apply Keeps.setHomingOwed | with_reducible apply Keeps.enterHoming
    | exact fun _ => rfl | exact fun _ _ => rfl | exact fun _ _ => Or.inr rfl | exact fun _ _ => Or.inl rfl
    | exact fun _ q => ReqState.noConfusion q | exact rfl
    | split | dsimp only

theorem Keeps.enterQuiescing (h : Keeps L s t) : Keeps L s (t.enterQuiescing) := by
  unfold State.enterQuiescing
  repeat' first
    | with_reducible exact h | with_reducible apply Keeps.ite | with_reducible apply Keeps.enterService
    | with_reducible apply Keeps.clearHomingOwed | with_reducible apply Keeps.removeUnstarted
    | with_reducible apply Keeps.abortAudit | with_reducible apply Keeps.armsLook
    | exact fun _ => rfl | exact fun _ _ => rfl | exact fun _ _ => Or.inr rfl | exact fun _ _ => Or.inl rfl
    | exact fun _ q => ReqState.noConfusion q | exact rfl
    | split | dsimp only

theorem Keeps.afterResuming (h : Keeps L s t) {opened : Bool} : Keeps L s (t.afterResuming opened) := by
  unfold State.afterResuming
  repeat' first
    | with_reducible exact h | with_reducible apply Keeps.ite | with_reducible apply Keeps.askFullAudit
    | with_reducible apply Keeps.retryScan | with_reducible apply Keeps.setDoorMark
    | with_reducible apply Keeps.recoverDrives
    | exact fun _ => rfl | exact fun _ _ => rfl | exact fun _ _ => Or.inr rfl | exact fun _ _ => Or.inl rfl
    | exact fun _ q => ReqState.noConfusion q | exact rfl
    | split | dsimp only

theorem Keeps.resumeArm (h : Keeps L s t) {a : ArmId} : Keeps L s (t.resumeArm a) := by
  unfold State.resumeArm
  repeat' first
    | with_reducible exact h | with_reducible apply Keeps.ite | with_reducible apply Keeps.setHomingOwed
    | with_reducible apply Keeps.enterHoming | with_reducible apply Keeps.notify
    | exact fun _ => rfl | exact fun _ _ => rfl | exact fun _ _ => Or.inr rfl | exact fun _ _ => Or.inl rfl
    | exact fun _ q => ReqState.noConfusion q | exact rfl
    | split | dsimp only

theorem Keeps.resumeLibrary (h : Keeps L s t) {u : State} (e : t.resumeLibrary = some u) : Keeps L s u := by
  unfold State.resumeLibrary at e
  split at e
  all_goals first
    | exact Option.some.inj e ▸ h.enterService.resumeArm.resumeArm.afterResuming
    | exact absurd e.symm (Option.some_ne_none _)

theorem Keeps.interrupt (h : Keeps L s t) : Keeps L s (t.interrupt) := by
  unfold State.interrupt
  repeat' first
    | with_reducible exact h | with_reducible apply Keeps.ite | with_reducible apply Keeps.enterService
    | with_reducible apply Keeps.clearHomingOwed | with_reducible apply Keeps.doorStopsArms
    | with_reducible apply Keeps.abortAudit
    | exact fun _ => rfl | exact fun _ _ => rfl | exact fun _ _ => Or.inr rfl | exact fun _ _ => Or.inl rfl
    | exact fun _ q => ReqState.noConfusion q | exact rfl
    | split | dsimp only

theorem Keeps.doorOpens (h : Keeps L s t) : Keeps L s (t.doorOpens) := by
  unfold State.doorOpens
  repeat' first
    | with_reducible exact h | with_reducible apply Keeps.ite | with_reducible apply Keeps.setDoorMark
    | with_reducible apply Keeps.interrupt
    | exact fun _ => rfl | exact fun _ _ => rfl | exact fun _ _ => Or.inr rfl | exact fun _ _ => Or.inl rfl
    | exact fun _ q => ReqState.noConfusion q | exact rfl
    | split | dsimp only

theorem Keeps.homeFaulted (h : Keeps L s t) {a : ArmId} : Keeps L s (t.homeFaulted a) := by
  unfold State.homeFaulted
  repeat' first
    | with_reducible exact h | with_reducible apply Keeps.ite | with_reducible apply Keeps.setHomingOwed
    | with_reducible apply Keeps.enterHoming
    | exact fun _ => rfl | exact fun _ _ => rfl | exact fun _ _ => Or.inr rfl | exact fun _ _ => Or.inl rfl
    | exact fun _ q => ReqState.noConfusion q | exact rfl
    | split | dsimp only

theorem Keeps.doorCloses (h : Keeps L s t) : Keeps L s (t.doorCloses) := by
  unfold State.doorCloses
  repeat' first
    | with_reducible exact h | with_reducible apply Keeps.ite | with_reducible apply Keeps.enterService
    | with_reducible apply Keeps.homeFaulted | with_reducible apply Keeps.afterResuming
    | exact fun _ => rfl | exact fun _ _ => rfl | exact fun _ _ => Or.inr rfl | exact fun _ _ => Or.inl rfl
    | exact fun _ q => ReqState.noConfusion q | exact rfl
    | split | dsimp only

theorem Keeps.onArmHoming (h : Keeps L s t) {a : ArmId} : Keeps L s (t.onArmHoming a) := by
  unfold State.onArmHoming
  repeat' first
    | with_reducible exact h | with_reducible apply Keeps.ite | with_reducible apply Keeps.enterService
    | with_reducible apply Keeps.stopHoming | with_reducible apply Keeps.doorOpens
    | exact fun _ => rfl | exact fun _ _ => rfl | exact fun _ _ => Or.inr rfl | exact fun _ _ => Or.inl rfl
    | exact fun _ q => ReqState.noConfusion q | exact rfl
    | split | dsimp only

/-! ### The notices of a step -/

theorem Keeps.reportEnd (h : Keeps L s t) {r : OrderEnd} : Keeps L s (t.reportEnd r) := by
  unfold State.reportEnd
  repeat' first
    | with_reducible exact h | with_reducible apply Keeps.ite | with_reducible apply Keeps.scanEnded
    | with_reducible apply Keeps.importEnded | with_reducible apply Keeps.onOrderEnded
    | exact fun _ => rfl | exact fun _ _ => rfl | exact fun _ _ => Or.inr rfl | exact fun _ _ => Or.inl rfl
    | exact fun _ q => ReqState.noConfusion q | exact rfl
    | split | dsimp only

theorem Keeps.reportRemoved (h : Keeps L s t) {r : OrderEnd} : Keeps L s (t.reportRemoved r) := by
  unfold State.reportRemoved
  repeat' first
    | with_reducible exact h | with_reducible apply Keeps.ite | with_reducible apply Keeps.scanRemoved
    | with_reducible apply Keeps.importRemoved | with_reducible apply Keeps.onOrderRemoved
    | exact fun _ => rfl | exact fun _ _ => rfl | exact fun _ _ => Or.inr rfl | exact fun _ _ => Or.inl rfl
    | exact fun _ q => ReqState.noConfusion q | exact rfl
    | split | dsimp only

theorem Keeps.armStepD (h : Keeps L s t) {a : ArmId} : Keeps L s ((t.armStep a).getD t) := by
  cases e : t.armStep a with
  | none => exact h
  | some u => exact h.armStep e

theorem Keeps.retryArms (h : Keeps L s t) : Keeps L s t.retryArms := by
  unfold State.retryArms
  split
  · rename_i e; exact (h.armStep e).armStepD.notify
  · split
    · rename_i e; exact (h.armStep e).notify
    · exact h

theorem Keeps.take (h : Keeps L s t) {n : Notice} : Keeps L s (t.take n) := by
  cases n with
  | walk => exact h.walk
  | driveEmpty d => exact h.walk
  | placed d tag => exact h.onPlaced
  | loaded d tag protect refit => exact h.onLoaded
  | loadedAgain d tag => exact h.onLoadedAgain
  | loadFailed d tag => exact h.onLoadFailed
  | reelReady d tag => exact h.onReelReady
  | reelTaken d volume => exact h.onReelTaken
  | claimLost d tag => exact h.onClaimLost
  | volumeLost d tag => exact h.onVolumeLost
  | orderStarted id => exact h.onOrderStarted
  | orderEnded r => exact h.reportEnd
  | orderRemoved r => exact h.reportRemoved
  | armFree a => exact h.armIsFree
  | armLook a => exact h.armLooks
  | armGo a => exact h.armStepD
  | armHoming a => exact h.onArmHoming
  | armEntered a => exact h.bindUnbound.notify.reimports
  | importPicked id a p => exact h.importPicked
  | importTest p => exact h.testImport
  | importTestAll => exact h.testAllImports
  | room => exact h.retryScan.testOwedImports
  | recovers => exact h.recoverDrives
  | scanRead id slot counts => exact h.scanRead
  | scanPassed id slot => exact h.scanPassed
  | lostFound tag => exact h.lostFound
  | retry => exact h.retryArms

theorem Keeps.follow (h : Keeps L s t) {before : State} : Keeps L s (State.follow before t) := by
  unfold State.follow
  have k := (h.refreshConditions.testClaims (n := 8)).checkAwaits.checkService
  exact Keeps.ite k.notifyFree k

theorem Keeps.takeNotice (h : Keeps L s t) {n : Notice} : Keeps L s (t.takeNotice n) := by
  unfold State.takeNotice
  exact Keeps.ite h.take.follow h.take.follow.notify

theorem Keeps.drain (h : Keeps L s t) {n : Nat} : Keeps L s (State.drain n t) := by
  induction n generalizing t with
  | zero => exact h
  | succ n ih =>
    unfold State.drain
    split
    · exact h
    · exact ih h.setNotices.takeNotice

theorem Keeps.confine (h : Keeps L s t) {u : State} (k : Keeps L s u) : Keeps L s (t.confine u) where
  port := h.port
  flags := k.flags
  replies := k.replies
  pending := h.pending
  fences := k.fences
  drives := k.drives
  stations := k.stations
  door := k.door
  panel := k.panel
  asked := k.asked
  volumes := k.volumes
  findings := k.findings
  accounts := k.accounts
  records := k.records
  prompts := k.prompts
  withdrawals := k.withdrawals
  pool := k.pool
  laws i hi c := by
    have := k.laws i hi c
    cases i <;> exact this

/-- An act that keeps this keeps it with all that it causes in the other blocks. -/
theorem Keeps.act (h : Keeps L s t) {f : State → State} (hf : Keeps L s (f t)) : Keeps L s (t.act f) :=
  h.confine hf.follow.notify.drain

/-! ### REQUEST frames -/

theorem Keeps.resolveDemount (h : Keeps L s t) {tag : Half} {d : Fin 16} : Keeps L s (t.resolveDemount tag d) := by
  unfold State.resolveDemount
  repeat' first
    | with_reducible exact h | with_reducible apply Keeps.ite | with_reducible apply Keeps.updRequest
    | with_reducible apply Keeps.joinOrder | with_reducible apply Keeps.enter | with_reducible apply Keeps.tryReturn
    | with_reducible apply Keeps.unload
    | exact fun _ => rfl | exact fun _ _ => rfl | exact fun _ _ => Or.inr rfl | exact fun _ _ => Or.inl rfl
    | exact fun _ q => ReqState.noConfusion q | exact rfl
    | split | dsimp only

theorem Keeps.afterAcceptance (h : Keeps L s t) {k : RequestKind} {f : RequestFields} : Keeps L s (t.afterAcceptance k f) := by
  unfold State.afterAcceptance
  repeat' first
    | with_reducible exact h | with_reducible apply Keeps.ite | with_reducible apply Keeps.resolveDemount
    | with_reducible apply Keeps.walkStep
    | exact fun _ => rfl | exact fun _ _ => rfl | exact fun _ _ => Or.inr rfl | exact fun _ _ => Or.inl rfl
    | exact fun _ q => ReqState.noConfusion q | exact rfl
    | split | dsimp only

/-! ### The reports and timers of the arms -/

theorem Keeps.lateReport (h : Keeps L s t) {a : ArmId} : Keeps L s (t.lateReport a) := by
  unfold State.lateReport
  repeat' first
    | with_reducible exact h | with_reducible apply Keeps.ite | with_reducible apply Keeps.raise
    | exact fun _ => rfl | exact fun _ _ => rfl | exact fun _ _ => Or.inr rfl | exact fun _ _ => Or.inl rfl
    | exact fun _ q => ReqState.noConfusion q | exact rfl
    | split | dsimp only

theorem Keeps.legReported (h : Keeps L s t) {a : ArmId} {l : Leg} {volume : Option Nat} {window : Nat × Nat} {r : LegReport} {ticks : Nat}
    (hr : (t.arm a).outstanding = some (.leg l volume window.1 window.2)) : Keeps L s (t.legReported a l volume window r ticks) := by
  have hn : L .rail → (t.arm a).outstanding ≠ none := fun _ => by rw [hr]; simp
  unfold State.legReported
  exact Keeps.ite (h.legFails hn).lateReport (Keeps.ite (h.legFails hn)
    (Keeps.ite (h.legCompletes (fun _ => ⟨_, _, _, hr⟩)) (h.legFails hn)))

theorem Keeps.takeLegDone (h : Keeps L s t) {a : ArmId} {r : LegReport} {ticks : Nat} : Keeps L s (t.takeLegDone a r ticks) := by
  unfold State.takeLegDone
  split
  · rename_i e
    exact h.legReported e
  all_goals exact h.lateReport

theorem Keeps.clearOutstanding (h : Keeps L s t) {a : ArmId} : Keeps L s (t.clearOutstanding a) := h.clearArm (fun _ => rfl) rfl rfl rfl

theorem Keeps.takeLegFault (h : Keeps L s t) {a : ArmId} {code : Byte} : Keeps L s (t.takeLegFault a code) := by
  have k : Keeps L s (t.updArm a (fun x => { x with lastFault := some code })) := h.updArm (fun _ _ => rfl) (fun _ _ => rfl)
  unfold State.takeLegFault
  split
  · rename_i e
    exact k.legFails (fun _ => by rw [State.arm_updArm_self]; simp [e])
  · refine Keeps.homingFails (Keeps.updArm h.clearOutstanding ?_ ?_)
    · exact fun _ _ => rfl
    · exact fun _ _ => rfl
  all_goals exact h.lateReport

theorem Keeps.takeHomeDone (h : Keeps L s t) {a : ArmId} {column : Byte} : Keeps L s (t.takeHomeDone a column) := by
  unfold State.takeHomeDone
  split
  · rename_i e
    exact h.homeReached (fun _ => by rw [e]; simp)
  all_goals exact h.lateReport

/-- An item outstanding that is answered leaves an arm that may let go of zones. -/
theorem State.clearOutstanding_mayRelease {a : ArmId} (hr : (s.arm a).outstanding ≠ none) (k : s.RailLawful) :
    (s.clearOutstanding a).mayRelease a := by
  have q := RailLawful.outstanding hr k
  unfold State.clearOutstanding
  exact ⟨by simpa using q.1, ⟨by simp, by simpa [State.waitingFrames] using q.2.2.2⟩, by simpa [State.unclaimed] using q.2.2.1⟩

theorem Keeps.statusReplied (h : Keeps L s t) {a : ArmId} {r : StatusReport} (hr : (t.arm a).outstanding ≠ none) :
    Keeps L s (t.statusReplied a r) := by
  have k : Keeps L s (t.clearOutstanding a) := h.clearOutstanding
  have used : ∀ column : Nat, (t.clearOutstanding a).columnHeld a column = true → ∀ x : State → State,
      (∀ {M : Law → Prop} {v : State}, Keeps M v (t.clearOutstanding a) →
        (M .rail → (t.clearOutstanding a).law .rail → (t.clearOutstanding a).mayRelease a ∧ column < 32 ∧
          (t.clearOutstanding a).holds a (zoneOf column) = true) → Keeps M v (x (t.clearOutstanding a))) →
      Keeps L s (x (t.clearOutstanding a)) := by
    intro column hc x hx
    have hc : column < 32 ∧ (t.clearOutstanding a).holds a (zoneOf column) = true := by simpa [State.columnHeld] using hc
    refine Keeps.mend (i := .rail) (hx k.but (fun c => without_self c)) (fun hi j => ?_)
    refine (hx (Keeps.refl (L := only .rail) _) (fun _ _ => ⟨?_, hc⟩)).law (k.laws _ hi j)
    exact State.clearOutstanding_mayRelease hr (h.laws _ hi j)
  unfold State.statusReplied
  dsimp only
  split
  · split
    · rename_i c
      simp only [Bool.and_eq_true] at c
      exact used _ c.2 (fun u => u.statusUsed a r.column.toNat (statusResult r)) (fun k q => k.statusUsed q)
    · exact k.statusUnanswered
  · split
    · rename_i c
      simp only [Bool.and_eq_true] at c
      exact used _ c.2 (fun u => u.homed a r.column.toNat (statusResult r)) (fun k q => k.homed q)
    · exact k.homingFails
  all_goals exact k

theorem Keeps.takeStatusReply (h : Keeps L s t) {a : ArmId} {r : StatusReport} : Keeps L s (t.takeStatusReply a r) := by
  unfold State.takeStatusReply
  split
  · rename_i e
    exact h.statusReplied (by rw [e]; simp)
  all_goals exact h.lateReport

theorem Keeps.takeReport (h : Keeps L s t) {a : ArmId} {r : ArmReport} {ticks : Nat} : Keeps L s (t.takeReport a r ticks) := by
  cases r with
  | legDone r => exact h.takeLegDone
  | legFault code loaded => exact h.takeLegFault
  | homeDone column => exact h.takeHomeDone
  | statusReply r => exact h.takeStatusReply

theorem Keeps.legTimesOut (h : Keeps L s t) {a : ArmId} : Keeps L s (t.legTimesOut a) := by
  unfold State.legTimesOut
  split
  · rename_i e
    exact h.legFails (fun _ => by rw [e]; simp)
  all_goals exact h

theorem Keeps.homeTimesOut (h : Keeps L s t) {a : ArmId} : Keeps L s (t.homeTimesOut a) := by
  unfold State.homeTimesOut
  repeat' first
    | with_reducible exact h | with_reducible apply Keeps.ite | with_reducible apply Keeps.clearOutstanding
    | with_reducible apply Keeps.homingFails
    | exact fun _ => rfl | exact fun _ _ => rfl | exact fun _ _ => Or.inr rfl | exact fun _ _ => Or.inl rfl
    | exact fun _ q => ReqState.noConfusion q | exact rfl
    | split | dsimp only

theorem Keeps.statusTimesOut (h : Keeps L s t) {a : ArmId} : Keeps L s (t.statusTimesOut a) := by
  unfold State.statusTimesOut
  repeat' first
    | with_reducible exact h | with_reducible apply Keeps.ite | with_reducible apply Keeps.clearOutstanding
    | with_reducible apply Keeps.statusUnanswered | with_reducible apply Keeps.homingFails
    | exact fun _ => rfl | exact fun _ _ => rfl | exact fun _ _ => Or.inr rfl | exact fun _ _ => Or.inl rfl
    | exact fun _ q => ReqState.noConfusion q | exact rfl
    | split | dsimp only

theorem Keeps.lingerEnds (h : Keeps L s t) {a : ArmId} : Keeps L s (t.lingerEnds a) := by
  unfold State.lingerEnds
  split
  · refine Keeps.releaseLingering (Keeps.updArm h ?_ ?_)
    · exact fun _ _ => rfl
    · exact fun _ _ => rfl
  · exact h

end Sys2Proof.Machine
end

