-- ==== Sys2Proof/Laws/Steps.lean ====
section
/-! SUPPORT. How a command ends: the port and the panel line go on as far as they can (`finishStep`), a settled block stays as it is,
and a frame that arrives at a free port is taken at once. -/

namespace Sys2Proof.Machine

variable {s : State}

/-! ### The condition-bound flags -/

/-- The events above the plain ones have no plain position. -/
theorem conditionFlags_and_plain : s.conditionFlags &&& plainPositions = 0 := by
  unfold State.conditionFlags
  (repeat' split) <;> decide

theorem plain_of_refreshed (f : Half) :
    ((f &&& plainPositions ||| s.conditionFlags) &&& plainPositions) = f &&& plainPositions := by
  have h := conditionFlags_and_plain (s := s)
  calc (f &&& plainPositions ||| s.conditionFlags) &&& plainPositions
      = (f &&& plainPositions) ||| (s.conditionFlags &&& plainPositions) := by
        ext i hi
        simp only [BitVec.getElem_and, BitVec.getElem_or, Bool.and_or_distrib_right, Bool.and_assoc, Bool.and_self]
    _ = f &&& plainPositions := by rw [h]; ext i hi; simp

@[simp] theorem State.refreshConditions_conditionFlags : s.refreshConditions.conditionFlags = s.conditionFlags := rfl

theorem State.refreshConditions_flags : s.refreshConditions.port.flags = ((s.port.flags &&& plainPositions) ||| s.conditionFlags) := rfl

theorem State.refreshConditions_flagsSettled : s.refreshConditions.FlagsSettled := by
  unfold State.FlagsSettled
  rw [State.refreshConditions_flags, State.refreshConditions_conditionFlags, plain_of_refreshed]

theorem State.refreshConditions_noticeSettled : s.refreshConditions.NoticeSettled := by
  intro h
  have h' : ((s.port.flags &&& plainPositions) ||| s.conditionFlags) &&& s.port.mask = 0 := h
  show (if ((s.port.flags &&& plainPositions) ||| s.conditionFlags) &&& s.port.mask = 0 then false
    else if s.summary = 0 then true else s.port.noticeOwed) = false
  rw [if_pos h']

/-- Refreshing settled conditions changes nothing. -/
theorem State.refreshConditions_eq (h : s.FlagsSettled) (k : s.NoticeSettled) : s.refreshConditions = s := by
  have hn : (if s.port.flags &&& s.port.mask = 0 then false else if s.summary = 0 then true else s.port.noticeOwed) =
      s.port.noticeOwed := by
    by_cases c : s.summary = 0
    · have c' : s.port.flags &&& s.port.mask = 0 := c
      rw [if_pos c', k c]
    · have c' : ¬ s.port.flags &&& s.port.mask = 0 := c
      rw [if_neg c', if_neg c]
  have e : s.refreshConditions = s.setEvents s.port.flags s.port.mask := by
    unfold State.refreshConditions
    rw [← h]
  rw [e]
  unfold State.setEvents
  dsimp only
  rw [hn]

/-! ### What a taking leaves of the port -/

/-- The receive buffer, the frame being sent, the answers waiting and the commands waiting are as they were. -/
def SamePort (s t : State) : Prop :=
  t.port.buffer = s.port.buffer ∧ t.port.sending = s.port.sending ∧ t.port.immediate = s.port.immediate ∧
    t.pending = s.pending

theorem SamePort.refl : SamePort s s := ⟨rfl, rfl, rfl, rfl⟩

theorem SamePort.trans {t u : State} (h : SamePort s t) (k : SamePort t u) : SamePort s u :=
  ⟨k.1.trans h.1, k.2.1.trans h.2.1, k.2.2.1.trans h.2.2.1, k.2.2.2.trans h.2.2.2⟩

theorem SamePort.act {f : State → State} : SamePort s (s.act f) := ⟨rfl, rfl, rfl, rfl⟩

theorem SamePort.ite {c : Prop} [Decidable c] {x y : State × Result} (h : SamePort s x.1) (k : SamePort s y.1) :
    SamePort s (if c then x else y).1 := by split <;> assumption

theorem SamePort.setAttnUnit {o : Output} {u : AttnUnit} {t : State} (h : SamePort s t) : SamePort s (t.setAttnUnit o u) := by
  cases o <;> exact h

theorem SamePort.restartIdleUnit {o : Output} {t : State} (h : SamePort s t) : SamePort s (t.restartIdleUnit o) := by
  unfold State.restartIdleUnit; dsimp only; split
  · exact h.setAttnUnit
  · exact h

theorem SamePort.cadenceWritten {o : Output} {i : Nat} {t : State} (h : SamePort s t) : SamePort s (t.cadenceWritten i o) := by
  unfold State.cadenceWritten; split
  · exact h.restartIdleUnit
  · exact h

theorem SamePort.writeTemplate {i : Nat} {entry : List Byte} {w : State} (e : s.writeTemplate i entry = .ok w) : SamePort s w := by
  unfold State.writeTemplate at e
  split at e
  · dsimp only at e
    split at e
    · cases e
    · cases e; exact ⟨rfl, rfl, rfl, rfl⟩
  · cases e

theorem SamePort.writeAccount {i : Nat} {entry : List Byte} {w : State} (e : s.writeAccount i entry = .ok w) : SamePort s w := by
  have k : ∀ w, SamePort s (s.takeAccountWrite i w) := by
    intro w; unfold State.takeAccountWrite; split <;> exact ⟨rfl, rfl, rfl, rfl⟩
  unfold State.writeAccount at e
  split at e
  · split at e
    · cases e
    · split at e
      · cases e
      · split at e
        · cases e
        · split at e <;> cases e
          exact ⟨rfl, rfl, rfl, rfl⟩
      · split at e
        · cases e
        · dsimp only at e
          split at e
          · cases e
          · split at e <;> cases e
            exact k _
  · cases e

theorem SamePort.writeSetting {i : Nat} {entry : List Byte} {w : State} (e : s.writeSetting i entry = .ok w) : SamePort s w := by
  unfold State.writeSetting at e
  split at e <;> cases e
  rename_i v _
  have k : SamePort s { s with port := { s.port with settings := s.port.settings.setIfInBounds i v } } := ⟨rfl, rfl, rfl, rfl⟩
  exact k.cadenceWritten.cadenceWritten

theorem SamePort.ownerWrite {t : Table} {i : Nat} {entry : List Byte} {w : State} (h : t.tells = false)
    (e : s.ownerWrite t i entry = .ok w) : SamePort s w := by
  cases t with
  | templates => exact .writeTemplate e
  | accounts => exact .writeAccount e
  | settings => exact .writeSetting e
  | directory | fences | drives => cases h
  | slots | requests | orders | arms | prompts | stations | audit => cases e

theorem SamePort.clearAccounts {w : State} (e : s.clearAccounts = .ok w) : SamePort s w := by
  unfold State.clearAccounts at e
  split at e <;> cases e
  exact ⟨rfl, rfl, rfl, rfl⟩

theorem SamePort.ownerClear {t : Table} {w : State} (h : t.tells = false) (e : s.ownerClear t = .ok w) : SamePort s w := by
  cases t with
  | templates => cases e; exact ⟨rfl, rfl, rfl, rfl⟩
  | accounts => exact .clearAccounts e
  | settings =>
    cases e
    have k : SamePort s { s with port := { s.port with settings := defaultSettings } } := ⟨rfl, rfl, rfl, rfl⟩
    exact k.restartIdleUnit.restartIdleUnit
  | directory | fences | drives => cases h
  | slots | requests | orders | arms | prompts | stations | audit => cases e

theorem SamePort.setCursor {i : Fin 13} {c : Cursor} {t : State} (h : SamePort s t) : SamePort s (t.setCursor i c) := h

theorem SamePort.writeEntry {entry : List Byte} : SamePort s (s.writeEntry entry).1 := by
  unfold State.writeEntry
  split
  · exact .refl
  · dsimp only
    split
    · exact .refl
    · split
      · exact .refl
      · split
        · exact .refl
        · rename_i e
          dsimp only
          unfold State.passOn
          split
          · exact ⟨rfl, rfl, rfl, rfl⟩
          · rename_i h
            exact (SamePort.ownerWrite (by simpa using h) e).setCursor

theorem SamePort.clearTable : SamePort s s.clearTable.1 := by
  unfold State.clearTable
  split
  · exact .refl
  · dsimp only
    split
    · exact .refl
    · split
      · exact .refl
      · rename_i e
        dsimp only
        unfold State.passOn
        split
        · exact ⟨rfl, rfl, rfl, rfl⟩
        · rename_i h
          exact (SamePort.ownerClear (by simpa using h) e).setCursor

theorem SamePort.select {table : Byte} {index : Half} {wrap : Byte} : SamePort s (s.select table index wrap).1 := by
  unfold State.select
  split
  · split
    · exact ⟨rfl, rfl, rfl, rfl⟩
    · exact .refl
  · exact .refl

theorem SamePort.readEntries {n : Byte} : SamePort s (s.readEntries n).1 := by
  unfold State.readEntries
  split
  · exact .refl
  · split
    · exact .refl
    · exact ⟨rfl, rfl, rfl, rfl⟩

theorem SamePort.serviceResult {t : Option State} (h : ∀ u, t = some u → SamePort s u) : SamePort s (s.serviceResult t).1 := by
  unfold State.serviceResult
  split
  · exact h _ rfl
  · exact .refl

theorem SamePort.takeQuiesce {u : State} (e : s.takeQuiesce = some u) : SamePort s u := by
  unfold State.takeQuiesce at e
  split at e <;> cases e <;> first | exact .act | exact .refl

theorem SamePort.takeResume {u : State} (e : s.takeResume = some u) : SamePort s u := by
  unfold State.takeResume at e
  obtain ⟨v, _, rfl⟩ := Option.map_eq_some_iff.mp e
  exact .act

/-- Taking a frame leaves the receive buffer, the frame being sent and the answers waiting. -/
theorem SamePort.takeFrame {f : SysFrame} : SamePort s (s.takeFrame f).1 := by
  cases f with
  | request k f =>
    show SamePort s (s.takeRequest k f).1
    unfold State.takeRequest
    split
    · exact .refl
    · dsimp only
      have k : ∀ r, SamePort s (s.joinQueue r) := fun _ => ⟨rfl, rfl, rfl, rfl⟩
      exact (k _).trans .act
  | cancel tag =>
    show SamePort s (s.takeCancel tag).1
    unfold State.takeCancel
    split
    · exact .refl
    · dsimp only; exact .act
    · exact .refl
  | label drive serial =>
    show SamePort s (s.labelFrame drive serial)
    unfold State.labelFrame
    (repeat' split) <;> with_reducible first | exact .refl | exact .act
  | select table index wrap => exact SamePort.select
  | readEntries n => exact SamePort.readEntries
  | writeEntry entry => exact SamePort.writeEntry
  | clearTable => exact SamePort.clearTable
  | start =>
    show SamePort s s.commandStart.1
    unfold State.commandStart
    split
    · dsimp only; exact .act
    · exact .refl
  | quiesce => exact SamePort.serviceResult (fun _ e => .takeQuiesce e)
  | resume => exact SamePort.serviceResult (fun _ e => .takeResume e)
  | audit first last =>
    show SamePort s (s.commandAudit first last).1
    unfold State.commandAudit
    (repeat' split) <;> dsimp only <;> with_reducible first | exact .refl | exact .act
  | releaseRecords n =>
    show SamePort s (s.releaseRecords n).1
    unfold State.releaseRecords
    dsimp only
    split
    · dsimp only; split
      · exact ⟨rfl, rfl, rfl, rfl⟩
      · exact .act
    · exact .refl
  | resetCounters index =>
    show SamePort s (s.resetCounters index).1
    unfold State.resetCounters State.updAccount
    (repeat' split) <;> exact ⟨rfl, rfl, rfl, rfl⟩
  | armService arm out =>
    show SamePort s (s.commandArmService arm out).1
    unfold State.commandArmService
    split <;> dsimp only <;> first | exact .act | exact .refl
  | driveService drive out =>
    show SamePort s (s.commandDriveService drive out).1
    unfold State.commandDriveService
    split <;> dsimp only <;> first | exact .act | exact .refl
  | labelShort | requestShort | requestUnknown | linkReset | setClock | readClock | eventMask | eventClear | readEvents | readRecords
  | controlShort | unknown => exact ⟨rfl, rfl, rfl, rfl⟩

/-! ### The transmitter and the port's work -/

/-- What the condition-bound flags follow is as it was (R196). -/
def SameConditions (s t : State) : Prop := t.conditionFlags = s.conditionFlags

theorem State.leaveQueue_conditions {tag : Half} : (s.leaveQueue tag).conditionFlags = s.conditionFlags := by
  have hd : (s.leaveQueue tag).driveAttention = s.driveAttention := by
    unfold State.driveAttention
    congr 1
    funext d
    simp [State.drive, State.leaveQueue, mapVec]
  unfold State.conditionFlags
  rw [hd]
  rfl

theorem State.handOut_noticeSettled {m : OutMsg} (h : s.NoticeSettled) : (s.handOut m).NoticeSettled := by
  intro c
  have c' : s.summary = 0 := c
  show (if s.summary = 0 then s.port.noticeOwed else false) = false
  rw [if_pos c', h c']

theorem State.nextOut_flagsSettled {t : State} (h : s.FlagsSettled) (e : s.nextOut = some t) : t.FlagsSettled := by
  unfold State.nextOut at e
  split at e
  · cases e
  · cases e; exact h
  · cases e
    rename_i tag r rest _ _ _
    have hc := State.leaveQueue_conditions (s := { s with port := { s.port with replyOwed := rest } }) (tag := tag)
    show _ = (_ ||| (({ s with port := { s.port with replyOwed := rest } } : State).leaveQueue tag).conditionFlags)
    rw [hc]
    exact h
  · split at e <;> cases e
    exact h

theorem State.nextOut_noticeSettled {t : State} (h : s.NoticeSettled) (e : s.nextOut = some t) : t.NoticeSettled := by
  unfold State.nextOut at e
  split at e
  · cases e
  · cases e; exact State.handOut_noticeSettled (s := { s with port := { s.port with immediate := _ } }) h
  · cases e; exact State.handOut_noticeSettled (s := ({ s with port := { s.port with replyOwed := _ } } : State).leaveQueue _) h
  · split at e <;> cases e
    exact State.handOut_noticeSettled h

/-- The line that takes a message is not free; the buffer stays. -/
theorem State.nextOut_some {t : State} (e : s.nextOut = some t) :
    s.port.sending = none ∧ t.port.sending ≠ none ∧ t.port.buffer = s.port.buffer := by
  unfold State.nextOut at e
  split at e
  · cases e
  · cases e; rename_i h _; exact ⟨h, by simp [State.handOut], rfl⟩
  · cases e; rename_i h _ _; exact ⟨h, by simp [State.handOut], rfl⟩
  · rename_i h _ _
    split at e <;> cases e
    exact ⟨h, by simp [State.handOut], rfl⟩

theorem State.nextOut_none (e : s.nextOut = none) :
    s.port.sending = none → s.port.immediate = [] ∧ s.port.replyOwed = [] ∧ s.port.noticeOwed = false := by
  intro h
  unfold State.nextOut at e
  split at e
  · rename_i h' ; rw [h] at h'; cases h'
  · cases e
  · cases e
  · rename_i h1 h2 h3
    split at e
    · cases e
    · rename_i h4; exact ⟨h2, h3, by simpa using h4⟩

theorem State.mayTake_buffer (h : s.mayTake = true) : ∃ f rest, s.port.buffer = f :: rest := by
  unfold State.mayTake at h
  cases e : s.port.buffer with
  | nil => rw [e] at h; simp at h
  | cons f rest => exact ⟨f, rest, rfl⟩

/-- What is left to do: the frames waiting, and a free line. -/
def State.work (s : State) : Nat := s.port.buffer.length + if s.port.sending = none then 1 else 0

theorem State.takeNext_port {f : SysFrame} {rest : List SysFrame} (h : s.port.buffer = f :: rest) :
    s.takeNext.port.buffer = rest ∧ s.takeNext.port.sending = s.port.sending := by
  have k := SamePort.takeFrame (s := { s with port := { s.port with buffer := rest } }) (f := f)
  unfold State.takeNext
  rw [h]
  dsimp only
  exact ⟨k.1, k.2.1⟩

theorem State.takeNext_flagsSettled {f : SysFrame} {rest : List SysFrame} (h : s.port.buffer = f :: rest) :
    s.takeNext.FlagsSettled ∧ s.takeNext.NoticeSettled := by
  unfold State.takeNext
  rw [h]
  exact ⟨State.refreshConditions_flagsSettled, State.refreshConditions_noticeSettled⟩

/-- The port's work, done to its end. -/
theorem State.pump_settles (n : Nat) (h : s.FlagsSettled) (k : s.NoticeSettled) (hn : s.work < n) :
    (State.pump n s).FlagsSettled ∧ (State.pump n s).NoticeSettled ∧ (State.pump n s).LineSettled ∧
      (State.pump n s).port.buffer.length ≤ s.port.buffer.length := by
  induction n generalizing s with
  | zero => exact absurd hn (Nat.not_lt_zero _)
  | succ n ih =>
    unfold State.pump
    cases e : s.nextOut with
    | some t =>
      have a := State.nextOut_some e
      have hw : t.work < n := by
        unfold State.work at *
        rw [if_pos a.1] at hn
        rw [if_neg a.2.1, a.2.2]
        omega
      have b := ih (State.nextOut_flagsSettled h e) (State.nextOut_noticeSettled k e) hw
      rw [a.2.2] at b
      exact b
    | none =>
      dsimp only
      split
      · rename_i hm
        obtain ⟨f, rest, hb⟩ := State.mayTake_buffer hm
        have a := State.takeNext_port hb
        have c := State.takeNext_flagsSettled hb
        have hw : s.takeNext.work < n := by
          unfold State.work at *
          rw [a.1, a.2]
          rw [hb, List.length_cons] at hn
          omega
        have b := ih c.1 c.2 hw
        rw [a.1] at b
        exact ⟨b.1, b.2.1, b.2.2.1, Nat.le_trans b.2.2.2 (by rw [hb]; exact Nat.le_succ _)⟩
      · rename_i hm
        exact ⟨h, k, ⟨State.nextOut_none e, by simpa using hm⟩, Nat.le_refl _⟩

/-! ### The panel line -/

theorem State.panelPump_rest : { s.panelPump with pr := s.pr } = s := by
  unfold State.panelPump
  split
  · rfl
  · split
    · rfl
    · split
      · rfl
      · split
        · rfl
        · split <;> rfl

theorem State.panelPump_conditionFlags : s.panelPump.conditionFlags = s.conditionFlags := by
  conv_rhs => rw [← State.panelPump_rest (s := s)]
  rfl

theorem State.panelPump_port : s.panelPump.port = s.port := by
  conv_rhs => rw [← State.panelPump_rest (s := s)]

theorem State.panelPump_settled : s.panelPump.PanelSettled := by
  intro h
  unfold State.panelPump at *
  split
  · rename_i c; simp only [c] at h; cases h
  · rename_i c
    simp only [c] at h
    split
    · rename_i d; simp only [d, if_true] at h; cases h
    · rename_i d
      simp only [d] at h
      split
      · rename_i x; simp only [x] at h; cases h
      · rename_i x
        simp only [x] at h
        split
        · rename_i y; simp only [y] at h; cases h
        · rename_i y
          simp only [y] at h
          split
          · rename_i z; simp only [z] at h; cases h
          · rename_i z
            exact ⟨by simpa using d, x, y, z⟩

/-- A panel line with nothing to send stays as it is. -/
theorem State.panelPump_eq (h : s.PanelSettled) : s.panelPump = s := by
  unfold State.panelPump
  split
  · rfl
  · rename_i c
    obtain ⟨h1, h2, h3, h4⟩ := h c
    simp only [h1, h2, h3, h4]
    rfl

/-! ### The end of a command -/

theorem State.flagsSettled_of {t : State} (hp : t.port = s.port) (hc : t.conditionFlags = s.conditionFlags) (h : s.FlagsSettled) :
    t.FlagsSettled := by
  unfold State.FlagsSettled at *
  rw [hp, hc]
  exact h

theorem State.noticeSettled_of {t : State} (hp : t.port = s.port) (h : s.NoticeSettled) : t.NoticeSettled := by
  unfold State.NoticeSettled State.summary at *
  rw [hp]
  exact h

theorem State.finishStep_eq (h : s.BufferFits) : s.finishStep = (State.pump pumpRounds s.refreshConditions).panelPump := by
  have hw : s.refreshConditions.work < pumpRounds := by
    have hb : s.port.buffer.length ≤ 4 := h
    show s.port.buffer.length + (if s.port.sending = none then 1 else 0) < 12
    split <;> omega
  have a := State.pump_settles pumpRounds (s := s.refreshConditions) State.refreshConditions_flagsSettled
    State.refreshConditions_noticeSettled hw
  unfold State.finishStep
  exact State.refreshConditions_eq
    (State.flagsSettled_of State.panelPump_port State.panelPump_conditionFlags a.1)
    (State.noticeSettled_of State.panelPump_port a.2.1)

/-- Every command ends with the port and the panel line settled. -/
theorem State.finishStep_settled (h : s.BufferFits) : s.finishStep.Settled ∧ s.finishStep.BufferFits := by
  have hw : s.refreshConditions.work < pumpRounds := by
    have hb : s.port.buffer.length ≤ 4 := h
    show s.port.buffer.length + (if s.port.sending = none then 1 else 0) < 12
    split <;> omega
  have a := State.pump_settles pumpRounds (s := s.refreshConditions) State.refreshConditions_flagsSettled
    State.refreshConditions_noticeSettled hw
  rw [State.finishStep_eq h]
  refine ⟨⟨State.flagsSettled_of State.panelPump_port State.panelPump_conditionFlags a.1,
    State.noticeSettled_of State.panelPump_port a.2.1, ?_, State.panelPump_settled⟩, ?_⟩
  · have b := a.2.2.1
    unfold State.LineSettled State.mayTake at *
    rw [State.panelPump_port]
    exact b
  · unfold State.BufferFits
    rw [State.panelPump_port]
    exact Nat.le_trans a.2.2.2 h

theorem State.pump_eq (h : s.LineSettled) (n : Nat) : State.pump n s = s := by
  cases n with
  | zero => rfl
  | succ n =>
    have e : s.nextOut = none := by
      unfold State.nextOut
      split
      · rfl
      · rename_i c d; have := (h.1 c).1; rw [d] at this; cases this
      · rename_i c d e; have := (h.1 c).2.1; rw [e] at this; cases this
      · rename_i c d e; rw [(h.1 c).2.2]; rfl
    unfold State.pump
    rw [e]
    dsimp only
    rw [h.2]
    rfl

/-- A settled block stays as it is. -/
theorem State.finishStep_of_settled (h : s.Settled) : s.finishStep = s := by
  unfold State.finishStep
  rw [State.refreshConditions_eq h.1 h.2.1, State.pump_eq h.2.2.1, State.panelPump_eq h.2.2.2, State.refreshConditions_eq h.1 h.2.1]

/-! ### A frame at a free port -/

theorem State.Free.buffer (h : s.Free) : s.port.buffer = [] := by
  have a := h.1.2.2.1.2
  have b := (h.1.2.2.1.1 h.2.1).1
  unfold State.mayTake at a
  rw [b, h.2.2] at a
  simpa using a

/-- At a free port a frame is taken as it arrives, and its first message is handed out. -/
theorem State.Free.deliver (h : s.Free) {f : SysFrame} {m : OutMsg} {rest : List OutMsg} (e : (s.takeFrame f).2 = m :: rest) :
    (s.deliver f).finishStep = ((s.takeFrame f).1.refreshConditions.sends (m :: rest)).panelPump := by
  have hb := h.buffer
  have hl := h.1.2.2.1.1 h.2.1
  have hd : s.deliver f = { s with port := { s.port with buffer := [f] } } := by
    unfold State.deliver
    rw [hb]
    rfl
  have hfits : (s.deliver f).BufferFits := by
    rw [hd]; show 1 ≤ 4; decide
  rw [State.finishStep_eq hfits]
  have hr : (s.deliver f).refreshConditions = { s with port := { s.port with buffer := [f] } } := by
    rw [hd]
    exact State.refreshConditions_eq (s := { s with port := { s.port with buffer := [f] } }) h.1.1 h.1.2.1
  rw [hr]
  have hs : ({ s with port := { s.port with buffer := [] } } : State) = s := by
    have : s.port = { s.port with buffer := [] } := by rw [← hb]
    rw [← this]
  have ht : ({ s with port := { s.port with buffer := [f] } } : State).takeNext =
      { (s.takeFrame f).1.refreshConditions with
        port := { (s.takeFrame f).1.refreshConditions.port with immediate := m :: rest } } := by
    show ({ (({ s with port := { s.port with buffer := [] } } : State).takeFrame f).1.refreshConditions with
      port := { (({ s with port := { s.port with buffer := [] } } : State).takeFrame f).1.refreshConditions.port with
        immediate := (({ s with port := { s.port with buffer := [] } } : State).takeFrame f).1.refreshConditions.port.immediate ++
          (({ s with port := { s.port with buffer := [] } } : State).takeFrame f).2 } } : State) = _
    rw [hs, e]
    have k : (s.takeFrame f).1.refreshConditions.port.immediate = [] := (SamePort.takeFrame (s := s) (f := f)).2.2.1.trans hl.1
    rw [k]
    rfl
  have e1 : ({ s with port := { s.port with buffer := [f] } } : State).nextOut = none := by
    unfold State.nextOut
    simp only [h.2.1, hl.1, hl.2.1, hl.2.2]
    rfl
  have e2 : ({ s with port := { s.port with buffer := [f] } } : State).mayTake = true := by
    unfold State.mayTake
    simp only [hl.1, h.2.2]
    rfl
  have p1 : State.pump pumpRounds { s with port := { s.port with buffer := [f] } } =
      State.pump 11 ({ s with port := { s.port with buffer := [f] } } : State).takeNext := by
    show State.pump 12 _ = _
    rw [State.pump, e1]
    dsimp only
    rw [e2]
    rfl
  rw [p1, ht]
  have hx := SamePort.takeFrame (s := s) (f := f)
  have e3 : ({ (s.takeFrame f).1.refreshConditions with
        port := { (s.takeFrame f).1.refreshConditions.port with immediate := m :: rest } } : State).nextOut =
      some ((s.takeFrame f).1.refreshConditions.sends (m :: rest)) := by
    unfold State.nextOut
    have k : (s.takeFrame f).1.refreshConditions.port.sending = none := hx.2.1.trans h.2.1
    simp only [k]
    rfl
  have p2 : State.pump 11 ({ (s.takeFrame f).1.refreshConditions with
        port := { (s.takeFrame f).1.refreshConditions.port with immediate := m :: rest } } : State) =
      State.pump 10 ((s.takeFrame f).1.refreshConditions.sends (m :: rest)) := by
    rw [State.pump, e3]
  rw [p2]
  congr 1
  refine State.pump_eq ⟨fun c => ?_, ?_⟩ _
  · exact absurd c (by simp [State.sends, State.handOut])
  · have k : ((s.takeFrame f).1.refreshConditions.sends (m :: rest)).port.buffer = [] := hx.1.trans hb
    unfold State.mayTake
    rw [k]
    simp

end Sys2Proof.Machine
end

