-- ==== Sys2Proof/Laws/Lawful.lean ====
section
/-! SUPPORT. The laws of the tables and lists and those of the part (Safety.lean) are kept: by all that `Keeps` covers, and by what writes the
tables, takes requests in and gives them out. -/

namespace Sys2Proof.Machine

variable {s t : State} {L : Law → Prop} {P : Prop}

/-- The laws of the tables and lists, and if `p` those of the part: what a command keeps of both at once. -/
abbrev State.LawfulIf (p : Prop) (s : State) : Prop :=
  s.DirectoryLawful ∧ s.AccountsLawful ∧ s.QueueLawful ∧ s.ListsFit ∧ (p → s.PartLawful)

/-! ### By what runs inside a step -/

theorem Keeps.lawful (k : Keeps allLaws s t) (h : s.LawfulIf P) : t.LawfulIf P := by
  obtain ⟨⟨d1, d2, d3, d4, d5⟩, ⟨a1, a2, a3⟩, ⟨q1, q2, q3⟩, ⟨l1, l2, l3, l4, l5⟩, w⟩ := h
  have hv := k.volumes d1
  have ha := k.accounts a1
  have hq := k.asked
  have hlen : t.ms.queue.length = s.ms.queue.length := by
    have := congrArg List.length hq
    simpa [State.requestsAsked] using this
  have hans : t.pr.answers = s.pr.answers := congrArg (fun x => x.2.2.2.2.1) k.panel
  have hbuf : t.port.buffer = s.port.buffer := by
    have := congrArg PortBlock.buffer k.port
    exact this
  refine ⟨⟨hv.1, k.findings d2, ?_, ?_, ?_⟩, ⟨ha.1, ?_, ?_⟩, ⟨?_, ?_, ?_⟩, ⟨?_, ?_, ?_, ?_, ?_⟩, fun c => ?_⟩
  · rw [hv.2]; exact d3
  · rw [hv.2]; exact d4
  · rw [hv.2]; exact d5
  · rw [ha.2]; exact a2
  · rw [ha.2]; exact a3
  · rw [hlen]; exact q1
  · rw [hq]; exact q2
  · rw [hq]; exact q3
  · have := k.prompts; simp only [Config.maxPrompts] at *; omega
  · have := k.pool; omega
  · rw [hans]; exact l3
  · have := k.withdrawals; simp only [Config.maxWithdrawals] at *; omega
  · rw [hbuf]; exact l5
  · obtain ⟨w1, w2, w3, w4, w5⟩ := w c
    have pair := k.laws .paired trivial ⟨w1, w2⟩
    exact ⟨pair.1, pair.2, k.laws .chosen trivial w3, (k.laws .prompted trivial ⟨q2, w4⟩).2, k.laws .rail trivial w5⟩

theorem State.LawfulIf.act (h : s.LawfulIf P) {f : State → State} (k : Keeps allLaws s (f s)) : (s.act f).LawfulIf P := (Keeps.refl (L := allLaws) s).act k |>.lawful h

/-! ### By the port -/

theorem State.LawfulIf.setEvents (h : s.LawfulIf P) {f m : Half} : (s.setEvents f m).LawfulIf P := h

theorem State.LawfulIf.refreshConditions (h : s.LawfulIf P) : s.refreshConditions.LawfulIf P := h

theorem State.LawfulIf.handOut (h : s.LawfulIf P) {m : OutMsg} : (s.handOut m).LawfulIf P := h

theorem State.LawfulIf.leaveQueue (h : s.LawfulIf P) {tag : Half} (hn : P → ∀ r ∈ s.ms.queue, r.tag = tag → r.state ≠ .prompted) :
    (s.leaveQueue tag).LawfulIf P := by
  obtain ⟨d, a, ⟨q1, q2, q3⟩, l, w⟩ := h
  have hs : (s.leaveQueue tag).requestsAsked.Sublist s.requestsAsked := List.Sublist.map _ List.filter_sublist
  refine ⟨d, a, ⟨?_, ?_, ?_⟩, l, fun c => ?_⟩
  · exact Nat.le_trans (List.length_filter_le _ _) q1
  · exact List.Nodup.sublist (hs.map _) q2
  · exact fun c => q3 ((hs.map _).subset c)
  · obtain ⟨w1, w2, w3, ⟨p1, p2, p3, p4⟩, w5⟩ := w c
    have sub : ∀ r ∈ (s.leaveQueue tag).ms.queue, r ∈ s.ms.queue := fun r hr => (List.mem_filter.mp hr).1
    have hd : ∀ d, ((s.leaveQueue tag).drive d).volume = (s.drive d).volume := fun d => by simp [State.leaveQueue, State.drive, mapVec]
    refine ⟨w1, fun d e => by rw [hd]; exact w2 d e, fun r hr q hq => w3 r (sub r hr) q (sub q hq), ⟨?_, ?_, p3, ?_⟩, w5⟩
    · exact fun r hr => p1 r (sub r hr)
    · intro x hx
      obtain ⟨r, hr, tr, nr, sr⟩ := p2 x hx
      refine ⟨r, List.mem_filter.mpr ⟨hr, ?_⟩, tr, nr, sr⟩
      simp only [bne_iff_ne]
      exact fun q => hn c r hr q sr
    · exact fun x hx r hr => p4 x hx r (sub r hr)

theorem State.LawfulIf.setBuffer (h : s.LawfulIf P) {b : List SysFrame} (hb : b.length ≤ Config.maxBuffer) :
    State.LawfulIf P { s with port := { s.port with buffer := b } } := by
  obtain ⟨d, a, q, ⟨l1, l2, l3, l4, l5⟩, w⟩ := h
  exact ⟨d, a, q, ⟨l1, l2, l3, l4, hb⟩, w⟩

theorem State.LawfulIf.deliver (h : s.LawfulIf P) {f : SysFrame} : (s.deliver f).LawfulIf P := by
  unfold State.deliver
  split
  · rename_i c
    exact h.setBuffer (by simpa using c)
  · exact h

theorem State.LawfulIf.nextOut (h : s.LawfulIf P) (e : s.nextOut = some t) : t.LawfulIf P := by
  unfold State.nextOut at e
  split at e
  · cases e
  · cases e; exact h
  · rename_i x r rest _ _ he
    cases e
    have k : State.LawfulIf P { s with port := { s.port with replyOwed := rest } } := by
      obtain ⟨d, a, q, l, w⟩ := h
      refine ⟨d, a, q, l, fun c => ?_⟩
      obtain ⟨w1, w2, w3, ⟨p1, p2, p3, p4⟩, w5⟩ := w c
      exact ⟨w1, w2, w3, ⟨p1, p2, p3, fun x hx => p4 x (by rw [he]; exact List.mem_cons_of_mem _ hx)⟩, w5⟩
    refine State.LawfulIf.handOut (k.leaveQueue (fun c q hq tq => ?_))
    exact (h.2.2.2.2 c).2.2.2.1.2.2.2 (x, r) (by rw [he]; exact List.mem_cons_self) q hq tq
  · split at e <;> cases e
    exact h

theorem State.LawfulIf.panelPump (h : s.LawfulIf P) : s.panelPump.LawfulIf P := by
  have k := h
  obtain ⟨d, a, q, ⟨l1, l2, l3, l4, l5⟩, w⟩ := h
  unfold State.panelPump
  split
  · exact ⟨d, a, q, ⟨l1, l2, l3, l4, l5⟩, w⟩
  · split
    · exact ⟨d, a, q, ⟨l1, l2, l3, l4, l5⟩, w⟩
    · split
      · rename_i e
        refine ⟨d, a, q, ⟨l1, l2, ?_, l4, l5⟩, w⟩
        rw [e] at l3
        exact Nat.le_of_succ_le l3
      · split
        · rename_i e
          refine ⟨d, a, q, ⟨l1, l2, l3, ?_, l5⟩, w⟩
          rw [e] at l4
          exact Nat.le_of_succ_le l4
        · split
          · rename_i x _
            exact ((Keeps.refl (L := allLaws) s).updPrompt (n := x.number) (f := fun x => { x with lineOwed := false })
              (fun _ _ => rfl)).lawful k
          · exact ⟨d, a, q, ⟨l1, l2, l3, l4, l5⟩, w⟩

theorem State.LawfulIf.notify (h : s.LawfulIf P) {n : Notice} : (s.notify n).LawfulIf P := (Keeps.refl (L := allLaws) s).notify.lawful h

/-- An act on a lawful state that leaves one, with all that it causes. -/
theorem State.LawfulIf.actOf (h : s.LawfulIf P) {f : State → State} (k : (f s).LawfulIf P) : (s.act f).LawfulIf P := by
  have a := ((Keeps.refl (L := allLaws) (f s)).follow (before := s)).notify (n := .retry) |>.drain (n := Config.fuel) |>.lawful k
  obtain ⟨d, c, q, ⟨l1, l2, l3, l4, _⟩, w⟩ := a
  exact ⟨d, c, q, ⟨l1, l2, l3, l4, h.2.2.2.1.2.2.2.2⟩, w⟩

/-! ### By the writes of the directory -/

/-- Two entries of a canonical table stay related when one of them is written anew. -/
theorem pairwise_insertAt {α : Type} {R : Nat × α → Nat × α → Prop} (hR : ∀ x y, R x y → R y x) {k : Nat} {v : α}
    {l : List (Nat × α)} (c : Canonical l) (h : l.Pairwise R) (hv : ∀ x ∈ l, x.1 ≠ k → R (k, v) x) :
    (insertAt k v l).Pairwise R := by
  induction l with
  | nil => simp [insertAt]
  | cons x rest ih =>
    obtain ⟨j, w⟩ := x
    have c' := List.pairwise_cons.mp c
    have h' := List.pairwise_cons.mp h
    simp only [insertAt]
    split
    · rename_i hk
      refine List.pairwise_cons.mpr ⟨fun y hy => ?_, h⟩
      refine hv y hy ?_
      rcases List.mem_cons.mp hy with rfl | hy
      · show j ≠ k; omega
      · have := c'.1 y hy; simp only at this; omega
    · split
      · rename_i _ e
        subst e
        refine List.pairwise_cons.mpr ⟨fun y hy => hv y (List.mem_cons_of_mem _ hy) ?_, h'.2⟩
        have := c'.1 y hy; simp only at this; omega
      · rename_i _ e
        refine List.pairwise_cons.mpr ⟨fun y hy => ?_, ih c'.2 h'.2 (fun y hy => hv y (List.mem_cons_of_mem _ hy))⟩
        rcases mem_insertAt hy with rfl | hy
        · exact hR _ _ (hv (j, w) List.mem_cons_self (fun q => e q.symm))
        · exact h'.1 y hy

theorem eraseAt_sublist {α : Type} (k : Nat) (l : List (Nat × α)) : (eraseAt k l).Sublist l := by
  induction l with
  | nil => exact List.Sublist.refl _
  | cons x rest ih =>
    simp only [eraseAt]
    split
    · exact List.sublist_cons_self _ _
    · exact List.Sublist.cons_cons _ ih

theorem State.DirectoryLawful.setEntry (h : s.DirectoryLawful) {e : Nat} {v : Volume} (he : e < Config.slots)
    (hs : ∀ x ∈ s.dir.entries, x.1 ≠ e → x.2.serial ≠ v.serial)
    (hh : ∀ x ∈ s.dir.entries, x.1 ≠ e → ∀ n, v.home = some n → x.2.home ≠ some n) : (s.setVol e v).DirectoryLawful := by
  obtain ⟨c, f, d3, d4, d5⟩ := h
  refine ⟨canonical_insertAt _ _ _ c, f, ?_, ?_, ?_⟩
  · show (((insertAt e v s.dir.entries).map (fun e => (e.1, e.2.identity))).map (fun x => x.2.1)).Pairwise (· ≠ ·)
    rw [List.map_map, List.pairwise_map]
    refine pairwise_insertAt (fun x y hxy => fun q => hxy q.symm) c ?_ (fun x hx hne => fun q => hs x hx hne q.symm)
    have d3' : ((s.dir.entries.map (fun e => (e.1, e.2.identity))).map (fun x => x.2.1)).Pairwise (· ≠ ·) := d3
    rwa [List.map_map, List.pairwise_map] at d3'
  · show (((insertAt e v s.dir.entries).map (fun e => (e.1, e.2.identity))).filterMap (fun x => x.2.2)).Pairwise (· ≠ ·)
    rw [List.filterMap_map, List.pairwise_filterMap]
    have d4' : ((s.dir.entries.map (fun e => (e.1, e.2.identity))).filterMap (fun x => x.2.2)).Pairwise (· ≠ ·) := d4
    rw [List.filterMap_map, List.pairwise_filterMap] at d4'
    refine pairwise_insertAt (fun x y hxy b hb b' hb' q => hxy b' hb' b hb q.symm) c d4' (fun x hx hne b hb b' hb' q => ?_)
    subst q
    exact hh x hx hne b hb hb'
  · intro x hx
    obtain ⟨y, hy, rfl⟩ := List.mem_map.mp hx
    rcases mem_insertAt hy with rfl | hy
    · exact he
    · exact d5 _ (List.mem_map.mpr ⟨y, hy, rfl⟩)

theorem State.DirectoryLawful.eraseEntry (h : s.DirectoryLawful) {e : Nat} :
    State.DirectoryLawful { s with dir := { s.dir with entries := eraseAt e s.dir.entries } } := by
  obtain ⟨c, f, d3, d4, d5⟩ := h
  have hs : ((eraseAt e s.dir.entries).map (fun e => (e.1, e.2.identity))).Sublist s.volumeIdentities :=
    (eraseAt_sublist e s.dir.entries).map _
  exact ⟨canonical_eraseAt _ _ c, f, d3.sublist (hs.map _), d4.sublist (hs.filterMap _), fun x hx => d5 x (hs.subset hx)⟩

/-- A volume that is not in an arm or a drive, when it is known at all. -/
def State.unheldAt (s : State) (e : Nat) : Prop := ∀ l, s.locOf e = some l → l.unheld = true

/-- The entry of a volume that is not held is written, or taken out, as not held. -/
theorem State.PartLawful.setLocs (k : s.PartLawful) (hd : { t with dir := s.dir } = s) {e : Nat} (he : s.unheldAt e) (ht : t.unheldAt e)
    (hl : ∀ x, x ≠ e → t.locOf x = s.locOf x) : t.PartLawful := by
  have h1 : ∀ a, (t.arm a) = s.arm a := fun a => by rw [← hd]; cases a <;> rfl
  have h2 : ∀ d, t.drive d = s.drive d := fun d => by rw [← hd]; rfl
  have h3 : ∀ x a, t.locOf x = some (.inArm a) ↔ s.locOf x = some (.inArm a) := fun x a => by
    by_cases hx : x = e
    · subst hx
      exact iff_of_false (fun q => by have := ht _ q; cases this) (fun q => by have := he _ q; cases this)
    · rw [hl x hx]
  have h4 : ∀ x a, t.locOf x = some (.inDrive a) ↔ s.locOf x = some (.inDrive a) := fun x a => by
    by_cases hx : x = e
    · subst hx
      exact iff_of_false (fun q => by have := ht _ q; cases this) (fun q => by have := he _ q; cases this)
    · rw [hl x hx]
  obtain ⟨w1, w2, w3, w4, w5⟩ := k
  refine ⟨fun a x => by rw [h1, h3]; exact w1 a x, fun d x => by rw [h2, h4]; exact w2 d x, ?_⟩
  rw [← hd] at w3 w4 w5
  exact ⟨w3, w4, w5⟩

theorem State.LawfulIf.clearStationVolume (h : s.LawfulIf P) {p : Fin 8} : (s.clearStationVolume p).LawfulIf P := h

theorem State.LawfulIf.leaveStation (h : s.LawfulIf P) {v : Volume} : (s.leaveStation v).LawfulIf P := by
  unfold State.leaveStation
  split <;> exact h

theorem State.leaveStation_dir {v : Volume} : (s.leaveStation v).dir = s.dir := by
  unfold State.leaveStation
  split <;> rfl

theorem State.LawfulIf.setVol (h : s.LawfulIf P) {e : Nat} {v : Volume} (he : e < Config.slots)
    (hs : ∀ x ∈ s.dir.entries, x.1 ≠ e → x.2.serial ≠ v.serial)
    (hh : ∀ x ∈ s.dir.entries, x.1 ≠ e → ∀ n, v.home = some n → x.2.home ≠ some n) (hu : s.unheldAt e) (hv : v.loc.unheld = true) :
    (s.setVol e v).LawfulIf P := by
  refine ⟨h.1.setEntry he hs hh, h.2.1, h.2.2.1, h.2.2.2.1, fun c => (h.2.2.2.2 c).setLocs rfl hu (fun l q => ?_) (fun x hx => ?_)⟩
  · have : (s.setVol e v).locOf e = some v.loc := by simp [State.locOf, State.vol?, State.setVol, lookup_insertAt_self]
    rw [this] at q; cases q; exact hv
  · simp [State.locOf, State.vol?, State.setVol, lookup_insertAt_ne _ _ hx]

theorem State.LawfulIf.setFinding (h : s.LawfulIf P) {n : Nat} {f : Finding} : (s.setFinding n f).LawfulIf P :=
  (Keeps.refl (L := allLaws) s).setFinding.lawful h

theorem State.LawfulIf.clearFinding (h : s.LawfulIf P) {n : Nat} : (s.clearFinding n).LawfulIf P := (Keeps.refl (L := allLaws) s).clearFinding.lawful h

theorem State.LawfulIf.mapStations (h : s.LawfulIf P) {f : Station → Station} : (s.mapStations f).LawfulIf P := h

theorem State.LawfulIf.freeEntry (h : s.LawfulIf P) {e : Nat} (hu : s.unheldAt e) : (s.freeEntry e).LawfulIf P := by
  have key : ∀ u : State, u.LawfulIf P → u.locOf e = s.locOf e →
      State.LawfulIf P { u with dir := { u.dir with entries := eraseAt e u.dir.entries } } := by
    intro u k hl
    refine ⟨k.1.eraseEntry, k.2.1, k.2.2.1, k.2.2.2.1, fun c => (k.2.2.2.2 c).setLocs rfl (e := e) (fun l q => hu l (hl ▸ q)) (fun l q => ?_)
      (fun x hx => ?_)⟩
    · have : State.locOf { u with dir := { u.dir with entries := eraseAt e u.dir.entries } } e = none := by
        simp [State.locOf, State.vol?, lookup_eraseAt_self _ _ k.1.1]
      rw [this] at q; cases q
    · simp [State.locOf, State.vol?, lookup_eraseAt_ne _ hx]
  unfold State.freeEntry
  split
  · exact h
  · dsimp only
    split
    · exact key _ (State.LawfulIf.setFinding (h.mapStations)) rfl
    · exact key _ h.mapStations rfl

theorem State.LawfulIf.writeVolume (h : s.LawfulIf P) {e : Nat} {v : Volume} (he : e < Config.slots)
    (hs : ∀ x ∈ s.dir.entries, x.1 ≠ e → x.2.serial ≠ v.serial)
    (hh : ∀ x ∈ s.dir.entries, x.1 ≠ e → ∀ n, v.home = some n → x.2.home ≠ some n) (hu : s.unheldAt e) (hv : v.loc.unheld = true) :
    (s.writeVolume e v).LawfulIf P := by
  have key : ∀ u : State, u.LawfulIf P → u.dir = s.dir → (u.setVol e v).LawfulIf P := fun u k hd =>
    k.setVol he (by rw [hd]; exact hs) (by rw [hd]; exact hh) (by simpa only [State.unheldAt, State.locOf, State.vol?, hd] using hu) hv
  have tail : ∀ u : State, u.LawfulIf P → State.LawfulIf P (match v.loc, v.home with
      | .home, some n => (if u.finding? n = some (.serial v.serial) then u.clearFinding n else u).notify .walk
      | _, _ => u) := by
    intro u k
    split
    · refine State.LawfulIf.notify ?_
      split
      · exact k.clearFinding
      · exact k
    · exact k
  unfold State.writeVolume
  dsimp only
  cases s.vol? e with
  | none => exact tail _ (key s h rfl)
  | some old => exact tail _ (key _ h.leaveStation State.leaveStation_dir)

/-- What may be written or freed is not held (R20). -/
theorem State.unheldAt_of {e : Nat} (h : s.protected? e = false) : s.unheldAt e := by
  intro l q
  obtain ⟨v, hv, rfl⟩ := Option.map_eq_some_iff.mp q
  simp only [State.protected?, hv, Option.any_some, Bool.or_eq_false_iff] at h
  have := h.1.1
  cases e : v.loc <;> simp_all [State.placeProtects, Loc.unheld]

/-- A written location is not an arm or a drive (R19). -/
theorem writtenVolume_unheld {fields : List Byte} {v : Volume} (h : writtenVolume fields = some v) : v.loc.unheld = true := by
  unfold writtenVolume at h
  split at h
  · split at h
    · rename_i loc _ _ _ _ hl _ _ _
      dsimp only at h
      split at h <;> cases h
      unfold writtenLoc at hl
      repeat' split at hl
      all_goals cases hl <;> rfl
    · cases h
  · cases h

theorem State.LawfulIf.writeDirectory (h : s.LawfulIf P) {e : Nat} {entry : List Byte} (he : e < Config.slots)
    (k : s.writeDirectory e entry = .ok t) : t.LawfulIf P := by
  unfold State.writeDirectory at k
  split at k
  · split at k
    · cases k
    · split at k
      · cases k
      · split at k <;> cases k
        rename_i hp
        exact h.freeEntry (State.unheldAt_of (by simpa using hp))
      · split at k
        · cases k
        · rename_i v hw
          split at k
          · cases k
          · rename_i hp
            split at k
            · cases k
            · rename_i hs
              split at k <;> cases k
              rename_i ht
              refine h.writeVolume he (fun x hx hne q => hs ?_) (fun x hx hne n hn q => ht ?_)
                (State.unheldAt_of (by simpa using hp)) (writtenVolume_unheld hw)
              · exact List.any_eq_true.mpr ⟨x, hx, by simp [hne, q]⟩
              · unfold State.slotTaken
                rw [hn]
                simp only [Bool.or_eq_true]
                exact .inl (List.any_eq_true.mpr ⟨x, hx, by simp [hne, q]⟩)
  · cases k

theorem State.LawfulIf.clearDirectory (h : s.LawfulIf P) (k : s.clearDirectory = .ok t) : t.LawfulIf P := by
  unfold State.clearDirectory at k
  split at k <;> cases k
  rename_i hp
  -- what is not held stays so when another entry is freed
  have free : ∀ (u : State) (e x : Nat), u.unheldAt x → Canonical u.dir.entries → (u.freeEntry e).unheldAt x := by
    intro u e x hx c l q
    unfold State.freeEntry at q
    split at q
    · exact hx l q
    · have el : ∀ v : State, v.dir.entries = u.dir.entries →
          State.locOf { v with dir := { v.dir with entries := eraseAt e v.dir.entries } } x = some l → u.locOf x = some l := by
        intro v hv q
        simp only [State.locOf, State.vol?, hv] at q ⊢
        by_cases hxe : x = e
        · subst hxe; rw [lookup_eraseAt_self _ _ c] at q; cases q
        · rwa [lookup_eraseAt_ne _ hxe] at q
      refine hx l (el _ ?_ q)
      split <;> rfl
  have key : ∀ (l : List (Nat × Volume)) (u : State), u.LawfulIf P → (∀ x ∈ l, u.unheldAt x.1) →
      (l.foldl (fun s x => s.freeEntry x.1) u).LawfulIf P := by
    intro l
    induction l with
    | nil => exact fun _ k _ => k
    | cons x rest ih =>
      exact fun u k hu => ih _ (k.freeEntry (hu x List.mem_cons_self))
        (fun y hy => free u _ _ (hu y (List.mem_cons_of_mem _ hy)) k.1.1)
  refine key _ _ h (fun x hx => State.unheldAt_of ?_)
  simp only [List.any_eq_true, not_exists, not_and, Bool.not_eq_true] at hp
  exact hp x hx

/-! ### By the writes of the account table -/

theorem State.AccountsLawful.setEntry (h : s.AccountsLawful) {i : Nat} {x : Account}
    (hc : ∀ y ∈ s.acc.accounts, y.1 ≠ i → y.2.code ≠ x.code) : (s.setAccount i x).AccountsLawful := by
  obtain ⟨c, d2, d3⟩ := h
  refine ⟨canonical_insertAt _ _ _ c, ?_, ?_⟩
  · show (((insertAt i x s.acc.accounts).map (fun e => (e.1, e.2.identity))).map (fun x => x.2.1)).Pairwise (· ≠ ·)
    rw [List.map_map, List.pairwise_map]
    refine pairwise_insertAt (fun x y hxy => fun q => hxy q.symm) c ?_ (fun y hy hne => fun q => hc y hy hne q.symm)
    have d2' : ((s.acc.accounts.map (fun e => (e.1, e.2.identity))).map (fun x => x.2.1)).Pairwise (· ≠ ·) := d2
    rwa [List.map_map, List.pairwise_map] at d2'
  · obtain ⟨y, hy, h0⟩ := List.mem_map.mp d3
    obtain ⟨z, hz, rfl⟩ := List.mem_map.mp hy
    have key : ∀ l : List (Nat × Account), z ∈ l → z.1 = 0 → ∃ w ∈ insertAt i x l, w.1 = 0 := by
      intro l
      induction l with
      | nil => intro hm; cases hm
      | cons a rest ih =>
        obtain ⟨j, b⟩ := a
        intro hm h0
        simp only [insertAt]
        split
        · exact ⟨z, List.mem_cons_of_mem _ hm, h0⟩
        · split
          · rename_i _ e
            rcases List.mem_cons.mp hm with rfl | hm
            · exact ⟨(i, x), List.mem_cons_self, by rw [e]; exact h0⟩
            · exact ⟨z, List.mem_cons_of_mem _ hm, h0⟩
          · rcases List.mem_cons.mp hm with rfl | hm
            · exact ⟨_, List.mem_cons_self, h0⟩
            · obtain ⟨w, hw, hw0⟩ := ih hm h0
              exact ⟨w, List.mem_cons_of_mem _ hw, hw0⟩
    obtain ⟨w, hw, hw0⟩ := key _ hz h0
    exact List.mem_map.mpr ⟨(w.1, w.2.identity), List.mem_map.mpr ⟨w, hw, rfl⟩, hw0⟩

theorem State.LawfulIf.takeAccountWrite (h : s.LawfulIf P) {i : Nat} {w : AccountFields}
    (hc : ∀ y ∈ s.acc.accounts, y.1 ≠ i → y.2.code ≠ w.code) : (s.takeAccountWrite i w).LawfulIf P := by
  have key : ∀ x : Account, x.code = w.code → (s.setAccount i x).LawfulIf P := by
    intro x hx
    exact ⟨h.1, h.2.1.setEntry (by rw [hx]; exact hc), h.2.2.1, h.2.2.2⟩
  unfold State.takeAccountWrite
  split
  · refine key _ ?_
    split <;> rfl
  · exact key _ rfl

theorem State.LawfulIf.writeAccount (h : s.LawfulIf P) {i : Nat} {entry : List Byte} (k : s.writeAccount i entry = .ok t) : t.LawfulIf P := by
  unfold State.writeAccount at k
  split at k
  · split at k
    · cases k
    · split at k
      · cases k
      · split at k
        · cases k
        · rename_i hi
          split at k <;> cases k
          obtain ⟨d, ⟨c, d2, d3⟩, q, l⟩ := h
          have hs : ((eraseAt i s.acc.accounts).map (fun e => (e.1, e.2.identity))).Sublist s.accountIdentities :=
            (eraseAt_sublist i s.acc.accounts).map _
          refine ⟨d, ⟨canonical_eraseAt _ _ c, d2.sublist (hs.map _), ?_⟩, q, l⟩
          obtain ⟨y, hy, h0⟩ := List.mem_map.mp d3
          obtain ⟨z, hz, rfl⟩ := List.mem_map.mp hy
          have key : ∀ l : List (Nat × Account), z ∈ l → z.1 ≠ i → z ∈ eraseAt i l := by
            intro l
            induction l with
            | nil => intro hm; cases hm
            | cons a rest ih =>
              intro hm hne
              simp only [eraseAt]
              split
              · rename_i e
                rcases List.mem_cons.mp hm with rfl | hm
                · exact absurd e hne
                · exact hm
              · rcases List.mem_cons.mp hm with rfl | hm
                · exact List.mem_cons_self
                · exact List.mem_cons_of_mem _ (ih hm hne)
          have hne : z.1 ≠ i := by
            have : z.1 = 0 := h0
            omega
          exact List.mem_map.mpr ⟨(z.1, z.2.identity), List.mem_map.mpr ⟨z, key _ hz hne, rfl⟩, h0⟩
      · split at k
        · cases k
        · rename_i w _
          dsimp only at k
          split at k
          · cases k
          · split at k <;> cases k
            rename_i hc
            refine h.takeAccountWrite (fun y hy hne q => hc ?_)
            exact List.any_eq_true.mpr ⟨y, hy, by simp [hne, q]⟩
  · cases k

theorem State.LawfulIf.clearAccounts (h : s.LawfulIf P) (k : s.clearAccounts = .ok t) : t.LawfulIf P := by
  unfold State.clearAccounts at k
  split at k <;> cases k
  refine ⟨h.1, ⟨List.pairwise_singleton _ _, List.nodup_singleton _, ?_⟩, h.2.2.1, h.2.2.2⟩
  exact List.mem_singleton.mpr rfl

end Sys2Proof.Machine
end

