-- ==== Sys2Proof/Laws/LawfulSteps.lean ====
section
/-! SUPPORT. The laws of the tables and lists, and with them those of the part, are kept by every frame, by the port, by LINK RESET, by the panel
and by the inputs; the state after power-on has them. -/

namespace Sys2Proof.Machine

variable {s t : State} {L : Law → Prop} {P : Prop}

/-! ### By the other writes -/

/-- A drive's record changes, but not the volume it names. -/
theorem State.LawfulIf.updDrive (h : s.LawfulIf P) {d : Fin 16} {f : Drive → Drive} (hv : ∀ x, (f x).volume = x.volume) :
    (s.updDrive d f).LawfulIf P := by
  obtain ⟨a, b, q, l, w⟩ := h
  refine ⟨a, b, q, l, fun c => ?_⟩
  obtain ⟨w1, w2, w3⟩ := w c
  refine ⟨w1, fun x e => ?_, w3⟩
  have : ((s.updDrive d f).drive x).volume = (s.drive x).volume := by
    by_cases hx : x = d
    · subst hx; rw [State.drive_updDrive_self, hv]
    · rw [State.drive_updDrive_ne hx]
  rw [this]
  exact w2 x e

theorem State.LawfulIf.setDriveState (h : s.LawfulIf P) {d : Fin 16} {x : DriveState} : (s.setDriveState d x).LawfulIf P :=
  h.updDrive (fun _ => rfl)

theorem State.LawfulIf.setInstalled (h : s.LawfulIf P) {d : Fin 16} {b : Bool} : (s.setInstalled d b).LawfulIf P := by
  have key : ∀ (u : State) (c : Bool) (x : DriveState), u.LawfulIf P → State.LawfulIf P (if c then u.setDriveState d x else u) := by
    intro u c x k
    cases c
    · exact k
    · exact k.setDriveState
  unfold State.setInstalled
  dsimp only
  split
  · exact h
  · split
    · exact key _ _ _ (h.updDrive (fun _ => rfl))
    · exact h.updDrive (fun _ => rfl)

theorem State.LawfulIf.serviceOnline (h : s.LawfulIf P) {d : Fin 16} : (s.serviceOnline d).LawfulIf P := (Keeps.refl (L := allLaws) s).serviceOnline.lawful h

theorem State.LawfulIf.serviceOffline (h : s.LawfulIf P) {d : Fin 16} : (s.serviceOffline d).LawfulIf P := (Keeps.refl (L := allLaws) s).serviceOffline.lawful h

theorem State.LawfulIf.takeDriveWrite (h : s.LawfulIf P) {d : Fin 16} {w : DriveFields} : (s.takeDriveWrite d w).LawfulIf P := by
  have key : ∀ u : State, u.LawfulIf P →
      State.LawfulIf P (if (s.drive d).online = w.online then u else if w.online then u.serviceOnline d else u.serviceOffline d) := by
    intro u k
    split
    · exact k
    · split
      · exact k.serviceOnline
      · exact k.serviceOffline
  have last : ∀ u : State, u.LawfulIf P →
      State.LawfulIf P (if (s.drive d).atRest && !((s.drive d).installed && (s.drive d).online) && (u.drive d).claimable
        then u.notify .walk else u) := by
    intro u k
    split
    · exact k.notify
    · exact k
  unfold State.takeDriveWrite
  refine last _ (key _ (State.LawfulIf.setInstalled (h.updDrive ?_)))
  exact fun _ => rfl

theorem State.LawfulIf.writeDrive (h : s.LawfulIf P) {d : Fin 16} {entry : List Byte} (k : s.writeDrive d entry = .ok t) : t.LawfulIf P := by
  unfold State.writeDrive at k
  split at k
  · cases k
  · dsimp only at k
    split at k <;> cases k
    exact h.takeDriveWrite

/-- Clearing the volume of a drive leaves every drive the volume it named, or none. -/
theorem State.volume_clearDriveVolume {d x : Fin 16} :
    ((s.clearDriveVolume d).drive x).volume = none ∨
      x ≠ d ∧ ((s.clearDriveVolume d).drive x).volume = (s.drive x).volume := by
  have lose : ∀ e, ((s.loseFrom e (.inDrive d)).drive x).volume = none ∨
      ((s.loseFrom e (.inDrive d)).drive x).volume = (s.drive x).volume := by
    intro e
    unfold State.loseFrom State.makeMissing
    split
    · split
      · rw [State.raise_drive]
        cases hv : s.vol? e with
        | none => rw [State.relocate_none hv]; exact .inr rfl
        | some v =>
          rw [State.volume_relocate hv]
          split
          · exact .inl rfl
          · exact .inr rfl
      · exact .inr rfl
    · exact .inr rfl
  unfold State.clearDriveVolume
  split
  · rename_i e _
    by_cases hx : x = d
    · subst hx; left; rw [State.drive_updDrive_self]
    · rw [State.drive_updDrive_ne hx]
      exact (lose e).imp_right fun q => ⟨hx, q⟩
  · rename_i hv
    by_cases hx : x = d
    · subst hx; exact .inl hv
    · exact .inr ⟨hx, rfl⟩

/-- With the volumes of some drives cleared, those drives name none. -/
theorem State.volume_clearAll {l : List (Fin 16)} {x : Fin 16} (h : x ∈ l ∨ (s.drive x).volume = none) :
    ((l.foldl State.clearDriveVolume s).drive x).volume = none := by
  induction l generalizing s with
  | nil => exact h.resolve_left List.not_mem_nil
  | cons d l ih =>
    refine ih ?_
    rcases State.volume_clearDriveVolume (s := s) (d := d) (x := x) with q | ⟨hx, q⟩
    · exact .inr q
    · rcases h with h | h
      · exact .inl ((List.mem_cons.mp h).resolve_left hx)
      · exact .inr (q.trans h)

theorem State.LawfulIf.clearDrives (h : s.LawfulIf P) (k : s.clearDrives = .ok t) : t.LawfulIf P := by
  have key : ∀ u : State, u.LawfulIf P → (∀ d, (u.drive d).volume = none) → ∀ x : DriveBlock, (∀ d : Fin 16, (x.drives[d]).volume = none) →
      State.LawfulIf P { u with drv := x } := by
    intro u ⟨a, b, q, l, w⟩ hu x hx
    refine ⟨a, b, q, l, fun c => ?_⟩
    obtain ⟨w1, w2, w3⟩ := w c
    refine ⟨w1, fun d e => ?_, w3⟩
    refine Iff.trans ?_ (w2 d e)
    rw [hu d]
    show (x.drives[d]).volume = some e ↔ _
    rw [hx d]
  have mem : ∀ d : Fin 16, d ∈ allDrives := fun d => List.mem_finRange d
  have all : ∀ l : List (Fin 16), (l.foldl State.clearDriveVolume s).LawfulIf P :=
    fun l => ((Keeps.refl (L := allLaws) s).foldl (fun h => h.clearDriveVolume)).lawful h
  unfold State.clearDrives at k
  generalize allDrives = l at k mem
  dsimp only at k
  split at k
  · cases k
  · rw [← Except.ok.inj k]
    refine key _ (all l) (fun d => State.volume_clearAll (.inl (mem d))) _ (fun d => ?_)
    simp [mapVec, Drive.powerOn]

theorem State.LawfulIf.setAttnUnit (h : s.LawfulIf P) {o : Output} {u : AttnUnit} : (s.setAttnUnit o u).LawfulIf P := by
  cases o <;> exact h

theorem State.LawfulIf.restartIdleUnit (h : s.LawfulIf P) {o : Output} : (s.restartIdleUnit o).LawfulIf P :=
  (Keeps.refl (L := allLaws) s).restartIdleUnit.lawful h

theorem State.LawfulIf.cadenceWritten (h : s.LawfulIf P) {i : Nat} {o : Output} : (s.cadenceWritten i o).LawfulIf P := by
  unfold State.cadenceWritten
  split
  · exact h.restartIdleUnit
  · exact h

theorem State.LawfulIf.setSettings (h : s.LawfulIf P) {v : Vector SettingValue 51} :
    State.LawfulIf P { s with port := { s.port with settings := v } } := h

theorem State.LawfulIf.setTemplates (h : s.LawfulIf P) {v : Vector Text 32} : State.LawfulIf P { s with pr := { s.pr with templates := v } } := h

theorem State.LawfulIf.setFences (h : s.LawfulIf P) {v : Vector (Option Fence) 8} :
    State.LawfulIf P { s with dir := { s.dir with fences := v } } := h

theorem State.LawfulIf.writeFence (h : s.LawfulIf P) {i : Nat} {entry : List Byte} (k : s.writeFence i entry = .ok t) : t.LawfulIf P := by
  unfold State.writeFence at k
  split at k <;> cases k
  exact h.setFences.notify

theorem State.LawfulIf.writeTemplate (h : s.LawfulIf P) {i : Nat} {entry : List Byte} (k : s.writeTemplate i entry = .ok t) : t.LawfulIf P := by
  unfold State.writeTemplate at k
  split at k
  · dsimp only at k
    split at k <;> cases k
    exact h.setTemplates
  · cases k

theorem State.LawfulIf.writeSetting (h : s.LawfulIf P) {i : Nat} {entry : List Byte} (k : s.writeSetting i entry = .ok t) : t.LawfulIf P := by
  unfold State.writeSetting at k
  split at k <;> cases k
  exact h.setSettings.cadenceWritten.cadenceWritten

/-- A taken write keeps the laws. -/
theorem State.LawfulIf.ownerWrite (h : s.LawfulIf P) {x : Table} {i : Nat} {entry : List Byte} (hi : i < x.largest)
    (k : s.ownerWrite x i entry = .ok t) : t.LawfulIf P := by
  cases x with
  | directory => exact h.writeDirectory hi k
  | fences => exact h.writeFence k
  | drives =>
    have hi' : i < 16 := hi
    have e : s.writeDrive ⟨i, hi'⟩ entry = .ok t := by
      have : s.ownerWrite .drives i entry = s.writeDrive ⟨i, hi'⟩ entry := dif_pos hi'
      rw [← this]; exact k
    exact h.writeDrive e
  | templates => exact h.writeTemplate k
  | accounts => exact h.writeAccount k
  | settings => exact h.writeSetting k
  | slots | requests | orders | arms | prompts | stations | audit => cases k

/-- A cleared table keeps the laws. -/
theorem State.LawfulIf.ownerClear (h : s.LawfulIf P) {x : Table} (k : s.ownerClear x = .ok t) : t.LawfulIf P := by
  cases x with
  | directory => exact h.clearDirectory k
  | fences => cases k; exact h.setFences.notify
  | drives => exact h.clearDrives k
  | templates => cases k; exact h.setTemplates
  | accounts => exact h.clearAccounts k
  | settings => cases k; exact h.setSettings.restartIdleUnit.restartIdleUnit
  | slots | requests | orders | arms | prompts | stations | audit => cases k

/-! ### By the frames -/

theorem State.LawfulIf.setCursor (h : s.LawfulIf P) {x : Fin 13} {c : Cursor} : (s.setCursor x c).LawfulIf P := h

theorem State.LawfulIf.passOn (h : s.LawfulIf P) (k : t.LawfulIf P) {b : Bool} : (s.passOn t b).LawfulIf P := by
  unfold State.passOn
  split
  · exact h.actOf k
  · exact k

theorem State.LawfulIf.writeEntry (h : s.LawfulIf P) {entry : List Byte} : (s.writeEntry entry).1.LawfulIf P := by
  unfold State.writeEntry
  split
  · exact h
  · dsimp only
    split
    · exact h
    · split
      · exact h
      · rename_i hi
        split
        · exact h
        · rename_i e
          exact State.LawfulIf.passOn h.setCursor (State.LawfulIf.setCursor (h.ownerWrite (by omega) e))

theorem State.LawfulIf.clearTable (h : s.LawfulIf P) : s.clearTable.1.LawfulIf P := by
  unfold State.clearTable
  split
  · exact h
  · dsimp only
    split
    · exact h
    · split
      · exact h
      · rename_i e
        exact State.LawfulIf.passOn h.setCursor (State.LawfulIf.setCursor (h.ownerClear e))

/-- A request joins the queue of a lawful state when R50 does not refuse it. -/
theorem State.LawfulIf.joinQueue (h : s.LawfulIf P) {k : RequestKind} {f : RequestFields} (e : s.refusal k f = none) :
    (s.joinQueue (s.newRequest k f)).LawfulIf P := by
  have first : ∀ (l : List (Bool × Reason)), firstRefusal l = none → ∀ x ∈ l, x.1 = false := by
    intro l
    induction l with
    | nil => intro _ x hx; cases hx
    | cons y rest ih =>
      obtain ⟨b, r⟩ := y
      intro hl x hx
      simp only [firstRefusal] at hl
      split at hl
      · cases hl
      · rename_i hb
        rcases List.mem_cons.mp hx with rfl | hx
        · simpa using hb
        · exact ih hl x hx
  have all := first _ e
  have mem : ∀ x ∈ s.commonChecks f.tag (k != .demount) (fieldsGood f k), x.1 = false :=
    fun x hx => all x (List.mem_append_left _ hx)
  have c1 := mem ((s.request? f.tag).isSome, .duplicateTag) (by simp [State.commonChecks])
  have c2 := mem (decide (Config.maxRequests ≤ s.ms.queue.length), .queueFull) (by simp [State.commonChecks])
  have c3 := mem (!(fieldsGood f k), .badField) (by simp [State.commonChecks])
  have hlen : s.ms.queue.length < Config.maxRequests := by simpa using c2
  have hnew : ∀ r ∈ s.ms.queue, r.tag ≠ f.tag := by
    intro r hr q
    have hnone : s.ms.queue.find? (fun r => r.tag == f.tag) = none := by simpa [State.request?] using c1
    have := List.find?_eq_none.mp hnone r hr
    simp [q] at this
  have h0 : f.tag ≠ 0 := by
    have : fieldsGood f k = true := by simpa using c3
    unfold fieldsGood at this
    simp only [Bool.and_eq_true] at this
    simpa using this.1.1.1
  obtain ⟨d, a, ⟨q1, q2, q3⟩, l, w⟩ := h
  have hr : (s.joinQueue (s.newRequest k f)).requestsAsked.map (fun x => x.1.1) = s.requestsAsked.map (fun x => x.1.1) ++ [f.tag] := by
    simp [State.requestsAsked, State.joinQueue, Request.asked, State.newRequest]
  refine ⟨d, a, ⟨?_, ?_, ?_⟩, l, fun c => ?_⟩
  · show (s.ms.queue ++ [_]).length ≤ _
    rw [List.length_append]
    exact hlen
  · rw [hr]
    refine List.nodup_append.mpr ⟨q2, List.nodup_singleton _, ?_⟩
    intro x hx y hy q
    obtain rfl := List.mem_singleton.mp hy
    subst q
    obtain ⟨z, hz, e1⟩ := List.mem_map.mp hx
    obtain ⟨r, hr', e2⟩ := List.mem_map.mp hz
    subst e2
    exact hnew r hr' e1
  · rw [hr]
    intro c
    rcases List.mem_append.mp c with c | c
    · exact q3 c
    · exact h0 (List.mem_singleton.mp c).symm
  · obtain ⟨w1, w2, w3, ⟨p1, p2, p3, p4⟩, w5⟩ := w c
    have mem : ∀ r ∈ (s.joinQueue (s.newRequest k f)).ms.queue, r ∈ s.ms.queue ∨ r = s.newRequest k f := fun r hr =>
      (List.mem_append.mp hr).imp_right List.mem_singleton.mp
    refine ⟨w1, w2, fun r hr q hq e he hf => ?_, ⟨fun r hr hs => ?_, fun x hx => ?_, p3, fun x hx r hr tr => ?_⟩, w5⟩
    · rcases mem r hr with hr | rfl
      · rcases mem q hq with hq | rfl
        · exact w3 r hr q hq e he hf
        · cases hf
      · cases he
    · rcases mem r hr with hr | rfl
      · exact p1 r hr hs
      · cases hs
    · obtain ⟨r, hr, q⟩ := p2 x hx
      exact ⟨r, List.mem_append_left _ hr, q⟩
    · rcases mem r hr with hr | rfl
      · exact p4 x hx r hr tr
      · exact fun q => ReqState.noConfusion q

theorem State.LawfulIf.startLibrary (h : s.LawfulIf P) : (s.act State.startLibrary).LawfulIf P := h.act (Keeps.refl (L := allLaws) s).startLibrary

theorem State.LawfulIf.takeQuiesce (h : s.LawfulIf P) (e : s.takeQuiesce = some t) : t.LawfulIf P := by
  unfold State.takeQuiesce at e
  split at e <;> cases e <;> first | exact h.act (Keeps.refl (L := allLaws) s).enterQuiescing | exact h

theorem State.LawfulIf.takeResume (h : s.LawfulIf P) (e : s.takeResume = some t) : t.LawfulIf P := by
  unfold State.takeResume at e
  obtain ⟨u, hu, rfl⟩ := Option.map_eq_some_iff.mp e
  exact h.act (f := fun _ => u) ((Keeps.refl (L := allLaws) s).resumeLibrary hu)

theorem State.LawfulIf.serviceResult (h : s.LawfulIf P) {x : Option State} (k : ∀ u, x = some u → u.LawfulIf P) :
    (s.serviceResult x).1.LawfulIf P := by
  unfold State.serviceResult
  split
  · exact k _ rfl
  · exact h

theorem State.LawfulIf.dropRecords (h : s.LawfulIf P) {n : Nat} : (s.dropRecords n).LawfulIf P := h

theorem State.LawfulIf.releaseRecords (h : s.LawfulIf P) {n : Half} : (s.releaseRecords n).1.LawfulIf P := by
  have k : (s.act (fun s => (s.dropRecords n.toNat).notify .walk)).LawfulIf P := h.actOf (h.dropRecords (n := n.toNat)).notify
  unfold State.releaseRecords
  split
  · dsimp only
    split
    · exact h
    · exact k
  · exact h

theorem State.LawfulIf.updAccount (h : s.LawfulIf P) {i : Nat} {f : Account → Account} (hf : ∀ x, (f x).identity = x.identity) :
    (s.updAccount i f).LawfulIf P := (Keeps.refl (L := allLaws) s).updAccount hf |>.lawful h

theorem State.LawfulIf.resetCounters (h : s.LawfulIf P) {index : Byte} : (s.resetCounters index).1.LawfulIf P := by
  have k : State.LawfulIf P { s with acc := { s.acc with accounts := s.acc.accounts.map (fun x => (x.1, x.2.cleared)) } } := by
    obtain ⟨d, ⟨c, d2, d3⟩, q, l⟩ := h
    have e : (s.acc.accounts.map (fun x => (x.1, x.2.cleared))).map (fun e => (e.1, e.2.identity)) = s.accountIdentities := by
      unfold State.accountIdentities
      rw [List.map_map]
      rfl
    refine ⟨d, ⟨?_, ?_, ?_⟩, q, l⟩
    · show (s.acc.accounts.map (fun x => (x.1, x.2.cleared))).Pairwise _
      rw [List.pairwise_map]
      exact c
    · show (((s.acc.accounts.map (fun x => (x.1, x.2.cleared))).map (fun e => (e.1, e.2.identity))).map _).Nodup
      rw [e]; exact d2
    · show 0 ∈ ((s.acc.accounts.map (fun x => (x.1, x.2.cleared))).map (fun e => (e.1, e.2.identity))).map _
      rw [e]; exact d3
  unfold State.resetCounters
  split
  · exact k
  · split
    · exact h
    · split
      · exact h
      · exact h.updAccount (fun _ => rfl)

/-- Every frame keeps the laws. -/
theorem State.LawfulIf.takeFrame (h : s.LawfulIf P) {f : SysFrame} : (s.takeFrame f).1.LawfulIf P := by
  cases f with
  | request k f =>
    show (s.takeRequest k f).1.LawfulIf P
    unfold State.takeRequest
    split
    · exact h
    · rename_i e
      dsimp only
      refine (h.joinQueue e).act ?_
      exact (Keeps.refl (L := allLaws) _).afterAcceptance
  | cancel tag =>
    show (s.takeCancel tag).1.LawfulIf P
    unfold State.takeCancel
    split
    · exact h
    · dsimp only
      refine h.act ?_
      exact (Keeps.refl (L := allLaws) _).cancelRequest
    · exact h
  | label drive serial =>
    show (s.labelFrame drive serial).LawfulIf P
    unfold State.labelFrame
    split
    · split
      · refine h.act ?_
        exact (Keeps.refl (L := allLaws) _).takeLabel
      · exact h
    · exact h
  | select table index wrap =>
    show (s.select table index wrap).1.LawfulIf P
    unfold State.select
    split
    · split <;> exact h
    · exact h
  | readEntries n =>
    show (s.readEntries n).1.LawfulIf P
    unfold State.readEntries
    split
    · exact h
    · split <;> exact h
  | writeEntry entry => exact h.writeEntry
  | clearTable => exact h.clearTable
  | start =>
    show s.commandStart.1.LawfulIf P
    unfold State.commandStart
    split
    · exact h.startLibrary
    · exact h
  | quiesce => exact h.serviceResult (fun _ e => h.takeQuiesce e)
  | resume => exact h.serviceResult (fun _ e => h.takeResume e)
  | audit first last =>
    show (s.commandAudit first last).1.LawfulIf P
    unfold State.commandAudit
    split
    · exact h
    · split
      · exact h
      · split
        · exact h
        · dsimp only
          refine h.act ?_
          exact (Keeps.refl (L := allLaws) _).beginAudit
  | releaseRecords n => exact h.releaseRecords
  | resetCounters index => exact h.resetCounters
  | armService arm out =>
    show (s.commandArmService arm out).1.LawfulIf P
    unfold State.commandArmService
    split
    · dsimp only
      refine h.act ?_
      exact (Keeps.refl (L := allLaws) _).armOut
    · dsimp only
      refine h.act ?_
      exact (Keeps.refl (L := allLaws) _).armIn
    · exact h
  | driveService drive out =>
    show (s.commandDriveService drive out).1.LawfulIf P
    unfold State.commandDriveService
    split
    · dsimp only
      refine h.act ?_
      exact (Keeps.refl (L := allLaws) _).serviceOffline
    · dsimp only
      refine h.act ?_
      exact (Keeps.refl (L := allLaws) _).serviceOnline
    · exact h
  | labelShort | requestShort | requestUnknown | linkReset | setClock | readClock | eventMask | eventClear | readEvents | readRecords
  | controlShort | unknown => exact h

theorem State.LawfulIf.takeNext (h : s.LawfulIf P) : s.takeNext.LawfulIf P := by
  have key : ∀ u : State, u.LawfulIf P → ∀ l, State.LawfulIf P { u with port := { u.port with immediate := l } } := fun _ k _ => k
  unfold State.takeNext
  cases e : s.port.buffer with
  | nil => exact h
  | cons f rest =>
    have hb : rest.length ≤ Config.maxBuffer := by
      have l5 := h.2.2.2.1.2.2.2.2
      rw [e, List.length_cons] at l5
      omega
    exact key _ (h.setBuffer hb).takeFrame.refreshConditions _

theorem State.LawfulIf.pump (h : s.LawfulIf P) {n : Nat} : (State.pump n s).LawfulIf P := by
  induction n generalizing s with
  | zero => exact h
  | succ n ih =>
    unfold State.pump
    cases e : s.nextOut with
    | some u => exact ih (h.nextOut e)
    | none =>
      dsimp only
      split
      · exact ih h.takeNext
      · exact h

/-- The end of a command keeps the laws. -/
theorem State.LawfulIf.finishStep (h : s.LawfulIf P) : s.finishStep.LawfulIf P :=
  (State.LawfulIf.panelPump (State.LawfulIf.pump h.refreshConditions)).refreshConditions

/-! ### By bytes received -/

theorem State.LawfulIf.setRx (h : s.LawfulIf P) {p : PortId} {rx : Rx} : (s.setRx p rx).LawfulIf P := by
  unfold State.setRx
  split
  · exact h
  · refine ((Keeps.refl (L := allLaws) s).setArmPort ?_).lawful h
    exact fun _ => rfl

theorem State.LawfulIf.raise (h : s.LawfulIf P) {e : Event} : (s.raise e).LawfulIf P := h

theorem State.LawfulIf.takeReceived (h : s.LawfulIf P) {p : PortId} {ticks : Nat} {r : Received} : (s.takeReceived p ticks r).LawfulIf P := by
  unfold State.takeReceived
  split
  · exact h
  · exact h.deliver.pump
  · split
    · refine State.LawfulIf.refreshConditions (h.act ?_)
      exact (Keeps.refl (L := allLaws) _).takeReport
    · exact h

theorem State.LawfulIf.received (h : s.LawfulIf P) {p : PortId} {ticks : Nat} {x : Rx × List Received} : (s.received p ticks x).LawfulIf P := by
  have key : ∀ (l : List Received) (u : State), u.LawfulIf P → (l.foldl (fun s r => s.takeReceived p ticks r) u).LawfulIf P := by
    intro l
    induction l with
    | nil => exact fun _ k => k
    | cons r rest ih => exact fun u k => ih _ k.takeReceived
  exact key _ _ h.setRx

/-! ### By LINK RESET -/

theorem Keeps.resetService (h : Keeps L s t) : Keeps L s t.resetService := by
  unfold State.resetService
  refine Keeps.clearHomingOwed ?_
  exact Keeps.ite h h.enterService

/-- No request and no prompt: none is PROMPTED (R55). -/
theorem State.PromptsPaired.empty (hq : s.ms.queue = []) (hp : s.pr.list = []) : s.PromptsPaired := by
  have hr : s.relatedPrompts = [] := by rw [State.relatedPrompts, hp]; rfl
  simp only [State.PromptsPaired, hq, hr]
  simp

theorem State.LawfulIf.emptyPrompts (h : s.LawfulIf P) (hq : P → s.ms.queue = []) {o : List Equipment} {b : Bool} :
    State.LawfulIf P { s with pr := { s.pr with list := [], owed := o, answers := [], withdrawals := [], allWithdrawn := b } } := by
  obtain ⟨d, a, q, ⟨l1, l2, l3, l4, l5⟩, w⟩ := h
  refine ⟨d, a, q, ⟨Nat.zero_le _, l2, Nat.zero_le _, Nat.zero_le _, l5⟩, fun c => ?_⟩
  obtain ⟨w1, w2, w3, _, w5⟩ := w c
  exact ⟨w1, w2, w3, State.PromptsPaired.empty (hq c) rfl, w5⟩

theorem State.LawfulIf.setAtt (h : s.LawfulIf P) {a : AttnBlock} : State.LawfulIf P { s with att := a } := h

theorem Keeps.askAll (h : Keeps L s t) {l : List Equipment} : Keeps L s ((l.foldl State.askEquipment t).attend none) :=
  (h.foldl (fun h => h.askEquipment)).attend

theorem State.resetPrompts_eq : s.resetPrompts = (State.derivedEquipment ({ s with
      pr := { s.pr with list := [], owed := [], answers := [], withdrawals := [], allWithdrawn := true }
      att := ⟨AttnUnit.powerOn, AttnUnit.powerOn⟩ }) |>.foldl State.askEquipment { s with
      pr := { s.pr with list := [], owed := [], answers := [], withdrawals := [], allWithdrawn := true }
      att := ⟨AttnUnit.powerOn, AttnUnit.powerOn⟩ }).attend none := by
  delta State.resetPrompts
  exact rfl

theorem State.LawfulIf.resetPrompts (h : s.LawfulIf P) (hq : P → s.ms.queue = []) : s.resetPrompts.LawfulIf P := by
  rw [State.resetPrompts_eq]
  have k := (h.emptyPrompts hq (o := []) (b := true)).setAtt (a := ⟨AttnUnit.powerOn, AttnUnit.powerOn⟩)
  revert k
  generalize ({ s with pr := { s.pr with list := [], owed := [], answers := [], withdrawals := [], allWithdrawn := true }
                       att := ⟨AttnUnit.powerOn, AttnUnit.powerOn⟩ } : State) = u
  intro k
  have e := Keeps.askAll (Keeps.refl (L := allLaws) u) (l := u.derivedEquipment)
  exact Keeps.lawful e k

theorem State.LawfulIf.resetBlocks (h : s.LawfulIf P) : s.resetBlocks.LawfulIf P := by
  have k : State.LawfulIf P { s with ms := ⟨[]⟩, pr := { s.pr with list := [] } } := by
    obtain ⟨d, a, _, ⟨_, l⟩, w⟩ := h
    refine ⟨d, a, ⟨Nat.zero_le _, List.nodup_nil, List.not_mem_nil⟩, ⟨Nat.zero_le _, l⟩, fun c => ?_⟩
    obtain ⟨w1, w2, _, _, w5⟩ := w c
    exact ⟨w1, w2, fun r hr => absurd hr List.not_mem_nil, State.PromptsPaired.empty rfl rfl, w5⟩
  have rest : ∀ (u : State) (homes : Bool), u.LawfulIf P → u.ms.queue = [] →
      ((u.resetDrives.resetAudit.resetService.resetScheduler homes).resetStations).LawfulIf P ∧
        ((u.resetDrives.resetAudit.resetService.resetScheduler homes).resetStations).ms.queue = [] := by
    intro u homes k hq
    have kept := (Keeps.refl (L := allLaws) u).resetDrives.resetAudit.resetService.resetScheduler (homes := homes) |>.resetStations
    refine ⟨kept.lawful k, ?_⟩
    have e := kept.asked
    simp only [State.requestsAsked, hq, List.map_nil] at e
    exact List.map_eq_nil_iff.mp e
  have done := rest _ (resetHomes s.service) k rfl
  unfold State.resetBlocks
  dsimp only at done ⊢
  exact State.LawfulIf.notify (State.LawfulIf.resetPrompts done.1 (fun _ => done.2))

theorem State.LawfulIf.resetPort (h : s.LawfulIf P) : s.resetPort.LawfulIf P := by
  obtain ⟨d, a, q, ⟨l1, l2, l3, l4, l5⟩, w⟩ := h
  refine ⟨d, a, q, ⟨l1, l2, l3, l4, Nat.zero_le _⟩, fun c => ?_⟩
  obtain ⟨w1, w2, w3, ⟨p1, p2, p3, _⟩, w5⟩ := w c
  exact ⟨w1, w2, w3, ⟨p1, p2, p3, fun x hx => by cases hx⟩, w5⟩

theorem State.LawfulIf.performReset (h : s.LawfulIf P) : s.performReset.LawfulIf P := by
  have key : ∀ u : State, u.LawfulIf P → ∀ b, State.LawfulIf P { u with port := { u.port with noticeOwed := b } } := fun _ k _ => k
  unfold State.performReset
  exact key _ (State.LawfulIf.refreshConditions (State.LawfulIf.actOf h.resetPort h.resetPort.resetBlocks)) _

theorem State.LawfulIf.frameSent (h : s.LawfulIf P) : s.frameSent.LawfulIf P := by
  have k : State.LawfulIf P { s with port := { s.port with sending := none } } := h
  unfold State.frameSent
  split
  · exact h
  · dsimp only
    split
    · exact k.performReset
    · exact k

/-! ### By the panel -/

theorem State.LawfulIf.answer (h : s.LawfulIf P) (hl : s.pr.answers.length < Config.maxAnswers) {a : Answer} : (s.answer a).LawfulIf P := by
  obtain ⟨d, c, q, ⟨l1, l2, l3, l4, l5⟩, w⟩ := h
  refine ⟨d, c, q, ⟨l1, l2, ?_, l4, l5⟩, w⟩
  show (s.pr.answers ++ [a]).length ≤ _
  rw [List.length_append]
  exact hl

/-- A line that ends keeps the laws when what takes it does, with room for an answer. -/
theorem State.LawfulIf.lineEnded (h : s.LawfulIf P) {f : State → State}
    (hf : ∀ u : State, u.LawfulIf P → u.pr.answers.length < Config.maxAnswers → (f u).LawfulIf P) : (s.lineEnded f).LawfulIf P := by
  have k : State.LawfulIf P { s with pr := { s.pr with held := [], tooLong := false } } := h
  unfold State.lineEnded
  dsimp only
  split
  · exact k
  · rename_i c
    exact hf _ k (by simpa using c)

theorem Keeps.answers (k : Keeps L s t) : t.pr.answers = s.pr.answers := congrArg (fun x => x.2.2.2.2.1) k.panel

theorem State.LawfulIf.keptAnswer (h : s.LawfulIf P) (hl : s.pr.answers.length < Config.maxAnswers) (k : Keeps allLaws s t) {a : Answer} :
    (t.answer a).LawfulIf P := (k.lawful h).answer (by rw [k.answers]; exact hl)

theorem State.LawfulIf.lineAck (h : s.LawfulIf P) (hl : s.pr.answers.length < Config.maxAnswers) {n : Nat} : (s.lineAck n).LawfulIf P := by
  unfold State.lineAck
  split
  · exact h.keptAnswer hl (Keeps.refl (L := allLaws) s).ackPrompt
  · exact h.answer hl

theorem State.LawfulIf.lineAckAll (h : s.LawfulIf P) (hl : s.pr.answers.length < Config.maxAnswers) : s.lineAckAll.LawfulIf P :=
  h.keptAnswer hl (Keeps.refl (L := allLaws) s).ackAllPrompts

theorem State.LawfulIf.lineList (h : s.LawfulIf P) (hl : s.pr.answers.length < Config.maxAnswers) : s.lineList.LawfulIf P :=
  h.keptAnswer hl (Keeps.refl (L := allLaws) s).listPrompts

theorem Keeps.takeQuiesce (e : s.takeQuiesce = some t) : Keeps allLaws s t := by
  unfold State.takeQuiesce at e
  split at e <;> cases e <;> first
    | exact (Keeps.refl (L := allLaws) s).act (Keeps.refl (L := allLaws) s).enterQuiescing
    | exact Keeps.refl s

theorem Keeps.takeResume (e : s.takeResume = some t) : Keeps allLaws s t := by
  unfold State.takeResume at e
  obtain ⟨u, hu, rfl⟩ := Option.map_eq_some_iff.mp e
  exact (Keeps.refl (L := allLaws) s).act (f := fun _ => u) ((Keeps.refl (L := allLaws) s).resumeLibrary hu)

theorem State.LawfulIf.lineService (h : s.LawfulIf P) (hl : s.pr.answers.length < Config.maxAnswers) {x : Option State}
    (k : ∀ u, x = some u → Keeps allLaws s u) : (s.lineService x).LawfulIf P := by
  unfold State.lineService
  split
  · exact h.keptAnswer hl (k _ rfl)
  · exact h.answer hl

theorem Keeps.requestReply (h : Keeps L s t) {p : Prompt} {r : Request} {w : ReplyWord} : Keeps L s (t.requestReply p r w) := by
  unfold State.requestReply
  split <;> with_reducible first
    | exact h | apply Keeps.manualMountDone | apply Keeps.manualMountCancel | apply Keeps.ringFit | apply Keeps.ringReadonly
    | apply Keeps.ringCancel | apply Keeps.labelAccept | apply Keeps.labelReject | apply Keeps.suspectProceed | apply Keeps.finish
    | apply Keeps.lostFound | apply Keeps.scratchDone
  all_goals exact h

theorem Keeps.equipmentReply (h : Keeps L s t) {p : Prompt} {w : ReplyWord} : Keeps L s (t.equipmentReply p w) := by
  unfold State.equipmentReply
  split <;> with_reducible first | exact h | exact h.recheck | exact h.armIn

theorem Keeps.actReply (h : Keeps L s t) {p : Prompt} {w : ReplyWord} : Keeps L s (t.actReply p w) := by
  have key : ∀ r : Option Request, Keeps L s
      (match r with
        | some q => (if w = ReplyWord.fit then (match r with | some r => t.markAssisted r | none => t)
            else (match r with | some r => t.markAssisted r | none => t).leaveList p.number false).requestReply p q w
        | none => (if w = ReplyWord.fit then (match r with | some r => t.markAssisted r | none => t)
            else (match r with | some r => t.markAssisted r | none => t).leaveList p.number false).equipmentReply p w) := by
    intro r
    cases r with
    | none => exact Keeps.equipmentReply (Keeps.ite h h.leaveList)
    | some r => exact Keeps.requestReply (Keeps.ite h.markAssisted h.markAssisted.leaveList)
  unfold State.actReply
  exact key _

theorem State.LawfulIf.reply (h : s.LawfulIf P) (hl : s.pr.answers.length < Config.maxAnswers) {n : Nat} {kind : PromptKind → Bool}
    {w : ReplyWord} : (s.reply n kind w).LawfulIf P := by
  unfold State.reply
  split
  · exact h.answer hl
  · split
    · refine (h.answer hl).act ?_
      exact (Keeps.refl (L := allLaws) _).actReply
    · exact h.answer hl

theorem State.LawfulIf.numberLine (h : s.LawfulIf P) (hl : s.pr.answers.length < Config.maxAnswers) {n : Nat} {rest : List Text} :
    (s.numberLine n rest).LawfulIf P := by
  unfold State.numberLine
  split
  · exact h.answer hl
  · exact h.answer hl
  · split
    · exact h.reply hl
    · exact h.answer hl
  · exact h.answer hl

theorem State.LawfulIf.wordsLine (h : s.LawfulIf P) (hl : s.pr.answers.length < Config.maxAnswers) {words : List Text} :
    (s.wordsLine words).LawfulIf P := by
  unfold State.wordsLine
  split
  · exact h
  · split
    · split
      · split
        · exact h.lineAckAll hl
        · split
          · exact h.lineAck hl
          · exact h.answer hl
      · exact h.answer hl
    · split
      · exact h.lineList hl
      · split
        · exact h.lineService hl (fun _ e => Keeps.takeQuiesce e)
        · split
          · exact h.lineService hl (fun _ e => Keeps.takeResume e)
          · split
            · exact h.numberLine hl
            · exact h.answer hl

theorem State.LawfulIf.typeChar (h : s.LawfulIf P) {code : BitVec 7} : (s.typeChar code).LawfulIf P := by
  unfold State.typeChar
  dsimp only
  split
  · refine h.lineEnded (fun u k kl => ?_)
    split
    · exact k.answer kl
    · exact k.wordsLine kl
  · split
    · exact h
    · split
      · exact h
      · unfold State.holdChar
        split <;> exact h

theorem State.LawfulIf.typeLine (h : s.LawfulIf P) {text : PanelText} : (s.typeLine text).LawfulIf P := by
  have key : ∀ (l : PanelText) (u : State), u.LawfulIf P → (l.foldl State.typeChar u).LawfulIf P := by
    intro l
    induction l with
    | nil => exact fun _ k => k
    | cons c rest ih => exact fun u k => ih _ k.typeChar
  exact (key _ _ h).typeChar

theorem State.LawfulIf.escalationExpiry (h : s.LawfulIf P) {n : Nat} : (s.escalationExpiry n).LawfulIf P := by
  unfold State.escalationExpiry
  split
  · exact h
  · split
    · exact h
    · split
      · exact (Keeps.refl (L := allLaws) s).escalate.lawful h
      · split
        · refine h.act ?_
          dsimp only
          split
          · exact (Keeps.refl (L := allLaws) _).withdraw.promptTimedOut
          · exact (Keeps.refl (L := allLaws) _).withdraw
        · exact (Keeps.refl (L := allLaws) s).endEscalation.lawful h

/-! ### By the inputs -/

theorem State.LawfulIf.driveRaw (h : s.LawfulIf P) {d : Fin 16} {line : SenseLine} {level : Bool} : (s.driveRaw d line level).LawfulIf P := by
  refine h.updDrive (fun x => ?_)
  dsimp only
  repeat' split
  all_goals rfl

theorem State.LawfulIf.driveLevel (h : s.LawfulIf P) {d : Fin 16} {line : SenseLine} {level : Bool} (e : s.driveLevel d line level = some t) :
    t.LawfulIf P := by
  unfold State.driveLevel at e
  dsimp only at e
  split at e <;> cases e
  split
  · refine State.LawfulIf.raise (h.updDrive ?_)
    exact fun _ => rfl
  · refine h.updDrive ?_
    exact fun _ => rfl

theorem State.LawfulIf.senseChange (h : s.LawfulIf P) {d : Fin 16} {line : SenseLine} {level : Bool} {f : State → State}
    (hf : ∀ u, Keeps allLaws u (f u)) : (s.senseChange d line level f).LawfulIf P := by
  unfold State.senseChange
  split
  · rename_i e
    exact h.actOf ((hf _).lawful (h.driveLevel e))
  · exact h

theorem State.LawfulIf.setInput (h : s.LawfulIf P) {i : RailInput} {raw debounced : Bool} {interval : Option Nat} :
    (s.setInput i raw debounced interval).LawfulIf P := by
  cases i <;> exact h

theorem State.LawfulIf.inputRaw (h : s.LawfulIf P) {i : RailInput} {level : Bool} : (s.inputRaw i level).LawfulIf P := by
  unfold State.inputRaw
  split
  split
  · exact h
  · exact h.setInput

theorem State.LawfulIf.inputLevel (h : s.LawfulIf P) {i : RailInput} {level : Bool} (e : s.inputLevel i level = some t) : t.LawfulIf P := by
  unfold State.inputLevel at e
  split at e
  split at e <;> cases e
  exact h.setInput

theorem State.LawfulIf.inputChange (h : s.LawfulIf P) {i : RailInput} {level : Bool} {f : State → State} (hf : ∀ u, Keeps allLaws u (f u)) :
    (s.inputChange i level f).LawfulIf P := by
  unfold State.inputChange
  split
  · rename_i e
    exact h.actOf ((hf _).lawful (h.inputLevel e))
  · exact h

/-! ### By power-on -/

/-- The part after power-on has the laws of the part, whatever comes in on the pins. -/
theorem State.PartLawful.powerOn {d : Vector Levels 16} {b : Bool} {v : Vector Bool 8} {q : List Instr} : (State.powerOn d b v q).PartLawful := by
  have hz : ∀ z, (State.powerOn d b v q).zone? z = none := by
    intro z
    unfold State.zone?
    by_cases h : z < 8
    · simp [State.powerOn, h]
    · simp [State.powerOn, h]
  have hh : ∀ a z, (State.powerOn d b v q).holds a z = false := fun a z => by simp [State.holds, hz]
  refine ⟨fun a e => ?_, fun x e => ?_, fun r hr => absurd hr List.not_mem_nil, State.PromptsPaired.empty rfl rfl, RailLawful.of (fun y z h => ?_) (fun a => ?_)⟩
  · have : ((State.powerOn d b v q).arm a).gripper = .empty := by cases a <;> rfl
    rw [this]
    simp [State.locOf, State.vol?, State.powerOn, lookup]
  · have : ((State.powerOn d b v q).drive x).volume = none := by simp [State.powerOn, State.drive, mapVec, Drive.powerOn]
    rw [this]
    simp [State.locOf, State.vol?, State.powerOn, lookup]
  · rw [hh] at h; cases h
  · have h1 : ((State.powerOn d b v q).arm a).state = .unhomed := by cases a <;> rfl
    have h2 : ((State.powerOn d b v q).arm a).outstanding = none := by cases a <;> rfl
    have h3 : (State.powerOn d b v q).waitingFrames a = [] := by cases a <;> rfl
    refine ⟨fun z h => ?_, fun h => absurd h1 h, fun _ => ⟨hh a, by cases a <;> rfl, h2, h3⟩, fun l v lo hi h => ?_, fun l h => ?_, fun c h => absurd h List.not_mem_nil, fun h => ?_⟩
    · rw [hh] at h; cases h
    · rw [h2] at h; cases h
    · rw [h3] at h; cases h
    · rw [h1] at h; cases h

theorem State.LawfulIf.powerOn {d : Vector Levels 16} {b : Bool} {v : Vector Bool 8} {q : List Instr} : (State.powerOn d b v q).LawfulIf P := by
  refine ⟨?_, ?_, ?_, ?_, fun _ => PartLawful.powerOn⟩
  · exact ⟨List.Pairwise.nil, List.Pairwise.nil, List.nodup_nil, List.Pairwise.nil, fun x hx => absurd hx List.not_mem_nil⟩
  · exact ⟨List.pairwise_singleton _ _, List.nodup_singleton _, List.mem_singleton.mpr rfl⟩
  · exact ⟨Nat.zero_le _, List.nodup_nil, List.not_mem_nil⟩
  · exact ⟨Nat.zero_le _, Nat.zero_le _, Nat.zero_le _, Nat.zero_le _, Nat.zero_le _⟩

end Sys2Proof.Machine
end

