-- ==== Sys2Proof/Tests/Slice0.lean ====
section
/-! SUPPORT. The model's own tests: ill-formed commands that the check refuses, one small step for each command, and for each statement a state and
operands that meet its hypotheses. -/

namespace Sys2Proof.Machine.Tests

set_option Elab.async false

/-! ### Small states -/

/-- A step's next state. -/
def after (c : Instr) (s : State) : State :=
  match exec c s with
  | .next t => t
  | .fault _ | .refused _ => s

/-- The message on the system line after a command. -/
def answers (c : Instr) (s : State) : Option OutMsg := (after c s).port.sending.map (·.msg)

/-- A name padded with spaces. -/
def padded (n : Nat) (cs : List Char) : Text := ascii cs ++ List.replicate (n - cs.length) space

def serialA : Text := padded 6 ['V', 'O', 'L', '1']
def serialB : Text := padded 6 ['V', 'O', 'L', '2']
def blankCode : Text := List.replicate 8 space
def volumeA : Volume := ⟨serialA, some 100, .home, .own, none, .unknown, 0, none, 0, false⟩
def scratchB : Volume := ⟨serialB, some 200, .home, .scratch 1, none, .unknown, 0, none, 0, false⟩

/-- In service: both arms idle at their ends, two volumes at home, drive 3 installed at column 8. -/
def active : State :=
  ({ State.reset with
    svc := ⟨.active, false, false, false⟩
    dir := { State.reset.dir with entries := [(5, volumeA), (6, scratchB)] }
    sch := { State.reset.sch with
      armA := { Arm.powerOn 0 with state := .idle }
      armB := { Arm.powerOn 31 with state := .idle }
      zones := (State.reset.sch.zones.set 0 (some ⟨.armA, .standing⟩)).set 7 (some ⟨.armB, .standing⟩) } }).updDrive 3
    (fun x => { x with installed := true, column := 8, densities := ⟨true, true, true⟩, online := true, debounce := 5 })

/-- The same in another service state. -/
def inService (st : SvcState) : State := { active with svc := { active.svc with state := st } }

def fieldsA : RequestFields := ⟨7, serialA, 0, 0xFF, 0, 3, 1, blankCode⟩
def fieldsDrive : RequestFields := { fieldsA with drive := 3 }

/-- A request of its fields in a state, naming volume 5. -/
def requestIn (st : ReqState) : Request := { active.newRequest .mount fieldsA with state := st, volume := some 5 }

/-- A live request in a state, with a prompt of a kind, number 4, naming it. -/
def prompted (kind : PromptKind) (resume : ReqState) : State :=
  { active with
    ms := ⟨[{ requestIn .prompted with resume := some resume, prompt := some 4 }]⟩
    pr := { active.pr with
      list := [Prompt.mk 4 kind (some 7) (some 5) none none none 0xFF 0 0 false (some 600)
        (if kind = .ringNeeded then some .awaitReply else none) false]
      counter := 5 } }

/-- Drive 3 in a state, with volume 5 on it and a claim of request 7. -/
def onDrive (s : State) (st : DriveState) : State :=
  ({ s with
    ms := ⟨s.ms.queue.map (fun r : Request => { r with claimed := some 3 })⟩
    dir := { s.dir with entries := [(5, { volumeA with loc := .inDrive 3 }), (6, scratchB)] }
    acc := { s.acc with reserved := 1 } }).updDrive 3 (fun x => { x with
      state := st, volume := some 5, claim := some ⟨some 7, 0, 0, true, false, false, false, false, none, none, false⟩ })

/-- The same with its session open. -/
def inSession (s : State) (st : DriveState) : State :=
  (onDrive s st).updDrive 3 (fun x => { x with session := some ⟨0, 0, false, false, false⟩, sense := ⟨true, false, true⟩, raw := ⟨true, false, true⟩ })

/-- An interval of a line of drive 3 runs towards a level. -/
def sensing (s : State) (line : SenseLine) (level : Bool) : State :=
  s.updDrive 3 (fun x => { x with
    raw := x.raw.put line level, sense := x.sense.put line (!level), intervals := x.intervals.put line (some 5) })

/-- An equipment prompt, number 4. -/
def equipmentPrompt (kind : PromptKind) (drive : Option (Fin 16)) (arm : Option ArmId) (p : Option (Fin 8)) : Prompt :=
  ⟨4, kind, none, none, drive, arm, p, 0xFF, 0, 0, false, some 300, none, false⟩

/-- A state with one prompt. -/
def prompting (s : State) (p : Prompt) : State := { s with pr := { s.pr with list := [p], counter := 5 } }

/-- Arm A with a leg outstanding. -/
def working (l : Leg) (volume : Option Nat) (lo hi : Nat) : State :=
  active.updArm .armA (fun x => { x with state := .running, outstanding := some (.leg l volume lo hi) })

/-- Arm A with a limit running in a state. -/
def waitingFor (st : ArmState) (o : Outstanding) : State :=
  active.updArm .armA (fun x => { x with state := st, outstanding := some o })

def report (loaded : Byte) (reading : Byte) (serial : Text) : LegReport := ⟨loaded, reading, serial⟩
def noSerial : Text := List.replicate 6 space

/-! ### Ill-formed commands -/

theorem test_wf_request_serial : (Instr.mount { fieldsA with serial := [] }).wf = false := by decide
theorem test_wf_request_account : (Instr.eject { fieldsA with account := [0x41] }).wf = false := by decide
theorem test_wf_request : (Instr.scratch fieldsA).wf = true := by decide
theorem test_wf_label : (Instr.label 3 [0x41]).wf = false := by decide
theorem test_wf_short_request_long_enough : (Instr.shortRequest (1 :: List.replicate 21 0)).wf = false := by decide
theorem test_wf_short_request_too_long : (Instr.shortRequest (6 :: List.replicate 239 0)).wf = false := by decide +kernel
theorem test_wf_short_request : (Instr.shortRequest [1, 0, 7]).wf = true := by decide
theorem test_wf_unknown_kind_known : (Instr.unknownRequestKind [5, 0, 7]).wf = false := by decide
theorem test_wf_unknown_kind_no_tag : (Instr.unknownRequestKind [9, 0]).wf = false := by decide
theorem test_wf_unknown_frame_known : (Instr.unknownFrame 3 [1]).wf = false := by decide
theorem test_wf_unknown_frame_request : (Instr.unknownFrame 1 [9]).wf = false := by decide
theorem test_wf_unknown_frame : (Instr.unknownFrame 3 [20]).wf = true := by decide
theorem test_wf_write_entry_too_long : (Instr.writeEntry (List.replicate 239 0)).wf = false := by decide +kernel
theorem test_wf_leg_done : (Instr.legDone .armA (report 0 0 []) 0).wf = false := by decide
theorem test_wf_status_reply : (Instr.statusReply .armA ⟨0, 0, 0, 0, [0x41]⟩).wf = false := by decide
theorem test_no_word_is_a_command : decodeTableWord 8 0x41 = none := by decide

/-! ### One small step for each command -/

theorem test_power_on_reset : (after .powerOnReset active).svc.state = .starting := by decide +kernel
theorem test_byte_received : (after (.byteReceived .system 0xC5 0) State.reset).port.rx = .collecting [] := by decide +kernel
theorem test_byte_received_dropped : (after (.byteReceived .system 0x41 0) State.reset) = State.reset := by decide +kernel
theorem test_gap_timeout :
    (after (.gapTimeout .system) { State.reset with port := { State.reset.port with rx := .collecting [3] } }).port.flags = 0x0400 := by
  decide +kernel
theorem test_frame_sent : (after .frameSent (after .readClock State.reset)).port.sending = none := by decide +kernel
theorem test_arm_frame_sent :
    ((after (.armFrameSent .armA) (active.setArmPort .armA ⟨.hunting, some .stop, [.status]⟩)).arm .armA).outstanding = some (.status active.statusLimit) := by
  decide +kernel
theorem test_mount : answers (.mount fieldsA) active = some (.reply 7 (.accepted 1) false) := by decide +kernel
theorem test_mount_goes_for_its_volume : ((after (.mount fieldsA) active).drive 3).state = .claimed := by decide +kernel
theorem test_scratch : ((after (.scratch { fieldsA with pool := 1 }) active).ms.queue.map (·.volume)) = [some 6] := by decide +kernel
theorem test_demount_refused : answers (.demount fieldsDrive) active = some (.reply 7 (.refused .notMounted) false) := by decide +kernel
theorem test_demount :
    answers (.demount fieldsDrive) ((inSession active .loaded).updDrive 3 (fun x => { x with claim := none })) =
      some (.reply 7 (.accepted 1) false) := by decide +kernel
theorem test_eject : ((after (.eject fieldsA) active).sch.pool.map (·.kind)) = [.eject] := by decide +kernel
theorem test_cancel :
    (after (.cancel 7) { active with ms := ⟨[requestIn .waitVolume]⟩ }).port.replyOwed = [(7, .cancelled)] := by decide +kernel
theorem test_cancel_unknown : answers (.cancel 8) active = some (.reply 8 (.refused .notFound) false) := by decide +kernel
theorem test_label :
    answers (.label 3 serialA) ((inSession { active with ms := ⟨[requestIn .verify]⟩ } .loaded).updDrive 3 (fun x => { x with labelTimer := some 60 })) =
      some (.reply 7 (.mounted 3 serialA false) true) := by decide +kernel
theorem test_short_request : answers (.shortRequest [1, 0, 7]) active = some (.reply 7 (.refused .badField) false) := by decide +kernel
theorem test_unknown_request_kind :
    answers (.unknownRequestKind [9, 0, 7]) active = some (.reply 7 (.refused .badField) false) := by decide +kernel
theorem test_unknown_frame : answers (.unknownFrame 9 [0x55]) active = some (.response 0 true 2 0x55 [] false) := by decide +kernel
theorem test_select : answers (.select 13 2 0) active = some (doneOf 1 [0, 51]) := by decide +kernel
theorem test_read_entries_not_selected : answers (.readEntries 1) active = some (refusedOf 2 24) := by decide +kernel
theorem test_write_entry :
    (after (.writeEntry [0, 0, 0, 99]) (after .frameSent (after (.select 13 1 0) active))).port.cursors[(12 : Fin 13)].index = 2 ∨
      answers (.writeEntry [0, 0, 0, 99]) (after .frameSent (after (.select 13 1 0) active)) = some (refusedOf 3 5) := by decide +kernel
theorem test_clear_table : answers .clearTable active = some (refusedOf 4 24) := by decide +kernel
theorem test_start : ((after .start State.reset).svc.state, ((after .start State.reset).arm .armA).state) = (.homing, .homing) := by
  decide +kernel
theorem test_quiesce : (after .quiesce active).svc.state = .quiesced := by decide +kernel
theorem test_resume : answers .resume active = some (refusedOf 7 17) := by decide +kernel
theorem test_resume_from_quiesced : (after .resume (inService .quiesced)).svc.state = .resuming := by decide +kernel
theorem test_link_reset : (after .linkReset active).port.resetting = true := by decide +kernel
theorem test_reset_takes_hold :
    (after .resetTakesHold { active with
      port := { active.port with resetting := true, sending := some ⟨.response 0 true 0 8 [1] true, 0⟩ } }).svc.state = .homing := by
  decide +kernel
theorem test_audit : (after (.audit 0 63) active).aud.state = .running := by decide +kernel
theorem test_set_clock : answers (.setClock 0x01020304) active = some (doneOf 10 [1, 2, 3, 4]) := by decide +kernel
theorem test_read_clock : answers .readClock active = some (doneOf 11 [0, 0, 0, 0]) := by decide +kernel
theorem test_event_mask : (after (.eventMask 0xFFFF) active).port.mask = 0x1FFF := by decide +kernel
theorem test_event_clear : answers (.eventClear 0xFFFF) active = some (doneOf 13 [0, 0]) := by decide +kernel
theorem test_read_events : answers .readEvents State.reset = some (doneOf 14 [0, 0, 0x1F, 0xFF, 0]) := by decide +kernel
theorem test_read_records : answers (.readRecords 1) active = some (doneOf 15 [0, 0, 0, 0, 0, 0, 0]) := by decide +kernel
theorem test_release_records : answers (.releaseRecords 1) active = some (doneOf 16 [0, 0, 0, 0, 0, 0, 0, 0]) := by decide +kernel
theorem test_reset_counters : answers (.resetCounters 9) active = some (refusedOf 17 15) := by decide +kernel
theorem test_arm_service_out : ((after (.armServiceOut 0) active).arm .armA).leaveMark = true := by decide +kernel
theorem test_arm_service_in :
    ((after (.armServiceIn 0) (active.updArm .armA (fun x => { x with state := .outOfService }))).arm .armA).state = .homing := by
  decide +kernel
theorem test_drive_service_offline : ((after (.driveServiceOffline 3) active).drive 3).state = .offline := by decide +kernel
theorem test_drive_service_online :
    ((after (.driveServiceOnline 3) (active.updDrive 3 (fun x => { x with state := .offline, online := false }))).drive 3).state = .empty := by
  decide +kernel
theorem test_panel_character : (after (.panelCharacter 0x61) active).pr.held = [0x41] := by decide +kernel
theorem test_panel_line : (after (.panelLine (typed (ascii ['l', 'i', 's', 't']))) active).pr.sending = some (Answer.accepted.text ++ lineEnd) := by
  decide +kernel
theorem test_ack : ((after (.ack 4) (prompted .volumeLost .waitVolume)).pr.list.map (·.acked)) = [true] := by decide +kernel
theorem test_ack_all : ((after .ackAll (prompted .volumeLost .waitVolume)).pr.list.map (·.timer)) = [none] := by decide +kernel
theorem test_list : ((after .list (prompted .volumeLost .waitVolume)).pr.list.map (·.lineOwed)) = [true] := by decide +kernel
theorem test_panel_quiesce : (after .panelQuiesce active).svc.state = .quiesced := by decide +kernel
theorem test_panel_resume : (after .panelResume (inService .quiesced)).svc.state = .resuming := by decide +kernel
theorem test_manual_mount_done :
    ((after (.manualMountDone 4) (onDrive (prompted .manualMount .loading) .claimed)).drive 3).loadTimer.isSome = true := by decide +kernel
theorem test_manual_mount_cancel :
    answers (.manualMountCancel 4) (prompted .manualMount .loading) = some (.reply 7 (.failed .operatorCancel) true) := by decide +kernel
theorem test_ring_needed_fit :
    ((after (.ringNeededFit 4) (inSession (prompted .ringNeeded .loading) .loaded)).drive 3).state = .unloading := by decide +kernel
theorem test_ring_needed_readonly :
    answers (.ringNeededReadonly 4) (inSession (prompted .ringNeeded .loading) .loaded) =
      some (.reply 7 (.mounted 3 serialA true) true) := by decide +kernel
theorem test_ring_needed_cancel :
    ((after (.ringNeededCancel 4) (inSession (prompted .ringNeeded .loading) .loaded)).ms.queue.map (·.pending)) = [some (.failed .ring)] := by
  decide +kernel
theorem test_label_mismatch_accept :
    answers (.labelMismatchAccept 4) (inSession (prompted .labelMismatch .verify) .loaded) =
      some (.reply 7 (.mounted 3 serialA false) true) := by decide +kernel
theorem test_label_mismatch_reject :
    ((after (.labelMismatchReject 4) (inSession (prompted .labelMismatch .verify) .loaded)).ms.queue.map (·.pending)) =
      [some (.failed .label)] := by decide +kernel
theorem test_volume_suspect_proceed :
    ((after (.volumeSuspectProceed 4) (prompted .volumeSuspect .waitDrive)).ms.queue.map (·.proceeded)) = [some 5] := by decide +kernel
theorem test_volume_suspect_cancel :
    answers (.volumeSuspectCancel 4) (prompted .volumeSuspect .waitDrive) = some (.reply 7 (.failed .operatorCancel) true) := by
  decide +kernel
theorem test_volume_lost_found :
    ((after (.volumeLostFound 4) (prompted .volumeLost .waitVolume)).ms.queue.map (·.prompt)) = [none] := by decide +kernel
theorem test_volume_lost_cancel :
    answers (.volumeLostCancel 4) (prompted .volumeLost .waitVolume) = some (.reply 7 (.failed .volumeLost) true) := by decide +kernel
theorem test_scratch_empty_done :
    ((after (.scratchEmptyDone 4) (prompted .scratchEmpty .waitVolume)).ms.queue.map (·.reason)) = [some .pool] := by decide +kernel
theorem test_scratch_empty_cancel :
    answers (.scratchEmptyCancel 4) (prompted .scratchEmpty .waitVolume) = some (.reply 7 (.failed .noScratch) true) := by decide +kernel
theorem test_station_unknown_done :
    (after (.stationUnknownDone 4) (prompting active (equipmentPrompt .stationUnknown none none (some 2)))).pr.list = [] := by decide +kernel
theorem test_drive_check_done :
    ((after (.driveCheckDone 4) (prompting (onDrive active .check) (equipmentPrompt .driveCheck (some 3) none none))).drive 3).state =
      .empty := by decide +kernel
/-- A DEMOUNT in RELEASING whose drive stands in CHECK with the tape loaded and its session open. -/
def demountInCheck : State :=
  prompting ((inSession { active with ms := ⟨[{ active.newRequest .demount { fieldsDrive with tag := 9 } with
    state := .releasing, pending := some (.demounted 3) }]⟩ } .check).updDrive 3 (fun x => { x with
      claim := x.claim.map (fun c : Claim => { c with tag := none }) })) (equipmentPrompt .driveCheck (some 3) none none)
theorem test_check_done_unloads_for_a_demount :
    ((after (.driveCheckDone 4) demountInCheck).drive 3).state = .unloading := by decide +kernel
theorem test_drive_check_offline :
    ((after (.driveCheckOffline 4) (prompting (onDrive active .check) (equipmentPrompt .driveCheck (some 3) none none))).drive 3).state =
      .offline := by decide +kernel
def armOutside : State :=
  prompting (active.updArm .armA (fun x => { x with state := .outOfService })) (equipmentPrompt .armOut none (some .armA) none)
theorem test_arm_out_done : ((after (.armOutDone 4) armOutside).arm .armA).state = .homing := by decide +kernel
theorem test_arm_out_keep :
    (((after (.armOutKeep 4) armOutside).arm .armA).state, (after (.armOutKeep 4) armOutside).pr.list) = (.outOfService, []) := by
  decide +kernel
theorem test_panel_line_sent : (after .panelLineSent (after .list active)).pr.sending = none := by decide +kernel
theorem test_leg_done_travel :
    ((after (.legDone .armA (report 0 0 noSerial) 50) (working (.travel (some 1)) none 0 100)).arm .armA).column = 1 := by decide +kernel
theorem test_leg_done_pick :
    ((after (.legDone .armA (report 1 0 serialA) 50) (working (.pick (.slot 100)) (some 5) 0 100)).arm .armA).gripper = .volume 5 := by
  decide +kernel
theorem test_leg_fault :
    ((after (.legFault .armA 9 0) (working (.travel (some 1)) none 0 100)).arm .armA).lastFault = some 9 := by decide +kernel
theorem test_home_done :
    ((after (.homeDone .armA 0) (waitingFor .homing (.home 60))).arm .armA).outstanding = some (.status active.statusLimit) := by decide +kernel
theorem test_status_reply :
    ((after (.statusReply .armA ⟨0, 0, 0, 0, noSerial⟩) (waitingFor .homing (.status 10))).arm .armA).state = .idle := by decide +kernel
/-- Arm A at the end of its homing, with the RECOVER of drive 3 on its list. -/
def homingWithRecover : State :=
  let s := waitingFor .homing (.status 10)
  ((s.createCarry .recover (.drive 3) (.station 0) 5 none).map (·.1)).getD s
theorem test_status_reply_holding_takes_its_recover :
    (fun s : State => (s.arm .armA).order.bind (fun n => (s.order? n).map (·.gripperRecover)))
      (after (.statusReply .armA ⟨0, 1, 0, 2, noSerial⟩) homingWithRecover) = some true := by decide +kernel
theorem test_leg_timeout :
    ((after (.legTimeout .armA) (working (.travel (some 1)) none 0 100)).arm .armA).state = .statusWait := by decide +kernel
theorem test_home_timeout : ((after (.homeTimeout .armA) (waitingFor .homing (.home 60))).arm .armA).state = .outOfService := by decide +kernel
theorem test_status_timeout :
    ((after (.statusTimeout .armA) (waitingFor .statusWait (.status 10))).arm .armA).state = .outOfService := by decide +kernel
theorem test_linger_expiry :
    ((after (.lingerExpiry .armA) (active.updArm .armA (fun x => { x with linger := some 20 }))).arm .armA).linger = none := by decide +kernel
theorem test_drive_raw_change : ((after (.driveRawChange 3 .loaded true) active).drive 3).intervals.loaded = some 5 := by decide +kernel
theorem test_loaded_rise : ((after (.loadedRise 3) (sensing active .loaded true)).drive 3).state = .unmanaged := by decide +kernel
theorem test_loaded_fall :
    ((after (.loadedFall 3) (sensing (inSession active .loaded) .loaded false)).drive 3).state = .unloading := by decide +kernel
theorem test_released_rise :
    ((after (.releasedRise 3) (sensing (inSession active .unloading) .released true)).acc.records.map (·.outcome)) = [.completed] := by
  decide +kernel
theorem test_released_fall :
    ((after (.releasedFall 3) (sensing (active.setDriveState 3 .unmanaged) .released false)).drive 3).state = .empty := by decide +kernel
theorem test_protect_change :
    ((after (.protectChange 3) (sensing (inSession active .loaded) .protect false)).vol? 5).map (·.ring) = some .fitted := by decide +kernel
theorem test_pulse_end : ((after (.pulseEnd 3) (active.startPulse 3 .load)).drive 3).pulse = none := by decide +kernel
theorem test_load_timer_expiry :
    (((after (.loadTimerExpiry 3) ((onDrive active .placed).startLoadTimer 3 0)).drive 3).pulse.map (·.1)) = some .load := by decide +kernel
theorem test_release_timer_expiry :
    ((after (.releaseTimerExpiry 3) ((inSession active .unloading).startReleaseTimer 3)).drive 3).state = .check := by decide +kernel
theorem test_label_timer_expiry :
    ((after (.labelTimerExpiry 3) ((inSession { active with ms := ⟨[requestIn .verify]⟩ } .loaded).startLabelTimer 3)).ms.queue.map (·.pending)) =
      [some (.failed .noLabel)] := by decide +kernel
theorem test_wait_timer_expiry :
    answers (.waitTimerExpiry 7) { active with ms := ⟨[{ requestIn .waitVolume with timer := some 60 }]⟩ } =
      some (.reply 7 (.failed .timedOut) true) := by decide +kernel
theorem test_escalation_expiry : ((after (.escalationExpiry 4) (prompted .volumeLost .waitVolume)).pr.list.map (·.level)) = [1] := by
  decide +kernel
theorem test_phase_timer_expiry :
    (after (.phaseTimerExpiry .lamp) { active with att := ⟨⟨some 0, .blink 10 10, .on, some 10⟩, AttnUnit.powerOn⟩ }).att.lamp.phase = .off := by
  decide +kernel
theorem test_input_raw_change : (after (.inputRawChange .door false) active).mon.doorInterval.isSome = true := by decide +kernel

/-- The door with its interval running towards a level. -/
def doorTo (s : State) (level : Bool) : State :=
  { s with mon := { s.mon with doorRaw := level, doorClosed := !level, doorInterval := some 5 } }

/-- A presence input with its interval running towards a level. -/
def presenceTo (s : State) (p : Fin 8) (level : Bool) : State :=
  s.updStation p (fun x => { x with raw := level, presence := !level, interval := some 5 })

theorem test_door_opening :
    ((after .doorOpening (doorTo active false)).svc.state, ((after .doorOpening (doorTo active false)).arm .armA).state) =
      (.interrupted, .faulted) := by decide +kernel
theorem test_door_closing : (after .doorClosing (doorTo (inService .interrupted) true)).svc.state = .resuming ∨
    (after .doorClosing (doorTo (inService .interrupted) true)).svc.state = .active := by decide +kernel
theorem test_presence_rise : ((after (.presenceRise 2) (presenceTo active 2 true)).station 2).presence = true := by decide +kernel
theorem test_presence_fall :
    ((after (.presenceFall 2) ((presenceTo active 2 false).updStation 2 (fun x => { x with volume := some 5 }))).vol? 5).map (·.loc) =
      some .outside := by decide +kernel
/-- A fall at a position whose lifted mark had it counted as empty frees it all the same (R155, R160). -/
theorem test_lifted_fall_frees :
    let s := active.updStation 2 (fun x => { x with lifted := true })
    (s.positionFree 2, (s.onPresenceFall 2).positionFree 2, (s.onPresenceFall 2).notices.contains .walk) = (true, true, true) := by decide +kernel
/-- A retry whose volume has turned MISSING asks for VOLUME_LOST in place of WAIT_DRIVE (R75). -/
theorem test_missing_retry :
    let r := { requestIn .returning with after := some .retried }
    let s := { active with ms := { active.ms with queue := [r] } }
    (((s.relocate 5 .missing).endPutAway 7).ms.queue.map (·.state), (s.endPutAway 7).ms.queue.map (·.state)) =
      ([.prompted], [.waitDrive]) := by decide +kernel
/-- A request whose volume is in an arm is granted its claim, and waits for the volume with it (R63, R64). -/
theorem test_granted_in_arm :
    let s := { active with ms := { active.ms with queue := [requestIn .waitDrive] } }
    ((s.relocate 5 (.inArm .armA)).examine 7).ms.queue.map (fun r => (r.state, r.reason, r.claimed.isSome)) =
      [(.waitArm, some .volume, true)] := by decide +kernel
theorem test_clock_second : (after .clockSecond State.reset).port.clock = 1 := by decide +kernel

/-! ### For each statement, a state and operands that meet its hypotheses -/

/-- A computation answered a next state. -/
def goesOn (o : Host.Outcome State Fault Refusal) : Bool :=
  match o with
  | .next _ => true
  | .fault _ | .refused _ => false

/-- The premises on a whole state, as tests. -/
def free (s : State) : Bool := decide s.Free
def settled (s : State) : Bool := decide s.Settled
def lawful (s : State) : Bool := decide s.Lawful

/-- A state whose condition-bound flags stand as their conditions do. -/
def calm (s : State) : State := { s with port := { s.port with flags := s.conditionFlags } }

/-- The system line sends a NOTICE. -/
def busy (s : State) : State := { s with port := { s.port with sending := some ⟨.notice, 0⟩ } }

/-- A table is selected, its cursor at an index. -/
def selected (t : Fin 13) (index : Nat) (wrap : Bool) : State :=
  { active with port := { active.port with cursors := active.port.cursors.set t ⟨index, wrap⟩, current := some t } }

theorem test_step_settles_premises :
    settled active = true ∧ active.BufferFits ∧ settled ({ active with pending := [.readClock] } : State) = true ∧
      goesOn (step { active with pending := [.readClock] }) = true := by decide +kernel

theorem test_step_keeps_laws_premises :
    lawful ({ active with pending := [.clearTable] } : State) = true ∧ goesOn (step { active with pending := [.clearTable] }) = true := by
  decide +kernel

theorem test_step_keeps_part_laws_premises :
    lawful ({ State.reset with pending := [.start] } : State) = true ∧ goesOn (step { State.reset with pending := [.start] }) = true := by
  decide +kernel

theorem test_reset_has_part_laws : State.PartLawful { State.reset with pending := [.start] } := State.PartLawful.powerOn

theorem test_inner_commands_premises :
    isInner .list = true ∧ settled active = true ∧ Canonical active.dir.entries ∧ Canonical active.acc.accounts ∧
      goesOn (exec .list active) = true ∧ isInner .clockSecond = true := by decide +kernel

theorem test_frames_round_trip_premises :
    (SysFrame.request .mount fieldsA).wf = true ∧ (SysFrame.label 3 serialA).wf = true ∧ (SysFrame.controlShort 1).wf = true ∧
      (SysFrame.writeEntry []).wf = true ∧ (SysFrame.requestUnknown 0xFFFF).wf = true := by decide

theorem test_whole_frames_premises :
    ([] : List Byte).length ≤ maxBody ∧ (List.replicate 239 (0 : Byte)).length ≤ maxBody ∧ 0 < 242 ∧
      242 < (List.replicate 239 (0 : Byte)).length + 4 := by decide +kernel

theorem test_bytes_act_premises :
    (Instr.mount fieldsA).wf = true ∧ (sentBy (.mount fieldsA)).isSome = true ∧ settled active = true ∧ active.BufferFits ∧
      active.port.rx = .hunting ∧ (Instr.unknownFrame 0 [0]).wf = true ∧ sentBy (.unknownFrame 0 [0]) = some (0, [0]) := by
  decide +kernel

theorem test_hunting_premises :
    settled active = true ∧ active.rx .system = .hunting ∧ active.rx (.arm .armB) = .hunting ∧ (0 : Byte) ≠ 0xC5 ∧
      settled (active.setRx .system (.collecting [])) = true ∧ (active.setRx .system (.collecting [])).rx .system = .collecting [] ∧
      (240 < (241 : Byte).toNat) ∧ (0 < (1 : Byte).toNat) ∧ (240 : Byte).toNat ≤ 240 ∧
      (active.setRx (.arm .armA) (.collecting [4])).rx (.arm .armA) = .collecting [4] := by decide +kernel

/-- Four frames wait behind the line and an answer. -/
def fullBuffer (n : Nat) (answers : List OutMsg) : State :=
  { busy active with port := { (busy active).port with buffer := List.replicate n .readClock, immediate := answers } }

theorem test_frames_behind_premises :
    Instr.readClock.wf = true ∧ (sentBy .readClock).isSome = true ∧ settled (fullBuffer 4 [.notice]) = true ∧
      (fullBuffer 4 [.notice]).port.buffer.length = 4 ∧ settled (fullBuffer 3 [.notice]) = true ∧
      (fullBuffer 3 [.notice]).port.immediate ≠ [] ∧ settled (after .linkReset active) = true ∧
      (after .linkReset active).port.resetting = true ∧ settled (busy active) = true ∧ (busy active).port.sending ≠ none ∧
      (busy active).port.immediate = [] ∧ (busy active).port.resetting = false := by decide +kernel

theorem test_no_command_premises :
    free active = true ∧ (Instr.shortRequest [6, 0, 0]).wf = true ∧ (Instr.shortRequest [1, 0, 7]).wf = true ∧
      (Instr.unknownRequestKind [0, 0xFF, 0xFF]).wf = true ∧ active.svc.state ≠ .starting ∧ active.request? 0xFFFF = none ∧
      active.ms.queue.length < 64 ∧ (Instr.unknownFrame 3 [1]).wf = false ∧ (Instr.unknownFrame 0xFF [1]).wf = true := by decide +kernel

theorem test_free_premises : free active = true ∧ free State.reset = true ∧ settled State.reset = true := by decide +kernel

theorem test_select_premises :
    free active = true ∧ (2047 : Half).toNat < tableSizes.getD 0 0 ∧ (50 : Half).toNat < tableSizes.getD 12 0 ∧ (2 : Half).toNat < tableSizes.getD 6 0 ∧
      (0 : Byte).toNat = 0 ∧ 13 < (14 : Byte).toNat ∧ 1 < (2 : Byte).toNat ∧ tableSizes.getD ((13 : Byte).toNat - 1) 0 ≤ (51 : Half).toNat := by
  decide +kernel

theorem test_read_entries_premises :
    free active = true ∧ active.port.current = none ∧ free (selected 12 51 false) = true ∧ (selected 12 51 false).port.current = some 12 ∧
      (selected 12 51 false).port.cursors[(12 : Fin 13)] = ⟨51, false⟩ ∧ free (selected 4 0 true) = true ∧
      (selected 4 0 true).port.cursors[(4 : Fin 13)] = ⟨0, true⟩ ∧ (0 : Byte).toNat < 1 ∧ 8 < (9 : Byte).toNat ∧ 1 ≤ (1 : Byte).toNat ∧
      (8 : Byte).toNat ≤ 8 := by decide +kernel

theorem test_parts_premises : ([] : List Byte).length < 25000 ∧ (List.replicate 234 (0 : Byte)).length ≤ 234 := by decide +kernel

theorem test_write_refusal_premises :
    free active = true ∧ active.port.current = none ∧ free (selected 11 0 false) = true ∧ (11 : Fin 13) ∈ ([1, 4, 5, 6, 7, 10, 11] : List (Fin 13)) ∧
      free (selected 0 2048 false) = true ∧ (0 : Fin 13) ∈ ([0, 2, 3, 8, 9, 12] : List (Fin 13)) ∧
      tableSizes.getD 0 0 ≤ (selected 0 2048 false).port.cursors[(0 : Fin 13)].index := by decide +kernel

/-- A second account in use, with one drive in use. -/
def accountX : Account := ⟨padded 8 ['X'], false, 16, 1, 0, 0, 0, 0, 0⟩
def twoAccounts (index : Nat) (inUse : Nat) : State :=
  { selected 9 index false with acc := { active.acc with accounts := active.acc.accounts ++ [(63, { accountX with inUse := inUse })] } }

theorem test_account_write_premises :
    free (twoAccounts 63 1) = true ∧ (twoAccounts 63 1).port.current = some 9 ∧ (twoAccounts 63 1).port.cursors[(9 : Fin 13)].index = 63 ∧
      (padded 8 ['X']).length = 8 ∧ (twoAccounts 63 1).account? 63 = some accountX ∧ 0 < accountX.inUse ∧
      isPaddedName (padded 8 ['X']) = true ∧ padded 8 ['Y'] ≠ accountX.code ∧
      free (twoAccounts 0 0) = true ∧ (twoAccounts 1 0).account? 1 = none ∧
      (∃ x ∈ (twoAccounts 1 0).acc.accounts, x.1 ≠ 1 ∧ x.2.code = padded 8 ['X']) ∧
      (¬∃ x ∈ (twoAccounts 1 0).acc.accounts, x.1 ≠ 1 ∧ x.2.code = padded 8 ['Z']) ∧ (List.replicate 21 (0 : Byte)).length = 21 := by
  decide +kernel

theorem test_template_setting_premises :
    free (selected 8 31 false) = true ∧ (selected 8 31 false).port.cursors[(8 : Fin 13)].index < 32 ∧ ([0x41] : List Byte).length = (1 : Byte).toNat ∧
      free (selected 12 25 false) = true ∧ (selected 12 25 false).port.cursors[(12 : Fin 13)].index < 26 ∧
      free (selected 12 50 true) = true ∧ (selected 12 50 true).port.cursors[(12 : Fin 13)].index < 51 ∧
      (selected 12 50 true).writtenSetting 50 [] = none ∧ ((selected 12 50 true).writtenSetting 50 [0, 0, 31, 0]).isSome = true := by
  decide +kernel

/-- The fields of a directory entry: a serial, and a home slot as two bytes. -/
def entryFields (serial : Text) (hi lo : Byte) : List Byte :=
  serial ++ [hi, lo, 0, 0, 0, 0, 0, 3, 2] ++ List.replicate 16 0

theorem test_directory_write_premises :
    free (selected 0 5 false) = true ∧ lawful (selected 0 5 false) = true ∧ free (selected 0 2047 false) = true ∧ lawful (selected 0 2047 false) = true ∧
      (selected 0 2047 false).protected? 2047 = false ∧ (selected 0 5 false).protected? 5 = false ∧
      free (onDrive (selected 0 5 false) .placed) = true ∧ lawful (onDrive (selected 0 5 false) .placed) = true ∧
      (onDrive (selected 0 5 false) .placed).protected? 5 = true ∧ 27 ≤ (List.replicate 27 (0 : Byte)).length ∧
      writtenVolume (List.replicate 27 0) = none ∧ 1 < (2 : Byte).toNat := by decide +kernel

theorem test_directory_written_premises :
    (writtenVolume (entryFields serialA 0 7)).isSome = true ∧ (entryFields serialA 0 7).length ≥ 27 ∧
      ((writtenVolume (entryFields serialA 0 7)).map (·.serial)) = some serialA ∧
      (∃ x ∈ (selected 0 9 false).dir.entries, x.1 ≠ 9 ∧ x.2.serial = serialA) ∧
      ((writtenVolume (entryFields (padded 6 ['Z']) 0 100)).map ((selected 0 9 false).slotTaken 9)) = some true ∧
      ((writtenVolume (entryFields (padded 6 ['Z']) 0 7)).map ((selected 0 9 false).slotTaken 9)) = some false := by decide +kernel

theorem test_fence_drive_write_premises :
    free (selected 2 7 false) = true ∧ writtenFence [] = none ∧ (writtenFence [7, 1, 0, 100, 7, 0xFF, 2, 1]).isSome = true ∧
      free (selected 3 15 false) = true ∧ (selected 3 15 false).port.cursors[(3 : Fin 13)].index = (15 : Fin 16).val ∧ writtenDrive [] = none ∧
      (writtenDrive ([15, 1, 31, 7, 1] ++ List.replicate 8 0 ++ [1, 0] ++ List.replicate 20 0)).isSome = true ∧ ((selected 3 15 false).drive 15).state = .empty ∧
      free (onDrive (selected 3 3 false) .loaded) = true ∧ ((onDrive (selected 3 3 false) .loaded).drive 3).state ≠ .empty := by decide +kernel

theorem test_clear_table_premises :
    free active = true ∧ free (selected 8 0 false) = true ∧ free (selected 9 0 false) = true ∧
      (∃ x ∈ (twoAccounts 0 1).acc.accounts, 0 < x.2.inUse) ∧ (twoAccounts 0 1).account? 63 = some accountX ∧
      (¬∃ x ∈ (selected 9 0 false).acc.accounts, 0 < x.2.inUse ∨ ∃ r ∈ (selected 9 0 false).ms.queue, r.account = x.1) ∧
      free (selected 2 0 false) = true ∧ free (calm (onDrive (selected 3 0 false) .check)) = true ∧ ((onDrive (selected 3 0 false) .check).drive 3).state ≠ .empty ∧
      ((onDrive (selected 3 0 false) .check).drive 3).state ≠ .offline := by decide +kernel

/-- The line is in use, with answers, final replies and a notice that wait for it. -/
def owing (answers : List OutMsg) (replies : List (Half × Reply)) (notice : Bool) : State :=
  let s := ({ active with ms := ⟨[{ requestIn .finished with outcome := some .cancelled }]⟩ } : State).raise .station
  { busy s with port := { (busy s).port with immediate := answers, replyOwed := replies, noticeOwed := notice } }

theorem test_frame_sent_premises :
    settled active = true ∧ active.port.sending = none ∧ (after .linkReset active).resetAwaited = true ∧ active.resetAwaited = false ∧
      settled (owing [doneOf 3 []] [(7, .cancelled)] true) = true ∧ settled (owing [] [(7, .cancelled)] true) = true ∧ settled (owing [] [] true) = true ∧
      settled (owing [] [] false) = true ∧ (owing [] [] true).port.buffer = [] ∧ (owing [] [] true).port.sending.isSome = true ∧
      (owing [] [] true).resetAwaited = false ∧ (owing [] [] true).port.noticeOwed = true := by decide +kernel

theorem test_link_reset_premises :
    free active = true ∧ free (inService .starting) = true ∧ free (inService .quiesced) = true ∧ free (inService .interrupted) = true ∧ free (inService .homing) = true ∧
      free (inService .quiescing) = true ∧ free (inService .resuming) = true := by decide +kernel

/-- A panel line is being sent. -/
def panelBusy (s : State) : State := { s with pr := { s.pr with sending := some [0x41] } }

theorem test_link_reset_takes_hold_premises :
    (panelBusy (after .linkReset active)).resetAwaited = true ∧ Canonical active.dir.entries ∧ Canonical active.acc.accounts ∧
      (panelBusy (after .linkReset active)).dir.entries = active.dir.entries ∧
      (panelBusy (after .linkReset active)).pr.sending.isSome = true := by decide +kernel

theorem test_count_premises :
    free active = true ∧ (0 : Byte).toNat < 1 ∧ 16 < (17 : Byte).toNat ∧ 1 ≤ (1 : Byte).toNat ∧ (16 : Byte).toNat ≤ 16 ∧ (0 : Half).toNat < 1 ∧
      256 < (257 : Half).toNat ∧ (256 : Half).toNat ≤ 256 ∧ active.acc.records = [] ∧
      (after (.releasedRise 3) (sensing (inSession active .unloading) .released true)).acc.records ≠ [] ∧
      free (after (.releasedRise 3) (sensing (inSession active .unloading) .released true)) = true := by decide +kernel

theorem test_reset_counters_premises :
    free active = true ∧ (64 : Byte) ≠ 0xFF ∧ 63 < (64 : Byte).toNat ∧ (63 : Byte).toNat ≤ 63 ∧ active.account? 63 = none ∧
      (active.account? 0).isSome = true := by decide +kernel

theorem test_audit_premises :
    free active = true ∧ 2047 < (2048 : Half).toNat ∧ (0 : Half).toNat < (1 : Half).toNat ∧ ¬2047 < (2047 : Half).toNat ∧
      active.svc.state = .active ∧ active.aud.state = .idle ∧ (inService .quiesced).svc.state ≠ .active ∧
      free ({ active with aud := { active.aud with state := .running } } : State) = true := by decide +kernel

/-- Drive 3 in a state, with its sense lines. -/
def driveAt (st : DriveState) (sense : Levels) : State :=
  calm (active.updDrive 3 (fun x => { x with state := st, sense := sense, raw := sense }))

theorem test_arm_drive_service_premises :
    free active = true ∧ 1 < (2 : Byte).toNat ∧ 15 < (16 : Byte).toNat ∧ (active.arm .armA).state ≠ .outOfService ∧
      free (active.updArm .armB (fun x => { x with state := .parked })) = true ∧
      ((active.updArm .armB (fun x => { x with state := .parked })).arm .armB).state = .parked ∧
      free (calm (active.updArm .armB (fun x => { x with state := .outOfService }))) = true ∧ (active.drive 3).state ≠ .check ∧
      free (driveAt .check ⟨false, true, false⟩) = true ∧ ((driveAt .check ⟨false, true, false⟩).drive 3).sense.released = true ∧
      free (driveAt .check ⟨true, false, false⟩) = true ∧ free (driveAt .check ⟨false, false, false⟩) = true ∧
      ((driveAt .check ⟨true, false, false⟩).drive 3).sense.loaded = true := by decide +kernel

theorem test_service_state_premises :
    free (inService .starting) = true ∧ (inService .starting).svc.state = .starting ∧ free active = true ∧ free (inService .homing) = true ∧
      free (inService .resuming) = true ∧ free (inService .quiescing) = true ∧ free (inService .quiesced) = true ∧ free (inService .interrupted) = true := by decide +kernel

/-- Accounts that a request may name: X closed, Y open. -/
def withAccounts (s : State) : State :=
  { s with acc := { s.acc with accounts := s.acc.accounts ++ [(1, { accountX with closed := true }), (2, { accountX with code := padded 8 ['Y'] })] } }

/-- Volume 5 at a location. -/
def volumeAt (l : Loc) : State :=
  { active with dir := { active.dir with entries := [(5, { volumeA with loc := l }), (6, scratchB)] } }

theorem test_request_refusal_premises :
    free (inService .starting) = true ∧ free (inService .quiesced) = true ∧ free ({ active with ms := ⟨[requestIn .queued]⟩ } : State) = true ∧
      (∃ r ∈ ({ active with ms := ⟨[requestIn .queued]⟩ } : State).ms.queue, r.tag = fieldsA.tag) ∧
      free ({ active with ms := ⟨(List.range 64).map (fun n => { requestIn .queued with tag := BitVec.ofNat 16 (n + 100) })⟩ } : State) = true ∧
      ¬goodFields .mount { fieldsA with serial := noSerial } ∧ goodFields .mount fieldsA ∧ goodFields .demount fieldsDrive ∧
      goodFields .scratch { fieldsA with pool := 7 } ∧ goodFields .eject { fieldsA with priority := 3 } := by
  refine ⟨by decide +kernel, by decide +kernel, by decide +kernel, by decide +kernel, by decide +kernel, ?_, ?_, ?_, ?_, ?_⟩ <;>
    (unfold goodFields; decide +kernel)

theorem test_demount_refusal_premises :
    (active.drive 3).state ≠ .loaded ∧ free (inSession active .loaded) = true ∧ ((inSession active .loaded).drive 3).state = .loaded ∧
      (inSession { active with ms := ⟨[requestIn .verify]⟩ } .loaded).claimLive 3 = true ∧
      free (inSession { active with ms := ⟨[requestIn .verify]⟩ } .loaded) = true := by decide +kernel

theorem test_account_refusal_premises :
    free (withAccounts active) = true ∧ isBlank (padded 8 ['Q']) = false ∧ (withAccounts active).accountOf (padded 8 ['Q']) = none ∧
      free ({ active with port := { active.port with settings := active.port.settings.set 35 (.number 1) } } : State) = true ∧
      ((withAccounts active).account? 1).map (·.closed) = some true ∧ (withAccounts active).accountOf (padded 8 ['X']) = some 1 ∧
      active.namedVolume fieldsA = some volumeA ∧ active.namedVolume { fieldsA with serial := padded 6 ['Q'] } = none := by decide +kernel

theorem test_volume_refusal_premises :
    free (volumeAt (.inDrive 3)) = true ∧ free (volumeAt .missing) = true ∧ free (volumeAt .outside) = true ∧
      (volumeAt .outside).namedVolume fieldsA = some { volumeA with loc := .outside } ∧
      active.mountBarred volumeA = false ∧
      ({ active with dir := { active.dir with fences := active.dir.fences.set 0 (some ⟨100, 100, false, true, false, true⟩) } } : State).mountBarred volumeA = true ∧
      (4 : Fin 16).val = ({ fieldsA with drive := 4 } : RequestFields).drive.toNat ∧ (active.drive 4).installed = false := by decide +kernel

theorem test_request_accepted_premises :
    free active = true ∧ active.refusal .mount fieldsA = none ∧ free (inService .homing) = true ∧ (inService .homing).refusal .scratch { fieldsA with pool := 1 } = none ∧
      (inSession active .loaded).refusal .eject { fieldsA with serial := serialB } = none ∧
      ((inSession active .loaded).updDrive 3 (fun x => { x with claim := none })).refusal .demount fieldsDrive = none := by decide +kernel

theorem test_cancel_premises :
    free (inService .starting) = true ∧ active.request? 7 = none ∧ free ({ active with ms := ⟨[requestIn .waitVolume]⟩ } : State) = true ∧
      ({ active with ms := ⟨[requestIn .waitVolume]⟩ } : State).request? 7 = some (requestIn .waitVolume) ∧
      (requestIn .waitVolume).pending = none ∧
      free ({ active with ms := ⟨[{ requestIn .moving with pending := some .cancelled }]⟩ } : State) = true ∧
      settled (busy { active with ms := ⟨[{ requestIn .finished with outcome := some .cancelled }]⟩, port := { active.port with replyOwed := [(7, .cancelled)] } }) = true := by
  decide +kernel

/-- A verifying request whose drive's label timer runs. -/
def verifying : State :=
  (inSession { active with ms := ⟨[{ requestIn .verify with claimed := some 3 }]⟩ } .loaded).updDrive 3 (fun x => { x with labelTimer := some 60 })

theorem test_label_premises :
    free active = true ∧ 15 < (16 : Byte).toNat ∧ isPaddedName noSerial = false ∧ (active.drive 15).labelTimer = none ∧ free verifying = true ∧
      isPaddedName serialA = true ∧ (verifying.drive 3).labelTimer.isSome = true ∧ (verifying.verifying 3).isSome = true ∧
      (verifying.verifying 3).bind (fun r => r.volume.bind verifying.serialOf) = some serialA ∧
      free (active.updDrive 3 (fun x => { x with labelTimer := some 60 })) = true ∧
      (active.updDrive 3 (fun x => { x with labelTimer := some 60 })).verifying 3 = none := by decide +kernel

/-! #### The panel -/

/-- Answers wait for the panel line, and characters are held. -/
def panelWith (answers : Nat) (held : Nat) (tooLong : Bool) : State :=
  { panelBusy active with pr := { (panelBusy active).pr with
    answers := List.replicate answers .accepted, held := List.replicate held 0x41, tooLong := tooLong } }

theorem test_panel_character_premises :
    settled active = true ∧ (31 : BitVec 7).toNat < 32 ∧ (31 : BitVec 7) ≠ 8 ∧ (31 : BitVec 7) ≠ 13 ∧ 32 ≤ (32 : BitVec 7).toNat ∧
      (126 : BitVec 7).toNat < 127 ∧ settled (panelWith 0 39 false) = true ∧ (panelWith 0 39 false).pr.held.length < 40 ∧
      settled (panelWith 0 40 true) = true ∧ 40 ≤ (panelWith 0 40 true).pr.held.length ∧ settled (panelWith 4 0 false) = true ∧
      4 ≤ (panelWith 4 0 false).pr.answers.length ∧ (panelWith 3 40 true).pr.answers.length < 4 ∧ (panelWith 3 40 true).pr.tooLong = true ∧
      active.pr.tooLong = false ∧ (∀ b ∈ active.pr.held, b = space) ∧ (∀ c ∈ typed (ascii ['L', 'I', 'S', 'T']), c ≠ 13) := by
  decide +kernel

/-- The one prompt's line has been sent: nothing waits for the panel line, and the flags stand as they must. -/
def quiet (s : State) : State :=
  calm { s with pr := { s.pr with list := s.pr.list.map (fun p : Prompt => { p with lineOwed := false }) } }

theorem test_typed_lines_premises :
    active.pr.held = [] ∧ active.pr.tooLong = false ∧ (prompted .labelMismatch .verify).pr.held = [] ∧
      ((prompted .labelMismatch .verify).prompt? 4).map (·.kind) = some .labelMismatch ∧ active.prompt? 99 = none ∧ 99 < 100 := by
  decide +kernel

theorem test_panel_answers_premises :
    settled (quiet (prompted .ringNeeded .loading)) = true ∧ (quiet (prompted .ringNeeded .loading)).pr.answers.length < 4 ∧
      (quiet (prompted .ringNeeded .loading)).prompt? 5 = none ∧
      ((quiet (prompted .ringNeeded .loading)).prompt? 4).isSome = true ∧ (quiet (prompted .ringNeeded .loading)).pr.held = [] ∧
      (quiet (prompted .ringNeeded .loading)).pr.tooLong = false ∧
      ((quiet (prompted .ringNeeded .loading)).prompt? 4).map (·.accepts.contains .fit) = some true ∧
      ((quiet (prompted .ringNeeded .loading)).prompt? 4).map (·.kind) ≠ some .driveCheck := by decide +kernel

theorem test_reel_awaited_reply_premises :
    ({ equipmentPrompt .ringNeeded none none none with sub := some .awaitReel } : Prompt).accepts.contains .fit = false := by decide +kernel

theorem test_panel_service_premises :
    settled active = true ∧ active.pr.answers.length < 4 ∧ settled (inService .starting) = true ∧ settled (inService .interrupted) = true ∧
      settled (inService .quiescing) = true ∧ settled (inService .quiesced) = true ∧ settled (inService .homing) = true ∧
      settled (inService .resuming) = true := by decide +kernel

/-- A prompt with its request: the prompt names it, and it is live. -/
def names (s : State) (kind : PromptKind) : Bool :=
  match s.prompt? 4 with
  | some p => p.kind == kind && p.tag == some 7 && (s.request? 7).isSome && s.pr.answers.length < 4
  | none => false

theorem test_settling_reply_premises :
    names (prompted .volumeSuspect .waitDrive) .volumeSuspect = true ∧ names (prompted .volumeLost .waitVolume) .volumeLost = true ∧
      names (prompted .scratchEmpty .waitVolume) .scratchEmpty = true ∧ names (prompted .manualMount .loading) .manualMount = true ∧
      names (inSession (prompted .labelMismatch .verify) .loaded) .labelMismatch = true ∧
      ((inSession (prompted .labelMismatch .verify) .loaded).request? 7).bind (inSession (prompted .labelMismatch .verify) .loaded).ownDrive =
        some 3 ∧
      (((inSession (prompted .labelMismatch .verify) .loaded).request? 7).bind (·.volume)).bind
        (inSession (prompted .labelMismatch .verify) .loaded).serialOf = some serialA ∧
      ((prompted .volumeSuspect .waitDrive).prompt? 4).bind (·.volume) = some 5 ∧ (prompted .volumeLost .waitVolume).pr.owed = [] := by
  decide +kernel

theorem test_drive_reply_premises :
    names (inSession (prompted .ringNeeded .loading) .loaded) .ringNeeded = true ∧
      ((inSession (prompted .ringNeeded .loading) .loaded).drive 3).session.isSome = true ∧
      ((inSession (prompted .ringNeeded .loading) .loaded).drive 3).state = .loaded ∧
      ((inSession (prompted .ringNeeded .loading) .loaded).prompt? 4).bind (·.sub) = some .awaitReply ∧
      ((inSession (prompted .labelMismatch .verify) .loaded).request? 7).map (fun r => (r.kind, r.order)) = some (.mount, none) ∧
      names (onDrive (prompted .manualMount .loading) .claimed) .manualMount = true ∧
      ((onDrive (prompted .manualMount .loading) .claimed).request? 7).bind (onDrive (prompted .manualMount .loading) .claimed).ownDrive = some 3 ∧
      ((onDrive (prompted .manualMount .loading) .claimed).drive 3).sense.loaded = false ∧
      ((inSession (prompted .manualMount .loading) .claimed).drive 3).sense.loaded = true := by decide +kernel

/-- A drive in CHECK with its prompt. -/
def checking (sense : Levels) : State := prompting (driveAt .check sense) (equipmentPrompt .driveCheck (some 3) none none)

theorem test_equipment_reply_premises :
    (prompting active (equipmentPrompt .stationUnknown none none (some 7))).prompt? 4 = some (equipmentPrompt .stationUnknown none none (some 7)) ∧
      armOutside.prompt? 4 = some (equipmentPrompt .armOut none (some .armA) none) ∧ (armOutside.arm .armA).state = .outOfService ∧
      (checking ⟨false, true, false⟩).prompt? 4 = some (equipmentPrompt .driveCheck (some 3) none none) ∧
      ((checking ⟨false, true, false⟩).drive 3).state = .check ∧ ((checking ⟨false, true, false⟩).drive 3).sense.released = true ∧
      ((checking ⟨true, false, false⟩).drive 3).sense.loaded = true ∧ ((checking ⟨false, false, false⟩).drive 3).sense = ⟨false, false, false⟩ ∧
      (checking ⟨false, false, false⟩).pr.answers.length < 4 := by decide +kernel

/-- A panel line is being sent, and these wait. -/
def panelOwing (all : Bool) (answers : List Answer) (withdrawals : List Nat) (owed : Bool) : State :=
  let s := panelBusy (quiet (prompted .volumeLost .waitVolume))
  { s with pr := { s.pr with
    allWithdrawn := all, answers := answers, withdrawals := withdrawals,
    list := s.pr.list.map (fun p : Prompt => { p with lineOwed := owed }) } }

theorem test_panel_line_sent_premises :
    settled (panelOwing true [.accepted] [9] true) = true ∧ settled (panelOwing false [.accepted] [9] true) = true ∧
      settled (panelOwing false [] [9] true) = true ∧ settled (panelOwing false [] [] true) = true ∧
      settled (panelOwing false [] [] false) = true ∧ (panelOwing false [] [] true).pr.sending.isSome = true ∧
      (panelOwing false [] [] true).pr.list.map (·.lineOwed) = [true] ∧ (∀ p ∈ (panelOwing false [] [] false).pr.list, p.lineOwed = false) := by
  decide +kernel

/-- A prompt at a level. -/
def atLevel (s : State) (level : Nat) (timer : Option Nat) : State :=
  quiet { s with pr := { s.pr with list := s.pr.list.map (fun p : Prompt => { p with level := level, timer := timer }) } }

theorem test_escalation_premises :
    settled (atLevel (prompted .volumeLost .waitVolume) 2 (some 600)) = true ∧
      ((atLevel (prompted .volumeLost .waitVolume) 2 (some 600)).prompt? 4).map (·.timer.isSome) = some true ∧
      settled (atLevel (prompted .volumeLost .waitVolume) 3 (some 600)) = true ∧
      ((atLevel (prompted .volumeLost .waitVolume) 3 (some 600)).prompt? 4).map (·.kind.requestRelated) = some true ∧
      ((atLevel (prompted .volumeLost .waitVolume) 3 (some 600)).prompt? 4).bind (·.tag) = some 7 ∧
      ((atLevel (prompted .volumeLost .waitVolume) 3 (some 600)).request? 7).isSome = true ∧
      settled (atLevel (prompting active (equipmentPrompt .driveCheck (some 3) none none)) 3 (some 300)) = true ∧
      settled (atLevel (prompting active (equipmentPrompt .driveCheck (some 3) none none)) 3 none) = true := by decide +kernel

/-- The lamp in a state. -/
def lampIn (u : AttnUnit) : State := { active with att := { active.att with lamp := u } }

theorem test_attention_premises :
    settled active = true ∧ (active.attnUnit .horn).timer = none ∧
      settled (lampIn ⟨some 0, active.cadenceItem 26, .on, some 5⟩) = true ∧
      (lampIn ⟨some 0, active.cadenceItem 26, .on, some 5⟩).attnUnit .lamp = ⟨some 0, active.cadenceItem 26, .on, some 5⟩ ∧
      (prompted .volumeLost .waitVolume).governing .lamp = some 0 ∧ active.governing .lamp = none ∧
      (prompted .volumeLost .waitVolume).governing .lamp ≠ ((prompted .volumeLost .waitVolume).attnUnit .lamp).level := by decide +kernel

/-- Item 26 written as a blinking cadence, item 27 as a one-shot one. -/
def cadenced (c : Cadence) (o : Output) (u : AttnUnit) : State :=
  { active.setAttnUnit o u with port := { active.port with
    settings := active.port.settings.setIfInBounds (match o with | .lamp => 26 | .horn => 27) (.cadence c) } }

theorem test_cadence_premises :
    settled (cadenced (.blink 3 4) .lamp ⟨some 0, .blink 1 1, .on, some 1⟩) = true ∧
      (cadenced (.blink 3 4) .lamp ⟨some 0, .blink 1 1, .on, some 1⟩).cadenceItem 26 = .blink 3 4 ∧
      (cadenced (.oneShot 3) .horn ⟨some 0, .oneShot 9, .on, some 1⟩).cadenceItem 27 = .oneShot 3 ∧
      (cadenced (.oneShot 3) .horn ⟨some 0, .oneShot 9, .on, some 1⟩).attnUnit .horn = ⟨some 0, .oneShot 9, .on, some 1⟩ := by decide +kernel

/-! #### The arms -/

/-- Arm A's port sends a frame, and frames wait. -/
def armSends (waiting : List ArmFrame) : State := active.setArmPort .armA ⟨.hunting, some .stop, waiting⟩

theorem test_arm_frame_sent_premises :
    settled (armSends []) = true ∧ ((armSends []).armPort .armA).sending.isSome = true ∧ settled (armSends [.home, .leg (.read 2047)]) = true ∧
      ((armSends [.home, .leg (.read 2047)]).armPort .armA).waiting = [.home, .leg (.read 2047)] ∧
      ((armSends [.leg (.travel (some 31))]).armPort .armA).waiting = [.leg (.travel (some 31))] ∧ (active.armPort .armB).sending = none := by
  decide +kernel

theorem test_leg_outcome_premises :
    ((working (.travel (some 1)) none 5 100).arm .armA).outstanding = some (.leg (.travel (some 1)) none 5 100) ∧ 4 < 5 ∧ 100 < 101 ∧
      (active.arm .armA).outstanding = none ∧ (noSerial.length = 6) := by decide +kernel

theorem test_unfit_premises :
    ¬fits active .armA (.travel (some 1)) (report 1 0 noSerial) ∧ ¬fits active .armA (.place none) (report 1 0 noSerial) ∧
      ¬fits active .armA (.pick (.drive 3)) (report 0 0 noSerial) := by
  refine ⟨fun h => ?_, fun h => ?_, fun h => ?_⟩
  · exact absurd ((h.1 (some 1) rfl).mp (by decide +kernel)) (by decide +kernel)
  · exact absurd (h.2.1 none rfl) (by decide +kernel)
  · exact (h.2.2 3 rfl) (by decide +kernel)

/-- Arm A carries volume 5, with a leg outstanding. -/
def carrying (l : Leg) : State :=
  (working l (some 5) 0 100).updArm .armA (fun x => { x with gripper := .volume 5 })

theorem test_fit_premises :
    fits (working (.travel (some 31)) none 0 100) .armA (.travel (some 31)) (report 0 0 noSerial) ∧
      fits (working (.pick (.slot 100)) (some 5) 0 100) .armA (.pick (.slot 100)) (report 1 0 serialA) ∧
      fits (carrying (.place (some (.slot 100)))) .armA (.place (some (.slot 100))) (report 0 0 noSerial) ∧
      fits active .armA (.pick (.drive 15)) (report 0xFF 0 noSerial) ∧ fits active .armA (.read 0) (report 0 0 noSerial) := by
  refine ⟨⟨fun _ _ => ⟨fun _ => rfl, fun _ => rfl⟩, nofun, nofun⟩, ⟨nofun, nofun, nofun⟩, ⟨nofun, fun _ _ => rfl, nofun⟩,
    ⟨nofun, nofun, fun _ _ => by decide⟩, ⟨nofun, nofun, nofun⟩⟩

theorem test_completed_leg_premises :
    ((working (.travel (some 31)) none 0 100).arm .armA).outstanding = some (.leg (.travel (some 31)) none 0 100) ∧
      ((working (.travel (some 31)) none 0 100).arm .armA).move = none ∧
      (working (.pick (.slot 100)) (some 5) 0 100).vol? 5 = some volumeA ∧ isPaddedName serialA = true ∧
      ((onDrive (working (.pick (.drive 3)) (some 5) 0 100) .released).drive 3).state = .released ∧
      ((onDrive (working (.pick (.drive 3)) (some 5) 0 100) .released).drive 3).volume = some 5 ∧
      ((onDrive (working (.pick (.drive 3)) (some 5) 0 100) .released).drive 3).claim.isSome = true ∧
      (((onDrive (working (.pick (.drive 3)) (some 5) 0 100) .released).vol? 5).isSome = true) ∧
      ((carrying (.place (some (.slot 100)))).arm .armA).gripper = .volume 5 ∧ (carrying (.place (some (.slot 100)))).vol? 5 = some volumeA ∧
      ((carrying (.place (some (.slot 100)))).arm .armA).order = none ∧ Canonical (carrying (.place (some (.slot 100)))).dir.findings ∧
      ((carrying (.place (some (.drive 3)))).drive 3).sense.loaded = false ∧
      ((carrying (.place (some (.station 7)))).arm .armA).outstanding = some (.leg (.place (some (.station 7))) (some 5) 0 100) := by
  decide +kernel

/-- Arm A in STATUS_WAIT with STATUS outstanding, carrying what a gripper may. -/
def statusFor (st : ArmState) (g : Gripper) (count : Nat) : State :=
  (waitingFor st (.status 10)).updArm .armA (fun x => { x with gripper := g, failCount := count })

theorem test_status_premises :
    ((statusFor .statusWait .empty 15).arm .armA).outstanding = some (.status 10) ∧ ((statusFor .statusWait .empty 15).arm .armA).state = .statusWait ∧
      (3 : Byte).toNat < 32 ∧ (statusFor .statusWait .empty 15).holds .armA ((3 : Byte).toNat / 4) = true ∧
      ((statusFor .statusWait .empty 15).arm .armA).limitMark = false ∧ 32 ≤ (32 : Byte).toNat ∧
      (statusFor .statusWait .empty 15).holds .armA ((31 : Byte).toNat / 4) = false ∧
      ((statusFor .statusWait (.volume 5) 0).arm .armA).failure = none ∧ (statusFor .statusWait (.volume 5) 0).vol? 5 ≠ none := by decide +kernel

theorem test_homing_premises :
    ((waitingFor .homing (.home 60)).arm .armA).outstanding = some (.home 60) ∧ (waitingFor .homing (.home 60)).holds .armA ((0 : Byte).toNat / 4) = true ∧
      ((waitingFor .homing (.home 60)).armPort .armA).sending = none ∧ 32 ≤ (32 : Byte).toNat ∧
      (waitingFor .homing (.home 60)).holds .armA ((4 : Byte).toNat / 4) = false ∧
      ((statusFor .homing .empty 0).arm .armA).state = .homing ∧ ((statusFor .homing .empty 0).arm .armA).outstanding = some (.status 10) ∧
      ((active.updArm .armA (fun x => { x with linger := some 20 })).arm .armA).linger = some 20 ∧ (active.arm .armA).linger = none := by
  decide +kernel

/-! #### Drives, door, stations, readings, prompts -/

theorem test_raw_input_premises :
    settled active = true ∧ (active.drive 3).raw.get .loaded = false ∧ (active.drive 15).installed = false ∧ (active.drive 3).installed = true ∧
      ((sensing active .loaded true).drive 3).raw.get .loaded = true ∧ ((sensing active .loaded true).drive 3).sense.get .loaded = false ∧
      settled (sensing active .loaded true) = true ∧ active.mon.doorRaw = true ∧ (active.station 7).raw = false := by decide +kernel

/-- A change of a line of drive 3 is due. -/
def isDue (s : State) (line : SenseLine) (level : Bool) : Bool :=
  (s.drive 3).installed && ((s.drive 3).intervals.get line).isSome && (s.drive 3).raw.get line == level && (s.drive 3).sense.get line != level

theorem due_of_isDue {s : State} {line : SenseLine} {level : Bool} (h : isDue s line level = true) : due s 3 line level := by
  simp only [isDue, Bool.and_eq_true, beq_iff_eq, bne_iff_ne] at h
  exact ⟨h.1.1.1, h.1.1.2, h.1.2, h.2⟩

theorem test_not_due_premises : settled active = true ∧ isDue active .loaded true = false := by decide +kernel

/-- Drive 3 in a state with a claim as given. -/
def claimedDrive (st : DriveState) (c : Claim) (timer : Option LoadTimer) (expected : Bool) : State :=
  active.updDrive 3 (fun x => { x with state := st, claim := some c, loadTimer := timer, placeExpected := expected })

/-- A claim of request 7. -/
def claimOf7 : Claim := ⟨some 7, 0, 0, true, false, false, false, false, none, none, false⟩

theorem test_loaded_rise_premises :
    isDue (sensing active .loaded true) .loaded true = true ∧ isDue (sensing (claimedDrive .claimed claimOf7 none true) .loaded true) .loaded true = true ∧
      isDue (sensing (claimedDrive .claimed claimOf7 none false) .loaded true) .loaded true = true ∧
      ((sensing (claimedDrive .claimed claimOf7 none false) .loaded true).drive 3).claim = some claimOf7 ∧ claimOf7.manual = none ∧
      isDue (sensing (claimedDrive .claimed { claimOf7 with manual := some 5 } none false) .loaded true) .loaded true = true ∧
      isDue (sensing (onDrive active .placed) .loaded true) .loaded true = true ∧ claimOf7.detached = false ∧
      ((sensing (onDrive active .placed) .loaded true).drive 3).volume = some 5 ∧
      ((claimedDrive .claimed { claimOf7 with manual := some 5 } (some ⟨60, 0⟩) false).drive 3).loadTimer.isSome = true ∧
      isDue (sensing (claimedDrive .released { claimOf7 with ringHold := true } none false) .loaded true) .loaded true = true ∧
      ((claimedDrive .released claimOf7 none false).drive 3).holdsRing = false ∧
      isDue (sensing (driveAt .unloading ⟨false, false, false⟩) .loaded true) .loaded true = true ∧
      isDue (sensing (driveAt .unmanaged ⟨false, false, false⟩) .loaded true) .loaded true = true := by decide +kernel

theorem test_loaded_fall_premises :
    isDue (sensing (inSession active .loaded) .loaded false) .loaded false = true ∧
      isDue (sensing (driveAt .unmanaged ⟨true, true, false⟩) .loaded false) .loaded false = true ∧
      isDue (sensing (driveAt .released ⟨true, true, false⟩) .loaded false) .loaded false = true := by decide +kernel

theorem test_released_premises :
    isDue (sensing active .released true) .released true = true ∧ isDue (sensing (onDrive active .placed) .released true) .released true = true ∧
      ((sensing (onDrive active .placed) .released true).drive 3).volume = some 5 ∧
      ((sensing (onDrive active .placed) .released true).vol? 5).isSome = true ∧
      isDue (sensing (inSession active .unloading) .released true) .released true = true ∧
      ((sensing (inSession active .unloading) .released true).drive 3).claim = some claimOf7 ∧
      ((sensing (inSession active .unloading) .released true).drive 3).session.isSome = true ∧ claimOf7.ringHold = false ∧
      claimOf7.reserved = true ∧ isDue (sensing (driveAt .unmanaged ⟨false, true, false⟩) .released false) .released false = true ∧
      isDue (sensing (driveAt .check ⟨false, true, false⟩) .released false) .released false = true := by decide +kernel

theorem test_protect_premises :
    isDue (sensing (inSession active .loaded) .protect false) .protect false = true ∧ isDue (sensing active .protect true) .protect true = true ∧
      ((sensing (inSession active .loaded) .protect false).drive 3).session.isSome = true ∧
      ((sensing (inSession active .loaded) .protect false).vol? 5).isSome = true := by decide +kernel

theorem test_drive_timer_premises :
    settled active = true ∧ ((claimedDrive .placed claimOf7 (some ⟨60, 0⟩) false).drive 3).loadTimer = some ⟨60, 0⟩ ∧
      (((onDrive active .placed).updDrive 3 (fun x => { x with loadTimer := some ⟨60, 1⟩ })).drive 3).loadTimer = some ⟨60, 1⟩ ∧
      (((onDrive active .placed).updDrive 3 (fun x => { x with loadTimer := some ⟨60, 1⟩ })).drive 3).volume = some 5 ∧
      (((inSession active .unloading).startReleaseTimer 3).drive 3).releaseTimer.isSome = true ∧
      (verifying.drive 3).labelTimer = some 60 ∧ (verifying.verifying 3).isSome = true ∧
      ((active.startLabelTimer 3).drive 3).labelTimer.isSome = true ∧ (active.startLabelTimer 3).verifying 3 = none ∧
      (({ active with ms := ⟨[{ requestIn .waitVolume with timer := some 60 }]⟩ } : State).request? 7).bind (·.timer) = some 60 ∧
      active.request? 7 = none := by decide +kernel

theorem test_door_opening_premises :
    inputDue (doorTo active false) .door false ∧ inputDue (doorTo (inService .starting) false) .door false ∧
      inputDue (doorTo (inService .quiesced) false) .door false ∧ inputDue (doorTo (inService .quiescing) false) .door false :=
  ⟨⟨rfl, rfl, nofun⟩, ⟨rfl, rfl, nofun⟩, ⟨rfl, rfl, nofun⟩, ⟨rfl, rfl, nofun⟩⟩

theorem test_door_closing_premises :
    inputDue (doorTo (inService .interrupted) true) .door true ∧ inputDue (doorTo active true) .door true ∧
      ¬inputDue active .door true ∧ settled active = true :=
  ⟨⟨rfl, rfl, nofun⟩, ⟨rfl, rfl, nofun⟩, fun h => absurd h.1 (by decide +kernel), by decide +kernel⟩

/-- Setting 39, the station auto-import, on. -/
def importing (s : State) : State := { s with port := { s.port with settings := s.port.settings.setIfInBounds 39 (.number 1) } }

theorem test_presence_premises :
    ((presenceTo active 7 true).station 7).interval.isSome = true ∧ ((presenceTo active 7 true).station 7).raw = true ∧
      ((presenceTo active 7 true).station 7).presence = false ∧ ((presenceTo active 7 true).station 7).lifted = false ∧
      ((presenceTo active 7 true).station 7).reserved = none ∧ ((presenceTo active 7 true).station 7).volume = none ∧
      (presenceTo active 7 true).equipmentStands (.stationUnknown 7) = false ∧ (importing (presenceTo active 7 true)).stationAutoImport = true ∧
      (importing (presenceTo active 7 true)).svc.state = .active ∧ (importing (presenceTo active 7 true)).sch.pool.length < 28 ∧
      (importing (presenceTo (inService .quiesced) 7 true)).svc.state ≠ .active ∧
      ({ presenceTo active 7 true with port := { active.port with settings := active.port.settings.setIfInBounds 39 (.number 0) } } : State).stationAutoImport = false ∧
      (presenceTo active 7 true).reelAwaited = false ∧ ((presenceTo active 7 false).station 7).presence = true ∧
      ((prompting (presenceTo active 7 false) (equipmentPrompt .stationUnknown none none (some 7))).pr.list.find?
        (·.isFor (.stationUnknown 7))).isSome = true ∧ settled active = true := by decide +kernel

theorem test_presence_due : inputDue (presenceTo active 7 true) (.presence 7) true := ⟨by decide +kernel, by decide +kernel, by decide +kernel⟩

/-- A finding at a slot. -/
def findingAt (slot : Nat) (f : Finding) : State := { active with dir := { active.dir with findings := [(slot, f)] } }

theorem test_slot_reading_premises :
    Canonical active.dir.entries ∧ Canonical active.dir.findings ∧ active.slotState 100 = .occupied 5 ∧ active.vol? 5 = some volumeA ∧
      volumeA.loc ≠ .missing ∧ active.slotState 2047 = .free ∧ (volumeAt .outside).slotState 100 = .vacant 5 ∧
      active.entryOf (padded 6 ['Q']) = none ∧ (volumeAt .missing).entryOf serialA = some 5 ∧
      (volumeAt .missing).vol? 5 = some { volumeA with loc := .missing } ∧ volumeA.home = some 100 ∧
      (findingAt 0 .unreadable).slotState 0 = .foreign .unreadable ∧ Canonical (findingAt 0 .unreadable).dir.findings ∧
      Finding.unreadable.matches .noCase = false := by decide +kernel

/-- The list holds a number of equipment prompts. -/
def manyPrompts (n : Nat) (kind : PromptKind) (counter : Nat) : State :=
  { active with pr := { active.pr with
    list := (List.range n).map (fun k => { equipmentPrompt kind none none none with number := k + 85 }), counter := counter } }

theorem test_prompt_issue_premises :
    (manyPrompts 15 .driveCheck 99).pr.list.length < 16 ∧ (manyPrompts 15 .driveCheck 99).pr.counter ≤ 99 ∧
      (∀ p ∈ (manyPrompts 15 .driveCheck 99).pr.list, 1 ≤ p.number ∧ p.number ≤ 99) ∧ 16 ≤ (manyPrompts 16 .driveCheck 1).pr.list.length ∧
      (∀ p ∈ (manyPrompts 16 .driveCheck 1).pr.list, p.isFor (.driveCheck 3) = false) ∧
      Equipment.driveCheck 3 ∉ (manyPrompts 16 .driveCheck 1).pr.owed ∧
      14 ≤ ((manyPrompts 14 .volumeLost 1).pr.list.filter (fun p => p.kind.requestRelated)).length ∧
      (∃ p ∈ (prompting active (equipmentPrompt .driveCheck (some 3) none none)).pr.list, p.isFor (.driveCheck 3) = true) := by decide +kernel

/-! #### What the wider statements ask for -/

/-- Arm A in a state with its STATUS outstanding, with nothing else to do in a service state. -/
def quietArm (svc : SvcState) (st : ArmState) : State :=
  let s := waitingFor st (.status 10)
  { s with svc := ⟨svc, false, false, svc == .homing⟩ }

/-- The same after a failed PICK of an order. -/
def failedPick : State :=
  let s := quietArm .active .statusWait
  match s.createCarry .giveBack (.slot 100) (.slot 200) 5 none with
  | some (t, id) => { (t.updArm .armA (fun x => { x with order := some id, failure := some ⟨.pick (.slot 100), some 5, .legTimeout, false⟩ })) with
      notices := [], sch := { (t.updArm .armA (fun x => { x with order := some id, failure := some ⟨.pick (.slot 100), some 5, .legTimeout, false⟩ })).sch with
        pool := t.sch.pool.map (fun o : Order => { o with state := .failed }) } }
  | none => s

theorem test_quiet_premises :
    (failedPick.notices, failedPick.ms.queue, failedPick.sch.claims, failedPick.aud.scanOwed) = ([], [], [], false) ∧
      (∀ d : Fin 16, failedPick.sch.owedRecovers[d] = false ∧ (failedPick.drive d).claim = none ∧ (failedPick.drive d).state ≠ .released) ∧
      (∀ p, (failedPick.station p).reserved = none ∧ (failedPick.station p).importOwed = false) ∧
      (failedPick.arm .armB).state ≠ .running ∧ (failedPick.arm .armA).leaveMark = false ∧ (failedPick.arm .armA).limitMark = false ∧
      (failedPick.arm .armA).move = none ∧ (failedPick.armPort .armA).waiting = [] ∧ failedPick.svc.state = .active ∧
      failedPick.sch.pool.map (fun o => (some o.id, o.kind)) = [((failedPick.arm .armA).order, .giveBack)] := by decide +kernel

theorem test_status_reply_leaves_the_arm_idle :
    (fun t : State => ((t.arm .armA).state, (t.arm .armA).gripper, t.sch.pool)) (after (.statusReply .armA ⟨0, 0, 0, 0, noSerial⟩) failedPick) =
      (.idle, .empty, []) := by decide +kernel

theorem test_homing_ends_idle :
    (fun t : State => ((t.arm .armA).state, t.homingOwed .armA, t.svc.state))
      (after (.statusReply .armA ⟨0, 0, 0, 0, noSerial⟩) (quietArm .homing .homing)) = (.idle, false, .homing) ∧
      (quietArm .homing .homing).homingOwed .armB = true ∧ (quietArm .homing .homing).sch.pool = [] ∧
      ((quietArm .homing .homing).arm .armA).failure = none := by decide +kernel

/-- A frame whose check sum is wrong, and one behind its start byte that is whole. -/
theorem test_bad_sum_premises :
    (active.setRx .system (.collecting [2, 0xC5, 1])).rx .system = .collecting [2, 0xC5, 1] ∧
      (([2, 0xC5, 1, 7] : List Byte).map BitVec.toNat).sum % 256 ≠ 0 ∧
      (feed .hunting [2, 0xC5, 1, 7, 0xF8]).2 = [.frame 7 []] ∧
      (after (.byteReceived .system 7 0) (active.setRx .system (.collecting [2, 0xC5, 1]))).port.rx = .collecting [1, 7] := by decide +kernel

theorem test_arm_report_premises :
    reportBody (.homeDone .armA 9) = some (.armA, [3, 9]) ∧ (active.setRx (.arm .armA) (.collecting [3, 7, 3, 9])).rx (.arm .armA) =
      .collecting [3, 7, 3, 9] ∧ frameBytes 7 [3, 9] = 0xC5 :: [3, 7, 3, 9] ++ [0xEA] ∧ parseReport 7 [5] = none ∧
      frameBytes 7 [5] = 0xC5 :: [2, 7, 5] ++ [0xF2] := by decide +kernel

theorem test_directory_entry_is_written :
    (fun t : State => (t.vol? 9, t.slotState 7)) (after (.writeEntry ([0, 0, 1] ++ entryFields (padded 6 ['Z']) 0 7)) (selected 0 9 false)) =
      (writtenVolume (entryFields (padded 6 ['Z']) 0 7), .occupied 9) := by decide +kernel

theorem test_directory_entry_is_freed :
    (fun t : State => (t.vol? 5, t.slotState 100)) (after (.writeEntry ([0, 0, 0] ++ List.replicate 27 0)) (selected 0 5 false)) =
      (none, .foreign (.serial serialA)) := by decide +kernel

theorem test_directory_is_cleared :
    (∀ x ∈ (selected 0 0 false).dir.entries, (selected 0 0 false).protected? x.1 = false) ∧
      (fun t : State => (t.dir.entries, t.slotState 100, t.slotState 200)) (after .clearTable (selected 0 0 false)) =
        ([], .foreign (.serial serialA), .foreign (.serial serialB)) ∧
      (∃ x ∈ (onDrive (selected 0 0 false) .placed).dir.entries, (onDrive (selected 0 0 false) .placed).protected? x.1 = true) := by
  decide +kernel

theorem test_drives_and_settings_are_cleared :
    ((after .clearTable (selected 3 0 false)).drive 3).installed = false ∧ free (selected 12 0 false) = true ∧
      (∀ d, ((selected 3 0 false).drive d).state = .empty ∨ ((selected 3 0 false).drive d).state = .offline) ∧
      (after .clearTable (selected 12 0 false)).port.settings = State.reset.port.settings := by decide +kernel

/-- Request 7 in a state with its order on arm A, which carries volume 5 or holds nothing, a leg in hand. -/
def movingWith (g : Gripper) : State :=
  let s := (working (.travel (some 4)) none 0 100).updArm .armA (fun x => { x with gripper := g })
  match s.createCarry .fetch (.slot 100) (.drive 3) 5 (some 7) with
  | some (t, id) => { (t.updArm .armA (fun x => { x with order := some id })) with
      ms := ⟨[{ requestIn .moving with order := some id }]⟩, notices := []
      sch := { (t.updArm .armA (fun x => { x with order := some id })).sch with
        pool := t.sch.pool.map (fun o : Order => { o with state := .running, started := true }) } }
  | none => s

theorem test_cancel_in_work_premises :
    free (movingWith .empty) = true ∧ ((movingWith .empty).request? 7).bind (·.order) = some 1 ∧
      ((movingWith .empty).order? 1).map (fun o => (o.started, o.state == .failed, o.putBack)) = some (true, false, none) ∧
      (movingWith .empty).takenBy 1 = some .armA ∧ (movingWith .empty).placingAtDrive .armA = false ∧
      (movingWith .empty).armBusy .armA = true ∧ ((movingWith (.volume 5)).arm .armA).gripper = .volume 5 ∧
      (after (.cancel 7) (movingWith .empty)).ms.queue.map (fun r => (r.state, r.pending)) = [(.returning, some .cancelled)] := by
  decide +kernel

theorem test_cancel_gives_the_claim_up :
    (fun t : State => ((t.drive 3).claim, t.acc.records.map (fun x => (x.outcome, x.tag)), t.port.replyOwed))
      (after (.cancel 7) (busy (calm ((onDrive { active with ms := ⟨[requestIn .waitArm]⟩ } .claimed).updDrive 3 (fun x => { x with volume := none }))))) =
      (none, [(.cancelled, some 7)], [(7, .cancelled)]) := by decide +kernel

theorem test_label_mismatch :
    ((verifying.verifying 3).bind (fun r => r.volume)).bind verifying.vol? = some { volumeA with loc := .inDrive 3 } ∧
      (verifying.verifying 3).map (fun r => (r.prompt, verifying.request? r.tag == some r)) = some (none, true) ∧ verifying.port.replyOwed = [] ∧
      ((after (.label 3 serialB) verifying).pr.list.map (·.kind), ((after (.label 3 serialB) verifying).vol? 5).map (·.errors)) =
        ([.labelMismatch], some 1) := by decide +kernel

theorem test_reset_with_a_free_panel_line :
    (after .linkReset active).pr.sending = none ∧
      (after .resetTakesHold (after .linkReset active)).pr.sending = some (allWithdrawnLine ++ [0x0D, 0x0A]) := by decide +kernel

theorem test_pick_of_another_reel :
    (fun t : State => ((t.arm .armA).gripper, (t.vol? 5).map (fun v => (v.loc, v.errors))))
      (after (.legDone .armA (report 1 0 serialB) 50) (working (.pick (.slot 100)) (some 5) 0 100)) = (.unknown, some (.missing, 1)) := by
  decide +kernel

/-- A DEMOUNT of drive 3, whose reel is RELEASED, waits in RELEASING, and a RETURN that no request has is in the pool. -/
def demountJoins : State :=
  let s := (onDrive { active with ms := ⟨[{ active.newRequest .demount fieldsDrive with state := .releasing, pending := some (.demounted 3) }]⟩ } .released).updDrive
    3 (fun x => { x with claim := none })
  match s.createCarry .giveBack (.drive 3) (.slot 100) 5 none with
  | some (t, _) => t
  | none => s

theorem test_demount_joins_the_return :
    (fun t : State => (t.ms.queue.map (fun r => (r.state, r.order)), t.sch.pool.map (fun o => (o.id, o.tag)))) (demountJoins.onReelReady 3 none) =
      ([(.returning, some 1)], [(1, some 7)]) := by decide +kernel

theorem test_demount_taken_premises :
    (demountJoins.drive 3).state = .released ∧ (demountJoins.returnOrder 3).isSome = true ∧
      ((onDrive active .released).returnOrder 3).isSome = false ∧ (inService .quiescing).svc.state ≠ .active ∧
      (fun t : State => (t.ms.queue.map (fun r => (r.state, r.pending)), (t.drive 3).state, (t.drive 3).releaseTimer))
        (after (.demount fieldsDrive) ((inSession active .loaded).updDrive 3 (fun x => { x with claim := none }))) =
        ([(.releasing, some (.demounted 3))], .unloading, some 120) := by decide +kernel

theorem test_mount_taken_premises :
    active.refusal .mount fieldsDrive = none ∧ requestDrive fieldsDrive = some 3 ∧ active.entryOf serialA = some 5 ∧ volumeA.suspect = false ∧
      active.accountRoom 0 = true ∧ active.recordRoom = true ∧ (active.drive 3).state = .empty ∧
      active.placesReach (.slot 100) (.drive 3) = true ∧ active.sch.pool.length < 28 ∧
      (active.updAccount 0 (fun a => { a with inUse := 16 })).accountRoom 0 = false ∧
      ({ active with acc := { active.acc with reserved := 256 } } : State).recordRoom = false ∧
      (onDrive active .claimed).entryOf serialA = some 5 ∧ ((onDrive active .claimed).drive 3).state ≠ .empty ∧
      ((active.updArm .armA (fun x => { x with state := .unhomed })).updArm .armB (fun x => { x with state := .unhomed })).placesReach
        (.slot 100) (.drive 3) = false ∧
      ((after (.mount { fieldsA with tag := 8 }) { active with ms := ⟨[requestIn .waitVolume]⟩ }).request? 8).map (fun r => (r.state, r.reason, r.volume)) =
        some (.waitVolume, some .volume, none) := by decide +kernel

/-- A TRAVEL to the arm's own column completes at once, and starts the linger timer (R99, R100). -/
theorem test_travel_to_its_own_column :
    let s := (active.updArm .armA (fun x => { x with state := .running }))
    ((s.createCarry .fetch (.slot 0) (.drive 3) 5 none).bind (fun t => t.1.sch.pool.head?.bind (t.1.stepOrder .armA))).map
      (fun u => (u.arm .armA).linger) = some (some 4) := by decide +kernel

/-- A DRIVE_CHECK re-read that finds RELEASED high writes the record of an open session, under a ring hold too (R42, R166). -/
theorem test_check_records_under_a_ring_hold :
    let s := ((inSession active .check).updClaim 3 (fun c => { c with ringHold := true })).updDrive 3 (fun x => { x with sense := ⟨false, true, true⟩ })
    (fun t : State => ((t.drive 3).state, t.acc.records.map (fun x => (x.outcome, x.releaseStamp.isSome)), (t.drive 3).session.isSome)) (s.recheck 3 false) =
      (.released, [(.completed, true)], false) := by decide +kernel

theorem test_slot_readings_elsewhere :
    let moved := { volumeAt (.misplaced 9) with dir := { (volumeAt (.misplaced 9)).dir with findings := [(9, .serial serialA)] } }
    let read := fun (s : State) (slot : Nat) => ((s.slotReading slot (.serial serialA)).2, ((s.slotReading slot (.serial serialA)).1.vol? 5).map (·.loc),
      (s.slotReading slot (.serial serialA)).1.finding? 9)
    (moved.slotState 9 = .foreign (.serial serialA) ∧ moved.slotState 2047 = .free ∧ moved.findingNames 9 5 = true) ∧
      read moved 2047 = ([.foundMisplaced], some (.misplaced 2047), none) ∧ read moved 100 = ([.recovered], some .home, none) ∧
      read (volumeAt (.inDrive 3)) 0 = ([.foundForeign], some (.inDrive 3), none) ∧
      ((moved.slotReading 9 (.serial serialB)).2, ((moved.slotReading 9 (.serial serialB)).1.vol? 5).map (·.loc)) =
        ([.foundMissing, .foundForeign], some .missing) := by decide +kernel

end Sys2Proof.Machine.Tests
end

section
/-! PROOFS. The statements of chapter 5: what taking an AUDIT answers and what it leaves of the audit record (O31). -/

namespace Sys2Proof.Machine

variable {s : State}

/-! ### A frame that is refused at a free port -/

/-- A frame whose taking changes nothing and has one answer leaves a free block as it was, with the answer handed out (R194, R199). -/
theorem State.Free.deliver_unchanged (h : s.Free) {f : SysFrame} {m : OutMsg} (e : s.takeFrame f = (s, [m])) :
    (s.deliver f).finishStep = s.sends [m] := by
  have ⟨⟨hflags, hnotice, _, hpanel⟩, _⟩ := h
  have hpump : (s.sends [m]).panelPump = s.sends [m] := State.panelPump_eq hpanel
  rw [h.deliver (congrArg Prod.snd e), e, State.refreshConditions_eq hflags hnotice, hpump]

/-! ### What the creation of an order leaves of the audit record -/

@[simp] theorem State.reserveDest_aud {id : Nat} {p : Option Place} : (s.reserveDest id p).aud = s.aud := by
  unfold State.reserveDest
  split
  · exact State.updStation_aud
  · rfl

@[simp] theorem State.bindOrder_aud {id : Nat} : (s.bindOrder id).aud = s.aud := by
  unfold State.bindOrder
  split
  · rfl
  · dsimp only
    split <;> simp

theorem State.createOrder_aud {kind : OrderKind} {source dest : Option Place} {volume : Option Nat} {tag : Option Half}
    {legs : List Leg} {arm : Option ArmId} {x : State × Nat} (e : s.createOrder kind source dest volume tag legs arm = some x) :
    x.1.aud = s.aud := by
  unfold State.createOrder at e
  split at e
  · cases e
    dsimp only
    split <;> simp
  · cases e

theorem State.createScan_aud {column : Nat} {slots : List Nat} {x : State × Nat} (e : s.createScan column slots = some x) :
    x.1.aud = s.aud := State.createOrder_aud e

/-! ### The beginning of an audit (R117, R118) -/

/-- In the first pass, asking for a SCAN changes nothing of the audit record but its scan order and the scan owed mark (R118). -/
theorem State.askScan_aud_of_firstPass (h : s.aud.deferredPass = false) :
    ∃ scan owed, s.askScan.aud = { s.aud with scan := scan, scanOwed := owed } := by
  unfold State.askScan
  split
  case isTrue => exact ⟨s.aud.scan, s.aud.scanOwed, rfl⟩
  case isFalse =>
    dsimp only
    split
    case h_1 t id made =>
      have haud : t.aud = s.aud := by
        split at made
        · split at made
          · cases made
          · exact State.createScan_aud made
        · cases made
      exact ⟨some id, false, by simp [State.updAudit, haud, h]⟩
    case h_2 => exact ⟨s.aud.scan, true, rfl⟩

/-- An audit that begins leaves nothing of the record as it was; whether its first SCAN is in the pool or owed is for R118 (R117). -/
theorem State.beginAudit_aud {first last : Nat} : ∃ scan owed, (s.beginAudit first last).aud = {
    state := .running, range := some (first, last), deferredPass := false, nextSlot := some first, scan := scan, scanOwed := owed,
    matched := 0, foundMissing := 0, foundForeign := 0, foundMisplaced := 0, recovered := 0, skipped := 0,
    outcome := .none, deferred := [], held := false } := by
  unfold State.beginAudit
  exact State.askScan_aud_of_firstPass rfl

/-! ### AUDIT as it is taken (R116) -/

/-- The slots that AUDIT refuses, by the model's test and by the words of R116. -/
theorem auditRange_bad_iff {first last : Half} : ¬(first.toNat ≤ last.toNat ∧ last.toNat < Config.slots) ↔
    2047 < first.toNat ∨ 2047 < last.toNat ∨ last.toNat < first.toNat := by
  unfold Config.slots
  omega

variable {first last : Half}

theorem State.commandAudit_badField (hbad : ¬(first.toNat ≤ last.toNat ∧ last.toNat < Config.slots)) :
    s.commandAudit first last = (s, .refused .badField) := if_pos hbad

theorem State.commandAudit_wrongState (hrange : first.toNat ≤ last.toNat ∧ last.toNat < Config.slots) (hsvc : s.service ≠ .active) :
    s.commandAudit first last = (s, .refused .wrongState) := by
  rw [State.commandAudit, if_neg (not_not_intro hrange), if_pos hsvc]

theorem State.commandAudit_busy (hrange : first.toNat ≤ last.toNat ∧ last.toNat < Config.slots) (hsvc : s.service = .active)
    (haud : s.aud.state ≠ .idle) : s.commandAudit first last = (s, .refused .busy) := by
  rw [State.commandAudit, if_neg (not_not_intro hrange), if_neg (not_not_intro hsvc), if_pos haud]

theorem State.commandAudit_taken (hrange : first.toNat ≤ last.toNat ∧ last.toNat < Config.slots) (hsvc : s.service = .active)
    (haud : s.aud.state = .idle) :
    s.commandAudit first last = (s.afterAct (s.beginAudit first.toNat last.toNat), .done []) := by
  rw [State.commandAudit, if_neg (not_not_intro hrange), if_neg (not_not_intro hsvc), if_neg (not_not_intro haud)]
  rfl

/-- The command AUDIT is the arrival of its frame. -/
theorem exec_audit : exec (.audit first last) s = .next (s.deliver (.audit first last)).finishStep := rfl

/-- A refused AUDIT changes nothing (R116). -/
theorem State.Free.audit_refused (h : s.Free) {r : Reason} (e : s.commandAudit first last = (s, .refused r)) :
    exec (.audit first last) s = .next (s.sends [refusedOf 9 r.code]) := by
  have htake : s.takeFrame (.audit first last) = (s, [refusedOf 9 r.code]) := congrArg (respond 9) e
  rw [exec_audit, h.deliver_unchanged htake]

/-- A taken AUDIT answers DONE with no data. -/
theorem State.Free.audit_answers (h : s.Free) {u : State} (e : s.commandAudit first last = (s.afterAct u, .done [])) :
    s.AnswersBy (.audit first last) u (doneOf 9 []) := by
  have htake : s.takeFrame (.audit first last) = (s.afterAct u, [doneOf 9 []]) := congrArg (respond 9) e
  unfold State.AnswersBy
  rw [exec_audit, h.deliver (congrArg Prod.snd htake), htake]

/-- Settles O31, by the four outcomes of R116's checks; the audit of a taken AUDIT is the record `State.beginAudit_aud` gives. -/
theorem auditCommand : Obligations.AuditCommand := by
  intro s first last hfree bad
  have range_of (h : ¬bad) : first.toNat ≤ last.toNat ∧ last.toNat < Config.slots := not_not.mp (mt auditRange_bad_iff.mp h)
  refine ⟨fun hbad => ?badField, fun hok hsvc => ?wrongState, fun hok hsvc haud => ?busy, fun hok hsvc haud => ?taken⟩
  case badField => exact hfree.audit_refused (State.commandAudit_badField (auditRange_bad_iff.mpr hbad))
  case wrongState => exact hfree.audit_refused (State.commandAudit_wrongState (range_of hok) hsvc)
  case busy => exact hfree.audit_refused (State.commandAudit_busy (range_of hok) hsvc haud)
  case taken =>
    have hanswer := hfree.audit_answers (State.commandAudit_taken (range_of hok) hsvc haud)
    obtain ⟨scan, owed, hbegun⟩ := State.beginAudit_aud (s := s) (first := first.toNat) (last := last.toNat)
    exact ⟨_, hanswer, by simp [hbegun]⟩

end Sys2Proof.Machine
end

section
/-! PROOFS. The statements of chapter 8: what READ RECORDS (O28) and RESET COUNTERS (O30) answer and what they leave. -/

namespace Sys2Proof.Machine

variable {s : State}

/-! ### A frame that leaves the port and the panel line settled -/

/-- A frame whose taking leaves the port, the conditions of R196 and the panel line as they were: what it left, with its messages
handed out (R194, R199). -/
theorem State.Free.deliver_sends (h : s.Free) {f : SysFrame} {t : State} {ms : List OutMsg} (e : s.takeFrame f = (t, ms)) (hms : ms ≠ [])
    (hport : t.port = s.port) (hcond : t.conditionFlags = s.conditionFlags) (hpr : t.pr = s.pr) :
    (s.deliver f).finishStep = t.sends ms := by
  have ⟨⟨hflags, hnotice, _, hpanel⟩, _⟩ := h
  obtain ⟨m, rest, rfl⟩ := List.exists_cons_of_ne_nil hms
  have hrefresh : t.refreshConditions = t :=
    State.refreshConditions_eq (State.flagsSettled_of hport hcond hflags) (State.noticeSettled_of hport hnotice)
  have hsettled : t.PanelSettled := by
    unfold State.PanelSettled
    rw [hpr]
    exact hpanel
  have hpump : (t.sends (m :: rest)).panelPump = t.sends (m :: rest) := State.panelPump_eq hsettled
  rw [h.deliver (congrArg Prod.snd e), e, hrefresh, hpump]

theorem parts_ne_nil {n : Nat} {data : List Byte} : parts n data ≠ [] := by
  cases n with
  | zero => exact List.cons_ne_nil _ _
  | succ n =>
    unfold parts
    split
    · exact List.cons_ne_nil _ _
    · exact List.cons_ne_nil _ _

/-- A response has a part at least (R191). -/
theorem responseOf_ne_nil {code : Byte} {r : Result} {reset : Bool} : responseOf code r reset ≠ [] := by
  cases r with
  | done data => simp [responseOf, parts_ne_nil]
  | refused reason => exact List.cons_ne_nil _ _
  | unknown => exact List.cons_ne_nil _ _

/-! ### READ RECORDS (R171) -/

section

variable {n : Byte}

theorem State.readRecords_badField (h : ¬(1 ≤ n.toNat ∧ n.toNat ≤ 16)) : s.readRecords n = .refused .badField := if_neg h

theorem State.readRecords_given (h : 1 ≤ n.toNat ∧ n.toNat ≤ 16) :
    s.readRecords n = .done (s.recordFigures ++ [byte (s.acc.records.take n.toNat).length] ++
      (s.acc.records.take n.toNat).flatMap AcctRecord.bytes) := if_pos h

/-- The command READ RECORDS is the arrival of its frame. -/
theorem exec_readRecords : exec (.readRecords n) s = .next (s.deliver (.readRecords n)).finishStep := rfl

/-- READ RECORDS answers with its result and changes no state, also where the records fill more than one part. -/
theorem State.Free.readRecords_answers (h : s.Free) :
    exec (.readRecords n) s = .next (s.sends (responseOf 15 (s.readRecords n) false)) := by
  have htake : s.takeFrame (.readRecords n) = (s, responseOf 15 (s.readRecords n) false) := rfl
  rw [exec_readRecords, h.deliver_sends htake responseOf_ne_nil rfl rfl rfl]

end

/-- Settles O28, by whether the count is in R171's range; the answer is that of `State.readRecords`. -/
theorem readRecordsCommand : Obligations.ReadRecordsCommand := by
  intro s n hfree
  refine ⟨fun hbad => ?badField, fun hlow hhigh => ?given⟩
  case badField =>
    have hout : ¬(1 ≤ n.toNat ∧ n.toNat ≤ 16) := by omega
    rw [hfree.readRecords_answers, State.readRecords_badField hout]
    rfl
  case given =>
    rw [hfree.readRecords_answers, State.readRecords_given ⟨hlow, hhigh⟩]
    rfl

/-! ### RESET COUNTERS (R174) -/

section

variable {index : Byte} {a : Account}

theorem State.updAccount_of_some {i : Nat} {f : Account → Account} (h : s.account? i = some a) :
    s.updAccount i f = s.setAccount i (f a) := by
  simp only [State.updAccount, h]

/-- The index of an account names neither ALL nor a place beyond the table (R174). -/
theorem accountIndex_named (h : index.toNat ≤ 63) : index ≠ absentByte ∧ ¬Config.accounts ≤ index.toNat := by
  refine ⟨?_, Nat.not_le.mpr (Nat.lt_succ_of_le h)⟩
  rintro rfl
  exact absurd h (by decide)

theorem State.resetCounters_badField (hall : index ≠ absentByte) (hbad : 63 < index.toNat) :
    s.resetCounters index = (s, .refused .badField) := by
  have hout : Config.accounts ≤ index.toNat := hbad
  rw [State.resetCounters, if_neg hall, if_pos hout]

theorem State.resetCounters_notFound (h : index.toNat ≤ 63) (hnone : s.account? index.toNat = none) :
    s.resetCounters index = (s, .refused .notFound) := by
  have ⟨hall, hin⟩ := accountIndex_named h
  rw [State.resetCounters, if_neg hall, if_neg hin, hnone]

theorem State.resetCounters_named (h : index.toNat ≤ 63) (hsome : s.account? index.toNat = some a) :
    s.resetCounters index = (s.setAccount index.toNat a.cleared, .done []) := by
  have ⟨hall, hin⟩ := accountIndex_named h
  rw [State.resetCounters, if_neg hall, if_neg hin, State.updAccount_of_some hsome, hsome]

/-- ALL clears every account in use (R174). -/
theorem State.resetCounters_all : s.resetCounters absentByte =
    ({ s with acc := { s.acc with accounts := s.acc.accounts.map (fun x => (x.1, x.2.cleared)) } }, .done []) := if_pos rfl

/-- The command RESET COUNTERS is the arrival of its frame. -/
theorem exec_resetCounters : exec (.resetCounters index) s = .next (s.deliver (.resetCounters index)).finishStep := rfl

/-- A refused RESET COUNTERS changes nothing (R174). -/
theorem State.Free.resetCounters_refused (h : s.Free) {r : Reason} (e : s.resetCounters index = (s, .refused r)) :
    exec (.resetCounters index) s = .next (s.sends [refusedOf 17 r.code]) := by
  have htake : s.takeFrame (.resetCounters index) = (s, [refusedOf 17 r.code]) := congrArg (respond 17) e
  rw [exec_resetCounters, h.deliver_unchanged htake]

/-- A taken RESET COUNTERS leaves the accounts it names, and answers DONE with no data: no account is part of a condition of R196. -/
theorem State.Free.resetCounters_done (h : s.Free) {accounts : List (Nat × Account)}
    (e : s.resetCounters index = ({ s with acc := { s.acc with accounts := accounts } }, .done [])) :
    exec (.resetCounters index) s = .next (({ s with acc := { s.acc with accounts := accounts } }).sends [doneOf 17 []]) := by
  have htake : s.takeFrame (.resetCounters index) = ({ s with acc := { s.acc with accounts := accounts } }, [doneOf 17 []]) :=
    congrArg (respond 17) e
  rw [exec_resetCounters, h.deliver_sends htake (List.cons_ne_nil _ _) rfl rfl rfl]

end

/-- Settles O30, by the four outcomes of R174's checks. -/
theorem resetCountersCommand : Obligations.ResetCountersCommand := by
  refine ⟨fun s index hfree hall hbad => ?badField, fun s index hfree hin hnone => ?notFound,
    fun s index a hfree hin hsome => ?named, fun s hfree => ?all⟩
  case badField => exact hfree.resetCounters_refused (State.resetCounters_badField hall hbad)
  case notFound => exact hfree.resetCounters_refused (State.resetCounters_notFound hin hnone)
  case named => exact hfree.resetCounters_done (State.resetCounters_named hin hsome)
  case all => exact hfree.resetCounters_done State.resetCounters_all

end Sys2Proof.Machine
end

section
/-! PROOFS. The statements of chapter 10: what the commands on the event set answer and what they leave of it (O16). -/

namespace Sys2Proof.Machine

variable {s : State} {f : SysFrame} {m : OutMsg} {flags mask : Half}

/-! ### A frame that changes the event set at a free port (R197) -/

theorem State.setEvents_noticeSettled : (s.setEvents flags mask).NoticeSettled := by
  intro hempty
  have hnew : flags &&& mask = 0 := hempty
  simp only [State.setEvents, if_pos hnew]

theorem State.Free.immediate_eq_nil (h : s.Free) : s.port.immediate = [] := by
  obtain ⟨⟨_, _, ⟨hline, _⟩, _⟩, hsending, _⟩ := h
  exact (hline hsending).1

theorem State.Free.noticeOwed_eq_false (h : s.Free) : s.port.noticeOwed = false := by
  obtain ⟨⟨_, _, ⟨hline, _⟩, _⟩, hsending, _⟩ := h
  obtain ⟨_, _, howed⟩ := hline hsending
  exact howed

/-- A change of the event set sets the notice-owed mark only where the new summary is not empty, and then the message handed out with that
summary clears it again (R195, R197). -/
theorem State.Free.setEvents_sends (h : s.Free) : (s.setEvents flags mask).sends [m] =
    { s with port := { s.port with flags := flags, mask := mask, sending := some ⟨m, flags &&& mask⟩ } } := by
  have howed : (if flags &&& mask = 0 then (s.setEvents flags mask).port.noticeOwed else false) = s.port.noticeOwed := by
    rw [h.noticeOwed_eq_false]
    split
    · exact State.setEvents_noticeSettled ‹_›
    · rfl
  calc (s.setEvents flags mask).sends [m]
      = { s with port := { s.port with
          flags := flags
          mask := mask
          sending := some ⟨m, flags &&& mask⟩
          immediate := []
          noticeOwed := if flags &&& mask = 0 then (s.setEvents flags mask).port.noticeOwed else false } } := rfl
    _ = _ := by rw [howed, ← h.immediate_eq_nil]

/-- A frame that gives the port new flags and a new mask, the condition-bound flags being as their conditions give them: its answer carries
the new masked summary, and nothing but the event set and the line changes. -/
theorem State.Free.deliver_setEvents (h : s.Free) (e : s.takeFrame f = (s.setEvents flags mask, [m]))
    (hflags : (s.setEvents flags mask).FlagsSettled) : (s.deliver f).finishStep =
      { s with port := { s.port with flags := flags, mask := mask, sending := some ⟨m, flags &&& mask⟩ } } := by
  have ⟨⟨_, _, _, hpanel⟩, _⟩ := h
  have hrefresh := State.refreshConditions_eq hflags State.setEvents_noticeSettled
  have hpump : ((s.setEvents flags mask).sends [m]).panelPump = (s.setEvents flags mask).sends [m] := State.panelPump_eq hpanel
  rw [h.deliver (congrArg Prod.snd e), e, hrefresh, hpump, h.setEvents_sends]

/-! ### The flags after an EVENT CLEAR (R198) -/

section

variable {events : Half}

theorem plainPositions_and_conditionPositions : plainPositions &&& conditionPositions = 0 := by decide

/-- The conditions of R196 set condition-bound positions only. -/
theorem conditionFlags_and_condition : s.conditionFlags &&& conditionPositions = s.conditionFlags := by
  unfold State.conditionFlags
  (repeat' split) <;> decide

/-- Of settled flags, clearing the named plain ones leaves the plain flags not named and every condition-bound flag (R198). -/
theorem State.FlagsSettled.cleared_eq (h : s.FlagsSettled) : s.port.flags &&& ~~~(events &&& plainPositions) =
    (s.port.flags &&& plainPositions &&& ~~~events) ||| s.conditionFlags := by
  have hdisjoint := conditionFlags_and_plain (s := s)
  unfold State.FlagsSettled at h
  ext i hi
  have hflag := congrArg (·[i]) h
  have hbit := congrArg (·[i]) hdisjoint
  simp only [BitVec.getElem_and, BitVec.getElem_or, BitVec.getElem_not] at hflag hbit ⊢
  grind

/-- What a set of positions has of the flags after a clear, by what it has of the two parts `cleared_eq` names. -/
theorem State.FlagsSettled.cleared_and (h : s.FlagsSettled) (x : Half) : s.port.flags &&& ~~~(events &&& plainPositions) &&& x =
    (s.port.flags &&& (plainPositions &&& x) &&& ~~~events) ||| (s.conditionFlags &&& x) := by
  rw [h.cleared_eq]
  ext i hi
  simp only [BitVec.getElem_and, BitVec.getElem_or, Bool.and_or_distrib_right]
  ac_rfl

/-- The condition-bound flags are as their conditions give them after a clear too. -/
theorem State.FlagsSettled.clearEvents (h : s.FlagsSettled) : (s.clearEvents events).FlagsSettled := by
  show s.port.flags &&& ~~~(events &&& plainPositions) =
    (s.port.flags &&& ~~~(events &&& plainPositions) &&& plainPositions) ||| s.conditionFlags
  rw [h.cleared_and, BitVec.and_self, conditionFlags_and_plain]
  simp [h.cleared_eq]

theorem State.FlagsSettled.cleared_and_condition (h : s.FlagsSettled) :
    s.port.flags &&& ~~~(events &&& plainPositions) &&& conditionPositions = s.conditionFlags := by
  rw [h.cleared_and, plainPositions_and_conditionPositions, conditionFlags_and_condition]
  simp

theorem State.FlagsSettled.cleared_and_events (h : s.FlagsSettled) :
    s.port.flags &&& ~~~(events &&& plainPositions) &&& events = s.conditionFlags &&& events := by
  have hnamed : s.port.flags &&& (plainPositions &&& events) &&& ~~~events = 0 := by
    simp [BitVec.and_assoc]
  rw [h.cleared_and, hnamed]
  simp

end

/-! ### The three commands (R198) -/

/-- The command EVENT MASK is the arrival of its frame. -/
theorem exec_eventMask : exec (.eventMask mask) s = .next (s.deliver (.eventMask mask)).finishStep := rfl

/-- The command EVENT CLEAR is the arrival of its frame. -/
theorem exec_eventClear {events : Half} : exec (.eventClear events) s = .next (s.deliver (.eventClear events)).finishStep := rfl

/-- The command READ EVENTS is the arrival of its frame. -/
theorem exec_readEvents : exec .readEvents s = .next (s.deliver .readEvents).finishStep := rfl

/-- Settles O16, command by command: an EVENT MASK and an EVENT CLEAR are frames that change the event set, a READ EVENTS is one that
changes nothing. -/
theorem eventCommands : Obligations.EventCommands := by
  refine ⟨fun s mask hfree => ?eventMask, fun s events hfree => ?eventClear, fun s hfree => ?readEvents⟩
  case eventMask =>
    have ⟨⟨hflags, _⟩, _⟩ := hfree
    have htake : s.takeFrame (.eventMask mask) =
        (s.setEvents s.port.flags (mask &&& eventPositions), [doneOf 12 (bytesOfHalf (mask &&& eventPositions))]) := rfl
    rw [exec_eventMask, hfree.deliver_setEvents htake hflags]
    rfl
  case eventClear =>
    have ⟨⟨hflags, _⟩, _⟩ := hfree
    have hnamed := hflags.cleared_and_events (events := events)
    have htake : s.takeFrame (.eventClear events) =
        (s.setEvents (s.port.flags &&& ~~~(events &&& plainPositions)) s.port.mask,
          [doneOf 13 (bytesOfHalf (s.conditionFlags &&& events))]) := by
      rw [← hnamed]
      rfl
    refine ⟨hflags.cleared_and_condition, hnamed, ?_⟩
    rw [exec_eventClear, hfree.deliver_setEvents htake hflags.clearEvents]
    rfl
  case readEvents =>
    rw [exec_readEvents, hfree.deliver_unchanged rfl]
    rfl

end Sys2Proof.Machine
end

section
/-! PROOFS. What every command keeps: the queue behind it (O4), the settled port (O5), the laws of the tables and of the part (O6); and the
step itself (O3). -/

namespace Sys2Proof.Machine

variable {s t : State} {L : Law → Prop} {P : Prop}

/-! ### A command is what it does, and the end that every command has -/

/-- The frame whose arrival a command is, as the port reads it; none for a command that is no frame. -/
def frameOf : Instr → Option SysFrame
  | .mount f => some (.request .mount f)
  | .scratch f => some (.request .scratch f)
  | .demount f => some (.request .demount f)
  | .eject f => some (.request .eject f)
  | .cancel tag => some (.cancel tag)
  | .label drive serial => some (.label drive serial)
  | .shortRequest body | .unknownRequestKind body => some (parseFrame 1 body)
  | .unknownFrame cls body => some (parseFrame cls body)
  | .select table index wrap => some (.select table index wrap)
  | .readEntries n => some (.readEntries n)
  | .writeEntry entry => some (.writeEntry entry)
  | .clearTable => some .clearTable
  | .start => some .start
  | .quiesce => some .quiesce
  | .resume => some .resume
  | .linkReset => some .linkReset
  | .audit first last => some (.audit first last)
  | .setClock value => some (.setClock value)
  | .readClock => some .readClock
  | .eventMask mask => some (.eventMask mask)
  | .eventClear events => some (.eventClear events)
  | .readEvents => some .readEvents
  | .readRecords n => some (.readRecords n)
  | .releaseRecords n => some (.releaseRecords n)
  | .resetCounters index => some (.resetCounters index)
  | .armServiceIn arm => some (.armService arm 0)
  | .armServiceOut arm => some (.armService arm 1)
  | .driveServiceOnline drive => some (.driveService drive 0)
  | .driveServiceOffline drive => some (.driveService drive 1)
  | _ => none

/-- The command that a frame is: it arrives, and the port works. -/
theorem exec_frame {c : Instr} {f : SysFrame} (h : frameOf c = some f) : exec c s = .next (s.deliver f).finishStep := by
  cases c <;> cases h <;> rfl

/-- The reply commands: the kind of prompt each is for, its number and its word (R126). -/
def replyOf : Instr → Option (PromptKind × Nat × ReplyWord)
  | .manualMountDone n => some (.manualMount, n, .done)
  | .manualMountCancel n => some (.manualMount, n, .cancel)
  | .ringNeededFit n => some (.ringNeeded, n, .fit)
  | .ringNeededReadonly n => some (.ringNeeded, n, .readonly)
  | .ringNeededCancel n => some (.ringNeeded, n, .cancel)
  | .labelMismatchAccept n => some (.labelMismatch, n, .accept)
  | .labelMismatchReject n => some (.labelMismatch, n, .reject)
  | .volumeSuspectProceed n => some (.volumeSuspect, n, .proceed)
  | .volumeSuspectCancel n => some (.volumeSuspect, n, .cancel)
  | .volumeLostFound n => some (.volumeLost, n, .found)
  | .volumeLostCancel n => some (.volumeLost, n, .cancel)
  | .scratchEmptyDone n => some (.scratchEmpty, n, .done)
  | .scratchEmptyCancel n => some (.scratchEmpty, n, .cancel)
  | .stationUnknownDone n => some (.stationUnknown, n, .done)
  | .driveCheckDone n => some (.driveCheck, n, .done)
  | .driveCheckOffline n => some (.driveCheck, n, .offline)
  | .armOutDone n => some (.armOut, n, .done)
  | .armOutKeep n => some (.armOut, n, .keep)
  | _ => none

/-- A reply command is the line "n WORD" for a prompt of its kind (R138). -/
theorem exec_reply {c : Instr} {k : PromptKind} {n : Nat} {w : ReplyWord} (h : replyOf c = some (k, n, w)) :
    exec c s = .next (s.lineEnded (fun s => s.reply n (· == k) w)).finishStep := by
  cases c <;> cases h <;> rfl

/-- The commands whose act is all they are before the port goes on: the reports and limits of the arms. -/
def actOf : Instr → Option (State → State)
  | .legDone a r ticks => some (fun s => s.takeReport a (.legDone r) ticks)
  | .legFault a code loaded => some (fun s => s.takeReport a (.legFault code loaded) 0)
  | .homeDone a column => some (fun s => s.takeReport a (.homeDone column) 0)
  | .statusReply a r => some (fun s => s.takeReport a (.statusReply r) 0)
  | .legTimeout a => some (fun s => s.legTimesOut a)
  | .homeTimeout a => some (fun s => s.homeTimesOut a)
  | .statusTimeout a => some (fun s => s.statusTimesOut a)
  | .lingerExpiry a => some (fun s => s.lingerEnds a)
  | _ => none

theorem exec_act {c : Instr} {f : State → State} (h : actOf c = some f) : exec c s = .next (s.act f).finishStep := by
  cases c <;> cases h <;> rfl

/-- The reports and limits of the arms keep what every operation inside a step keeps. -/
theorem Keeps.actOf {c : Instr} {f : State → State} (h : actOf c = some f) : Keeps L s (f s) := by
  cases c <;> cases h
  case legDone | legFault | homeDone | statusReply => exact (Keeps.refl s).takeReport
  case legTimeout => exact (Keeps.refl s).legTimesOut
  case homeTimeout => exact (Keeps.refl s).homeTimesOut
  case statusTimeout => exact (Keeps.refl s).statusTimesOut
  case lingerExpiry => exact (Keeps.refl s).lingerEnds

/-- The timers of the drives and the wait timer of a request: whether the timer runs, and what its expiry does. -/
def expiryOf : Instr → Option ((State → Bool) × (State → State))
  | .loadTimerExpiry d => some (fun s => (s.drive d).loadTimer.isSome, fun s => s.loadTimerExpiry d)
  | .releaseTimerExpiry d => some (fun s => (s.drive d).releaseTimer.isSome, fun s => s.releaseTimerExpiry d)
  | .labelTimerExpiry d => some (fun s => (s.drive d).labelTimer.isSome, fun s => s.labelExpiry d)
  | .waitTimerExpiry tag => some (fun s => (s.request? tag).any (·.timer.isSome), fun s => s.waitExpiry tag)
  | _ => none

theorem exec_expiry {c : Instr} {runs : State → Bool} {f : State → State} (h : expiryOf c = some (runs, f)) :
    exec c s = .next (s.expires (runs s) f).finishStep := by
  cases c <;> cases h <;> rfl

theorem Keeps.expiryOf {c : Instr} {runs : State → Bool} {f : State → State} (h : expiryOf c = some (runs, f)) : Keeps L s (f s) := by
  cases c <;> cases h
  case loadTimerExpiry => exact (Keeps.refl s).loadTimerExpiry
  case releaseTimerExpiry => exact (Keeps.refl s).releaseTimerExpiry
  case labelTimerExpiry => exact (Keeps.refl s).labelExpiry
  case waitTimerExpiry => exact (Keeps.refl s).waitExpiry

/-- The debounced changes that drive the state machine of a drive: its line, the level, and what the change does. -/
def senseOf : Instr → Option (Fin 16 × SenseLine × Bool × (State → State))
  | .loadedRise d => some (d, .loaded, true, fun s => s.onLoadedRise d)
  | .loadedFall d => some (d, .loaded, false, fun s => s.onLoadedFall d)
  | .releasedRise d => some (d, .released, true, fun s => s.onReleasedRise d)
  | .releasedFall d => some (d, .released, false, fun s => s.onReleasedFall d)
  | _ => none

theorem exec_sense {c : Instr} {d : Fin 16} {line : SenseLine} {level : Bool} {f : State → State}
    (h : senseOf c = some (d, line, level, f)) : exec c s = .next (s.senseChange d line level f).finishStep := by
  cases c <;> cases h <;> rfl

theorem Keeps.senseOf {c : Instr} {d : Fin 16} {line : SenseLine} {level : Bool} {f : State → State}
    (h : senseOf c = some (d, line, level, f)) : Keeps L s (f s) := by
  cases c <;> cases h
  case loadedRise => exact (Keeps.refl s).onLoadedRise
  case loadedFall => exact (Keeps.refl s).onLoadedFall
  case releasedRise => exact (Keeps.refl s).onReleasedRise
  case releasedFall => exact (Keeps.refl s).onReleasedFall

/-- The debounced changes of the door and of presence: the input, the level, and what the change does. -/
def inputOf : Instr → Option (RailInput × Bool × (State → State))
  | .doorOpening => some (.door, false, State.doorOpens)
  | .doorClosing => some (.door, true, State.doorCloses)
  | .presenceRise p => some (.presence p, true, fun s => s.onPresenceRise p)
  | .presenceFall p => some (.presence p, false, fun s => s.onPresenceFall p)
  | _ => none

theorem exec_input {c : Instr} {i : RailInput} {level : Bool} {f : State → State} (h : inputOf c = some (i, level, f)) :
    exec c s = .next (s.inputChange i level f).finishStep := by
  cases c <;> cases h <;> rfl

theorem Keeps.inputOf {c : Instr} {i : RailInput} {level : Bool} {f : State → State} (h : inputOf c = some (i, level, f)) :
    Keeps L s (f s) := by
  cases c <;> cases h
  case doorOpening => exact (Keeps.refl s).doorOpens
  case doorClosing => exact (Keeps.refl s).doorCloses
  case presenceRise => exact (Keeps.refl s).onPresenceRise
  case presenceFall => exact (Keeps.refl s).onPresenceFall

/-- A property of commands, family by family. -/
theorem Instr.byFamily {motive : Instr → Prop}
    (frame : ∀ c f, frameOf c = some f → motive c) (reply : ∀ c k n w, replyOf c = some (k, n, w) → motive c)
    (act : ∀ c f, actOf c = some f → motive c) (expiry : ∀ c runs f, expiryOf c = some (runs, f) → motive c)
    (sense : ∀ c d line level f, senseOf c = some (d, line, level, f) → motive c)
    (input : ∀ c i level f, inputOf c = some (i, level, f) → motive c)
    (powerOnReset : motive .powerOnReset) (byteReceived : ∀ p b ticks, motive (.byteReceived p b ticks))
    (gapTimeout : ∀ p, motive (.gapTimeout p)) (frameSent : motive .frameSent) (resetTakesHold : motive .resetTakesHold)
    (armFrameSent : ∀ a, motive (.armFrameSent a)) (clockSecond : motive .clockSecond)
    (panelCharacter : ∀ code, motive (.panelCharacter code)) (panelLine : ∀ text, motive (.panelLine text))
    (ack : ∀ n, motive (.ack n)) (ackAll : motive .ackAll) (list : motive .list) (panelQuiesce : motive .panelQuiesce)
    (panelResume : motive .panelResume) (panelLineSent : motive .panelLineSent) (escalationExpiry : ∀ n, motive (.escalationExpiry n))
    (phaseTimerExpiry : ∀ o, motive (.phaseTimerExpiry o)) (driveRawChange : ∀ d line level, motive (.driveRawChange d line level))
    (protectChange : ∀ d, motive (.protectChange d)) (pulseEnd : ∀ d, motive (.pulseEnd d))
    (inputRawChange : ∀ i level, motive (.inputRawChange i level)) (c : Instr) : motive c := by
  cases c
  case mount | scratch | demount | eject | cancel | label | shortRequest | unknownFrame | select | readEntries | writeEntry | clearTable
    | start | quiesce | resume | linkReset | audit | setClock | readClock | eventMask | eventClear | readEvents | readRecords
    | releaseRecords | resetCounters | armServiceIn | armServiceOut | driveServiceOnline | driveServiceOffline
    | unknownRequestKind => exact frame _ _ rfl
  case manualMountDone | manualMountCancel | ringNeededFit | ringNeededReadonly | ringNeededCancel | labelMismatchAccept
    | labelMismatchReject | volumeSuspectProceed | volumeSuspectCancel | volumeLostFound | volumeLostCancel | scratchEmptyDone
    | scratchEmptyCancel | stationUnknownDone | driveCheckDone | driveCheckOffline | armOutDone | armOutKeep => exact reply _ _ _ _ rfl
  case legDone | legFault | homeDone | statusReply | legTimeout | homeTimeout | statusTimeout | lingerExpiry => exact act _ _ rfl
  case loadTimerExpiry | releaseTimerExpiry | labelTimerExpiry | waitTimerExpiry => exact expiry _ _ _ rfl
  case loadedRise | loadedFall | releasedRise | releasedFall => exact sense _ _ _ _ _ rfl
  case doorOpening | doorClosing | presenceRise | presenceFall => exact input _ _ _ _ rfl
  case powerOnReset => exact powerOnReset
  case byteReceived => exact byteReceived _ _ _
  case gapTimeout => exact gapTimeout _
  case frameSent => exact frameSent
  case resetTakesHold => exact resetTakesHold
  case armFrameSent => exact armFrameSent _
  case clockSecond => exact clockSecond
  case panelCharacter => exact panelCharacter _
  case panelLine => exact panelLine _
  case ack => exact ack _
  case ackAll => exact ackAll
  case list => exact list
  case panelQuiesce => exact panelQuiesce
  case panelResume => exact panelResume
  case panelLineSent => exact panelLineSent
  case escalationExpiry => exact escalationExpiry _
  case phaseTimerExpiry => exact phaseTimerExpiry _
  case driveRawChange => exact driveRawChange _ _ _
  case protectChange => exact protectChange _
  case pulseEnd => exact pulseEnd _
  case inputRawChange => exact inputRawChange _ _

/-! ### The laws of the tables and of the part (O6) -/

theorem State.LawfulIf.expires (h : s.LawfulIf P) {b : Bool} {f : State → State} (k : Keeps allLaws s (f s)) :
    (s.expires b f).LawfulIf P := by
  unfold State.expires
  split
  · exact h.act k
  · exact h

/-- Every command answers a next state, lawful where the state before it was; and the laws of the part with those of the tables. -/
theorem State.LawfulIf.exec (h : s.LawfulIf P) (c : Instr) : ∃ t, exec c s = .next t ∧ t.LawfulIf P := by
  have kept : Keeps allLaws s s := Keeps.refl s
  induction c using Instr.byFamily with
  | frame c f hc => exact ⟨_, exec_frame hc, h.deliver.finishStep⟩
  | reply c k n w hc => exact ⟨_, exec_reply hc, (h.lineEnded (fun _ k hl => k.reply hl)).finishStep⟩
  | act c f hc => exact ⟨_, exec_act hc, (h.act (Keeps.actOf hc)).finishStep⟩
  | expiry c runs f hc => exact ⟨_, exec_expiry hc, (h.expires (Keeps.expiryOf hc)).finishStep⟩
  | sense c d line level f hc => exact ⟨_, exec_sense hc, (h.senseChange (fun _ => Keeps.senseOf hc)).finishStep⟩
  | input c i level f hc => exact ⟨_, exec_input hc, (h.inputChange (fun _ => Keeps.inputOf hc)).finishStep⟩
  | powerOnReset => exact ⟨_, rfl, .powerOn⟩
  | byteReceived p b ticks => exact ⟨_, rfl, h.received.finishStep⟩
  | gapTimeout p => exact ⟨_, rfl, h.received.finishStep⟩
  | frameSent => exact ⟨_, rfl, h.frameSent.finishStep⟩
  | resetTakesHold =>
    refine ⟨_, rfl, State.LawfulIf.finishStep ?_⟩
    split
    · exact h.frameSent
    · exact h
  | armFrameSent a => exact ⟨_, rfl, (kept.armLineFree.lawful h).finishStep⟩
  | clockSecond => exact ⟨_, rfl, State.LawfulIf.finishStep h⟩
  | panelCharacter code => exact ⟨_, rfl, h.typeChar.finishStep⟩
  | panelLine text => exact ⟨_, rfl, h.typeLine.finishStep⟩
  | ack n => exact ⟨_, rfl, (h.lineEnded (fun _ k hl => k.lineAck hl)).finishStep⟩
  | ackAll => exact ⟨_, rfl, (h.lineEnded (fun _ k hl => k.lineAckAll hl)).finishStep⟩
  | list => exact ⟨_, rfl, (h.lineEnded (fun _ k hl => k.lineList hl)).finishStep⟩
  | panelQuiesce => exact ⟨_, rfl, (h.lineEnded (fun _ k hl => k.lineService hl (fun _ e => Keeps.takeQuiesce e))).finishStep⟩
  | panelResume => exact ⟨_, rfl, (h.lineEnded (fun _ k hl => k.lineService hl (fun _ e => Keeps.takeResume e))).finishStep⟩
  | panelLineSent => exact ⟨_, rfl, State.LawfulIf.finishStep h⟩
  | escalationExpiry n => exact ⟨_, rfl, h.escalationExpiry.finishStep⟩
  | phaseTimerExpiry o => exact ⟨_, rfl, (kept.phaseExpiry.lawful h).finishStep⟩
  | driveRawChange d line level => exact ⟨_, rfl, h.driveRaw.finishStep⟩
  | protectChange d =>
    refine ⟨_, rfl, State.LawfulIf.finishStep ?_⟩
    cases e : s.driveLevel d .protect (s.drive d).raw.protect with
    | none => exact h
    | some u => exact ((Keeps.refl u).onProtectChange).lawful (h.driveLevel e)
  | pulseEnd d => exact ⟨_, rfl, (h.updDrive (f := fun x => { x with pulse := none }) (fun _ => rfl)).finishStep⟩
  | inputRawChange i level => exact ⟨_, rfl, h.inputRaw.finishStep⟩

/-- A step is idle, or the command at the front of the queue on the state with the queue's rest. -/
theorem step_cases (e : step s = .next t) :
    (s.pending = [] ∧ t = s) ∨ ∃ c rest, s.pending = c :: rest ∧ exec c { s with pending := rest } = .next t := by
  unfold step at e
  split at e
  case h_1 hp => exact .inl ⟨hp, (Host.Outcome.next.inj e).symm⟩
  case h_2 c rest hp => exact .inr ⟨c, rest, hp, e⟩

/-- Settles O3: both parts are the two branches of `step`. -/
theorem stepTakesTheFront : Obligations.StepTakesTheFront := by
  refine ⟨fun c rest s => rfl, fun s hp => ?_⟩
  unfold step
  rw [hp]

/-- Settles O6, by `State.LawfulIf.exec` for the command at the front of the queue. -/
theorem everyStepKeepsTheLaws : Obligations.EveryStepKeepsTheLaws := by
  intro s t hlaw hstep
  obtain ⟨_, rfl⟩ | ⟨c, rest, _, hexec⟩ := step_cases hstep
  · exact ⟨hlaw, id⟩
  · obtain ⟨hdir, hacc, hqueue, hlists⟩ := hlaw
    have hbehind : State.LawfulIf s.PartLawful { s with pending := rest } := ⟨hdir, hacc, hqueue, hlists, id⟩
    obtain ⟨u, hu, kdir, kacc, kqueue, klists, kpart⟩ := hbehind.exec c
    obtain rfl : u = t := Host.Outcome.next.inj (hu.symm.trans hexec)
    exact ⟨⟨kdir, kacc, kqueue, klists⟩, kpart⟩

end Sys2Proof.Machine
end

section
/-! PROOFS. What the commands from inside the part leave of the inputs (O7), and with that the queue of commands and the receive buffer at every
command (O4, O5). -/

namespace Sys2Proof.Machine

variable {s t u : State} {L : Law → Prop}

/-! ### What is kept before the port and the panel line go on -/

/-- `t` has of `s` what comes in from outside and what only the system writes; it may differ in the panel line, and in all that the blocks
work with. -/
structure Inside (s t : State) : Prop where
  port : { t.port with flags := 0, noticeOwed := false, replyOwed := [] } =
    { s.port with flags := 0, noticeOwed := false, replyOwed := [] }
  pending : t.pending = s.pending
  fences : t.dir.fences = s.dir.fences
  drives : ∀ d, (t.drive d).wiring = (s.drive d).wiring
  stations : ∀ p, (t.station p).wiring = (s.station p).wiring
  door : (t.mon.doorRaw, t.mon.doorClosed, t.mon.doorInterval) = (s.mon.doorRaw, s.mon.doorClosed, s.mon.doorInterval)
  templates : t.pr.templates = s.pr.templates
  asked : t.requestsAsked = s.requestsAsked
  volumes : Canonical s.dir.entries → Canonical t.dir.entries ∧ t.volumeIdentities = s.volumeIdentities
  accounts : Canonical s.acc.accounts → Canonical t.acc.accounts ∧ t.accountIdentities = s.accountIdentities
  records : s.acc.records <+: t.acc.records

theorem Keeps.inside (k : Keeps L s t) : Inside s t where
  port := k.port
  pending := k.pending
  fences := k.fences
  drives := k.drives
  stations := k.stations
  door := k.door
  templates := congrArg (fun x => x.1) k.panel
  asked := k.asked
  volumes := k.volumes
  accounts := k.accounts
  records := k.records

theorem Inside.refl : Inside s s := (Keeps.refl (L := allLaws) s).inside

theorem Inside.trans (h : Inside s t) (k : Inside t u) : Inside s u where
  port := k.port.trans h.port
  pending := k.pending.trans h.pending
  fences := k.fences.trans h.fences
  drives d := (k.drives d).trans (h.drives d)
  stations p := (k.stations p).trans (h.stations p)
  door := k.door.trans h.door
  templates := k.templates.trans h.templates
  asked := k.asked.trans h.asked
  volumes c := ⟨(k.volumes (h.volumes c).1).1, (k.volumes (h.volumes c).1).2.trans (h.volumes c).2⟩
  accounts c := ⟨(k.accounts (h.accounts c).1).1, (k.accounts (h.accounts c).1).2.trans (h.accounts c).2⟩
  records := h.records.trans k.records

/-- The panel's own record may change, but for the templates. -/
theorem Inside.setPr {p : PromptBlock} (h : p.templates = s.pr.templates) : Inside s { s with pr := p } :=
  { Inside.refl (s := s) with templates := h }

theorem Inside.act {f : State → State} (k : Keeps allLaws s (f s)) : Inside s (s.act f) := ((Keeps.refl (L := allLaws) s).act k).inside

theorem Inside.answer {a : Answer} : Inside s (s.answer a) := Inside.setPr rfl

theorem Inside.lineEnded {f : State → State} (hf : ∀ u : State, Inside u (f u)) : Inside s (s.lineEnded f) := by
  unfold State.lineEnded
  dsimp only
  split
  · exact .setPr rfl
  · refine Inside.trans ?_ (hf _)
    exact .setPr rfl

theorem Inside.lineAck {n : Nat} : Inside s (s.lineAck n) := by
  unfold State.lineAck
  split
  · exact (Keeps.refl (L := allLaws) s).ackPrompt.inside.trans .answer
  · exact .answer

theorem Inside.lineAckAll : Inside s s.lineAckAll := (Keeps.refl (L := allLaws) s).ackAllPrompts.inside.trans .answer

theorem Inside.lineList : Inside s s.lineList := (Keeps.refl (L := allLaws) s).listPrompts.inside.trans .answer

theorem Inside.lineService {x : Option State} (k : ∀ u, x = some u → Inside s u) : Inside s (s.lineService x) := by
  unfold State.lineService
  split
  · exact (k _ rfl).trans .answer
  · exact .answer

theorem Inside.lineQuiesce : Inside s (s.lineService s.takeQuiesce) := .lineService (fun _ e => (Keeps.takeQuiesce e).inside)

theorem Inside.lineResume : Inside s (s.lineService s.takeResume) := .lineService (fun _ e => (Keeps.takeResume e).inside)

theorem Inside.reply {n : Nat} {kind : PromptKind → Bool} {w : ReplyWord} : Inside s (s.reply n kind w) := by
  unfold State.reply
  split
  · exact .answer
  · split
    · exact Inside.answer.trans (.act (Keeps.refl _).actReply)
    · exact .answer

theorem Inside.numberLine {n : Nat} {rest : List Text} : Inside s (s.numberLine n rest) := by
  unfold State.numberLine
  split
  case h_3 =>
    split
    · exact .reply
    · exact .answer
  all_goals exact .answer

theorem Inside.wordsLine {words : List Text} : Inside s (s.wordsLine words) := by
  unfold State.wordsLine
  split
  case h_1 => exact .refl
  case h_2 first rest =>
    split
    · split
      · split
        · exact .lineAckAll
        · split
          · exact .lineAck
          · exact .answer
      · exact .answer
    · split
      · exact .lineList
      · split
        · exact .lineQuiesce
        · split
          · exact .lineResume
          · split
            · exact .numberLine
            · exact .answer

theorem Inside.endLine : Inside s s.endLine := by
  unfold State.endLine
  refine Inside.lineEnded (fun u => ?_)
  split
  · exact .answer
  · exact .wordsLine

theorem Inside.typeChar {code : BitVec 7} : Inside s (s.typeChar code) := by
  unfold State.typeChar State.holdChar
  dsimp only
  split
  · exact .endLine
  · split
    · exact .setPr rfl
    · split
      · exact .refl
      · split <;> exact .setPr rfl

theorem Inside.typeLine {text : PanelText} : Inside s (s.typeLine text) := by
  have typed (l : PanelText) : ∀ u : State, Inside u (l.foldl State.typeChar u) := by
    induction l with
    | nil => exact fun _ => .refl
    | cons c rest ih => exact fun u => Inside.typeChar.trans (ih _)
  exact (typed text s).trans .typeChar

theorem Inside.escalationExpiry {n : Nat} : Inside s (s.escalationExpiry n) := by
  unfold State.escalationExpiry
  split
  · exact .refl
  · split
    · exact .refl
    · split
      · exact (Keeps.refl (L := allLaws) s).escalate.inside
      · split
        · refine Inside.act ?_
          dsimp only
          split
          · exact (Keeps.refl s).withdraw.promptTimedOut
          · exact (Keeps.refl s).withdraw
        · exact (Keeps.refl (L := allLaws) s).endEscalation.inside

theorem Inside.expires {b : Bool} {f : State → State} (k : Keeps allLaws s (f s)) : Inside s (s.expires b f) := by
  unfold State.expires
  split
  · exact .act k
  · exact .refl

theorem Inside.pulseEnd {d : Fin 16} : Inside s (s.updDrive d (fun x => { x with pulse := none })) := by
  refine { Inside.refl (s := s) with drives := fun e => ?_ }
  by_cases he : e = d
  · rw [he, State.updDrive_drive_self]
    rfl
  · rw [State.updDrive_drive_ne he]

/-- What an inner command does before the port and the panel line go on: all but the end of a second keep what comes in from outside. -/
theorem Inside.exec {c : Instr} (hc : isInner c = true) (hclock : c ≠ .clockSecond) : ∃ u, exec c s = .next u.finishStep ∧ Inside s u := by
  induction c using Instr.byFamily with
  | frame c f h => cases c <;> cases h <;> cases hc
  | reply c k n w h => exact ⟨_, exec_reply h, .lineEnded (fun _ => .reply)⟩
  | act c f h => exact ⟨_, exec_act h, .act (Keeps.actOf h)⟩
  | expiry c runs f h => exact ⟨_, exec_expiry h, .expires (Keeps.expiryOf h)⟩
  | sense c d line level f h => cases c <;> cases h <;> cases hc
  | input c i level f h => cases c <;> cases h <;> cases hc
  | clockSecond => exact absurd rfl hclock
  | armFrameSent a => exact ⟨_, rfl, (Keeps.refl (L := allLaws) s).armLineFree.inside⟩
  | panelCharacter code => exact ⟨_, rfl, .typeChar⟩
  | panelLine text => exact ⟨_, rfl, .typeLine⟩
  | ack n => exact ⟨_, rfl, .lineEnded (fun _ => .lineAck)⟩
  | ackAll => exact ⟨_, rfl, .lineEnded (fun _ => .lineAckAll)⟩
  | list => exact ⟨_, rfl, .lineEnded (fun _ => .lineList)⟩
  | panelQuiesce => exact ⟨_, rfl, .lineEnded (fun _ => .lineQuiesce)⟩
  | panelResume => exact ⟨_, rfl, .lineEnded (fun _ => .lineResume)⟩
  | panelLineSent => exact ⟨_, rfl, .setPr rfl⟩
  | escalationExpiry n => exact ⟨_, rfl, .escalationExpiry⟩
  | phaseTimerExpiry o => exact ⟨_, rfl, (Keeps.refl (L := allLaws) s).phaseExpiry.inside⟩
  | pulseEnd d => exact ⟨_, rfl, .pulseEnd⟩
  | powerOnReset | byteReceived | gapTimeout | frameSent | resetTakesHold | driveRawChange | protectChange | inputRawChange => cases hc

/-! ### What the end of a command leaves, where no frame may be taken -/

theorem State.nextOut_of_busy (h : s.port.sending ≠ none) : s.nextOut = none := by
  obtain ⟨f, hf⟩ := Option.ne_none_iff_exists'.mp h
  simp only [State.nextOut, hf]

/-- With no frame to take and no answer that waits for a free line, the port hands out one message at most. -/
theorem State.pump_cases {n : Nat} (hm : s.mayTake = false) (hi : s.port.sending = none → s.port.immediate = []) :
    s.nextOut = none ∧ State.pump (n + 2) s = s ∨ ∃ t, s.nextOut = some t ∧ State.pump (n + 2) s = t := by
  unfold State.pump
  cases e : s.nextOut with
  | none => exact .inl ⟨rfl, by simp [hm]⟩
  | some t =>
    obtain ⟨hfree, hbusy, hbuffer⟩ := State.nextOut_some e
    have hsame : t.port.immediate = s.port.immediate ∧ t.port.resetting = s.port.resetting := by
      unfold State.nextOut at e
      split at e
      · cases e
      · rename_i h; rw [hi hfree] at h; cases h
      · cases e; exact ⟨rfl, rfl⟩
      · split at e <;> cases e
        exact ⟨rfl, rfl⟩
    have hmay : t.mayTake = false := by
      rw [← hm]
      unfold State.mayTake
      rw [hsame.1, hsame.2, hbuffer]
    have hnone : t.nextOut = none := State.nextOut_of_busy hbusy
    refine .inr ⟨t, rfl, ?_⟩
    dsimp only
    unfold State.pump
    rw [hnone]
    simp [hmay]

/-- What the transmitter and the panel line leave of what comes in from outside: requests may leave the queue, and claims lose their tags. -/
structure Ends (s t : State) : Prop where
  dir : t.dir = s.dir
  mon : t.mon = s.mon
  acc : t.acc = s.acc
  drives : ∀ d, (t.drive d).wiring = (s.drive d).wiring
  templates : t.pr.templates = s.pr.templates
  port : { t.port with flags := 0, noticeOwed := false, replyOwed := [], sending := none, immediate := [] } =
    { s.port with flags := 0, noticeOwed := false, replyOwed := [], sending := none, immediate := [] }
  asked : t.requestsAsked.Sublist s.requestsAsked

theorem Ends.refl : Ends s s := ⟨rfl, rfl, rfl, fun _ => rfl, rfl, rfl, List.Sublist.refl _⟩

theorem Ends.trans (h : Ends s t) (k : Ends t u) : Ends s u where
  dir := k.dir.trans h.dir
  mon := k.mon.trans h.mon
  acc := k.acc.trans h.acc
  drives d := (k.drives d).trans (h.drives d)
  templates := k.templates.trans h.templates
  port := k.port.trans h.port
  asked := k.asked.trans h.asked

theorem Ends.leaveQueue {tag : Half} : Ends s (s.leaveQueue tag) where
  dir := rfl
  mon := rfl
  acc := rfl
  drives d := by simp [State.leaveQueue, State.drive, mapVec, Drive.wiring]
  templates := rfl
  port := rfl
  asked := List.Sublist.map _ List.filter_sublist

theorem Ends.nextOut (e : s.nextOut = some t) : Ends s t := by
  unfold State.nextOut at e
  split at e
  · cases e
  · cases e
    exact { Ends.refl (s := s) with }
  · cases e
    rename_i tag r rest _ _ _
    have hleft := Ends.leaveQueue (s := { s with port := { s.port with replyOwed := rest } }) (tag := tag)
    exact { hleft with }
  · split at e <;> cases e
    exact { Ends.refl (s := s) with }

theorem Ends.refreshConditions : Ends s s.refreshConditions := { Ends.refl (s := s) with }

theorem Ends.panelPump : Ends s s.panelPump := by
  have hrest := State.panelPump_rest (s := s)
  generalize hp : s.panelPump = v at hrest
  have htemplates : v.pr.templates = s.pr.templates := by
    rw [← hp]
    unfold State.panelPump
    repeat' split
    all_goals rfl
  rw [← hrest]
  exact { Ends.refl (s := v) with templates := htemplates }

theorem Ends.finishStep (hm : s.mayTake = false) (hi : s.port.sending = none → s.port.immediate = []) : Ends s s.finishStep := by
  have hpump : Ends s.refreshConditions (State.pump pumpRounds s.refreshConditions) := by
    have hcases := State.pump_cases (s := s.refreshConditions) (n := 10) hm hi
    rw [show 10 + 2 = pumpRounds from rfl] at hcases
    obtain ⟨_, e⟩ | ⟨t, hnext, e⟩ := hcases
    · rw [e]
      exact .refl
    · rw [e]
      exact .nextOut hnext
  exact ((Ends.refreshConditions.trans hpump).trans .panelPump).trans .refreshConditions

/-! ### The frame of the inner commands (O7) -/

theorem Inside.mayTake (k : Inside s t) : t.mayTake = s.mayTake := by
  have hport := k.port
  simp only [PortBlock.mk.injEq] at hport
  simp only [State.mayTake, hport]

theorem Inside.line (k : Inside s t) (h : s.LineSettled) : t.port.sending = none → t.port.immediate = [] := by
  have hport := k.port
  simp only [PortBlock.mk.injEq] at hport
  simp only [hport]
  exact fun hfree => (h.1 hfree).1

/-- Settles O7: what an inner command does keeps the inputs (`Inside.exec`), and so does the end that it has (`Ends.finishStep`); the end of a
second changes the clock alone. -/
theorem innerCommandsKeepTheInputs : Obligations.InnerCommandsKeepTheInputs := by
  intro c s t hc hsettled hvolumes haccounts hexec
  by_cases hclock : c = .clockSecond
  · subst hclock
    have hport : (s.setClock (s.clock + 1)).Settled := hsettled
    have hdone : exec .clockSecond s = .next (s.setClock (s.clock + 1)) := congrArg Host.Outcome.next (State.finishStep_of_settled hport)
    obtain rfl : s.setClock (s.clock + 1) = t := Host.Outcome.next.inj (hdone.symm.trans hexec)
    exact ⟨fun _ => rfl, fun _ => rfl, rfl, rfl, rfl, rfl, rfl, rfl, rfl, rfl, rfl, rfl, rfl, List.prefix_refl _, List.Sublist.refl _, rfl⟩
  · obtain ⟨u, hu, k⟩ := Inside.exec (s := s) hc hclock
    obtain rfl : u.finishStep = t := Host.Outcome.next.inj (hu.symm.trans hexec)
    obtain ⟨_, _, hline, _⟩ := hsettled
    have e := Ends.finishStep (s := u) (k.mayTake.trans hline.2) (k.line hline)
    have hport := k.port
    have hends := e.port
    simp only [PortBlock.mk.injEq] at hport hends
    have hdir := e.dir
    have hmon := e.mon
    have hacc := e.acc
    refine ⟨fun d => (e.drives d).trans (k.drives d), fun p => ?stations, ?door, ?volumes, ?accounts, ?fences,
      e.templates.trans k.templates, ?settings, ?mask, ?cursors, ?current, ?rx, ?buffer, ?records, ?asked, ?clock⟩
    case stations => rw [← k.stations p, State.station, hmon]; rfl
    case door => rw [hmon]; exact k.door
    case volumes => rw [← (k.volumes hvolumes).2, State.volumeIdentities, hdir]; rfl
    case accounts => rw [← (k.accounts haccounts).2, State.accountIdentities, hacc]; rfl
    case fences => rw [hdir]; exact k.fences
    case records => rw [hacc]; exact k.records
    case asked => rw [← k.asked]; exact e.asked
    all_goals simp only [hends, hport, hclock, if_false]

/-! ### The queue behind a command (O4) and the receive buffer (O5) -/

/-- What waits behind a command is not touched, and the receive buffer stays within its bound. -/
structure Behind (s t : State) : Prop where
  pending : t.pending = s.pending
  buffer : s.BufferFits → t.BufferFits

theorem Behind.refl : Behind s s := ⟨rfl, id⟩

theorem Behind.trans (h : Behind s t) (k : Behind t u) : Behind s u := ⟨k.pending.trans h.pending, k.buffer ∘ h.buffer⟩

theorem Behind.of_buffer (hp : t.pending = s.pending) (hb : t.port.buffer = s.port.buffer) : Behind s t :=
  ⟨hp, fun h => by unfold State.BufferFits; rw [hb]; exact h⟩

theorem SamePort.behind (h : SamePort s t) : Behind s t := by
  obtain ⟨hbuffer, _, _, hpending⟩ := h
  exact .of_buffer hpending hbuffer

theorem Inside.behind (k : Inside s t) : Behind s t := by
  have hbuffer := congrArg PortBlock.buffer k.port
  exact .of_buffer k.pending hbuffer

theorem Keeps.behind (k : Keeps L s t) : Behind s t := k.inside.behind

theorem Behind.act {f : State → State} : Behind s (s.act f) := SamePort.act.behind

theorem Behind.raise {e : Event} : Behind s (s.raise e) := .of_buffer rfl rfl

theorem Behind.nextOut (e : s.nextOut = some t) : Behind s t := by
  unfold State.nextOut at e
  split at e
  · cases e
  · cases e; exact .of_buffer rfl rfl
  · cases e; exact .of_buffer rfl rfl
  · split at e <;> cases e
    exact .of_buffer rfl rfl

theorem Behind.takeNext : Behind s s.takeNext := by
  unfold State.takeNext
  split
  · exact .refl
  · rename_i f rest hb
    obtain ⟨hbuffer, _, _, hpending⟩ := SamePort.takeFrame (s := { s with port := { s.port with buffer := rest } }) (f := f)
    refine ⟨hpending, fun h => ?_⟩
    have hshort : rest.length ≤ Config.maxBuffer := by
      unfold State.BufferFits at h
      rw [hb, List.length_cons] at h
      exact Nat.le_of_succ_le h
    exact (congrArg List.length hbuffer).le.trans hshort

theorem Behind.pump {n : Nat} : Behind s (State.pump n s) := by
  induction n generalizing s with
  | zero => exact .refl
  | succ n ih =>
    unfold State.pump
    split
    · rename_i e
      exact (Behind.nextOut e).trans ih
    · split
      · exact Behind.takeNext.trans ih
      · exact .refl

theorem Behind.refreshConditions : Behind s s.refreshConditions := .of_buffer rfl rfl

theorem Behind.panelPump : Behind s s.panelPump := by
  have hpending := congrArg State.pending (State.panelPump_rest (s := s))
  exact .of_buffer hpending (congrArg PortBlock.buffer State.panelPump_port)

theorem Behind.finishStep : Behind s s.finishStep :=
  ((Behind.refreshConditions.trans .pump).trans .panelPump).trans .refreshConditions

theorem Behind.deliver {f : SysFrame} : Behind s (s.deliver f) := by
  unfold State.deliver
  split
  · rename_i hroom
    refine ⟨rfl, fun _ => ?_⟩
    show (s.port.buffer ++ [f]).length ≤ _
    rw [List.length_append]
    exact hroom
  · exact .raise

theorem Behind.setRx {p : PortId} {rx : Rx} : Behind s (s.setRx p rx) := by
  unfold State.setRx
  split
  · exact .of_buffer rfl rfl
  · exact .of_buffer (by simp) (by simp)

theorem Behind.takeReceived {p : PortId} {ticks : Nat} {r : Received} : Behind s (s.takeReceived p ticks r) := by
  unfold State.takeReceived
  split
  · exact .raise
  · exact Behind.deliver.trans .pump
  · split
    · exact Behind.act.trans .refreshConditions
    · exact .raise

theorem Behind.received {p : PortId} {ticks : Nat} {x : Rx × List Received} : Behind s (s.received p ticks x) := by
  have taken (l : List Received) : ∀ u : State, Behind u (l.foldl (fun s r => s.takeReceived p ticks r) u) := by
    induction l with
    | nil => exact fun _ => .refl
    | cons r rest ih => exact fun u => Behind.takeReceived.trans (ih _)
  exact Behind.setRx.trans (taken _ _)

theorem Behind.performReset : Behind s s.performReset := by
  have hempty : Behind s s.resetPort := ⟨rfl, fun _ => Nat.zero_le _⟩
  have hnotice (u : State) (b : Bool) : Behind u { u with port := { u.port with noticeOwed := b } } := .of_buffer rfl rfl
  unfold State.performReset
  exact ((hempty.trans .act).trans .refreshConditions).trans (hnotice _ _)

theorem Behind.frameSent : Behind s s.frameSent := by
  unfold State.frameSent
  split
  · exact .refl
  · dsimp only
    split
    · refine Behind.trans ?_ .performReset
      exact .of_buffer rfl rfl
    · exact .of_buffer rfl rfl

theorem Behind.driveLevel {d : Fin 16} {line : SenseLine} {level : Bool} (e : s.driveLevel d line level = some t) : Behind s t := by
  unfold State.driveLevel at e
  dsimp only at e
  split at e <;> cases e
  split <;> exact .of_buffer rfl rfl

theorem Behind.setInput {i : RailInput} {raw debounced : Bool} {interval : Option Nat} : Behind s (s.setInput i raw debounced interval) := by
  unfold State.setInput
  split <;> exact .of_buffer rfl rfl

theorem Behind.inputRaw {i : RailInput} {level : Bool} : Behind s (s.inputRaw i level) := by
  unfold State.inputRaw
  dsimp only
  split
  · exact .refl
  · exact .setInput

theorem Behind.senseChange {d : Fin 16} {line : SenseLine} {level : Bool} {f : State → State} : Behind s (s.senseChange d line level f) := by
  unfold State.senseChange
  split
  · exact .act
  · exact .refl

theorem Behind.inputChange {i : RailInput} {level : Bool} {f : State → State} : Behind s (s.inputChange i level f) := by
  unfold State.inputChange
  split
  · exact .act
  · exact .refl

/-- Every command but POWER_ON_RESET ends as `State.finishStep` says, on a state that has the queue behind it and a receive buffer within its
bound. -/
theorem Behind.exec {c : Instr} (hc : c ≠ .powerOnReset) : ∃ u, exec c s = .next u.finishStep ∧ Behind s u := by
  by_cases hclock : c = .clockSecond
  · exact hclock ▸ ⟨_, rfl, .of_buffer rfl rfl⟩
  by_cases hinner : isInner c = true
  · obtain ⟨u, hu, k⟩ := Inside.exec (s := s) hinner hclock
    exact ⟨u, hu, k.behind⟩
  induction c using Instr.byFamily with
  | frame c f h => exact ⟨_, exec_frame h, .deliver⟩
  | sense c d line level f h => exact ⟨_, exec_sense h, .senseChange⟩
  | input c i level f h => exact ⟨_, exec_input h, .inputChange⟩
  | reply c k n w h => cases c <;> cases h <;> exact absurd rfl hinner
  | act c f h => cases c <;> cases h <;> exact absurd rfl hinner
  | expiry c runs f h => cases c <;> cases h <;> exact absurd rfl hinner
  | powerOnReset => exact absurd rfl hc
  | byteReceived p b ticks => exact ⟨_, rfl, .received⟩
  | gapTimeout p => exact ⟨_, rfl, .received⟩
  | frameSent => exact ⟨_, rfl, .frameSent⟩
  | resetTakesHold =>
    refine ⟨_, rfl, ?_⟩
    split
    · exact .frameSent
    · exact .refl
  | driveRawChange d line level => exact ⟨_, rfl, .of_buffer rfl rfl⟩
  | protectChange d =>
    refine ⟨_, rfl, ?_⟩
    cases e : s.driveLevel d .protect (s.drive d).raw.protect with
    | none => exact .refl
    | some u => exact (Behind.driveLevel e).trans (Keeps.refl (L := allLaws) u).onProtectChange.behind
  | inputRawChange i level => exact ⟨_, rfl, .inputRaw⟩
  | clockSecond | armFrameSent | panelCharacter | panelLine | ack | ackAll | list | panelQuiesce | panelResume | panelLineSent
  | escalationExpiry | phaseTimerExpiry | pulseEnd => exact absurd rfl hinner

/-- Settles O4: POWER_ON_RESET keeps the queue by its definition, every other command by `Behind.exec`. -/
theorem noCommandStops : Obligations.NoCommandStops := by
  intro c s
  by_cases hc : c = .powerOnReset
  · exact hc ▸ ⟨_, rfl, rfl⟩
  · obtain ⟨u, hu, k⟩ := Behind.exec (s := s) hc
    exact ⟨_, hu, (k.trans .finishStep).pending⟩

theorem State.powerOn_flagsSettled {drives : Vector Levels 16} {door : Bool} {presence : Vector Bool 8} {pending : List Instr} :
    (State.powerOn drives door presence pending).FlagsSettled := by
  have hdrives : (State.powerOn drives door presence pending).driveAttention = false := by
    unfold State.driveAttention
    rw [List.any_eq_false]
    intro d _
    simp [State.drive, State.powerOn, mapVec, Drive.powerOn]
  have harms : (State.powerOn drives door presence pending).armAttention = false := rfl
  have hrecords : (State.powerOn drives door presence pending).recordsHigh = false := by
    have hthreshold : defaultSettings[34] = .number 224 := by decide
    simp [State.recordsHigh, State.recordsHighThreshold, State.recordSum, State.setting, State.powerOn, hthreshold]
  have hflags : (State.powerOn drives door presence pending).conditionFlags = powerOnFlags door := by
    unfold State.conditionFlags
    rw [hdrives, harms, hrecords]
    cases door <;> simp [State.powerOn, powerOnFlags, positionBit]
  unfold State.FlagsSettled
  rw [hflags]
  show powerOnFlags door = (powerOnFlags door &&& plainPositions) ||| powerOnFlags door
  cases door <;> decide

/-- The part is settled after power-on, whatever the levels on its pins: no notice is owed, and both lines are free with nothing to send. -/
theorem State.powerOn_settled {drives : Vector Levels 16} {door : Bool} {presence : Vector Bool 8} {pending : List Instr} :
    (State.powerOn drives door presence pending).Settled :=
  ⟨State.powerOn_flagsSettled, fun _ => rfl, ⟨fun _ => ⟨rfl, rfl, rfl⟩, rfl⟩, fun _ => ⟨rfl, rfl, rfl, rfl⟩⟩

/-- Settles O5: the end of a command settles the port and the panel line (`State.finishStep_settled`), and power-on leaves them settled. -/
theorem everyStepSettles : Obligations.EveryStepSettles := by
  intro s t hsettled hfits hstep
  obtain ⟨_, rfl⟩ | ⟨c, rest, _, hexec⟩ := step_cases hstep
  · exact ⟨hsettled, hfits⟩
  · by_cases hc : c = .powerOnReset
    · subst hc
      obtain rfl := Host.Outcome.next.inj hexec
      exact ⟨State.powerOn_settled, Nat.zero_le _⟩
    · obtain ⟨u, hu, k⟩ := Behind.exec (s := { s with pending := rest }) hc
      obtain rfl : u.finishStep = t := Host.Outcome.next.inj (hu.symm.trans hexec)
      exact State.finishStep_settled (k.buffer hfits)

end Sys2Proof.Machine
end

section
/-! PROOFS. Power-on (O1, O2), the clock (O15) and the answer to LINK RESET (O26). -/

namespace Sys2Proof.Machine

variable {s t : State}

/-! ### Power-on (O1, O2) -/

theorem mapVec_getElem {α β : Type} {n : Nat} {f : α → β} {v : Vector α n} {i : Nat} (h : i < n) : (mapVec f v)[i] = f v[i] := by
  simp [mapVec]

section

variable {drives : Vector Levels 16} {door : Bool} {presence : Vector Bool 8} {pending : List Instr}

theorem State.powerOn_drive {d : Fin 16} : (State.powerOn drives door presence pending).drive d = Drive.powerOn drives[d] :=
  mapVec_getElem d.isLt

theorem State.powerOn_station {p : Fin 8} : (State.powerOn drives door presence pending).station p = Station.powerOn presence[p] :=
  mapVec_getElem p.isLt

end

theorem State.reset_drive {d : Fin 16} : State.reset.drive d = Drive.powerOn ⟨false, false, false⟩ := by
  rw [State.reset, State.powerOn_drive]
  simp

theorem State.reset_station {p : Fin 8} : State.reset.station p = Station.powerOn false := by
  rw [State.reset, State.powerOn_station]
  simp

/-- The part is settled at `State.reset`. -/
theorem State.reset_settled : State.reset.Settled := State.powerOn_settled

/-- The laws of the tables and of the part hold at `State.reset`. -/
theorem State.reset_lawful : State.reset.Lawful ∧ State.reset.PartLawful := by
  obtain ⟨hdir, hacc, hqueue, hlists, hpart⟩ : State.reset.LawfulIf True := .powerOn
  exact ⟨⟨hdir, hacc, hqueue, hlists⟩, hpart trivial⟩

/-- Settles O1: the values by the definition of `State.reset`, the laws and the rest as they hold at every power-on. -/
theorem resetValues : Obligations.ResetValues := by
  unfold Obligations.ResetValues
  intro s
  have ⟨hlaw, hpart⟩ := State.reset_lawful
  have hcursors (t : Fin 13) : s.port.cursors[t] = ⟨0, false⟩ := Vector.getElem_replicate _
  have hfences (i : Fin 8) : s.dir.fences[i] = none := Vector.getElem_replicate _
  have hzones (z : Fin 8) : s.sch.zones[z] = none := Vector.getElem_replicate _
  have harms (a : ArmId) : ((s.arm a).order, (s.arm a).outstanding, (s.arm a).failCount, (s.arm a).lastFault) = (none, none, 0, none) := by
    cases a <;> rfl
  have hdrives (d : Fin 16) : ((s.drive d).installed, (s.drive d).state, (s.drive d).volume, (s.drive d).claim, (s.drive d).session) =
      (false, .empty, none, none, none) := by
    rw [State.reset_drive]
    rfl
  have hstations (p : Fin 8) : ((s.station p).volume, (s.station p).reserved, (s.station p).awaiting, (s.station p).lifted) =
      (none, none, none, false) := by
    rw [State.reset_station]
    rfl
  exact ⟨rfl, rfl, rfl, rfl, rfl, rfl, rfl, rfl, rfl, rfl, hcursors, rfl, rfl, hfences, rfl, rfl, rfl, rfl, hzones, rfl, rfl, harms, hdrives,
    rfl, rfl, rfl, rfl, rfl, rfl, rfl, rfl, rfl, rfl, rfl, hstations, rfl, hlaw, hpart, State.reset_settled⟩

/-- Settles O2: POWER_ON_RESET is `State.powerOn` over the raw levels, drive by drive and position by position. -/
theorem powerOnResetCompletes : Obligations.PowerOnResetCompletes := by
  intro s
  refine ⟨_, rfl, rfl, fun d => ?drives, fun p => ?stations, rfl, ?port, rfl⟩
  case drives =>
    have hraw : (mapVec Drive.raw s.drv.drives)[d] = (s.drive d).raw := mapVec_getElem d.isLt
    rw [State.powerOn_drive, State.reset_drive, hraw]
    rfl
  case stations =>
    have hraw : (mapVec Station.raw s.mon.stations)[p] = (s.station p).raw := mapVec_getElem p.isLt
    rw [State.powerOn_station, State.reset_station, hraw]
    rfl
  case port =>
    have hflags : powerOnFlags s.mon.doorRaw = if s.mon.doorRaw then 0 else positionBit 8 := rfl
    rw [← hflags]
    rfl

/-! ### The clock (O15) -/

/-- A frame whose taking leaves the flags, the notice-owed mark and the panel line settled: what it left, with its messages handed out (R194,
R195). -/
theorem State.Free.deliver_settled (h : s.Free) {f : SysFrame} {ms : List OutMsg} (e : s.takeFrame f = (t, ms)) (hms : ms ≠ [])
    (hflags : t.FlagsSettled) (hnotice : t.NoticeSettled) (hpanel : t.PanelSettled) : (s.deliver f).finishStep = t.sends ms := by
  obtain ⟨m, rest, rfl⟩ := List.exists_cons_of_ne_nil hms
  have hpump : (t.sends (m :: rest)).panelPump = t.sends (m :: rest) := State.panelPump_eq hpanel
  rw [h.deliver (congrArg Prod.snd e), e, State.refreshConditions_eq hflags hnotice, hpump]

/-- Settles O15: the clock is no part of a condition of R196, so each of the three leaves a settled part. -/
theorem clockCommands : Obligations.ClockCommands := by
  refine ⟨fun s v hfree => ?set, fun s hfree => ?read, fun s hsettled => ?second⟩
  case set =>
    have ⟨⟨hflags, hnotice, _, hpanel⟩, _⟩ := hfree
    have htake : s.takeFrame (.setClock v) = (s.setClock v, [doneOf 10 (bytesOfStamp v)]) := rfl
    rw [exec_frame rfl, hfree.deliver_settled htake (List.cons_ne_nil _ _) hflags hnotice hpanel]
    rfl
  case read => rw [exec_frame rfl, hfree.deliver_unchanged rfl]; rfl
  case second =>
    have hsecond : (s.setClock (s.clock + 1)).Settled := hsettled
    exact congrArg Host.Outcome.next (State.finishStep_of_settled hsecond)

/-! ### The answer to LINK RESET (O26) -/

/-- Settles O26: the code is that of the state of R190. -/
theorem linkResetIsAnswered : Obligations.LinkResetIsAnswered := by
  intro s hfree
  have ⟨⟨hflags, hnotice, _, hpanel⟩, _⟩ := hfree
  have htake : s.takeFrame .linkReset = ({ s with port := { s.port with resetting := true } },
      [.response 0 true 0 8 [byte (stateAfterReset s.svc.state).code] true]) := rfl
  refine ⟨(stateAfterReset s.svc.state).code, ?answer, fun h => ?_, fun h => ?_, fun h => ?_, fun h => ?_⟩
  case answer => rw [exec_frame rfl, hfree.deliver_settled htake (List.cons_ne_nil _ _) hflags hnotice hpanel]
  · rw [h]; rfl
  · rw [h]; rfl
  · rw [h]; rfl
  · obtain h | h | h | h := h <;> rw [h] <;> rfl

end Sys2Proof.Machine
end

section
/-! PROOFS. Frames on the lines: the envelope (O10), the fields of a frame read back (O8), the receiver (O9), and what bytes and whole frames
bring about (O11 to O14). -/

namespace Sys2Proof.Machine

variable {s t : State}

/-! ### The check byte (O10) -/

theorem byteSum_append (xs : List Byte) (b : Byte) : byteSum (xs ++ [b]) = byteSum xs + b := by
  simp [byteSum, List.foldl_append]

/-- The sum of bytes is the sum of their values, modulo 256. -/
theorem byteSum_toNat (xs : List Byte) : (byteSum xs).toNat = (xs.map BitVec.toNat).sum % 256 := by
  induction xs using List.reverseRecOn with
  | nil => rfl
  | append_singleton xs b ih =>
    rw [byteSum_append, BitVec.toNat_add, ih]
    simp

theorem byteSum_eq_zero_iff (xs : List Byte) : byteSum xs = 0 ↔ (xs.map BitVec.toNat).sum % 256 = 0 := by
  rw [← byteSum_toNat, BitVec.toNat_eq]
  rfl

/-- The bytes between the start byte and the check byte: length, class and body (R191). -/
def innerBytes (cls : Byte) (body : List Byte) : List Byte := byte (body.length + 1) :: cls :: body

/-- The check byte of a frame (R191). -/
def checkByte (cls : Byte) (body : List Byte) : Byte := 0 - byteSum (innerBytes cls body)

theorem frameBytes_eq (cls : Byte) (body : List Byte) :
    frameBytes cls body = startByte :: (innerBytes cls body ++ [checkByte cls body]) := rfl

theorem byteSum_frame (cls : Byte) (body : List Byte) : byteSum (innerBytes cls body ++ [checkByte cls body]) = 0 := by
  rw [byteSum_append, checkByte]
  bv_omega

/-- Settles O10, with the check byte of `frameBytes`. -/
theorem envelopeOfAFrame : Obligations.EnvelopeOfAFrame := by
  intro cls body _
  exact ⟨checkByte cls body, rfl, (byteSum_eq_zero_iff _).mp (byteSum_frame cls body)⟩

/-! ### The fields of a frame read back (O8) -/

@[simp] theorem halfOfBytes_bytes (h : Half) : halfOfBytes (h.extractLsb' 8 8) (h.extractLsb' 0 8) = h := by
  unfold halfOfBytes
  refine BitVec.eq_of_getLsbD_eq (fun i hi => ?_)
  simp only [BitVec.getLsbD_append, BitVec.getLsbD_extractLsb']
  grind

@[simp] theorem stampOfBytes_bytes (x : Stamp) :
    stampOfBytes (x.extractLsb' 24 8) (x.extractLsb' 16 8) (x.extractLsb' 8 8) (x.extractLsb' 0 8) = x := by
  unfold stampOfBytes
  refine BitVec.eq_of_getLsbD_eq (fun i hi => ?_)
  simp only [BitVec.getLsbD_append, BitVec.getLsbD_extractLsb']
  grind

theorem requestKind_kindByte (k : RequestKind) : requestKind (kindByte k) = some k ∧ kindByte k ≠ 5 ∧ kindByte k ≠ 6 := by
  cases k <;> decide

theorem requestFields_bytes {f : RequestFields} (h : f.wf = true) :
    requestFields (f.tag.extractLsb' 8 8) (f.tag.extractLsb' 0 8)
      (f.serial ++ [f.pool, f.drive, f.flags, f.density, f.priority] ++ f.account) = some f := by
  simp only [RequestFields.wf, serialLength, codeLength, Bool.and_eq_true, beq_iff_eq] at h
  obtain ⟨hserial, haccount⟩ := h
  have hdrop : (f.serial ++ ([f.pool, f.drive, f.flags, f.density, f.priority] ++ f.account)).drop 6 =
      [f.pool, f.drive, f.flags, f.density, f.priority] ++ f.account := by rw [← hserial, List.drop_left]
  have htake : (f.serial ++ ([f.pool, f.drive, f.flags, f.density, f.priority] ++ f.account)).take 6 = f.serial := by
    rw [← hserial, List.take_left]
  have hwhole : f.account.take 8 = f.account := List.take_of_length_le haccount.le
  unfold requestFields
  rw [List.append_assoc, hdrop, htake]
  simp [haccount, hwhole]

theorem parseRequest_request {k : RequestKind} {f : RequestFields} (h : f.wf = true) :
    parseRequest (kindByte k :: fieldBytes f) = .request k f := by
  obtain ⟨hkind, hcancel, hlabel⟩ := requestKind_kindByte k
  have hfields : fieldBytes f = f.tag.extractLsb' 8 8 :: f.tag.extractLsb' 0 8 ::
      (f.serial ++ [f.pool, f.drive, f.flags, f.density, f.priority] ++ f.account) := by
    simp [fieldBytes, bytesOfHalf]
  unfold parseRequest
  rw [hfields]
  simp only [hcancel, hlabel, if_false, hkind, requestFields_bytes h]

theorem parseRequest_label {drive : Byte} {serial : Text} (h : serial.length = 6) :
    parseRequest (6 :: drive :: serial) = .label drive serial := by
  simp [parseRequest, h, List.take_of_length_le h.le]

/-- Settles O8, frame by frame: the numbers are read back from their bytes, the texts from their lengths. -/
theorem framesRoundTrip : Obligations.FramesRoundTrip := by
  intro f hwf
  cases f with
  | request k f => exact parseRequest_request hwf
  | label drive serial => exact parseRequest_label (by simpa [SysFrame.wf, serialLength] using hwf)
  | requestShort tag =>
    by_cases hzero : tag = 0
    · rw [hzero]
      rfl
    · have hcode : SysFrame.encode (.requestShort tag) = (1, 1 :: bytesOfHalf tag) := if_neg hzero
      rw [hcode]
      show SysFrame.requestShort (halfOfBytes _ _) = _
      rw [halfOfBytes_bytes]
  | cancel tag => show SysFrame.cancel (halfOfBytes _ _) = _; rw [halfOfBytes_bytes]
  | requestUnknown tag => show SysFrame.requestUnknown (halfOfBytes _ _) = _; rw [halfOfBytes_bytes]
  | select table index wrap => show SysFrame.select table (halfOfBytes _ _) wrap = _; rw [halfOfBytes_bytes]
  | audit first last => show SysFrame.audit (halfOfBytes _ _) (halfOfBytes _ _) = _; rw [halfOfBytes_bytes, halfOfBytes_bytes]
  | setClock value => show SysFrame.setClock (stampOfBytes _ _ _ _) = _; rw [stampOfBytes_bytes]
  | eventMask mask => show SysFrame.eventMask (halfOfBytes _ _) = _; rw [halfOfBytes_bytes]
  | eventClear events => show SysFrame.eventClear (halfOfBytes _ _) = _; rw [halfOfBytes_bytes]
  | releaseRecords n => show SysFrame.releaseRecords (halfOfBytes _ _) = _; rw [halfOfBytes_bytes]
  | controlShort code =>
    simp only [SysFrame.wf, Bool.and_eq_true, Option.isNone_iff_eq_none] at hwf
    obtain ⟨hknown, hshort⟩ := hwf
    simp [SysFrame.encode, parseFrame, parseControl, hknown, hshort]
  | labelShort | readEntries | writeEntry | clearTable | start | quiesce | resume | linkReset | readClock | readEvents | readRecords
  | resetCounters | armService | driveService | unknown => rfl

/-! ### What the bytes after a start byte make (R192) -/

section

variable {len b : Byte} {more bs : List Byte} {cls : Byte} {body after : List Byte}

theorem collect_badLength (h : len.toNat = 0 ∨ 240 < len.toNat) : collect (len :: more) = .bad := if_pos h

theorem collect_partly (hlow : 1 ≤ len.toNat) (hhigh : len.toNat ≤ 240) (hshort : more.length ≤ len.toNat) :
    collect (len :: more) = .partly := by
  have hlength : ¬(len.toNat = 0 ∨ 240 < len.toNat) := by omega
  simp only [collect, if_neg hlength, if_pos hshort]

/-- A whole frame by its length byte: its bytes up to the check byte, and what comes after it, by the check sum. -/
theorem collect_whole (hlow : 1 ≤ len.toNat) (hhigh : len.toNat ≤ 240) (hwhole : len.toNat < more.length) :
    collect (len :: more) = if byteSum (len :: more.take (len.toNat + 1)) ≠ 0 then .bad
      else match more.take len.toNat with
        | cls :: body => .whole cls body (more.drop (len.toNat + 1))
        | [] => .bad := by
  have hlength : ¬(len.toNat = 0 ∨ 240 < len.toNat) := by omega
  simp only [collect, if_neg hlength, if_neg (Nat.not_le.mpr hwhole)] <;> rfl

/-- What the bytes after a start byte can make. -/
theorem collect_cases (bs : List Byte) : bs = [] ∧ collect bs = .partly ∨ ∃ len more, bs = len :: more ∧
    ((len.toNat = 0 ∨ 240 < len.toNat) ∨ (1 ≤ len.toNat ∧ len.toNat ≤ 240) ∧ (more.length ≤ len.toNat ∨ len.toNat < more.length)) := by
  cases bs with
  | nil => exact .inl ⟨rfl, rfl⟩
  | cons len more => exact .inr ⟨len, more, rfl, by omega⟩

/-- A discard does not wait for more bytes, and more bytes do not mend it. -/
theorem collect_append_of_bad (h : collect bs = .bad) (x : List Byte) : collect (bs ++ x) = .bad := by
  obtain ⟨_, hpartly⟩ | ⟨len, more, rfl, hlength | ⟨⟨hlow, hhigh⟩, hshort | hwhole⟩⟩ := collect_cases bs
  · rw [hpartly] at h; cases h
  · exact collect_badLength hlength
  · rw [collect_partly hlow hhigh hshort] at h; cases h
  · rw [List.cons_append, collect_whole hlow hhigh (by rw [List.length_append]; omega), List.take_append_of_le_length hwhole,
      List.take_append_of_le_length hwhole.le]
    rw [collect_whole hlow hhigh hwhole] at h
    split at h
    · rename_i hsum
      rw [if_pos hsum]
    · rename_i hsum
      rw [if_neg hsum]
      split at h <;> simp_all

/-- The bytes after a whole frame are left to be examined. -/
theorem collect_append_of_whole (h : collect bs = .whole cls body after) (x : List Byte) :
    collect (bs ++ x) = .whole cls body (after ++ x) := by
  obtain ⟨_, hpartly⟩ | ⟨len, more, rfl, hlength | ⟨⟨hlow, hhigh⟩, hshort | hwhole⟩⟩ := collect_cases bs
  · rw [hpartly] at h; cases h
  · rw [collect_badLength hlength] at h; cases h
  · rw [collect_partly hlow hhigh hshort] at h; cases h
  · rw [List.cons_append, collect_whole hlow hhigh (by rw [List.length_append]; omega), List.take_append_of_le_length hwhole,
      List.take_append_of_le_length hwhole.le, List.drop_append_of_le_length hwhole]
    rw [collect_whole hlow hhigh hwhole] at h
    split at h
    · cases h
    · rename_i hsum
      rw [if_neg hsum]
      split at h <;> simp_all

/-- What comes after a whole frame is shorter than the bytes it was found in. -/
theorem length_after_of_whole (h : collect bs = .whole cls body after) : after.length < bs.length := by
  obtain ⟨_, hpartly⟩ | ⟨len, more, rfl, hlength | ⟨⟨hlow, hhigh⟩, hshort | hwhole⟩⟩ := collect_cases bs
  · rw [hpartly] at h; cases h
  · rw [collect_badLength hlength] at h; cases h
  · rw [collect_partly hlow hhigh hshort] at h; cases h
  · rw [collect_whole hlow hhigh hwhole] at h
    split at h
    · cases h
    · split at h <;> cases h
      rw [List.length_drop, List.length_cons]
      omega

end

/-! ### Hunting (R192) -/

section

variable {m n : Nat} {b : Byte} {bs rest : List Byte} {cls : Byte} {body after : List Byte}

theorem hunt_drop (h : b ≠ startByte) : hunt (n + 1) (b :: rest) = hunt n rest := if_pos h

theorem hunt_partly (h : collect rest = .partly) : hunt (n + 1) (startByte :: rest) = (.collecting rest, []) := by
  simp [hunt, h]

theorem hunt_bad (h : collect rest = .bad) :
    hunt (n + 1) (startByte :: rest) = ((hunt n rest).1, .discard :: (hunt n rest).2) := by
  simp [hunt, h]

theorem hunt_whole (h : collect rest = .whole cls body after) :
    hunt (n + 1) (startByte :: rest) = ((hunt n after).1, .frame cls body :: (hunt n after).2) := by
  simp [hunt, h]

/-- Any number of rounds above the number of bytes hunts to the end. -/
theorem hunt_rounds (hm : bs.length < m) (hn : bs.length < n) : hunt m bs = hunt n bs := by
  induction m generalizing n bs with
  | zero => exact absurd hm (Nat.not_lt_zero _)
  | succ m ih =>
    obtain ⟨n, rfl⟩ : ∃ k, n = k + 1 := ⟨n - 1, by omega⟩
    cases bs with
    | nil => rfl
    | cons b rest =>
      have hrest : hunt m rest = hunt n rest := ih (by simpa using hm) (by simpa using hn)
      by_cases hb : b = startByte
      · subst hb
        cases hc : collect rest with
        | partly => rw [hunt_partly hc, hunt_partly hc]
        | bad => rw [hunt_bad hc, hunt_bad hc, hrest]
        | whole cls body after =>
          have hshort := length_after_of_whole hc
          rw [List.length_cons] at hm hn
          have hafter : hunt m after = hunt n after := ih (by omega) (by omega)
          rw [hunt_whole hc, hunt_whole hc, hafter]
      · rw [hunt_drop hb, hunt_drop hb, hrest]

/-- What a receiver has reported and reports at one byte more. -/
def withByte (x : Rx × List Received) (b : Byte) : Rx × List Received := ((x.1.receive b).1, x.2 ++ (x.1.receive b).2)

/-- Bytes examined with one byte more are the bytes examined, and then that byte received. -/
theorem hunt_append (hn : bs.length < n) : hunt (n + 1) (bs ++ [b]) = withByte (hunt n bs) b := by
  induction n generalizing bs with
  | zero => exact absurd hn (Nat.not_lt_zero _)
  | succ n ih =>
    cases bs with
    | nil => exact hunt_rounds (by simp) (by simp)
    | cons c rest =>
      have hlen : rest.length < n := by simpa using hn
      by_cases hc : c = startByte
      · subst hc
        cases hcollect : collect rest with
        | partly =>
          have hrounds : hunt (n + 2) (startByte :: (rest ++ [b])) = hunt (rest.length + 3) (startByte :: (rest ++ [b])) :=
            hunt_rounds (by simp; omega) (by simp)
          rw [List.cons_append, hunt_partly hcollect, hrounds]
          rfl
        | bad =>
          rw [List.cons_append, hunt_bad hcollect, hunt_bad (collect_append_of_bad hcollect [b]), ih hlen]
          rfl
        | whole cls body after =>
          have hshort := length_after_of_whole hcollect
          rw [List.cons_append, hunt_whole hcollect, hunt_whole (collect_append_of_whole hcollect [b]), ih (by omega)]
          rfl
      · rw [List.cons_append, hunt_drop hc, hunt_drop hc, ih hlen]

theorem feed_append {rx : Rx} : feed rx (bs ++ [b]) = withByte (feed rx bs) b := by
  simp [feed, List.foldl_append, withByte]

/-- A hunting receiver given bytes one after another examines them as if given at once. -/
theorem feed_eq_hunt (hn : bs.length < n) : feed .hunting bs = hunt n bs := by
  induction bs using List.reverseRecOn generalizing n with
  | nil =>
    cases n with
    | zero => rfl
    | succ n => rfl
  | append_singleton bs b ih =>
    obtain ⟨k, rfl⟩ : ∃ k, n = k + 1 := ⟨n - 1, by omega⟩
    have hk : bs.length < k := by simpa using hn
    rw [feed_append, hunt_append hk, ih hk]

/-- Bytes with no start byte among them are dropped. -/
theorem hunt_of_no_start (h : ∀ x ∈ bs, x ≠ startByte) : hunt n bs = (.hunting, []) := by
  induction bs generalizing n with
  | nil => cases n <;> rfl
  | cons b rest ih =>
    cases n with
    | zero => rfl
    | succ n => rw [hunt_drop (h b List.mem_cons_self), ih (fun x hx => h x (List.mem_cons_of_mem _ hx))]

end

/-! ### A whole frame at the receiver (O9) -/

section

variable {cls : Byte} {body : List Byte}

theorem byte_toNat {n : Nat} (h : n < 256) : (byte n).toNat = n := by
  rw [byte, BitVec.toNat_ofNat]
  exact Nat.mod_eq_of_lt h

theorem lengthByte_toNat (h : body.length ≤ maxBody) : (byte (body.length + 1)).toNat = body.length + 1 := by
  unfold maxBody at h
  exact byte_toNat (by omega)

/-- The bytes of a frame but for the last are not yet a frame. -/
theorem collect_prefix (h : body.length ≤ maxBody) {n : Nat} (hn : n < body.length + 3) :
    collect ((innerBytes cls body ++ [checkByte cls body]).take n) = .partly := by
  have hlength := lengthByte_toNat h
  unfold maxBody at h
  cases n with
  | zero => rfl
  | succ n =>
    refine collect_partly (by omega) (by omega) ?_
    rw [hlength, List.length_take]
    omega

theorem collect_frame (h : body.length ≤ maxBody) :
    collect (innerBytes cls body ++ [checkByte cls body]) = .whole cls body [] := by
  have hlength := lengthByte_toNat h
  have hsum := byteSum_frame cls body
  have hinner : innerBytes cls body ++ [checkByte cls body] = byte (body.length + 1) :: (cls :: body ++ [checkByte cls body]) := rfl
  have htake : (cls :: body ++ [checkByte cls body]).take (body.length + 2) = cls :: body ++ [checkByte cls body] :=
    List.take_of_length_le (by simp)
  have hbody : (cls :: body ++ [checkByte cls body]).take (body.length + 1) = cls :: body := List.take_left' rfl
  have hrest : (cls :: body ++ [checkByte cls body]).drop (body.length + 2) = [] := List.drop_of_length_le (by simp)
  unfold maxBody at h
  rw [hinner, collect_whole (by omega) (by omega) (by rw [hlength]; simp), hlength, htake, hbody, hrest, ← hinner, hsum]
  rfl

/-- Settles O9: before the last byte the bytes are not yet a frame, and with it they are the whole one. -/
theorem receiverTakesWholeFrames : Obligations.ReceiverTakesWholeFrames := by
  intro cls body hbody
  refine ⟨fun n hpos hn => ?_, ?_⟩
  · obtain ⟨k, rfl⟩ : ∃ k, n = k + 1 := ⟨n - 1, by omega⟩
    rw [feed_eq_hunt (Nat.lt_succ_self _), frameBytes_eq, List.take_succ_cons, hunt_partly (collect_prefix hbody (by omega))]
    rfl
  · rw [feed_eq_hunt (Nat.lt_succ_self _), frameBytes_eq, hunt_whole (collect_frame hbody)]
    rfl

end

end Sys2Proof.Machine
end

section
/-! PROOFS. What bytes and whole frames bring about at the ports (O11 to O14). -/

namespace Sys2Proof.Machine

variable {s t : State}

/-! ### The bytes of a command (R191, R194) -/

/-- A frame of the lengths of its layout fits, an entry to be written by its own length. -/
theorem encode_length {f : SysFrame} (hwf : f.wf = true) (hentry : ∀ entry, f = .writeEntry entry → entry.length < maxBody) :
    f.encode.2.length ≤ maxBody := by
  cases f
  case writeEntry entry => exact hentry entry rfl
  case request k f =>
    simp only [SysFrame.wf, RequestFields.wf, serialLength, codeLength, Bool.and_eq_true, beq_iff_eq] at hwf
    simp [SysFrame.encode, fieldBytes, bytesOfHalf, maxBody, hwf]
  case label drive serial =>
    simp only [SysFrame.wf, serialLength, beq_iff_eq] at hwf
    simp [SysFrame.encode, maxBody, hwf]
  case requestShort tag =>
    unfold SysFrame.encode
    dsimp only
    split <;> simp [bytesOfHalf, maxBody]
  all_goals simp [SysFrame.encode, bytesOfHalf, bytesOfStamp, maxBody]

/-- The frame a command is, as it is read back from its bytes; they fit a frame. -/
theorem frameOf_of_sentBy {c : Instr} {cls : Byte} {body : List Byte} (hwf : c.wf = true) (h : sentBy c = some (cls, body)) :
    frameOf c = some (parseFrame cls body) ∧ body.length ≤ maxBody := by
  have encoded {f : SysFrame} (hf : f.wf = true) (hentry : ∀ entry, f = .writeEntry entry → entry.length < maxBody)
      (he : f.encode = (cls, body)) : some f = some (parseFrame cls body) ∧ body.length ≤ maxBody := by
    have hread := framesRoundTrip f hf
    have hfits := encode_length hf hentry
    rw [he] at hread hfits
    exact ⟨congrArg some hread.symm, hfits⟩
  cases c
  case mount f => exact encoded (f := .request .mount f) hwf nofun (Option.some.inj h)
  case scratch f => exact encoded (f := .request .scratch f) hwf nofun (Option.some.inj h)
  case demount f => exact encoded (f := .request .demount f) hwf nofun (Option.some.inj h)
  case eject f => exact encoded (f := .request .eject f) hwf nofun (Option.some.inj h)
  case label drive serial => exact encoded (f := .label drive serial) hwf nofun (Option.some.inj h)
  case writeEntry entry =>
    refine encoded (f := .writeEntry entry) rfl (fun e he => ?_) (Option.some.inj h)
    cases he
    simpa [Instr.wf] using hwf
  case shortRequest body | unknownRequestKind body =>
    obtain ⟨rfl, rfl⟩ := Prod.mk.inj (Option.some.inj h)
    simp only [Instr.wf, Bool.and_eq_true, decide_eq_true_eq] at hwf
    exact ⟨rfl, hwf.2⟩
  case unknownFrame cls body =>
    obtain ⟨rfl, rfl⟩ := Prod.mk.inj (Option.some.inj h)
    simp only [Instr.wf, Bool.and_eq_true, decide_eq_true_eq] at hwf
    exact ⟨rfl, hwf.2⟩
  case cancel | select | readEntries | clearTable | start | quiesce | resume | linkReset | audit | setClock | readClock | eventMask
    | eventClear | readEvents | readRecords | releaseRecords | resetCounters | armServiceIn | armServiceOut | driveServiceOnline
    | driveServiceOffline => exact encoded rfl nofun (Option.some.inj h)
  all_goals cases h

/-! ### The port on a settled part -/

/-- A part whose port, conditions and panel line are as they were is settled as it was. -/
theorem State.Settled.of_same (h : s.Settled) (hport : t.port = s.port) (hcond : t.conditionFlags = s.conditionFlags)
    (hpr : t.pr = s.pr) : t.Settled := by
  obtain ⟨hflags, hnotice, hline, hpanel⟩ := h
  refine ⟨State.flagsSettled_of hport hcond hflags, State.noticeSettled_of hport hnotice, ?_, ?_⟩
  · unfold State.LineSettled State.mayTake
    rw [hport]
    exact hline
  · unfold State.PanelSettled
    rw [hpr]
    exact hpanel

theorem State.Settled.setRx (h : s.Settled) {p : PortId} {rx : Rx} : (s.setRx p rx).Settled := by
  cases p with
  | system => exact h
  | arm a => cases a <;> exact h

theorem positionBit_plain (e : Event) : positionBit e.position &&& plainPositions = positionBit e.position := by
  cases e <;> decide

/-- The flags after a plain event is raised: the plain ones with it, and the condition-bound ones as their conditions give them (R196). -/
theorem State.raise_flags {e : Event} :
    (s.raise e).port.flags = ((s.port.flags ||| positionBit e.position) &&& plainPositions) ||| s.conditionFlags := by
  have hplain := positionBit_plain e
  show (((s.port.flags &&& plainPositions) ||| s.conditionFlags) ||| positionBit e.position) = _
  ext i hi
  have hbit := congrArg (·[i]) hplain
  simp only [BitVec.getElem_and, BitVec.getElem_or] at hbit ⊢
  grind

theorem State.raise_flagsSettled {e : Event} : (s.raise e).FlagsSettled := by
  have hcond : (s.raise e).conditionFlags = s.conditionFlags := rfl
  unfold State.FlagsSettled
  rw [hcond, State.raise_flags, plain_of_refreshed]

theorem State.raise_noticeSettled {e : Event} : (s.raise e).NoticeSettled := State.setEvents_noticeSettled

theorem State.Settled.deliver (h : s.Settled) {f : SysFrame} : (s.deliver f).FlagsSettled ∧ (s.deliver f).NoticeSettled := by
  obtain ⟨hflags, hnotice, _⟩ := h
  unfold State.deliver
  split
  · exact ⟨hflags, hnotice⟩
  · exact ⟨State.raise_flagsSettled, State.raise_noticeSettled⟩

theorem State.work_lt (h : s.BufferFits) : s.work < pumpRounds := by
  have hbuffer : s.port.buffer.length ≤ 4 := h
  show s.port.buffer.length + (if s.port.sending = none then 1 else 0) < 12
  split <;> omega

/-- The port that has worked on a frame as it arrived has nothing left to do at the end of the command. -/
theorem State.pump_deliver_finishStep (h : s.Settled) (hfits : s.BufferFits) {f : SysFrame} :
    (State.pump pumpRounds (s.deliver f)).finishStep = (s.deliver f).finishStep := by
  have ⟨hflags, hnotice⟩ := h.deliver (f := f)
  have hwork : (s.deliver f).work < pumpRounds := State.work_lt (Behind.deliver.buffer hfits)
  obtain ⟨kflags, knotice, kline, _⟩ := State.pump_settles pumpRounds hflags hnotice hwork
  unfold State.finishStep
  rw [State.refreshConditions_eq kflags knotice, State.pump_eq kline, State.refreshConditions_eq hflags hnotice]

/-! ### Bytes on the system port (O11) -/

section

variable {p : PortId} {b : Byte} {ticks : Nat} {rx : Rx} {bs : List Byte} {cls : Byte} {body : List Byte}

/-- A byte that brings nothing about changes the receiver alone. -/
theorem exec_byteReceived_silent (h : s.Settled) (hrx : (s.rx p).receive b = (rx, [])) :
    exec (.byteReceived p b ticks) s = .next (s.setRx p rx) := by
  show Host.Outcome.next (s.received p ticks ((s.rx p).receive b)).finishStep = _
  rw [hrx]
  exact congrArg _ (State.finishStep_of_settled h.setRx)

theorem receive_start : Rx.hunting.receive startByte = (.collecting [], []) := rfl

theorem receive_partly (h : collect (bs ++ [b]) = .partly) : (Rx.collecting bs).receive b = (.collecting (bs ++ [b]), []) := hunt_partly h

/-- The check byte makes a frame whole, and the receiver hunts again. -/
theorem receive_frame (h : body.length ≤ maxBody) :
    (Rx.collecting (innerBytes cls body)).receive (checkByte cls body) = (.hunting, [.frame cls body]) := by
  show hunt _ (startByte :: (innerBytes cls body ++ [checkByte cls body])) = _
  rw [hunt_whole (collect_frame h)]
  rfl

/-- Bytes that are not yet a frame were not one before the last of them. -/
theorem collect_partly_of_append (h : collect (bs ++ [b]) = .partly) : collect bs = .partly := by
  cases hc : collect bs with
  | partly => rfl
  | bad => rw [collect_append_of_bad hc] at h; cases h
  | whole cls body after => rw [collect_append_of_whole hc] at h; cases h

theorem State.afterBytes_append {u : State} (h : exec (.byteReceived .system b 0) (s.afterBytes bs) = .next u) :
    s.afterBytes (bs ++ [b]) = u := by
  unfold State.afterBytes at h ⊢
  rw [List.foldl_append, List.foldl_cons, List.foldl_nil, h]

/-- A start byte and bytes that are not yet a frame change the receiver alone. -/
theorem State.afterBytes_partly (h : s.Settled) (hrx : s.port.rx = .hunting) (hpartly : collect bs = .partly) :
    s.afterBytes (startByte :: bs) = s.setRx .system (.collecting bs) := by
  induction bs using List.reverseRecOn with
  | nil =>
    refine State.afterBytes_append (bs := []) (exec_byteReceived_silent h ?_)
    show s.port.rx.receive startByte = _
    rw [hrx, receive_start]
  | append_singleton bs b ih =>
    have hbefore := ih (collect_partly_of_append hpartly)
    refine State.afterBytes_append (bs := startByte :: bs) ?_
    have hrx' : ((s.setRx .system (.collecting bs)).rx .system).receive b = (.collecting (bs ++ [b]), []) := receive_partly hpartly
    rw [hbefore, exec_byteReceived_silent h.setRx hrx']
    rfl

/-- Settles O11: the bytes before the check byte change the receiver alone, and at the check byte the frame arrives. -/
theorem bytesActAsTheirCommand : Obligations.BytesActAsTheirCommand := by
  intro c cls body s hwf hsent hsettled hfits hrx
  obtain ⟨hframe, hbody⟩ := frameOf_of_sentBy hwf hsent
  have hinner : collect (innerBytes cls body) = .partly := by
    have hprefix := collect_prefix (cls := cls) hbody (n := body.length + 2) (by omega)
    have hlength : (innerBytes cls body).length = body.length + 2 := rfl
    rwa [List.take_left' hlength] at hprefix
  have hsame : (s.setRx .system (.collecting (innerBytes cls body))).setRx .system .hunting = s := by
    show { s with port := { s.port with rx := .hunting } } = s
    rw [← hrx]
  have hlast : exec (.byteReceived .system (checkByte cls body) 0) (s.setRx .system (.collecting (innerBytes cls body))) =
      .next (s.deliver (parseFrame cls body)).finishStep := by
    rw [← State.pump_deliver_finishStep hsettled hfits]
    show Host.Outcome.next (State.received _ .system 0 ((Rx.collecting (innerBytes cls body)).receive (checkByte cls body))).finishStep = _
    rw [receive_frame hbody]
    show Host.Outcome.next (State.pump pumpRounds (State.deliver (State.setRx _ .system .hunting) _)).finishStep = _
    rw [hsame]
  rw [exec_frame hframe, frameBytes_eq]
  refine congrArg _ (State.afterBytes_append (bs := startByte :: innerBytes cls body) ?_).symm
  rw [State.afterBytes_partly hsettled hrx hinner, hlast]

end

end Sys2Proof.Machine
end

section
/-! PROOFS. What the receivers discard (O12), frames behind a line in use (O13), and frames that are no command (O14). -/

namespace Sys2Proof.Machine

variable {s t : State}

/-! ### Discards and reports (O12) -/

section

variable {p : PortId} {a : ArmId} {b length : Byte} {ticks : Nat} {rx : Rx} {bs more : List Byte} {cls : Byte} {body : List Byte}

theorem State.takeReceived_discard : s.takeReceived p ticks .discard = s.raise .linkError := by cases p <;> rfl

/-- A byte that brings about a discard first: LINK_ERROR is raised, and the rest is taken. -/
theorem exec_byteReceived_discard {rest : List Received} (hrx : (s.rx p).receive b = (rx, .discard :: rest)) :
    exec (.byteReceived p b ticks) s =
      .next (rest.foldl (fun u x => u.takeReceived p ticks x) ((s.setRx p rx).raise .linkError)).finishStep := by
  show Host.Outcome.next (s.received p ticks ((s.rx p).receive b)).finishStep = _
  rw [hrx]
  show Host.Outcome.next (rest.foldl _ ((s.setRx p rx).takeReceived p ticks .discard)).finishStep = _
  rw [State.takeReceived_discard]

theorem State.rx_setRx_same (h : s.rx p = rx) : s.setRx p rx = s := by
  subst h
  cases p with
  | system => rfl
  | arm a => cases a <;> rfl

theorem receive_hunting_drop (h : b ≠ startByte) : Rx.hunting.receive b = (.hunting, []) := hunt_of_no_start (by simpa using h)

theorem receive_badLength (h : b.toNat = 0 ∨ 240 < b.toNat) : (Rx.collecting []).receive b = (.hunting, [.discard]) := by
  have hcollect : collect [b] = .bad := collect_badLength h
  have hdrop : hunt 2 [b] = (.hunting, []) := by
    refine hunt_of_no_start (fun x hx => ?_)
    rw [List.mem_singleton] at hx
    subst hx
    rintro rfl
    revert h
    decide
  show hunt 3 (startByte :: [b]) = _
  rw [hunt_bad hcollect, hdrop]

/-- A frame whose check sum is not 0: a discard, and the bytes after its start byte examined again. -/
theorem receive_badSum (hlow : 1 ≤ length.toNat) (hhigh : length.toNat ≤ 240) (hmore : more.length = length.toNat)
    (hsum : ((length :: more ++ [b]).map BitVec.toNat).sum % 256 ≠ 0) :
    (Rx.collecting (length :: more)).receive b =
      ((feed .hunting (length :: more ++ [b])).1, .discard :: (feed .hunting (length :: more ++ [b])).2) := by
  have hwhole : (more ++ [b]).take (length.toNat + 1) = more ++ [b] := List.take_of_length_le (by simp [hmore])
  have hcollect : collect (length :: (more ++ [b])) = .bad := by
    have hbyteSum : byteSum (length :: (more ++ [b])) ≠ 0 := mt (byteSum_eq_zero_iff _).mp hsum
    rw [collect_whole hlow hhigh (by simp [hmore]), hwhole, if_pos hbyteSum]
  have hrounds : (length :: more ++ [b]).length < (length :: more).length + 2 := by simp
  rw [feed_eq_hunt hrounds]
  exact hunt_bad hcollect

/-- The report that an arm controller's command is, and the arm. -/
def reportOf : Instr → Option (ArmId × ArmReport × Nat)
  | .legDone a r ticks => some (a, .legDone r, ticks)
  | .legFault a code loaded => some (a, .legFault code loaded, 0)
  | .homeDone a column => some (a, .homeDone column, 0)
  | .statusReply a r => some (a, .statusReply r, 0)
  | _ => none

/-- A command that is a report is read back from its bytes; they fit a frame, and only LEG_DONE takes the time it came with. -/
theorem parseReport_reportBody {c : Instr} (hc : reportBody c = some (a, body)) (hwf : c.wf = true)
    (hticks : ∀ r t, c = .legDone a r t → t = ticks) :
    body.length ≤ maxBody ∧ ∃ rep, parseReport 7 body = some rep ∧
      ∀ s, exec c s = .next (s.act (fun s => s.takeReport a rep ticks)).finishStep := by
  cases c <;> cases hc
  case legDone r t =>
    have hserial : r.serial.length = 6 := by simpa [Instr.wf, serialLength] using hwf
    obtain rfl := hticks r t rfl
    refine ⟨by simp [hserial, maxBody], .legDone r, ?_, fun s => rfl⟩
    simp [parseReport, hserial, List.take_of_length_le hserial.le]
  case statusReply r =>
    have hserial : r.serial.length = 6 := by simpa [Instr.wf, serialLength] using hwf
    refine ⟨by simp [hserial, maxBody], .statusReply r, ?_, fun s => rfl⟩
    simp [parseReport, hserial, List.take_of_length_le hserial.le]
  case legFault code loaded => exact ⟨by simp [maxBody], .legFault code loaded, rfl, fun s => rfl⟩
  case homeDone column => exact ⟨by simp [maxBody], .homeDone column, rfl, fun s => rfl⟩

theorem parseReport_none (h : cls ≠ 7 ∨ body = [] ∨ (body.headD 0).toNat = 0 ∨ 4 < (body.headD 0).toNat) : parseReport cls body = none := by
  unfold parseReport
  split
  · rfl
  · rename_i hcls
    rw [ne_eq, not_not] at hcls
    cases body with
    | nil => rfl
    | cons code fields =>
      have hcode : code.toNat = 0 ∨ 4 < code.toNat := by simpa [hcls] using h
      dsimp only
      split <;> first | rfl | omega

theorem State.finishStep_refreshConditions : s.refreshConditions.finishStep = s.finishStep := by
  unfold State.finishStep
  rw [State.refreshConditions_eq State.refreshConditions_flagsSettled State.refreshConditions_noticeSettled]

/-- The bytes of a frame: those it has before its check byte, and that byte. -/
theorem frameBytes_inj (h : frameBytes cls body = 0xC5 :: bs ++ [b]) : bs = innerBytes cls body ∧ b = checkByte cls body := by
  rw [frameBytes_eq, List.cons_append] at h
  obtain ⟨hinner, hcheck⟩ := List.append_inj' (List.cons.inj h).2 rfl
  exact ⟨hinner.symm, (List.cons.inj hcheck).1.symm⟩

/-- A whole frame on an arm port goes to the Arm Scheduler. -/
theorem exec_byteReceived_report (hrx : s.rx (.arm a) = .collecting bs) (hframe : frameBytes cls body = 0xC5 :: bs ++ [b])
    (hbody : body.length ≤ maxBody) : exec (.byteReceived (.arm a) b ticks) s =
      .next ((s.setRx (.arm a) .hunting).takeReceived (.arm a) ticks (.frame cls body)).finishStep := by
  obtain ⟨rfl, rfl⟩ := frameBytes_inj hframe
  show Host.Outcome.next (s.received (.arm a) ticks ((s.rx (.arm a)).receive (checkByte cls body))).finishStep = _
  rw [hrx, receive_frame hbody]
  rfl

end

/-- Settles O12, by what the receiver makes of the byte (`hunt`, `collect`). -/
theorem huntingAndDiscard : Obligations.HuntingAndDiscard := by
  refine ⟨fun p b ticks s hsettled => ⟨fun hrx hb => ?dropped, fun hrx hb => ?start, fun hrx hb => ?badLength, fun hrx hlow hhigh => ?length,
    fun hrx => ?noGap, fun bs hrx => ?gap⟩, fun p b length more ticks s hrx hlow hhigh hmore hsum => ⟨?badSum, fun hnone => ?again⟩,
    fun a b bs ticks s hrx => ⟨fun c body hc hwf hticks hframe => ?report, fun cls body hframe hbody hnone => ?noReport⟩,
    fun cls body h => parseReport_none h⟩
  case dropped =>
    rw [exec_byteReceived_silent (rx := .hunting) hsettled (by rw [hrx, receive_hunting_drop hb]), State.rx_setRx_same hrx]
  case start => rw [exec_byteReceived_silent hsettled (by rw [hrx, hb]; exact receive_start)]
  case badLength =>
    rw [exec_byteReceived_discard (rx := .hunting) (rest := []) (by rw [hrx, receive_badLength hb])]
    rfl
  case length =>
    have hpartly : collect ([] ++ [b]) = .partly := collect_partly hlow hhigh (Nat.zero_le _)
    rw [exec_byteReceived_silent hsettled (by rw [hrx]; exact receive_partly hpartly)]
    rfl
  case noGap =>
    show Host.Outcome.next (s.received p 0 (s.rx p).gap).finishStep = _
    rw [hrx]
    show Host.Outcome.next (s.setRx p .hunting).finishStep = _
    rw [State.rx_setRx_same hrx, State.finishStep_of_settled hsettled]
  case gap =>
    show Host.Outcome.next (s.received p 0 (s.rx p).gap).finishStep = _
    rw [hrx]
    show Host.Outcome.next ((s.setRx p .hunting).takeReceived p 0 .discard).finishStep = _
    rw [State.takeReceived_discard]
  case badSum => exact exec_byteReceived_discard (by rw [hrx]; exact receive_badSum hlow hhigh hmore hsum)
  case again =>
    show feed .hunting _ = _
    rw [feed_eq_hunt (Nat.lt_succ_self _)]
    exact hunt_of_no_start hnone
  case report =>
    obtain ⟨hbody, rep, hparse, hexec⟩ := parseReport_reportBody hc hwf hticks
    rw [exec_byteReceived_report hrx hframe hbody, hexec, State.takeReceived, hparse]
    dsimp only
    rw [State.finishStep_refreshConditions]
  case noReport =>
    rw [exec_byteReceived_report hrx hframe hbody, State.takeReceived, hnone]

/-! ### Frames behind a line in use (O13) -/

theorem State.deliver_full {f : SysFrame} (h : s.port.buffer.length = 4) : s.deliver f = s.raise .linkError := by
  have hfull : ¬s.port.buffer.length < Config.maxBuffer := by rw [h]; decide
  exact if_neg hfull

theorem State.deliver_room {f : SysFrame} (h : s.port.buffer.length < 4) :
    s.deliver f = { s with port := { s.port with buffer := s.port.buffer ++ [f] } } := if_pos h

/-- A frame that is not taken waits in the buffer. -/
theorem State.Settled.waiting (h : s.Settled) {buffer : List SysFrame} (hwait : s.port.immediate ≠ [] ∨ s.port.resetting = true) :
    State.Settled { s with port := { s.port with buffer := buffer } } := by
  obtain ⟨hflags, hnotice, ⟨hline, _⟩, hpanel⟩ := h
  refine ⟨hflags, hnotice, ⟨hline, ?_⟩, hpanel⟩
  simp only [State.mayTake]
  obtain hwait | hwait := hwait
  · simp [hwait]
  · simp [hwait]

/-- Behind a line in use with no answer waiting, a frame is taken as it arrives, and its answer waits. -/
theorem State.Settled.deliver_busy (h : s.Settled) {f : SysFrame} (hbusy : s.port.sending ≠ none) (hnone : s.port.immediate = [])
    (hreset : s.port.resetting = false) : (s.deliver f).finishStep.port.immediate = (s.takeFrame f).2 ∧
      (s.deliver f).finishStep.port.sending = s.port.sending ∧ (s.deliver f).finishStep.port.buffer = [] := by
  have ⟨hflags, hnotice, hline, _⟩ := h
  have hbuffer : s.port.buffer = [] := by simpa [State.mayTake, hnone, hreset] using hline.2
  have hempty : ({ s with port := { s.port with buffer := [] } } : State) = s := by rw [← hbuffer]
  have hdeliver : s.deliver f = { s with port := { s.port with buffer := [f] } } := by
    rw [State.deliver_room (by simp [hbuffer]), hbuffer]
    rfl
  have hfits : (s.deliver f).BufferFits := by
    rw [hdeliver]
    exact Nat.le_of_ble_eq_true rfl
  have ⟨kflags, knotice⟩ := h.deliver (f := f)
  rw [State.finishStep_eq hfits, State.refreshConditions_eq kflags knotice, State.panelPump_port]
  have hfirst : State.pump pumpRounds (s.deliver f) = State.pump 11 (s.deliver f).takeNext := by
    have hmay : (s.deliver f).mayTake = true := by rw [hdeliver]; simp [State.mayTake, hnone, hreset]
    have hout : (s.deliver f).nextOut = none := State.nextOut_of_busy (by rw [hdeliver]; exact hbusy)
    show State.pump 12 _ = _
    rw [State.pump, hout]
    simp [hmay]
  obtain ⟨ksame, ksending, kimmediate, _⟩ := SamePort.takeFrame (s := s) (f := f)
  have htaken : (s.deliver f).takeNext.port.immediate = (s.takeFrame f).2 ∧ (s.deliver f).takeNext.port.sending = s.port.sending ∧
      (s.deliver f).takeNext.port.buffer = [] := by
    have hnext : (s.deliver f).takeNext = { (s.takeFrame f).1.refreshConditions with port :=
        { (s.takeFrame f).1.refreshConditions.port with
          immediate := (s.takeFrame f).1.refreshConditions.port.immediate ++ (s.takeFrame f).2 } } := by
      rw [hdeliver]
      show ({ (State.takeFrame { s with port := { s.port with buffer := [] } } f).1.refreshConditions with port :=
        { (State.takeFrame { s with port := { s.port with buffer := [] } } f).1.refreshConditions.port with
          immediate := _ ++ (State.takeFrame { s with port := { s.port with buffer := [] } } f).2 } } : State) = _
      rw [hempty]
    rw [hnext]
    refine ⟨?_, ksending, ksame.trans hbuffer⟩
    show (s.takeFrame f).1.port.immediate ++ _ = _
    rw [kimmediate, hnone]
    rfl
  obtain ⟨himmediate, hsending, hleft⟩ := htaken
  have hsecond : State.pump 11 (s.deliver f).takeNext = (s.deliver f).takeNext := by
    have hout : (s.deliver f).takeNext.nextOut = none := State.nextOut_of_busy (by rw [hsending]; exact hbusy)
    have hmay : (s.deliver f).takeNext.mayTake = false := by simp [State.mayTake, hleft]
    rw [State.pump, hout]
    simp [hmay]
  rw [hfirst, hsecond]
  exact ⟨himmediate, hsending, hleft⟩

/-- Settles O13, by what a whole frame finds at the port. -/
theorem framesBehindALineInUse : Obligations.FramesBehindALineInUse := by
  intro c cls body s hwf hsent hsettled
  obtain ⟨hframe, _⟩ := frameOf_of_sentBy hwf hsent
  refine ⟨fun hfull => ?full, fun hroom hwait => ?waits, fun hbusy hnone hreset => ?busy⟩
  case full => rw [exec_frame hframe, State.deliver_full hfull]
  case waits => rw [exec_frame hframe, State.deliver_room hroom, State.finishStep_of_settled (hsettled.waiting hwait)]
  case busy => exact ⟨_, exec_frame hframe, hsettled.deliver_busy hbusy hnone hreset⟩

/-! ### Frames that are no command (O14) -/

/-- At a free port a frame that has no answer is what its taking leaves, at the end of the command. -/
theorem State.Free.deliver_silent (h : s.Free) {f : SysFrame} (e : s.takeFrame f = (t, [])) : (s.deliver f).finishStep = t.finishStep := by
  have hbuffer := h.buffer
  have ⟨hsettled, hfree, hreset⟩ := h
  have hnone := h.immediate_eq_nil
  have ⟨hline, _⟩ := hsettled.2.2.1
  have hempty : ({ s with port := { s.port with buffer := [] } } : State) = s := by rw [← hbuffer]
  have hdeliver : s.deliver f = { s with port := { s.port with buffer := [f] } } := by
    rw [State.deliver_room (by simp [hbuffer]), hbuffer]
    rfl
  obtain ⟨kbuffer, ksending, kimmediate, _⟩ := SamePort.takeFrame (s := s) (f := f)
  rw [e] at kbuffer ksending kimmediate
  dsimp only at kbuffer ksending kimmediate
  have ⟨kflags, knotice⟩ := hsettled.deliver (f := f)
  have hfirst : State.pump pumpRounds (s.deliver f) = State.pump 11 (s.deliver f).takeNext := by
    have hmay : (s.deliver f).mayTake = true := by rw [hdeliver]; simp [State.mayTake, hnone, hreset]
    have hout : (s.deliver f).nextOut = none := by
      rw [hdeliver]
      simp [State.nextOut, hfree, hnone, (hline hfree).2]
    show State.pump 12 _ = _
    rw [State.pump, hout]
    simp [hmay]
  have hnext : (s.deliver f).takeNext = t.refreshConditions := by
    rw [hdeliver]
    show ({ (State.takeFrame { s with port := { s.port with buffer := [] } } f).1.refreshConditions with port :=
      { (State.takeFrame { s with port := { s.port with buffer := [] } } f).1.refreshConditions.port with
        immediate := _ ++ (State.takeFrame { s with port := { s.port with buffer := [] } } f).2 } } : State) = _
    rw [hempty, e]
    simp only [List.append_nil]
  have hmay : t.refreshConditions.mayTake = false := by
    show t.mayTake = false
    simp [State.mayTake, kbuffer, hbuffer]
  have hpump : State.pump 11 t.refreshConditions = State.pump pumpRounds t.refreshConditions := by
    have hwaits : t.refreshConditions.port.sending = none → t.refreshConditions.port.immediate = [] := fun _ => kimmediate.trans hnone
    obtain ⟨hout, e11⟩ | ⟨u, hout, e11⟩ := State.pump_cases (n := 9) hmay hwaits <;>
      obtain ⟨hout', e12⟩ | ⟨u', hout', e12⟩ := State.pump_cases (n := 10) hmay hwaits
    · exact e11.trans e12.symm
    · rw [hout] at hout'; cases hout'
    · rw [hout] at hout'; cases hout'
    · rw [hout] at hout'
      cases hout'
      exact e11.trans e12.symm
  unfold State.finishStep
  rw [State.refreshConditions_eq kflags knotice, hfirst, hnext, hpump]

/-- The tag a REQUEST body carries, 0 when it is too short to carry one. -/
def bodyTag : List Byte → Half
  | _ :: hi :: lo :: _ => hi ++ lo
  | _ => 0

/-- A REQUEST too short for its kind, as the port reads it: a LABEL, or one that is answered with the tag it carries. -/
theorem parseRequest_short {body : List Byte} (h : shortRequestBody body = true) :
    parseRequest body = if body.head? = some 6 then .labelShort else .requestShort (bodyTag body) := by
  match body with
  | [] => rfl
  | [k] =>
    by_cases hk : k = 6
    · subst hk; rfl
    · simp only [List.head?_cons, Option.some.injEq, parseRequest, if_neg hk, bodyTag]
  | [k, x] =>
    by_cases hk : k = 6
    · subst hk; rfl
    · simp only [List.head?_cons, Option.some.injEq, parseRequest, if_neg hk, bodyTag]
  | k :: hi :: lo :: rest =>
    unfold shortRequestBody at h
    dsimp only at h
    by_cases hk : k = 6
    · rw [if_pos hk, decide_eq_true_eq] at h
      have hserial : (lo :: rest).length < 6 := Nat.lt_of_succ_lt_succ h
      simp only [List.head?_cons, Option.some.injEq, parseRequest, if_pos hk, if_pos hserial]
    · rw [if_neg hk, if_neg (by simp), ite_eq_iff] at h
      obtain ⟨hlow, hshort⟩ | ⟨_, hfalse⟩ := h
      · have hfields : requestFields hi lo rest = none := by
          rw [decide_eq_true_eq] at hshort
          unfold requestFields
          split
          · rename_i pool drive flags density priority account hdrop
            have hlength := congrArg List.length hdrop
            rw [List.length_drop] at hlength
            simp only [List.length_cons] at hlength hshort
            exact if_pos (by omega)
          · rfl
        obtain rfl | rfl | rfl | rfl := hlow <;> simp [parseRequest, requestKind, hfields, halfOfBytes, bodyTag]
      · cases hfalse

/-- Settles O14: none of the three is a command, and each taking leaves the part as it was. -/
theorem framesThatAreNoCommand : Obligations.FramesThatAreNoCommand := by
  intro s body hfree
  refine ⟨fun hwf t ht => ?short, fun k hi lo rest hbody hwf => ?unknownKind, fun cls hwf => ?unknown⟩
  case short =>
    simp only [Instr.wf, Bool.and_eq_true] at hwf
    have hparse : parseFrame 1 body = if body.head? = some 6 then .labelShort else .requestShort t := by
      rw [show t = bodyTag body from ht]
      exact parseRequest_short hwf.1
    rw [exec_frame rfl, hparse]
    split
    · rw [hfree.deliver_silent rfl, State.finishStep_of_settled hfree.1]
    · rw [hfree.deliver_unchanged rfl]
  case unknownKind =>
    subst hbody
    have hkind : k = 0 ∨ 6 < k.toNat := by
      simp only [Instr.wf, unknownKindBody, Bool.and_eq_true, Bool.or_eq_true, beq_iff_eq, decide_eq_true_eq] at hwf
      exact hwf.1.2
    have hparse : parseFrame 1 (k :: hi :: lo :: rest) = .requestUnknown (hi ++ lo) := by
      have hk (n : Nat) (hlow : 1 ≤ n) (hhigh : n ≤ 6) : k ≠ byte n := by
        rintro rfl
        rw [byte_toNat (by omega)] at hkind
        obtain hzero | hbig := hkind
        · have hn := congrArg BitVec.toNat hzero
          rw [byte_toNat (by omega)] at hn
          exact absurd hn (by simp; omega)
        · omega
      have h1 : k ≠ 1 := hk 1 (by decide) (by decide)
      have h2 : k ≠ 2 := hk 2 (by decide) (by decide)
      have h3 : k ≠ 3 := hk 3 (by decide) (by decide)
      have h4 : k ≠ 4 := hk 4 (by decide) (by decide)
      have h5 : k ≠ 5 := hk 5 (by decide) (by decide)
      have h6 : k ≠ 6 := hk 6 (by decide) (by decide)
      have hkindOf : requestKind k = none := by
        unfold requestKind
        rw [if_neg h1, if_neg h2, if_neg h3, if_neg h4]
      show parseRequest (k :: hi :: lo :: rest) = _
      unfold parseRequest
      dsimp only
      rw [if_neg h6, if_neg h5, hkindOf]
      rfl
    refine ⟨(firstRefusal (s.commonChecks (hi ++ lo) false false)).getD .badField, ?_, fun hstarted hfresh hroom => ?_⟩
    · rw [exec_frame rfl, hparse, hfree.deliver_unchanged rfl]
    · have hnotStarting : (s.service == .starting) = false := by simpa [State.service] using hstarted
      have hqueue : ¬Config.maxRequests ≤ s.ms.queue.length := Nat.not_le.mpr hroom
      simp [firstRefusal, State.commonChecks, hnotStarting, hfresh, hqueue]
  case unknown =>
    have hparse : parseFrame cls body = .unknown (body.headD 0) := by
      simp only [Instr.wf, Bool.and_eq_true] at hwf
      obtain ⟨hunknown, _⟩ := hwf
      unfold unknownFrameBody at hunknown
      by_cases h1 : cls = 1
      · rw [if_pos h1] at hunknown
        cases hunknown
      · rw [if_neg h1] at hunknown
        by_cases h3 : cls = 3
        · rw [if_pos h3] at hunknown
          cases body with
          | nil => simp [parseFrame, h3, parseControl]
          | cons code fields =>
            have hcode : knownCommand code = false := by
              simp only [Bool.or_eq_true, beq_iff_eq, decide_eq_true_eq] at hunknown
              obtain rfl | hbig := hunknown
              · rfl
              · simp only [knownCommand, Bool.and_eq_false_iff, decide_eq_false_iff_not]
                omega
            simp [parseFrame, h3, parseControl, hcode]
        · show (if cls = 1 then parseRequest body else if cls = 3 then parseControl body else .unknown (body.headD 0)) = _
          rw [if_neg h1, if_neg h3]
    rw [exec_frame rfl, hparse, hfree.deliver_unchanged rfl]

end Sys2Proof.Machine
end

section
/-! PROOFS. The cursor tables (O17, O18, O20), the parts of a response (O19) and the end of a frame being sent (O25). -/

namespace Sys2Proof.Machine

variable {s t : State}

/-! ### The tables by their place -/

theorem tableAt_largest (t : Fin 13) : (tableAt t).largest = tableSizes.getD t.val 0 := by
  revert t
  decide

theorem State.tableEnd_tableAt (t : Fin 13) : s.tableEnd (tableAt t) = presentEnd s t := by
  fin_cases t <;> rfl

theorem tableOfByte_of_place (t : Fin 13) : tableOfByte (byte (t.val + 1)) = some t := by
  revert t
  decide

theorem tableOfByte_none {b : Byte} (h : b.toNat = 0 ∨ 13 < b.toNat) : tableOfByte b = none := by
  unfold tableOfByte
  rw [dif_neg (by omega)]

theorem tableOfByte_some {b : Byte} {t : Fin 13} (h : tableOfByte b = some t) : b.toNat - 1 = t.val := by
  unfold tableOfByte at h
  split at h <;> cases h
  rfl

theorem yesNo_flag (w : Bool) : yesNo (if w then 1 else 0) = some w := by cases w <;> rfl

theorem yesNo_none {b : Byte} (h : 1 < b.toNat) : yesNo b = none := by
  have h0 : b ≠ 0 := by rintro rfl; exact absurd h (by decide)
  have h1 : b ≠ 1 := by rintro rfl; exact absurd h (by decide)
  unfold yesNo
  rw [if_neg h1, if_neg h0]

/-! ### The response of a command whose act no other block is told of -/

section

variable {f : SysFrame} {code : Byte} {data : List Byte}

/-- A refused command changes nothing, and its response gives the reason (R199). -/
theorem State.Free.respond_refused (h : s.Free) {r : Reason} (e : s.takeFrame f = respond code (s, .refused r)) :
    (s.deliver f).finishStep = s.sends [refusedOf code r.code] := h.deliver_unchanged e

/-- A taken command that leaves the flags, the notice-owed mark and the panel line settled: what it leaves, with its data handed out. -/
theorem State.Free.respond_done (h : s.Free) (e : s.takeFrame f = respond code (t, .done data)) (hflags : t.FlagsSettled)
    (hnotice : t.NoticeSettled) (hpanel : t.PanelSettled) : (s.deliver f).finishStep = t.sends (responseOf code (.done data) false) :=
  h.deliver_settled e responseOf_ne_nil hflags hnotice hpanel

end

/-! ### SELECT (O17) -/

theorem State.select_taken {t : Fin 13} {table wrap : Byte} {index : Half} {w : Bool} (htable : tableOfByte table = some t)
    (hwrap : yesNo wrap = some w) (hindex : index.toNat < tableSizes.getD t.val 0) : s.select table index wrap =
      ({ s with port := { s.port with cursors := s.port.cursors.set t ⟨index.toNat, w⟩, current := some t } },
        .done (half (presentEnd s t))) := by
  rw [← tableAt_largest] at hindex
  have hend : (s.setCursor t ⟨index.toNat, w⟩).tableEnd (tableAt t) = presentEnd s t := State.tableEnd_tableAt t
  unfold State.select
  rw [htable, hwrap]
  dsimp only
  rw [if_pos hindex, hend]
  rfl

theorem State.select_refused {table wrap : Byte} {index : Half}
    (h : table.toNat = 0 ∨ 13 < table.toNat ∨ 1 < wrap.toNat ∨ tableSizes.getD (table.toNat - 1) 0 ≤ index.toNat) :
    s.select table index wrap = (s, .refused .badField) := by
  unfold State.select
  split
  · rename_i t w htable hwrap
    have hplace := tableOfByte_some htable
    have hlarge : ¬index.toNat < (tableAt t).largest := by
      rw [tableAt_largest, ← hplace]
      obtain h | h | h | h := h
      · rw [tableOfByte_none (.inl h)] at htable; cases htable
      · rw [tableOfByte_none (.inr h)] at htable; cases htable
      · rw [yesNo_none h] at hwrap; cases hwrap
      · exact Nat.not_lt.mpr h
    exact if_neg hlarge
  · rfl

/-- Settles O17: the cursors and the current table are no part of a condition of R196. -/
theorem selectCommand : Obligations.SelectCommand := by
  refine ⟨fun s t index wrap hfree hindex => ?taken, fun s table wrap index hfree hbad => ?refused⟩
  case taken =>
    have htake := congrArg (respond 1) (State.select_taken (s := s) (tableOfByte_of_place t) (yesNo_flag wrap) hindex)
    have ⟨⟨hflags, hnotice, _, hpanel⟩, _⟩ := hfree
    rw [exec_frame rfl, hfree.respond_done (f := .select _ index _) htake hflags hnotice hpanel]
    rfl
  case refused =>
    have htake := congrArg (respond 1) (State.select_refused (s := s) hbad)
    rw [exec_frame rfl, hfree.respond_refused (f := .select table index wrap) htake]
    rfl

/-! ### READ ENTRIES (O18) -/

theorem State.readEntries_notSelected {n : Byte} (h : s.port.current = none) : s.readEntries n = (s, .refused .notSelected) := by
  unfold State.readEntries
  rw [h]

theorem State.readEntries_badField {n : Byte} {t : Fin 13} (h : s.port.current = some t) (hn : n.toNat < 1 ∨ 8 < n.toNat) :
    s.readEntries n = (s, .refused .badField) := by
  unfold State.readEntries
  rw [h]
  exact if_pos hn

/-- What a read gives, with the cursor moved as its plan says (R201). -/
theorem State.readEntries_given {n : Byte} {t : Fin 13} {c : Cursor} (h : s.port.current = some t) (hlow : 1 ≤ n.toNat) (hhigh : n.toNat ≤ 8)
    (hc : s.port.cursors[t] = c) : s.readEntries n =
      (s.setCursor t ⟨(readPlan c (presentEnd s t) n.toNat).2.2, c.wrap⟩,
        .done (half (readPlan c (presentEnd s t) n.toNat).1 ++ [byte (readPlan c (presentEnd s t) n.toNat).2.1.length] ++
          (readPlan c (presentEnd s t) n.toNat).2.1.flatMap (s.entryBytes (tableAt t)))) := by
  unfold State.readEntries
  rw [h]
  dsimp only
  rw [if_neg (by omega), State.tableEnd_tableAt, show s.cursor t = c from hc]

theorem readPlan_onward {i last n : Nat} : readPlan ⟨i, false⟩ last n =
    (i, (List.range (min n (last - i))).map (· + i), i + min n (last - i)) := rfl

theorem readPlan_around {i last n : Nat} : readPlan ⟨i, true⟩ last n =
    (if i < last then i else 0, (List.range (min n last)).map (fun k => ((if i < last then i else 0) + k) % last),
      if last = 0 then 0 else ((if i < last then i else 0) + min n last) % last) := rfl

/-- A read that gives entries answers with them, in as many parts as they take. -/
theorem State.Free.readEntries_answers (h : s.Free) {n : Byte} {t : Fin 13} {c : Cursor} {data : List Byte}
    (e : s.readEntries n = (s.setCursor t c, .done data)) :
    exec (.readEntries n) s = .next ((s.setCursor t c).sends (responseOf 2 (.done data) false)) := by
  have ⟨⟨hflags, hnotice, _, hpanel⟩, _⟩ := h
  rw [exec_frame rfl, h.respond_done (f := .readEntries n) (congrArg (respond 2) e) hflags hnotice hpanel]

/-- Settles O18, by the plan of a read without and with the wrap flag. -/
theorem readEntriesCommand : Obligations.ReadEntriesCommand := by
  refine ⟨fun s n hfree hnone => ?notSelected, fun s n t hfree hcurrent hbad => ?badField,
    fun s n t i hfree hcurrent hlow hhigh hc => ?onward, fun s n t i hfree hcurrent hlow hhigh hc => ?around⟩
  case notSelected =>
    rw [exec_frame rfl, hfree.respond_refused (f := .readEntries n) (congrArg (respond 2) (State.readEntries_notSelected hnone))]
    rfl
  case badField =>
    rw [exec_frame rfl, hfree.respond_refused (f := .readEntries n) (congrArg (respond 2) (State.readEntries_badField hcurrent hbad))]
    rfl
  case onward =>
    have hgiven := State.readEntries_given hcurrent hlow hhigh hc
    rw [readPlan_onward] at hgiven
    simp only [List.length_map, List.length_range, List.flatMap_map] at hgiven
    exact hfree.readEntries_answers hgiven
  case around =>
    have hgiven := State.readEntries_given hcurrent hlow hhigh hc
    rw [readPlan_around] at hgiven
    simp only [List.length_map, List.length_range, List.flatMap_map] at hgiven
    exact hfree.readEntries_answers hgiven

/-! ### The parts of a response (O19) -/

theorem parts_flatten {n : Nat} {data : List Byte} : (parts n data).flatten = data := by
  induction n generalizing data with
  | zero => simp [parts]
  | succ n ih =>
    unfold parts
    split
    · simp
    · rw [List.flatten_cons, ih, List.take_append_drop]

/-- With rounds enough for its bytes, data is cut into parts of the size of one. -/
theorem length_le_of_mem_parts {n : Nat} {data p : List Byte} (h : data.length ≤ n) (hp : p ∈ parts n data) : p.length ≤ partSize := by
  induction n generalizing data with
  | zero =>
    rw [parts, List.mem_singleton] at hp
    rw [hp]
    exact h.trans (Nat.zero_le _)
  | succ n ih =>
    unfold parts at hp
    split at hp
    · rename_i hsmall
      rw [List.mem_singleton.mp hp]
      exact hsmall
    · obtain rfl | hrest := List.mem_cons.mp hp
      · exact List.length_take_le _ _
      · have hdrop : (data.drop partSize).length ≤ n := by
          rw [List.length_drop]
          unfold partSize
          omega
        exact ih hdrop hrest

theorem parts_small {n : Nat} {data : List Byte} (h : data.length ≤ partSize) : parts n data = [data] := by
  cases n with
  | zero => rfl
  | succ n => exact if_pos h

/-- Settles O19: a part's five bytes before its data and the 234 of its data fit the frame. -/
theorem responsesInParts : Obligations.ResponsesInParts := by
  intro code data _
  refine ⟨parts data.length data, parts_ne_nil, parts_flatten, rfl, fun p hp part last summary => ?fits, parts_small⟩
  case fits =>
    have hsize : p.length ≤ 234 := length_le_of_mem_parts (Nat.le_refl _) hp
    simp only [OutMsg.body, bytesOfHalf, List.cons_append, List.nil_append, List.length_cons]
    omega

/-! ### WRITE ENTRY refused before its table's owner is asked (O20) -/

section

variable {entry : List Byte} {t : Fin 13}

theorem State.writeEntry_notSelected (h : s.port.current = none) : s.writeEntry entry = (s, .refused .notSelected) := by
  unfold State.writeEntry
  rw [h]

theorem State.writeEntry_readOnly (h : s.port.current = some t) (ht : (tableAt t).writable = false) :
    s.writeEntry entry = (s, .refused .readOnly) := by
  unfold State.writeEntry
  rw [h]
  dsimp only
  rw [ht]
  rfl

theorem State.writeEntry_endOfTable (h : s.port.current = some t) (ht : (tableAt t).writable = true)
    (hend : tableSizes.getD t.val 0 ≤ s.port.cursors[t].index) : s.writeEntry entry = (s, .refused .endOfTable) := by
  have hlarge : (tableAt t).largest ≤ (s.cursor t).index := by
    rw [tableAt_largest]
    exact hend
  unfold State.writeEntry
  rw [h]
  dsimp only
  rw [ht, if_pos hlarge]
  rfl

end

theorem writable_of_mem {t : Fin 13} (h : t ∈ ([0, 2, 3, 8, 9, 12] : List (Fin 13))) : (tableAt t).writable = true := by
  revert t
  decide

theorem readOnly_of_mem {t : Fin 13} (h : t ∈ ([1, 4, 5, 6, 7, 10, 11] : List (Fin 13))) : (tableAt t).writable = false := by
  revert t
  decide

/-- A refused WRITE ENTRY changes nothing (R202). -/
theorem State.Free.writeEntry_refused (h : s.Free) {entry : List Byte} {r : Reason} (e : s.writeEntry entry = (s, .refused r)) :
    exec (.writeEntry entry) s = .next (s.sends [refusedOf 3 r.code]) := by
  rw [exec_frame rfl, h.respond_refused (f := .writeEntry entry) (congrArg (respond 3) e)]

/-- Settles O20: the three checks that come before the owner's. -/
theorem writeEntryRefusals : Obligations.WriteEntryRefusals := by
  intro s entry hfree
  exact ⟨fun hnone => hfree.writeEntry_refused (State.writeEntry_notSelected hnone),
    fun t ht hcurrent => hfree.writeEntry_refused (State.writeEntry_readOnly hcurrent (readOnly_of_mem ht)),
    fun t ht hcurrent hend => hfree.writeEntry_refused (State.writeEntry_endOfTable hcurrent (writable_of_mem ht) hend)⟩

/-! ### The end of a frame being sent (O25) -/

/-- The command FRAME_SENT frees the line. -/
theorem exec_frameSent : exec .frameSent s = .next s.frameSent.finishStep := rfl

theorem exec_resetTakesHold : exec .resetTakesHold s = .next (if s.resetAwaited then s.frameSent else s).finishStep := rfl

theorem State.frameSent_of_free (h : s.port.sending = none) : s.frameSent = s := by
  unfold State.frameSent
  rw [h]

/-- The end of a frame that is not the LINK RESET response frees the line, and that is all. -/
theorem State.frameSent_of_plain (h : s.port.sending.isSome = true) (hreset : s.resetAwaited = false) :
    s.frameSent = { s with port := { s.port with sending := none } } := by
  obtain ⟨f, hf⟩ := Option.isSome_iff_exists.mp h
  unfold State.frameSent
  unfold State.resetAwaited at hreset
  rw [hf] at hreset ⊢
  dsimp only
  split
  · rename_i hmsg
    obtain ⟨m, summary⟩ := f
    cases hmsg
    cases hreset
  · rfl

/-- With no frame waiting and the panel line settled, what the freed line takes is all that is left to do. -/
theorem State.finishStep_of_nextOut (hflags : s.FlagsSettled) (hnotice : s.NoticeSettled) (hbuffer : s.port.buffer = [])
    (hpanel : s.PanelSettled) (hpr : t.pr = s.pr) (h : s.nextOut = some t) : s.finishStep = t := by
  obtain ⟨_, hbusy, hsame⟩ := State.nextOut_some h
  have htflags := State.nextOut_flagsSettled hflags h
  have htnotice := State.nextOut_noticeSettled hnotice h
  have hline : t.LineSettled := ⟨fun hfree => absurd hfree hbusy, by simp [State.mayTake, hsame, hbuffer]⟩
  have htpanel : t.PanelSettled := by
    unfold State.PanelSettled
    rw [hpr]
    exact hpanel
  have hpump : State.pump pumpRounds s = t := by
    show State.pump 12 s = t
    rw [State.pump, h]
    exact State.pump_eq hline 11
  unfold State.finishStep
  rw [State.refreshConditions_eq hflags hnotice, hpump, State.panelPump_eq htpanel, State.refreshConditions_eq htflags htnotice]

/-- The claim of a request that leaves the queue loses its tag, every other claim keeps it (R48). -/
theorem State.leaveQueue_claimTag {tag : Half} {d : Fin 16} : ((s.leaveQueue tag).drive d).claimTag =
    if (s.drive d).claimTag = some tag then none else (s.drive d).claimTag := by
  have hdrive : (s.leaveQueue tag).drive d = { s.drive d with
      claim := (s.drive d).claim.map (fun c => if c.tag = some tag then { c with tag := none } else c) } := mapVec_getElem d.isLt
  rw [hdrive]
  unfold Drive.claimTag
  cases (s.drive d).claim with
  | none => rfl
  | some c => by_cases htag : c.tag = some tag <;> simp [htag]

/-- Settles O25: the line is freed, and `State.nextOut` says what it takes. -/
theorem frameSentFreesTheLine : Obligations.FrameSentFreesTheLine := by
  refine ⟨fun s hsettled hnone => ?nothing, fun s hawaited => ?hold, fun s hsettled hnot => ?noHold,
    fun s hsettled hbuffer hbusy hnot => ?freed⟩
  case nothing => rw [exec_frameSent, State.frameSent_of_free hnone, State.finishStep_of_settled hsettled]
  case hold => rw [exec_resetTakesHold, hawaited]; rfl
  case noHold =>
    rw [exec_resetTakesHold, hnot]
    exact congrArg Host.Outcome.next (State.finishStep_of_settled hsettled)
  case freed =>
    intro freed
    have hexec : exec .frameSent s = .next freed.finishStep := by rw [exec_frameSent, State.frameSent_of_plain hbusy hnot]
    have ⟨hflags, hnotice, _, hpanel⟩ := hsettled
    have hends {t : State} (hpr : t.pr = s.pr) (hnext : freed.nextOut = some t) : exec .frameSent s = .next t := by
      rw [hexec, State.finishStep_of_nextOut (s := freed) hflags hnotice hbuffer hpanel hpr hnext]
    refine ⟨fun m rest himm => ?answer, fun tag r rest himm howed => ?reply, fun himm howed hn => ?notice, fun himm howed hn => ?idle⟩
    case answer => exact hends rfl (by simp only [State.nextOut, freed, himm]; rfl)
    case reply =>
      let replied := ({ freed with port := { freed.port with replyOwed := rest } }.leaveQueue tag).handOut (.reply tag r true)
      have hnext : freed.nextOut = some replied := by
        unfold State.nextOut
        rw [show freed.port.immediate = [] from himm, show freed.port.replyOwed = (tag, r) :: rest from howed]
      exact ⟨replied, hends rfl hnext, rfl, rfl, rfl, fun d => State.leaveQueue_claimTag (s := s)⟩
    case notice => exact hends rfl (by simp only [State.nextOut, freed, himm, howed, hn]; rfl)
    case idle =>
      have hsettled' : freed.Settled :=
        ⟨hflags, hnotice, ⟨fun _ => ⟨himm, howed, hn⟩, by simp [State.mayTake, freed, hbuffer]⟩, hpanel⟩
      rw [hexec, State.finishStep_of_settled hsettled']

end Sys2Proof.Machine
end

section
/-! PROOFS. The operator panel: characters and lines (O38, O39), the answers of lines (O40), the service words (O41), the panel line sent
(O45) and escalation (O46). -/

namespace Sys2Proof.Machine

variable {s t : State} {a : Answer} {n : Nat}

/-! ### The end of a command that leaves the port and its conditions -/

/-- What leaves the port and the conditions of R196 as they were has only the panel line to go on with. -/
theorem State.Settled.finishStep_panel (h : s.Settled) (hport : t.port = s.port) (hcond : t.conditionFlags = s.conditionFlags) :
    t.finishStep = t.panelPump := by
  have ⟨hflags, hnotice, hline, _⟩ := h
  have htflags := State.flagsSettled_of hport hcond hflags
  have htnotice := State.noticeSettled_of hport hnotice
  have htline : t.LineSettled := by
    unfold State.LineSettled State.mayTake at hline ⊢
    rw [hport]
    exact hline
  unfold State.finishStep
  rw [State.refreshConditions_eq htflags htnotice, State.pump_eq htline]
  exact State.refreshConditions_eq (State.flagsSettled_of State.panelPump_port State.panelPump_conditionFlags htflags)
    (State.noticeSettled_of State.panelPump_port htnotice)

/-! ### The end of a line (R137) -/

/-- The held line is empty and its mark clear. -/
def State.emptied (s : State) : State := { s with pr := { s.pr with held := [], tooLong := false } }

theorem State.lineEnded_full {f : State → State} (h : 4 ≤ s.pr.answers.length) : s.lineEnded f = s.emptied := if_pos h

theorem State.lineEnded_room {f : State → State} (h : s.pr.answers.length < 4) : s.lineEnded f = f s.emptied :=
  if_neg (Nat.not_le.mpr h)

theorem State.Settled.emptied (h : s.Settled) : s.emptied.Settled := h

/-- An answer goes to the panel line at once when it is free, else behind the answers that wait (R135). -/
theorem State.panelPump_answer (h : s.pr.sending = none → s.pr.allWithdrawn = false ∧ s.pr.answers = []) :
    (s.emptied.answer a).panelPump = panelSays s a := by
  cases hsending : s.pr.sending with
  | some line => simp [State.panelPump, State.emptied, State.answer, panelSays, hsending]
  | none =>
    obtain ⟨hall, hanswers⟩ := h hsending
    simp [State.panelPump, State.emptied, State.answer, State.sendLine, panelSays, hsending, hall, hanswers]

/-- A line is answered, and nothing but the prompt list and the attention outputs has changed. -/
theorem State.Settled.finishStep_answer (h : s.Settled) (hport : t.port = s.port) (hcond : t.conditionFlags = s.conditionFlags)
    (hpr : (t.pr.sending, t.pr.allWithdrawn, t.pr.answers) = (s.pr.sending, s.pr.allWithdrawn, s.pr.answers)) :
    (t.emptied.answer a).finishStep = panelSays t a := by
  have ⟨_, _, _, hpanel⟩ := h
  simp only [Prod.mk.injEq] at hpr
  obtain ⟨hsending, hall, hanswers⟩ := hpr
  have hends : (t.emptied.answer a).finishStep = (t.emptied.answer a).panelPump := h.finishStep_panel hport hcond
  rw [hends]
  refine State.panelPump_answer fun hfree => ?_
  obtain ⟨k, l, _⟩ := hpanel (hsending.symm.trans hfree)
  exact ⟨hall.trans k, hanswers.trans l⟩

/-! ### Characters (O38) -/

theorem exec_panelCharacter {c : BitVec 7} : exec (.panelCharacter c) s = .next (s.typeChar c).finishStep := rfl

theorem exec_panelLine {text : PanelText} : exec (.panelLine text) s = .next (s.typeLine text).finishStep := rfl

theorem setWidth_eq_iff {c : BitVec 7} {b : Byte} (h : b.toNat < 128) : c.setWidth 8 = b ↔ c = b.setWidth 7 := by
  constructor
  · rintro rfl
    ext i hi
    simp
  · rintro rfl
    apply BitVec.eq_of_toNat_eq
    simp only [BitVec.toNat_setWidth]
    omega

theorem toNat_character (c : BitVec 7) : (c.setWidth 8 : Byte).toNat = c.toNat := by
  have := c.isLt
  rw [BitVec.toNat_setWidth]
  omega

section

variable {c : BitVec 7}

theorem State.typeChar_return : s.typeChar 13 = s.endLine := rfl

theorem State.typeChar_erase (h : c = 8 ∨ c = 127) : s.typeChar c = { s with pr := { s.pr with held := s.pr.held.dropLast } } := by
  obtain rfl | rfl := h <;> rfl

theorem State.typeChar_control (hlow : c.toNat < 32) (hback : c ≠ 8) (hreturn : c ≠ 13) : s.typeChar c = s := by
  have h13 : ¬(c.setWidth 8 : Byte) = 0x0D := mt (setWidth_eq_iff (by decide)).mp hreturn
  have h8 : ¬((c.setWidth 8 : Byte) = 0x08 ∨ (c.setWidth 8 : Byte) = 0x7F) := by
    rintro (h | h)
    · exact hback ((setWidth_eq_iff (by decide)).mp h)
    · have := congrArg BitVec.toNat h
      rw [toNat_character] at this
      exact absurd this (by simp; omega)
  have hcontrol : (c.setWidth 8 : Byte).toNat < 0x20 := by rw [toNat_character]; exact hlow
  unfold State.typeChar
  dsimp only
  rw [if_neg h13, if_neg h8, if_pos hcontrol]

theorem State.typeChar_printable (hlow : 32 ≤ c.toNat) (hhigh : c.toNat < 127) : s.typeChar c = s.holdChar (c.setWidth 8) := by
  have hne {n : Nat} (hn : n < 32 ∨ n = 127) (k : (c.setWidth 8 : Byte).toNat = n) : False := by
    rw [toNat_character] at k
    omega
  have h13 : ¬(c.setWidth 8 : Byte) = 0x0D := fun h => hne (n := 13) (by decide) (congrArg BitVec.toNat h)
  have h8 : ¬((c.setWidth 8 : Byte) = 0x08 ∨ (c.setWidth 8 : Byte) = 0x7F) := by
    rintro (h | h)
    · exact hne (n := 8) (by decide) (congrArg BitVec.toNat h)
    · exact hne (n := 127) (by decide) (congrArg BitVec.toNat h)
  have hcontrol : ¬(c.setWidth 8 : Byte).toNat < 0x20 := by rw [toNat_character]; omega
  unfold State.typeChar
  dsimp only
  rw [if_neg h13, if_neg h8, if_neg hcontrol]

/-- A printable character as it is held. -/
theorem upperCase_character : upperCase (c.setWidth 8) =
    if 97 ≤ c.toNat ∧ c.toNat ≤ 122 then byte (c.toNat - 32) else byte c.toNat := by
  have hc := c.isLt
  unfold upperCase
  rw [toNat_character]
  split
  · apply BitVec.eq_of_toNat_eq
    rw [BitVec.toNat_sub, toNat_character, byte_toNat (by omega)]
    simp
    omega
  · apply BitVec.eq_of_toNat_eq
    rw [toNat_character, byte_toNat (by omega)]

/-- Characters other than carriage return change what is held, and nothing the port or the panel line goes on with. -/
theorem State.Settled.typeChar (h : s.Settled) (hc : c ≠ 13) : (s.typeChar c).Settled := by
  have h13 : ¬(c.setWidth 8 : Byte) = 0x0D := mt (setWidth_eq_iff (by decide)).mp hc
  unfold State.typeChar State.holdChar
  dsimp only
  rw [if_neg h13]
  split
  · exact h
  · split
    · exact h
    · split <;> exact h

end

/-- A line of spaces has no words. -/
theorem splitWords_blank {w : Text} (h : ∀ b ∈ w, b = space) : splitWords [] w = [] := by
  induction w with
  | nil => rfl
  | cons c rest ih =>
    obtain ⟨hc, hrest⟩ := List.forall_mem_cons.mp h
    rw [splitWords, if_pos hc]
    exact ih hrest

theorem State.endLine_full (h : 4 ≤ s.pr.answers.length) : s.endLine = s.emptied := by
  unfold State.endLine
  exact State.lineEnded_full h

theorem State.endLine_tooLong (h : s.pr.answers.length < 4) (hlong : s.pr.tooLong = true) :
    s.endLine = s.emptied.answer .lineTooLong := by
  unfold State.endLine
  rw [State.lineEnded_room h, hlong]
  rfl

theorem State.endLine_words (hlong : s.pr.tooLong = false) :
    s.endLine = s.lineEnded (fun u => u.wordsLine (splitWords [] s.pr.held)) := by
  unfold State.endLine
  rw [hlong]
  rfl

/-- Settles O38, character by character; what a line leaves is what its characters leave. -/
theorem panelCharacters : Obligations.PanelCharacters := by
  refine ⟨fun s c hs hc => ?erase, fun s c hs hlow hback hreturn => ?control, fun s c hs hlow hhigh hroom => ?held,
    fun s c hs hlow hhigh hfull => ?tooLong, fun s hs hfull => ?discarded, fun s hs hroom hlong => ?answered,
    fun s hs hlong hblank => ?blank, fun s text hs htext => ?line⟩
  case erase =>
    have hsettled : ({ s with pr := { s.pr with held := s.pr.held.dropLast } } : State).Settled := hs
    rw [exec_panelCharacter, State.typeChar_erase hc, State.finishStep_of_settled hsettled]
  case control => rw [exec_panelCharacter, State.typeChar_control hlow hback hreturn, State.finishStep_of_settled hs]
  case held =>
    have hsettled (b : Byte) : ({ s with pr := { s.pr with held := s.pr.held ++ [b] } } : State).Settled := hs
    have hhold : s.holdChar (c.setWidth 8) = { s with pr := { s.pr with held := s.pr.held ++ [upperCase (c.setWidth 8)] } } := if_pos hroom
    rw [exec_panelCharacter, State.typeChar_printable hlow hhigh, hhold, upperCase_character, State.finishStep_of_settled (hsettled _)]
  case tooLong =>
    have hsettled : ({ s with pr := { s.pr with tooLong := true } } : State).Settled := hs
    have hhold : s.holdChar (c.setWidth 8) = { s with pr := { s.pr with tooLong := true } } := if_neg (Nat.not_lt.mpr hfull)
    rw [exec_panelCharacter, State.typeChar_printable hlow hhigh, hhold, State.finishStep_of_settled hsettled]
  case discarded =>
    rw [exec_panelCharacter, State.typeChar_return, State.endLine_full hfull, State.finishStep_of_settled hs.emptied]
    rfl
  case answered =>
    rw [exec_panelCharacter, State.typeChar_return, State.endLine_tooLong hroom hlong, hs.finishStep_answer rfl rfl rfl]
  case blank =>
    have hempty : s.lineEnded (fun u => u.wordsLine []) = s.emptied := by
      unfold State.lineEnded
      exact ite_self _
    rw [exec_panelCharacter, State.typeChar_return, State.endLine_words hlong, splitWords_blank hblank, hempty,
      State.finishStep_of_settled hs.emptied]
    rfl
  case line =>
    suffices h : (text.foldl State.typeChar s).Settled ∧ text.foldl (fun o c => match o with
        | Host.Outcome.next t => exec (.panelCharacter c) t
        | o => o) (.next s) = .next (text.foldl State.typeChar s) from
      ⟨_, h.1, h.2, rfl⟩
    induction text generalizing s with
    | nil => exact ⟨hs, rfl⟩
    | cons c rest ih =>
      obtain ⟨hc, hrest⟩ := List.forall_mem_cons.mp htext
      have hnext : exec (.panelCharacter c) s = .next (s.typeChar c) := by
        rw [exec_panelCharacter, State.finishStep_of_settled (hs.typeChar hc)]
      simp only [List.foldl_cons, hnext]
      exact ih _ (hs.typeChar hc) hrest

/-! ### Typed lines (O39) -/

/-- A printable character that is held as it is typed. -/
def heldAsTyped (b : Byte) : Bool := 0x20 ≤ b.toNat && b.toNat < 0x7F && upperCase b == b

theorem State.typeChar_heldAsTyped {b : Byte} (hb : heldAsTyped b = true) (hroom : s.pr.held.length < 40) :
    s.typeChar (b.setWidth 7) = { s with pr := { s.pr with held := s.pr.held ++ [b] } } := by
  simp only [heldAsTyped, Bool.and_eq_true, decide_eq_true_eq, beq_iff_eq] at hb
  obtain ⟨⟨hlow, hhigh⟩, hupper⟩ := hb
  have hback : ((b.setWidth 7).setWidth 8 : Byte) = b := (setWidth_eq_iff (by omega)).mpr rfl
  have hnat : (b.setWidth 7).toNat = b.toNat := by rw [← toNat_character, hback]
  rw [State.typeChar_printable (by omega) (by omega), hback]
  unfold State.holdChar Config.maxPanelInput
  rw [if_pos hroom, hupper]

theorem State.foldl_typeChar {w : Text} (hw : ∀ b ∈ w, heldAsTyped b = true) (hroom : s.pr.held.length + w.length ≤ 40) :
    (typed w).foldl State.typeChar s = { s with pr := { s.pr with held := s.pr.held ++ w } } := by
  induction w generalizing s with
  | nil => rw [List.append_nil]; rfl
  | cons b rest ih =>
    obtain ⟨hb, hrest⟩ := List.forall_mem_cons.mp hw
    rw [List.length_cons] at hroom
    show (typed rest).foldl State.typeChar (s.typeChar (b.setWidth 7)) = _
    rw [State.typeChar_heldAsTyped hb (by omega), ih hrest (by simp; omega)]
    simp

/-- A line typed at an empty held line acts by its words. -/
theorem State.typeLine_typed {w : Text} (hheld : s.pr.held = []) (hlong : s.pr.tooLong = false) (hw : ∀ b ∈ w, heldAsTyped b = true)
    (hlen : w.length ≤ 40) : s.typeLine (typed w) = s.lineEnded (fun u => u.wordsLine (splitWords [] w)) := by
  have hfold : (typed w).foldl State.typeChar s = { s with pr := { s.pr with held := w } } := by
    rw [State.foldl_typeChar hw (by rw [hheld]; simpa using hlen), hheld, List.nil_append]
  unfold State.typeLine
  rw [hfold]
  exact State.endLine_words (s := { s with pr := { s.pr with held := w } }) hlong

/-- The words of a line that begins with a word and a space. -/
theorem splitWords_word {word w rest : Text} (hne : word ++ w ≠ []) (hw : ∀ c ∈ w, c ≠ space) :
    splitWords word (w ++ space :: rest) = (word ++ w) :: splitWords [] rest := by
  induction w generalizing word with
  | nil =>
    rw [List.append_nil] at hne ⊢
    cases word with
    | nil => exact absurd rfl hne
    | cons c cs => exact if_pos rfl
  | cons c cs ih =>
    obtain ⟨hc, hcs⟩ := List.forall_mem_cons.mp hw
    have hstep : splitWords word (c :: (cs ++ space :: rest)) = splitWords (word ++ [c]) (cs ++ space :: rest) := by
      cases word with
      | nil => exact if_neg hc
      | cons d ds => exact if_neg hc
    rw [List.cons_append, hstep, ih (by simp) hcs]
    simp

/-- A line of one word. -/
theorem splitWords_last {word w : Text} (hne : word ++ w ≠ []) (hw : ∀ c ∈ w, c ≠ space) : splitWords word w = [word ++ w] := by
  induction w generalizing word with
  | nil =>
    rw [List.append_nil] at hne ⊢
    cases word with
    | nil => exact absurd rfl hne
    | cons c cs => rfl
  | cons c cs ih =>
    obtain ⟨hc, hcs⟩ := List.forall_mem_cons.mp hw
    have hstep : splitWords word (c :: cs) = splitWords (word ++ [c]) cs := by
      cases word with
      | nil => exact if_neg hc
      | cons d ds => exact if_neg hc
    rw [hstep, ih (by simp) hcs]
    simp

/-- A digit as it is typed. -/
theorem digit_typed : ∀ d : Fin 10, heldAsTyped (byte (0x30 + d)) = true ∧ byte (0x30 + d) ≠ space ∧ isDigit (byte (0x30 + d)) = true ∧
    (byte (0x30 + d)).toNat - 0x30 = d := by decide

/-- The number of a prompt as it is typed: two digits, which are a word and spell the number. -/
theorem twoDigits_typed (h : n < 100) : (∀ b ∈ twoDigits n, heldAsTyped b = true) ∧ (∀ b ∈ twoDigits n, b ≠ space) ∧
    allDigits (twoDigits n) = true ∧ numberOf (twoDigits n) = n := by
  have htens : n / 10 % 10 < 10 := Nat.mod_lt _ (by decide)
  have hones : n % 10 < 10 := Nat.mod_lt _ (by decide)
  obtain ⟨htyped, hspace, hdigit, hvalue⟩ := digit_typed ⟨_, htens⟩
  obtain ⟨ktyped, kspace, kdigit, kvalue⟩ := digit_typed ⟨_, hones⟩
  refine ⟨?typed, ?space, ?digits, ?number⟩
  case typed => simp only [twoDigits, List.forall_mem_cons, List.not_mem_nil, false_imp_iff, implies_true, and_true]; exact ⟨htyped, ktyped⟩
  case space => simp only [twoDigits, List.forall_mem_cons, List.not_mem_nil, false_imp_iff, implies_true, and_true]; exact ⟨hspace, kspace⟩
  case digits => simp [allDigits, twoDigits, hdigit, kdigit]
  case number =>
    show 10 * (10 * 0 + ((byte (0x30 + n / 10 % 10)).toNat - 0x30)) + ((byte (0x30 + n % 10)).toNat - 0x30) = n
    dsimp only at hvalue kvalue
    rw [hvalue, kvalue]
    omega

/-- A reply word as it is typed. -/
theorem ReplyWord.text_typed (w : ReplyWord) : (∀ b ∈ w.text, heldAsTyped b = true) ∧ (∀ b ∈ w.text, b ≠ space) ∧
    w.text ≠ [] ∧ w.text.length ≤ 8 ∧ replyWord w.text = some w := by
  cases w <;> decide +kernel

theorem State.wordsLine_ack {rest : List Text} : s.wordsLine (wordAck :: rest) = match rest with
    | [w] => if w = wordAll then s.lineAckAll else if allDigits w then s.lineAck (numberOf w) else s.answer .notUnderstood
    | _ => s.answer .notUnderstood := by
  unfold State.wordsLine
  dsimp only
  rw [if_pos rfl] <;> rfl

/-- A line that begins with a number (R138). -/
theorem State.wordsLine_number (h : n < 100) {rest : List Text} : s.wordsLine (twoDigits n :: rest) = s.numberLine n rest := by
  obtain ⟨_, _, hdigits, hnumber⟩ := twoDigits_typed h
  have hlength {w : Text} (hw : w.length ≠ 2) : twoDigits n ≠ w := fun e => hw (e ▸ rfl)
  have hack : twoDigits n ≠ wordAck := hlength (by decide)
  have hlist : ¬(twoDigits n = wordList ∧ rest = []) := fun k => hlength (by decide) k.1
  have hquiesce : ¬(twoDigits n = wordQuiesce ∧ rest = []) := fun k => hlength (by decide) k.1
  have hresume : ¬(twoDigits n = wordResume ∧ rest = []) := fun k => hlength (by decide) k.1
  unfold State.wordsLine
  dsimp only
  rw [if_neg hack, if_neg hlist, if_neg hquiesce, if_neg hresume, if_pos hdigits, hnumber]

/-- The reply command of a number, a kind and a word. -/
theorem replyOf_of_mem {x : (Nat → Instr) × PromptKind × ReplyWord} (hx : x ∈ replyCommands) :
    replyOf (x.1 n) = some (x.2.1, n, x.2.2) := by
  revert x
  simp [replyCommands, replyOf]

theorem State.lineEnded_congr {f g : State → State} (h : f s.emptied = g s.emptied) : s.lineEnded f = s.lineEnded g := by
  show ite _ _ (f s.emptied) = ite _ _ (g s.emptied)
  rw [h]

/-- The line "n WORD" replies to the prompt n with the word (R138). -/
theorem State.numberLine_reply {w : ReplyWord} : s.numberLine n [w.text] = s.reply n (fun _ => true) w := by
  obtain ⟨_, _, _, _, hword⟩ := w.text_typed
  unfold State.numberLine
  cases h : s.prompt? n with
  | none => simp only [State.reply, h]
  | some p => simp only [hword]

theorem State.reply_kind {w : ReplyWord} {k : PromptKind} (h : ∀ p, s.prompt? n = some p → p.kind = k) :
    s.reply n (fun _ => true) w = s.reply n (· == k) w := by
  unfold State.reply
  split
  · rfl
  · rename_i p hp
    simp [h p hp]

/-- Settles O39: a typed line acts by its words (`State.typeLine_typed`), and each form of words is its command. -/
theorem typedLinesActAsTheirCommands : Obligations.TypedLinesActAsTheirCommands := by
  intro s hheld hlong types
  have hline {w : Text} {c : Instr} {f : State → State} (hw : ∀ b ∈ w, heldAsTyped b = true) (hlen : w.length ≤ 40)
      (hc : exec c s = .next (s.lineEnded f).finishStep) (hf : s.emptied.wordsLine (splitWords [] w) = f s.emptied) : types w c := by
    show exec (.panelLine (typed w)) s = exec c s
    rw [exec_panelLine, State.typeLine_typed hheld hlong hw hlen, hc, State.lineEnded_congr hf]
  refine ⟨hline (by decide) (by decide) rfl rfl, hline (by decide) (by decide) rfl rfl, hline (by decide) (by decide) rfl rfl,
    hline (by decide) (by decide) rfl rfl, fun n hn => ⟨?ack, fun x hx hkind => ?reply⟩⟩
  case ack =>
    obtain ⟨htyped, hspace, hdigits, hnumber⟩ := twoDigits_typed hn
    have hwords : splitWords [] (ascii ['A', 'C', 'K', ' '] ++ twoDigits n) = [wordAck, twoDigits n] := by
      show splitWords [] (wordAck ++ space :: twoDigits n) = _
      rw [splitWords_word (by decide) (by decide), splitWords_last (by simp [twoDigits]) hspace]
      rfl
    have hall : twoDigits n ≠ wordAll := fun e => absurd (congrArg List.length e) (Nat.ne_of_beq_eq_false rfl)
    refine hline (fun b hb => ?_) (by simp [ascii, twoDigits]) (f := fun u => u.lineAck n) rfl ?_
    · obtain hb | hb := List.mem_append.mp hb
      · exact (by decide : ∀ b ∈ ascii ['A', 'C', 'K', ' '], heldAsTyped b = true) b hb
      · exact htyped b hb
    · rw [hwords, State.wordsLine_ack]
      dsimp only
      rw [if_neg hall, if_pos hdigits, hnumber]
  case reply =>
    obtain ⟨htyped, hspace, _, _⟩ := twoDigits_typed hn
    obtain ⟨hwtyped, hwspace, hwne, hwlen, _⟩ := x.2.2.text_typed
    have hwords : splitWords [] (twoDigits n ++ [space] ++ x.2.2.text) = [twoDigits n, x.2.2.text] := by
      rw [List.append_assoc, List.singleton_append, splitWords_word (by simp [twoDigits]) hspace,
        splitWords_last (by simpa using hwne) hwspace]
      rfl
    refine hline (fun b hb => ?_) ?_ (exec_reply (replyOf_of_mem hx)) ?_
    · simp only [List.mem_append, List.mem_singleton] at hb
      obtain (hb | rfl) | hb := hb
      · exact htyped b hb
      · decide
      · exact hwtyped b hb
    · simp [twoDigits]
      omega
    · rw [hwords, State.wordsLine_number hn, State.numberLine_reply]
      exact State.reply_kind hkind

end Sys2Proof.Machine
end

section
/-! PROOFS. The answers of the panel's lines (O40), the service words (O41), the panel line sent (O45), escalation (O46) and the cadence units
(O47). -/

namespace Sys2Proof.Machine

variable {s t : State} {a : Answer} {n : Nat}

/-! ### The cadence units (O47) -/

/-- The unit an output has when the Attention Generator has been told of the prompt list (R150). -/
def State.followed (s : State) (entered : Option Nat) (o : Output) : AttnUnit :=
  if s.governing o ≠ (s.attnUnit o).level ∨ (isOneShot (s.attnUnit o).cadence = true ∧ entered.isSome = true ∧ entered = s.governing o) then
    startCadence (s.governing o) (s.cadenceAt o (s.governing o))
  else s.attnUnit o

theorem State.setAttnUnit_attnUnit {o : Output} : s.setAttnUnit o (s.attnUnit o) = s := by cases o <;> rfl

theorem State.followUnit_eq {entered : Option Nat} {o : Output} : s.followUnit entered o = s.setAttnUnit o (s.followed entered o) := by
  unfold State.followUnit State.followed
  dsimp only
  split
  · rename_i hlevel
    rw [if_pos (.inl hlevel)]
  · rename_i hlevel
    split
    · rename_i hshot
      rw [if_pos (.inr hshot)]
    · rename_i hshot
      rw [if_neg (not_or_intro hlevel hshot), State.setAttnUnit_attnUnit]

/-- The Attention Generator follows the prompt list, and that is all it changes (R150). -/
theorem State.attend_eq {entered : Option Nat} :
    s.attend entered = { s with att := ⟨s.followed entered .lamp, s.followed entered .horn⟩ } := by
  unfold State.attend
  rw [State.followUnit_eq, State.followUnit_eq]
  rfl

theorem State.attend_attnUnit {entered : Option Nat} {o : Output} : (s.attend entered).attnUnit o = s.followed entered o := by
  rw [State.attend_eq]
  cases o <;> rfl

theorem startCadence_level {level : Option Nat} {c : Cadence} : (startCadence level c).level = level := by cases c <;> rfl

theorem State.followed_level {entered : Option Nat} {o : Output} : (s.followed entered o).level = s.governing o := by
  unfold State.followed
  split
  · exact startCadence_level
  · rename_i h
    exact (not_not.mp (not_or.mp h).1).symm

theorem foldl_max {levels : List Nat} {b : Nat} :
    levels.foldl (fun best l => some (max l (best.getD 0))) (some b) = some (levels.foldl (fun m l => max l m) b) := by
  induction levels generalizing b with
  | nil => rfl
  | cons l rest ih => exact ih

/-- The highest of a list of levels: none is above it, and it is one of them (R150). -/
theorem highest_spec (levels : List Nat) : (∀ l ∈ levels, l ≤ (highest levels).getD 0) ∧ (highest levels = none ↔ levels = []) ∧
    (∀ l, highest levels = some l → l ∈ levels) := by
  have hfold (rest : List Nat) (b : Nat) : (∀ l ∈ rest, l ≤ rest.foldl (fun m l => max l m) b) ∧ b ≤ rest.foldl (fun m l => max l m) b ∧
      (rest.foldl (fun m l => max l m) b = b ∨ rest.foldl (fun m l => max l m) b ∈ rest) := by
    induction rest generalizing b with
    | nil => simp
    | cons l rest ih =>
      obtain ⟨hall, hbase, hmem⟩ := ih (max l b)
      simp only [List.foldl_cons, List.mem_cons, forall_eq_or_imp]
      refine ⟨⟨by omega, hall⟩, by omega, ?_⟩
      obtain hmem | hmem := hmem
      · rw [hmem]
        omega
      · exact .inr (.inr hmem)
  cases levels with
  | nil => simp [highest]
  | cons l rest =>
    have hhighest : highest (l :: rest) = some (rest.foldl (fun m l => max l m) l) := by
      unfold highest
      rw [List.foldl_cons, foldl_max]
      simp
    obtain ⟨hall, hbase, hmem⟩ := hfold rest l
    rw [hhighest]
    simp only [Option.getD_some, List.mem_cons, forall_eq_or_imp, Option.some.injEq, forall_eq', reduceCtorEq]
    exact ⟨⟨hbase, hall⟩, trivial, hmem⟩

/-- Settles O47: the phases by `nextPhase`, the units by `State.followed`, the governing levels by `highest_spec`. -/
theorem attentionUnits : Obligations.AttentionUnits := by
  have exec_phase {s : State} {o : Output} : exec (.phaseTimerExpiry o) s = .next (s.phaseExpiry o).finishStep := rfl
  refine ⟨fun s o hs hstopped => ?stopped, fun s o level c p t hs hunit => ?running, fun level on off => ⟨rfl, rfl, rfl, rfl⟩,
    fun s entered o => ?follows, fun s => ?governs⟩
  case stopped =>
    have hphase : s.phaseExpiry o = s := by
      unfold State.phaseExpiry
      simp only [hstopped]
    rw [exec_phase, hphase, State.finishStep_of_settled hs]
  case running =>
    intro now goes
    have hnow : s.cadenceAt o (some level) = now := by cases o <;> rfl
    have hgoes {u : AttnUnit} (hu : nextPhase ⟨some level, c, p, some t⟩ now = u) : goes u := by
      have hphase : s.phaseExpiry o = s.setAttnUnit o u := by
        unfold State.phaseExpiry
        simp only [hunit, hnow, hu]
      have hsettled : (s.setAttnUnit o u).Settled := by cases o <;> exact hs
      show exec (.phaseTimerExpiry o) s = .next (s.setAttnUnit o u)
      rw [exec_phase, hphase, State.finishStep_of_settled hsettled]
    refine ⟨fun on off on' off' hc hn => ⟨fun hp => hgoes ?_, fun hp => hgoes ?_⟩, fun on on' hc hn => hgoes ?_⟩
    · rw [hc, hn, hp]; rfl
    · rw [hc, hn, hp]; rfl
    · rw [hc, hn]; rfl
  case follows =>
    have hunit := s.attend_attnUnit (entered := entered) (o := o)
    refine ⟨by rw [State.attend_eq], ?_, fun hchanged => ?_, fun l on hgov hlevel hcadence hentered => ?_, fun hsame hkept => ?_⟩
    · rw [hunit, State.followed_level]
    · rw [hunit, State.followed, if_pos (.inl hchanged)]
      refine congrArg (startCadence (s.governing o)) ?_
      cases s.governing o <;> cases o <;> rfl
    · have hshot : isOneShot (s.attnUnit o).cadence = true := by rw [hcadence]; rfl
      rw [hunit, State.followed, if_pos (.inr ⟨hshot, by rw [hentered]; rfl, hentered.trans hgov.symm⟩), hgov]
      cases o <;> rfl
    · rw [hunit, State.followed, if_neg]
      rintro (h | ⟨hshot, _, h⟩)
      · exact h hsame
      · obtain h' | h' := hkept
        · exact h' h
        · cases hcadence : (s.attnUnit o).cadence with
          | oneShot on => exact h' on hcadence
          | off | steady | blink => rw [hcadence] at hshot; cases hshot
  case governs =>
    obtain ⟨hlamp, hlampNone, hlampMem⟩ := highest_spec (s.pr.list.map (·.level))
    obtain ⟨hhorn, hhornNone, hhornMem⟩ := highest_spec ((s.pr.list.filter (fun p => !p.acked)).map (·.level))
    refine ⟨fun p hp => hlamp _ (List.mem_map_of_mem hp), fun p hp hacked => hhorn _ (List.mem_map_of_mem (List.mem_filter.mpr ⟨hp, by simp [hacked]⟩)),
      hlampNone.trans List.map_eq_nil_iff, hhornNone.trans ?_, fun l hl => List.mem_map.mp (hlampMem l hl), fun l hl => ?_⟩
    · simp
    · obtain ⟨p, hp, hlevel⟩ := List.mem_map.mp (hhornMem l hl)
      obtain ⟨hmem, hacked⟩ := List.mem_filter.mp hp
      exact ⟨p, hmem, by simpa using hacked, hlevel⟩

/-! ### Escalation (O46) -/

/-- Two outstanding prompts of one number: the laws of the statement leave them possible. -/
def twoPromptsOfOneNumber : State :=
  let p : Prompt := {
    number := 1, kind := .stationUnknown, tag := none, volume := none, drive := none, arm := none, position := none, template := 0
    issued := 0, level := 0, acked := false, timer := some 1, sub := none, lineOwed := false }
  { State.reset with pr := { State.reset.pr with list := [p, { p with kind := .armOut }] } }

theorem twoPromptsOfOneNumber_settled : twoPromptsOfOneNumber.Settled := by
  obtain ⟨hflags, hnotice, hline, hpanel⟩ := State.reset_settled
  refine ⟨hflags, hnotice, hline, fun hfree => ?_⟩
  obtain ⟨hall, hanswers, hwithdrawals, _⟩ := hpanel hfree
  exact ⟨hall, hanswers, hwithdrawals, rfl⟩

/-- Refutes O46: of two outstanding prompts of one number each restarts with the period of its own severity, where the statement gives both that
of the first; R127 gives no two outstanding prompts one number, and the statement does not suppose it. -/
theorem not_escalationExpiry : ¬ Obligations.EscalationExpiry := by
  intro h
  obtain ⟨_, hruns⟩ := h twoPromptsOfOneNumber 1 twoPromptsOfOneNumber_settled
  obtain ⟨hlow, _⟩ := hruns _ rfl rfl
  have hexec := Host.Outcome.next.inj (hlow (by decide))
  have htimers := congrArg (fun s : State => s.pr.list.map (·.timer)) hexec
  revert htimers
  decide +kernel

end Sys2Proof.Machine
end

section
/-! PROOFS. The answers of the panel's lines (O40), the service words (O41) and the panel line sent (O45). -/

namespace Sys2Proof.Machine

variable {s t : State} {a : Answer} {n : Nat}

/-! ### The answers of lines (O40) -/

/-- A line that no form fits, and a reply that no prompt takes, is answered and changes nothing else. -/
theorem State.Settled.answered (h : s.Settled) : (s.emptied.answer a).finishStep = panelSays s a := h.finishStep_answer rfl rfl rfl

theorem State.reply_noSuchPrompt {k : PromptKind → Bool} {w : ReplyWord} (h : s.prompt? n = none) :
    s.reply n k w = s.answer .noSuchPrompt := by
  unfold State.reply
  rw [h]

theorem State.reply_notValid {k : PromptKind → Bool} {w : ReplyWord} {p : Prompt} (h : s.prompt? n = some p)
    (hno : ¬((k p.kind && p.accepts.contains w) = true)) : s.reply n k w = s.answer .replyNotValid := by
  unfold State.reply
  rw [h]
  exact if_neg hno

theorem exec_ack : exec (.ack n) s = .next (s.lineEnded (fun u => u.lineAck n)).finishStep := rfl

theorem exec_ackAll : exec .ackAll s = .next (s.lineEnded State.lineAckAll).finishStep := rfl

theorem exec_list : exec .list s = .next (s.lineEnded State.lineList).finishStep := rfl

theorem State.lineAck_none (h : s.prompt? n = none) : s.lineAck n = s.answer .noSuchPrompt := by
  unfold State.lineAck
  rw [h]

theorem State.lineAck_some {p : Prompt} (h : s.prompt? n = some p) : s.lineAck n = (s.ackPrompt n).answer .accepted := by
  unfold State.lineAck
  rw [h]

/-- The attention outputs follow the prompt list alone: what is typed is no part of it. -/
theorem State.emptied_attend {entered : Option Nat} : s.emptied.attend entered = (s.attend entered).emptied := by
  rw [State.attend_eq, State.attend_eq]
  rfl

theorem State.attend_conditionFlags {entered : Option Nat} : (s.attend entered).conditionFlags = s.conditionFlags := by
  rw [State.attend_eq]
  rfl

/-- A new prompt list that asks for no more lines, and its attention outputs: the answer of the line goes on. -/
theorem State.Settled.finishStep_attended (h : s.Settled) {list : List Prompt} {entered : Option Nat} :
    ((({ s with pr := { s.pr with list := list } } : State).attend entered).emptied.answer a).finishStep =
      panelSays (({ s with pr := { s.pr with list := list } } : State).attend entered) a := by
  have hattend := State.attend_eq (s := { s with pr := { s.pr with list := list } }) (entered := entered)
  refine h.finishStep_answer ?_ ?_ ?_
  · rw [hattend]
  · exact State.attend_conditionFlags
  · rw [hattend]

theorem State.numberLine_listed {rest : List Text} (h : s.prompt? n = none) (hrest : rest ≠ []) :
    s.numberLine n rest = s.answer .noSuchPrompt := by
  unfold State.numberLine
  cases rest with
  | nil => exact absurd rfl hrest
  | cons w rest => rw [h]

/-- Settles O40: what a typed line is answered is what its words are answered (`State.typeLine_typed`). -/
theorem answersOfPanelLines : Obligations.AnswersOfPanelLines := by
  intro s hs hroom
  have hcommand {c : Instr} {f : State → State} {a : Answer} (hc : exec c s = .next (s.lineEnded f).finishStep)
      (hf : f s.emptied = s.emptied.answer a) : exec c s = .next (panelSays s a) := by
    rw [hc, State.lineEnded_room hroom, hf, hs.answered]
  refine ⟨fun n x hx => ⟨fun hnone => ?noPrompt, fun p hp hbad => ?notValid⟩, fun n hnone => ?noAck, fun hheld hlong => ?typed,
    fun n p hp => ?ack, ?ackAll, ?list⟩
  case noPrompt => exact hcommand (exec_reply (replyOf_of_mem hx)) (State.reply_noSuchPrompt hnone)
  case notValid =>
    refine hcommand (exec_reply (replyOf_of_mem hx)) (State.reply_notValid (p := p) hp ?_)
    simp only [Bool.and_eq_true, beq_iff_eq, not_and, Bool.not_eq_true]
    intro hkind
    exact hbad.resolve_left (not_not_intro hkind)
  case noAck => exact hcommand exec_ack (State.lineAck_none hnone)
  case typed =>
    intro answered
    have hline {w : Text} {a : Answer} (hw : ∀ b ∈ w, heldAsTyped b = true) (hlen : w.length ≤ 40)
        (ha : s.emptied.wordsLine (splitWords [] w) = s.emptied.answer a) : answered w a := by
      show exec (.panelLine (typed w)) s = .next (panelSays s a)
      rw [exec_panelLine, State.typeLine_typed hheld hlong hw hlen, State.lineEnded_room hroom, ha, hs.answered]
    have hnumber {n : Nat} {w : Text} {a : Answer} (hn : n < 100) (hw : ∀ b ∈ w, heldAsTyped b = true) (hlen : w.length ≤ 30)
        (ha : s.emptied.numberLine n (splitWords [] w) = s.emptied.answer a) : answered (twoDigits n ++ space :: w) a := by
      obtain ⟨htyped, hspace, _⟩ := twoDigits_typed hn
      refine hline (fun b hb => ?_) ?_ ?_
      · simp only [List.mem_append, List.mem_cons] at hb
        obtain hb | rfl | hb := hb
        · exact htyped b hb
        · decide
        · exact hw b hb
      · simp [twoDigits]
        omega
      · rw [splitWords_word (by simp [twoDigits]) hspace, List.nil_append, State.wordsLine_number hn, ha]
    refine ⟨hline (by decide) (by decide) rfl, hline (by decide) (by decide) rfl, hline (by decide) (by decide) rfl,
      fun n hn => ⟨?_, fun hnone => ?_, fun hsome => ⟨?_, ?_⟩⟩⟩
    · obtain ⟨htyped, hspace, _⟩ := twoDigits_typed hn
      refine hline htyped (by simp [twoDigits]) ?_
      rw [splitWords_last (by simp [twoDigits]) hspace, List.nil_append, State.wordsLine_number hn]
      rfl
    · exact hnumber (w := wordList) hn (by decide) (by decide) (State.numberLine_listed hnone (by decide))
    · obtain ⟨p, hp⟩ := Option.isSome_iff_exists.mp hsome
      have hp' : s.emptied.prompt? n = some p := hp
      refine hnumber (w := wordList) hn (by decide) (by decide) ?_
      show s.emptied.numberLine n [wordList] = _
      unfold State.numberLine
      rw [hp']
      rfl
    · obtain ⟨p, hp⟩ := Option.isSome_iff_exists.mp hsome
      have hp' : s.emptied.prompt? n = some p := hp
      refine hnumber (w := ascii ['D', 'O', 'N', 'E', ' ', '1']) hn (by decide) (by decide) ?_
      show s.emptied.numberLine n [ascii ['D', 'O', 'N', 'E'], ascii ['1']] = _
      unfold State.numberLine
      rw [hp']
  case ack =>
    have hacked : s.emptied.lineAck n = (({ s with pr := { s.pr with
        list := s.pr.list.map (fun q : Prompt => if q.number = n then acknowledged q else q) } } : State).attend none).emptied.answer
          .accepted := by
      rw [State.lineAck_some (s := s.emptied) (p := p) hp, ← State.emptied_attend]
      rfl
    rw [exec_ack, State.lineEnded_room hroom, hacked, hs.finishStep_attended]
  case ackAll =>
    have hacked : s.emptied.lineAckAll = (({ s with pr := { s.pr with
        list := s.pr.list.map acknowledged } } : State).attend none).emptied.answer .accepted := by
      rw [← State.emptied_attend]
      rfl
    rw [exec_ackAll, State.lineEnded_room hroom, hacked, hs.finishStep_attended]
  case list =>
    have hlisted : s.emptied.lineList = ({ s with pr := { s.pr with
        list := s.pr.list.map (fun q : Prompt => { q with lineOwed := true }) } } : State).emptied.answer .accepted := rfl
    rw [exec_list, State.lineEnded_room hroom, hlisted, hs.finishStep_answer]
    all_goals rfl

end Sys2Proof.Machine
end

section
/-! PROOFS. What the operations of the blocks leave of the Service Controller's state, and the panel's service words (O41). -/

namespace Sys2Proof.Machine

variable {s t : State} {a : ArmId} {d : Fin 16}

/-! ### Operations that leave the service block -/

@[simp] theorem State.issue_svc {kind : PromptKind} {names : Names} : (s.issue kind names).1.svc = s.svc := by
  simp [State.issue, State.attend_eq]

@[simp] theorem State.attend_svc {entered : Option Nat} : (s.attend entered).svc = s.svc := by rw [State.attend_eq]

@[simp] theorem State.askEquipment_svc {e : Equipment} : (s.askEquipment e).svc = s.svc := by
  unfold State.askEquipment
  (repeat' split) <;> simp

@[simp] theorem State.testOwed_svc {l : List Equipment} : (s.testOwed l).svc = s.svc := by
  induction l with
  | nil => rfl
  | cons e rest ih =>
    unfold State.testOwed
    split
    · simp
    · exact ih

@[simp] theorem State.leaveList_svc {n : Nat} {line : Bool} : (s.leaveList n line).svc = s.svc := by
  unfold State.leaveList
  split
  · rfl
  · dsimp only
    rw [State.testOwed_svc]
    (repeat' split) <;> simp [State.queueWithdrawal, State.unprompt]

@[simp] theorem State.endEquipment_svc {e : Equipment} : (s.endEquipment e).svc = s.svc := by
  unfold State.endEquipment
  split
  · exact State.leaveList_svc
  · rfl

@[simp] theorem State.updAccount_svc {i : Nat} {f : Account → Account} : (s.updAccount i f).svc = s.svc := by
  unfold State.updAccount
  split <;> rfl

@[simp] theorem State.recordClaim_svc {session : Option Session} {outcome : RecOutcome} : (s.recordClaim d session outcome).svc = s.svc := by
  unfold State.recordClaim
  (repeat' split) <;> simp [State.putRecord]

@[simp] theorem State.endClaim_svc : (s.endClaim d).svc = s.svc := by
  unfold State.endClaim
  split
  · rfl
  · simp only [State.dropClaimed]
    split <;> simp [State.countClaimEnd]

@[simp] theorem State.restDrive_svc : (s.restDrive d).svc = s.svc := by simp [State.restDrive]

@[simp] theorem State.giveUpClaim_svc {outcome : RecOutcome} : (s.giveUpClaim d outcome).svc = s.svc := by
  unfold State.giveUpClaim
  dsimp only
  split <;> simp [State.stopLoadTimer]

@[simp] theorem State.loseClaim_svc : (s.loseClaim d).svc = s.svc := by simp [State.loseClaim, State.stopLoadTimer]

@[simp] theorem State.placeFailed_svc : (s.placeFailed d).svc = s.svc := by
  unfold State.placeFailed
  dsimp only
  (repeat' split) <;> simp

@[simp] theorem State.dropLegs_svc : (s.dropLegs a).svc = s.svc := by
  unfold State.dropLegs
  exact (foldl_part (g := State.svc) (fun _ _ => State.placeFailed_svc) _ _).trans State.setArmPort_svc

@[simp] theorem State.withdrawClaim_svc : (s.withdrawClaim a).svc = s.svc := rfl

@[simp] theorem State.putOnLine_svc {f : ArmFrame} : (s.putOnLine a f).svc = s.svc := by
  unfold State.putOnLine
  cases f <;> simp

@[simp] theorem State.sendArm_svc {f : ArmFrame} : (s.sendArm a f).svc = s.svc := by
  unfold State.sendArm
  dsimp only
  split <;> simp

@[simp] theorem State.enterHoming_svc : (s.enterHoming a).svc = s.svc := by
  unfold State.enterHoming
  dsimp only
  (repeat' split) <;> simp [State.takePath]

@[simp] theorem State.reserveDest_svc {id : Nat} {p : Option Place} : (s.reserveDest id p).svc = s.svc := by
  unfold State.reserveDest
  split <;> simp [State.reserve]

@[simp] theorem State.bindOrder_svc {id : Nat} : (s.bindOrder id).svc = s.svc := by
  unfold State.bindOrder
  split
  · rfl
  · dsimp only
    split <;> simp

theorem State.createOrder_svc {kind : OrderKind} {source dest : Option Place} {volume : Option Nat} {tag : Option Half} {legs : List Leg}
    {arm : Option ArmId} {x : State × Nat} (e : s.createOrder kind source dest volume tag legs arm = some x) : x.1.svc = s.svc := by
  unfold State.createOrder at e
  split at e
  · cases e
    dsimp only
    split <;> simp
  · cases e

@[simp] theorem State.askScan_svc : s.askScan.svc = s.svc := by
  unfold State.askScan
  split
  · rfl
  · dsimp only
    split
    · rename_i made
      split at made
      · split at made
        · cases made
        · exact State.createOrder_svc made
      · cases made
    · rfl

@[simp] theorem State.beginAudit_svc {first last : Nat} : (s.beginAudit first last).svc = s.svc := State.askScan_svc

@[simp] theorem State.askFullAudit_svc : s.askFullAudit.svc = s.svc := by
  unfold State.askFullAudit
  split <;> simp

@[simp] theorem State.retryScan_svc : s.retryScan.svc = s.svc := by
  unfold State.retryScan
  split <;> simp

@[simp] theorem State.untake_svc : (s.untake a).svc = s.svc := by simp [State.untake]

@[simp] theorem State.unreserve_svc {id : Nat} : (s.unreserve id).svc = s.svc := by
  unfold State.unreserve
  refine foldl_part (g := State.svc) (fun u p => ?_) _ _
  split <;> simp

@[simp] theorem State.removeOrder_svc {id : Nat} : (s.removeOrder id).svc = s.svc := by
  unfold State.removeOrder
  dsimp only
  split <;> simp

@[simp] theorem State.removeUnstarted_svc : s.removeUnstarted.svc = s.svc := by
  unfold State.removeUnstarted
  refine foldl_part (g := State.svc) (fun u o => ?_) _ _
  split <;> simp

@[simp] theorem State.rebindOrders_svc : (s.rebindOrders a).svc = s.svc := by
  unfold State.rebindOrders
  refine foldl_part (g := State.svc) (fun u o => ?_) _ _
  split
  · dsimp only
    split <;> simp
  · rfl

@[simp] theorem State.closeOrder_svc {id : Nat} {ok : Bool} {cause : Option Cause} {door : Bool} {leg : Option Leg} :
    (s.closeOrder id ok cause door leg).svc = s.svc := by
  unfold State.closeOrder
  split
  · rfl
  · dsimp only
    (repeat' split) <;> simp

@[simp] theorem State.armsLook_svc : s.armsLook.svc = s.svc := by simp [State.armsLook]

/-- An arm that leaves service owes no homing (R182), and that is all the service block sees of it. -/
theorem State.enterOutOfService_svc {ask : Bool} : (s.enterOutOfService a ask).svc = (s.setHomingOwed a false).svc := by
  have howed {u v : State} (h : u.svc = v.svc) : (u.setHomingOwed a false).svc = (v.setHomingOwed a false).svc := by
    cases a <;> simp only [State.setHomingOwed, h]
  unfold State.enterOutOfService
  dsimp only
  split <;> simp [howed (State.updArm_svc.trans State.withdrawClaim_svc)]

theorem State.setHomingOwed_svc_of_not (h : s.homingOwed a = false) : (s.setHomingOwed a false).svc = s.svc := by
  have hsvc : s.svc = { s.svc with owedA := s.svc.owedA } := rfl
  cases a
  · exact congrArg (fun b => { s.svc with owedA := b }) (show false = s.svc.owedA from h.symm)
  · exact congrArg (fun b => { s.svc with owedB := b }) (show false = s.svc.owedB from h.symm)

/-- With no homing owed, the end of an order and the abort of an audit leave the service block. -/
theorem State.endOrder_svc {o : Order} {ok : Bool} {cause : Option Cause} (h : s.homingOwed a = false) :
    (s.endOrder a o ok cause).svc = s.svc := by
  unfold State.endOrder
  dsimp only
  generalize hmid : State.updArm _ a _ = u
  have hu : u.svc = s.svc := by rw [← hmid]; simp
  have howed : u.homingOwed a = false := by
    rw [← h]
    cases a <;> simp only [State.homingOwed, hu]
  split
  · rw [State.enterOutOfService_svc, State.setHomingOwed_svc_of_not howed, hu]
  · rw [State.notify_svc, hu]

theorem State.cutOrder_svc {id : Nat} (h : s.homingOwed a = false) : (s.cutOrder a id).svc = s.svc := by
  unfold State.cutOrder
  split
  · rfl
  · split
    · rfl
    · dsimp only
      generalize hmid : State.updOrder _ id _ = u
      have hu : u.svc = s.svc := by rw [← hmid]; rfl
      have howed : u.homingOwed a = false := by
        rw [← h]
        cases a <;> simp only [State.homingOwed, hu]
      split
      · exact hu
      · rw [State.endOrder_svc howed, hu]

@[simp] theorem State.finishAbort_svc : s.finishAbort.svc = s.svc := by
  unfold State.finishAbort
  dsimp only
  split <;> simp [State.endAudit]

theorem State.abortAudit_svc (h : ∀ a, s.homingOwed a = false) : s.abortAudit.svc = s.svc := by
  unfold State.abortAudit
  split
  · rfl
  · dsimp only
    split
    · simp
    · split
      · split <;> simp
      · split
        · rfl
        · split
          · rw [State.cutOrder_svc]
            · rfl
            · exact h _
          · simp [State.dropScan]

@[simp] theorem State.oweRecover_svc {owed : Bool} : (s.oweRecover d owed).svc = s.svc := rfl

@[simp] theorem State.createOwedRecover_svc : (s.createOwedRecover d).svc = s.svc := by
  unfold State.createOwedRecover
  (repeat' split) <;> first | rfl | skip
  rename_i made
  exact State.createOrder_svc made

@[simp] theorem State.clearAwaiting_svc {tag : Half} : (s.clearAwaiting tag).svc = s.svc := by
  unfold State.clearAwaiting
  refine foldl_part (g := State.svc) (fun u p => ?_) _ _
  split <;> simp

@[simp] theorem State.withdrawPrompt_svc {tag : Half} : (s.withdrawPrompt tag).svc = s.svc := by
  unfold State.withdrawPrompt
  split
  · rw [State.clearAwaiting_svc]
    exact State.leaveList_svc
  · rfl

@[simp] theorem State.enter_svc {tag : Half} {st : ReqState} {reason : Option WaitReason} : (s.enter tag st reason).svc = s.svc :=
  State.withdrawPrompt_svc (tag := tag)

@[simp] theorem State.joinReturn_svc : (s.joinReturn d).svc = s.svc := by
  unfold State.joinReturn
  split
  · split
    · simp [State.joinOrder]
    · rfl
  · rfl

@[simp] theorem State.recoverDrives_svc : s.recoverDrives.svc = s.svc := by
  unfold State.recoverDrives State.createOwedRecovers
  refine (foldl_part (g := State.svc) (fun _ _ => State.joinReturn_svc) _ _).trans ?_
  split
  · exact foldl_part (g := State.svc) (fun _ _ => State.createOwedRecover_svc) _ _
  · rfl

/-! ### QUIESCE and RESUME as the Service Controller takes them (R184, R187) -/

/-- The entry to QUIESCING leaves the door mark, and no homing owed (R184). -/
theorem State.enterQuiescing_svc : s.enterQuiescing.svc = ⟨.quiescing, s.svc.doorMark, false, false⟩ := by
  have hentered : (s.enterService .quiescing).clearHomingOwed.removeUnstarted.svc = ⟨.quiescing, s.svc.doorMark, false, false⟩ :=
    State.removeUnstarted_svc
  have howed (a : ArmId) : (s.enterService .quiescing).clearHomingOwed.removeUnstarted.homingOwed a = false := by
    cases a <;> simp only [State.homingOwed, hentered]
  unfold State.enterQuiescing
  rw [State.armsLook_svc, State.abortAudit_svc howed, hentered]

/-- A homing that is owed is no service state and no door mark. -/
theorem State.setHomingOwed_svc {b : Bool} : ((s.setHomingOwed a b).svc.state, (s.setHomingOwed a b).svc.doorMark) =
    (s.svc.state, s.svc.doorMark) := by cases a <;> rfl

theorem State.resumeArm_svc : ((s.resumeArm a).svc.state, (s.resumeArm a).svc.doorMark) = (s.svc.state, s.svc.doorMark) := by
  unfold State.resumeArm
  split <;> simp only [State.enterHoming_svc, State.notify_svc, State.setHomingOwed_svc]

theorem State.afterResuming_svc {opened : Bool} : (s.afterResuming opened).svc = { s.svc with doorMark := false } := by
  unfold State.afterResuming
  rw [State.recoverDrives_svc]
  have hsvc : (if (opened && s.auditAfterDoor) = true then s.askFullAudit else s).retryScan.svc = s.svc := by
    split <;> simp
  simp only [State.setDoorMark, hsvc]

/-- RESUME enters RESUMING from QUIESCING and QUIESCED, with the door mark cleared, and is refused in the other states (R187). -/
theorem State.resumeLibrary_taken (h : s.service = .quiescing ∨ s.service = .quiesced) :
    ∃ u, s.resumeLibrary = some u ∧ u.svc.state = .resuming ∧ u.svc.doorMark = false := by
  let resumed := ((s.enterService .resuming).resumeArm .armA).resumeArm .armB
  have hstate : resumed.svc.state = .resuming := by
    have hB := congrArg Prod.fst (State.resumeArm_svc (s := (s.enterService .resuming).resumeArm .armA) (a := .armB))
    have hA := congrArg Prod.fst (State.resumeArm_svc (s := s.enterService .resuming) (a := .armA))
    exact hB.trans hA
  refine ⟨resumed.afterResuming resumed.svc.doorMark, ?_, ?_, ?_⟩
  · unfold State.resumeLibrary
    obtain h | h := h <;> rw [h]
  · rw [State.afterResuming_svc, hstate]
  · rw [State.afterResuming_svc]

theorem State.resumeLibrary_refused (h : ¬(s.service = .quiescing ∨ s.service = .quiesced)) : s.resumeLibrary = none := by
  unfold State.resumeLibrary
  cases hs : s.service with
  | quiescing | quiesced => exact absurd (by rw [hs]; simp) h
  | starting | homing | active | resuming | interrupted => rfl

/-! ### The service words of the panel (O41) -/

theorem exec_panelQuiesce : exec .panelQuiesce s = .next (s.lineEnded (fun u => u.lineService u.takeQuiesce)).finishStep := rfl

theorem exec_panelResume : exec .panelResume s = .next (s.lineEnded (fun u => u.lineService u.takeResume)).finishStep := rfl

/-- Settles O41, by what `State.takeQuiesce` and `State.resumeLibrary` give in each service state. -/
theorem panelServiceWords : Obligations.PanelServiceWords := by
  intro s hs hroom emptied
  refine ⟨fun hstate => ?_, fun hstate => ?_, fun hstate => ⟨emptied.enterQuiescing, ?_, State.enterQuiescing_svc⟩, fun h1 h2 => ?_,
    fun hstate => ?_⟩
  · have hnone : s.emptied.takeQuiesce = none := by
      unfold State.takeQuiesce State.service
      obtain h | h := hstate <;> rw [show s.emptied.svc.state = _ from h]
    rw [exec_panelQuiesce, State.lineEnded_room hroom, hnone]
    exact congrArg Host.Outcome.next hs.answered
  · have hsame : s.emptied.takeQuiesce = some s.emptied := by
      unfold State.takeQuiesce State.service
      obtain h | h := hstate <;> rw [show s.emptied.svc.state = _ from h]
    rw [exec_panelQuiesce, State.lineEnded_room hroom, hsame]
    exact congrArg Host.Outcome.next hs.answered
  · have htaken : s.emptied.takeQuiesce = some (s.emptied.act State.enterQuiescing) := by
      unfold State.takeQuiesce State.service
      obtain h | h | h := hstate <;> rw [show s.emptied.svc.state = _ from h]
    rw [exec_panelQuiesce, State.lineEnded_room hroom, htaken]
    rfl
  · have hnone : s.emptied.takeResume = none := by
      unfold State.takeResume
      rw [State.resumeLibrary_refused (s := s.emptied) (fun h => h.elim h1 h2)]
      rfl
    rw [exec_panelResume, State.lineEnded_room hroom, hnone]
    exact congrArg Host.Outcome.next hs.answered
  · obtain ⟨u, hresumed, hsvc, hmark⟩ := State.resumeLibrary_taken (s := s.emptied) hstate
    refine ⟨u, ?_, hsvc, hmark⟩
    have htaken : s.emptied.takeResume = some (s.emptied.act (fun _ => u)) := by
      unfold State.takeResume
      rw [hresumed]
      rfl
    rw [exec_panelResume, State.lineEnded_room hroom, htaken]
    rfl

end Sys2Proof.Machine
end

section
/-! PROOFS. RELEASE RECORDS (O29), the panel line sent (O45), the frame sent on an arm port (O48), raw inputs (O53) and the issue of a prompt
(O60). -/

namespace Sys2Proof.Machine

variable {s t u : State} {a : ArmId} {d : Fin 16} {n : Nat}

/-! ### What the conditions of R196 look at -/

/-- The conditions of R196 look at the states of the arms and drives, the records and their threshold, and the door. -/
theorem State.conditionFlags_congr (harm : ∀ a, (t.arm a).state = (s.arm a).state) (hdrive : ∀ d, (t.drive d).state = (s.drive d).state)
    (hsum : t.recordSum = s.recordSum) (hsettings : t.port.settings = s.port.settings) (hdoor : t.mon.doorClosed = s.mon.doorClosed) :
    t.conditionFlags = s.conditionFlags := by
  have hhigh : t.recordsHigh = s.recordsHigh := by
    unfold State.recordsHigh State.recordsHighThreshold State.setting
    rw [hsum, hsettings]
  have harms : t.armAttention = s.armAttention := by simp only [State.armAttention, harm]
  have hdrives : t.driveAttention = s.driveAttention := by simp only [State.driveAttention, hdrive]
  unfold State.conditionFlags
  rw [harms, hdrives, hhigh, hdoor]

/-- A change of the door and stations, the drives and the arms that the conditions of R196 do not see leaves a settled part settled. -/
theorem State.Settled.of_rest (h : s.Settled) (hport : t.port = s.port) (hpr : t.pr = s.pr) (hcond : t.conditionFlags = s.conditionFlags) :
    t.Settled := by
  have ⟨hflags, hnotice, hline, hpanel⟩ := h
  refine ⟨State.flagsSettled_of hport hcond hflags, State.noticeSettled_of hport hnotice, ?_, ?_⟩
  · unfold State.LineSettled State.mayTake at hline ⊢
    rw [hport]
    exact hline
  · unfold State.PanelSettled
    rw [hpr]
    exact hpanel

/-! ### A command that acts on the other blocks and is answered in one part -/

theorem responseOf_done {code : Byte} {data : List Byte} (h : data.length ≤ 234) : responseOf code (.done data) false = [doneOf code data] := by
  simp only [responseOf, parts_small h]
  rfl

/-- A taken command whose act leaves `u`, answered DONE with data that fits one part. -/
theorem State.Free.respond_act (h : s.Free) {f : SysFrame} {code : Byte} {data : List Byte}
    (e : s.takeFrame f = respond code (s.afterAct u, .done data)) (hdata : data.length ≤ 234) :
    (s.deliver f).finishStep = ((s.afterAct u).refreshConditions.sends [doneOf code data]).panelPump := by
  have htake : s.takeFrame f = (s.afterAct u, [doneOf code data]) := by rw [e, ← responseOf_done hdata]; rfl
  rw [h.deliver (congrArg Prod.snd htake), htake]

/-- The answer is being sent with the masked summary as it stands after the command. -/
theorem State.sends_sending {m : OutMsg} : (s.sends [m]).panelPump.port.sending = some ⟨m, (s.sends [m]).panelPump.summary⟩ := by
  unfold State.summary
  rw [State.panelPump_port]
  rfl

/-! ### RELEASE RECORDS (O29) -/

theorem State.releaseRecords_badField {n : Half} (h : ¬(1 ≤ n.toNat ∧ n.toNat ≤ 256)) :
    s.releaseRecords n = (s, .refused .badField) := if_neg h

theorem State.releaseRecords_none {n : Half} (h : 1 ≤ n.toNat ∧ n.toNat ≤ 256) (hnone : s.acc.records = []) :
    s.releaseRecords n = (s, .done (half (min n.toNat s.acc.records.length) ++ s.recordFigures)) := by
  have hdrop : s.dropRecords n.toNat = s := by
    unfold State.dropRecords
    rw [hnone, List.drop_nil, ← hnone]
  unfold State.releaseRecords
  rw [if_pos h, hdrop]
  dsimp only
  rw [if_pos (by rw [hnone]; exact Nat.min_zero _)]

theorem State.releaseRecords_some {n : Half} (h : 1 ≤ n.toNat ∧ n.toNat ≤ 256) (hsome : s.acc.records ≠ []) :
    s.releaseRecords n = (s.afterAct ((s.dropRecords n.toNat).notify .walk),
      .done (half (min n.toNat s.acc.records.length) ++ (s.dropRecords n.toNat).recordFigures)) := by
  have hlength := List.length_pos_iff.mpr hsome
  have hremoved : ¬min n.toNat s.acc.records.length = 0 := by omega
  unfold State.releaseRecords
  rw [if_pos h]
  dsimp only
  rw [if_neg hremoved]
  rfl

theorem State.panelPump_acc : s.panelPump.acc = s.acc := by
  conv_rhs => rw [← State.panelPump_rest (s := s)]

/-- What the other blocks do appends records only (R167). -/
theorem State.afterAct_records : u.acc.records <+: (s.afterAct u).acc.records := by
  have hkept : Keeps noLaw u (State.drain Config.fuel ((State.follow s u).notify .retry)) := (Keeps.refl u).follow.notify.drain
  exact hkept.records

/-- Settles O29: the records are dropped, and what the other blocks do then appends to those left (`Keeps.act`). -/
theorem releaseRecordsCommand : Obligations.ReleaseRecordsCommand := by
  intro s n hfree
  refine ⟨fun hbad => ?badField, fun hlow hhigh => ⟨fun hnone => ?none, fun hsome => ?some⟩⟩
  case badField =>
    have htake := congrArg (respond 16) (State.releaseRecords_badField (s := s) (n := n) (by omega))
    rw [exec_frame rfl, hfree.respond_refused (f := .releaseRecords n) htake]
    rfl
  case none =>
    have htake := congrArg (respond 16) (State.releaseRecords_none (n := n) ⟨hlow, hhigh⟩ hnone)
    rw [exec_frame rfl, hfree.deliver_unchanged (f := .releaseRecords n) htake]
    simp only [hnone, List.drop_nil, State.recordFigures, List.append_assoc]
    rfl
  case some =>
    have htake := congrArg (respond 16) (State.releaseRecords_some (n := n) ⟨hlow, hhigh⟩ hsome)
    refine ⟨_, congrArg Host.Outcome.next (hfree.respond_act (f := .releaseRecords n) htake ?_), ?_, ?_⟩
    · simp [State.recordFigures, half, bytesOfHalf]
    · rw [State.sends_sending]
      simp only [State.recordFigures, List.append_assoc, State.dropRecords]
    · have hrecords := State.afterAct_records (s := s) (u := (s.dropRecords n.toNat).notify .walk)
      rw [State.notify_acc] at hrecords
      rw [State.panelPump_acc]
      exact hrecords

/-! ### The panel line sent (O45) -/

theorem exec_panelLineSent : exec .panelLineSent s = .next ({ s with pr := { s.pr with sending := none } } : State).finishStep := rfl

/-- A change of the prompts of one number leaves those of other numbers. -/
theorem map_of_other {l : List Prompt} {f : Prompt → Prompt} (h : ∀ q ∈ l, q.number ≠ n) :
    l.map (fun q => if q.number = n then f q else q) = l :=
  (List.map_congr_left (fun q hq => if_neg (h q hq))).trans (List.map_id' l)

/-- Settles O45, by the order in which `State.panelPump` takes what waits. -/
theorem panelLineSent : Obligations.PanelLineSent := by
  intro s hs hbusy sends
  let freed : State := { s with pr := { s.pr with sending := none } }
  have hends {u : State} (h : freed.panelPump = u) : exec .panelLineSent s = .next u := by
    rw [exec_panelLineSent, ← h]
    exact congrArg Host.Outcome.next (hs.finishStep_panel (t := freed) rfl rfl)
  refine ⟨fun hall => hends ?_, fun hall a rest hanswers => hends ?_, fun hall hanswers => ⟨fun n rest hwithdrawals => hends ?_,
    fun hwithdrawals => ⟨fun before p after hlist hbefore hafter howed => hends ?_, fun hnone => hends ?_⟩⟩⟩
  · simp only [State.panelPump, freed, hall, if_true, State.sendLine, lineEnd]
  · simp only [State.panelPump, freed, hall, hanswers, State.sendLine, lineEnd]
    rfl
  · simp only [State.panelPump, freed, hall, hanswers, hwithdrawals, State.sendLine, lineEnd]
    rfl
  · have hfind : s.pr.list.find? (·.lineOwed) = some p := by
      rw [hlist, List.find?_append, List.find?_cons_of_pos howed, List.find?_eq_none.mpr (fun q hq => by simp [(hbefore q hq).1])]
      rfl
    have hmap : s.pr.list.map (fun q : Prompt => if q.number = p.number then { q with lineOwed := false } else q) =
        before ++ { p with lineOwed := false } :: after := by
      rw [hlist, List.map_append, List.map_cons, if_pos rfl, map_of_other (fun q hq => (hbefore q hq).2), map_of_other hafter]
    simp only [State.panelPump, freed, hall, hanswers, hwithdrawals, hfind, State.updPrompt, hmap, State.sendLine, lineEnd]
    rfl
  · have hfind : s.pr.list.find? (·.lineOwed) = none := List.find?_eq_none.mpr (fun q hq => by simp [hnone q hq])
    simp only [State.panelPump, freed, hall, hanswers, hwithdrawals, hfind]
    rfl

/-! ### The frame sent on an arm port (O48) -/

theorem exec_armFrameSent : exec (.armFrameSent a) s = .next (s.armLineFree a).finishStep := rfl

/-- What changes of the arms' ports and of what is outstanding leaves a settled part settled. -/
theorem State.Settled.setArmPort (h : s.Settled) {x : ArmPort} : (s.setArmPort a x).Settled := by
  refine h.of_rest (by simp) (by simp) (State.conditionFlags_congr (fun b => ?_) (fun d => ?_) ?_ (by simp) (by simp)) <;> cases a <;> rfl

theorem State.Settled.setOutstanding (h : s.Settled) {o : Option Outstanding} :
    (s.updArm a (fun x => { x with outstanding := o })).Settled := by
  refine h.of_rest (by simp) (by simp) (State.conditionFlags_congr (fun b => ?_) (fun d => ?_) ?_ (by simp) (by simp)) <;> cases a
  case refine_1.armA | refine_1.armB => cases b <;> rfl
  all_goals rfl

/-- The next frame takes the line; what it is told of the settings and the arm is as at that moment. -/
theorem State.armLineFree_next {f : ArmFrame} {rest : List ArmFrame} (hbusy : (s.armPort a).sending.isSome = true)
    (h : (s.armPort a).waiting = f :: rest) :
    s.armLineFree a = (s.setArmPort a ⟨(s.armPort a).rx, none, rest⟩).putOnLine a f := by
  obtain ⟨g, hg⟩ := Option.isSome_iff_exists.mp hbusy
  unfold State.armLineFree
  simp only [hg, h]

theorem State.setArmPort_setArmPort {x y : ArmPort} : (s.setArmPort a x).setArmPort a y = s.setArmPort a y := by cases a <;> rfl

/-- A frame on a line whose port has been told of the frames waiting behind it. -/
theorem State.putOnLine_taken {f : ArmFrame} {rest : List ArmFrame} {rx : Rx} :
    (s.setArmPort a ⟨rx, none, rest⟩).putOnLine a f = match f with
      | .stop => s.setArmPort a ⟨rx, some f, rest⟩
      | .home => (s.setArmPort a ⟨rx, some f, rest⟩).updArm a (fun x => { x with outstanding := some (.home s.homeLimit) })
      | .status => (s.setArmPort a ⟨rx, some f, rest⟩).updArm a (fun x => { x with outstanding := some (.status s.statusLimit) })
      | .leg l => (s.setArmPort a ⟨rx, some f, rest⟩).updArm a (fun x => { x with
          outstanding := some (.leg l (s.legVolume a l) (s.window a l).1 (s.window a l).2) }) := by
  cases f with
  | leg l => cases a <;> cases l <;> rfl
  | home | status | stop => cases a <;> rfl

/-- Settles O48, by the frame that waits first. -/
theorem armFrameSent : Obligations.ArmFrameSent := by
  intro s a hs
  cases hbusy : (s.armPort a).sending with
  | none =>
    have hfree : s.armLineFree a = s := by
      unfold State.armLineFree
      simp only [hbusy]
    exact .inl ⟨rfl, by rw [exec_armFrameSent, hfree, State.finishStep_of_settled hs]⟩
  | some g =>
    refine .inr ⟨rfl, fun hnone => ?idle, fun f rest hwaiting => ?next⟩
    case idle =>
      have hfree : s.armLineFree a = s.setArmPort a ⟨(s.armPort a).rx, none, []⟩ := by
        unfold State.armLineFree
        simp only [hbusy, hnone]
      rw [exec_armFrameSent, hfree, State.finishStep_of_settled hs.setArmPort]
    case next =>
      intro sent out leg
      have hexec : exec (.armFrameSent a) s = .next ((s.setArmPort a ⟨(s.armPort a).rx, none, rest⟩).putOnLine a f).finishStep := by
        rw [exec_armFrameSent, State.armLineFree_next (by rw [hbusy]; rfl) hwaiting]
      have hout {o : Outstanding} (h : (s.setArmPort a ⟨(s.armPort a).rx, none, rest⟩).putOnLine a f =
          sent.updArm a (fun x => { x with outstanding := some o })) : out o := by
        show exec (.armFrameSent a) s = .next (sent.updArm a (fun x => { x with outstanding := some o }))
        rw [hexec, h, State.finishStep_of_settled hs.setArmPort.setOutstanding]
      have hleg {l : Leg} {lo hi : Nat} (hw : s.window a l = (lo, hi)) : leg l lo hi := by
        intro hf
        subst hf
        refine hout (State.putOnLine_taken.trans ?_)
        dsimp only
        rw [hw]
      refine ⟨?stop, ?home, ?status, fun c => hleg ?_, fun p => hleg rfl, fun p => hleg rfl,
        fun slot => hleg rfl⟩
      case stop =>
        rintro rfl
        rw [hexec, State.putOnLine_taken]
        exact congrArg Host.Outcome.next (State.finishStep_of_settled hs.setArmPort)
      case home => rintro rfl; exact hout State.putOnLine_taken
      case status => rintro rfl; exact hout State.putOnLine_taken
      · have hdistance : distance (s.arm a).column c = (c - (s.arm a).column) + ((s.arm a).column - c) := Nat.add_comm _ _
        rw [← hdistance]
        rfl

/-! ### Raw inputs (O53) -/

theorem exec_driveRawChange {line : SenseLine} {level : Bool} :
    exec (.driveRawChange d line level) s = .next (s.driveRaw d line level).finishStep := rfl

theorem exec_inputRawChange {i : RailInput} {level : Bool} : exec (.inputRawChange i level) s = .next (s.inputRaw i level).finishStep := rfl

/-- A drive that keeps its state, and a position: the conditions of R196 do not see the rest of them. -/
theorem State.Settled.setDrive (h : s.Settled) {x : Drive} (hstate : x.state = (s.drive d).state) : (s.setDrive d x).Settled := by
  refine h.of_rest rfl rfl (State.conditionFlags_congr (fun _ => rfl) (fun e => ?_) rfl rfl rfl)
  by_cases he : e = d
  · rw [he, State.setDrive_drive_self, hstate]
  · rw [State.setDrive_drive_ne he]

/-- Settles O53, by the level the raw input takes and the debounced level it then has. -/
theorem rawInputChanges : Obligations.RawInputChanges := by
  refine ⟨fun s d line level hs => ?drive, fun s level hs => ⟨fun hsame => ?_, fun hchange => ?_⟩,
    fun s p level hs => ⟨fun hsame => ?_, fun hchange => ?_⟩⟩
  case drive =>
    intro x becomes
    have hbecomes {i : Intervals} (h : s.driveRaw d line level = s.setDrive d { x with raw := x.raw.put line level, intervals := i }) :
        becomes i := by
      show exec (.driveRawChange d line level) s = .next (s.setDrive d { x with raw := x.raw.put line level, intervals := i })
      rw [exec_driveRawChange, h]
      exact congrArg Host.Outcome.next (State.finishStep_of_settled (hs.setDrive rfl))
    refine ⟨fun hsame => hbecomes ?_, fun hout => hbecomes ?_, fun hchange hin hback => hbecomes ?_, fun hchange hin haway => hbecomes ?_⟩
    · have hno : (!x.installed || x.raw.get line == level) = true := by simp [hsame]
      exact congrArg (s.setDrive d) (if_pos hno)
    · have hno : (!x.installed || x.raw.get line == level) = true := by simp [hout]
      exact congrArg (s.setDrive d) (if_pos hno)
    · have hyes : ¬(!x.installed || x.raw.get line == level) = true := by simp [hin, hchange]
      have hlevel : (level == x.sense.get line) = true := by simp [hback]
      exact congrArg (s.setDrive d) ((if_neg hyes).trans (if_pos hlevel))
    · have hyes : ¬(!x.installed || x.raw.get line == level) = true := by simp [hin, hchange]
      have hlevel : ¬(level == x.sense.get line) = true := by simpa using Ne.symm haway
      exact congrArg (s.setDrive d) ((if_neg hyes).trans (if_neg hlevel))
  · have hraw : s.inputRaw .door level = s := if_pos hsame
    rw [exec_inputRawChange, hraw, State.finishStep_of_settled hs]
  · have hraw : s.inputRaw .door level = { s with mon := { s.mon with
        doorRaw := level, doorInterval := if level = s.mon.doorClosed then none else some (s.mon.doorInterval.getD s.stationDebounce) } } := by
      refine (if_neg hchange).trans ?_
      show s.setInput .door level s.mon.doorClosed (if level = s.mon.doorClosed then none else _) = _
      cases s.mon.doorInterval <;> rfl
    rw [exec_inputRawChange, hraw]
    exact congrArg Host.Outcome.next (State.finishStep_of_settled (hs.of_rest rfl rfl rfl))
  · have hraw : s.inputRaw (.presence p) level = s := if_pos hsame
    rw [exec_inputRawChange, hraw, State.finishStep_of_settled hs]
  · have hraw : s.inputRaw (.presence p) level = s.setStation p { s.station p with
        raw := level, interval := if level = (s.station p).presence then none
          else some ((s.station p).interval.getD s.stationDebounce) } := by
      refine (if_neg hchange).trans ?_
      show s.setInput (.presence p) level (s.station p).presence (if level = (s.station p).presence then none else _) = _
      cases (s.station p).interval <;> rfl
    rw [exec_inputRawChange, hraw]
    exact congrArg Host.Outcome.next (State.finishStep_of_settled (hs.of_rest rfl rfl rfl))

end Sys2Proof.Machine
end

section
/-! PROOFS. The readings at a rack slot (O59) and the issue of a prompt (O60). -/

namespace Sys2Proof.Machine

variable {s t : State}

/-! ### The number of a new prompt (O60) -/

/-- The search for a number: it stands some places after its start, all before it taken; short of its fuel it is free. -/
theorem State.freeNumber_spec {fuel n : Nat} (hlow : 1 ≤ n) (hhigh : n ≤ 99) : ∃ k ≤ fuel, s.freeNumber fuel n = (n - 1 + k) % 99 + 1 ∧
    (∀ j < k, ∃ p ∈ s.pr.list, p.number = (n - 1 + j) % 99 + 1) ∧ (k < fuel → ∀ p ∈ s.pr.list, p.number ≠ s.freeNumber fuel n) := by
  induction fuel generalizing n with
  | zero => exact ⟨0, Nat.le_refl 0, by simp only [State.freeNumber]; omega, by omega, by omega⟩
  | succ fuel ih =>
    by_cases htaken : s.pr.list.any (fun p => p.number == n) = true
    · have hnext : 1 ≤ nextNumber n ∧ nextNumber n ≤ 99 := by unfold nextNumber; split <;> omega
      have hplace (j : Nat) : (nextNumber n - 1 + j) % 99 = (n - 1 + (j + 1)) % 99 := by unfold nextNumber; split <;> omega
      have hstep : s.freeNumber (fuel + 1) n = s.freeNumber fuel (nextNumber n) := if_pos htaken
      obtain ⟨k, hk, hresult, hbefore, hfree⟩ := ih hnext.1 hnext.2
      refine ⟨k + 1, by omega, by rw [hstep, hresult, hplace], fun j hj => ?_, fun hlt => by rw [hstep]; exact hfree (by omega)⟩
      cases j with
      | zero =>
        obtain ⟨p, hp, hnumber⟩ := List.any_eq_true.mp htaken
        exact ⟨p, hp, by rw [beq_iff_eq.mp hnumber]; omega⟩
      | succ j =>
        obtain ⟨p, hp, hnumber⟩ := hbefore j (by omega)
        exact ⟨p, hp, by rw [hnumber, hplace]⟩
    · have hstep : s.freeNumber (fuel + 1) n = n := if_neg htaken
      refine ⟨0, Nat.zero_le _, by rw [hstep]; omega, by omega, fun _ p hp hnumber => htaken ?_⟩
      exact List.any_eq_true.mpr ⟨p, hp, by rw [hnumber, hstep]; exact beq_self_eq_true n⟩

/-- Sixteen numbers in a row are not all taken by fewer prompts. -/
theorem numbers_not_all_taken {n : Nat} (hlength : s.pr.list.length < 16)
    (h : ∀ j < 16, ∃ p ∈ s.pr.list, p.number = (n - 1 + j) % 99 + 1) : False := by
  have hsubset : (Finset.range 16).image (fun j => (n - 1 + j) % 99 + 1) ⊆ (s.pr.list.map (·.number)).toFinset := by
    intro m hm
    obtain ⟨j, hj, rfl⟩ := Finset.mem_image.mp hm
    obtain ⟨p, hp, hnumber⟩ := h j (Finset.mem_range.mp hj)
    exact List.mem_toFinset.mpr (List.mem_map.mpr ⟨p, hp, hnumber⟩)
  have hinjective : Set.InjOn (fun j => (n - 1 + j) % 99 + 1) (Finset.range 16 : Set Nat) := by
    intro i hi j hj hij
    simp only [Finset.coe_range, Set.mem_Iio] at hi hj
    simp only [Nat.add_right_cancel_iff] at hij
    omega
  have hcard := Finset.card_le_card hsubset
  rw [Finset.card_image_of_injOn hinjective, Finset.card_range] at hcard
  have hlist := List.toFinset_card_le (s.pr.list.map (·.number))
  rw [List.length_map] at hlist
  omega

/-- A raised event's flag is up. -/
theorem State.raise_flag {e : Event} : (s.raise e).port.flags.getLsbD e.position = true := by
  have hflags : (s.raise e).port.flags = s.refreshConditions.port.flags ||| positionBit e.position := rfl
  rw [hflags, BitVec.getLsbD_or]
  cases e <;> simp [Event.position, positionBit]

theorem State.equipmentStands_iff {e : Equipment} : s.equipmentStands e = true ↔ (∃ p ∈ s.pr.list, p.isFor e = true) ∨ e ∈ s.pr.owed := by
  simp [State.equipmentStands]

theorem State.equipmentStands_not {e : Equipment} (h : ∀ p ∈ s.pr.list, p.isFor e = false) (howed : e ∉ s.pr.owed) :
    ¬s.equipmentStands e = true := by
  rw [State.equipmentStands_iff]
  rintro (⟨p, hp, hfor⟩ | hmem)
  · rw [h p hp] at hfor
    cases hfor
  · exact howed hmem

/-- Settles O60: the number by `State.freeNumber_spec`, with a free one among sixteen (`numbers_not_all_taken`). -/
theorem promptIssue : Obligations.PromptIssue := by
  refine ⟨fun s kind names hlength hlow hhigh _ => ?issue, fun s kind names => ?ask, fun s e => ⟨fun hstands => ?stands,
    fun hnone howed hfull => ?owed, fun hnone howed hroom => ?issued⟩⟩
  case issue =>
    obtain ⟨k, hk, hresult, hbefore, hfree⟩ := State.freeNumber_spec (s := s) (fuel := 16) hlow hhigh
    have hlt : k < 16 := by
      refine lt_of_le_of_ne hk ?_
      rintro rfl
      exact numbers_not_all_taken hlength hbefore
    have hn : (s.issue kind names).2 = s.freeNumber 16 s.pr.counter := rfl
    refine ⟨by rw [hn, hresult]; omega, by rw [hn, hresult]; omega, hfree hlt, ?_, ⟨k, hresult, hbefore⟩, ?_, ?_, ?_, ?_, ?_, ?_⟩
    · have hcounter : (s.issue kind names).1.pr.counter = nextNumber (s.issue kind names).2 := by simp [State.issue]
      rw [hcounter]
      unfold nextNumber
      have hle : (s.issue kind names).2 ≤ 99 := by rw [hn, hresult]; omega
      split <;> split <;> omega
    · simp [State.issue, State.clock, Config.maxPrompts]
    · simp only [State.issue, State.attend_port]
      exact State.raise_flag (e := .promptRaised)
    all_goals simp [State.issue, State.attend_eq]
  case ask =>
    unfold State.askRequestPrompt Config.maxRequestPrompts Config.maxPrompts State.requestPrompts
    by_cases hfull : 14 ≤ (s.pr.list.filter (fun p => p.kind.requestRelated)).length ∨ 16 ≤ s.pr.list.length
    · rw [if_pos hfull]
      exact iff_of_true rfl hfull
    · rw [if_neg hfull]
      exact iff_of_false (fun hnone => by cases hnone) hfull
  case stands => exact if_pos (State.equipmentStands_iff.mpr hstands)
  case owed =>
    unfold State.askEquipment Config.maxPrompts
    rw [if_neg (State.equipmentStands_not hnone howed), if_neg (Nat.not_lt.mpr hfull)]
  case issued =>
    unfold State.askEquipment Config.maxPrompts
    rw [if_neg (State.equipmentStands_not hnone howed), if_pos hroom]

/-! ### The readings at a rack slot (O59) -/

theorem State.mem_notify {n : Notice} : n ∈ (s.notify n).notices := by
  unfold State.notify
  split
  · rename_i h
    exact List.contains_iff_mem.mp h
  · exact List.mem_append_right _ (List.mem_singleton.mpr rfl)

@[simp] theorem State.relocate_port {e : Nat} {l : Loc} : (s.relocate e l).port = s.port := by
  obtain ⟨dir, g, h, drv, stations, ht⟩ := (State.relocate_named (s := s) (e := e) (l := l)).rest
  rw [ht]

theorem State.relocate_canonical {e : Nat} {l : Loc} (h : Canonical s.dir.findings) : Canonical (s.relocate e l).dir.findings := by
  unfold State.relocate
  cases hv : s.vol? e with
  | none => exact h
  | some v =>
    have hleft : Canonical (if v.loc = l then s else (s.leaveMisplaced e v l).unhold e v.loc).dir.findings := by
      split
      · exact h
      · rw [State.unhold_dir]
        exact State.leaveMisplaced_canonical h
    dsimp only [State.setVol]
    split
    · exact canonical_eraseAt _ _ hleft
    · exact hleft

/-- A volume that is not MISSING becomes so, and its loss is told. -/
theorem State.makeMissing_eq {e : Nat} {v : Volume} (hv : s.vol? e = some v) (hloc : v.loc ≠ .missing) :
    s.makeMissing e = (s.relocate e .missing).raise .volumeLost := by
  unfold State.makeMissing
  rw [hv]
  exact if_pos (bne_iff_ne.mpr hloc)

theorem State.makeMissing_vol?_self {e : Nat} {v : Volume} (hv : s.vol? e = some v) (hloc : v.loc ≠ .missing) :
    (s.makeMissing e).vol? e = some { v with loc := .missing } := by
  rw [State.makeMissing_eq hv hloc, State.raise_vol?, State.relocate_vol?_self hv]

theorem State.makeMissing_canonical {e : Nat} (h : Canonical s.dir.findings) : Canonical (s.makeMissing e).dir.findings := by
  unfold State.makeMissing
  split
  · exact State.relocate_canonical h
  · exact h

@[simp] theorem State.makeMissing_finding? {e slot : Nat} (h : Canonical s.dir.findings) : (s.makeMissing e).finding? slot = s.finding? slot := by
  unfold State.makeMissing
  cases hv : s.vol? e with
  | none => rfl
  | some v =>
    split
    · rw [State.raise_finding?, State.relocate_finding? hv h]
      simp
    · rfl

@[simp] theorem State.foundAt_port {slot : Nat} {r : Reading} : (s.foundAt slot r).1.port = s.port := by
  unfold State.foundAt State.reachHome
  split
  · rfl
  · rfl
  · split
    · rfl
    · split
      · rfl
      · simp only [apply_ite Prod.fst, apply_ite State.port, State.notify_port, State.relocate_port, State.setFinding_port, ite_self]

/-- A reading of a known volume at a slot, by where the volume is recorded. -/
theorem State.foundAt_away {slot e : Nat} {serial : Text} {v : Volume} (he : s.entryOf serial = some e) (hv : s.vol? e = some v)
    (haway : v.loc = .missing ∨ v.loc = .outside ∨ ∃ other, other ≠ slot ∧ v.loc = .misplaced other) :
    s.foundAt slot (.serial serial) = if v.home = some slot then (s.reachHome e, [.recovered])
      else ((s.relocate e (.misplaced slot)).setFinding slot (.serial serial), [.foundMisplaced]) := by
  unfold State.foundAt
  simp only [he, hv]
  by_cases hhome : v.home = some slot
  · rcases haway with hloc | hloc | ⟨other, hother, hloc⟩ <;> simp [*]
  · rcases haway with hloc | hloc | ⟨other, hother, hloc⟩ <;> simp [*]

theorem State.foundAt_held {slot e : Nat} {serial : Text} {v : Volume} (he : s.entryOf serial = some e) (hv : s.vol? e = some v)
    (hheld : v.loc = .home ∨ (∃ a, v.loc = .inArm a) ∨ (∃ d, v.loc = .inDrive d) ∨ ∃ p, v.loc = .atStation p) :
    s.foundAt slot (.serial serial) = (s.setFinding slot (.serial serial), [.foundForeign]) := by
  unfold State.foundAt
  simp only [he, hv]
  rcases hheld with hloc | ⟨a, hloc⟩ | ⟨d, hloc⟩ | ⟨p, hloc⟩ <;> simp [hloc]

/-- What a volume that comes home from elsewhere leaves. -/
theorem State.reachHome_found {slot e : Nat} {v : Volume} (hv : s.vol? e = some v) (hcanonical : Canonical s.dir.findings) :
    (s.reachHome e).vol? e = some { v with loc := .home } ∧ Notice.walk ∈ (s.reachHome e).notices ∧
      ∀ other, v.loc = .misplaced other → other ≠ slot → s.findingNames other e = true → (s.reachHome e).finding? other = none := by
  refine ⟨?_, State.mem_notify, fun other hloc _ hnames => ?_⟩
  · rw [State.reachHome, State.notify_vol?, State.relocate_vol?_self hv]
  · rw [State.reachHome, State.notify_finding?, State.relocate_finding? hv hcanonical]
    exact if_pos (Or.inr ⟨hloc, by simp, by simp, by simp, hnames⟩)

/-- What a volume found at a slot that is not its home leaves. -/
theorem State.misplaced_found {slot e : Nat} {v : Volume} {f : Finding} (hv : s.vol? e = some v) (hcanonical : Canonical s.dir.findings)
    {other : Nat} (hloc : v.loc = .misplaced other) (hother : other ≠ slot) (hnames : s.findingNames other e = true) :
    ((s.relocate e (.misplaced slot)).setFinding slot f).finding? other = none := by
  rw [State.setFinding_finding?_ne hother, State.relocate_finding? hv hcanonical]
  refine if_pos (Or.inr ⟨hloc, by simp, by simp, fun h => hother ?_, hnames⟩)
  exact (Loc.misplaced.inj h).symm

/-- `State.foundAt` does what is said of a reading found at a slot. -/
theorem State.foundAt_found {slot : Nat} {r : Reading} (hcanonical : Canonical s.dir.findings) :
    found s (s.foundAt slot r).1 slot r (s.foundAt slot r).2 := by
  refine ⟨?_, ?_, ?_, ?_⟩
  · rintro rfl
    exact ⟨rfl, rfl⟩
  · rintro rfl
    exact ⟨rfl, rfl⟩
  · rintro serial rfl he
    simp [State.foundAt, he]
  · rintro serial e v rfl he hv
    refine ⟨fun haway => ?_, fun hheld => ?_⟩
    · rw [State.foundAt_away he hv haway]
      by_cases hhome : v.home = some slot
      · rw [if_pos hhome]
        obtain ⟨hvol, hnotice, hfinding⟩ := State.reachHome_found (slot := slot) hv hcanonical
        exact ⟨fun _ => ⟨hvol, rfl, hnotice⟩, fun h => absurd hhome h, hfinding⟩
      · rw [if_neg hhome]
        refine ⟨fun h => absurd h hhome, fun _ => ⟨?_, State.setFinding_finding?_self, rfl⟩, fun other => State.misplaced_found hv hcanonical⟩
        rw [State.setFinding_vol?, State.relocate_vol?_self hv]
    · rw [State.foundAt_held he hv hheld]
      exact ⟨rfl, rfl⟩

/-! #### The states of a slot -/

theorem State.slotState_foreign {slot : Nat} {f : Finding} (h : s.slotState slot = .foreign f) : s.finding? slot = some f := by
  unfold State.slotState at h
  split at h
  · rename_i hfinding
    rw [hfinding, SlotState.foreign.inj h]
  · split at h
    · cases h
    · split at h <;> cases h

theorem State.slotState_occupied {slot e : Nat} {v : Volume} (h : s.slotState slot = .occupied e) (hv : s.vol? e = some v) :
    v.loc = .home := by
  unfold State.slotState at h
  split at h
  · cases h
  · split at h
    · cases h
    · split at h
      · rename_i hhome
        cases h
        rw [hv] at hhome
        exact beq_iff_eq.mp hhome
      · cases h

theorem State.reads_iff {r : Reading} {e : Nat} {v : Volume} (hv : s.vol? e = some v) : s.reads r e = true ↔ r = .serial v.serial := by
  cases r with
  | serial serial =>
    simp only [State.reads, State.serialOf, hv, Option.map_some, beq_iff_eq, Option.some.injEq, Reading.serial.injEq]
    exact eq_comm
  | noCase => exact iff_of_false Bool.false_ne_true (fun h => by cases h)
  | unreadable => exact iff_of_false Bool.false_ne_true (fun h => by cases h)

/-- The reading at an OCCUPIED slot that does not match. -/
theorem State.slotReading_lost {slot e : Nat} {v : Volume} {r : Reading} (h : s.slotState slot = .occupied e) (hv : s.vol? e = some v)
    (hr : r ≠ .serial v.serial) : s.slotReading slot r =
      if r = .noCase then (s.makeMissing e, [.foundMissing])
      else (((s.makeMissing e).foundAt slot r).1, .foundMissing :: ((s.makeMissing e).foundAt slot r).2) := by
  unfold State.slotReading
  rw [h]
  exact if_neg (fun hreads => hr ((State.reads_iff hv).mp hreads))

/-- The reading at a FOREIGN slot that does not match its finding. -/
theorem State.slotReading_gone {slot : Nat} {f : Finding} {r : Reading} (h : s.slotState slot = .foreign f) (hr : f.matches r = false) :
    s.slotReading slot r = (((s.findingGone slot f).1.foundAt slot r).1,
      (s.findingGone slot f).2 ++ ((s.findingGone slot f).1.foundAt slot r).2) := by
  unfold State.slotReading
  rw [h]
  exact if_neg (by rw [hr]; exact Bool.false_ne_true)

/-- A finding that is gone: it is cleared, and the volume it placed there is MISSING. -/
theorem State.findingGone_cases {slot : Nat} {f : Finding} :
    (s.findingGone slot f = (s.clearFinding slot, []) ∧
      ∀ serial e v, f = .serial serial → s.entryOf serial = some e → s.vol? e = some v → v.loc ≠ .misplaced slot) ∨
    ∃ serial e v, f = .serial serial ∧ s.entryOf serial = some e ∧ s.vol? e = some v ∧ v.loc = .misplaced slot ∧
      s.findingGone slot f = ((s.clearFinding slot).makeMissing e, [.foundMissing]) := by
  cases f with
  | unreadable => exact Or.inl ⟨rfl, fun serial e v h => by cases h⟩
  | serial serial =>
    by_cases hthere : ∃ e v, s.entryOf serial = some e ∧ s.vol? e = some v ∧ v.loc = .misplaced slot
    · obtain ⟨e, v, he, hv, hloc⟩ := hthere
      refine Or.inr ⟨serial, e, v, rfl, he, hv, hloc, ?_⟩
      simp [State.findingGone, he, hv, hloc]
    · refine Or.inl ⟨?_, fun serial' e v hf he hv hloc => hthere ⟨e, v, ?_, hv, hloc⟩⟩
      · cases he : s.entryOf serial with
        | none => simp [State.findingGone, he]
        | some e =>
          cases hv : s.vol? e with
          | none => simp [State.findingGone, he, hv]
          | some v =>
            have hloc : v.loc ≠ .misplaced slot := fun hloc => hthere ⟨e, v, he, hv, hloc⟩
            simp [State.findingGone, he, hv, hloc]
      · cases hf
        exact he

/-- A finding that is gone stands no more. -/
theorem State.findingGone_finding? {slot : Nat} {f : Finding} (h : Canonical s.dir.findings) :
    (s.findingGone slot f).1.finding? slot = none ∧ Canonical (s.findingGone slot f).1.dir.findings := by
  have hclear : Canonical (s.clearFinding slot).dir.findings := canonical_eraseAt _ _ h
  rcases State.findingGone_cases (s := s) (slot := slot) (f := f) with ⟨hgone, _⟩ | ⟨_, e, _, _, _, _, _, hgone⟩
  · rw [hgone]
    exact ⟨State.clearFinding_finding?_self h, hclear⟩
  · rw [hgone]
    exact ⟨(State.makeMissing_finding? hclear).trans (State.clearFinding_finding?_self h), State.makeMissing_canonical hclear⟩

/-- Settles O59, by the state of the slot: what is found by `State.foundAt_found`, after the loss of what was recorded there. -/
theorem slotReadings : Obligations.SlotReadings := by
  intro s slot r _ hcanonical
  refine ⟨fun e v hoccupied hv => ⟨fun hr => ?matched, fun hr hloc => ?lost, fun hr hloc => ?empty, fun hr hcase => ?other⟩,
    fun hopen => ?opened, fun f hforeign => ⟨fun hf => ?same, fun hf hr => ?cleared, fun hf => ?replaced⟩⟩
  case matched =>
    unfold State.slotReading
    rw [hoccupied]
    dsimp only
    rw [if_pos ((State.reads_iff hv).mpr hr)]
    exact ⟨rfl, rfl⟩
  case lost =>
    have hflag : (s.makeMissing e).port.flags.getLsbD 12 = true := by
      rw [State.makeMissing_eq hv hloc]
      exact State.raise_flag (e := .volumeLost)
    rw [State.slotReading_lost hoccupied hv hr]
    by_cases hcase : r = .noCase
    · rw [if_pos hcase]
      exact ⟨rfl, hflag⟩
    · rw [if_neg hcase]
      refine ⟨rfl, ?_⟩
      dsimp only
      rw [State.foundAt_port]
      exact hflag
  case empty =>
    have hdiffers : r ≠ .serial v.serial := by
      rw [hr]
      exact fun h => by cases h
    rw [State.slotReading_lost hoccupied hv hdiffers, if_pos hr]
    exact ⟨State.makeMissing_vol?_self hv hloc, rfl⟩
  case other =>
    rw [State.slotReading_lost hoccupied hv hr, if_neg hcase]
    exact ⟨_, rfl, State.foundAt_found (State.makeMissing_canonical hcanonical)⟩
  case opened =>
    have hfound : s.slotReading slot r = s.foundAt slot r := by
      unfold State.slotReading
      rcases hopen with hfree | ⟨e, hvacant⟩
      · rw [hfree]
      · rw [hvacant]
    rw [hfound]
    exact State.foundAt_found hcanonical
  case same =>
    unfold State.slotReading
    rw [hforeign]
    dsimp only
    rw [if_pos hf]
    exact ⟨rfl, rfl⟩
  case cleared =>
    rw [State.slotReading_gone hforeign hf]
    subst hr
    exact (State.findingGone_finding? hcanonical).1
  case replaced =>
    obtain ⟨hnone, hgoneCanonical⟩ := State.findingGone_finding? (slot := slot) (f := f) hcanonical
    rw [State.slotReading_gone hforeign hf]
    refine ⟨_, _, State.foundAt_found hgoneCanonical, hnone, ?_⟩
    rcases State.findingGone_cases (s := s) (slot := slot) (f := f) with ⟨hgone, hnot⟩ | ⟨serial, e, v, hserial, he, hv, hloc, hgone⟩
    · rw [hgone]
      exact Or.inl ⟨rfl, rfl, hnot⟩
    · rw [hgone]
      refine Or.inr ⟨serial, e, v, hserial, he, hv, hloc, State.makeMissing_vol?_self hv ?_, rfl⟩
      rw [hloc]
      exact fun h => by cases h

end Sys2Proof.Machine
end

section
/-! PROOFS. What the prompts and the drives' operations leave unchanged, and the changes of LOADED, RELEASED and PROTECT (O54, O55). -/

namespace Sys2Proof.Machine

variable {s t u : State} {d c : Fin 16} {e n : Nat}

/-! ### What the list of prompts leaves of the other blocks -/

/-- The directory, the drives, the rail inputs and the accounts are the same. -/
structure Aside (s t : State) : Prop where
  dir : t.dir = s.dir
  drv : t.drv = s.drv
  mon : t.mon = s.mon
  acc : t.acc = s.acc
  aud : t.aud = s.aud
  svc : t.svc = s.svc

theorem Aside.refl (s : State) : Aside s s := ⟨rfl, rfl, rfl, rfl, rfl, rfl⟩

theorem Aside.trans (h : Aside s t) (k : Aside t u) : Aside s u :=
  ⟨k.dir.trans h.dir, k.drv.trans h.drv, k.mon.trans h.mon, k.acc.trans h.acc, k.aud.trans h.aud, k.svc.trans h.svc⟩

theorem Aside.drive (h : Aside s t) : t.drive d = s.drive d := by unfold State.drive; rw [h.drv]

theorem Aside.vol? (h : Aside s t) : t.vol? e = s.vol? e := by unfold State.vol?; rw [h.dir]

theorem Aside.station {p : Fin 8} (h : Aside s t) : t.station p = s.station p := by unfold State.station; rw [h.mon]

theorem State.attend_aside {entered : Option Nat} : Aside s (s.attend entered) := by
  rw [State.attend_eq]
  exact ⟨rfl, rfl, rfl, rfl, rfl, rfl⟩

theorem State.notify_aside {m : Notice} : Aside s (s.notify m) := by constructor <;> simp

theorem State.issue_aside {kind : PromptKind} {names : Names} : Aside s (s.issue kind names).1 := by
  refine Aside.trans ?_ State.attend_aside
  constructor <;> rfl

theorem State.askEquipment_aside {e : Equipment} : Aside s (s.askEquipment e) := by
  unfold State.askEquipment
  split
  · exact Aside.refl s
  · split
    · exact State.issue_aside
    · constructor <;> rfl

theorem State.testOwed_aside {l : List Equipment} : Aside s (s.testOwed l) := by
  induction l with
  | nil => constructor <;> rfl
  | cons e rest ih =>
    unfold State.testOwed
    split
    · exact Aside.trans (by constructor <;> rfl) State.issue_aside
    · exact ih

theorem State.leaveList_aside {line : Bool} : Aside s (s.leaveList n line) := by
  unfold State.leaveList
  split
  · exact Aside.refl s
  · dsimp only
    refine Aside.trans ?_ State.testOwed_aside
    have hleft {w : State} (h : Aside s w) : Aside s (w.raise .promptClosed) := h.trans (by constructor <;> rfl)
    have hqueued {w : State} (h : Aside s w) : Aside s (if line = true then w.queueWithdrawal n else w) := by
      split
      · exact h.trans (by constructor <;> rfl)
      · exact h
    have hraised := (hleft (Aside.refl s)).trans (State.attend_aside (entered := none))
    split
    · refine Aside.trans (hqueued (Aside.trans (hleft ?_) State.attend_aside)) State.notify_aside
      constructor <;> rfl
    · refine hqueued (Aside.trans (hleft ?_) State.attend_aside)
      constructor <;> rfl

theorem State.endEquipment_aside {e : Equipment} : Aside s (s.endEquipment e) := by
  unfold State.endEquipment
  split
  · exact State.leaveList_aside
  · constructor <;> rfl

/-! ### What the drives' operations do to the drive and to the others' blocks -/

@[simp] theorem State.updAccount_dir {i : Nat} {f : Account → Account} : (s.updAccount i f).dir = s.dir := by
  unfold State.updAccount
  split <;> rfl

@[simp] theorem State.updAccount_drv {i : Nat} {f : Account → Account} : (s.updAccount i f).drv = s.drv := by
  unfold State.updAccount
  split <;> rfl

theorem State.updAccount_records {i : Nat} {f : Account → Account} : (s.updAccount i f).acc.records = s.acc.records := by
  unfold State.updAccount
  split <;> rfl

@[simp] theorem State.dropClaimed_dir {tag : Option Half} : (s.dropClaimed tag).dir = s.dir := by cases tag <;> rfl
@[simp] theorem State.dropClaimed_drv {tag : Option Half} : (s.dropClaimed tag).drv = s.drv := by cases tag <;> rfl
@[simp] theorem State.dropClaimed_acc {tag : Option Half} : (s.dropClaimed tag).acc = s.acc := by cases tag <;> rfl

@[simp] theorem State.endClaim_dir : (s.endClaim d).dir = s.dir := by
  unfold State.endClaim
  split <;> simp [State.countClaimEnd]

theorem State.endClaim_records : (s.endClaim d).acc.records = s.acc.records := by
  unfold State.endClaim
  split
  · rfl
  · rw [State.dropClaimed_acc, State.countClaimEnd, State.notify_acc, State.updAccount_records]
    rfl

theorem State.endClaim_drive : (s.endClaim d).drive d = { s.drive d with claim := none } := by
  unfold State.endClaim
  cases hclaim : (s.drive d).claim with
  | none =>
    dsimp only
    rw [← hclaim]
  | some claim =>
    have hdrv : (((s.updDrive d (fun x => { x with claim := none })).countClaimEnd claim.account).dropClaimed claim.tag).drv =
        (s.updDrive d (fun x => { x with claim := none })).drv := by simp [State.countClaimEnd]
    dsimp only
    unfold State.drive at hdrv ⊢
    rw [hdrv]
    exact State.updDrive_drive_self

@[simp] theorem State.putRecord_dir {r : AcctRecord} : (s.putRecord r).dir = s.dir := by simp [State.putRecord]

theorem State.putRecord_records {r : AcctRecord} : (s.putRecord r).acc.records = s.acc.records ++ [r] := by
  unfold State.putRecord
  rw [State.updDrive_acc, State.updAccount_records]

@[simp] theorem State.recordClaim_dir {session : Option Session} {outcome : RecOutcome} : (s.recordClaim d session outcome).dir = s.dir := by
  unfold State.recordClaim
  (repeat' split) <;> simp

/-- A claim whose record is reserved writes it. -/
theorem State.recordClaim_records {session : Option Session} {outcome : RecOutcome} {claim : Claim}
    (hclaim : (s.drive d).claim = some claim) (hreserved : claim.reserved = true) :
    (s.recordClaim d session outcome).acc.records = s.acc.records ++ [s.buildRecord d claim session outcome] := by
  unfold State.recordClaim
  rw [hclaim]
  dsimp only
  rw [if_pos hreserved, State.updDrive_acc, State.putRecord_records]

theorem State.putRecord_drive {r : AcctRecord} : ∃ seconds, (s.putRecord r).drive d = { s.drive d with useSeconds := seconds } := by
  have hdrive {w : State} {f : Account → Account} {i : Nat} : (w.updAccount i f).drive d = w.drive d := by
    unfold State.drive
    rw [State.updAccount_drv]
  unfold State.putRecord
  dsimp only
  by_cases hd : d = r.drive
  · subst hd
    rw [State.updDrive_drive_self, hdrive]
    exact ⟨_, rfl⟩
  · rw [State.updDrive_drive_ne hd, hdrive]
    exact ⟨_, rfl⟩

/-- The record of a claim counts the seconds of use, and leaves the claim but for its reservation. -/
theorem State.recordClaim_drive {session : Option Session} {outcome : RecOutcome} :
    ∃ (seconds : Stamp) (reserved : Claim → Bool), (s.recordClaim d session outcome).drive d = { s.drive d with
      useSeconds := seconds, claim := (s.drive d).claim.map (fun claim => { claim with reserved := reserved claim }) } := by
  unfold State.recordClaim
  cases hclaim : (s.drive d).claim with
  | none => 
    refine ⟨(s.drive d).useSeconds, fun _ => false, ?_⟩
    change s.drive d = { s.drive d with claim := none }
    rw [← hclaim]
  | some claim =>
    dsimp only
    split
    · obtain ⟨seconds, hput⟩ := State.putRecord_drive (s := s) (d := d) (r := s.buildRecord d claim session outcome)
      refine ⟨seconds, fun _ => false, ?_⟩
      rw [State.updDrive_drive_self, hput, hclaim]
    · refine ⟨(s.drive d).useSeconds, fun claim => claim.reserved, ?_⟩
      rw [Option.map_some, ← hclaim]

/-- A claim lost to an unexpected load. -/
theorem State.loseClaim_drive : ∃ seconds, (s.loseClaim d).drive d =
    { s.drive d with useSeconds := seconds, claim := none, loadTimer := none, state := .unmanaged } := by
  obtain ⟨seconds, reserved, hrecord⟩ := State.recordClaim_drive (s := s) (d := d) (session := none) (outcome := .failed)
  refine ⟨seconds, ?_⟩
  unfold State.loseClaim State.setDriveState State.stopLoadTimer
  rw [State.notify_drive, State.updDrive_drive_self, State.endClaim_drive, State.updDrive_drive_self, hrecord]

theorem State.enterCheck_dir : (s.enterCheck d).dir = s.dir := State.askEquipment_aside.dir

theorem State.enterCheck_drive : (s.enterCheck d).drive d =
    { s.drive d with state := .check, loadTimer := none, labelTimer := none, releaseTimer := none } :=
  State.askEquipment_aside.drive.trans State.updDrive_drive_self

/-- The error count of a volume rises (R15). -/
theorem State.raiseErrors_vol? {v : Volume} (hv : s.vol? e = some v) : (s.raiseErrors e).vol? e = some { v with
    errors := min 15 (v.errors + 1), suspect := v.suspect || decide (s.volumeErrorLimit ≤ min 15 (v.errors + 1)) } := by
  unfold State.raiseErrors
  rw [hv]
  exact State.setVol_vol?_self

@[simp] theorem State.raiseErrors_drv : (s.raiseErrors e).drv = s.drv := by
  unfold State.raiseErrors
  split <;> rfl

theorem State.loadFails_drive : (s.loadFails d).drive d =
    { s.drive d with state := .check, loadTimer := none, labelTimer := none, releaseTimer := none } := by
  unfold State.loadFails
  rw [State.notify_drive]
  split
  · unfold State.drive
    rw [State.raiseErrors_drv]
    exact State.enterCheck_drive
  · exact State.enterCheck_drive

/-- A load that fails on a PLACED drive raises the error count of its volume (R32). -/
theorem State.loadFails_vol? {v : Volume} (hstate : (s.drive d).state = .placed) (hvolume : (s.drive d).volume = some e)
    (hv : s.vol? e = some v) : ∃ w, (s.loadFails d).vol? e = some w ∧ w.errors = min 15 (v.errors + 1) := by
  have hkept : (s.enterCheck d).vol? e = some v := by
    unfold State.vol?
    rw [State.enterCheck_dir]
    exact hv
  unfold State.loadFails
  rw [State.notify_vol?, hstate, hvolume]
  exact ⟨_, State.raiseErrors_vol? hkept, rfl⟩

@[simp] theorem State.setDrive_setDrive {x y : Drive} : (s.setDrive d x).setDrive d y = s.setDrive d y := by
  unfold State.setDrive
  simp

theorem State.updDrive_updDrive {f g : Drive → Drive} : (s.updDrive d f).updDrive d g = s.setDrive d (g (f (s.drive d))) := by
  unfold State.updDrive
  rw [State.setDrive_drive_self, State.setDrive_setDrive]

/-! ### A load taken (R33) -/

theorem State.countMount_drv {protect scratch : Bool} {density : Option Density} : (s.countMount e protect density scratch).drv = s.drv := by
  unfold State.countMount
  split <;> rfl

theorem State.makeMissing_drive : ∃ v, (s.makeMissing e).drive d = { s.drive d with volume := v } := by
  unfold State.makeMissing
  split
  · exact State.relocate_drive
  · exact ⟨_, rfl⟩

theorem State.clearDriveVolume_drive : ∃ v, (s.clearDriveVolume c).drive d = { s.drive d with volume := v } := by
  unfold State.clearDriveVolume State.loseFrom
  split
  · rename_i held _
    have hlost : ∃ v, (if (s.vol? held).any (fun v => v.loc == .inDrive c) then s.makeMissing held else s).drive d =
        { s.drive d with volume := v } := by
      split
      · exact State.makeMissing_drive
      · exact ⟨_, rfl⟩
    obtain ⟨v, hv⟩ := hlost
    by_cases hd : d = c
    · subst hd
      rw [State.updDrive_drive_self, hv]
      exact ⟨_, rfl⟩
    · rw [State.updDrive_drive_ne hd]
      exact ⟨v, hv⟩
  · exact ⟨_, rfl⟩

theorem State.nameOnDrive_drive : ∃ v, (s.nameOnDrive c e).drive d = { s.drive d with volume := v } := by
  unfold State.nameOnDrive
  split
  · exact ⟨_, rfl⟩
  · have hcleared : ∃ v, (if (s.drive c).volume = some e then s else s.clearDriveVolume c).drive d = { s.drive d with volume := v } := by
      split
      · exact ⟨_, rfl⟩
      · exact State.clearDriveVolume_drive
    obtain ⟨v, hv⟩ := hcleared
    dsimp only
    obtain ⟨w, hw⟩ := State.relocate_drive (s := if (s.drive c).volume = some e then s else s.clearDriveVolume c) (e := e)
      (l := .inDrive c) (x := d)
    by_cases hd : d = c
    · subst hd
      rw [State.updDrive_drive_self, hw, hv]
      exact ⟨_, rfl⟩
    · rw [State.updDrive_drive_ne hd, hw, hv]
      exact ⟨_, rfl⟩

theorem Keeps.clock {L : Law → Prop} (h : Keeps L s t) : t.port.clock = s.port.clock := by
  have hclock := congrArg PortBlock.clock h.port
  exact hclock

/-- A volume mounted by hand is named on its drive (R13). -/
def State.namedByHand (s : State) (d : Fin 16) (claim : Claim) : State :=
  match (s.drive d).volume, claim.manual with
  | none, some e => s.nameByHand d e
  | _, _ => s

theorem State.namedByHand_drive {claim : Claim} : ∃ v, (s.namedByHand d claim).drive d = { s.drive d with volume := v } := by
  unfold State.namedByHand
  split
  · exact State.nameOnDrive_drive
  · exact ⟨_, rfl⟩

theorem State.namedByHand_clock {claim : Claim} : (s.namedByHand d claim).clock = s.clock := by
  unfold State.namedByHand
  split
  · exact (Keeps.nameByHand (L := noLaw) (Keeps.refl s)).clock
  · rfl

theorem State.namedByHand_named {claim : Claim} (h : (s.drive d).volume = some e) : s.namedByHand d claim = s := by
  unfold State.namedByHand
  rw [h]

/-- The session that a load opens on a drive (R33). -/
def State.openSession (s : State) (d : Fin 16) (claim : Claim) : State :=
  s.updDrive d (fun x => { x with
    loadTimer := none
    loadCount := x.loadCount + 1
    session := some ⟨claim.account, s.clock, claim.write, false, claim.assisted⟩
    state := .loaded
    claim := some { claim with ringHold := false } })

theorem State.takeLoad_eq {claim : Claim} (hclaim : (s.drive d).claim = some claim) : ∃ density, s.takeLoad d =
    (match (((s.namedByHand d claim).openSession d claim).drive d).volume with
      | some e => ((s.namedByHand d claim).openSession d claim).countMount e (s.drive d).sense.protect density claim.scratch
      | none => (s.namedByHand d claim).openSession d claim).notify (.loaded d claim.tag (s.drive d).sense.protect claim.ringHold) := by
  unfold State.takeLoad
  dsimp only
  rw [hclaim]
  exact ⟨_, rfl⟩

/-- The drive after a load taken under a claim, but for the volume it names. -/
theorem State.takeLoad_drive {claim : Claim} (hclaim : (s.drive d).claim = some claim) :
    ∃ v, (s.takeLoad d).drive d = { s.drive d with
      volume := v, loadTimer := none, loadCount := (s.drive d).loadCount + 1,
      session := some ⟨claim.account, s.port.clock, claim.write, false, claim.assisted⟩, state := .loaded,
      claim := some { claim with ringHold := false } } := by
  obtain ⟨density, hload⟩ := State.takeLoad_eq hclaim
  obtain ⟨v, hnamed⟩ := State.namedByHand_drive (s := s) (d := d) (claim := claim)
  refine ⟨v, ?_⟩
  have hopened : ((s.namedByHand d claim).openSession d claim).drive d = { s.drive d with
      volume := v, loadTimer := none, loadCount := (s.drive d).loadCount + 1,
      session := some ⟨claim.account, s.port.clock, claim.write, false, claim.assisted⟩, state := .loaded,
      claim := some { claim with ringHold := false } } := by
    unfold State.openSession
    rw [State.updDrive_drive_self, hnamed, State.namedByHand_clock]
    rfl
  rw [hload, State.notify_drive]
  split
  · unfold State.drive
    rw [State.countMount_drv]
    exact hopened
  · exact hopened

/-- The volume that the drive names is counted mounted (R13). -/
theorem State.takeLoad_vol? {claim : Claim} {v : Volume} (hclaim : (s.drive d).claim = some claim)
    (hvolume : (s.drive d).volume = some e) (hv : s.vol? e = some v) :
    ∃ w, (s.takeLoad d).vol? e = some w ∧ w.mounts = min 65535 (v.mounts + 1) ∧ w.lastMount = some s.port.clock ∧
      w.ring = ringOf (s.drive d).sense.protect ∧ w.use = if claim.scratch then .own else v.use := by
  obtain ⟨density, hload⟩ := State.takeLoad_eq hclaim
  have hopened : (((s.namedByHand d claim).openSession d claim).drive d).volume = some e := by
    rw [State.namedByHand_named hvolume]
    unfold State.openSession
    rw [State.updDrive_drive_self]
    exact hvolume
  rw [hload, State.notify_vol?, hopened, State.namedByHand_named hvolume]
  dsimp only
  unfold State.countMount
  have hkept : (s.openSession d claim).vol? e = some v := hv
  rw [hkept]
  exact ⟨_, State.setVol_vol?_self, rfl, rfl, rfl, rfl⟩

/-! ### The debounced changes of a line -/

theorem State.driveLevel_due {line : SenseLine} {level : Bool} (h : due s d line level) : s.driveLevel d line level = some (sensed s d line level) :=
  if_pos h

theorem State.driveLevel_none {line : SenseLine} {level : Bool} (h : ¬due s d line level) : s.driveLevel d line level = none :=
  if_neg h

theorem sensed_aside {line : SenseLine} {level : Bool} :
    (sensed s d line level).dir = s.dir ∧ (sensed s d line level).acc = s.acc ∧ (sensed s d line level).port.clock = s.port.clock := by
  unfold sensed
  dsimp only
  split <;> exact ⟨rfl, rfl, rfl⟩

theorem sensed_setting {line : SenseLine} {level : Bool} {i : Nat} : (sensed s d line level).setting i = s.setting i := by
  unfold sensed
  dsimp only
  split <;> rfl

theorem sensed_vol? {line : SenseLine} {level : Bool} : (sensed s d line level).vol? e = s.vol? e := by
  unfold State.vol?
  rw [sensed_aside.1]

theorem sensed_drive {line : SenseLine} {level : Bool} : (sensed s d line level).drive d = { s.drive d with
    sense := (s.drive d).sense.put line level, intervals := (s.drive d).intervals.put line none } := by
  unfold sensed
  dsimp only
  split
  · exact State.setDrive_drive_self
  · exact State.setDrive_drive_self

/-- A change that is due acts on the drive sensed. -/
theorem State.senseChange_due {line : SenseLine} {level : Bool} {f : State → State} (h : due s d line level) :
    s.senseChange d line level f = s.afterAct (f (sensed s d line level)) := by
  unfold State.senseChange
  rw [State.driveLevel_due h]
  rfl

/-- A change that is not due is none. -/
theorem State.senseChange_none {line : SenseLine} {level : Bool} {f : State → State} (h : ¬due s d line level) :
    s.senseChange d line level f = s := by
  unfold State.senseChange
  rw [State.driveLevel_none h]

theorem exec_loadedRise (h : due s d .loaded true) (hu : (sensed s d .loaded true).onLoadedRise d = u) : s.ActsBy (.loadedRise d) u :=
  hu ▸ congrArg (fun t => Host.Outcome.next (State.finishStep t)) (State.senseChange_due h)

theorem exec_loadedFall (h : due s d .loaded false) (hu : (sensed s d .loaded false).onLoadedFall d = u) : s.ActsBy (.loadedFall d) u :=
  hu ▸ congrArg (fun t => Host.Outcome.next (State.finishStep t)) (State.senseChange_due h)

theorem exec_releasedRise (h : due s d .released true) (hu : (sensed s d .released true).onReleasedRise d = u) :
    s.ActsBy (.releasedRise d) u :=
  hu ▸ congrArg (fun t => Host.Outcome.next (State.finishStep t)) (State.senseChange_due h)

theorem exec_releasedFall (h : due s d .released false) (hu : (sensed s d .released false).onReleasedFall d = u) :
    s.ActsBy (.releasedFall d) u :=
  hu ▸ congrArg (fun t => Host.Outcome.next (State.finishStep t)) (State.senseChange_due h)

/-- A change that is not due leaves a settled state as it is. -/
theorem State.Settled.senseChange_none (hs : s.Settled) {line : SenseLine} {level : Bool} {f : State → State} (h : ¬due s d line level) :
    (s.senseChange d line level f).finishStep = s := by
  rw [State.senseChange_none h]
  exact State.finishStep_of_settled hs

/-! ### The states of a drive at a LOADED rise -/

/-- An UNMANAGED drive with a level high stays so. -/
theorem State.testUnmanaged_high (h : (s.drive d).levelHigh = true) : s.testUnmanaged d = s := if_pos h

theorem State.testUnmanaged_state (h : (s.drive d).state = .unmanaged) : ((s.testUnmanaged d).drive d).state =
    if (s.drive d).levelHigh then .unmanaged else if (s.drive d).online then .empty else .offline := by
  unfold State.testUnmanaged
  split
  · exact h
  · unfold State.restDrive State.setDriveState
    rw [State.notify_drive, State.updDrive_drive_self]

/-- What a LOADED rise does, by the state of the drive; `x` is the drive. -/
theorem State.onLoadedRise_of {st : DriveState} (h : (s.drive d).state = st) : s.onLoadedRise d =
    match (generalizing := false) st with
    | .empty => s.setDrive d { s.drive d with state := .unmanaged, loadCount := (s.drive d).loadCount + 1 }
    | .claimed =>
      if (s.drive d).placeExpected then s
      else if (s.drive d).claim.any (·.manual.isSome) then (if (s.drive d).loadTimer.isSome then s.takeLoad d else s)
      else s.loseClaim d
    | .placed => s.loadPlaced d
    | .unloading => if (s.drive d).session.isNone then s.startPulse d .unload else s
    | .released => if (s.drive d).holdsRing then s.takeLoad d else s.enterCheck d
    | .unmanaged => s.testUnmanaged d
    | .offline | .loaded | .check => s := by
  unfold State.onLoadedRise
  dsimp only
  rw [h]
  rfl

/-- A claim under which a LOADED rise takes the load (R33, R34, R38). -/
def takesLoad (x : Drive) (c : Claim) : Prop :=
  (x.state = .placed ∧ c.detached = false) ∨
    (x.state = .claimed ∧ x.placeExpected = false ∧ c.manual.isSome = true ∧ x.loadTimer.isSome = true) ∨
    (x.state = .released ∧ c.ringHold = true)

theorem State.onLoadedRise_takes {c : Claim} (hclaim : (s.drive d).claim = some c) (h : takesLoad (s.drive d) c) :
    s.onLoadedRise d = s.takeLoad d := by
  rcases h with ⟨hstate, hattached⟩ | ⟨hstate, hplace, hmanual, htimer⟩ | ⟨hstate, hring⟩
  · rw [State.onLoadedRise_of hstate]
    simp [State.loadPlaced, Drive.isDetached, hclaim, hattached]
  · rw [State.onLoadedRise_of hstate]
    simp [hplace, hclaim, hmanual, htimer]
  · rw [State.onLoadedRise_of hstate]
    simp [Drive.holdsRing, hclaim, hring]

/-- What a LOADED rise leaves of the drive's levels is what was sensed. -/
theorem State.onLoadedRise_sense : ((s.onLoadedRise d).drive d).sense = (s.drive d).sense := by
  have hwiring := (Keeps.onLoadedRise (L := noLaw) (Keeps.refl s) (d := d)).drives d
  exact congrArg (fun w => w.2.2.1) hwiring

/-- Settles O54, by the states of the drive (`State.onLoadedRise_of`, `State.onLoadedFall`). -/
theorem loadedChanges : Obligations.LoadedChanges := by
  refine ⟨fun s d hs => ⟨fun h => congrArg _ (hs.senseChange_none h), fun h => congrArg _ (hs.senseChange_none h)⟩,
    fun s d hdue => ?rise, fun s d hdue => ?fall⟩
  case rise =>
    intro x t
    have hdrive : t.drive d = { x with sense := x.sense.put .loaded true, intervals := x.intervals.put .loaded none } := sensed_drive
    have hof {st : DriveState} (h : x.state = st) := State.onLoadedRise_of (s := t) (d := d) (st := st) (by rw [hdrive]; exact h)
    refine ⟨t.onLoadedRise d, exec_loadedRise hdue rfl, ?_, fun h => ?_, fun h hplace => ?_, fun c h hplace hclaim hmanual => ?_,
      fun c e h hplace hclaim hmanual htimer => ?_, fun c htakes hclaim => ?_, fun h hring => ?_, fun h => ?_, fun h => ?_⟩
    · rw [State.onLoadedRise_sense, hdrive]
    · rw [hof h, hdrive]
    · rw [hof h, hdrive]
      exact if_pos hplace
    · obtain ⟨seconds, hlost⟩ := State.loseClaim_drive (s := t) (d := d)
      have hloses : t.onLoadedRise d = t.loseClaim d := by
        rw [hof h, hdrive]
        simp [hplace, hclaim, hmanual]
      rw [hloses, hlost]
      exact ⟨rfl, rfl, rfl⟩
    · rw [hof h, hdrive]
      simp [hplace, hclaim, hmanual, htimer]
    · have hclaim' : (t.drive d).claim = some c := by rw [hdrive]; exact hclaim
      have htaken : t.onLoadedRise d = t.takeLoad d := State.onLoadedRise_takes hclaim' (by rw [hdrive]; exact htakes)
      obtain ⟨v, hloaded⟩ := State.takeLoad_drive hclaim'
      rw [htaken, hloaded, hdrive, sensed_aside.2.2]
      refine ⟨rfl, rfl, rfl, rfl, fun e v hvolume hv => ?_⟩
      obtain ⟨w, hw, hmounts, hmount, hring, huse⟩ := State.takeLoad_vol? (v := v) (e := e) hclaim' (by rw [hdrive]; exact hvolume)
        (by rw [sensed_vol?]; exact hv)
      refine ⟨w, hw, hmounts, by rw [hmount, sensed_aside.2.2], ?_, huse⟩
      rw [hring, hdrive]
      rfl
    · have hchecks : t.onLoadedRise d = t.enterCheck d := by
        rw [hof h, hdrive]
        exact if_neg (by rw [Drive.holdsRing]; exact ne_true_of_eq_false hring)
      rw [hchecks, State.enterCheck_drive]
    · have hsessions : (t.drive d).session = x.session := by rw [hdrive]
      refine (hof h).trans ?_
      change (if (t.drive d).session.isNone = true then t.startPulse d .unload else t) = _
      by_cases hsession : x.session = none
      · rw [if_pos hsession, if_pos (by rw [hsessions, hsession]; rfl), State.startPulse, State.pulseWidth, sensed_setting]
        rfl
      · rw [if_neg hsession, if_neg (by rw [hsessions, Option.isNone_iff_eq_none]; exact hsession)]
    · rcases h with h | h | h | h
      · rw [hof h]
        exact State.testUnmanaged_high (by rw [hdrive]; rfl)
      · exact hof h
      · exact hof h
      · exact hof h
  case fall =>
    intro x t
    have hdrive : t.drive d = { x with sense := x.sense.put .loaded false, intervals := x.intervals.put .loaded none } := sensed_drive
    have hstate : (t.drive d).state = x.state := by rw [hdrive]
    refine ⟨t.onLoadedFall d, exec_loadedFall hdue rfl, fun h => ?_, fun h => ?_, fun hloaded hunmanaged => ?_⟩
    · have hlimit : t.releaseLimit = s.releaseLimit := sensed_setting
      have hfalls : t.onLoadedFall d = (t.setDriveState d .unloading).startReleaseTimer d := by
        unfold State.onLoadedFall
        rw [hstate, h]
      rw [hfalls, ← hlimit]
      exact State.updDrive_updDrive
    · unfold State.onLoadedFall
      rw [hstate, h]
      dsimp only
      rw [State.testUnmanaged_state (hstate.trans h), hdrive]
      rfl
    · unfold State.onLoadedFall
      rw [hstate]
      split
      · exact absurd (by assumption) hloaded
      · exact absurd (by assumption) hunmanaged
      all_goals rfl

/-! ### The changes of RELEASED and PROTECT (O55) -/

/-- The session of a drive whose reel is released is recorded COMPLETED, but under a ring hold (R37). -/
theorem State.releaseReel_drive : ((s.releaseReel d).drive d).state = .released ∧ ((s.releaseReel d).drive d).releaseTimer = none ∧
    ((s.releaseReel d).drive d).session = none := by
  have hclosed : (((s.updDrive d (fun x => { x with releaseTimer := none })).closeSession d).drive d).releaseTimer = none ∧
      (((s.updDrive d (fun x => { x with releaseTimer := none })).closeSession d).drive d).session = none := by
    unfold State.closeSession State.completeSession
    split
    · rw [State.updDrive_drive_self, State.updDrive_drive_self]
      exact ⟨rfl, rfl⟩
    · split
      · rename_i hsession
        exact ⟨by rw [State.updDrive_drive_self], hsession⟩
      · rename_i session _
        obtain ⟨seconds, reserved, hrecord⟩ := State.recordClaim_drive (s := s.updDrive d (fun x => { x with releaseTimer := none })) (d := d)
          (session := some session) (outcome := .completed)
        rw [State.updDrive_drive_self, hrecord, State.updDrive_drive_self]
        exact ⟨rfl, rfl⟩
  unfold State.releaseReel State.setDriveState
  dsimp only
  rw [State.notify_drive, State.updDrive_drive_self]
  exact ⟨rfl, hclosed.1, hclosed.2⟩

theorem State.releaseReel_records {claim : Claim} {session : Session} (hclaim : (s.drive d).claim = some claim)
    (hsession : (s.drive d).session = some session) (hring : claim.ringHold = false) (hreserved : claim.reserved = true) :
    ∃ rec, (s.releaseReel d).acc.records = s.acc.records ++ [rec] ∧ rec.drive = d ∧ rec.tag = claim.tag ∧
      rec.account = session.account ∧ rec.outcome = .completed ∧ rec.releaseStamp = some s.port.clock := by
  let stopped := s.updDrive d (fun x => { x with releaseTimer := none })
  have hdrive : stopped.drive d = { s.drive d with releaseTimer := none } := State.updDrive_drive_self
  have hclosed : stopped.closeSession d = (stopped.recordClaim d (some session) .completed).updDrive d (fun x => { x with session := none }) := by
    unfold State.closeSession State.completeSession Drive.holdsRing
    rw [hdrive]
    dsimp only
    rw [hclaim, hsession, if_neg (by rw [Option.any_some, hring]; exact Bool.false_ne_true)]
  refine ⟨stopped.buildRecord d claim (some session) .completed, ?_, rfl, rfl, rfl, rfl, rfl⟩
  change (((stopped.closeSession d).setDriveState d .released).notify _).acc.records = _
  rw [State.notify_acc, hclosed]
  exact State.recordClaim_records (by rw [hdrive]; exact hclaim) hreserved

/-- What a RELEASED rise does, by the state of the drive. -/
theorem State.onReleasedRise_of {st : DriveState} (h : (s.drive d).state = st) : s.onReleasedRise d =
    match (generalizing := false) st with
    | .empty => s.setDriveState d .unmanaged
    | .placed => s.loadFails d
    | .loaded | .unloading => s.releaseReel d
    | .unmanaged => s.testUnmanaged d
    | .offline | .claimed | .released | .check => s := by
  unfold State.onReleasedRise
  rw [h] <;> rfl

theorem exec_protectChange : exec (.protectChange d) s =
    .next (((s.driveLevel d .protect (s.drive d).raw.protect).map (fun s => s.onProtectChange d)).getD s).finishStep := rfl

/-- Settles O55, by the states of the drive (`State.onReleasedRise_of`, `State.onReleasedFall`) and its session. -/
theorem releasedAndProtectChanges : Obligations.ReleasedAndProtectChanges := by
  refine ⟨fun s d hs => ⟨fun h => congrArg _ (hs.senseChange_none h), fun h => congrArg _ (hs.senseChange_none h), fun h => ?still⟩,
    fun s d hdue => ?rise, fun s d hdue => ?fall, fun s d level hdue => ?protect⟩
  case still =>
    rw [exec_protectChange, State.driveLevel_none h]
    exact congrArg _ (State.finishStep_of_settled hs)
  case rise =>
    intro x t
    have hdrive : t.drive d = { x with sense := x.sense.put .released true, intervals := x.intervals.put .released none } := sensed_drive
    have hof {st : DriveState} (h : x.state = st) := State.onReleasedRise_of (s := t) (d := d) (st := st) (by rw [hdrive]; exact h)
    refine ⟨t.onReleasedRise d, exec_releasedRise hdue rfl, fun h => hof h, fun h => ?_, fun h => ?_, fun h => ?_⟩
    · rw [hof h]
      dsimp only
      rw [State.loadFails_drive]
      refine ⟨rfl, rfl, fun e v hvolume hv => State.loadFails_vol? (v := v) (by rw [hdrive]; exact h) (by rw [hdrive]; exact hvolume) ?_⟩
      rw [sensed_vol?]
      exact hv
    · have hreleases : t.onReleasedRise d = t.releaseReel d := by
        rcases h with h | h
        · exact hof h
        · exact hof h
      rw [hreleases]
      obtain ⟨hstate, htimer, hsessions⟩ := State.releaseReel_drive (s := t) (d := d)
      refine ⟨hstate, htimer, fun c session hclaim hsession hring hreserved => ⟨hsessions, ?_⟩⟩
      obtain ⟨rec, hrecords, hdrv, htag, haccount, houtcome, hstamp⟩ := State.releaseReel_records (s := t) (d := d) (claim := c)
        (session := session) (by rw [hdrive]; exact hclaim) (by rw [hdrive]; exact hsession) hring hreserved
      exact ⟨rec, by rw [hrecords, sensed_aside.2.1], hdrv, htag, haccount, houtcome, by rw [hstamp, sensed_aside.2.2]⟩
    · rcases h with h | h | h | h | h
      · rw [hof h]
        exact State.testUnmanaged_high (by rw [hdrive]; exact Bool.or_true _)
      · exact hof h
      · exact hof h
      · exact hof h
      · exact hof h
  case fall =>
    intro x t
    have hdrive : t.drive d = { x with sense := x.sense.put .released false, intervals := x.intervals.put .released none } := sensed_drive
    have hstate : (t.drive d).state = x.state := by rw [hdrive]
    refine ⟨t.onReleasedFall d, exec_releasedFall hdue rfl, fun h => ?_, fun h => ?_⟩
    · unfold State.onReleasedFall
      rw [hstate, h]
      dsimp only
      rw [State.testUnmanaged_state (hstate.trans h), hdrive]
      simp [Drive.levelHigh, Levels.put]
    · unfold State.onReleasedFall
      rw [hstate]
      split
      · exact absurd (by assumption) h
      all_goals rfl
  case protect =>
    intro x t
    obtain ⟨_, _, hraw, _⟩ := id hdue
    have hdrive : t.drive d = { x with sense := x.sense.put .protect level, intervals := x.intervals.put .protect none } := sensed_drive
    have hlevel : s.driveLevel d .protect (s.drive d).raw.protect = some t := by
      have hnow : (s.drive d).raw.protect = level := hraw
      rw [hnow]
      exact State.driveLevel_due hdue
    refine ⟨t.onProtectChange d, ?_, fun e v hsession hvolume hv => ?_, fun h => ?_⟩
    · rw [exec_protectChange, hlevel]
      rfl
    · obtain ⟨session, hsession⟩ := Option.isSome_iff_exists.mp hsession
      have hrings : t.onProtectChange d = t.setRing e level := by
        unfold State.onProtectChange
        rw [hdrive]
        dsimp only
        rw [hsession, hvolume]
        rfl
      rw [hrings, State.setRing, sensed_vol?, hv]
      rfl
    · unfold State.onProtectChange
      rw [hdrive]
      dsimp only
      rcases h with h | h
      · rw [h]
      · rw [h]
        split <;> simp_all

end Sys2Proof.Machine
end

section
/-! PROOFS. The orders created (R86, R88) and the presence of a station position (O58). -/

namespace Sys2Proof.Machine

variable {s t u : State} {d : Fin 16} {p : Fin 8} {e n : Nat}

/-! ### The id of a new order (R86) -/

theorem nextOrderId_iterate {j : Nat} (hlow : 1 ≤ n) (hhigh : n ≤ 255) : nextOrderId^[j] n = (n - 1 + j) % 255 + 1 := by
  induction j generalizing n with
  | zero => simp only [Function.iterate_zero, id_eq]; omega
  | succ j ih =>
    have hnext : 1 ≤ nextOrderId n ∧ nextOrderId n ≤ 255 ∧ (nextOrderId n - 1 + j) % 255 = (n - 1 + (j + 1)) % 255 := by
      unfold nextOrderId
      split <;> omega
    rw [Function.iterate_succ_apply, ih hnext.1 hnext.2.1, hnext.2.2]

/-- The ids looked at from a start are distinct. -/
theorem nextOrderId_injective {i j : Nat} (hij : i < j) (hj : j < 32) : nextOrderId^[i] n ≠ nextOrderId^[j] n := by
  intro h
  obtain ⟨k, rfl⟩ := Nat.exists_eq_add_of_lt hij
  have hcycle : nextOrderId^[k + 1] (nextOrderId^[i] n) = nextOrderId^[i] n := by
    rw [← Function.iterate_add_apply, show k + 1 + i = i + k + 1 by omega]
    exact h.symm
  have hrange (m : Nat) : 1 ≤ nextOrderId m ∧ nextOrderId m ≤ 255 := by
    unfold nextOrderId
    split <;> omega
  have hlow : 1 ≤ nextOrderId^[i] n ∧ nextOrderId^[i] n ≤ 255 := by
    rw [← hcycle, Function.iterate_succ_apply']
    exact hrange _
  rw [nextOrderId_iterate hlow.1 hlow.2] at hcycle
  omega

/-- The search for an id: it stands some steps after its start, all before it taken; short of its fuel it is free. -/
theorem State.freeId_spec {fuel : Nat} : ∃ k ≤ fuel, (∀ j < k, ∃ o ∈ s.sch.pool, o.id = nextOrderId^[j] n) ∧
    (k < fuel → ∀ o ∈ s.sch.pool, o.id ≠ s.freeId fuel n) := by
  induction fuel generalizing n with
  | zero => exact ⟨0, Nat.le_refl 0, by omega, by omega⟩
  | succ fuel ih =>
    by_cases htaken : s.sch.pool.any (fun o => o.id == n) = true
    · have hstep : s.freeId (fuel + 1) n = s.freeId fuel (nextOrderId n) := if_pos htaken
      obtain ⟨k, hk, hbefore, hfree⟩ := ih (n := nextOrderId n)
      refine ⟨k + 1, by omega, fun j hj => ?_, fun hlt => by rw [hstep]; exact hfree (by omega)⟩
      cases j with
      | zero =>
        obtain ⟨o, ho, hid⟩ := List.any_eq_true.mp htaken
        exact ⟨o, ho, beq_iff_eq.mp hid⟩
      | succ j =>
        obtain ⟨o, ho, hid⟩ := hbefore j (by omega)
        exact ⟨o, ho, by rw [hid, Function.iterate_succ_apply]⟩
    · have hstep : s.freeId (fuel + 1) n = n := if_neg htaken
      refine ⟨0, Nat.zero_le _, by omega, fun _ o ho hid => htaken ?_⟩
      exact List.any_eq_true.mpr ⟨o, ho, by rw [hid, hstep]; exact beq_self_eq_true n⟩

/-- With fewer than 32 orders in the pool the id of a new one is free. -/
theorem State.freeId_free (hroom : s.sch.pool.length < 32) : ∀ o ∈ s.sch.pool, o.id ≠ s.freeId 32 n := by
  obtain ⟨k, hk, hbefore, hfree⟩ := State.freeId_spec (s := s) (fuel := 32) (n := n)
  refine hfree (lt_of_le_of_ne hk ?_)
  rintro rfl
  have hsubset : (Finset.range 32).image (fun j => nextOrderId^[j] n) ⊆ (s.sch.pool.map (·.id)).toFinset := by
    intro m hm
    obtain ⟨j, hj, rfl⟩ := Finset.mem_image.mp hm
    obtain ⟨o, ho, hid⟩ := hbefore j (Finset.mem_range.mp hj)
    exact List.mem_toFinset.mpr (List.mem_map.mpr ⟨o, ho, hid⟩)
  have hinjective : Set.InjOn (fun j => nextOrderId^[j] n) (Finset.range 32 : Set Nat) := by
    intro i hi j hj hij
    simp only [Finset.coe_range, Set.mem_Iio] at hi hj
    rcases Nat.lt_trichotomy i j with h | h | h
    · exact absurd hij (nextOrderId_injective h hj)
    · exact h
    · exact absurd hij.symm (nextOrderId_injective h hi)
  have hcard := Finset.card_le_card hsubset
  rw [Finset.card_image_of_injOn hinjective, Finset.card_range] at hcard
  have hlist := List.toFinset_card_le (s.sch.pool.map (·.id))
  rw [List.length_map] at hlist
  omega

/-! ### The creation of an order -/

/-- An order found by its id at the end of the pool. -/
theorem State.order?_last {o : Order} {l : List Order} (hpool : s.sch.pool = l ++ [o]) (hfree : ∀ q ∈ l, q.id ≠ o.id) : s.order? o.id = some o := by
  unfold State.order?
  rw [hpool, List.find?_append, List.find?_eq_none.mpr (fun q hq => by simpa using hfree q hq)]
  simp

/-- A change of the last order of the pool. -/
theorem State.updOrder_last {o : Order} {l : List Order} {f : Order → Order} (hpool : s.sch.pool = l ++ [o])
    (hfree : ∀ q ∈ l, q.id ≠ o.id) : (s.updOrder o.id f).sch.pool = l ++ [f o] := by
  unfold State.updOrder
  have hold : l.map (fun q => if q.id = o.id then f q else q) = l :=
    (List.map_congr_left (fun q hq => if_neg (hfree q hq))).trans (List.map_id' l)
  rw [hpool, List.map_append, hold]
  simp

/-- Only the scheduler and the notices differ. -/
def SchedOnly (s t : State) : Prop := t = { s with sch := t.sch, notices := t.notices }

theorem SchedOnly.refl (s : State) : SchedOnly s s := rfl

theorem SchedOnly.trans (h : SchedOnly s t) (k : SchedOnly t u) : SchedOnly s u := by
  unfold SchedOnly at h k ⊢
  rw [k, h]

theorem State.notify_schedOnly {m : Notice} : SchedOnly s (s.notify m) := by
  unfold State.notify SchedOnly
  split <;> rfl

theorem State.updOrder_schedOnly {id : Nat} {f : Order → Order} : SchedOnly s (s.updOrder id f) := rfl

theorem State.bindOrder_schedOnly {id : Nat} : SchedOnly s (s.bindOrder id) := by
  unfold State.bindOrder
  split
  · exact SchedOnly.refl s
  · dsimp only
    split
    · exact State.updOrder_schedOnly.trans State.notify_schedOnly
    · exact State.updOrder_schedOnly

/-- The binding of the last order of the pool. -/
theorem State.bindOrder_last {o : Order} {l : List Order} (hpool : s.sch.pool = l ++ [o]) (hfree : ∀ q ∈ l, q.id ≠ o.id) :
    ∃ bound st, (s.bindOrder o.id).sch.pool = l ++ [{ o with bound := bound, state := st }] := by
  refine ⟨s.bindingOf o, if (s.bindingOf o).isSome then .bound else .unbound, ?_⟩
  rw [← State.updOrder_last (f := fun o' => { o' with bound := s.bindingOf o, state := if (s.bindingOf o).isSome then .bound else .unbound })
    hpool hfree]
  unfold State.bindOrder
  rw [State.order?_last hpool hfree]
  dsimp only
  split
  · rw [State.notify_sch]
  · rfl

/-- An order is created where the pool has room for its kind: it ends the pool, under an id that none of the pool has. -/
theorem State.createOrder_room {kind : OrderKind} {source dest : Option Place} {volume : Option Nat} {tag : Option Half} {legs : List Leg}
    (hroom : s.sch.pool.length < roomFor kind false) :
    ∃ w o, s.createOrder kind source dest volume tag legs none = some (w, o.id) ∧ w.sch.pool = s.sch.pool ++ [o] ∧
      (∀ q ∈ s.sch.pool, q.id ≠ o.id) ∧ o.kind = kind ∧ o.source = source ∧ o.dest = dest ∧ o.volume = volume ∧ o.tag = tag ∧
      SchedOnly (s.reserveDest o.id dest) w := by
  have h32 : s.sch.pool.length < 32 := lt_of_lt_of_le hroom (by cases kind <;> decide)
  let o : Order := {
    id := s.freeId 32 s.sch.nextId, kind := kind, source := source, dest := dest, volume := volume, tag := tag, bound := none, legs := legs,
    next := 0, state := .unbound, cut := false, door := false, started := false, putBack := none }
  let joined : State := { s with sch := { s.sch with pool := s.sch.pool ++ [o], nextId := nextOrderId o.id } }
  let reserved := joined.reserveDest o.id dest
  have hfree : ∀ q ∈ s.sch.pool, q.id ≠ o.id := State.freeId_free h32
  have hsch : reserved.sch = joined.sch ∧ SchedOnly (s.reserveDest o.id dest) reserved := by
    cases dest with
    | none => exact ⟨rfl, rfl⟩
    | some place => cases place <;> exact ⟨rfl, rfl⟩
  obtain ⟨bound, st, hpool⟩ := State.bindOrder_last (s := reserved) (o := o) (l := s.sch.pool) (by rw [hsch.1]) hfree
  refine ⟨reserved.bindOrder o.id, { o with bound := bound, state := st }, ?_, hpool, hfree, rfl, rfl, rfl, rfl, rfl,
    hsch.2.trans State.bindOrder_schedOnly⟩
  unfold State.createOrder
  exact if_pos hroom

theorem State.createOrder_full {kind : OrderKind} {source dest : Option Place} {volume : Option Nat} {tag : Option Half} {legs : List Leg}
    (hfull : ¬s.sch.pool.length < roomFor kind false) : s.createOrder kind source dest volume tag legs none = none :=
  if_neg hfull

/-! ### A position tested for an import (R156) -/

theorem State.importWanted_iff : s.importWanted p = true ↔ (s.station p).occupied = true ∧ (s.station p).volume = none ∧
    (s.station p).reserved = none ∧ s.equipmentStands (.stationUnknown p) = false ∧ (s.stationAutoImport = true ∨ s.reelAwaited = true) := by
  simp [State.importWanted, and_assoc]

theorem State.testImport_unwanted (h : s.importWanted p = false) : s.testImport p = s.setImportOwed p false := if_neg (by rw [h]; exact Bool.false_ne_true)

theorem State.testImport_owed (h : s.importWanted p = true) (hactive : s.svc.state ≠ .active) : s.testImport p = s.setImportOwed p true := by
  have hservice : ¬s.service = .active := hactive
  unfold State.testImport State.askImport
  rw [if_pos h, if_neg hservice]

/-- An IMPORT is created in ACTIVE with room in the pool, and the position reserved for it. -/
theorem State.testImport_created (h : s.importWanted p = true) (hactive : s.svc.state = .active) (hroom : s.sch.pool.length < 28) :
    ∃ o, (s.testImport p).sch.pool = s.sch.pool ++ [o] ∧ o.kind = .handIn ∧ o.source = some (.station p) ∧
      ((s.testImport p).station p).reserved = some o.id ∧ ((s.testImport p).station p).importOwed = false := by
  have hservice : s.service = .active := hactive
  obtain ⟨w, o, hcreated, hpool, _, hkind, hsource, _, _, _, _⟩ := State.createOrder_room (s := s) (kind := .handIn)
    (source := some (.station p)) (dest := none) (volume := none) (tag := none) (legs := [.travel (some (stationColumn p)), .pick (.station p)])
    hroom
  have htested : s.testImport p = (w.reserve p o.id).setImportOwed p false := by
    unfold State.testImport State.askImport State.createImport
    rw [if_pos h, if_pos hservice, hcreated]
    rfl
  refine ⟨o, by rw [htested]; exact hpool, hkind, hsource, ?_, ?_⟩
  · rw [htested, State.setImportOwed, State.updStation_station_self, State.reserve, State.updStation_station_self]
  · rw [htested, State.setImportOwed, State.updStation_station_self]

/-! ### A prompt that leaves the list (R131) -/

/-- The prompts once a prompt has left the list, before the owed ones are tested. -/
def State.prWithout (s : State) (n : Nat) (line : Bool) : PromptBlock :=
  let pr := { s.pr with list := s.pr.list.filter (fun q => q.number != n) }
  if line then { pr with withdrawals :=
    if Config.maxWithdrawals < (s.pr.withdrawals ++ [n]).length then (s.pr.withdrawals ++ [n]).tail else s.pr.withdrawals ++ [n] }
  else pr

/-- The state once a prompt has left the list, its request PROMPTED no more, its line waiting. -/
def State.offList (s : State) (n : Nat) (line : Bool) : State :=
  let s := ({ s with pr := { s.pr with list := s.pr.list.filter (fun q => q.number != n) } }).unprompt n
  let s := (s.raise .promptClosed).attend none
  if line then s.queueWithdrawal n else s

/-- The position of a STATION_UNKNOWN that leaves the list is to be tested (R156). -/
def State.tellPosition (s : State) (q : Prompt) : State :=
  match q.kind, q.position with
  | .stationUnknown, some p => s.notify (.importTest p)
  | _, _ => s

theorem State.offList_pr {line : Bool} : (s.offList n line).pr = s.prWithout n line := by
  unfold State.offList State.prWithout
  cases line
  · exact State.attend_pr
  · dsimp only
    rw [if_pos rfl, State.queueWithdrawal, State.attend_pr]
    rfl

theorem State.tellPosition_pr {q : Prompt} : (s.tellPosition q).pr = s.pr := by
  unfold State.tellPosition
  split
  · exact State.notify_pr
  · rfl

theorem State.leaveList_some {line : Bool} {q : Prompt} (hq : s.prompt? n = some q) :
    s.leaveList n line = ((s.offList n line).tellPosition q).testOwed s.pr.owed := by
  have howed : ((s.offList n line).tellPosition q).pr.owed = s.pr.owed := by
    rw [State.tellPosition_pr, State.offList_pr]
    unfold State.prWithout
    cases line <;> rfl
  rw [← howed]
  unfold State.leaveList
  rw [hq]
  rfl

theorem State.leaveList_none {line : Bool} (hq : s.prompt? n = none) : s.leaveList n line = s := by
  unfold State.leaveList
  rw [hq]

theorem State.testOwed_withdrawals {l : List Equipment} : (s.testOwed l).pr.withdrawals = s.pr.withdrawals := by
  induction l with
  | nil => rfl
  | cons e rest ih =>
    unfold State.testOwed
    split
    · simp [State.issue]
    · exact ih

/-- A prompt withdrawn has its line wait. -/
theorem State.withdraw_waits (h : (s.prompt? n).isSome = true) : n ∈ (s.withdraw n).pr.withdrawals := by
  obtain ⟨q, hq⟩ := Option.isSome_iff_exists.mp h
  rw [State.withdraw, State.leaveList_some hq, State.testOwed_withdrawals, State.tellPosition_pr, State.offList_pr]
  unfold State.prWithout
  dsimp only
  rw [if_pos rfl]
  dsimp only
  split
  · rename_i hlong
    rw [List.tail_append_of_ne_nil]
    · exact List.mem_append_right _ (List.mem_singleton.mpr rfl)
    · intro hnil
      rw [hnil] at hlong
      simp [Config.maxWithdrawals] at hlong
  · exact List.mem_append_right _ (List.mem_singleton.mpr rfl)

theorem prompt?_filtered {list : List Prompt} : (list.filter (fun q => q.number != n)).find? (fun q => q.number == n) = none := by
  rw [List.find?_eq_none]
  intro q hq hnumber
  have hother := (List.mem_filter.mp hq).2
  rw [bne, hnumber] at hother
  cases hother

/-- A prompt that has left the list, with no owed prompt, is outstanding no more. -/
theorem State.leaveList_prompt? {line : Bool} (howed : s.pr.owed = []) : (s.leaveList n line).prompt? n = none := by
  cases hq : s.prompt? n with
  | none =>
    rw [State.leaveList_none hq]
    exact hq
  | some q =>
    rw [State.leaveList_some hq, howed]
    have hlist : (((s.offList n line).tellPosition q).testOwed []).pr.list = s.pr.list.filter (fun q => q.number != n) := by
      change ((s.offList n line).tellPosition q).pr.list = _
      rw [State.tellPosition_pr, State.offList_pr]
      unfold State.prWithout
      cases line <;> rfl
    unfold State.prompt?
    rw [hlist]
    exact prompt?_filtered

theorem prompt?_isSome_of_mem {q : Prompt} (hq : q ∈ s.pr.list) : (s.prompt? q.number).isSome = true :=
  List.find?_isSome.mpr ⟨q, hq, beq_self_eq_true q.number⟩

/-- The equipment prompt of a thing that ends is withdrawn. -/
theorem State.endEquipment_some {e : Equipment} {q : Prompt} (h : s.pr.list.find? (·.isFor e) = some q) :
    s.endEquipment e = s.withdraw q.number := by
  unfold State.endEquipment
  rw [h]

/-! ### The presence of a position (O58) -/

theorem State.inputLevel_due {i : RailInput} {level : Bool} (h : inputDue s i level) : s.inputLevel i level = some (s.setInput i level level none) := by
  cases i <;> exact if_pos h

theorem State.inputLevel_none {i : RailInput} {level : Bool} (h : ¬inputDue s i level) : s.inputLevel i level = none := by
  cases i <;> exact if_neg h

/-- A change of an input that is due acts on the levels taken. -/
theorem State.inputChange_due {i : RailInput} {level : Bool} {f : State → State} (h : inputDue s i level) :
    (s.inputChange i level f).finishStep = (s.afterAct (f (s.setInput i level level none))).finishStep := by
  unfold State.inputChange
  rw [State.inputLevel_due h]
  rfl

/-- A change of an input that is not due leaves a settled state as it is. -/
theorem State.Settled.inputChange_none (hs : s.Settled) {i : RailInput} {level : Bool} {f : State → State} (h : ¬inputDue s i level) :
    (s.inputChange i level f).finishStep = s := by
  unfold State.inputChange
  rw [State.inputLevel_none h]
  exact State.finishStep_of_settled hs

theorem exec_presenceRise (h : inputDue s (.presence p) true) :
    s.ActsBy (.presenceRise p) ((s.setInput (.presence p) true true none).onPresenceRise p) :=
  congrArg Host.Outcome.next (State.inputChange_due h)

theorem exec_presenceFall (h : inputDue s (.presence p) false) :
    s.ActsBy (.presenceFall p) ((s.setInput (.presence p) false false none).onPresenceFall p) :=
  congrArg Host.Outcome.next (State.inputChange_due h)

theorem State.Settled.presence_none (hs : s.Settled) : (¬inputDue s (.presence p) true → exec (.presenceRise p) s = .next s) ∧
    (¬inputDue s (.presence p) false → exec (.presenceFall p) s = .next s) :=
  ⟨fun h => congrArg Host.Outcome.next (hs.inputChange_none h), fun h => congrArg Host.Outcome.next (hs.inputChange_none h)⟩

/-- The position with its presence taken, and STATION raised. -/
def State.presenceTaken (s : State) (p : Fin 8) (level : Bool) : State := (s.setInput (.presence p) level level none).raise .station

theorem State.presenceTaken_station {level : Bool} : (s.presenceTaken p level).station p =
    { s.station p with raw := level, presence := level, interval := none } := by
  unfold State.presenceTaken
  rw [State.raise_station]
  exact State.updStation_station_self

/-- An act keeps the plain events raised. -/
theorem Keeps.flag {L : Law → Prop} (h : Keeps L s t) (x : Event) (hraised : s.port.flags.getLsbD x.position = true) :
    t.port.flags.getLsbD x.position = true := by
  have hbits := congrArg (fun f => BitVec.getLsbD f x.position) h.flags
  have hplain : plainPositions.getLsbD x.position = true := by cases x <;> decide
  simp only [BitVec.getLsbD_and, hraised, hplain, Bool.and_self, Bool.true_and] at hbits
  exact hbits

theorem Keeps.presence {L : Law → Prop} (h : Keeps L s t) : (t.station p).presence = (s.station p).presence :=
  congrArg (fun w => w.2.1) (h.stations p)

/-- What a presence rise does once its presence is taken. -/
theorem State.onPresenceRise_eq {level : Bool} : (s.setInput (.presence p) level level none).onPresenceRise p =
    if (s.station p).lifted then (s.presenceTaken p level).updStation p (fun x => { x with lifted := false })
    else if (s.station p).reserved.isSome ∨ (s.station p).volume.isSome ∨ s.equipmentStands (.stationUnknown p) then s.presenceTaken p level
    else (s.presenceTaken p level).testImport p := by
  unfold State.onPresenceRise
  change (if ((s.presenceTaken p level).station p).lifted then _ else if ((s.presenceTaken p level).station p).reserved.isSome ∨
    ((s.presenceTaken p level).station p).volume.isSome ∨ s.equipmentStands (.stationUnknown p) then _ else _) = _
  rw [State.presenceTaken_station]
  rfl

theorem State.onPresenceRise_kept : ((s.setInput (.presence p) true true none).onPresenceRise p).port.flags.getLsbD 9 = true ∧
    (((s.setInput (.presence p) true true none).onPresenceRise p).station p).presence = true := by
  have hflag : (s.presenceTaken p true).port.flags.getLsbD 9 = true := State.raise_flag (e := .station)
  have hpresence : ((s.presenceTaken p true).station p).presence = true := by rw [State.presenceTaken_station]
  rw [State.onPresenceRise_eq]
  split
  · exact ⟨hflag, by rw [State.updStation_station_self]; exact hpresence⟩
  · split
    · exact ⟨hflag, hpresence⟩
    · have hkept := Keeps.testImport (L := noLaw) (Keeps.refl (s.presenceTaken p true)) (p := p)
      exact ⟨hkept.flag .station hflag, hkept.presence.trans hpresence⟩

/-- A presence rise at a position that nothing stands at is tested for an import. -/
theorem State.presenceTaken_wanted (hlifted : (s.station p).lifted = false) (hreserved : (s.station p).reserved = none)
    (hvolume : (s.station p).volume = none) (hstands : s.equipmentStands (.stationUnknown p) = false) :
    (s.presenceTaken p true).importWanted p = (s.stationAutoImport || s.reelAwaited) := by
  have hsame : (s.presenceTaken p true).equipmentStands (.stationUnknown p) = false := hstands
  unfold State.importWanted Station.occupied
  dsimp only
  rw [State.presenceTaken_station, hsame]
  dsimp only
  rw [hlifted, hreserved, hvolume]
  rfl

/-- What a presence fall does once its presence is taken, before the STATION_UNKNOWN of the position ends. -/
def State.fallen (s : State) (p : Fin 8) : State :=
  if (s.station p).lifted then s.updStation p (fun x => { x with lifted := false })
  else match (s.station p).volume with
    | some e => (s.relocate e .outside).clearStationVolume p
    | none => s

/-- The position after a presence fall, before it is told free. -/
def State.emptiedPosition (s : State) (p : Fin 8) : State := ((s.fallen p).endEquipment (.stationUnknown p)).setImportOwed p false

theorem State.onPresenceFall_eq : (s.setInput (.presence p) false false none).onPresenceFall p =
    if ((s.presenceTaken p false).emptiedPosition p).positionFree p then ((s.presenceTaken p false).emptiedPosition p).notifyFree
    else (s.presenceTaken p false).emptiedPosition p := rfl

theorem State.relocate_pr {l : Loc} : (s.relocate e l).pr = s.pr := by
  obtain ⟨dir, g, h, drv, stations, ht⟩ := (State.relocate_named (s := s) (e := e) (l := l)).rest
  rw [ht]

theorem State.fallen_pr : (s.fallen p).pr = s.pr := by
  unfold State.fallen
  split
  · rfl
  · split
    · exact State.relocate_pr
    · rfl

theorem State.fallen_station : ∃ v, (s.fallen p).station p = { s.station p with lifted := false, volume := v } ∧
    ((s.station p).lifted = true → v = (s.station p).volume) ∧ ((s.station p).lifted = false → v = none) := by
  unfold State.fallen
  by_cases hlifted : (s.station p).lifted = true
  · rw [if_pos hlifted, State.updStation_station_self]
    exact ⟨_, rfl, fun _ => rfl, fun h => by rw [h] at hlifted; cases hlifted⟩
  · have hdown : (s.station p).lifted = false := Bool.eq_false_iff.mpr hlifted
    rw [if_neg hlifted]
    refine ⟨none, ?_, fun h => absurd h hlifted, fun _ => rfl⟩
    cases hvolume : (s.station p).volume with
    | none =>
      dsimp only
      rw [← hvolume, ← hdown]
    | some e =>
      obtain ⟨w, hw⟩ := State.relocate_station (s := s) (e := e) (l := .outside) (x := p)
      dsimp only
      rw [State.clearStationVolume, State.updStation_station_self, hw, ← hdown]

theorem State.fallen_dir : ((s.station p).lifted = true → (s.fallen p).dir = s.dir) ∧
    ((s.station p).lifted = false → ∀ e v, (s.station p).volume = some e → s.vol? e = some v →
      (s.fallen p).vol? e = some { v with loc := .outside }) := by
  refine ⟨fun h => ?_, fun h e v hvolume hv => ?_⟩
  · unfold State.fallen
    rw [if_pos h]
    rfl
  · unfold State.fallen
    rw [if_neg (by rw [h]; exact Bool.false_ne_true), hvolume]
    exact State.relocate_vol?_self hv

theorem State.emptiedPosition_station : ∃ v, (s.emptiedPosition p).station p = { s.station p with lifted := false, importOwed := false, volume := v } ∧
    ((s.station p).lifted = true → v = (s.station p).volume) ∧ ((s.station p).lifted = false → v = none) := by
  obtain ⟨v, hv, hlifted, hdown⟩ := State.fallen_station (s := s) (p := p)
  refine ⟨v, ?_, hlifted, hdown⟩
  rw [State.emptiedPosition, State.setImportOwed, State.updStation_station_self, State.endEquipment_aside.station, hv]

theorem State.emptiedPosition_dir : (s.emptiedPosition p).dir = (s.fallen p).dir := State.endEquipment_aside.dir

theorem State.emptiedPosition_withdrawn {q : Prompt} (hq : s.pr.list.find? (·.isFor (.stationUnknown p)) = some q) :
    q.number ∈ (s.emptiedPosition p).pr.withdrawals ∧ (s.pr.owed = [] → (s.emptiedPosition p).prompt? q.number = none) := by
  have hends : (s.fallen p).endEquipment (.stationUnknown p) = (s.fallen p).withdraw q.number :=
    State.endEquipment_some (by rw [State.fallen_pr]; exact hq)
  have hsame : (s.emptiedPosition p).pr = ((s.fallen p).withdraw q.number).pr := by
    rw [State.emptiedPosition, hends]
    rfl
  refine ⟨?_, fun howed => ?_⟩
  · rw [hsame]
    exact State.withdraw_waits (prompt?_isSome_of_mem (by rw [State.fallen_pr]; exact List.mem_of_find?_eq_some hq))
  · unfold State.prompt?
    rw [hsame]
    exact State.leaveList_prompt? (by rw [State.fallen_pr]; exact howed)

theorem Keeps.emptiedPosition {L : Law → Prop} (h : Keeps L s t) : Keeps L s (t.emptiedPosition p) := by
  have hfallen : Keeps L s (t.fallen p) := by
    unfold State.fallen
    split
    · exact h.updStation (fun _ => rfl)
    · split
      · exact (h.relocate rfl).clearStationVolume
      · exact h
  exact hfallen.endEquipment.setImportOwed

theorem State.notifyFree_notices : Notice.walk ∈ s.notifyFree.notices ∧ Notice.recovers ∈ s.notifyFree.notices := by
  refine ⟨?_, State.mem_notify⟩
  unfold State.notifyFree State.notify
  split
  · rename_i h
    split
    · exact List.contains_iff_mem.mp h
    · exact List.mem_append_left _ (List.contains_iff_mem.mp h)
  · split
    · exact List.mem_append_right _ (List.mem_singleton.mpr rfl)
    · exact List.mem_append_left _ (List.mem_append_right _ (List.mem_singleton.mpr rfl))

@[simp] theorem State.notifyFree_dir : s.notifyFree.dir = s.dir := by simp [State.notifyFree]
@[simp] theorem State.notifyFree_pr : s.notifyFree.pr = s.pr := by simp [State.notifyFree]
@[simp] theorem State.notifyFree_port : s.notifyFree.port = s.port := by simp [State.notifyFree]
@[simp] theorem State.notifyFree_station : s.notifyFree.station p = s.station p := by simp [State.notifyFree]

/-- A position told free stays as it is. -/
theorem State.onPresenceFall_rest :
    let u := (s.setInput (.presence p) false false none).onPresenceFall p
    let w := (s.presenceTaken p false).emptiedPosition p
    (u.positionFree p = true → Notice.walk ∈ u.notices ∧ Notice.recovers ∈ u.notices) ∧ (∀ q, u.station q = w.station q) ∧ u.dir = w.dir ∧
      u.pr = w.pr ∧ u.port = w.port := by
  dsimp only
  rw [State.onPresenceFall_eq]
  generalize (s.presenceTaken p false).emptiedPosition p = w
  split
  · exact ⟨fun _ => State.notifyFree_notices, fun _ => State.notifyFree_station, State.notifyFree_dir, State.notifyFree_pr, State.notifyFree_port⟩
  · rename_i h
    exact ⟨fun hfree => absurd hfree h, fun _ => rfl, rfl, rfl, rfl⟩

/-- Settles O58: the rise by `State.onPresenceRise_eq` and the tests of an import, the fall by `State.onPresenceFall_eq`. -/
theorem presenceChanges : Obligations.PresenceChanges := by
  refine ⟨fun s p hs => hs.presence_none, fun s p hdue => ?rise, fun s p hdue => ?fall⟩
  case rise =>
    intro x t
    obtain ⟨hflag, hpresence⟩ := State.onPresenceRise_kept (s := s) (p := p)
    refine ⟨_, exec_presenceRise hdue, hflag, hpresence, fun hlifted => ?_, fun hdown hstands => ?_,
      fun hdown hreserved hvolume hstands => ?_⟩
    · rw [State.onPresenceRise_eq, if_pos hlifted]
      rfl
    · rw [State.onPresenceRise_eq, if_neg (by rw [hdown]; exact Bool.false_ne_true), if_pos hstands]
      rfl
    · have hwanted := State.presenceTaken_wanted hdown hreserved hvolume hstands
      have hnothing : ¬((s.station p).reserved.isSome = true ∨ (s.station p).volume.isSome = true ∨
          s.equipmentStands (.stationUnknown p) = true) := by
        rw [hreserved, hvolume, hstands]
        simp
      rw [State.onPresenceRise_eq, if_neg (by rw [hdown]; exact Bool.false_ne_true), if_neg hnothing]
      refine ⟨fun hauto hawaited => ?_, fun hasked hactive => ?_, fun hasked hactive hroom => ?_⟩
      · exact State.testImport_unwanted (by rw [hwanted, hauto, hawaited]; rfl)
      · exact State.testImport_owed (by rw [hwanted, Bool.or_eq_true]; exact hasked) hactive
      · exact State.testImport_created (by rw [hwanted, Bool.or_eq_true]; exact hasked) hactive hroom
  case fall =>
    intro x
    have hstation := State.presenceTaken_station (s := s) (p := p) (level := false)
    have hflag : (s.presenceTaken p false).port.flags.getLsbD 9 = true := State.raise_flag (e := .station)
    obtain ⟨v, hv, hlifted, hdown⟩ := State.emptiedPosition_station (s := s.presenceTaken p false) (p := p)
    obtain ⟨hplace, hlost⟩ := State.fallen_dir (s := s.presenceTaken p false) (p := p)
    have hkept := (Keeps.emptiedPosition (L := noLaw) (Keeps.refl (s.presenceTaken p false)) (p := p)).flag .station hflag
    rw [hstation] at hv hlifted hdown hplace hlost
    obtain ⟨hnotices, hstations, hdir, hpr, hport⟩ := State.onPresenceFall_rest (s := s) (p := p)
    have hposition := (hstations p).trans hv
    refine ⟨_, exec_presenceFall hdue, by rw [hport]; exact hkept, by rw [hposition], by rw [hposition], by rw [hposition], hnotices,
      fun h => ⟨?_, ?_⟩, fun h => ⟨?_, fun e w hvolume hw => ⟨_, ?_, rfl⟩⟩, fun q hq => ⟨?_, fun howed => ?_⟩⟩
    · rw [hdir, State.emptiedPosition_dir, hplace h]
      rfl
    · rw [hposition]
      exact hlifted h
    · rw [hposition]
      exact hdown h
    · unfold State.vol?
      rw [hdir, State.emptiedPosition_dir]
      exact hlost h e w hvolume hw
    · rw [hpr]
      exact (State.emptiedPosition_withdrawn (s := s.presenceTaken p false) hq).1
    · unfold State.prompt?
      rw [hpr]
      exact (State.emptiedPosition_withdrawn (s := s.presenceTaken p false) hq).2 howed

end Sys2Proof.Machine
end

section
/-! PROOFS. What the operations of the blocks leave of the arms' states, and the door (O57). -/

namespace Sys2Proof.Machine

variable {s t u : State} {a b : ArmId} {d : Fin 16} {p : Fin 8} {n : Nat} {o : Order}

/-! ### Operations that leave the arms as they stand -/

/-- The state of an arm with its outstanding item, its stop and its pending failure. -/
def Arm.bearing (x : Arm) : ArmState × Bool × Option Outstanding × Option Failure := (x.state, x.stopped, x.outstanding, x.failure)

/-- The arms bear themselves as before, and no claim is made. -/
structure Steady (s t : State) : Prop where
  arms : ∀ a, (t.arm a).bearing = (s.arm a).bearing
  claims : s.sch.claims = [] → t.sch.claims = []

theorem Steady.refl (s : State) : Steady s s := ⟨fun _ => rfl, id⟩

theorem Steady.trans (h : Steady s t) (k : Steady t u) : Steady s u :=
  ⟨fun a => (k.arms a).trans (h.arms a), fun hs => k.claims (h.claims hs)⟩

/-- A change that leaves the arms and the claims. -/
theorem Steady.of_arms (h : Steady s t) (ha : u.sch.armA = t.sch.armA) (hb : u.sch.armB = t.sch.armB) (hc : u.sch.claims = t.sch.claims) :
    Steady s u := by
  refine h.trans ⟨fun a => ?_, fun hs => by rw [hc]; exact hs⟩
  cases a <;> simp only [State.arm, ha, hb]

theorem Steady.of_sch (h : Steady s t) (hsch : u.sch = t.sch) : Steady s u := h.of_arms (by rw [hsch]) (by rw [hsch]) (by rw [hsch])

theorem Steady.ite (h : Steady s t) (k : Steady s u) {c : Prop} [Decidable c] : Steady s (if c then t else u) := by
  split
  · exact h
  · exact k

/-- A change of what an arm has in hand besides. -/
theorem Steady.updArm (h : Steady s t) {f : Arm → Arm} (hf : ∀ x, (f x).bearing = x.bearing) : Steady s (t.updArm a f) := by
  refine h.trans ⟨fun b => ?_, fun hs => ?_⟩
  · by_cases hab : b = a
    · subst hab
      rw [State.updArm_arm_self]
      exact hf _
    · rw [State.updArm_arm_ne hab]
  · cases a <;> exact hs

theorem Steady.foldl {α : Type} {f : State → α → State} (hf : ∀ u x, Steady u (f u x)) (h : Steady s t) (l : List α) :
    Steady s (l.foldl f t) := by
  induction l generalizing t with
  | nil => exact h
  | cons x l ih => exact ih (h.trans (hf t x))

theorem Steady.notify (h : Steady s t) {m : Notice} : Steady s (t.notify m) := h.of_sch State.notify_sch

theorem Steady.updOrder (h : Steady s t) {f : Order → Order} : Steady s (t.updOrder n f) := h.of_arms rfl rfl rfl

theorem Steady.dropOrder (h : Steady s t) : Steady s (t.dropOrder n) := h.of_arms rfl rfl rfl

theorem Steady.updStation (h : Steady s t) {f : Station → Station} : Steady s (t.updStation p f) := h.of_sch rfl

theorem Steady.updAudit (h : Steady s t) {f : AuditBlock → AuditBlock} : Steady s (t.updAudit f) := h.of_sch rfl

theorem Steady.withdrawClaim (h : Steady s t) : Steady s (t.withdrawClaim a) := by
  refine h.trans ⟨fun b => by cases b <;> rfl, fun hs => ?_⟩
  simp [State.withdrawClaim, hs]

theorem Steady.unreserve (h : Steady s t) : Steady s (t.unreserve n) := by
  refine Steady.foldl (fun u p => ?_) h _
  exact ((Steady.refl u).updStation.notify).ite (Steady.refl u)

theorem Steady.untake (h : Steady s t) : Steady s (t.untake a) := by
  unfold State.untake
  apply Steady.notify
  apply Steady.updArm
  · exact h.withdrawClaim
  · exact fun _ => rfl

theorem Steady.removeOrder (h : Steady s t) : Steady s (t.removeOrder n) := by
  unfold State.removeOrder
  dsimp only
  split
  · exact h.untake.dropOrder.unreserve
  · exact h.dropOrder.unreserve

theorem Steady.closeOrder (h : Steady s t) {ok : Bool} {cause : Option Cause} {door : Bool} {leg : Option Leg} :
    Steady s (t.closeOrder n ok cause door leg) := by
  unfold State.closeOrder
  split
  · exact h
  · rename_i closed _
    have htold {w : State} (k : Steady s w) {m : Notice} : Steady s (((w.notify m).notify .walk).notify .recovers) :=
      k.notify.notify.notify
    have hleft {id : Nat} {kind : OrderKind} : Steady s (if kind = .handIn then t.dropOrder n else (t.dropOrder n).unreserve id) :=
      Steady.ite h.dropOrder h.dropOrder.unreserve
    dsimp only
    generalize hw : (if closed.kind = .handIn then t.dropOrder n else (t.dropOrder n).unreserve n) = w
    have hkept : Steady s w := hw ▸ hleft
    split
    · exact Steady.notify (htold hkept)
    · exact htold hkept

/-- The end of an order that is no RECOVER takes no arm out of service. -/
theorem Steady.endOrder (h : Steady s t) {ok : Bool} {cause : Option Cause} (hkind : o.kind ≠ .recover) :
    Steady s (t.endOrder a o ok cause) := by
  unfold State.endOrder
  dsimp only
  rw [if_neg (by simp [hkind])]
  apply Steady.notify
  apply Steady.updArm
  · exact h.closeOrder.withdrawClaim
  · exact fun _ => rfl

theorem Steady.cutOrder (h : Steady s t) (hkind : ∀ o, t.order? n = some o → o.kind ≠ .recover) : Steady s (t.cutOrder a n) := by
  unfold State.cutOrder
  split
  · exact h
  · rename_i o ho
    split
    · exact h
    · dsimp only
      apply Steady.ite
      · exact h.updOrder
      · apply Steady.endOrder
        · exact h.updOrder
        · exact hkind o ho

theorem Steady.bindOrder (h : Steady s t) : Steady s (t.bindOrder n) := by
  unfold State.bindOrder
  split
  · exact h
  · dsimp only
    split
    · exact h.updOrder.notify
    · exact h.updOrder

theorem Steady.reserveDest (h : Steady s t) {dest : Option Place} : Steady s (t.reserveDest n dest) := by
  unfold State.reserveDest
  split
  · exact h.updStation
  · exact h

theorem Steady.createOrder (h : Steady s t) {kind : OrderKind} {source dest : Option Place} {volume : Option Nat} {tag : Option Half}
    {legs : List Leg} {arm : Option ArmId} {x : State × Nat} (e : t.createOrder kind source dest volume tag legs arm = some x) :
    Steady s x.1 := by
  unfold State.createOrder at e
  split at e
  · cases e
    have hjoined {id next : Nat} {o : Order} :
        Steady s ({ t with sch := { t.sch with pool := t.sch.pool ++ [o], nextId := next } }.reserveDest id dest) :=
 by
      apply Steady.reserveDest
      exact h.of_arms rfl rfl rfl
    dsimp only
    split
    · exact hjoined.notify
    · exact hjoined.bindOrder
  · cases e

theorem Steady.askScan (h : Steady s t) : Steady s t.askScan := by
  unfold State.askScan
  split
  · exact h
  · dsimp only
    split
    · rename_i made
      split at made
      · split at made
        · cases made
        · exact (h.createOrder made).updAudit
      · cases made
    · exact h.updAudit

theorem Steady.beginAudit (h : Steady s t) {first last : Nat} : Steady s (t.beginAudit first last) := h.updAudit.askScan

theorem Steady.askFullAudit (h : Steady s t) : Steady s t.askFullAudit := by
  unfold State.askFullAudit
  split
  · exact h.beginAudit
  · exact h.updAudit
  · exact h

theorem Steady.retryScan (h : Steady s t) : Steady s t.retryScan := by
  unfold State.retryScan
  split
  · exact h.askScan
  · exact h

theorem Steady.finishAbort (h : Steady s t) : Steady s t.finishAbort := by
  have hended : Steady s (t.endAudit .aborted) := h.of_sch rfl
  exact hended.beginAudit.ite hended

/-- The abort of an audit, with no RECOVER in the pool. -/
theorem Steady.abortAudit (h : Steady s t) (hpool : ∀ o ∈ t.sch.pool, o.kind ≠ .recover) : Steady s t.abortAudit := by
  unfold State.abortAudit
  split
  · exact h
  · dsimp only
    split
    · exact h.updAudit.finishAbort
    · split
      · exact h.updAudit.ite h.updAudit.finishAbort
      · split
        · exact h.updAudit
        · split
          · exact h.updAudit.updAudit.cutOrder (fun o ho => hpool o (List.mem_of_find?_eq_some ho))
          · exact h.updAudit.updAudit.removeOrder.finishAbort

/-! ### The arms at a door opening (R111) -/

theorem State.sendArm_stop_arm : (s.sendArm a .stop).arm b = s.arm b := by
  unfold State.sendArm
  dsimp only
  split
  · exact State.setArmPort_arm
  · exact State.setArmPort_arm

theorem State.placeFailed_arm : (s.placeFailed d).arm b = s.arm b := by cases b <;> simp [State.arm]

theorem State.dropLegs_arm : (s.dropLegs a).arm b = s.arm b := by
  unfold State.dropLegs
  exact (foldl_part (g := fun u => u.arm b) (fun _ _ => State.placeFailed_arm) _ _).trans State.setArmPort_arm

theorem State.sendStop_arm_self : (s.sendStop a).arm a = { s.arm a with outstanding := none } := by
  unfold State.sendStop
  dsimp only
  rw [State.sendArm_stop_arm, State.setArmPort_arm]
  split
  · rw [State.placeFailed_arm, State.updArm_arm_self, State.dropLegs_arm]
  · rw [State.updArm_arm_self, State.dropLegs_arm]

theorem State.sendStop_arm_ne (h : b ≠ a) : (s.sendStop a).arm b = s.arm b := by
  unfold State.sendStop
  dsimp only
  rw [State.sendArm_stop_arm, State.setArmPort_arm]
  split
  · rw [State.placeFailed_arm, State.updArm_arm_ne h, State.dropLegs_arm]
  · rw [State.updArm_arm_ne h, State.dropLegs_arm]

/-- The failure that a stop leaves pending at an arm (R111). -/
def Arm.stopFailure (x : Arm) : Option Failure :=
  match x.outstanding with
  | some (.leg l volume _ _) => some ⟨l, volume, .door, true⟩
  | _ => x.failure.map (fun f => { f with door := true })

theorem State.stopArm_arm_self : (s.stopArm a).arm a =
    { s.arm a with outstanding := none, failure := (s.arm a).stopFailure, stopped := true, putBack := none } := by
  unfold State.stopArm
  dsimp only
  rw [State.updArm_arm_self, State.sendStop_arm_self]
  rfl

theorem State.stopArm_arm_ne (h : b ≠ a) : (s.stopArm a).arm b = s.arm b := by
  unfold State.stopArm
  dsimp only
  rw [State.updArm_arm_ne h, State.sendStop_arm_ne h]

theorem State.faultArm_arm_self : ((s.faultArm a).arm a).bearing =
    (if faultable (s.arm a).state then .faulted else (s.arm a).state, (s.arm a).stopped, (s.arm a).outstanding, (s.arm a).failure) := by
  unfold State.faultArm
  split
  · rename_i h
    rw [State.updArm_arm_self]
    cases a <;> simp [Arm.bearing, State.withdrawClaim, State.arm]
  · simp [Arm.bearing]

theorem State.faultArm_arm_ne (h : b ≠ a) : (s.faultArm a).arm b = s.arm b := by
  unfold State.faultArm
  split
  · rw [State.updArm_arm_ne h]
    cases b <;> rfl
  · rfl

theorem State.faultArm_claims (h : s.sch.claims = []) : (s.faultArm a).sch.claims = [] := by
  unfold State.faultArm
  split
  · have hclaims : (s.withdrawClaim a).sch.claims = [] := by simp [State.withdrawClaim, h]
    cases a <;> exact hclaims
  · exact h

theorem State.faultArm_pool : (s.faultArm a).sch.pool = s.sch.pool := by
  unfold State.faultArm
  split
  · cases a <;> rfl
  · rfl

theorem Steady.doorFails (h : Steady s t) : Steady s (t.doorFails o) := by
  have hleft {w : State} (k : Steady s w) {onDrive : Bool} : Steady s (w.leaveRecover o onDrive) := by
    unfold State.leaveRecover
    split
    · exact k.of_sch rfl
    · exact k
  unfold State.doorFails
  split
  · dsimp only
    split
    · have hreleft {d : Fin 16} {onDrive : Bool} : Steady s ((((t.dropOrder o.id).unreserve o.id).leaveRecover o onDrive).oweRecover d true) :=
        Steady.of_arms (hleft h.dropOrder.unreserve) rfl rfl rfl
      split
      · exact hreleft
      · exact hleft h.dropOrder.unreserve
    · exact h.dropOrder.unreserve
  · split
    · exact h.closeOrder
    · exact h

@[simp] theorem State.unreserve_sch : (s.unreserve n).sch = s.sch := by
  unfold State.unreserve
  refine foldl_part (g := State.sch) (fun u p => ?_) _ _
  split
  · exact State.notify_sch
  · rfl

theorem State.closeOrder_sch {ok : Bool} {cause : Option Cause} {door : Bool} {leg : Option Leg} :
    (s.closeOrder n ok cause door leg).sch = if (s.order? n).isSome then (s.dropOrder n).sch else s.sch := by
  unfold State.closeOrder
  cases s.order? n with
  | none => rfl
  | some closed =>
    have hleft : (if closed.kind = .handIn then s.dropOrder n else (s.dropOrder n).unreserve n).sch = (s.dropOrder n).sch := by
      split
      · rfl
      · exact State.unreserve_sch
    dsimp only [Option.isSome]
    rw [if_pos rfl, ← hleft]
    generalize (if closed.kind = .handIn then s.dropOrder n else (s.dropOrder n).unreserve n) = w
    split <;> simp only [State.notify_sch]

theorem State.closeOrder_pool {ok : Bool} {cause : Option Cause} {door : Bool} {leg : Option Leg} {q : Order}
    (hq : q ∈ (s.closeOrder n ok cause door leg).sch.pool) : q ∈ s.sch.pool := by
  rw [State.closeOrder_sch] at hq
  split at hq
  · exact (List.mem_filter.mp hq).1
  · exact hq

theorem State.leaveRecover_sch {onDrive : Bool} : (s.leaveRecover o onDrive).sch = s.sch := by
  unfold State.leaveRecover
  split <;> rfl

/-- What a door opening does to an order drops a RECOVER, and adds none (R111). -/
theorem State.doorFails_pool {q : Order} (hq : q ∈ (s.doorFails o).sch.pool) : q ∈ s.sch.pool ∧ (o.kind = .recover → q.id ≠ o.id) := by
  unfold State.doorFails at hq
  split at hq
  · have hdropped : q ∈ (s.dropOrder o.id).sch.pool := by
      dsimp only at hq
      split at hq
      · split at hq
        · change q ∈ (State.leaveRecover _ o _).sch.pool at hq
          rwa [State.leaveRecover_sch, State.unreserve_sch] at hq
        · rwa [State.leaveRecover_sch, State.unreserve_sch] at hq
      · rwa [State.unreserve_sch] at hq
    obtain ⟨hmem, hid⟩ := List.mem_filter.mp hdropped
    exact ⟨hmem, fun _ => bne_iff_ne.mp hid⟩
  · rename_i hkind
    refine ⟨?_, fun h => absurd h hkind⟩
    split at hq
    · exact State.closeOrder_pool hq
    · exact hq

theorem State.doorFails_all {q : Order} (l : List Order) (hq : q ∈ (l.foldl State.doorFails s).sch.pool) :
    q ∈ s.sch.pool ∧ ∀ o ∈ l, o.kind = .recover → q.id ≠ o.id := by
  induction l generalizing s with
  | nil => exact ⟨hq, fun o ho => by cases ho⟩
  | cons x l ih =>
    obtain ⟨hmem, hrest⟩ := ih hq
    obtain ⟨hpool, hfirst⟩ := State.doorFails_pool hmem
    refine ⟨hpool, fun o ho => ?_⟩
    rcases List.mem_cons.mp ho with rfl | ho
    · exact hfirst
    · exact hrest o ho

/-! ### The door (O57) -/

/-- The state in which the door's opening finds the arms. -/
def State.opened (s : State) : State := (s.enterService .interrupted).clearHomingOwed

theorem State.opened_sch : s.opened.sch = s.sch := rfl

/-- The pool at a door opening once its orders have ended, the claims emptied. -/
def State.stoppedArms (s : State) : State :=
  let s := (s.stopArm .armA).stopArm .armB
  let s := s.sch.pool.foldl State.doorFails s
  { s with sch := { s.sch with claims := [] } }

theorem State.doorStopsArms_eq : s.doorStopsArms = (s.stoppedArms.faultArm .armA).faultArm .armB := rfl

/-- No RECOVER is left in the pool. -/
theorem State.doorStopsArms_pool : ∀ q ∈ s.doorStopsArms.sch.pool, q.kind ≠ .recover := by
  intro q hq hkind
  rw [State.doorStopsArms_eq, State.faultArm_pool, State.faultArm_pool] at hq
  obtain ⟨hmem, hids⟩ := State.doorFails_all _ hq
  exact hids q hmem hkind rfl

theorem State.doorStopsArms_claims : s.doorStopsArms.sch.claims = [] := by
  rw [State.doorStopsArms_eq]
  exact State.faultArm_claims (State.faultArm_claims rfl)

/-- How an arm bears itself after a door opening. -/
theorem State.doorStopsArms_arm : (s.doorStopsArms.arm a).bearing =
    (if faultable (s.arm a).state then .faulted else (s.arm a).state, true, none, (s.arm a).stopFailure) := by
  have hstopped : (s.stoppedArms.arm a).bearing = (((s.stopArm .armA).stopArm .armB).arm a).bearing := by
    have hfold := (Steady.foldl (f := State.doorFails) (fun u _ => Steady.doorFails (Steady.refl u)) (Steady.refl ((s.stopArm .armA).stopArm .armB))
      ((s.stopArm .armA).stopArm .armB).sch.pool).arms a
    rw [← hfold]
    cases a <;> rfl
  have hstop : (((s.stopArm .armA).stopArm .armB).arm a).bearing = ((s.arm a).state, true, none, (s.arm a).stopFailure) := by
    cases a
    · rw [State.stopArm_arm_ne (by decide), State.stopArm_arm_self]
      rfl
    · rw [State.stopArm_arm_self, State.stopArm_arm_ne (by decide)]
      rfl
  have hfault {w : State} {st : ArmState} {f : Option Failure} (h : (w.arm a).bearing = (st, true, none, f)) :
      ((w.faultArm a).arm a).bearing = (if faultable st then .faulted else st, true, none, f) := by
    rw [State.faultArm_arm_self]
    simp only [Arm.bearing, Prod.mk.injEq] at h
    obtain ⟨hstate, hstop, hout, hfailure⟩ := h
    rw [hstate, hstop, hout, hfailure]
  rw [State.doorStopsArms_eq]
  cases a
  · rw [State.faultArm_arm_ne (by decide)]
    exact hfault (hstopped.trans hstop)
  · apply hfault
    rw [State.faultArm_arm_ne (by decide)]
    exact hstopped.trans hstop

theorem exec_doorOpening (h : inputDue s .door false) : s.ActsBy .doorOpening ((s.setInput .door false false none).doorOpens) :=
  congrArg Host.Outcome.next (State.inputChange_due h)

theorem exec_doorClosing (h : inputDue s .door true) : s.ActsBy .doorClosing ((s.setInput .door true true none).doorCloses) :=
  congrArg Host.Outcome.next (State.inputChange_due h)

/-- An interruption of the library by the door (R111, R188). -/
theorem State.interrupt_steady : Steady s.opened.doorStopsArms s.interrupt :=
  Steady.abortAudit (Steady.refl _) State.doorStopsArms_pool

theorem State.sendStop_svc : (s.sendStop a).svc = s.svc := by
  unfold State.sendStop
  dsimp only
  rw [State.sendArm_svc, State.setArmPort_svc]
  split <;> simp

theorem State.stopArm_svc : (s.stopArm a).svc = s.svc := by
  unfold State.stopArm
  dsimp only
  rw [State.updArm_svc, State.sendStop_svc]

theorem State.doorFails_svc : (s.doorFails o).svc = s.svc := by
  unfold State.doorFails State.leaveRecover
  dsimp only
  (repeat' split) <;> simp

theorem State.faultArm_svc : (s.faultArm a).svc = s.svc := by
  unfold State.faultArm
  split <;> simp

theorem State.doorStopsArms_svc : s.doorStopsArms.svc = s.svc := by
  rw [State.doorStopsArms_eq, State.faultArm_svc, State.faultArm_svc]
  refine (foldl_part (f := State.doorFails) (g := State.svc) (fun _ _ => State.doorFails_svc) _ _).trans ?_
  rw [State.stopArm_svc, State.stopArm_svc]

theorem State.interrupt_svc : s.interrupt.svc = ⟨.interrupted, s.svc.doorMark, false, false⟩ := by
  have hsvc : s.opened.doorStopsArms.svc = ⟨.interrupted, s.svc.doorMark, false, false⟩ := State.doorStopsArms_svc
  have howed (a : ArmId) : s.opened.doorStopsArms.homingOwed a = false := by cases a <;> simp only [State.homingOwed, hsvc]
  exact (State.abortAudit_svc howed).trans hsvc

/-- What an interruption of the library leaves of the arms. -/
theorem State.interrupt_arms : s.interrupt.sch.claims = [] ∧ ∀ a, (s.interrupt.arm a).stopped = true ∧ (s.interrupt.arm a).outstanding = none ∧
    ((s.arm a).state ≠ .unhomed → (s.arm a).state ≠ .outOfService → (s.interrupt.arm a).state = .faulted) ∧
    (∀ l volume lo hi, (s.arm a).outstanding = some (.leg l volume lo hi) → (s.interrupt.arm a).failure = some ⟨l, volume, .door, true⟩) := by
  refine ⟨State.interrupt_steady.claims State.doorStopsArms_claims, fun a => ?_⟩
  have hbearing := ((State.interrupt_steady (s := s)).arms a).trans State.doorStopsArms_arm
  simp only [Arm.bearing, Prod.mk.injEq] at hbearing
  obtain ⟨hstate, hstopped, hout, hfailure⟩ := hbearing
  have hsame : s.opened.arm a = s.arm a := rfl
  rw [hsame] at hstate hfailure
  refine ⟨hstopped, hout, fun hhomed hservice => ?_, fun l volume lo hi hleg => ?_⟩
  · rw [hstate]
    generalize (s.arm a).state = st at hhomed hservice
    cases st with
    | unhomed => exact absurd rfl hhomed
    | outOfService => exact absurd rfl hservice
    | homing | idle | running | holding | statusWait | faulted | parked => rfl
  · rw [hfailure, Arm.stopFailure, hleg]

/-! #### The door's closing -/

theorem State.sendArm_home_state : ((s.sendArm a .home).arm b).state = (s.arm b).state := by
  have hline {w : State} : ((w.putOnLine a .home).arm b).state = (w.arm b).state := by
    unfold State.putOnLine
    by_cases hab : b = a
    · subst hab
      rw [State.updArm_arm_self, State.setArmPort_arm]
    · rw [State.updArm_arm_ne hab, State.setArmPort_arm]
  unfold State.sendArm
  dsimp only
  split
  · exact hline
  · rw [State.setArmPort_arm]

/-- An arm that enters HOMING is in that state, and the other stays in its own. -/
theorem State.enterHoming_state : ((s.enterHoming a).arm b).state = if b = a then .homing else (s.arm b).state := by
  have harm {w v : State} (h : w.sch = v.sch) : w.arm b = v.arm b := by cases b <;> simp only [State.arm, h]
  have htold {w : State} {c : Prop} [Decidable c] {m k : Notice} :
      (((if c then w.notify m else w).notify k).arm b) = w.arm b := by
    split
    · exact harm (by simp)
    · exact harm (by simp)
  have hpath {w : State} : (w.takePath a).arm b = w.arm b := by cases b <;> rfl
  have hended : (if (s.arm a).state = .outOfService then s.endEquipment (.armOut a) else s).arm b = s.arm b := by
    split
    · exact harm (by simp)
    · rfl
  unfold State.enterHoming
  dsimp only
  rw [htold, State.sendArm_home_state, hpath]
  by_cases hab : b = a
  · subst hab
    rw [if_pos rfl, State.updArm_arm_self]
  · rw [if_neg hab, State.updArm_arm_ne hab]
    refine Eq.trans (congrArg Arm.state ?_) (congrArg Arm.state hended)
    exact State.withdrawClaim_arm.trans State.dropLegs_arm

theorem State.homeFaulted_state : ((s.homeFaulted a).arm b).state =
    if b = a ∧ (s.arm a).state = .faulted then .homing else (s.arm b).state := by
  have howed : (s.setHomingOwed a true).arm b = s.arm b := by cases a <;> cases b <;> rfl
  unfold State.homeFaulted
  by_cases hfaulted : (s.arm a).state = .faulted
  · rw [if_pos hfaulted, State.enterHoming_state, howed]
    simp [hfaulted]
  · rw [if_neg hfaulted, if_neg (fun h => hfaulted h.2)]

theorem State.homeFaulted_svc : (s.homeFaulted a).svc = if (s.arm a).state = .faulted then (s.setHomingOwed a true).svc else s.svc := by
  unfold State.homeFaulted
  split
  · exact State.enterHoming_svc
  · rfl

theorem Steady.oweRecover (h : Steady s t) {owed : Bool} : Steady s (t.oweRecover d owed) := h.of_arms rfl rfl rfl

theorem Steady.createOwedRecover (h : Steady s t) : Steady s (t.createOwedRecover d) := by
  unfold State.createOwedRecover
  split
  · exact h
  · split
    · exact h.oweRecover
    · split
      · exact h.oweRecover
      · split
        · exact h
        · split
          · rename_i made
            exact (h.createOrder made).oweRecover
          · exact h

@[simp] theorem State.leaveList_sch {line : Bool} : (s.leaveList n line).sch = s.sch := by
  cases hq : s.prompt? n with
  | none => rw [State.leaveList_none hq]
  | some q =>
    have htold {w : State} : (w.tellPosition q).sch = w.sch := by
      unfold State.tellPosition
      split
      · exact State.notify_sch
      · rfl
    rw [State.leaveList_some hq, State.testOwed_sch, htold]
    unfold State.offList
    cases line
    · exact State.attend_sch
    · exact State.attend_sch

@[simp] theorem State.clearAwaiting_sch {tag : Half} : (s.clearAwaiting tag).sch = s.sch := by
  unfold State.clearAwaiting
  refine foldl_part (g := State.sch) (fun u p => ?_) _ _
  split
  · exact State.notify_sch
  · rfl

@[simp] theorem State.withdrawPrompt_sch {tag : Half} : (s.withdrawPrompt tag).sch = s.sch := by
  unfold State.withdrawPrompt
  split
  · rw [State.clearAwaiting_sch]
    exact State.leaveList_sch
  · rfl

@[simp] theorem State.enter_sch {tag : Half} {st : ReqState} {reason : Option WaitReason} : (s.enter tag st reason).sch = s.sch :=
  State.withdrawPrompt_sch (tag := tag)

theorem Steady.joinReturn (h : Steady s t) : Steady s (t.joinReturn d) := by
  have hjoined {tag : Half} {id : Nat} : Steady s (t.joinOrder tag id) := by
    apply Steady.of_sch (t := t.updOrder id (fun o => { o with tag := some tag })) h.updOrder
    exact State.enter_sch (st := .returning) (reason := none)
  unfold State.joinReturn
  split
  · split
    · exact hjoined
    · exact h
  · exact h

theorem Steady.recoverDrives (h : Steady s t) : Steady s t.recoverDrives := by
  have howed : Steady s t.createOwedRecovers := by
    unfold State.createOwedRecovers
    split
    · exact Steady.foldl (fun u _ => (Steady.refl u).createOwedRecover) h _
    · exact h
  exact Steady.foldl (fun u _ => (Steady.refl u).joinReturn) howed _

theorem Steady.afterResuming (h : Steady s t) {opened : Bool} : Steady s (t.afterResuming opened) := by
  unfold State.afterResuming
  apply Steady.recoverDrives
  split
  · exact h.askFullAudit.retryScan.of_sch rfl
  · exact h.retryScan.of_sch rfl

/-- What the door's closing makes of an interrupted library (R188). -/
theorem State.doorCloses_interrupted (h : s.svc.state = .interrupted) : s.doorCloses.svc.state = .resuming ∧ s.doorCloses.svc.doorMark = false ∧
    ∀ a, (s.arm a).state = .faulted → (s.doorCloses.arm a).state = .homing ∧ s.doorCloses.homingOwed a = true := by
  let homed := ((s.enterService .resuming).homeFaulted .armA).homeFaulted .armB
  have hcloses : s.doorCloses = homed.afterResuming true := by
    unfold State.doorCloses State.service
    rw [h]
  have hfirst : ((s.enterService .resuming).homeFaulted .armA).svc =
      if (s.arm .armA).state = .faulted then ⟨.resuming, s.svc.doorMark, true, s.svc.owedB⟩ else ⟨.resuming, s.svc.doorMark, s.svc.owedA, s.svc.owedB⟩ :=
    State.homeFaulted_svc
  have hother : (((s.enterService .resuming).homeFaulted .armA).arm .armB).state = (s.arm .armB).state := by
    rw [State.homeFaulted_state]
    rfl
  have hsvc : homed.svc = ⟨.resuming, s.svc.doorMark, if (s.arm .armA).state = .faulted then true else s.svc.owedA,
      if (s.arm .armB).state = .faulted then true else s.svc.owedB⟩ := by
    refine State.homeFaulted_svc.trans ?_
    rw [hother]
    unfold State.setHomingOwed
    dsimp only
    rw [hfirst]
    split <;> split <;> rfl
  have hend : s.doorCloses.svc = { homed.svc with doorMark := false } := by rw [hcloses, State.afterResuming_svc]
  have harms (a : ArmId) : (s.doorCloses.arm a).state = (homed.arm a).state := by
    rw [hcloses]
    exact congrArg Prod.fst ((Steady.afterResuming (Steady.refl homed)).arms a)
  refine ⟨by rw [hend, hsvc], by rw [hend], fun a hfaulted => ⟨?_, ?_⟩⟩
  · rw [harms, State.homeFaulted_state, hother, State.homeFaulted_state]
    cases a
    · rw [if_neg (fun h => by cases h.1), if_pos ⟨rfl, hfaulted⟩]
    · exact if_pos ⟨rfl, hfaulted⟩
  · cases a
    · unfold State.homingOwed
      rw [hend, hsvc]
      exact if_pos hfaulted
    · unfold State.homingOwed
      rw [hend, hsvc]
      exact if_pos hfaulted

/-- Settles O57: the opening by what an interruption leaves of the arms and the service state, the closing by the homing of the FAULTED arms. -/
theorem doorChanges : Obligations.DoorChanges := by
  refine ⟨fun s hs => ⟨fun h => congrArg Host.Outcome.next (hs.inputChange_none h), fun h => congrArg Host.Outcome.next (hs.inputChange_none h)⟩,
    fun s hdue => ?opening, fun s hdue => ?closing⟩
  case opening =>
    intro t
    have hservice : t.service = s.svc.state := rfl
    have hclosed : t.doorOpens.mon.doorClosed = false := by
      have hdoor := (Keeps.doorOpens (L := noLaw) (Keeps.refl t)).door
      exact congrArg (fun x => x.2.1) hdoor
    refine ⟨_, exec_doorOpening hdue, hclosed, fun h => ?_, fun h => ?_, fun h => ?_⟩
    · change t.doorOpens = t
      unfold State.doorOpens
      rcases h with h | h <;> rw [hservice, h]
    · change t.doorOpens = _
      unfold State.doorOpens
      rw [hservice, h]
      rfl
    · have hinterrupts : s.svc.state ≠ .quiescing → (s.setInput .door false false none).doorOpens = t.interrupt := by
        intro hquiescing
        change t.doorOpens = _
        unfold State.doorOpens
        rcases h with h | h | h | h
        · rw [hservice, h]
        · rw [hservice, h]
        · rw [hservice, h]
        · exact absurd h hquiescing
      by_cases hquiescing : s.svc.state = .quiescing
      · have hmarked : (s.setInput .door false false none).doorOpens = (t.setDoorMark true).interrupt := by
          change t.doorOpens = _
          unfold State.doorOpens
          rw [hservice, hquiescing]
        rw [hmarked]
        refine ⟨?_, State.interrupt_arms (s := t.setDoorMark true)⟩
        rw [State.interrupt_svc, hquiescing]
        simp [State.setDoorMark]
      · rw [hinterrupts hquiescing]
        refine ⟨?_, State.interrupt_arms (s := t)⟩
        rw [State.interrupt_svc, beq_eq_false_iff_ne.mpr hquiescing, Bool.or_false]
  case closing =>
    intro t
    have hservice : t.service = s.svc.state := rfl
    have hclosed : t.doorCloses.mon.doorClosed = true := by
      have hdoor := (Keeps.doorCloses (L := noLaw) (Keeps.refl t)).door
      exact congrArg (fun x => x.2.1) hdoor
    refine ⟨_, exec_doorClosing hdue, hclosed, fun h => ?_, fun h => State.doorCloses_interrupted (s := t) h⟩
    change t.doorCloses = t
    unfold State.doorCloses
    rw [hservice]
    split
    · contradiction
    all_goals rfl

end Sys2Proof.Machine
end

section
/-! PROOFS. The outcomes of a leg (O49). -/

namespace Sys2Proof.Machine

variable {s t u : State} {a b : ArmId} {d : Fin 16} {n : Nat} {l : Leg} {volume : Option Nat} {cause : Cause}

/-! ### The failure of a leg (R103) -/

/-- The arm once its leg has failed, before STATUS is sent. -/
def Arm.failed (x : Arm) (l : Leg) (volume : Option Nat) (cause : Cause) : Arm :=
  { x with state := .statusWait, outstanding := none, linger := none, move := none, leg := none, putBack := none,
           failure := some ⟨l, volume, cause, false⟩ }

/-- The order of an arm whose leg has failed is FAILED. -/
def State.orderFailing (s : State) (a : ArmId) : State :=
  match (s.arm a).order with
  | some id => s.updOrder id (fun o => { o with state := .failed })
  | none => s

/-- The PLACE that a failed leg was to make is expected no more. -/
def State.placeMissed (s : State) (l : Leg) : State :=
  match l.placeDrive? with
  | some d => s.placeFailed d
  | none => s

theorem State.legFails_eq : s.legFails a l volume cause =
    (((s.placeMissed l).orderFailing a).updArm a (fun x => x.failed l volume cause)).sendArm a .status := rfl

theorem State.placeMissed_sch : (s.placeMissed l).sch = s.sch := by
  unfold State.placeMissed
  split
  · exact State.placeFailed_sch
  · rfl

theorem State.arm_of_sch (h : t.sch = s.sch) : t.arm b = s.arm b := by cases b <;> simp only [State.arm, h]

theorem State.armPort_of_sch (h : t.sch = s.sch) : t.armPort b = s.armPort b := by cases b <;> simp only [State.armPort, h]

theorem State.order?_of_sch (h : t.sch = s.sch) : t.order? n = s.order? n := by simp only [State.order?, h]

theorem State.orderFailing_arm : (s.orderFailing a).arm b = s.arm b := by
  unfold State.orderFailing
  split
  · rfl
  · rfl

theorem State.orderFailing_armPort : (s.orderFailing a).armPort b = s.armPort b := by
  unfold State.orderFailing
  split <;> rfl

theorem State.orderFailing_zones : (s.orderFailing a).sch.zones = s.sch.zones := by
  unfold State.orderFailing
  split <;> rfl

theorem State.orderFailing_order? {o : Order} (hid : (s.arm a).order = some n) (ho : s.order? n = some o) :
    ((s.orderFailing a).order? n).map (·.state) = some .failed := by
  unfold State.orderFailing
  rw [hid]
  dsimp only
  have hfound : o.id = n := by simpa using List.find?_some ho
  rw [State.updOrder_order? (f := fun o => { o with state := .failed }) (fun _ => rfl), ho, Option.map_some, if_pos hfound]
  rfl

/-! #### STATUS sent -/

theorem State.sendArm_status_free (h : (s.armPort a).sending = none) : s.sendArm a .status =
    (s.setArmPort a { s.armPort a with sending := some .status }).updArm a (fun x => { x with outstanding := some (.status s.statusLimit) }) := by
  have hlimit : (s.setArmPort a { s.armPort a with sending := some .status }).statusLimit = s.statusLimit := by
    cases a <;> rfl
  unfold State.sendArm
  dsimp only
  rw [h]
  unfold State.putOnLine
  dsimp only
  rw [hlimit]

theorem State.sendArm_status_busy (h : (s.armPort a).sending.isSome = true) : s.sendArm a .status =
    s.setArmPort a { s.armPort a with waiting := (s.armPort a).waiting ++ [.status] } := by
  obtain ⟨f, hf⟩ := Option.isSome_iff_exists.mp h
  unfold State.sendArm
  dsimp only
  rw [hf]
  rfl

/-- STATUS leaves the arm but for what is outstanding, and the rail and the pool. -/
theorem State.sendArm_status_arm : ∃ out, (s.sendArm a .status).arm a = { s.arm a with outstanding := out } := by
  cases h : (s.armPort a).sending with
  | none =>
    rw [State.sendArm_status_free h, State.updArm_arm_self, State.setArmPort_arm]
    exact ⟨_, rfl⟩
  | some f =>
    rw [State.sendArm_status_busy (by rw [h]; rfl), State.setArmPort_arm]
    exact ⟨(s.arm a).outstanding, rfl⟩

theorem State.sendArm_status_rail : (s.sendArm a .status).sch.zones = s.sch.zones ∧ (s.sendArm a .status).sch.pool = s.sch.pool := by
  cases h : (s.armPort a).sending with
  | none =>
    rw [State.sendArm_status_free h]
    cases a <;> exact ⟨rfl, rfl⟩
  | some f =>
    rw [State.sendArm_status_busy (by rw [h]; rfl)]
    cases a <;> exact ⟨rfl, rfl⟩

theorem State.order?_of_pool (h : t.sch.pool = s.sch.pool) : t.order? n = s.order? n := by simp only [State.order?, h]

theorem Keeps.settings {L : Law → Prop} (h : Keeps L s t) : t.port.settings = s.port.settings := by
  have hsettings := congrArg PortBlock.settings h.port
  exact hsettings

/-- A leg that fails (R103). -/
theorem State.legFails_failed : legFailed s (s.legFails a l volume cause) a l volume cause := by
  let w := ((s.placeMissed l).orderFailing a).updArm a (fun x => x.failed l volume cause)
  have harm : w.arm a = (s.arm a).failed l volume cause := by
    rw [State.updArm_arm_self, State.orderFailing_arm, State.arm_of_sch State.placeMissed_sch]
  have hport : w.armPort a = s.armPort a := by
    rw [State.updArm_armPort, State.orderFailing_armPort, State.armPort_of_sch State.placeMissed_sch]
  have hzones : w.sch.zones = s.sch.zones := by
    have hmarked : w.sch.zones = ((s.placeMissed l).orderFailing a).sch.zones := by cases a <;> rfl
    rw [hmarked, State.orderFailing_zones, State.placeMissed_sch]
  have hpool : w.sch.pool = ((s.placeMissed l).orderFailing a).sch.pool := by cases a <;> rfl
  have hlimit : w.statusLimit = s.statusLimit := by
    have hsettings : (s.placeMissed l).port.settings = s.port.settings := by
      unfold State.placeMissed
      split
      · exact (Keeps.placeFailed (L := noLaw) (Keeps.refl s)).settings
      · rfl
    have hmarked : w.port.settings = (s.placeMissed l).port.settings := by
      have hordered : ((s.placeMissed l).orderFailing a).port = (s.placeMissed l).port := by
        unfold State.orderFailing
        split <;> rfl
      rw [← hordered]
      cases a <;> rfl
    unfold State.statusLimit State.setting
    rw [hmarked, hsettings]
  obtain ⟨out, hout⟩ := State.sendArm_status_arm (s := w) (a := a)
  rw [harm] at hout
  unfold legFailed
  rw [State.legFails_eq, hout]
  refine ⟨rfl, rfl, rfl, rfl, rfl, State.sendArm_status_rail.1.trans hzones, fun id o hid ho => ?_, fun hfree => ?_, fun hbusy => ?_⟩
  · rw [State.order?_of_pool (State.sendArm_status_rail.2.trans hpool)]
    refine State.orderFailing_order? (o := o) ?_ ?_
    · rw [State.arm_of_sch State.placeMissed_sch]
      exact hid
    · rw [State.order?_of_sch State.placeMissed_sch]
      exact ho
  · have hsends := State.sendArm_status_free (s := w) (a := a) (by rw [hport]; exact hfree)
    have hstatus : out = some (.status s.statusLimit) := by
      have harms := hout
      rw [hsends, State.updArm_arm_self, State.setArmPort_arm, harm, hlimit] at harms
      exact (congrArg Arm.outstanding harms).symm
    refine ⟨?_, hstatus⟩
    change ((w.sendArm a .status).armPort a).sending = _
    rw [hsends, State.updArm_armPort, State.setArmPort_armPort_self]
  · have hsends := State.sendArm_status_busy (s := w) (a := a) (by rw [hport]; exact hbusy)
    have hnone : out = none := by
      have harms := hout
      rw [hsends, State.setArmPort_arm, harm] at harms
      exact (congrArg Arm.outstanding harms).symm
    refine ⟨?_, hnone⟩
    change ((w.sendArm a .status).armPort a).waiting = _
    rw [hsends, State.setArmPort_armPort_self, hport]

/-! ### The reports of an arm with a leg, a HOME or a STATUS outstanding -/

theorem actsBy_of {c : Instr} {f : State → State} (hc : actOf c = some f) (h : f s = u) : s.ActsBy c u := by
  have hact : s.act f = s.afterAct u := congrArg s.afterAct h
  unfold State.ActsBy
  rw [exec_act hc, hact]

theorem exec_legDone {r : LegReport} {ticks : Nat} (h : s.takeLegDone a r ticks = u) : s.ActsBy (.legDone a r ticks) u :=
  actsBy_of rfl h

theorem exec_legFault {code loaded : Byte} (h : s.takeLegFault a code = u) : s.ActsBy (.legFault a code loaded) u :=
  actsBy_of rfl h

theorem exec_homeDone {column : Byte} (h : s.takeHomeDone a column = u) : s.ActsBy (.homeDone a column) u :=
  actsBy_of rfl h

theorem exec_statusReply {r : StatusReport} (h : s.takeStatusReply a r = u) : s.ActsBy (.statusReply a r) u :=
  actsBy_of rfl h

theorem exec_legTimeout (h : s.legTimesOut a = u) : s.ActsBy (.legTimeout a) u :=
  actsBy_of rfl h

theorem exec_homeTimeout (h : s.homeTimesOut a = u) : s.ActsBy (.homeTimeout a) u :=
  actsBy_of rfl h

theorem exec_statusTimeout (h : s.statusTimesOut a = u) : s.ActsBy (.statusTimeout a) u :=
  actsBy_of rfl h

theorem exec_lingerExpiry (h : s.lingerEnds a = u) : s.ActsBy (.lingerExpiry a) u :=
  actsBy_of rfl h

theorem said_eq_true {c : Byte} : said c = true ↔ c ≠ 0 := bne_iff_ne

/-- A gripper flag that fits the leg. -/
theorem State.flagFits_iff {r : LegReport} : s.flagFits a l (said r.loaded) = true ↔ fits s a l r := by
  have hloaded : said r.loaded = false ↔ r.loaded = 0 := by simp [said]
  cases l with
  | travel target =>
    simp only [State.flagFits, fits, beq_iff_eq]
    by_cases hempty : (s.arm a).gripper = .empty
    · simp [hempty, hloaded]
    · have hheld : ((s.arm a).gripper != .empty) = true := bne_iff_ne.mpr hempty
      rw [hheld, said_eq_true]
      simp [hempty]
  | place place => simp [State.flagFits, fits, hloaded]
  | pick place => cases place <;> simp [State.flagFits, fits, said_eq_true]
  | read slot => simp [State.flagFits, fits]
  | home => simp [State.flagFits, fits]

/-- What a leg that fails keeps of its arm besides. -/
theorem State.legFails_kept : ((s.legFails a l volume cause).arm a).stopped = (s.arm a).stopped ∧
    ((s.legFails a l volume cause).arm a).lastFault = (s.arm a).lastFault := by
  obtain ⟨out, hout⟩ := State.sendArm_status_arm (a := a)
    (s := ((s.placeMissed l).orderFailing a).updArm a (fun x => x.failed l volume cause))
  rw [State.legFails_eq, hout, State.updArm_arm_self, State.orderFailing_arm, State.arm_of_sch State.placeMissed_sch]
  exact ⟨rfl, rfl⟩

theorem State.takeLegDone_leg {lo hi : Nat} {r : LegReport} {ticks : Nat} (h : (s.arm a).outstanding = some (.leg l volume lo hi)) :
    s.takeLegDone a r ticks = s.legReported a l volume (lo, hi) r ticks := by
  unfold State.takeLegDone
  rw [h]

/-- A report with no leg outstanding is late. -/
theorem State.takeLegDone_late {r : LegReport} {ticks : Nat} (h : ∀ l volume lo hi, (s.arm a).outstanding ≠ some (.leg l volume lo hi)) :
    s.takeLegDone a r ticks = late s a := by
  unfold State.takeLegDone
  split
  · rename_i hout
    exact absurd hout (h _ _ _ _)
  all_goals rfl

/-- Settles O49: a leg fails by `State.legFails_failed`, and what answers nothing is late. -/
theorem legOutcomes : Obligations.LegOutcomes := by
  refine ⟨fun s a l volume lo hi hout => ⟨fun r ticks hlo hhi => ⟨_, exec_legDone (State.takeLegDone_leg hout), ?short⟩,
    fun r ticks hhi => ⟨_, exec_legDone (State.takeLegDone_leg hout), ?past⟩,
    fun r ticks hlo hhi hfits => ⟨_, exec_legDone (State.takeLegDone_leg hout), ?unfit⟩, fun code loaded => ?fault, ?timeout⟩,
    fun s a hnone => ⟨fun r ticks => exec_legDone (State.takeLegDone_late hnone), exec_legTimeout ?still, fun hhome code loaded => exec_legFault ?lateFault⟩,
    fun s a hnone column => exec_homeDone ?lateHome, fun s a hnone r => exec_statusReply ?lateStatus⟩
  case short =>
    unfold State.legReported
    rw [if_neg (Nat.not_lt.mpr hhi), if_pos hlo]
    exact State.legFails_failed
  case past =>
    have hreport : s.legReported a l volume (lo, hi) r ticks = (s.legFails a l volume .legTimeout).lateReport a := if_pos hhi
    have hfailed : legFailed s (s.legFails a l volume .legTimeout) a l volume .legTimeout := State.legFails_failed
    have hstate := hfailed.1
    rw [hreport]
    refine ⟨?_, fun hstopped => ?_⟩
    · unfold State.lateReport
      split
      · exact hfailed
      · exact hfailed
    · unfold State.lateReport
      rw [if_neg]
      · exact State.raise_flag (e := .lateCompletion)
      · rw [hstate, State.legFails_kept.1, hstopped]
        simp
  case unfit =>
    unfold State.legReported
    rw [if_neg (Nat.not_lt.mpr hhi), if_neg (Nat.not_lt.mpr hlo), if_neg (fun h => hfits (State.flagFits_iff.mp h))]
    exact State.legFails_failed
  case fault =>
    let w := s.updArm a (fun x => { x with lastFault := some code })
    have hfails : s.takeLegFault a code = w.legFails a l volume .armReported := by
      unfold State.takeLegFault
      rw [hout]
    refine ⟨_, exec_legFault hfails, ?_, ?_⟩
    · have hsame : w.arm a = { s.arm a with lastFault := some code } := State.updArm_arm_self
      have hport : w.armPort a = s.armPort a := State.updArm_armPort
      have hrail : w.sch.zones = s.sch.zones ∧ w.sch.pool = s.sch.pool ∧ w.statusLimit = s.statusLimit := by cases a <;> exact ⟨rfl, rfl, rfl⟩
      have hfailed : legFailed w (w.legFails a l volume .armReported) a l volume .armReported := State.legFails_failed
      unfold legFailed at hfailed ⊢
      rw [hsame, hport, hrail.1, hrail.2.2] at hfailed
      simp only [State.order?_of_pool hrail.2.1] at hfailed
      exact hfailed
    · rw [State.legFails_kept.2, State.updArm_arm_self]
  case timeout =>
    refine ⟨s.legFails a l volume .legTimeout, exec_legTimeout ?_, State.legFails_failed⟩
    unfold State.legTimesOut
    rw [hout]
  case still =>
    unfold State.legTimesOut
    split
    · rename_i hout
      exact absurd hout (hnone _ _ _ _)
    all_goals rfl
  case lateFault =>
    unfold State.takeLegFault
    split
    · rename_i hout
      exact absurd hout (hnone _ _ _ _)
    · rename_i hout
      exact absurd hout (hhome _)
    all_goals rfl
  case lateHome =>
    unfold State.takeHomeDone
    split
    · rename_i hout
      exact absurd hout (hnone _)
    all_goals rfl
  case lateStatus =>
    unfold State.takeStatusReply
    split
    · rename_i hout
      exact absurd hout (hnone _)
    all_goals rfl

end Sys2Proof.Machine
end

section
/-! PROOFS. The refusals of a request, in the order of its checks (O34). -/

namespace Sys2Proof.Machine

variable {s t : State} {k : RequestKind} {f : RequestFields} {c : Instr}

/-! ### The fields of a request -/

theorem driveOfByte_isSome {b : Byte} : (driveOfByte b).isSome = true ↔ b.toNat ≤ 15 := by
  unfold driveOfByte
  split
  · simp only [Option.isSome_some, true_iff]; omega
  · simp only [Option.isSome_none, Bool.false_eq_true, false_iff]; omega

/-- A drive number received is the drive of that number. -/
theorem driveOfByte_eq_some {b : Byte} {d : Fin 16} : driveOfByte b = some d ↔ d.val = b.toNat := by
  have hd := d.isLt
  unfold driveOfByte
  split
  · rw [Option.some.injEq, Fin.ext_iff]
    exact eq_comm
  · constructor
    · intro h; cases h
    · omega

theorem densityOfByte_isSome {b : Byte} : (densityOfByte b).isSome = true ↔ b.toNat ≤ 3 := by
  have hbyte (n : Nat) (hn : n < 256) : b = BitVec.ofNat 8 n ↔ b.toNat = n := by
    rw [← BitVec.toNat_inj, BitVec.toNat_ofNat, Nat.mod_eq_of_lt hn]
  have h0 : b = 0 ↔ b.toNat = 0 := hbyte 0 (by omega)
  have h1 : b = 1 ↔ b.toNat = 1 := hbyte 1 (by omega)
  have h2 : b = 2 ↔ b.toNat = 2 := hbyte 2 (by omega)
  have h3 : b = 3 ↔ b.toNat = 3 := hbyte 3 (by omega)
  unfold densityOfByte
  simp only [h0, h1, h2, h3]
  split_ifs <;> simp only [Option.isSome_some, Option.isSome_none, Bool.false_eq_true, true_iff, false_iff] <;> omega

theorem directionGiven_iff : directionGiven f = true ↔ f.drive = 0xFF ∨ f.drive.toNat ≤ 15 := by
  rw [directionGiven, Bool.or_eq_true, beq_iff_eq, requestDrive, driveOfByte_isSome]
  rfl

/-- The fields that R50 asks for are those the statement calls good. -/
theorem fieldsGood_iff : fieldsGood f k = true ↔ goodFields k f := by
  have hdrive := driveOfByte_isSome (b := f.drive)
  have hdensity := densityOfByte_isSome (b := f.density)
  have hdirection := directionGiven_iff (f := f)
  cases k <;>
    simp [fieldsGood, goodFields, accountGiven, requestDrive, hdrive, hdensity, hdirection, and_assoc]

/-! ### What each group of checks answers -/

/-- A check ahead of others: its reason when it fails, else the answer of those behind it. -/
theorem firstRefusal_cons_iff {b : Bool} {p : Prop} [Decidable p] {r : Reason} {rest : List (Bool × Reason)} (h : b = true ↔ p) :
    firstRefusal ((b, r) :: rest) = if p then some r else firstRefusal rest := if_congr h rfl rfl

/-- The checks every request answers to. -/
theorem State.firstRefusal_common {good : Bool} {tag : Half} {own : List (Bool × Reason)} :
    firstRefusal (s.commonChecks tag (k != .demount) good ++ own) =
      if s.svc.state = .starting then some .notStarted
      else if k ≠ .demount ∧ (s.svc.state = .quiescing ∨ s.svc.state = .quiesced) then some .quiesced
      else if ∃ r ∈ s.ms.queue, r.tag = tag then some .duplicateTag
      else if 64 ≤ s.ms.queue.length then some .queueFull
      else if good = false then some .badField else firstRefusal own := by
  unfold State.commonChecks
  rw [List.cons_append, firstRefusal_cons_iff beq_iff_eq, List.cons_append, firstRefusal_cons_iff (p := k ≠ .demount ∧ (s.svc.state = .quiescing ∨ s.svc.state = .quiesced))
      (by simp [State.service]),
    List.cons_append, firstRefusal_cons_iff (by simp [State.request?]; rfl), List.cons_append, firstRefusal_cons_iff decide_eq_true_iff,
    List.cons_append, firstRefusal_cons_iff (by rw [Bool.not_eq_true'])]
  rfl

/-- The account checks. -/
theorem State.firstRefusal_account {own : List (Bool × Reason)} : firstRefusal (s.accountChecks f ++ own) =
    if isBlank f.account = false ∧ s.accountOf f.account = none ∧ s.refuseUnknownAccount = true then some .unknownAccount
    else if ∃ a, s.account? (s.chargedTo f.account) = some a ∧ a.closed = true then some .accountClosed else firstRefusal own := by
  unfold State.accountChecks
  rw [List.cons_append, firstRefusal_cons_iff (by simp [and_assoc]; rfl), List.cons_append,
    firstRefusal_cons_iff (by simp only [Option.any_eq_true]; rfl)]
  rfl

/-- The volume checks, of an unknown volume and of one that is named. -/
theorem State.firstRefusal_volume_unknown {eject : Bool} {own : List (Bool × Reason)} (h : s.namedVolume f = none) :
    firstRefusal (s.volumeChecks f eject ++ own) = some .unknownVolume := by
  unfold State.volumeChecks
  rw [h]
  rfl

theorem State.firstRefusal_volume {eject : Bool} {own : List (Bool × Reason)} {v : Volume} (h : s.namedVolume f = some v) :
    firstRefusal (s.volumeChecks f eject ++ own) =
      if s.mountBarred v = true then some .fenced
      else if ∃ d, v.loc = .inDrive d then some .inUse
      else if v.loc = .missing then some .missing
      else if eject = true ∧ v.loc = .outside then some .outside else firstRefusal own := by
  unfold State.volumeChecks
  rw [h]
  rw [List.cons_append, firstRefusal, if_neg (by simp), List.cons_append, firstRefusal_cons_iff Iff.rfl, List.cons_append,
    firstRefusal_cons_iff (p := ∃ d, v.loc = .inDrive d) (by rw [Option.any_some]; split <;> simp_all), List.cons_append,
    firstRefusal_cons_iff (p := v.loc = .missing) (by simp), List.cons_append, firstRefusal_cons_iff (p := eject = true ∧ v.loc = .outside) (by simp)]
  rfl

/-- A directed drive that is not installed, not online or of other densities. -/
theorem State.directedFits_false_iff {volume : Option Volume} {wanted : Option Density}
    (hwanted : (match volume.bind (·.density) with | some y => some y | none => requestDensity f) = wanted) :
    s.directedFits f volume = false ↔ ∃ d : Fin 16, d.val = f.drive.toNat ∧
      ¬((s.drive d).installed = true ∧ (s.drive d).online = true ∧ (s.drive d).suits wanted = true) := by
  subst hwanted
  have hdirected (d : Fin 16) : requestDrive f = some d ↔ d.val = f.drive.toNat := driveOfByte_eq_some
  unfold State.directedFits
  split
  · rename_i hnone
    simp only [Bool.true_eq_false, false_iff]
    rintro ⟨d, hd, _⟩
    rw [(hdirected d).mpr hd] at hnone
    cases hnone
  · rename_i d hsome
    have hd := (hdirected d).mp hsome
    constructor
    · intro hfalse
      refine ⟨d, hd, fun ⟨hinstalled, honline, hsuits⟩ => ?_⟩
      simp [hinstalled, honline] at hfalse
      exact absurd hsuits (Bool.eq_false_iff.mp hfalse)
    · rintro ⟨d', hd', hnot⟩
      obtain rfl : d = d' := Fin.ext (hd.trans hd'.symm)
      refine Bool.eq_false_iff.mpr (fun hfits => hnot ?_)
      rw [Bool.and_eq_true, Bool.and_eq_true] at hfits
      obtain ⟨⟨hinstalled, honline⟩, hsuits⟩ := hfits
      exact ⟨hinstalled, honline, hsuits⟩

/-- A request that is refused leaves the part as it was. -/
theorem State.Free.request_refused (hfree : s.Free) {r : Reason}
    (hc : c = (match k with | .mount => .mount f | .scratch => .scratch f | .demount => .demount f | .eject => .eject f))
    (h : s.refusal k f = some r) : exec c s = .next (s.sends [.reply f.tag (.refused r) false]) := by
  have htake : s.takeFrame (.request k f) = (s, [.reply f.tag (.refused r) false]) := by
    show s.takeRequest k f = _
    unfold State.takeRequest
    rw [h] <;> rfl
  have hexec : exec c s = .next (s.deliver (.request k f)).finishStep := by
    subst hc
    cases k <;> rfl
  rw [hexec, hfree.deliver_unchanged htake]

/-- Common checks that all pass leave the refusal to the kind's own checks. -/
theorem State.firstRefusal_common_passed {own : List (Bool × Reason)} (hstarted : s.svc.state ≠ .starting)
    (hopen : ¬(k ≠ .demount ∧ (s.svc.state = .quiescing ∨ s.svc.state = .quiesced))) (hfresh : ∀ r ∈ s.ms.queue, r.tag ≠ f.tag)
    (hroom : s.ms.queue.length < 64) (hgood : goodFields k f) :
    firstRefusal (s.commonChecks f.tag (k != .demount) (fieldsGood f k) ++ own) = firstRefusal own := by
  rw [State.firstRefusal_common, if_neg hstarted, if_neg hopen, if_neg (by rintro ⟨r, hr, htag⟩; exact hfresh r hr htag),
    if_neg (Nat.not_le.mpr hroom), if_neg (by rw [fieldsGood_iff.mpr hgood]; exact Bool.noConfusion)]

/-- The checks of a DEMOUNT of a drive. -/
theorem State.firstRefusal_demount {d : Fin 16} (hd : d.val = f.drive.toNat) : firstRefusal (s.demountChecks f) =
    if ¬((s.drive d).state = .loaded ∨ (s.drive d).state = .unloading ∨ (s.drive d).state = .released) then some .notMounted
    else if s.claimLive d = true ∨ ∃ r ∈ s.ms.queue, r.kind = .demount ∧ r.drive = some d then some .inUse else none := by
  have hdrive : requestDrive f = some d := driveOfByte_eq_some.mpr hd
  unfold State.demountChecks
  rw [hdrive]
  dsimp only
  rw [firstRefusal_cons_iff (p := ¬((s.drive d).state = .loaded ∨ (s.drive d).state = .unloading ∨ (s.drive d).state = .released))
      (by cases (s.drive d).state <;> simp [mountedState]),
    firstRefusal_cons_iff (p := s.claimLive d = true ∨ ∃ r ∈ s.ms.queue, r.kind = .demount ∧ r.drive = some d) (by simp)]
  rfl

/-- The volume checks of a MOUNT or EJECT that passes those of its account. -/
theorem State.firstRefusal_named {eject : Bool} {own : List (Bool × Reason)} :
    (s.namedVolume f = none → firstRefusal (s.volumeChecks f eject ++ own) = some .unknownVolume) ∧
    ∀ v, s.namedVolume f = some v →
      (s.mountBarred v = true → firstRefusal (s.volumeChecks f eject ++ own) = some .fenced) ∧
      (s.mountBarred v = false → (∃ d, v.loc = .inDrive d) → firstRefusal (s.volumeChecks f eject ++ own) = some .inUse) ∧
      (s.mountBarred v = false → v.loc = .missing → firstRefusal (s.volumeChecks f eject ++ own) = some .missing) ∧
      (s.mountBarred v = false → v.loc = .outside → eject = true → firstRefusal (s.volumeChecks f eject ++ own) = some .outside) ∧
      (s.mountBarred v = false → (∀ d, v.loc ≠ .inDrive d) → v.loc ≠ .missing → eject = false →
        firstRefusal (s.volumeChecks f eject ++ own) = firstRefusal own) := by
  refine ⟨State.firstRefusal_volume_unknown, fun v hv => ?_⟩
  rw [State.firstRefusal_volume hv]
  refine ⟨fun hbarred => if_pos hbarred, fun hfree hdrive => ?_, fun hfree hloc => ?_, fun hfree hloc heject => ?_, fun hfree hdrive hloc heject => ?_⟩
  all_goals rw [if_neg (by rw [hfree]; exact Bool.noConfusion)]
  · rw [if_pos hdrive]
  · rw [if_neg (by rw [hloc]; rintro ⟨d, hd⟩; cases hd), if_pos hloc]
  · rw [if_neg (by rw [hloc]; rintro ⟨d, hd⟩; cases hd), if_neg (by rw [hloc]; exact Loc.noConfusion), if_pos ⟨heject, hloc⟩]
  · rw [if_neg (by rintro ⟨d, hd⟩; exact hdrive d hd), if_neg hloc, if_neg (by rw [heject]; rintro ⟨hfalse, _⟩; cases hfalse)]

/-- A directed drive that does not suit is the refusal, when the checks ahead of it pass. -/
theorem State.firstRefusal_unsuitable {volume : Option Volume} (h : s.directedFits f volume = false) :
    firstRefusal [(!(s.directedFits f volume), .driveUnsuitable)] = some .driveUnsuitable := by
  rw [h]
  rfl

/-- The checks of a MOUNT, SCRATCH or EJECT behind those of its account. -/
def State.restChecks (s : State) (k : RequestKind) (f : RequestFields) : List (Bool × Reason) :=
  match k with
  | .mount => s.volumeChecks f false ++ [(!(s.directedFits f (s.namedVolume f)), .driveUnsuitable)]
  | .scratch => [(!(s.directedFits f none), .driveUnsuitable)]
  | .demount => []
  | .eject => s.volumeChecks f true

theorem State.restChecks_named (h : k = .mount ∨ k = .eject) : s.restChecks k f = s.volumeChecks f (k == .eject) ++
    (if k = .mount then [(!(s.directedFits f (s.namedVolume f)), .driveUnsuitable)] else []) := by
  obtain rfl | rfl := h
  · rfl
  · exact (List.append_nil _).symm

/-- The refusal of a MOUNT, SCRATCH or EJECT that passes the common checks. -/
theorem State.refusal_passed (hk : k ≠ .demount) (hstarted : s.svc.state ≠ .starting)
    (hopen : ¬(k ≠ .demount ∧ (s.svc.state = .quiescing ∨ s.svc.state = .quiesced))) (hfresh : ∀ r ∈ s.ms.queue, r.tag ≠ f.tag)
    (hroom : s.ms.queue.length < 64) (hgood : goodFields k f) :
    s.refusal k f = firstRefusal (s.accountChecks f ++ s.restChecks k f) := by
  have hpassed {own : List (Bool × Reason)} := State.firstRefusal_common_passed (own := own) hstarted hopen hfresh hroom hgood
  cases k with
  | mount => exact hpassed.trans (congrArg firstRefusal (List.append_assoc _ _ _))
  | scratch => exact hpassed
  | demount => exact absurd rfl hk
  | eject => exact hpassed

/-- Settles O34: the refusal is the answer of the first group of checks that gives one (`State.firstRefusal_common`, `_account`, `_volume`). -/
theorem requestRefusals : Obligations.RequestRefusals := by
  intro s k f c hfree hc refused quiescing account volume wanted unsuitable
  have refuse (r : Reason) (h : s.refusal k f = some r) : refused r := hfree.request_refused hc h
  obtain ⟨own, hown⟩ : ∃ own, s.refusal k f = firstRefusal (s.commonChecks f.tag (k != .demount) (fieldsGood f k) ++ own) := ⟨_, rfl⟩
  have hcommon := hown.trans State.firstRefusal_common
  refine ⟨fun hstarting => refuse _ ?starting, fun hstarted hquiescing => refuse _ ?quiescing, fun hstarted hopen => ?opened⟩
  case starting => rw [hcommon, if_pos hstarting]
  all_goals rw [if_neg hstarted] at hcommon
  case quiescing => rw [hcommon, if_pos hquiescing]
  rw [if_neg hopen] at hcommon
  refine ⟨fun htaken => refuse _ ?taken, fun hfresh => ⟨fun hfull => refuse _ ?full, fun hroom => ⟨fun hbad => refuse _ ?bad, fun hgood => ?good⟩⟩⟩
  case taken => rw [hcommon, if_pos htaken]
  all_goals rw [if_neg (by rintro ⟨r, hr, htag⟩; exact hfresh r hr htag)] at hcommon
  case full => rw [hcommon, if_pos hfull]
  all_goals rw [if_neg (Nat.not_le.mpr hroom)] at hcommon
  case bad => rw [hcommon, if_pos (Bool.eq_false_iff.mpr (mt fieldsGood_iff.mp hbad))]
  case good =>
    refine ⟨fun hk d hd => ?demount, fun hk => ?named⟩
    case demount =>
      intro mounted
      subst hk
      have hchecks : s.refusal .demount f = _ :=
        (State.firstRefusal_common_passed hstarted hopen hfresh hroom hgood).trans (State.firstRefusal_demount hd)
      refine ⟨fun hnot => refuse _ ?_, fun hmounted hbusy => refuse _ ?_⟩
      · rw [hchecks, if_pos hnot]
      · rw [hchecks, if_neg (not_not.mpr hmounted), if_pos hbusy]
    case named =>
      intro unknown closed
      have haccount := (State.refusal_passed hk hstarted hopen hfresh hroom hgood).trans State.firstRefusal_account
      refine ⟨fun hunknown => refuse _ ?unknown, fun hknown hclosed => refuse _ ?closed, fun hknown hopened hkind hnone => refuse _ ?none,
        fun hknown hopened hkind v hv => ?volume, fun hknown hopened hscratch hunsuitable => refuse _ ?scratch⟩
      case unknown => rw [haccount, if_pos hunknown]
      all_goals rw [if_neg hknown] at haccount
      case closed => exact haccount.trans (if_pos hclosed)
      all_goals replace haccount := haccount.trans (if_neg hopened)
      case none =>
        rw [haccount, State.restChecks_named hkind]
        exact State.firstRefusal_named.1 hnone
      case scratch =>
        subst hscratch
        rw [haccount]
        exact State.firstRefusal_unsuitable ((State.directedFits_false_iff rfl).mpr hunsuitable)
      case volume =>
        rw [State.restChecks_named hkind] at haccount
        obtain ⟨hfenced, hinUse, hmissing, houtside, hpassed⟩ := (State.firstRefusal_named (eject := k == .eject)
          (own := if k = .mount then [(!(s.directedFits f (s.namedVolume f)), .driveUnsuitable)] else [])).2 v hv
        refine ⟨fun hbarred => refuse _ (haccount.trans (hfenced hbarred)), fun hbarred hloc => refuse _ (haccount.trans (hinUse hbarred hloc)),
          fun hbarred hloc => refuse _ (haccount.trans (hmissing hbarred hloc)),
          fun hbarred hloc heject => refuse _ (haccount.trans (houtside hbarred hloc (beq_iff_eq.mpr heject))),
          fun hbarred hdrive hloc hmount hunsuitable => refuse _ ?_⟩
        subst hmount
        rw [haccount, hpassed hbarred hdrive hloc rfl, if_pos rfl]
        exact State.firstRefusal_unsuitable ((State.directedFits_false_iff rfl).mpr hunsuitable)

end Sys2Proof.Machine
end

section
/-! PROOFS. START, QUIESCE and RESUME (O33), and the service commands of arms and drives (O32). -/

namespace Sys2Proof.Machine

variable {s t u : State} {a b : ArmId} {d : Fin 16} {c : Instr} {f : SysFrame} {code : Byte} {data : List Byte}

/-! ### A taken command and its answer -/

/-- A command whose frame is taken by an act that leaves `u`, answered DONE with data that fits one part. -/
theorem State.Free.answersBy (h : s.Free) (hexec : exec c s = .next (s.deliver f).finishStep)
    (e : s.takeFrame f = respond code (s.afterAct u, .done data)) (hdata : data.length ≤ 234) : s.AnswersBy c u (doneOf code data) := by
  unfold State.AnswersBy
  rw [hexec, h.respond_act e hdata]

/-- A command that changes nothing and is answered DONE. -/
theorem State.Free.answered_done (h : s.Free) (hexec : exec c s = .next (s.deliver f).finishStep)
    (e : s.takeFrame f = respond code (s, .done data)) (hdata : data.length ≤ 234) : exec c s = .next (s.sends [doneOf code data]) := by
  have htake : s.takeFrame f = (s, [doneOf code data]) := by rw [e, ← responseOf_done hdata]; rfl
  rw [hexec, h.deliver_unchanged htake]

/-- A command that is refused. -/
theorem State.Free.answered_refused (h : s.Free) {r : Reason} (hexec : exec c s = .next (s.deliver f).finishStep)
    (e : s.takeFrame f = respond code (s, .refused r)) : exec c s = .next (s.sends [refusedOf code r.code]) := by
  rw [hexec, h.respond_refused e]

/-! ### START, QUIESCE and RESUME (O33) -/

/-- START owes both homings and sends both arms home (R181). -/
theorem State.startLibrary_spec : s.startLibrary.svc = ⟨.homing, s.svc.doorMark, true, true⟩ ∧ ∀ a, (s.startLibrary.arm a).state = .homing := by
  unfold State.startLibrary
  dsimp only
  refine ⟨?_, fun a => ?_⟩
  · rw [State.enterHoming_svc, State.enterHoming_svc]
    rfl
  · rw [State.enterHoming_state, State.enterHoming_state]
    cases a <;> rfl

theorem State.takeQuiesce_taken (h : s.svc.state = .active ∨ s.svc.state = .homing ∨ s.svc.state = .resuming) :
    s.takeQuiesce = some (s.act State.enterQuiescing) := by
  unfold State.takeQuiesce State.service
  obtain h | h | h := h <;> rw [h]

theorem State.takeQuiesce_already (h : s.svc.state = .quiescing ∨ s.svc.state = .quiesced) : s.takeQuiesce = some s := by
  unfold State.takeQuiesce State.service
  obtain h | h := h <;> rw [h]

theorem State.takeQuiesce_refused (h : s.svc.state = .starting ∨ s.svc.state = .interrupted) : s.takeQuiesce = none := by
  unfold State.takeQuiesce State.service
  obtain h | h := h <;> rw [h]

/-- Settles O33, by what `State.startLibrary`, `State.takeQuiesce` and `State.resumeLibrary` give in each service state. -/
theorem serviceStateCommands : Obligations.ServiceStateCommands := by
  intro s hfree
  refine ⟨fun hstate => ⟨s.startLibrary, ?start, State.startLibrary_spec⟩, fun hstate => ?noStart,
    fun hstate => ⟨s.enterQuiescing, ?quiesce, State.enterQuiescing_svc⟩, fun hstate => ?quiescing, fun hstate => ?noQuiesce,
    fun hstate => ?resume, fun hquiescing hquiesced => ?noResume⟩
  case start =>
    refine hfree.answersBy (f := .start) rfl ?_ (by simp)
    exact congrArg (respond 5) (if_pos hstate)
  case noStart => exact hfree.answered_refused (f := .start) rfl (congrArg (respond 5) (if_neg hstate))
  case quiesce =>
    refine hfree.answersBy (f := .quiesce) rfl ?_ (by simp)
    exact congrArg (fun x => respond 6 (s.serviceResult x)) (State.takeQuiesce_taken hstate)
  case quiescing =>
    refine hfree.answered_done (f := .quiesce) rfl ?_ (by simp)
    exact congrArg (fun x => respond 6 (s.serviceResult x)) (State.takeQuiesce_already hstate)
  case noQuiesce =>
    refine hfree.answered_refused (f := .quiesce) (code := 6) (r := .wrongState) rfl ?_
    exact congrArg (fun x => respond 6 (s.serviceResult x)) (State.takeQuiesce_refused hstate)
  case resume =>
    obtain ⟨u, hresumed, hsvc, hmark⟩ := State.resumeLibrary_taken (s := s) hstate
    refine ⟨u, hfree.answersBy (f := .resume) rfl ?_ (by simp), hsvc, hmark⟩
    exact congrArg (fun x => respond 7 (s.serviceResult (x.map (fun t => s.act (fun _ => t))))) hresumed
  case noResume =>
    refine hfree.answered_refused (f := .resume) (code := 7) (r := .wrongState) rfl ?_
    exact congrArg (fun x => respond 7 (s.serviceResult (x.map (fun t => s.act (fun _ => t)))))
      (State.resumeLibrary_refused (s := s) (fun h => h.elim hquiescing hquiesced))

/-! ### Arms into and out of service (O32) -/

/-- HOME leaves the arm but for what is outstanding. -/
theorem State.sendArm_home_arm : ∃ out, (s.sendArm a .home).arm a = { s.arm a with outstanding := out } := by
  unfold State.sendArm
  dsimp only
  split
  · unfold State.putOnLine
    rw [State.updArm_arm_self, State.setArmPort_arm]
    exact ⟨_, rfl⟩
  · rw [State.setArmPort_arm]
    exact ⟨(s.arm a).outstanding, rfl⟩

/-- The arm that enters HOMING: it has no order and no stop, and out of OUT_OF_SERVICE no failures counted (R108). -/
theorem State.enterHoming_arm : ∃ out, (s.enterHoming a).arm a = { s.arm a with
    state := .homing, order := none, leg := none, move := none, inserted := false, stopped := false,
    failCount := if (s.arm a).state = .outOfService then 0 else (s.arm a).failCount, outstanding := out } := by
  have harm {w v : State} (h : w.sch = v.sch) : w.arm a = v.arm a := State.arm_of_sch h
  have htold {w : State} {c : Prop} [Decidable c] {m k : Notice} : (((if c then w.notify m else w).notify k).arm a) = w.arm a := by
    split
    · rw [State.notify_arm, State.notify_arm]
    · rw [State.notify_arm]
  have hended : (if (s.arm a).state = .outOfService then s.endEquipment (.armOut a) else s).arm a = s.arm a := by
    split
    · exact harm (by simp)
    · rfl
  unfold State.enterHoming
  dsimp only
  generalize hbegun : (if (s.arm a).state = .outOfService then s.endEquipment (.armOut a) else s) = begun at hended ⊢
  have hpath {w : State} : (w.takePath a).arm a = w.arm a := by cases a <;> rfl
  obtain ⟨out, hout⟩ := State.sendArm_home_arm (a := a) (s := ((begun.dropLegs a |>.withdrawClaim a).updArm a (fun x => { x with
    state := .homing, order := none, leg := none, move := none, inserted := false, stopped := false,
    failCount := if (s.arm a).state = .outOfService then 0 else x.failCount })).takePath a)
  refine ⟨out, ?_⟩
  rw [htold, hout, hpath, State.updArm_arm_self, State.withdrawClaim_arm, State.dropLegs_arm, hended]

/-- What a rebinding of orders leaves of an arm: the state and the leave service mark. -/
def Arm.standing (x : Arm) : ArmState × Bool := (x.state, x.leaveMark)

theorem State.bindOrder_arm {id : Nat} : (s.bindOrder id).arm b = s.arm b := by
  unfold State.bindOrder
  split
  · rfl
  · dsimp only
    split
    · rw [State.notify_arm, State.updOrder_arm]
    · exact State.updOrder_arm

theorem State.untake_standing : ((s.untake a).arm b).standing = (s.arm b).standing := by
  unfold State.untake
  rw [State.notify_arm]
  by_cases hb : b = a
  · subst hb
    rw [State.updArm_arm_self]
    rfl
  · rw [State.updArm_arm_ne hb, State.withdrawClaim_arm]

theorem State.rebindOrders_standing : ((s.rebindOrders a).arm b).standing = (s.arm b).standing := by
  unfold State.rebindOrders
  refine foldl_part (g := fun w => (w.arm b).standing) (fun u o => ?_) _ _
  dsimp only
  split
  · rw [State.bindOrder_arm]
    split
    · exact State.untake_standing
    · rfl
  · rfl

/-- ARM SERVICE OUT: an arm in service has the leave service mark, and a PARKED one leaves at once (R109). -/
theorem State.armOut_marked (h : (s.arm a).state ≠ .outOfService) : ((s.armOut a).arm a).leaveMark = true ∧
    ((s.arm a).state = .parked → ((s.armOut a).arm a).state = .outOfService) := by
  have hmarked : ((s.updArm a (fun x => { x with leaveMark := true })).rebindOrders a |>.arm a).leaveMark = true := by
    have hstanding := State.rebindOrders_standing (s := s.updArm a (fun x => { x with leaveMark := true })) (a := a) (b := a)
    rw [State.updArm_arm_self] at hstanding
    exact congrArg Prod.snd hstanding
  unfold State.armOut
  cases hstate : (s.arm a).state with
  | outOfService => exact absurd hstate h
  | parked =>
    dsimp only
    have howed {w : State} : (w.setHomingOwed a false).arm a = w.arm a := by cases a <;> rfl
    let marked := s.updArm a (fun x => { x with leaveMark := true })
    have hout : ((marked.enterOutOfService a false).arm a).standing = (.outOfService, true) := by
      unfold State.enterOutOfService
      dsimp only
      rw [if_neg Bool.false_ne_true, State.rebindOrders_standing, howed, State.updArm_arm_self, State.withdrawClaim_arm, State.updArm_arm_self,
        hstate]
      rfl
    exact ⟨congrArg Prod.snd hout, fun _ => congrArg Prod.fst hout⟩
  | idle =>
    dsimp only
    rw [State.notify_arm]
    exact ⟨hmarked, ArmState.noConfusion⟩
  | unhomed | homing | running | holding | statusWait | faulted => exact ⟨hmarked, ArmState.noConfusion⟩

/-- ARM SERVICE IN: the mark is cleared, and an arm out of service homes (R109). -/
theorem State.armIn_spec : ((s.armIn a).arm a).leaveMark = false ∧
    ((s.armIn a).arm a).state = (if (s.arm a).state = .outOfService then .homing else (s.arm a).state) ∧
    ((s.arm a).state = .outOfService → ((s.armIn a).arm a).failCount = 0) := by
  unfold State.armIn
  dsimp only
  have hcleared : ((s.updArm a (fun x => { x with leaveMark := false })).arm a) = { s.arm a with leaveMark := false } := State.updArm_arm_self
  split
  · rename_i hout
    obtain ⟨out, harm⟩ := State.enterHoming_arm (s := s.updArm a (fun x => { x with leaveMark := false })) (a := a)
    rw [hcleared, if_pos hout] at harm
    rw [harm]
    exact ⟨rfl, rfl, fun _ => rfl⟩
  · rename_i hin
    rw [hcleared]
    exact ⟨rfl, rfl, fun hout => absurd hout hin⟩

/-! ### A drive in CHECK whose levels are read again (R42, R43) -/

theorem State.leaveCheck_aside : Aside s (s.leaveCheck d) := by
  unfold State.leaveCheck
  split
  · exact State.endEquipment_aside
  · exact Aside.refl s

/-- The drive of a session that is recorded COMPLETED. -/
theorem State.completeSession_drive : ∃ (seconds : Stamp) (reserved : Claim → Bool), (s.completeSession d).drive d = { s.drive d with
    useSeconds := seconds, claim := (s.drive d).claim.map (fun claim => { claim with reserved := reserved claim }), session := none } := by
  unfold State.completeSession
  cases hsession : (s.drive d).session with
  | none =>
    refine ⟨(s.drive d).useSeconds, Claim.reserved, ?_⟩
    change s.drive d = _
    rw [← hsession]
    simp
  | some session =>
    obtain ⟨seconds, reserved, hrecord⟩ := State.recordClaim_drive (s := s) (d := d) (session := some session) (outcome := .completed)
    refine ⟨seconds, reserved, ?_⟩
    dsimp only
    rw [State.updDrive_drive_self, hrecord]

theorem State.releaseReel_online : ((s.releaseReel d).drive d).online = (s.drive d).online := by
  have hclosed {w : State} : ((w.closeSession d).drive d).online = (w.drive d).online := by
    unfold State.closeSession
    split
    · rw [State.updDrive_drive_self]
    · obtain ⟨seconds, reserved, hcomplete⟩ := State.completeSession_drive (s := w) (d := d)
      rw [hcomplete]
  unfold State.releaseReel State.setDriveState
  dsimp only
  rw [State.notify_drive, State.updDrive_drive_self]
  exact hclosed.trans (by rw [State.updDrive_drive_self])

/-- A drive in CHECK that reads LOADED. -/
theorem State.checkLoaded_drive : ((s.checkLoaded d).drive d).state = .loaded ∧ ((s.checkLoaded d).drive d).online = (s.drive d).online := by
  have hloaded : ((s.leaveCheck d).setDriveState d .loaded).drive d = { s.drive d with state := .loaded } := by
    rw [State.setDriveState_drive_self, State.leaveCheck_aside.drive]
  unfold State.checkLoaded
  dsimp only
  split
  · rw [State.notify_drive, hloaded]
    exact ⟨rfl, rfl⟩
  · rename_i claim _ hclaim
    split
    · obtain ⟨v, htaken⟩ := State.takeLoad_drive (s := (s.leaveCheck d).setDriveState d .loaded) (d := d) (claim := claim) (by rw [hloaded]; exact hclaim)
      rw [htaken, hloaded]
      exact ⟨rfl, rfl⟩
    · rw [hloaded]
      exact ⟨rfl, rfl⟩
  · rw [hloaded]
    exact ⟨rfl, rfl⟩

/-- The reel that a drive names is gone from it (R42). -/
def State.reelGone (s : State) (d : Fin 16) : State :=
  match (s.drive d).volume with
  | some e => (s.makeMissing e).clearDriveVolume d
  | none => s

theorem State.reelGone_drive : (s.reelGone d).drive d = { s.drive d with volume := none } := by
  unfold State.reelGone
  cases hvolume : (s.drive d).volume with
  | none =>
    change s.drive d = { s.drive d with volume := none }
    rw [← hvolume]
  | some e =>
    obtain ⟨v, hmissing⟩ := State.makeMissing_drive (s := s) (e := e) (d := d)
    dsimp only
    generalize s.makeMissing e = w at hmissing ⊢
    unfold State.clearDriveVolume
    split
    · rename_i held _
      have hlost : ∃ v, (w.loseFrom held (.inDrive d)).drive d = { w.drive d with volume := v } := by
        unfold State.loseFrom
        split
        · exact State.makeMissing_drive
        · exact ⟨_, rfl⟩
      obtain ⟨_, hlost⟩ := hlost
      rw [State.updDrive_drive_self, hlost, hmissing]
    · rename_i hnone
      rw [hmissing] at hnone ⊢
      obtain rfl : v = none := hnone
      rfl

/-- A drive in CHECK that reads empty: reel, session and claim are gone (R42). -/
theorem State.checkEmpty_drive : ((s.checkEmpty d).drive d).state = (if (s.drive d).online then .empty else .offline) ∧
    ((s.checkEmpty d).drive d).online = (s.drive d).online ∧ ((s.checkEmpty d).drive d).claim = none ∧
    ((s.checkEmpty d).drive d).session = none ∧ ((s.checkEmpty d).drive d).volume = none := by
  have hempty : s.checkEmpty d = ((((((((s.reelGone d).recordClaim d (s.drive d).session .failed).updDrive d (fun x => { x with session := none })).endClaim
      d).leaveCheck d).setDriveState d (if (s.drive d).online then .empty else .offline)).notify (.volumeLost d (s.drive d).claimTag)).notify
      (.driveEmpty d)) := rfl
  obtain ⟨seconds, reserved, hrecord⟩ := State.recordClaim_drive (s := s.reelGone d) (d := d) (session := (s.drive d).session) (outcome := .failed)
  rw [hempty, State.notify_drive, State.notify_drive, State.setDriveState_drive_self, State.leaveCheck_aside.drive, State.endClaim_drive,
    State.updDrive_drive_self, hrecord, State.reelGone_drive]
  exact ⟨rfl, rfl, rfl, rfl, rfl⟩

theorem State.setting_of_settings {i : Nat} (h : t.port.settings = s.port.settings) : t.setting i = s.setting i := by
  unfold State.setting
  rw [h]

/-- A drive as its check begins: taken OFFLINE, or as it was. -/
def State.checkBegun (s : State) (d : Fin 16) (offline : Bool) : State :=
  if offline then s.updDrive d (fun x => { x with online := false }) else s

theorem State.checkBegun_drive {offline : Bool} : (s.checkBegun d offline).drive d = { s.drive d with online := !offline && (s.drive d).online } := by
  cases offline with
  | false => rfl
  | true => exact (State.updDrive_drive_self (s := s) (d := d) (f := fun x => { x with online := false }))

theorem State.recheck_eq {offline : Bool} (hcheck : (s.drive d).state = .check) : s.recheck d offline =
    let w := s.checkBegun d offline
    if (w.drive d).sense.released then ((w.leaveCheck d).completeSession d).releaseReel d
    else if (w.drive d).sense.loaded then
      (if offline then (((w.checkLoaded d).startPulse d .unload).setDriveState d .unloading).startReleaseTimer d else w.checkLoaded d)
    else w.checkEmpty d := if_neg (not_not.mpr hcheck)

/-- The levels of a drive in CHECK read again: RELEASED, LOADED, or neither; a drive taken OFFLINE is so, and unloads a reel that is loaded (R42, R43). -/
theorem State.recheck_drive {offline : Bool} (hcheck : (s.drive d).state = .check) :
    ((s.drive d).sense.released = true → ((s.recheck d offline).drive d).state = .released ∧
      ((s.recheck d offline).drive d).online = (!offline && (s.drive d).online)) ∧
    ((s.drive d).sense.released = false → (s.drive d).sense.loaded = true →
      ((s.recheck d offline).drive d).state = (if offline then .unloading else .loaded) ∧
      ((s.recheck d offline).drive d).online = (!offline && (s.drive d).online) ∧
      (offline = true → ((s.recheck d offline).drive d).pulse = some (.unload, s.pulseWidth) ∧
        ((s.recheck d offline).drive d).releaseTimer = some s.releaseLimit)) ∧
    ((s.drive d).sense.released = false → (s.drive d).sense.loaded = false →
      ((s.recheck d offline).drive d).state = (if (!offline && (s.drive d).online) = true then .empty else .offline) ∧
      ((s.recheck d offline).drive d).online = (!offline && (s.drive d).online) ∧ ((s.recheck d offline).drive d).claim = none ∧
      ((s.recheck d offline).drive d).session = none ∧ ((s.recheck d offline).drive d).volume = none) := by
  let w := s.checkBegun d offline
  have hw : w.drive d = { s.drive d with online := !offline && (s.drive d).online } := State.checkBegun_drive
  have hkeeps : Keeps noLaw s (w.checkLoaded d) := by
    apply Keeps.checkLoaded
    cases offline with
    | false => exact Keeps.refl s
    | true => exact (Keeps.refl s).updDrive (f := fun x => { x with online := false }) (fun _ => rfl) (fun _ _ => rfl)
  have honline : (w.drive d).online = (!offline && (s.drive d).online) := by rw [hw]
  rw [State.recheck_eq hcheck]
  dsimp only
  rw [show s.checkBegun d offline = w from rfl, hw]
  refine ⟨fun hreleased => ?released, fun hreleased hloaded => ?loaded, fun hreleased hloaded => ?empty⟩
  case released =>
    rw [if_pos hreleased]
    refine ⟨State.releaseReel_drive.1, ?_⟩
    obtain ⟨seconds, reserved, hcomplete⟩ := State.completeSession_drive (s := w.leaveCheck d) (d := d)
    rw [State.releaseReel_online, hcomplete, State.leaveCheck_aside.drive, honline]
  case loaded =>
    rw [if_neg (by rw [hreleased]; exact Bool.false_ne_true), if_pos hloaded]
    obtain ⟨hstate, hsame⟩ := State.checkLoaded_drive (s := w) (d := d)
    cases offline with
    | false => exact ⟨hstate, hsame.trans honline, fun h => absurd h Bool.false_ne_true⟩
    | true =>
      have hpulse : (w.checkLoaded d).pulseWidth = s.pulseWidth := State.setting_of_settings hkeeps.settings
      have hlimit : (w.checkLoaded d).releaseLimit = s.releaseLimit := State.setting_of_settings hkeeps.settings
      have hdrive : ((((w.checkLoaded d).startPulse d .unload).setDriveState d .unloading).startReleaseTimer d).drive d =
          { (w.checkLoaded d).drive d with
            pulse := some (.unload, s.pulseWidth), state := .unloading, releaseTimer := some s.releaseLimit } := by
        rw [← hpulse, ← hlimit]
        unfold State.startReleaseTimer
        rw [State.updDrive_drive_self, State.setDriveState_drive_self]
        unfold State.startPulse
        rw [State.updDrive_drive_self]
        rfl
      rw [if_pos rfl, hdrive]
      exact ⟨rfl, hsame.trans honline, fun _ => ⟨rfl, rfl⟩⟩
  case empty =>
    rw [if_neg (by rw [hreleased]; exact Bool.false_ne_true), if_neg (by rw [hloaded]; exact Bool.false_ne_true)]
    have hempty := State.checkEmpty_drive (s := w) (d := d)
    rw [honline] at hempty
    exact hempty

/-! ### The service commands (O32) -/

theorem armOfByte_none {b : Byte} (h : 1 < b.toNat) : armOfByte b = none := by
  have h0 : b ≠ 0 := by rintro rfl; exact absurd h (by decide)
  have h1 : b ≠ 1 := by rintro rfl; exact absurd h (by decide)
  unfold armOfByte
  rw [if_neg h0, if_neg h1]

theorem driveOfByte_none {b : Byte} (h : 15 < b.toNat) : driveOfByte b = none := dif_neg (by omega)

theorem driveOfByte_drive (d : Fin 16) : driveOfByte (byte d.val) = some d :=
  driveOfByte_eq_some.mpr (by have hd := d.isLt; simp [byte]; omega)

theorem State.commandArmService_eq : s.commandArmService (byte (armCode a)) 1 = (s.afterAct (s.armOut a), .done []) ∧
    s.commandArmService (byte (armCode a)) 0 = (s.afterAct (s.armIn a), .done []) := by cases a <;> exact ⟨rfl, rfl⟩

theorem State.commandDriveService_eq : s.commandDriveService (byte d.val) 1 = (s.afterAct (s.serviceOffline d), .done []) ∧
    s.commandDriveService (byte d.val) 0 = (s.afterAct (s.serviceOnline d), .done []) := by
  unfold State.commandDriveService
  rw [driveOfByte_drive]
  exact ⟨rfl, rfl⟩

theorem State.commandArmService_refused {b out : Byte} (h : 1 < b.toNat) : s.commandArmService b out = (s, .refused .badField) := by
  unfold State.commandArmService
  rw [armOfByte_none h]

theorem State.commandDriveService_refused {b out : Byte} (h : 15 < b.toNat) : s.commandDriveService b out = (s, .refused .badField) := by
  unfold State.commandDriveService
  rw [driveOfByte_none h]

/-- DRIVE SERVICE OFFLINE of a drive that is not in CHECK (R45). -/
theorem State.serviceOffline_eq (h : (s.drive d).state ≠ .check) : s.serviceOffline d =
    (if (s.drive d).state = .offline then s else s.setDrive d { s.drive d with
      online := false
      state := if (s.drive d).state = .empty ∨ (s.drive d).state = .unmanaged then .offline else (s.drive d).state }) := by
  unfold State.serviceOffline State.updDrive
  cases hstate : (s.drive d).state with
  | check => exact absurd hstate h
  | offline => rfl
  | empty | unmanaged => rfl
  | claimed | placed | loaded | unloading | released => simp [hstate]

/-- DRIVE SERVICE ONLINE (R45). -/
theorem State.serviceOnline_drive : (s.serviceOnline d).drive d = { s.drive d with
    online := true
    state := if (s.drive d).state ≠ .offline then (s.drive d).state
      else if (s.drive d).sense.loaded ∨ (s.drive d).sense.released then .unmanaged else .empty } := by
  have hon : (s.updDrive d (fun x => { x with online := true })).drive d = { s.drive d with online := true } := State.updDrive_drive_self
  unfold State.serviceOnline Drive.levelHigh
  dsimp only
  simp only [Bool.or_eq_true]
  split
  · exact hon
  · split
    · rw [State.setDriveState_drive_self, hon]
    · rw [State.notify_drive, State.setDriveState_drive_self, hon]

/-- Settles O32, by what each of the four does to its arm or drive (`State.armOut_marked`, `State.armIn_spec`, `State.recheck_drive`). -/
theorem serviceCommandsOfArmsAndDrives : Obligations.ServiceCommandsOfArmsAndDrives := by
  refine ⟨fun s b hfree hbad => ?badArm, fun s b hfree hbad => ?badDrive, fun s a hfree => ⟨s.armOut a, ?out, ?still, ?marked, ?parked⟩,
    fun s a hfree => ⟨s.armIn a, ?armIn, State.armIn_spec.1, State.armIn_spec.2.1⟩, fun s d hfree hcheck => ⟨s.serviceOffline d, ?offline, ?drive⟩,
    fun s d hfree hcheck => ⟨s.serviceOffline d, ?offlineCheck, ?rechecked⟩, fun s d hfree => ⟨s.serviceOnline d, ?online, State.serviceOnline_drive⟩⟩
  case badArm =>
    exact ⟨hfree.answered_refused (f := .armService b 1) (code := 18) rfl (congrArg (respond 18) (State.commandArmService_refused hbad)),
      hfree.answered_refused (f := .armService b 0) (code := 18) rfl (congrArg (respond 18) (State.commandArmService_refused hbad))⟩
  case badDrive =>
    exact ⟨hfree.answered_refused (f := .driveService b 0) (code := 19) rfl (congrArg (respond 19) (State.commandDriveService_refused hbad)),
      hfree.answered_refused (f := .driveService b 1) (code := 19) rfl (congrArg (respond 19) (State.commandDriveService_refused hbad))⟩
  case out =>
    exact hfree.answersBy (f := .armService _ 1) rfl (congrArg (respond 18) State.commandArmService_eq.1) (Nat.zero_le _)
  case still =>
    intro hout
    unfold State.armOut
    rw [hout]
  case marked => exact fun hin => (State.armOut_marked hin).1
  case parked => exact fun hparked => (State.armOut_marked (by rw [hparked]; exact ArmState.noConfusion)).2 hparked
  case armIn => exact hfree.answersBy (f := .armService _ 0) rfl (congrArg (respond 18) State.commandArmService_eq.2) (Nat.zero_le _)
  case offline => exact hfree.answersBy (f := .driveService _ 1) rfl (congrArg (respond 19) State.commandDriveService_eq.1) (Nat.zero_le _)
  case drive => exact State.serviceOffline_eq hcheck
  case offlineCheck => exact hfree.answersBy (f := .driveService _ 1) rfl (congrArg (respond 19) State.commandDriveService_eq.1) (Nat.zero_le _)
  case rechecked =>
    have hrecheck : s.serviceOffline d = s.recheck d true := by
      unfold State.serviceOffline
      rw [hcheck]
    rw [hrecheck]
    obtain ⟨hreleased, hloaded, hempty⟩ := State.recheck_drive (s := s) (d := d) (offline := true) hcheck
    refine ⟨?_, fun h => (hreleased h).1, fun hlow hhigh => (hloaded hlow hhigh).1, fun hlow hlow' => (hempty hlow hlow').1⟩
    cases hr : (s.drive d).sense.released with
    | true => exact (hreleased hr).2
    | false =>
      cases hl : (s.drive d).sense.loaded with
      | true => exact (hloaded hr hl).2.1
      | false => exact (hempty hr hl).2.1
  case online => exact hfree.answersBy (f := .driveService _ 0) rfl (congrArg (respond 19) State.commandDriveService_eq.2) (Nat.zero_le _)

end Sys2Proof.Machine
end

section
/-! PROOFS. Replies to prompts: what an accepted reply leaves of the list and the queue, and the replies by which a request finishes or waits (O42). -/

namespace Sys2Proof.Machine

variable {s t u w : State} {d : Fin 16} {e n m : Nat} {tag : Half} {r q : Request} {reply : Reply}

/-! ### Prompts that only leave the list -/

/-- With no prompt owed, none is owed after it and no prompt has come. -/
def Dwindles (s t : State) : Prop := s.pr.owed = [] → t.pr.owed = [] ∧ ∀ q ∈ t.pr.list, q ∈ s.pr.list

theorem Dwindles.refl (s : State) : Dwindles s s := fun h => ⟨h, fun _ hq => hq⟩

theorem Dwindles.trans (h : Dwindles s t) (k : Dwindles t u) : Dwindles s u := fun howed =>
  have ⟨hnone, hlist⟩ := h howed
  have ⟨knone, klist⟩ := k hnone
  ⟨knone, fun q hq => hlist q (klist q hq)⟩

theorem Dwindles.of_pr (h : t.pr = s.pr) : Dwindles s t := fun howed => ⟨by rw [h, howed], fun q hq => by rwa [h] at hq⟩

/-- The list after a prompt has left it, with none owed. -/
theorem State.leaveList_list {line : Bool} (howed : s.pr.owed = []) : (s.leaveList n line).pr.owed = [] ∧
    (s.leaveList n line).pr.list = s.pr.list.filter (fun q => q.number != n) := by
  cases hq : s.prompt? n with
  | none =>
    rw [State.leaveList_none hq]
    refine ⟨howed, (List.filter_eq_self.mpr fun q hmem => ?_).symm⟩
    exact bne_iff_ne.mpr (fun hnumber => List.find?_eq_none.mp hq q hmem (beq_iff_eq.mpr hnumber))
  | some q =>
    rw [State.leaveList_some hq, howed]
    refine ⟨rfl, ?_⟩
    change ((s.offList n line).tellPosition q).pr.list = _
    rw [State.tellPosition_pr, State.offList_pr]
    unfold State.prWithout
    cases line <;> rfl

theorem State.leaveList_dwindles {line : Bool} : Dwindles s (s.leaveList n line) := fun howed => by
  obtain ⟨hnone, hlist⟩ := State.leaveList_list (n := n) (line := line) howed
  refine ⟨hnone, fun q hq => ?_⟩
  rw [hlist] at hq
  exact List.mem_of_mem_filter hq

theorem State.endEquipment_dwindles {x : Equipment} : Dwindles s (s.endEquipment x) := by
  unfold State.endEquipment
  split
  · exact State.leaveList_dwindles
  · exact fun howed => ⟨by rw [State.dropOwed, howed]; rfl, fun q hq => hq⟩

theorem State.clearAwaiting_pr : (s.clearAwaiting tag).pr = s.pr := by
  unfold State.clearAwaiting
  refine foldl_part (g := State.pr) (fun u p => ?_) _ _
  split
  · rw [State.notify_pr]
    rfl
  · rfl

theorem State.withdrawPrompt_dwindles : Dwindles s (s.withdrawPrompt tag) := by
  unfold State.withdrawPrompt
  split
  · exact State.leaveList_dwindles.trans (.of_pr State.clearAwaiting_pr)
  · exact .refl s

theorem State.enter_dwindles {st : ReqState} {reason : Option WaitReason} : Dwindles s (s.enter tag st reason) :=
  State.withdrawPrompt_dwindles (tag := tag)

/-- What a request is that has finished (R56). -/
def Request.finishedBy (reply : Reply) (r : Request) : Request := { r with
  state := .finished, outcome := some reply, volume := none, claimed := none, order := none, prompt := none, resume := none,
  reason := none, pending := none, timer := none, after := none, toStation := false, awaitVolume := none }

/-- A final reply joins those that are owed. -/
def State.oweFinal (s : State) (tag : Half) (reply : Reply) : State :=
  { s with port := { s.port with replyOwed := s.port.replyOwed ++ [(tag, reply)] } }

theorem State.oweFinal_pr : (s.oweFinal tag reply).pr = s.pr := rfl

theorem State.oweFinal_request? {other : Half} : (s.oweFinal tag reply).request? other = s.request? other := rfl

theorem State.oweFinal_replyOwed : (s.oweFinal tag reply).port.replyOwed = s.port.replyOwed ++ [(tag, reply)] := rfl

theorem State.finish_eq (hr : s.request? tag = some r) : s.finish tag reply =
    ((((s.withdrawPrompt tag).clearAwaiting tag).updRequest tag (Request.finishedBy reply)).oweFinal tag reply) := by
  unfold State.finish
  rw [hr]
  rfl

theorem State.finish_dwindles : Dwindles s (s.finish tag reply) := by
  cases hr : s.request? tag with
  | none =>
    unfold State.finish
    rw [hr]
    exact .refl s
  | some r =>
    rw [State.finish_eq hr]
    refine (State.withdrawPrompt_dwindles (tag := tag)).trans (.of_pr ?_)
    rw [State.oweFinal_pr, State.updRequest_pr, State.clearAwaiting_pr]

/-- A prompt that has left the list is outstanding no more, when what follows issues none. -/
theorem Dwindles.answered {line : Bool} (h : Dwindles (w.leaveList n line) u) (howed : w.pr.owed = s.pr.owed) : answeredPrompt s u n := by
  intro hnone
  rw [← howed] at hnone
  obtain ⟨hout, hlist⟩ := State.leaveList_list (n := n) (line := line) hnone
  obtain ⟨_, hsub⟩ := h hout
  refine List.find?_eq_none.mpr (fun q hq hnumber => ?_)
  have hleft := hsub q hq
  rw [hlist, List.mem_filter] at hleft
  exact absurd (beq_iff_eq.mp hnumber) (bne_iff_ne.mp hleft.2)

/-! ### What a request keeps when its prompt leaves the list -/

/-- A request but for its state and what goes with it: its prompt, its resume state and its timer. -/
def Request.core (r : Request) : Request := { r with state := .queued, prompt := none, resume := none, timer := none }

/-- The queue but for the states of its requests. -/
def State.cores (s : State) : List Request := s.ms.queue.map Request.core

theorem State.request?_core : (s.request? tag).map Request.core = s.cores.find? (fun r => r.tag == tag) := by
  unfold State.cores
  rw [List.find?_map]
  rfl

/-- A request is found again in a queue of the same requests. -/
theorem State.request?_of_cores (h : t.cores = s.cores) (hr : s.request? tag = some r) : ∃ q, t.request? tag = some q ∧ q.core = r.core := by
  have hfound : (t.request? tag).map Request.core = some r.core := by rw [State.request?_core, h, ← State.request?_core, hr]; rfl
  exact Option.map_eq_some_iff.mp hfound

theorem State.othersName_of_cores (h : t.cores = s.cores) : t.othersName tag e = s.othersName tag e := by
  have hcores {v : State} : v.othersName tag e = v.cores.any (fun r => r.tag != tag && r.volume == some e) := by
    unfold State.cores
    rw [List.any_map]
    rfl
  rw [hcores, hcores, h]

theorem State.cores_of_ms (h : t.ms = s.ms) : t.cores = s.cores := by rw [State.cores, h, State.cores]

theorem State.unprompt_cores : (s.unprompt n).cores = s.cores := by
  unfold State.cores State.unprompt
  rw [List.map_map]
  refine List.map_congr_left (fun r _ => ?_)
  dsimp only [Function.comp]
  split <;> rfl

theorem State.leaveList_cores {line : Bool} : (s.leaveList n line).cores = s.cores := by
  have hms := State.leaveList_ms (s := s) (n := n) (line := line)
  split at hms
  · exact (State.cores_of_ms hms).trans State.unprompt_cores
  · exact State.cores_of_ms hms

theorem State.withdrawPrompt_cores : (s.withdrawPrompt tag).cores = s.cores := by
  unfold State.withdrawPrompt
  split
  · exact (State.cores_of_ms State.clearAwaiting_ms).trans State.leaveList_cores
  · rfl

/-- A request has entered a state: it names no prompt, and keeps the rest. -/
theorem State.enter_request? {st : ReqState} {reason : Option WaitReason} (hr : s.request? tag = some r) : ∃ q,
    (s.enter tag st reason).request? tag = some q ∧ q.state = st ∧ q.reason = reason ∧ q.prompt = none ∧ q.resume = none ∧
      q.core = { r.core with reason := reason } := by
  obtain ⟨x, hx, hcore⟩ := State.request?_of_cores State.withdrawPrompt_cores hr (t := s.withdrawPrompt tag)
  have htag := (State.request?_mem hx).2
  have hentered : (s.enter tag st reason).request? tag = some { x with
      state := st, reason := reason, prompt := none, resume := none, timer := (s.withdrawPrompt tag).timerIn x st } := by
    unfold State.enter
    rw [State.updRequest_request?, hx, Option.map_some, if_pos htag]
    exact fun _ => rfl
  refine ⟨_, hentered, rfl, rfl, rfl, rfl, ?_⟩
  exact congrArg (fun y : Request => { y with reason := reason }) hcore

/-- A request that finishes owes its reply and holds nothing (R56). -/
theorem State.finish_finished (hr : s.request? tag = some r) : finishedWith s (s.finish tag reply) r reply := by
  have hcores : ((s.withdrawPrompt tag).clearAwaiting tag).cores = s.cores :=
    (State.cores_of_ms State.clearAwaiting_ms).trans State.withdrawPrompt_cores
  obtain ⟨x, hx, _⟩ := State.request?_of_cores hcores hr
  have htag := (State.request?_mem hx).2
  have hrtag := (State.request?_mem hr).2
  have howed : ((s.withdrawPrompt tag).clearAwaiting tag).port.replyOwed = s.port.replyOwed :=
    State.clearAwaiting_replyOwed.trans State.withdrawPrompt_replyOwed
  rw [State.finish_eq hr]
  unfold finishedWith
  rw [hrtag]
  have hupdated : (((s.withdrawPrompt tag).clearAwaiting tag).updRequest tag (Request.finishedBy reply)).port.replyOwed = s.port.replyOwed := by
    rw [State.updRequest_port]
    exact howed
  refine ⟨by rw [State.oweFinal_replyOwed, hupdated], x.finishedBy reply, ?_, rfl, rfl, rfl, rfl, rfl⟩
  rw [State.oweFinal_request?, State.updRequest_request? (f := Request.finishedBy reply) (fun _ => rfl), hx, Option.map_some, if_pos htag]

/-! ### An accepted reply -/

/-- The part when a reply has been answered ACCEPTED. -/
def State.accepted (s : State) : State :=
  { s with pr := { s.pr with held := [], tooLong := false, answers := s.pr.answers ++ [Answer.accepted] } }

/-- A reply command of a prompt of its kind that accepts the word is answered, and acts (R141). -/
theorem State.replies_of {c : Instr} {p : Prompt} {k : PromptKind} {x : ReplyWord} (hroom : s.pr.answers.length < 4) (hp : s.prompt? n = some p)
    (hc : replyOf c = some (k, n, x)) (hkind : p.kind = k) (hword : p.accepts.contains x = true) : s.replies c (s.accepted.actReply p x) := by
  have hreply : s.emptied.reply n (· == k) x = s.accepted.act (fun s => s.actReply p x) := by
    unfold State.reply
    rw [show s.emptied.prompt? n = some p from hp]
    dsimp only
    rw [if_pos (by rw [hkind, hword, beq_self_eq_true]; rfl)]
    rfl
  unfold State.replies
  rw [exec_reply hc, State.lineEnded_room hroom, hreply]
  rfl

/-- The part when the answered prompt of a request has left the list, its claim and session marked assisted (R55). -/
def State.replied (s : State) (r : Request) (n : Nat) : State := (s.accepted.markAssisted r).leaveList n false

theorem prompt?_number {p : Prompt} (hp : s.prompt? n = some p) : p.number = n := by simpa using List.find?_some hp

theorem State.actReply_request {p : Prompt} {x : ReplyWord} (hp : s.prompt? n = some p) (hrelated : p.kind.requestRelated = true)
    (htag : p.tag = some tag) (hr : s.request? tag = some r) (hx : x ≠ .fit) : s.accepted.actReply p x = (s.replied r n).requestReply p r x := by
  have hprompted : s.accepted.promptedRequest p = some r := by
    unfold State.promptedRequest
    rw [htag]
    exact hr
  unfold State.actReply State.replied
  rw [if_pos hrelated, hprompted, prompt?_number hp]
  dsimp only
  rw [if_neg hx]

theorem State.markAssisted_part {β : Type} {g : State → β} (hg : ∀ (v : State) (c : Fin 16) (f : Drive → Drive), g (v.updDrive c f) = g v) :
    g (s.markAssisted r) = g s := by
  unfold State.markAssisted
  split
  · exact hg _ _ _
  · rfl

theorem State.replied_owed : (s.accepted.markAssisted r).pr.owed = s.pr.owed :=
  State.markAssisted_part (g := fun v => v.pr.owed) (fun _ _ _ => rfl)

theorem State.replied_cores : (s.replied r n).cores = s.cores :=
  State.leaveList_cores.trans (State.markAssisted_part (g := State.cores) (fun _ _ _ => rfl))

theorem State.replied_replyOwed : (s.replied r n).port.replyOwed = s.port.replyOwed :=
  State.leaveList_replyOwed.trans (State.markAssisted_part (g := fun v => v.port.replyOwed) (fun _ _ _ => rfl))

theorem State.replied_dir : (s.replied r n).dir = s.dir :=
  State.leaveList_aside.dir.trans (State.markAssisted_part (g := State.dir) (fun _ _ _ => rfl))

/-- The assisted mark leaves the tag of a drive's claim and what its session shows. -/
theorem State.replied_drive : ((s.replied r n).drive d).claimTag = (s.drive d).claimTag ∧ (s.replied r n).readOnlyFlag d = s.readOnlyFlag d := by
  have hleft : (s.replied r n).drive d = (s.accepted.markAssisted r).drive d := State.leaveList_aside.drive
  have hmarked : ((s.accepted.markAssisted r).drive d).claimTag = (s.drive d).claimTag ∧
      ((s.accepted.markAssisted r).drive d).session.any (·.readOnly) = (s.drive d).session.any (·.readOnly) := by
    unfold State.markAssisted
    split
    · rename_i own _
      by_cases hd : d = own
      · subst hd
        rw [State.updDrive_drive_self]
        have hsame : s.accepted.drive d = s.drive d := rfl
        rw [hsame]
        constructor
        · unfold Drive.claimTag
          dsimp only
          rw [Option.bind_map]
          rfl
        · dsimp only
          rw [Option.any_map]
      · rw [State.updDrive_drive_ne hd]
        exact ⟨rfl, rfl⟩
    · exact ⟨rfl, rfl⟩
  unfold State.readOnlyFlag
  rw [hleft]
  exact hmarked

/-- The request found again when its prompt has left the list. -/
theorem State.replied_request (hr : s.request? tag = some r) : ∃ q, (s.replied r n).request? tag = some q ∧ q.core = r.core :=
  State.request?_of_cores State.replied_cores hr

/-- A request that finishes from where its reply has left it. -/
theorem State.finishedWith_of (hr : w.request? tag = some q) (howed : w.port.replyOwed = s.port.replyOwed) (htag : q.tag = r.tag) :
    finishedWith s (w.finish tag reply) r reply := by
  obtain ⟨hreply, x, hx⟩ := State.finish_finished (reply := reply) hr
  rw [howed, htag] at hreply
  rw [htag] at hx
  exact ⟨hreply, x, hx⟩

/-! ### A claim given up -/

@[simp] theorem State.updAccount_pr {i : Nat} {f : Account → Account} : (s.updAccount i f).pr = s.pr := by
  unfold State.updAccount
  split <;> rfl

@[simp] theorem State.updAccount_ms {i : Nat} {f : Account → Account} : (s.updAccount i f).ms = s.ms := by
  unfold State.updAccount
  split <;> rfl

@[simp] theorem State.updAccount_port {i : Nat} {f : Account → Account} : (s.updAccount i f).port = s.port := by
  unfold State.updAccount
  split <;> rfl

/-- The record of a claim is none of the prompts', the queue's or the port's. -/
theorem State.recordClaim_rest {session : Option Session} {outcome : RecOutcome} : (s.recordClaim d session outcome).pr = s.pr ∧
    (s.recordClaim d session outcome).ms = s.ms ∧ (s.recordClaim d session outcome).port = s.port := by
  unfold State.recordClaim
  split
  · exact ⟨rfl, rfl, rfl⟩
  · split
    · simp [State.putRecord]
    · exact ⟨rfl, rfl, rfl⟩

/-- The end of a claim leaves the prompts, the port, and of a request all but the drive it has claimed. -/
theorem State.endClaim_rest : (s.endClaim d).pr = s.pr ∧ (s.endClaim d).port = s.port ∧
    ∀ r, s.request? tag = some r → ∃ q, (s.endClaim d).request? tag = some q ∧ q = { r with claimed := q.claimed } := by
  unfold State.endClaim
  split
  · exact ⟨rfl, rfl, fun r hr => ⟨r, hr, rfl⟩⟩
  · rename_i claim _
    unfold State.countClaimEnd State.dropClaimed
    have hcounted {v : State} : ((v.updAccount claim.account (fun a => { a with inUse := a.inUse - 1 })).notify .walk).request? tag =
        v.request? tag := by rw [State.notify_request?]; unfold State.request?; rw [State.updAccount_ms]
    split
    · rename_i own _
      refine ⟨?_, ?_, fun r hr => ?_⟩
      · rw [State.updRequest_pr, State.notify_pr, State.updAccount_pr, State.updDrive_pr]
      · rw [State.updRequest_port, State.notify_port, State.updAccount_port, State.updDrive_port]
      · rw [State.updRequest_request? (f := fun r => { r with claimed := none }) (fun _ => rfl), hcounted]
        rw [show (s.updDrive d (fun x => { x with claim := none })).request? tag = some r from hr, Option.map_some]
        refine ⟨_, rfl, ?_⟩
        split <;> rfl
    · refine ⟨?_, ?_, fun r hr => ⟨r, hcounted.trans hr, rfl⟩⟩
      · rw [State.notify_pr, State.updAccount_pr, State.updDrive_pr]
      · rw [State.notify_port, State.updAccount_port, State.updDrive_port]

theorem State.giveUpClaim_rest {outcome : RecOutcome} : (s.giveUpClaim d outcome).pr = s.pr ∧ (s.giveUpClaim d outcome).port = s.port ∧
    ∀ r, s.request? tag = some r → ∃ q, (s.giveUpClaim d outcome).request? tag = some q ∧ q = { r with claimed := q.claimed } := by
  obtain ⟨hpr, hms, hport⟩ := State.recordClaim_rest (s := s) (d := d) (session := none) (outcome := outcome)
  obtain ⟨kpr, kport, krequest⟩ := State.endClaim_rest (s := (s.recordClaim d none outcome).stopLoadTimer d) (d := d) (tag := tag)
  have hrequest (r : Request) (hr : s.request? tag = some r) :
      ∃ q, (((s.recordClaim d none outcome).stopLoadTimer d).endClaim d).request? tag = some q ∧ q = { r with claimed := q.claimed } := by
    refine krequest r ?_
    change (s.recordClaim d none outcome).request? tag = some r
    unfold State.request? at hr ⊢
    rw [hms]
    exact hr
  unfold State.giveUpClaim State.restDrive
  dsimp only
  split
  · exact ⟨kpr.trans hpr, kport.trans hport, hrequest⟩
  · rw [State.notify_pr, State.notify_port]
    refine ⟨kpr.trans hpr, kport.trans hport, fun r hr => ?_⟩
    rw [State.notify_request?]
    exact hrequest r hr

/-- A claim dropped, where it may be (R28). -/
theorem State.dropClaim_rest {outcome : RecOutcome} {own : Half} : (s.dropClaim own outcome).pr = s.pr ∧
    (s.dropClaim own outcome).port = s.port ∧
    ∀ r, s.request? tag = some r → ∃ q, (s.dropClaim own outcome).request? tag = some q ∧ q = { r with claimed := q.claimed } := by
  unfold State.dropClaim
  split
  · dsimp only
    split
    · exact State.giveUpClaim_rest
    · exact ⟨rfl, rfl, fun r hr => ⟨r, hr, rfl⟩⟩
  · exact ⟨rfl, rfl, fun r hr => ⟨r, hr, rfl⟩⟩

/-! ### The replies that settle a request (O42) -/

/-- LABEL_MISMATCH ACCEPT of a request that holds its drive: MOUNTED, with the serial of its volume and the override flag of the session (R68). -/
theorem State.labelAccept_replied {serial : Text} (hown : s.ownDrive r = some d) (hserial : r.volume.bind s.serialOf = some serial) :
    (s.replied r n).labelAccept r = (s.replied r n).finish r.tag (.mounted d serial (s.readOnlyFlag d)) := by
  have hownDrive : (s.replied r n).ownDrive r = some d := by
    rw [← hown]
    unfold State.ownDrive
    congr 1
    funext c
    rw [State.replied_drive.1]
  have hserialOf : (s.replied r n).serialOf = s.serialOf := by
    funext e
    unfold State.serialOf State.vol?
    rw [State.replied_dir]
  unfold State.labelAccept
  rw [hownDrive]
  dsimp only
  unfold State.finishMounted
  rw [hserialOf, hserial, State.replied_drive.2]
  rfl

/-- VOLUME_SUSPECT PROCEED: the volume is named, unless another request names it, and the request goes on (R71). -/
theorem State.suspectProceed_spec (hq : w.request? r.tag = some q) : Dwindles w (w.suspectProceed r (some e)) ∧
    ∃ x, (w.suspectProceed r (some e)).request? r.tag = some x ∧ x.proceeded = some e ∧ x.prompt = none ∧
      x.state = if w.othersName r.tag e then .waitVolume else r.resumes := by
  have hqtag := (State.request?_mem hq).2
  let begun := w.updRequest r.tag (fun r => { r with proceeded := some e })
  have hbegun : begun.request? r.tag = some { q with proceeded := some e } := by
    rw [State.updRequest_request? (f := fun r => { r with proceeded := some e }) (fun _ => rfl), hq, Option.map_some, if_pos hqtag]
  have hothers : begun.othersName r.tag e = w.othersName r.tag e := by
    unfold State.othersName
    rw [show begun.ms.queue = w.ms.queue.map (fun y => if y.tag = r.tag then { y with proceeded := some e } else y) from rfl, List.any_map]
    congr 1
    funext y
    dsimp only [Function.comp]
    split <;> rfl
  have hproceeds : w.suspectProceed r (some e) = if w.othersName r.tag e then begun.enter r.tag .waitVolume (some .volume)
      else (begun.nameVolume r.tag e).enter r.tag r.resumes (reasonFor r.resumes) := by
    rw [← hothers]
    rfl
  rw [hproceeds]
  split
  · obtain ⟨x, hx, hstate, _, hprompt, _, hcore⟩ := State.enter_request? (st := .waitVolume) (reason := some .volume) hbegun
    exact ⟨Dwindles.trans (t := begun) (.of_pr rfl) State.enter_dwindles, x, hx, congrArg Request.proceeded hcore, hprompt, hstate⟩
  · rename_i hfree
    have hnamed : begun.nameVolume r.tag e = begun.updRequest r.tag (fun r => { r with volume := some e }) := by
      unfold State.nameVolume
      rw [hothers, if_neg hfree]
    have hrequest : (begun.nameVolume r.tag e).request? r.tag = some { q with proceeded := some e, volume := some e } := by
      rw [hnamed, State.updRequest_request? (f := fun r => { r with volume := some e }) (fun _ => rfl), hbegun, Option.map_some, if_pos hqtag]
    obtain ⟨x, hx, hstate, _, hprompt, _, hcore⟩ := State.enter_request? (st := r.resumes) (reason := reasonFor r.resumes) hrequest
    have hpr : (begun.nameVolume r.tag e).pr = w.pr := by rw [hnamed]; rfl
    exact ⟨Dwindles.trans (t := begun.nameVolume r.tag e) (.of_pr hpr) State.enter_dwindles, x, hx, congrArg Request.proceeded hcore, hprompt, hstate⟩

/-- Settles O42: the answered prompt has left the list (`State.replied`), and the request finishes, waits or goes on from there. -/
theorem repliesThatSettleARequest : Obligations.RepliesThatSettleARequest := by
  intro s n p tag r hroom hp htag hr finishes waits
  obtain rfl : r.tag = tag := (State.request?_mem hr).2
  obtain ⟨q, hq, hcore⟩ := State.replied_request (n := n) hr
  have hqtag : q.tag = r.tag := (State.request?_mem hq).2
  have hanswered {u : State} (h : Dwindles (s.replied r n) u) : answeredPrompt s u n := h.answered State.replied_owed
  have hreplies {c : Instr} {k : PromptKind} {x : ReplyWord} {u : State} (hc : replyOf c = some (k, n, x)) (hkind : p.kind = k)
      (hrelated : k.requestRelated = true) (hword : p.accepts.contains x = true) (hx : x ≠ .fit)
      (hu : (s.replied r n).requestReply p r x = u) : s.replies c u := by
    rw [← hu, ← State.actReply_request hp (by rw [hkind]; exact hrelated) htag hr hx]
    exact State.replies_of hroom hp hc hkind hword
  have hfinished {reply : Reply} {v : State} (hv : ∃ q, v.request? r.tag = some q) (howed : v.port.replyOwed = s.port.replyOwed)
      (hpr : v.pr = (s.replied r n).pr) : answeredPrompt s (v.finish r.tag reply) n ∧ finishedWith s (v.finish r.tag reply) r reply := by
    obtain ⟨x, hx⟩ := hv
    exact ⟨hanswered ((Dwindles.of_pr hpr).trans State.finish_dwindles), State.finishedWith_of hx howed (State.request?_mem hx).2⟩
  have hfinish {reply : Reply} := hfinished (reply := reply) ⟨q, hq⟩ State.replied_replyOwed rfl
  have hwait {reason : WaitReason} : answeredPrompt s ((s.replied r n).enter r.tag .waitVolume (some reason)) n ∧
      waitsFor ((s.replied r n).enter r.tag .waitVolume (some reason)) r reason := by
    obtain ⟨x, hx, hstate, hreason, hprompt, hresume, _⟩ := State.enter_request? (st := .waitVolume) (reason := some reason) hq
    exact ⟨hanswered State.enter_dwindles, x, hx, hstate, hreason, hprompt, hresume⟩
  refine ⟨fun hkind => ?suspect, fun hkind => ⟨?lost, ?found⟩, fun hkind => ⟨?empty, ?refilled⟩, fun hkind => ?manual,
    fun hkind d serial hown hserial => ?label, fun hkind e he => ?proceed⟩
  case suspect => exact ⟨_, hreplies rfl hkind rfl (by simp [Prompt.accepts, hkind]) nofun (by unfold State.requestReply; rw [hkind]), hfinish⟩
  case lost => exact ⟨_, hreplies rfl hkind rfl (by simp [Prompt.accepts, hkind]) nofun (by unfold State.requestReply; rw [hkind]), hfinish⟩
  case found => exact ⟨_, hreplies rfl hkind rfl (by simp [Prompt.accepts, hkind]) nofun (by unfold State.requestReply; rw [hkind]; rfl), hwait⟩
  case empty => exact ⟨_, hreplies rfl hkind rfl (by simp [Prompt.accepts, hkind]) nofun (by unfold State.requestReply; rw [hkind]), hfinish⟩
  case refilled => exact ⟨_, hreplies rfl hkind rfl (by simp [Prompt.accepts, hkind]) nofun (by unfold State.requestReply; rw [hkind]; rfl), hwait⟩
  case manual =>
    obtain ⟨hpr, hport, hrequest⟩ := State.dropClaim_rest (s := s.replied r n) (own := r.tag) (outcome := .failed) (tag := r.tag)
    obtain ⟨x, hx, _⟩ := hrequest q hq
    refine ⟨((s.replied r n).dropClaim r.tag .failed).finish r.tag (.failed .operatorCancel),
      hreplies rfl hkind rfl (by simp [Prompt.accepts, hkind]) nofun (by unfold State.requestReply; rw [hkind]; rfl), ?_⟩
    exact hfinished ⟨x, hx⟩ (by rw [hport]; exact State.replied_replyOwed) hpr
  case label =>
    refine ⟨_, hreplies rfl hkind rfl (by simp [Prompt.accepts, hkind]) nofun ?_, hfinish⟩
    unfold State.requestReply
    rw [hkind]
    exact State.labelAccept_replied hown hserial
  case proceed =>
    obtain ⟨hdwindles, x, hx, hproceeded, hprompt, hstate⟩ := State.suspectProceed_spec (e := e) hq
    refine ⟨(s.replied r n).suspectProceed r (some e), hreplies rfl hkind rfl (by simp [Prompt.accepts, hkind]) nofun ?_, hanswered hdwindles,
      x, hx, hproceeded, hprompt, ?_⟩
    · unfold State.requestReply
      rw [hkind, he]
    · rw [hstate, State.othersName_of_cores State.replied_cores]

end Sys2Proof.Machine
end

section
/-! PROOFS. The replies to equipment prompts (O44). -/

namespace Sys2Proof.Machine

variable {s t u w : State} {a : ArmId} {d : Fin 16} {e n : Nat} {p : Prompt}

/-! ### Operations that leave the prompts -/

@[simp] theorem State.makeMissing_pr : (s.makeMissing e).pr = s.pr := by
  unfold State.makeMissing
  split
  · exact State.relocate_pr
  · rfl

@[simp] theorem State.clearDriveVolume_pr : (s.clearDriveVolume d).pr = s.pr := by
  unfold State.clearDriveVolume State.loseFrom
  split
  · rw [State.updDrive_pr]
    split
    · exact State.makeMissing_pr
    · rfl
  · rfl

@[simp] theorem State.nameOnDrive_pr : (s.nameOnDrive d e).pr = s.pr := by
  unfold State.nameOnDrive
  split
  · rfl
  · dsimp only
    rw [State.updDrive_pr, State.relocate_pr]
    split
    · rfl
    · exact State.clearDriveVolume_pr

@[simp] theorem State.countMount_pr {protect scratch : Bool} {density : Option Density} : (s.countMount e protect density scratch).pr = s.pr := by
  unfold State.countMount
  split <;> rfl

@[simp] theorem State.takeLoad_pr : (s.takeLoad d).pr = s.pr := by
  cases hclaim : (s.drive d).claim with
  | none =>
    unfold State.takeLoad
    dsimp only
    rw [hclaim]
  | some claim =>
    have hnamed : (s.namedByHand d claim).pr = s.pr := by
      unfold State.namedByHand State.nameByHand
      split
      · exact State.nameOnDrive_pr
      · rfl
    obtain ⟨density, hload⟩ := State.takeLoad_eq hclaim
    rw [hload, State.notify_pr]
    split
    · exact State.countMount_pr.trans hnamed
    · exact hnamed

@[simp] theorem State.completeSession_pr : (s.completeSession d).pr = s.pr := by
  unfold State.completeSession
  split
  · rfl
  · exact State.recordClaim_rest.1

theorem State.releaseReel_pr : (s.releaseReel d).pr = s.pr := by
  unfold State.releaseReel State.closeSession
  dsimp only
  rw [State.notify_pr, State.setDriveState_pr]
  split
  · rfl
  · exact State.completeSession_pr

theorem State.leaveCheck_dwindles : Dwindles s (s.leaveCheck d) := by
  unfold State.leaveCheck
  split
  · exact State.endEquipment_dwindles
  · exact .refl s

theorem State.checkLoaded_dwindles : Dwindles s (s.checkLoaded d) := by
  refine (State.leaveCheck_dwindles (d := d)).trans (.of_pr ?_)
  unfold State.checkLoaded
  dsimp only
  (repeat' split) <;> simp

theorem State.checkEmpty_dwindles : Dwindles s (s.checkEmpty d) := by
  let cleared := ((s.reelGone d).recordClaim d (s.drive d).session .failed).updDrive d (fun x => { x with session := none })
  have hgone : (s.reelGone d).pr = s.pr := by
    unfold State.reelGone
    split
    · rw [State.clearDriveVolume_pr, State.makeMissing_pr]
    · rfl
  have hended : (cleared.endClaim d).pr = s.pr := (State.endClaim_rest (tag := 0)).1.trans (State.recordClaim_rest.1.trans hgone)
  have hempty : (s.checkEmpty d).pr = ((cleared.endClaim d).leaveCheck d).pr := by
    unfold State.checkEmpty
    dsimp only
    rw [State.notify_pr, State.notify_pr, State.setDriveState_pr]
    rfl
  exact (Dwindles.of_pr hended).trans (State.leaveCheck_dwindles.trans (.of_pr hempty))

/-- The levels of a drive in CHECK are read again without a prompt of their own. -/
theorem State.recheck_dwindles {offline : Bool} : Dwindles s (s.recheck d offline) := by
  have hw : (s.checkBegun d offline).pr = s.pr := by cases offline <;> rfl
  by_cases hcheck : (s.drive d).state = .check
  · rw [State.recheck_eq hcheck]
    dsimp only
    refine (Dwindles.of_pr hw).trans ?_
    generalize s.checkBegun d offline = w
    split
    · exact State.leaveCheck_dwindles.trans (.of_pr (State.releaseReel_pr.trans State.completeSession_pr))
    · split
      · split
        · exact State.checkLoaded_dwindles (s := w) (d := d)
        · exact State.checkLoaded_dwindles
      · exact State.checkEmpty_dwindles
  · unfold State.recheck
    rw [if_pos hcheck]
    exact .refl s

@[simp] theorem State.placeFailed_pr : (s.placeFailed d).pr = s.pr := by
  unfold State.placeFailed State.loseClaim
  dsimp only
  split
  · rfl
  · split
    · exact (State.giveUpClaim_rest (tag := 0)).1
    · split
      · rw [State.notify_pr, State.setDriveState_pr]
        exact (State.endClaim_rest (tag := 0)).1.trans State.recordClaim_rest.1
      · rfl

@[simp] theorem State.sendArm_pr {f : ArmFrame} : (s.sendArm a f).pr = s.pr := by
  unfold State.sendArm State.putOnLine
  dsimp only
  split
  · cases f <;> simp
  · exact State.setArmPort_pr

theorem State.enterHoming_dwindles : Dwindles s (s.enterHoming a) := by
  have hdropped {v : State} : (v.dropLegs a).pr = v.pr := by
    unfold State.dropLegs
    exact (foldl_part (g := State.pr) (fun _ _ => State.placeFailed_pr) _ _).trans State.setArmPort_pr
  have hwithdrawn {v : State} : (v.withdrawClaim a).pr = v.pr := rfl
  have hbegun : Dwindles s (if (s.arm a).state = .outOfService then s.endEquipment (.armOut a) else s) := by
    split
    · exact State.endEquipment_dwindles
    · exact .refl s
  refine hbegun.trans (.of_pr ?_)
  unfold State.enterHoming State.takePath
  dsimp only
  generalize (if (s.arm a).state = .outOfService then s.endEquipment (.armOut a) else s) = begun
  split <;> simp [hdropped, hwithdrawn]

/-! ### The replies (O44) -/

theorem State.armIn_dwindles : Dwindles s (s.armIn a) := by
  have hcleared : (s.updArm a (fun x => { x with leaveMark := false })).pr = s.pr := State.updArm_pr
  unfold State.armIn
  dsimp only
  split
  · exact (Dwindles.of_pr hcleared).trans State.enterHoming_dwindles
  · exact .of_pr hcleared

/-- An answered equipment prompt leaves the list, and its owner acts. -/
theorem State.actReply_equipment {x : ReplyWord} (hp : s.prompt? n = some p) (hrelated : p.kind.requestRelated = false) (hx : x ≠ .fit) :
    s.accepted.actReply p x = (s.accepted.leaveList n false).equipmentReply p x := by
  unfold State.actReply
  rw [if_neg (by rw [hrelated]; exact Bool.false_ne_true), prompt?_number hp]
  dsimp only
  rw [if_neg hx]

theorem State.testOwed_notices {l : List Equipment} : (s.testOwed l).notices = s.notices := by
  induction l with
  | nil => rfl
  | cons e rest ih =>
    unfold State.testOwed
    split
    · simp [State.issue, State.attend_eq]
    · exact ih

/-- A STATION_UNKNOWN that leaves the list has its position tested (R156). -/
theorem State.leaveList_tests {q : Fin 8} {line : Bool} (hp : s.prompt? n = some p) (hkind : p.kind = .stationUnknown) (hq : p.position = some q) :
    Notice.importTest q ∈ (s.leaveList n line).notices := by
  rw [State.leaveList_some hp, State.testOwed_notices]
  unfold State.tellPosition
  rw [hkind, hq]
  exact State.mem_notify

/-- Settles O44: the prompt leaves the list, then the position is tested, the arm homes (`State.armIn_spec`) or the levels of the drive are read again
(`State.recheck_drive`). -/
theorem equipmentReplies : Obligations.EquipmentReplies := by
  intro s n p hroom hp does
  let left := s.accepted.leaveList n false
  have haside : Aside s.accepted left := State.leaveList_aside
  have hdoes {c : Instr} {k : PromptKind} {x : ReplyWord} {effect : State → Prop} {u : State} (hc : replyOf c = some (k, n, x)) (hkind : p.kind = k)
      (hrelated : k.requestRelated = false) (hword : p.accepts.contains x = true) (hx : x ≠ .fit) (hu : left.equipmentReply p x = u)
      (hdwindles : Dwindles left u) (heffect : effect u) : does c effect := by
    refine ⟨u, ?_, Dwindles.answered (w := s.accepted) hdwindles rfl, heffect⟩
    rw [← hu, ← State.actReply_equipment hp (by rw [hkind]; exact hrelated) hx]
    exact State.replies_of hroom hp hc hkind hword
  have harm {b : ArmId} : left.arm b = s.arm b := State.arm_of_sch State.leaveList_sch
  have hdrive {c : Fin 16} : left.drive c = s.drive c := haside.drive
  refine ⟨fun hkind q hq => ?station, fun hkind a ha => ⟨?keep, fun hout => ?home⟩, fun hkind d hd hcheck => ?drive⟩
  case station =>
    refine hdoes rfl hkind rfl (by simp [Prompt.accepts, hkind]) nofun (u := left) ?_ (.refl left) (fun x => ⟨haside.station, ?_⟩)
    · unfold State.equipmentReply
      rw [hkind]
    · exact State.leaveList_tests hp hkind hq
  case keep =>
    refine hdoes rfl hkind rfl (by simp [Prompt.accepts, hkind]) nofun (u := left) ?_ (.refl left) (fun b => harm)
    unfold State.equipmentReply
    rw [hkind, ha]
  case home =>
    refine hdoes rfl hkind rfl (by simp [Prompt.accepts, hkind]) nofun (u := left.armIn a) ?_ State.armIn_dwindles ?_
    · unfold State.equipmentReply
      rw [hkind, ha]
    · obtain ⟨hmark, hstate, hcount⟩ := State.armIn_spec (s := left) (a := a)
      rw [harm] at hstate hcount
      exact ⟨hstate.trans (if_pos hout), hmark, hcount hout⟩
  case drive =>
    have hreads {effect : State → Prop} (heffect : effect (left.recheck d false)) : does (.driveCheckDone n) effect := by
      refine hdoes rfl hkind rfl (by simp [Prompt.accepts, hkind]) nofun ?_ State.recheck_dwindles heffect
      unfold State.equipmentReply
      rw [hkind, hd]
    have hoffline {effect : State → Prop} (heffect : effect (left.recheck d true)) : does (.driveCheckOffline n) effect := by
      refine hdoes rfl hkind rfl (by simp [Prompt.accepts, hkind]) nofun ?_ State.recheck_dwindles heffect
      unfold State.equipmentReply
      rw [hkind, hd]
    have hsettings : left.port.settings = s.port.settings := (Keeps.leaveList (L := noLaw) (Keeps.refl s.accepted)).settings
    have hdone := State.recheck_drive (s := left) (d := d) (offline := false) (by rw [hdrive]; exact hcheck)
    have hout := State.recheck_drive (s := left) (d := d) (offline := true) (by rw [hdrive]; exact hcheck)
    have hwidth : left.pulseWidth = s.pulseWidth := State.setting_of_settings hsettings
    have hlimit : left.releaseLimit = s.releaseLimit := State.setting_of_settings hsettings
    rw [hdrive, hwidth, hlimit] at hdone hout
    obtain ⟨hreleased, hloaded, hempty⟩ := hdone
    obtain ⟨kreleased, kloaded, kempty⟩ := hout
    refine ⟨fun hr => ⟨hreads (hreleased hr), hoffline (kreleased hr)⟩, fun hr hl => ⟨hreads ?_, hoffline ?_⟩,
      fun hr hl => ⟨hreads ?_, hoffline ?_⟩⟩
    · obtain ⟨hstate, honline, _⟩ := hloaded hr hl
      exact ⟨hstate, honline⟩
    · obtain ⟨hstate, honline, hpulse⟩ := kloaded hr hl
      exact ⟨hstate, honline, hpulse rfl⟩
    · obtain ⟨hstate, _, hrest⟩ := hempty hr hl
      exact ⟨hstate, hrest⟩
    · exact kempty hr hl

end Sys2Proof.Machine
end

section
/-! PROOFS. Legs that complete (O50): what the orders' operations leave of grippers, drives, positions and the directory, and what a leg makes of them. -/

namespace Sys2Proof.Machine

variable {s t u : State} {a b : ArmId} {d : Fin 16} {p : Fin 8} {e n : Nat} {o : Order} {v : Volume}

/-! ### What holds what -/

/-- The directory, the drives, the requests, what the grippers hold, the columns of the arms, and what the positions record and whether it is
lifted are kept. -/
structure Contents (s t : State) : Prop where
  dir : t.dir = s.dir
  drv : t.drv = s.drv
  ms : t.ms = s.ms
  arms : ∀ b, (t.arm b).gripper = (s.arm b).gripper ∧ (t.arm b).column = (s.arm b).column
  stations : ∀ p, (t.station p).volume = (s.station p).volume ∧ (t.station p).lifted = (s.station p).lifted

theorem Contents.refl (s : State) : Contents s s := ⟨rfl, rfl, rfl, fun _ => ⟨rfl, rfl⟩, fun _ => ⟨rfl, rfl⟩⟩

theorem Contents.trans (h : Contents s t) (k : Contents t u) : Contents s u where
  dir := k.dir.trans h.dir
  drv := k.drv.trans h.drv
  ms := k.ms.trans h.ms
  arms b := ⟨(k.arms b).1.trans (h.arms b).1, (k.arms b).2.trans (h.arms b).2⟩
  stations p := ⟨(k.stations p).1.trans (h.stations p).1, (k.stations p).2.trans (h.stations p).2⟩

/-- A change of other parts. -/
theorem Contents.of_rest (h : Contents s t) (hdir : u.dir = t.dir) (hdrv : u.drv = t.drv) (hms : u.ms = t.ms) (hmon : u.mon = t.mon)
    (harm : ∀ b, u.arm b = t.arm b) : Contents s u := by
  refine h.trans ⟨hdir, hdrv, hms, fun b => ?_, fun p => ?_⟩
  · rw [harm]
    exact ⟨rfl, rfl⟩
  · unfold State.station
    rw [hmon]
    exact ⟨rfl, rfl⟩

theorem Contents.vol? (h : Contents s t) : t.vol? e = s.vol? e := by unfold State.vol?; rw [h.dir]

theorem Contents.drive (h : Contents s t) : t.drive d = s.drive d := by unfold State.drive; rw [h.drv]

theorem Contents.gripper (h : Contents s t) : (t.arm a).gripper = (s.arm a).gripper := (h.arms a).1

theorem Contents.ite (h : Contents s t) (k : Contents s u) {c : Prop} [Decidable c] : Contents s (if c then t else u) := by
  split
  · exact h
  · exact k

theorem Contents.notify (h : Contents s t) {x : Notice} : Contents s (t.notify x) := h.of_rest (by simp) (by simp) (by simp) (by simp) (by simp)

theorem Contents.updOrder (h : Contents s t) {f : Order → Order} : Contents s (t.updOrder n f) := h.of_rest rfl rfl rfl rfl (by simp)

theorem Contents.dropOrder (h : Contents s t) : Contents s (t.dropOrder n) := h.of_rest rfl rfl rfl rfl (by simp)

theorem Contents.withdrawClaim (h : Contents s t) : Contents s (t.withdrawClaim a) := h.of_rest rfl rfl rfl rfl (by simp)

theorem Contents.mapZones (h : Contents s t) {f : Nat → Option Holding → Option Holding} : Contents s (t.mapZones f) := h.of_rest rfl rfl rfl rfl (by simp)

theorem Contents.updArm (h : Contents s t) {f : Arm → Arm} (hf : ∀ x, (f x).gripper = x.gripper ∧ (f x).column = x.column) :
    Contents s (t.updArm a f) := by
  refine h.trans ⟨by simp, by simp, by simp, fun b => ?_, fun p => ?_⟩
  · by_cases hb : b = a
    · subst hb
      rw [State.updArm_arm_self]
      exact hf _
    · rw [State.updArm_arm_ne hb]
      exact ⟨rfl, rfl⟩
  · cases a <;> exact ⟨rfl, rfl⟩

theorem Contents.updStation (h : Contents s t) {f : Station → Station} (hf : ∀ x, (f x).volume = x.volume ∧ (f x).lifted = x.lifted) :
    Contents s (t.updStation p f) := by
  refine h.trans ⟨rfl, rfl, rfl, fun b => ?_, fun q => ?_⟩
  · cases b <;> exact ⟨rfl, rfl⟩
  · by_cases hq : q = p
    · subst hq
      rw [State.updStation_station_self]
      exact hf _
    · rw [State.updStation_station_ne hq]
      exact ⟨rfl, rfl⟩

theorem Contents.foldl {α : Type} {f : State → α → State} (hf : ∀ u x, Contents u (f u x)) (h : Contents s t) (l : List α) : Contents s (l.foldl f t) := by
  induction l generalizing t with
  | nil => exact h
  | cons x rest ih => exact ih (h.trans (hf t x))

/-- A reservation cleared, where it is that of an order. -/
theorem Contents.unreserved (h : Contents s t) : Contents s ((t.updStation p (fun x => { x with reserved := none })).notify (.importTest p)) :=
  Contents.notify (Contents.updStation h (f := fun x => { x with reserved := none }) (fun _ => ⟨rfl, rfl⟩))

theorem Contents.reserveDest (h : Contents s t) {q : Option Place} : Contents s (t.reserveDest n q) := by
  unfold State.reserveDest
  split
  · exact Contents.updStation h (fun _ => ⟨rfl, rfl⟩)
  · exact h

theorem Contents.releaseOthers (h : Contents s t) : Contents s (t.releaseOthers a) := by
  unfold State.releaseOthers
  exact Contents.mapZones h

theorem Contents.replaceRest (h : Contents s t) {toStation : Bool} : Contents s (t.replaceRest a n toStation) := by
  unfold State.replaceRest
  split
  · exact h
  · rename_i o _
    have hfreed : Contents s (match o.dest with
        | some (.station p) =>
          if o.source = some (Place.station p) ∨ (t.station p).reserved ≠ some n then t
          else (t.updStation p (fun x => { x with reserved := none })).notify (.importTest p)
        | _ => t) := by
      split
      · exact Contents.ite h (Contents.unreserved h)
      · exact h
    dsimp only
    exact hfreed.withdrawClaim.updOrder.reserveDest.notify

theorem Contents.advance (h : Contents s t) : Contents s (t.advance a) := by
  unfold State.advance
  have hcleared : Contents s (t.updArm a (fun x => { x with leg := none })) := Contents.updArm h (fun _ => ⟨rfl, rfl⟩)
  dsimp only
  split
  · exact hcleared.updOrder.notify
  · exact hcleared.notify

theorem Contents.advancePick (h : Contents s t) : Contents s (t.advancePick a) := by
  unfold State.advancePick
  dsimp only
  split
  · exact Contents.ite h.advance.replaceRest h.advance
  · exact h.advance

theorem Contents.endInserted (h : Contents s t) : Contents s (t.endInserted a) := by
  unfold State.endInserted
  have hcleared : Contents s ((t.releaseOthers a).updArm a (fun x => { x with inserted := false, leg := none, linger := none })) :=
    Contents.updArm h.releaseOthers (fun _ => ⟨rfl, rfl⟩)
  dsimp only
  split
  · exact hcleared.updOrder.notify
  · exact hcleared.notify

theorem Contents.lingerZones (h : Contents s t) : Contents s (t.lingerZones a) := by
  unfold State.lingerZones
  dsimp only
  split
  · exact Contents.updArm h.releaseOthers (fun _ => ⟨rfl, rfl⟩)
  · exact Contents.updArm h.mapZones (fun _ => ⟨rfl, rfl⟩)

theorem Contents.unreserve (h : Contents s t) : Contents s (t.unreserve n) :=
  Contents.foldl (fun u _ => Contents.ite (Contents.unreserved (Contents.refl u)) (Contents.refl u)) h _

theorem Contents.closeOrder (h : Contents s t) {ok : Bool} {cause : Option Cause} {door : Bool} {leg : Option Leg} :
    Contents s (t.closeOrder n ok cause door leg) := by
  unfold State.closeOrder
  split
  · exact h
  · rename_i o _
    dsimp only
    have hleft : Contents s (if o.kind = .handIn then t.dropOrder n else (t.dropOrder n).unreserve n) :=
      Contents.ite h.dropOrder h.dropOrder.unreserve
    generalize (if o.kind = .handIn then t.dropOrder n else (t.dropOrder n).unreserve n) = w at hleft ⊢
    exact Contents.ite hleft.notify.notify.notify.notify hleft.notify.notify.notify

theorem Contents.untake (h : Contents s t) : Contents s (t.untake a) := by
  unfold State.untake
  apply Contents.notify
  exact Contents.updArm h.withdrawClaim (fun _ => ⟨rfl, rfl⟩)

theorem Contents.bindOrder (h : Contents s t) : Contents s (t.bindOrder n) := by
  unfold State.bindOrder
  split
  · exact h
  · dsimp only
    split
    · exact h.updOrder.notify
    · exact h.updOrder

theorem Contents.rebindOrders (h : Contents s t) : Contents s (t.rebindOrders a) := by
  refine Contents.foldl (fun u o => ?_) h _
  exact Contents.ite (Contents.bindOrder (Contents.ite (Contents.untake (Contents.refl u)) (Contents.refl u))) (Contents.refl u)

theorem Contents.setHomingOwed (h : Contents s t) {owed : Bool} : Contents s (t.setHomingOwed a owed) :=
  h.of_rest (by cases a <;> rfl) (by cases a <;> rfl) (by cases a <;> rfl) (by cases a <;> rfl) (fun b => by cases a <;> cases b <;> rfl)

theorem State.askEquipment_sch {x : Equipment} : (s.askEquipment x).sch = s.sch := by
  unfold State.askEquipment
  split
  · rfl
  · split
    · exact State.issue_sch
    · rfl

theorem State.askEquipment_ms {x : Equipment} : (s.askEquipment x).ms = s.ms := by
  unfold State.askEquipment
  split
  · rfl
  · split
    · exact State.issue_ms
    · rfl

theorem Contents.askEquipment (h : Contents s t) {x : Equipment} : Contents s (t.askEquipment x) :=
  have haside : Aside t (t.askEquipment x) := State.askEquipment_aside
  h.of_rest haside.dir haside.drv State.askEquipment_ms haside.mon (fun _ => State.arm_of_sch State.askEquipment_sch)

theorem Contents.enterOutOfService (h : Contents s t) {ask : Bool} : Contents s (t.enterOutOfService a ask) := by
  unfold State.enterOutOfService
  dsimp only
  have hleft : Contents s ((t.withdrawClaim a).updArm a (fun x => { x with
      state := if (t.arm a).state = .unhomed then .unhomed else .outOfService, order := none, leg := none, move := none, linger := none,
      inserted := false, limitMark := false })) := Contents.updArm h.withdrawClaim (fun _ => ⟨rfl, rfl⟩)
  exact Contents.ite hleft.setHomingOwed.rebindOrders.askEquipment hleft.setHomingOwed.rebindOrders

theorem Contents.endOrder (h : Contents s t) {ok : Bool} {cause : Option Cause} : Contents s (t.endOrder a o ok cause) := by
  unfold State.endOrder
  dsimp only
  have hended : Contents s (((t.closeOrder o.id ok cause false none).withdrawClaim a).updArm a (fun x => { x with
      order := none, leg := none, inserted := false, failCount := if (ok && !o.cut) = true then 0 else x.failCount })) :=
    Contents.updArm h.closeOrder.withdrawClaim (fun _ => ⟨rfl, rfl⟩)
  exact Contents.ite hended.enterOutOfService hended.notify

theorem Contents.endNoCase (h : Contents s t) : Contents s (t.endNoCase a) := by
  unfold State.endNoCase
  split
  · exact h.endOrder
  · exact h.notify

theorem Contents.putBackReel (h : Contents s t) {q : Place} {r : Reading} : Contents s (t.putBackReel a q r) := by
  unfold State.putBackReel
  split
  · exact h.notify
  · rename_i o _
    have hfreed : Contents s (match o.dest with
        | some (.station p) =>
          if (t.station p).reserved = some o.id then (t.updStation p (fun x => { x with reserved := none })).notify (.importTest p) else t
        | _ => t) := by
      split
      · exact Contents.ite (Contents.unreserved h) h
      · exact h
    dsimp only
    have hcleared {w : State} (k : Contents s w) : Contents s (w.updArm a (fun x => { x with leg := none })) := Contents.updArm k (fun _ => ⟨rfl, rfl⟩)
    exact (hcleared hfreed).updOrder.reserveDest.notify

/-! ### A volume that changes its place -/

/-- What a change of place leaves of arms, drives and positions: only what named the volume where it was names it no more. -/
theorem State.relocate_parts {l : Loc} (hv : s.vol? e = some v) :
    let w := if v.loc = l then s else s.unhold e v.loc
    (s.relocate e l).sch = w.sch ∧ (s.relocate e l).drv = w.drv ∧ (s.relocate e l).mon = w.mon := by
  have hleft {x : Loc} : ((s.leaveMisplaced e v l).unhold e x).sch = (s.unhold e x).sch ∧
      ((s.leaveMisplaced e v l).unhold e x).drv = (s.unhold e x).drv ∧ ((s.leaveMisplaced e v l).unhold e x).mon = (s.unhold e x).mon := by
    have hfinding : s.leaveMisplaced e v l = s ∨ ∃ slot, s.leaveMisplaced e v l = s.clearFinding slot := by
      unfold State.leaveMisplaced
      split
      · split
        · exact Or.inl rfl
        · split
          · exact Or.inr ⟨_, rfl⟩
          · exact Or.inl rfl
      all_goals exact Or.inl rfl
    obtain hsame | ⟨slot, hcleared⟩ := hfinding
    · rw [hsame]
      exact ⟨rfl, rfl, rfl⟩
    · rw [hcleared]
      unfold State.unhold
      cases x with
      | inArm b => cases b <;> (dsimp only; split <;> split <;> first | exact ⟨rfl, rfl, rfl⟩ | contradiction)
      | inDrive c => dsimp only; split <;> split <;> first | exact ⟨rfl, rfl, rfl⟩ | contradiction
      | atStation q => dsimp only; split <;> split <;> first | exact ⟨rfl, rfl, rfl⟩ | contradiction
      | home | outside | missing | misplaced _ => exact ⟨rfl, rfl, rfl⟩
  dsimp only
  unfold State.relocate
  rw [hv]
  dsimp only
  by_cases hloc : v.loc = l
  · rw [if_pos hloc, if_pos hloc]
    split <;> exact ⟨rfl, rfl, rfl⟩
  · rw [if_neg hloc, if_neg hloc]
    split <;> exact hleft

theorem State.relocate_arm_cases {l : Loc} (hv : s.vol? e = some v) : (s.relocate e l).arm b = s.arm b ∨
    v.loc = .inArm b ∧ v.loc ≠ l ∧ (s.arm b).gripper = .volume e ∧ (s.relocate e l).arm b = { s.arm b with gripper := .unknown } := by
  obtain ⟨hsch, _, _⟩ := State.relocate_parts (l := l) hv
  rw [State.arm_of_sch hsch]
  split
  · exact Or.inl rfl
  · rename_i hloc
    unfold State.unhold
    split
    · rename_i a ha
      split
      · rename_i hgripper
        by_cases hb : b = a
        · subst hb
          refine Or.inr ⟨ha, hloc, hgripper, ?_⟩
          unfold State.nameGripper
          rw [State.updArm_arm_self]
        · unfold State.nameGripper
          rw [State.updArm_arm_ne hb]
          exact Or.inl rfl
      · exact Or.inl rfl
    · split
      · exact Or.inl rfl
      · exact Or.inl rfl
    · split
      · exact Or.inl rfl
      · exact Or.inl rfl
    all_goals exact Or.inl rfl

theorem State.relocate_drive_cases {l : Loc} (hv : s.vol? e = some v) : (s.relocate e l).drive d = s.drive d ∨
    v.loc = .inDrive d ∧ (s.relocate e l).drive d = { s.drive d with volume := none } := by
  obtain ⟨_, hdrv, _⟩ := State.relocate_parts (l := l) hv
  have hdrive {w : State} (h : (s.relocate e l).drv = w.drv) : (s.relocate e l).drive d = w.drive d := by unfold State.drive; rw [h]
  rw [hdrive hdrv]
  split
  · exact Or.inl rfl
  · unfold State.unhold
    split
    · split
      · rename_i a _ _
        cases a <;> exact Or.inl rfl
      · exact Or.inl rfl
    · rename_i c hc
      split
      · by_cases hd : d = c
        · subst hd
          refine Or.inr ⟨hc, ?_⟩
          rw [State.updDrive_drive_self]
        · rw [State.updDrive_drive_ne hd]
          exact Or.inl rfl
      · exact Or.inl rfl
    · split <;> exact Or.inl rfl
    all_goals exact Or.inl rfl

theorem State.relocate_station_cases {l : Loc} (hv : s.vol? e = some v) : (s.relocate e l).station p = s.station p ∨
    v.loc = .atStation p ∧ (s.relocate e l).station p = { s.station p with volume := none } := by
  obtain ⟨_, _, hmon⟩ := State.relocate_parts (l := l) hv
  have hstation {w : State} (h : (s.relocate e l).mon = w.mon) : (s.relocate e l).station p = w.station p := by unfold State.station; rw [h]
  rw [hstation hmon]
  split
  · exact Or.inl rfl
  · unfold State.unhold
    split
    · split
      · rename_i a _ _
        cases a <;> exact Or.inl rfl
      · exact Or.inl rfl
    · split <;> exact Or.inl rfl
    · rename_i q hq
      split
      · by_cases hp : p = q
        · subst hp
          refine Or.inr ⟨hq, ?_⟩
          unfold State.clearStationVolume
          rw [State.updStation_station_self]
        · unfold State.clearStationVolume
          rw [State.updStation_station_ne hp]
          exact Or.inl rfl
      · exact Or.inl rfl
    all_goals exact Or.inl rfl

/-! ### Grippers and drives that name a volume -/

/-- What is lost leaves the other volumes as they are. -/
theorem State.makeMissing_vol?_ne {i : Nat} (h : i ≠ e) : (s.makeMissing e).vol? i = s.vol? i := by
  unfold State.makeMissing
  split
  · exact State.relocate_vol?_ne h
  · rfl

theorem State.makeMissing_vol? (hv : s.vol? e = some v) : (s.makeMissing e).vol? e = some { v with loc := .missing } := by
  by_cases hloc : v.loc = .missing
  · unfold State.makeMissing
    rw [hv]
    simp only [Option.any_some, hloc, bne_self_eq_false, Bool.false_eq_true, if_false]
    rw [hv, ← hloc]
  · exact State.makeMissing_vol?_self hv hloc

/-- A volume that is not at the place of which the record ends stays where it is. -/
theorem State.loseFrom_vol? {i : Nat} {l : Loc} (hv : s.vol? e = some v) (hloc : v.loc ≠ l) : (s.loseFrom i l).vol? e = some v := by
  unfold State.loseFrom
  by_cases hi : e = i
  · subst hi
    rw [if_neg (by rw [hv]; simpa using hloc), hv]
  · split
    · rw [State.makeMissing_vol?_ne hi, hv]
    · exact hv

/-- What the end of the record at a place leaves of arms, drives and positions that are another place. -/
theorem State.loseFrom_parts {l : Loc} : ((∀ b, l ≠ .inArm b) → ∀ b, (s.loseFrom e l).arm b = s.arm b) ∧
    ((∀ d, l ≠ .inDrive d) → ∀ d, (s.loseFrom e l).drive d = s.drive d) ∧
    ((∀ p, l ≠ .atStation p) → ∀ p, (s.loseFrom e l).station p = s.station p) := by
  unfold State.loseFrom
  split
  · rename_i hthere
    obtain ⟨v, hv, hloc⟩ : ∃ v, s.vol? e = some v ∧ v.loc = l := by simpa [Option.any_eq_true] using hthere
    unfold State.makeMissing
    split
    · refine ⟨fun h b => ?_, fun h d => ?_, fun h p => ?_⟩
      · exact (State.relocate_arm_cases (l := .missing) (b := b) hv).resolve_right (fun k => h b (hloc ▸ k.1))
      · exact (State.relocate_drive_cases (l := .missing) (d := d) hv).resolve_right (fun k => h d (hloc ▸ k.1))
      · exact (State.relocate_station_cases (l := .missing) (p := p) hv).resolve_right (fun k => h p (hloc ▸ k.1))
    · exact ⟨fun _ _ => rfl, fun _ _ => rfl, fun _ _ => rfl⟩
  · exact ⟨fun _ _ => rfl, fun _ _ => rfl, fun _ _ => rfl⟩

theorem State.setGripper_gripper {g : Gripper} : ((s.setGripper a g).arm a).gripper = g := by
  unfold State.setGripper State.nameGripper
  split <;> rw [State.updArm_arm_self]

theorem State.setGripper_vol? {g : Gripper} (hv : s.vol? e = some v) (hloc : v.loc ≠ .inArm a) : (s.setGripper a g).vol? e = some v := by
  unfold State.setGripper
  split
  · rw [State.nameGripper_vol?]
    exact State.loseFrom_vol? hv hloc
  all_goals
    rw [State.nameGripper_vol?]
    exact hv

/-- A gripper that is emptied, or holds an unknown reel, leaves drives and positions as they are. -/
theorem State.setGripper_places {g : Gripper} : (∀ d, (s.setGripper a g).drive d = s.drive d) ∧
    ∀ p, (s.setGripper a g).station p = s.station p := by
  have hnamed {w : State} : (∀ d, (w.nameGripper a g).drive d = w.drive d) ∧ ∀ p, (w.nameGripper a g).station p = w.station p := by
    cases a <;> exact ⟨fun _ => rfl, fun _ => rfl⟩
  unfold State.setGripper
  split
  · rename_i e _
    obtain ⟨_, hdrives, hstations⟩ := State.loseFrom_parts (s := s) (e := e) (l := .inArm a)
    exact ⟨fun d => (hnamed.1 d).trans (hdrives (fun _ h => by cases h) d), fun p => (hnamed.2 p).trans (hstations (fun _ h => by cases h) p)⟩
  all_goals exact hnamed

/-- A volume taken into an arm (R6): drives and positions name no more than they did. -/
theorem State.takeInArm_taken (hv : s.vol? e = some v) : ((s.takeInArm a e).arm a).gripper = .volume e ∧
    (s.takeInArm a e).vol? e = some { v with loc := .inArm a } ∧
    (∀ d, (s.takeInArm a e).drive d = s.drive d ∨ (s.takeInArm a e).drive d = { s.drive d with volume := none }) ∧
    ∀ p, (s.takeInArm a e).station p = s.station p ∨ (s.takeInArm a e).station p = { s.station p with volume := none } := by
  have hfreed : (if (s.arm a).gripper = .volume e then s else s.setGripper a .unknown).vol? e = some v := by
    split
    · exact hv
    · rename_i hother
      unfold State.setGripper
      split
      · rename_i held hheld
        have hne : e ≠ held := by rintro rfl; exact hother hheld
        rw [State.nameGripper_vol?]
        unfold State.loseFrom
        split
        · rw [State.makeMissing_vol?_ne hne, hv]
        · exact hv
      all_goals
        rw [State.nameGripper_vol?]
        exact hv
  have hplaces : (∀ d, (if (s.arm a).gripper = .volume e then s else s.setGripper a .unknown).drive d = s.drive d) ∧
      ∀ p, (if (s.arm a).gripper = .volume e then s else s.setGripper a .unknown).station p = s.station p := by
    split
    · exact ⟨fun _ => rfl, fun _ => rfl⟩
    · exact State.setGripper_places
  have htaken : s.takeInArm a e =
      (((if (s.arm a).gripper = .volume e then s else s.setGripper a .unknown).relocate e (.inArm a)).nameGripper a (.volume e)) := by
    unfold State.takeInArm
    rw [hv]
  rw [htaken]
  generalize (if (s.arm a).gripper = .volume e then s else s.setGripper a .unknown) = w at hfreed hplaces
  have hnamed {u : State} {g : Gripper} : (∀ d, (u.nameGripper a g).drive d = u.drive d) ∧ ∀ p, (u.nameGripper a g).station p = u.station p := by
    cases a <;> exact ⟨fun _ => rfl, fun _ => rfl⟩
  refine ⟨?_, ?_, fun d => ?_, fun p => ?_⟩
  · unfold State.nameGripper
    rw [State.updArm_arm_self]
  · rw [State.nameGripper_vol?, State.relocate_vol?_self hfreed]
  · rw [hnamed.1, ← hplaces.1]
    exact (State.relocate_drive_cases hfreed).imp_right (fun h => h.2)
  · rw [hnamed.2, ← hplaces.2]
    exact (State.relocate_station_cases hfreed).imp_right (fun h => h.2)

/-- A drive that names no volume any more leaves a volume that is elsewhere, and the arms. -/
theorem State.clearDriveVolume_kept : (∀ b, (s.clearDriveVolume d).arm b = s.arm b) ∧
    (s.clearDriveVolume d).drive d = { s.drive d with volume := none } ∧
    ∀ e v, s.vol? e = some v → v.loc ≠ .inDrive d → (s.clearDriveVolume d).vol? e = some v := by
  have hdrive : (s.clearDriveVolume d).drive d = { s.drive d with volume := none } := by
    obtain ⟨x, hx⟩ := State.clearDriveVolume_drive (s := s) (d := d) (c := d)
    have hnone := State.clearDriveVolume_free (s := s) (d := d)
    rw [hx] at hnone ⊢
    dsimp only at hnone
    rw [hnone]
  refine ⟨fun b => ?_, hdrive, fun e v hv hloc => ?_⟩
  · unfold State.clearDriveVolume
    split
    · rw [State.updDrive_arm]
      exact State.loseFrom_parts.1 (fun _ h => by cases h) b
    · rfl
  · unfold State.clearDriveVolume
    split
    · rw [State.updDrive_vol?]
      exact State.loseFrom_vol? hv hloc
    · exact hv

/-! ### The legs, one by one -/

/-- A part as a leg completes: nothing is outstanding on the arm's port. -/
def State.answeredBy (s : State) (a : ArmId) : State := s.updArm a (fun x => { x with outstanding := none })

theorem State.answeredBy_arm : (s.answeredBy a).arm a = { s.arm a with outstanding := none } := State.updArm_arm_self

theorem State.answeredBy_contents : Contents s (s.answeredBy a) := Contents.updArm (Contents.refl s) (fun _ => ⟨rfl, rfl⟩)

/-- An arrival that ends no move (R99). -/
theorem State.doneTravel_arrived {c : Nat} (hmove : (s.arm a).move = none) : ((s.doneTravel a c).arm a).column = c ∧
    ((s.doneTravel a c).arm a).gripper = (s.arm a).gripper ∧ (s.doneTravel a c).dir = s.dir := by
  have hthere : (s.updArm a (fun x => { x with column := c })).arm a = { s.arm a with column := c } := State.updArm_arm_self
  have hcontents : Contents (s.updArm a (fun x => { x with column := c })) (s.doneTravel a c) := by
    unfold State.doneTravel
    dsimp only
    rw [hmove]
    exact Contents.ite (Contents.endInserted (Contents.refl _)) (Contents.advance (Contents.lingerZones (Contents.refl _)))
  obtain ⟨hgripper, hcolumn⟩ := hcontents.arms a
  rw [hthere] at hgripper hcolumn
  exact ⟨hcolumn, hgripper, hcontents.dir.trans State.updArm_dir⟩

/-- The PICK at a slot of the expected volume (R6). -/
theorem State.donePickSlot_expected {slot : Nat} {r : Reading} (hv : s.vol? e = some v) (hr : s.reads r e = true) :
    ((s.donePickSlot a slot (some e) r).arm a).gripper = .volume e ∧
    (s.donePickSlot a slot (some e) r).vol? e = some { v with loc := .inArm a } := by
  have hcontents : Contents (s.pickAtSlot a slot e) (s.donePickSlot a slot (some e) r) := by
    unfold State.donePickSlot
    dsimp only
    rw [if_pos hr]
    exact Contents.advancePick (Contents.refl _)
  have hpicked : ((s.pickAtSlot a slot e).arm a).gripper = .volume e ∧ (s.pickAtSlot a slot e).vol? e = some { v with loc := .inArm a } := by
    unfold State.pickAtSlot
    dsimp only
    split
    · exact ⟨(State.takeInArm_taken (s := s.clearFinding slot) hv).1, (State.takeInArm_taken (s := s.clearFinding slot) hv).2.1⟩
    · exact ⟨(State.takeInArm_taken hv).1, (State.takeInArm_taken hv).2.1⟩
  rw [hcontents.gripper, hcontents.vol?]
  exact hpicked

/-- A PICK at a slot that finds the slot empty, or another reel (R11, R102). -/
theorem State.pickLoses_vol? {slot : Nat} (hv : s.vol? e = some v) : (s.pickLoses slot e).vol? e = some { v with loc := .missing } := by
  have hgone : ∃ l, (match s.finding? slot with | some f => (s.findingGone slot f).1 | none => s).vol? e = some { v with loc := l } := by
    split
    · rename_i f _
      rcases State.findingGone_cases (s := s) (slot := slot) (f := f) with ⟨hgone, _⟩ | ⟨_, i, w, _, _, _, _, hgone⟩
      · rw [hgone]
        exact ⟨v.loc, hv⟩
      · rw [hgone]
        by_cases hi : e = i
        · subst hi
          exact ⟨.missing, State.makeMissing_vol? (s := s.clearFinding slot) hv⟩
        · exact ⟨v.loc, (State.makeMissing_vol?_ne hi).trans hv⟩
    · exact ⟨v.loc, hv⟩
  obtain ⟨l, hl⟩ := hgone
  have hmissing := State.makeMissing_vol? hl
  exact hmissing

theorem State.donePickSlot_empty {slot : Nat} (hv : s.vol? e = some v) :
    (s.donePickSlot a slot (some e) .noCase).vol? e = some { v with loc := .missing } := by
  have hcontents : Contents (s.pickLoses slot e) (s.donePickSlot a slot (some e) .noCase) := by
    unfold State.donePickSlot
    dsimp only
    rw [if_neg (by exact Bool.false_ne_true), if_pos rfl]
    exact Contents.endNoCase (Contents.refl _)
  rw [hcontents.vol?]
  exact State.pickLoses_vol? hv

theorem State.donePickSlot_other {slot : Nat} {r : Reading} (hv : s.vol? e = some v) (hr : s.reads r e = false) (hcase : r ≠ .noCase) :
    ((s.donePickSlot a slot (some e) r).arm a).gripper = .unknown ∧
    ∃ w, (s.donePickSlot a slot (some e) r).vol? e = some w ∧ w.loc = .missing ∧ w.errors = min 15 (v.errors + 1) := by
  have hcontents : Contents (((s.pickLoses slot e).raiseErrors e).setGripper a .unknown) (s.donePickSlot a slot (some e) r) := by
    unfold State.donePickSlot
    dsimp only
    rw [if_neg (by rw [hr]; exact Bool.false_ne_true), if_neg hcase]
    exact Contents.putBackReel (Contents.refl _)
  rw [hcontents.gripper, hcontents.vol?]
  refine ⟨State.setGripper_gripper, _, State.setGripper_vol? (State.raiseErrors_vol? (State.pickLoses_vol? hv)) (fun h => by cases h), rfl, rfl⟩

/-- The PICK at a RELEASED drive (R8, R39): the reel is in the gripper, and but under a ring hold the claim and the session end. -/
theorem State.pickFromDrive_released (hvolume : (s.drive d).volume = some e) (hv : s.vol? e = some v) (hstate : (s.drive d).state = .released)
    (hclaim : (s.drive d).claim.isSome = true) :
    let u := ((s.pickAtDrive a d).pickedFromDrive d).advancePick a
    (u.arm a).gripper = .volume e ∧ u.vol? e = some { v with loc := .inArm a } ∧ (u.drive d).volume = none ∧
      ((s.drive d).holdsRing = false → (u.drive d).claim = none ∧ (u.drive d).session = none) ∧
      (u.drive d).state = if (s.drive d).holdsRing then .claimed else if (s.drive d).online then .empty else .offline := by
  obtain ⟨hgripper, hvol, hdrives, _⟩ := State.takeInArm_taken (a := a) hv
  obtain ⟨harms, hcleared, hkept⟩ := State.clearDriveVolume_kept (s := s.takeInArm a e) (d := d)
  have hpicked : s.pickAtDrive a d = (s.takeInArm a e).clearDriveVolume d := by
    unfold State.pickAtDrive
    rw [hvolume]
  have hdrive : (s.pickAtDrive a d).drive d = { s.drive d with volume := none } := by
    rw [hpicked, hcleared]
    obtain hsame | hnone := hdrives d
    · rw [hsame]
    · rw [hnone]
  have hheld : ((s.pickAtDrive a d).arm a).gripper = .volume e := by rw [hpicked, harms, hgripper]
  have hthere : (s.pickAtDrive a d).vol? e = some { v with loc := .inArm a } := by
    rw [hpicked]
    exact hkept e _ hvol (fun h => by cases h)
  generalize s.pickAtDrive a d = w at hdrive hheld hthere
  have hleft : Contents (w.pickedFromDrive d) ((w.pickedFromDrive d).advancePick a) := Contents.advancePick (Contents.refl _)
  dsimp only
  rw [hleft.gripper, hleft.vol?, hleft.drive]
  have hholds : (w.drive d).holdsRing = (s.drive d).holdsRing := by rw [hdrive]; rfl
  cases hring : (s.drive d).holdsRing with
  | true =>
    have hfit : w.pickedFromDrive d = w.setDriveState d .claimed := by
      unfold State.pickedFromDrive
      dsimp only
      rw [if_pos ⟨by rw [hdrive]; exact hstate, hholds.trans hring⟩]
    rw [hfit, State.setDriveState_arm, State.setDriveState_vol?, State.setDriveState_drive_self, hdrive]
    exact ⟨hheld, hthere, rfl, fun h => absurd h.symm Bool.false_ne_true, rfl⟩
  | false =>
    obtain ⟨claim, hsome⟩ := Option.isSome_iff_exists.mp hclaim
    let rested := w.updDrive d (fun x => { x with loadTimer := none, labelTimer := none, releaseTimer := none, session := none })
    have hended : ∃ outcome, w.pickedFromDrive d = ((((rested.recordClaim d none outcome).endClaim d).leaveCheck d).restDrive d) := by
      refine ⟨if claim.detached then .reset else claim.named.getD .failed, ?_⟩
      unfold State.pickedFromDrive
      dsimp only
      rw [if_neg (by rintro ⟨_, h⟩; rw [hholds, hring] at h; cases h), hdrive]
      dsimp only
      rw [hsome]
    obtain ⟨outcome, hended⟩ := hended
    obtain ⟨seconds, reserved, hrecord⟩ := State.recordClaim_drive (s := rested) (d := d) (session := none) (outcome := outcome)
    have haside := State.leaveCheck_aside (s := (rested.recordClaim d none outcome).endClaim d) (d := d)
    have hsession : rested.drive d = { s.drive d with
        volume := none, loadTimer := none, labelTimer := none, releaseTimer := none, session := none } := by
      rw [State.updDrive_drive_self, hdrive]
    have hdone : (((rested.recordClaim d none outcome).endClaim d).leaveCheck d).drive d = { rested.drive d with
        useSeconds := seconds, claim := none } := by
      rw [haside.drive, State.endClaim_drive, hrecord]
    have hsch : (((rested.recordClaim d none outcome).endClaim d).leaveCheck d).sch = w.sch := by
      unfold State.leaveCheck
      split <;> simp [rested]
    have hdir : (((rested.recordClaim d none outcome).endClaim d).leaveCheck d).dir = w.dir := by
      rw [haside.dir, State.endClaim_dir, State.recordClaim_dir]
      rfl
    rw [hended]
    unfold State.restDrive
    rw [State.notify_arm, State.notify_vol?, State.notify_drive, State.setDriveState_arm, State.setDriveState_vol?,
      State.setDriveState_drive_self, hdone, hsession, State.arm_of_sch hsch]
    refine ⟨hheld, ?_, rfl, fun _ => ⟨rfl, rfl⟩, rfl⟩
    unfold State.vol? at hthere ⊢
    rw [hdir, hthere]

/-! #### The PLACE of a known reel (R7 to R9) -/

/-- The order of an arm, if it has one, puts no reel back. -/
def State.putsNothingBack (s : State) (a : ArmId) : Prop := ∀ o, (s.arm a).order.bind s.order? = some o → o.putBack = none

/-- A part whose arm has no reel to put back. -/
def State.puttingNone (s : State) (a : ArmId) : State := s.updArm a (fun x => { x with putBack := none })

theorem State.puttingNone_contents : Contents s (s.puttingNone a) := Contents.updArm (Contents.refl s) (fun _ => ⟨rfl, rfl⟩)

theorem State.puttingNone_order (hputs : s.putsNothingBack a) :
    (((s.puttingNone a).arm a).order.bind (s.puttingNone a).order?).bind (·.putBack) = none := by
  have horder : ((s.puttingNone a).arm a).order = (s.arm a).order := by
    unfold State.puttingNone
    rw [State.updArm_arm_self]
  have hpool : (s.puttingNone a).order? = s.order? := by
    funext n
    cases a <;> rfl
  rw [horder, hpool]
  cases horder? : (s.arm a).order.bind s.order? with
  | none => rfl
  | some o => exact hputs o horder?

theorem State.donePlace_slot {slot : Nat} (hputs : s.putsNothingBack a) (hgripper : (s.arm a).gripper = .volume e) :
    s.donePlace a (.slot slot) = ((s.puttingNone a).placeAtSlot a e).advance a := by
  have hnone := State.puttingNone_order hputs
  unfold State.donePlace
  dsimp only
  rw [show s.updArm a (fun x => { x with putBack := none }) = s.puttingNone a from rfl, hnone, hgripper]

theorem State.donePlace_drive (hputs : s.putsNothingBack a) (hgripper : (s.arm a).gripper = .volume e) :
    s.donePlace a (.drive d) = (((s.puttingNone a).placeAtDrive a d e).placedOnDrive d).advance a := by
  have hnone := State.puttingNone_order hputs
  unfold State.donePlace
  dsimp only
  rw [show s.updArm a (fun x => { x with putBack := none }) = s.puttingNone a from rfl, hnone, hgripper]

theorem State.donePlace_station (hputs : s.putsNothingBack a) (hgripper : (s.arm a).gripper = .volume e) :
    s.donePlace a (.station p) = ((s.puttingNone a).placeAtStation a p).advance a := by
  have hnone := State.puttingNone_order hputs
  unfold State.donePlace
  dsimp only
  rw [show s.updArm a (fun x => { x with putBack := none }) = s.puttingNone a from rfl, hnone, hgripper]
  dsimp only
  rw [if_neg (by rintro ⟨h, _⟩; cases h), if_neg (by rintro ⟨h, _⟩; cases h)]

/-- A gripper that is emptied leaves the findings. -/
theorem State.setGripper_finding? {g : Gripper} (h : Canonical s.dir.findings) : (s.setGripper a g).finding? n = s.finding? n := by
  have hnamed {w : State} : (w.nameGripper a g).finding? n = w.finding? n := by cases a <;> rfl
  unfold State.setGripper
  split
  · rw [hnamed]
    unfold State.loseFrom
    split
    · exact State.makeMissing_finding? h
    · rfl
  all_goals exact hnamed

theorem State.donePlace_home {slot : Nat} (hputs : s.putsNothingBack a) (hgripper : (s.arm a).gripper = .volume e) (hv : s.vol? e = some v) :
    ((s.donePlace a (.slot slot)).arm a).gripper = .empty ∧ (s.donePlace a (.slot slot)).vol? e = some { v with loc := .home } ∧
    (Canonical s.dir.findings → ∀ h, v.home = some h → (s.donePlace a (.slot slot)).finding? h = none) := by
  have hcontents : Contents ((s.puttingNone a).placeAtSlot a e) (s.donePlace a (.slot slot)) := by
    rw [State.donePlace_slot hputs hgripper]
    exact Contents.advance (Contents.refl _)
  have hfinding {h : Nat} : (s.donePlace a (.slot slot)).finding? h = ((s.puttingNone a).placeAtSlot a e).finding? h := by
    unfold State.finding?
    rw [hcontents.dir]
  have hv' : (s.puttingNone a).vol? e = some v := State.puttingNone_contents.vol?.trans hv
  have hhome : ((s.puttingNone a).reachHome e).vol? e = some { v with loc := .home } := by
    rw [State.reachHome, State.notify_vol?, State.relocate_vol?_self hv']
  rw [hcontents.gripper, hcontents.vol?]
  refine ⟨State.setGripper_gripper, State.setGripper_vol? hhome (fun h => by cases h), fun hcanonical h hh => ?_⟩
  have hcanonical' : Canonical (s.puttingNone a).dir.findings := by rw [State.puttingNone_contents.dir]; exact hcanonical
  have hreached : Canonical ((s.puttingNone a).reachHome e).dir.findings := by
    rw [State.reachHome, State.notify_dir]
    exact State.relocate_canonical hcanonical'
  rw [hfinding]
  unfold State.placeAtSlot
  rw [State.setGripper_finding? hreached, State.reachHome, State.notify_finding?, State.relocate_finding? hv' hcanonical']
  exact if_pos (Or.inl ⟨rfl, hh⟩)

theorem State.nameOnDrive_named (hv : s.vol? e = some v) : (s.nameOnDrive d e).vol? e = some { v with loc := .inDrive d } ∧
    ∃ x, (s.nameOnDrive d e).drive d = { s.drive d with volume := x } ∧ x = some e := by
  have hcleared : (if (s.drive d).volume = some e then s else s.clearDriveVolume d).vol? e = some v := by
    split
    · exact hv
    · rename_i hother
      unfold State.clearDriveVolume
      split
      · rename_i held hheld
        have hne : e ≠ held := by rintro rfl; exact hother hheld
        rw [State.updDrive_vol?]
        unfold State.loseFrom
        split
        · rw [State.makeMissing_vol?_ne hne, hv]
        · exact hv
      · exact hv
  have hnamed : s.nameOnDrive d e = ((if (s.drive d).volume = some e then s else s.clearDriveVolume d).relocate e (.inDrive d)).updDrive d
      (fun x => { x with volume := some e }) := by
    unfold State.nameOnDrive
    rw [hv]
  have hbefore : ∃ x, (if (s.drive d).volume = some e then s else s.clearDriveVolume d).drive d = { s.drive d with volume := x } := by
    split
    · exact ⟨_, rfl⟩
    · exact State.clearDriveVolume_drive
  obtain ⟨x, hx⟩ := hbefore
  rw [hnamed, State.updDrive_vol?, State.relocate_vol?_self hcleared]
  obtain ⟨y, hy⟩ := State.relocate_drive (s := if (s.drive d).volume = some e then s else s.clearDriveVolume d) (e := e) (l := .inDrive d) (x := d)
  refine ⟨rfl, _, ?_, rfl⟩
  rw [State.updDrive_drive_self, hy, hx]

/-- A reel placed on a drive that does not read LOADED (R29). -/
theorem State.placedOnDrive_low (hlow : (s.drive d).sense.loaded = false) : ((s.placedOnDrive d).drive d).state = .placed ∧
    ((s.placedOnDrive d).drive d).pulse = some (.load, s.pulseWidth) ∧ ((s.placedOnDrive d).drive d).volume = (s.drive d).volume ∧
    (∀ b, (s.placedOnDrive d).arm b = s.arm b) ∧ (s.placedOnDrive d).dir = s.dir := by
  let placed := s.updDrive d (fun x => { x with state := .placed, placeExpected := false })
  let told := placed.notify (.placed d (s.drive d).claimTag)
  let owed := if (s.drive d).isDetached then (told.oweRecover d true).notify .recovers else told
  have howed : owed.drive d = { s.drive d with state := .placed, placeExpected := false } ∧ owed.port = s.port ∧ (∀ b, owed.arm b = s.arm b) ∧
      owed.dir = s.dir := by
    have htold : told.drive d = { s.drive d with state := .placed, placeExpected := false } ∧ told.port = s.port ∧ (∀ b, told.arm b = s.arm b) ∧
        told.dir = s.dir := by
      refine ⟨?_, State.notify_port, fun b => State.notify_arm, State.notify_dir⟩
      rw [State.notify_drive, State.updDrive_drive_self]
    have hrecover {w : State} : (w.oweRecover d true).drive d = w.drive d ∧ ∀ b, (w.oweRecover d true).arm b = w.arm b :=
      ⟨rfl, fun b => by cases b <;> rfl⟩
    by_cases hdetached : (s.drive d).isDetached = true
    · have hnotified : owed = (told.oweRecover d true).notify .recovers := if_pos hdetached
      rw [hnotified, State.notify_drive, State.notify_port, State.notify_dir]
      refine ⟨hrecover.1.trans htold.1, htold.2.1, fun b => ?_, htold.2.2.2⟩
      rw [State.notify_arm, hrecover.2, htold.2.2.1]
    · have hsame : owed = told := if_neg hdetached
      rw [hsame]
      exact htold
  obtain ⟨hdrive, hport, harms, hdir⟩ := howed
  have hplaced : s.placedOnDrive d = if (s.drive d).isDetached then owed.startPulse d .load else (owed.startPulse d .load).startLoadTimer d 0 := by
    unfold State.placedOnDrive
    dsimp only
    rw [if_neg (by rw [hlow]; exact Bool.false_ne_true)]
  have hwidth : owed.pulseWidth = s.pulseWidth := State.setting_of_settings (by rw [hport])
  have hpulsed : (owed.startPulse d .load).drive d = { s.drive d with
      state := .placed, placeExpected := false, pulse := some (.load, s.pulseWidth) } := by
    unfold State.startPulse
    rw [State.updDrive_drive_self, hdrive, hwidth]
  rw [hplaced]
  split
  · rw [hpulsed]
    exact ⟨rfl, rfl, rfl, harms, hdir⟩
  · unfold State.startLoadTimer
    rw [State.updDrive_drive_self, hpulsed]
    exact ⟨rfl, rfl, rfl, harms, hdir⟩

theorem State.donePlace_onDrive (hputs : s.putsNothingBack a) (hgripper : (s.arm a).gripper = .volume e) (hv : s.vol? e = some v)
    (hlow : (s.drive d).sense.loaded = false) :
    ((s.donePlace a (.drive d)).arm a).gripper = .empty ∧ (s.donePlace a (.drive d)).vol? e = some { v with loc := .inDrive d } ∧
    ((s.donePlace a (.drive d)).drive d).volume = some e ∧ ((s.donePlace a (.drive d)).drive d).state = .placed ∧
    ((s.donePlace a (.drive d)).drive d).pulse = some (.load, s.pulseWidth) := by
  obtain ⟨hvol, x, hdrive, hx⟩ := State.nameOnDrive_named (d := d) (State.puttingNone_contents.vol?.trans hv : (s.puttingNone a).vol? e = some v)
  let placed := (s.puttingNone a).placeAtDrive a d e
  have hplaced : placed.drive d = { s.drive d with volume := some e } := by
    have hkept : placed.drive d = ((s.puttingNone a).nameOnDrive d e).drive d := State.setGripper_places.1 d
    rw [hkept, hdrive, hx, State.puttingNone_contents.drive]
  have hsettings : placed.port.settings = s.port.settings := by
    have hkeeps : Keeps noLaw s (s.puttingNone a) := Keeps.updArm (Keeps.refl s) (fun _ _ => rfl) (fun _ _ => rfl)
    exact (Keeps.placeAtDrive hkeeps).settings
  have hcontents : Contents (placed.placedOnDrive d) (s.donePlace a (.drive d)) := by
    rw [State.donePlace_drive hputs hgripper]
    exact Contents.advance (Contents.refl _)
  obtain ⟨hstate, hpulse, hvolume, harms, hdir⟩ := State.placedOnDrive_low (s := placed) (d := d) (by rw [hplaced]; exact hlow)
  rw [hcontents.gripper, hcontents.vol?, hcontents.drive, harms]
  refine ⟨State.setGripper_gripper, ?_, by rw [hvolume, hplaced], hstate, ?_⟩
  · have hthere : placed.vol? e = some { v with loc := .inDrive d } := State.setGripper_vol? hvol (fun h => by cases h)
    unfold State.vol? at hthere ⊢
    rw [hdir, hthere]
  · rw [hpulse]
    exact congrArg (fun w => some (PulseKind.load, w)) (State.setting_of_settings hsettings)

theorem State.donePlace_atStation (hputs : s.putsNothingBack a) (hgripper : (s.arm a).gripper = .volume e) (hv : s.vol? e = some v) :
    ((s.donePlace a (.station p)).arm a).gripper = .empty ∧ (s.donePlace a (.station p)).vol? e = some { v with loc := .atStation p } ∧
    ((s.donePlace a (.station p)).station p).volume = some e ∧ ((s.donePlace a (.station p)).station p).lifted = false := by
  have hcontents : Contents ((s.puttingNone a).placeAtStation a p) (s.donePlace a (.station p)) := by
    rw [State.donePlace_station hputs hgripper]
    exact Contents.advance (Contents.refl _)
  let there := ((s.puttingNone a).relocate e (.atStation p)).updStation p (fun x => { x with volume := some e })
  let standing := there.updStation p (fun x => { x with lifted := false })
  have hplaced : (s.puttingNone a).placeAtStation a p = standing.setGripper a .empty := by
    unfold State.placeAtStation
    rw [State.puttingNone_contents.gripper, hgripper]
  have hvol : standing.vol? e = some { v with loc := .atStation p } := by
    rw [State.updStation_vol?, State.updStation_vol?, State.relocate_vol?_self (State.puttingNone_contents.vol?.trans hv)]
  obtain ⟨hvolume, hlifted⟩ := hcontents.stations p
  rw [hplaced] at hcontents hvolume hlifted
  rw [hcontents.gripper, hcontents.vol?, hvolume, hlifted, State.setGripper_places.2, State.updStation_station_self, State.updStation_station_self]
  exact ⟨State.setGripper_gripper, State.setGripper_vol? hvol (fun h => by cases h), rfl, rfl⟩

/-! #### The PICK at a station position (R9, R102) -/

/-- The position of a PICK that has completed is lifted (R153). -/
def State.liftedAt (s : State) (p : Fin 8) : State := s.updStation p (fun x => { x with lifted := true })

theorem State.donePickStation_expected {r : Reading} {serial : Text} (hv : s.vol? e = some v) (hr : s.reads r e = true) (hserial : r = .serial serial)
    (hentry : s.entryOf serial = some e) (hloc : v.loc = .atStation p) :
    let u := s.donePickStation a p (some e) r
    (u.arm a).gripper = .volume e ∧ u.vol? e = some { v with loc := .inArm a } ∧ (u.station p).volume = none ∧ (u.station p).lifted = true := by
  let cleared := (s.liftedAt p).clearStationVolume p
  have hpicked : (s.liftedAt p).pickAtStation a p r = cleared.takeInArm a e := by
    unfold State.pickAtStation
    rw [show (s.liftedAt p).readEntry r = some e by rw [hserial]; exact hentry]
    dsimp only
    rw [if_pos (by rw [show (s.liftedAt p).vol? e = some v from hv]; simp [hloc, stationFinds])]
  have hcontents : Contents (cleared.takeInArm a e) (s.donePickStation a p (some e) r) := by
    unfold State.donePickStation
    dsimp only
    rw [if_pos (show (s.updStation p (fun x => { x with lifted := true })).reads r e = true from hr)]
    rw [← hpicked]
    exact Contents.advancePick (Contents.refl _)
  have hstation : cleared.station p = { s.station p with lifted := true, volume := none } := by
    unfold cleared State.clearStationVolume State.liftedAt
    rw [State.updStation_station_self, State.updStation_station_self]
  obtain ⟨hgripper, hvol, _, hstations⟩ := State.takeInArm_taken (s := cleared) (a := a) (e := e) (v := v) hv
  obtain ⟨hvolume, hlifted⟩ := hcontents.stations p
  dsimp only
  rw [hcontents.gripper, hcontents.vol?, hvolume, hlifted]
  refine ⟨hgripper, hvol, ?_⟩
  obtain hsame | hnone := hstations p
  · rw [hsame, hstation]
    exact ⟨rfl, rfl⟩
  · rw [hnone, hstation]
    exact ⟨rfl, rfl⟩

theorem State.makeMissing_station_none (h : (s.station p).volume = none) : ((s.makeMissing e).station p).volume = none := by
  unfold State.makeMissing
  cases hv : s.vol? e with
  | none =>
    exact h
  | some v =>
    split
    · rw [State.raise_station]
      obtain hsame | ⟨_, hnone⟩ := State.relocate_station_cases (l := .missing) (p := p) hv
      · rw [hsame, h]
      · rw [hnone]
    · exact h

theorem State.donePickStation_other {r : Reading} (hv : s.vol? e = some v) (hr : s.reads r e = false) (hcase : r ≠ .noCase) :
    let u := s.donePickStation a p (some e) r
    (u.arm a).gripper = .unknown ∧ (u.station p).volume = none ∧ ∃ w, u.vol? e = some w ∧ w.loc = .missing := by
  let cleared := (s.liftedAt p).clearStationVolume p
  have hcontents : Contents ((cleared.makeMissing e).setGripper a .unknown) (s.donePickStation a p (some e) r) := by
    unfold State.donePickStation
    dsimp only
    rw [if_neg (by rw [show (s.updStation p (fun x => { x with lifted := true })).reads r e = false from hr]; exact Bool.false_ne_true), if_neg hcase]
    exact Contents.putBackReel (Contents.refl _)
  have hnone : (cleared.station p).volume = none := by
    unfold cleared State.clearStationVolume
    rw [State.updStation_station_self]
  obtain ⟨hvolume, _⟩ := hcontents.stations p
  dsimp only
  rw [hcontents.gripper, hcontents.vol?, hvolume, State.setGripper_places.2]
  have hlost : ((cleared.makeMissing e).setGripper a .unknown).vol? e = some { v with loc := .missing } :=
    State.setGripper_vol? (State.makeMissing_vol? (s := cleared) (v := v) hv) (fun h => by cases h)
  exact ⟨State.setGripper_gripper, State.makeMissing_station_none hnone, _, hlost, rfl⟩

/-! #### A READ (R10) -/

theorem State.makeMissing_arm (h : ∀ v, s.vol? e = some v → v.loc ≠ .inArm b) : (s.makeMissing e).arm b = s.arm b := by
  unfold State.makeMissing
  cases hv : s.vol? e with
  | none => rfl
  | some v =>
    split
    · rw [State.raise_arm]
      exact (State.relocate_arm_cases hv).resolve_right (fun k => h v hv k.1)
    · rfl

/-- What a known serial at a slot asks of the directory turns on the volume alone, and a volume in an arm is left there. -/
theorem State.foundAt_known (v : Volume) (slot : Nat) : ∃ back astray : Bool,
    (back = true ∨ astray = true → ∀ b, v.loc ≠ .inArm b) ∧
    ∀ (s : State) (e : Nat) (serial : Text), s.entryOf serial = some e → s.vol? e = some v →
      s.foundAt slot (.serial serial) = if back then (s.reachHome e, [.recovered])
        else if astray then ((s.relocate e (.misplaced slot)).setFinding slot (.serial serial), [.foundMisplaced])
        else (s.setFinding slot (.serial serial), [.foundForeign]) := by
  let away : Bool := match v.loc with
    | .missing | .outside => true
    | .misplaced other => other != slot
    | .home | .inArm _ | .inDrive _ | .atStation _ => false
  refine ⟨decide (v.home = some slot ∧ (away || v.loc == .misplaced slot) = true), decide (v.home ≠ some slot ∧ away = true), ?_, ?_⟩
  · intro hfound b hloc
    simp [away, hloc] at hfound
  · intro s e serial he hv
    unfold State.foundAt
    simp only [he, hv, decide_eq_true_eq]
    rfl

theorem State.foundAt_arm {slot : Nat} {r : Reading} : ((s.foundAt slot r).1.arm b) = s.arm b := by
  cases r with
  | noCase => rfl
  | unreadable => exact State.setFinding_arm
  | serial serial =>
    cases he : s.entryOf serial with
    | none =>
      have hfound : s.foundAt slot (.serial serial) = (s.setFinding slot (.serial serial), [.foundForeign]) := by simp [State.foundAt, he]
      rw [hfound]
      exact State.setFinding_arm
    | some e =>
      cases hv : s.vol? e with
      | none =>
        have hfound : s.foundAt slot (.serial serial) = (s.setFinding slot (.serial serial), [.foundForeign]) := by simp [State.foundAt, he, hv]
        rw [hfound]
        exact State.setFinding_arm
      | some v =>
        have hmoved {l : Loc} (hloc : v.loc ≠ .inArm b) : (s.relocate e l).arm b = s.arm b :=
          (State.relocate_arm_cases hv).resolve_right (fun k => hloc k.1)
        obtain ⟨back, astray, hloc, hfound⟩ := State.foundAt_known v slot
        rw [hfound s e serial he hv]
        cases back with
        | true => exact State.notify_arm.trans (hmoved (hloc (Or.inl rfl) b))
        | false =>
          cases astray with
          | true => exact State.setFinding_arm.trans (hmoved (hloc (Or.inr rfl) b))
          | false => exact State.setFinding_arm

/-- A reading at a slot leaves the arms. -/
theorem State.slotReading_arm {slot : Nat} {r : Reading} : ((s.slotReading slot r).1.arm b) = s.arm b := by
  unfold State.slotReading
  split
  · rename_i e hoccupied
    split
    · rfl
    · have hlost : (s.makeMissing e).arm b = s.arm b := State.makeMissing_arm (fun v hv => by
        rw [State.slotState_occupied hoccupied hv]
        exact Loc.noConfusion)
      dsimp only
      split
      · exact hlost
      · exact State.foundAt_arm.trans hlost
  · exact State.foundAt_arm
  · exact State.foundAt_arm
  · rename_i f _
    split
    · rfl
    · refine State.foundAt_arm.trans ?_
      rcases State.findingGone_cases (s := s) (slot := slot) (f := f) with ⟨hgone, _⟩ | ⟨_, e, v, _, _, hv, hloc, hgone⟩
      · rw [hgone, State.clearFinding_arm]
      · rw [hgone]
        refine (State.makeMissing_arm (fun w hw => ?_)).trans State.clearFinding_arm
        rw [State.clearFinding_vol?, hv] at hw
        cases hw
        rw [hloc]
        exact Loc.noConfusion

/-! The directory after a reading is a matter of the directory before it. -/

theorem State.leaveMisplaced_dir {l : Loc} (h : t.dir = s.dir) : (t.leaveMisplaced e v l).dir = (s.leaveMisplaced e v l).dir := by
  have hnames {slot : Nat} : t.findingNames slot e = s.findingNames slot e := by
    unfold State.findingNames State.finding? State.serialOf State.vol?
    rw [h]
  have hclear {slot : Nat} : (t.clearFinding slot).dir = (s.clearFinding slot).dir := by
    unfold State.clearFinding
    rw [h]
  unfold State.leaveMisplaced
  split
  · rw [hnames]
    split
    · exact h
    · split
      · exact hclear
      · exact h
  all_goals exact h

theorem State.relocate_dir {l : Loc} (h : t.dir = s.dir) : (t.relocate e l).dir = (s.relocate e l).dir := by
  have hvol : t.vol? e = s.vol? e := by unfold State.vol?; rw [h]
  unfold State.relocate
  rw [hvol]
  cases s.vol? e with
  | none => exact h
  | some v =>
    have hleft : (if v.loc = l then t else (t.leaveMisplaced e v l).unhold e v.loc).dir =
        (if v.loc = l then s else (s.leaveMisplaced e v l).unhold e v.loc).dir := by
      split
      · exact h
      · rw [State.unhold_dir, State.unhold_dir, State.leaveMisplaced_dir h]
    dsimp only
    generalize (if v.loc = l then t else (t.leaveMisplaced e v l).unhold e v.loc) = x at hleft ⊢
    generalize (if v.loc = l then s else (s.leaveMisplaced e v l).unhold e v.loc) = y at hleft ⊢
    unfold State.setVol State.clearFinding
    split <;> simp only [hleft]

theorem State.makeMissing_dir (h : t.dir = s.dir) : (t.makeMissing e).dir = (s.makeMissing e).dir := by
  have hvol : t.vol? e = s.vol? e := by unfold State.vol?; rw [h]
  unfold State.makeMissing
  rw [hvol]
  split
  · exact State.relocate_dir h
  · exact h

theorem State.foundAt_dir {slot : Nat} {r : Reading} (h : t.dir = s.dir) : (t.foundAt slot r).1.dir = (s.foundAt slot r).1.dir := by
  have hentry {serial : Text} : t.entryOf serial = s.entryOf serial := by unfold State.entryOf; rw [h]
  have hvol {e : Nat} : t.vol? e = s.vol? e := by unfold State.vol?; rw [h]
  have hset {f : Finding} : (t.setFinding slot f).dir = (s.setFinding slot f).dir := by unfold State.setFinding; rw [h]
  have hmisplaced {e : Nat} {f : Finding} : ((t.relocate e (.misplaced slot)).setFinding slot f).dir =
      ((s.relocate e (.misplaced slot)).setFinding slot f).dir := by
    unfold State.setFinding
    rw [State.relocate_dir h]
  cases r with
  | noCase => exact h
  | unreadable => exact hset
  | serial serial =>
    cases he : s.entryOf serial with
    | none =>
      have hfound {u : State} (hu : u.entryOf serial = none) :
          u.foundAt slot (.serial serial) = (u.setFinding slot (.serial serial), [.foundForeign]) := by simp [State.foundAt, hu]
      rw [hfound he, hfound (hentry.trans he)]
      exact hset
    | some e =>
      cases hv : s.vol? e with
      | none =>
        have hfound {u : State} (hu : u.entryOf serial = some e) (hn : u.vol? e = none) :
            u.foundAt slot (.serial serial) = (u.setFinding slot (.serial serial), [.foundForeign]) := by simp [State.foundAt, hu, hn]
        rw [hfound he hv, hfound (hentry.trans he) (hvol.trans hv)]
        exact hset
      | some v =>
        obtain ⟨back, astray, _, hfound⟩ := State.foundAt_known v slot
        rw [hfound s e serial he hv, hfound t e serial (hentry.trans he) (hvol.trans hv)]
        cases back with
        | true =>
          change (t.reachHome e).dir = (s.reachHome e).dir
          rw [State.reachHome, State.reachHome, State.notify_dir, State.notify_dir]
          exact State.relocate_dir h
        | false =>
          cases astray with
          | true => exact hmisplaced
          | false => exact hset

theorem State.findingGone_dir {slot : Nat} {f : Finding} (h : t.dir = s.dir) : (t.findingGone slot f).1.dir = (s.findingGone slot f).1.dir := by
  have hentry {serial : Text} : t.entryOf serial = s.entryOf serial := by unfold State.entryOf; rw [h]
  have hvol {e : Nat} : t.vol? e = s.vol? e := by unfold State.vol?; rw [h]
  have hclear : (t.clearFinding slot).dir = (s.clearFinding slot).dir := by unfold State.clearFinding; rw [h]
  unfold State.findingGone
  cases f with
  | unreadable => exact hclear
  | serial serial =>
    dsimp only
    rw [hentry]
    cases s.entryOf serial with
    | none => exact hclear
    | some e =>
      dsimp only
      rw [hvol]
      split
      · exact State.makeMissing_dir hclear
      · exact hclear

theorem State.slotReading_dir {slot : Nat} {r : Reading} (h : t.dir = s.dir) : (t.slotReading slot r).1.dir = (s.slotReading slot r).1.dir := by
  have hstate : t.slotState slot = s.slotState slot := by
    unfold State.slotState State.finding? State.homeOwner State.vol?
    rw [h]
  have hreads {e : Nat} : t.reads r e = s.reads r e := by
    unfold State.reads State.serialOf State.vol?
    rw [h]
  unfold State.slotReading
  rw [hstate]
  cases s.slotState slot with
  | occupied e =>
    dsimp only
    rw [hreads]
    split
    · exact h
    · split
      · exact State.makeMissing_dir h
      · exact State.foundAt_dir (State.makeMissing_dir h)
  | vacant e => exact State.foundAt_dir h
  | free => exact State.foundAt_dir h
  | foreign f =>
    dsimp only
    split
    · exact h
    · exact State.foundAt_dir (State.findingGone_dir h)

theorem State.doneRead_read {slot : Nat} {r : Reading} : ((s.doneRead a slot r).arm a).gripper = (s.arm a).gripper ∧
    (s.doneRead a slot r).dir = (s.slotReading slot r).1.dir := by
  have hcontents : Contents (s.slotReading slot r).1 (s.doneRead a slot r) := by
    unfold State.doneRead
    dsimp only
    split
    · exact Contents.advance (Contents.notify (Contents.refl _))
    · exact Contents.advance (Contents.refl _)
  exact ⟨by rw [hcontents.gripper, State.slotReading_arm], hcontents.dir⟩

/-! #### What a report reads, and the leg it completes (R100) -/

theorem legReading_noCase {r : LegReport} {l : Leg} (h : r.loaded = 0) : legReading r l = .noCase := if_pos h

theorem legReading_serial {r : LegReport} {l : Leg} (hloaded : r.loaded ≠ 0) (hreading : r.reading = 0)
    (hname : isPaddedName r.serial = true) : legReading r l = .serial r.serial := by
  unfold legReading readSerial
  rw [if_neg hloaded, if_pos hreading, if_pos hname]

/-- A PICK that reports a reel with another serial, or an unread label, does not read the expected volume. -/
theorem legReading_other {r : LegReport} {place : Place} (hv : s.vol? e = some v) (hloaded : r.loaded ≠ 0)
    (hother : r.reading ≠ 0 ∨ r.serial ≠ v.serial) :
    legReading r (.pick place) ≠ .noCase ∧ s.reads (legReading r (.pick place)) e = false := by
  have hread : legReading r (.pick place) = .unreadable ∨ legReading r (.pick place) = .serial r.serial ∧ r.reading = 0 := by
    unfold legReading readSerial
    rw [if_neg hloaded]
    split
    · rename_i hreading
      split
      · exact Or.inr ⟨rfl, hreading⟩
      · exact Or.inl rfl
    · exact Or.inl rfl
  refine ⟨fun h => ?_, Bool.eq_false_iff.mpr fun h => ?_⟩
  · rcases hread with hread | ⟨hread, _⟩ <;> rw [hread] at h <;> cases h
  · rw [State.reads_iff hv] at h
    rcases hread with hread | ⟨hread, hreading⟩
    · rw [hread] at h
      cases h
    · rw [hread] at h
      exact hother.elim (absurd hreading) (absurd (Reading.serial.inj h))

/-- A report in the window whose gripper flag fits completes the leg. -/
theorem exec_legCompleted {l : Leg} {volume : Option Nat} {lo hi ticks : Nat} {r : LegReport}
    (hout : (s.arm a).outstanding = some (.leg l volume lo hi)) (hlo : lo ≤ ticks) (hhi : ticks ≤ hi) (hfits : fits s a l r) :
    s.ActsBy (.legDone a r ticks) (s.legCompletes a l volume (legReading r l)) := by
  refine exec_legDone ((State.takeLegDone_leg hout).trans ?_)
  unfold State.legReported
  rw [if_neg (Nat.not_lt.mpr hhi), if_neg (Nat.not_lt.mpr hlo), if_pos (State.flagFits_iff.mpr hfits)]

theorem State.answeredBy_puts (h : s.putsNothingBack a) : (s.answeredBy a).putsNothingBack a := by
  have horder {n : Nat} : (s.answeredBy a).order? n = s.order? n := State.order?_of_pool (by cases a <;> rfl)
  intro o ho
  rw [State.answeredBy_arm] at ho
  exact h o (by simpa only [horder] using ho)

theorem State.answeredBy_dir : (s.answeredBy a).dir = s.dir := State.answeredBy_contents.dir

/-- Settles O50, leg by leg, each from the part that has its answer. -/
theorem completedLegs : Obligations.CompletedLegs := by
  intro s a l volume lo hi r ticks hout hlo hhi hfits
  have hcontents : Contents s (s.answeredBy a) := State.answeredBy_contents
  have hvol {e : Nat} : (s.answeredBy a).vol? e = s.vol? e := hcontents.vol?
  have hdrive {d : Fin 16} : (s.answeredBy a).drive d = s.drive d := hcontents.drive
  have hreads {x : Reading} {e : Nat} : (s.answeredBy a).reads x e = s.reads x e := by
    unfold State.reads State.serialOf
    rw [hvol]
  have hentry {serial : Text} : (s.answeredBy a).entryOf serial = s.entryOf serial := by
    unfold State.entryOf
    rw [State.answeredBy_dir]
  refine ⟨_, exec_legCompleted hout hlo hhi hfits, ?travel, ?pickSlot, ?pickDrive, ?placeSlot, ?placeDrive, ?placeStation, ?read, ?pickMissed, ?pickStation⟩
  case travel =>
    rintro c rfl hmove
    obtain ⟨hcolumn, hgripper, hdir⟩ := State.doneTravel_arrived (s := s.answeredBy a) (a := a) (c := c) (by rw [State.answeredBy_arm]; exact hmove)
    exact ⟨hcolumn, hgripper.trans hcontents.gripper, hdir.trans hcontents.dir⟩
  case pickSlot =>
    rintro slot e v rfl rfl hv hloaded hreading hserial hname
    refine State.donePickSlot_expected (s := s.answeredBy a) (hvol.trans hv) ?_
    rw [hreads, State.reads_iff hv, legReading_serial hloaded hreading (hserial ▸ hname), hserial]
  case pickDrive =>
    rintro d e v rfl hvolume hv hstate ⟨c, hclaim⟩
    have hpicked := State.pickFromDrive_released (s := s.answeredBy a) (a := a) (d := d) (e := e) (v := v) (hdrive ▸ hvolume) (hvol.trans hv)
      (hdrive ▸ hstate) (by rw [hdrive, hclaim]; rfl)
    rw [hdrive] at hpicked
    exact hpicked
  case placeSlot =>
    rintro slot e v rfl hgripper hv hputs
    have hplaced := State.donePlace_home (s := s.answeredBy a) (slot := slot) (State.answeredBy_puts hputs) (hcontents.gripper.trans hgripper)
      (hvol.trans hv)
    rw [State.answeredBy_dir] at hplaced
    exact hplaced
  case placeDrive =>
    rintro d e v rfl hgripper hv hputs hlow
    have hwidth : (s.answeredBy a).pulseWidth = s.pulseWidth := by cases a <;> rfl
    have hplaced := State.donePlace_onDrive (s := s.answeredBy a) (State.answeredBy_puts hputs) (hcontents.gripper.trans hgripper)
      (hvol.trans hv) (by rw [hdrive]; exact hlow)
    rw [hwidth] at hplaced
    exact hplaced
  case placeStation =>
    rintro p e v rfl hgripper hv hputs
    exact State.donePlace_atStation (s := s.answeredBy a) (State.answeredBy_puts hputs) (hcontents.gripper.trans hgripper) (hvol.trans hv)
  case read =>
    rintro slot rfl
    obtain ⟨hgripper, hdir⟩ := State.doneRead_read (s := s.answeredBy a) (a := a) (slot := slot) (r := legReading r (.read slot))
    exact ⟨hgripper.trans hcontents.gripper, hdir.trans (State.slotReading_dir State.answeredBy_dir)⟩
  case pickMissed =>
    rintro slot e v rfl rfl hv
    refine ⟨fun hloaded => ?_, fun hloaded hother => ?_⟩
    · rw [legReading_noCase hloaded]
      exact ⟨_, State.donePickSlot_empty (s := s.answeredBy a) (hvol.trans hv), rfl, rfl⟩
    · obtain ⟨hcase, hread⟩ := legReading_other (place := .slot slot) hv hloaded hother
      exact State.donePickSlot_other (s := s.answeredBy a) (hvol.trans hv) (hreads.trans hread) hcase
  case pickStation =>
    rintro p e v rfl rfl hv
    refine ⟨fun hloaded hreading hserial hname hloc hat => ?_, fun hloaded hother => ?_⟩
    · have hread := legReading_serial (l := .pick (.station p)) hloaded hreading (hserial ▸ hname)
      exact State.donePickStation_expected (s := s.answeredBy a) (hvol.trans hv)
        (by rw [hreads, State.reads_iff hv, hread, hserial]) hread (by rw [hentry, hserial]; exact hat) hloc
    · obtain ⟨hcase, hread⟩ := legReading_other (place := .station p) hv hloaded hother
      exact State.donePickStation_other (s := s.answeredBy a) (hvol.trans hv) (hreads.trans hread) hcase

end Sys2Proof.Machine
end

section
/-! PROOFS. The LABEL frame (O37), and what a put-away with a pending outcome leaves of the directory, the label timers and its request. -/

namespace Sys2Proof.Machine

variable {s t u : State} {a : ArmId} {c d : Fin 16} {e n : Nat} {tag : Half} {r q : Request} {reply : Reply}

/-! ### A put-away that bears a final reply -/

/-- The directory is kept, no label timer starts, and a request bears the final reply it bore as its pending outcome. -/
structure Bears (tag : Half) (reply : Reply) (s t : State) : Prop where
  dir : t.dir = s.dir
  timers : ∀ c, (s.drive c).labelTimer = none → (t.drive c).labelTimer = none
  request : ∀ r, s.request? tag = some r → r.pending = some reply → ∃ q, t.request? tag = some q ∧ q.pending = some reply

/-- The same, where the request may have finished with the reply. -/
structure Settles (tag : Half) (reply : Reply) (s t : State) : Prop where
  dir : t.dir = s.dir
  timers : ∀ c, (s.drive c).labelTimer = none → (t.drive c).labelTimer = none
  request : ∀ r, s.request? tag = some r → r.pending = some reply →
    ∃ q, t.request? tag = some q ∧ (q.pending = some reply ∨ q.outcome = some reply)

theorem Bears.refl (s : State) : Bears tag reply s s := ⟨rfl, fun _ h => h, fun r hr hp => ⟨r, hr, hp⟩⟩

theorem Bears.trans (h : Bears tag reply s t) (k : Bears tag reply t u) : Bears tag reply s u where
  dir := k.dir.trans h.dir
  timers c hc := k.timers c (h.timers c hc)
  request r hr hp := by
    obtain ⟨q, hq, hpending⟩ := h.request r hr hp
    exact k.request q hq hpending

theorem Bears.settles (h : Bears tag reply s t) : Settles tag reply s t := ⟨h.dir, h.timers, fun r hr hp =>
  have ⟨q, hq, hpending⟩ := h.request r hr hp
  ⟨q, hq, Or.inl hpending⟩⟩

theorem Settles.after (h : Bears tag reply s t) (k : Settles tag reply t u) : Settles tag reply s u where
  dir := k.dir.trans h.dir
  timers c hc := k.timers c (h.timers c hc)
  request r hr hp := by
    obtain ⟨q, hq, hpending⟩ := h.request r hr hp
    exact k.request q hq hpending

/-- A change that leaves the directory, the drives and the queue. -/
theorem Bears.of_parts (hdir : t.dir = s.dir) (hdrv : t.drv = s.drv) (hms : t.ms = s.ms) : Bears tag reply s t where
  dir := hdir
  timers c hc := by unfold State.drive at *; rw [hdrv]; exact hc
  request r hr hp := ⟨r, by unfold State.request? at *; rw [hms]; exact hr, hp⟩

theorem Bears.contents (h : Contents s t) : Bears tag reply s t := .of_parts h.dir h.drv h.ms

theorem Bears.notify {x : Notice} : Bears tag reply s (s.notify x) := .contents (Contents.notify (Contents.refl s))

/-- A change of a drive that starts no label timer. -/
theorem Bears.updDrive {f : Drive → Drive} (hf : ∀ x, x.labelTimer = none → (f x).labelTimer = none) : Bears tag reply s (s.updDrive d f) where
  dir := rfl
  timers c hc := by
    by_cases hd : c = d
    · subst hd
      rw [State.updDrive_drive_self]
      exact hf _ hc
    · rw [State.updDrive_drive_ne hd]
      exact hc
  request r hr hp := ⟨r, hr, hp⟩

/-- A change of a request that leaves its tag and its pending outcome. -/
theorem Bears.updRequest {own : Half} {f : Request → Request} (hf : ∀ x, (f x).tag = x.tag ∧ (f x).pending = x.pending) :
    Bears tag reply s (s.updRequest own f) where
  dir := rfl
  timers c hc := hc
  request r hr hp := by
    rw [State.updRequest_request? (fun x => (hf x).1), hr, Option.map_some]
    refine ⟨_, rfl, ?_⟩
    split
    · exact (hf r).2.trans hp
    · exact hp

/-! ### The parts of a put-away -/

theorem State.clearAwaiting_parts : (s.clearAwaiting tag).dir = s.dir ∧ (s.clearAwaiting tag).drv = s.drv := by
  unfold State.clearAwaiting
  constructor
  · refine foldl_part (g := State.dir) (fun u p => ?_) _ _
    split
    · exact State.notify_dir
    · rfl
  · refine foldl_part (g := State.drv) (fun u p => ?_) _ _
    split
    · exact State.notify_drv
    · rfl

theorem State.withdrawPrompt_parts : (s.withdrawPrompt tag).dir = s.dir ∧ (s.withdrawPrompt tag).drv = s.drv := by
  unfold State.withdrawPrompt
  split
  · exact ⟨State.clearAwaiting_parts.1.trans State.leaveList_aside.dir, State.clearAwaiting_parts.2.trans State.leaveList_aside.drv⟩
  · exact ⟨rfl, rfl⟩

theorem Bears.clearAwaiting {own : Half} : Bears tag reply s (s.clearAwaiting own) :=
  .of_parts State.clearAwaiting_parts.1 State.clearAwaiting_parts.2 State.clearAwaiting_ms

theorem Bears.withdrawPrompt {own : Half} : Bears tag reply s (s.withdrawPrompt own) where
  dir := State.withdrawPrompt_parts.1
  timers c hc := by unfold State.drive at *; rw [State.withdrawPrompt_parts.2]; exact hc
  request r hr hp := by
    obtain ⟨q, hq, hcore⟩ := State.request?_of_cores State.withdrawPrompt_cores hr (t := s.withdrawPrompt own)
    exact ⟨q, hq, (congrArg Request.pending hcore).trans hp⟩

theorem Bears.enter {own : Half} {st : ReqState} {reason : Option WaitReason} : Bears tag reply s (s.enter own st reason) :=
  Bears.withdrawPrompt.trans (Bears.updRequest (fun _ => ⟨rfl, rfl⟩))

theorem Bears.recordClaim {session : Option Session} {outcome : RecOutcome} : Bears tag reply s (s.recordClaim d session outcome) := by
  unfold State.recordClaim
  split
  · exact Bears.refl s
  · split
    · refine Bears.trans ?_ (Bears.updDrive (fun _ h => h))
      unfold State.putRecord
      refine Bears.trans (Bears.of_parts ?_ ?_ ?_) (Bears.updDrive (fun _ h => h))
      · exact State.updAccount_dir
      · exact State.updAccount_drv
      · exact State.updAccount_ms
    · exact Bears.refl s

theorem Bears.endClaim : Bears tag reply s (s.endClaim d) := by
  unfold State.endClaim
  split
  · exact Bears.refl s
  · rename_i claim _
    have hended : Bears tag reply s (((s.updDrive d (fun x => { x with claim := none })).countClaimEnd claim.account)) := by
      refine Bears.trans (Bears.updDrive (d := d) (f := fun x => { x with claim := none }) (fun _ h => h)) ?_
      unfold State.countClaimEnd
      exact Bears.trans (Bears.of_parts State.updAccount_dir State.updAccount_drv State.updAccount_ms) Bears.notify
    unfold State.dropClaimed
    split
    · exact hended.trans (Bears.updRequest (fun _ => ⟨rfl, rfl⟩))
    · exact hended

theorem Bears.setDriveState {st : DriveState} : Bears tag reply s (s.setDriveState d st) := Bears.updDrive (fun _ h => h)

theorem Bears.stopLabelTimer : Bears tag reply s (s.stopLabelTimer d) := Bears.updDrive (fun _ _ => rfl)

theorem Bears.stopLoadTimer : Bears tag reply s (s.stopLoadTimer d) := Bears.updDrive (fun _ h => h)

theorem Bears.updClaim {f : Claim → Claim} : Bears tag reply s (s.updClaim d f) := Bears.updDrive (fun _ h => h)

theorem Bears.giveUpClaim {outcome : RecOutcome} : Bears tag reply s (s.giveUpClaim d outcome) := by
  have hended : Bears tag reply s (((s.recordClaim d none outcome).stopLoadTimer d).endClaim d) :=
    (Bears.recordClaim.trans Bears.stopLoadTimer).trans Bears.endClaim
  unfold State.giveUpClaim
  dsimp only
  split
  · exact hended.trans Bears.setDriveState
  · exact (hended.trans Bears.setDriveState).trans Bears.notify

theorem Bears.dropClaim {own : Half} {outcome : RecOutcome} : Bears tag reply s (s.dropClaim own outcome) := by
  unfold State.dropClaim
  split
  · dsimp only
    split
    · exact Bears.giveUpClaim
    · exact Bears.refl s
  · exact Bears.refl s

theorem Bears.unload : Bears tag reply s (s.unload d) := by
  have hpulse {w : State} {k : PulseKind} : Bears tag reply w (w.startPulse d k) := Bears.updDrive (fun _ h => h)
  have hrelease {w : State} : Bears tag reply w (w.startReleaseTimer d) := Bears.updDrive (fun _ h => h)
  unfold State.unload
  split
  · exact ((Bears.stopLabelTimer.trans hpulse).trans Bears.setDriveState).trans hrelease
  · exact Bears.stopLabelTimer.trans hpulse
  · exact (((Bears.stopLabelTimer.trans Bears.stopLoadTimer).trans hpulse).trans Bears.setDriveState).trans hrelease
  · exact Bears.stopLabelTimer.trans Bears.notify
  all_goals exact Bears.refl s

theorem Contents.removeOrder (h : Contents s t) : Contents s (t.removeOrder n) := by
  unfold State.removeOrder
  dsimp only
  split
  · exact h.untake.dropOrder.unreserve
  · exact h.dropOrder.unreserve

theorem Contents.cutOrder (h : Contents s t) : Contents s (t.cutOrder a n) := by
  unfold State.cutOrder
  split
  · exact h
  · split
    · exact h
    · dsimp only
      exact Contents.ite h.updOrder h.updOrder.endOrder

theorem Bears.dropUnstarted {own : Half} : Bears tag reply s (s.dropUnstarted own) := by
  unfold State.dropUnstarted
  split
  · exact Bears.refl s
  · split
    · split
      · exact Bears.refl s
      · exact (Bears.contents (Contents.removeOrder (Contents.refl s))).trans (Bears.updRequest (fun _ => ⟨rfl, rfl⟩))
    · exact Bears.updRequest (fun _ => ⟨rfl, rfl⟩)

theorem State.finish_parts : (s.finish tag reply).dir = s.dir ∧ (s.finish tag reply).drv = s.drv := by
  cases hr : s.request? tag with
  | none =>
    unfold State.finish
    rw [hr]
    exact ⟨rfl, rfl⟩
  | some r =>
    have howes {w : State} : (w.oweFinal tag reply).dir = w.dir ∧ (w.oweFinal tag reply).drv = w.drv := ⟨rfl, rfl⟩
    rw [State.finish_eq hr, howes.1, howes.2, State.updRequest_dir, State.updRequest_drv]
    have hprompt := State.withdrawPrompt_parts (s := s) (tag := tag)
    have hawaiting := State.clearAwaiting_parts (s := s.withdrawPrompt tag) (tag := tag)
    exact ⟨hawaiting.1.trans hprompt.1, hawaiting.2.trans hprompt.2⟩

/-- The request of a put-away at its end: it awaits nothing. -/
def State.awaitingNothing (s : State) (tag : Half) : State :=
  s.updRequest tag (fun x => { x with order := none, after := none, awaitVolume := none, toStation := false })

theorem Bears.awaitingNothing {own : Half} : Bears tag reply s (s.awaitingNothing own) := Bears.updRequest (fun _ => ⟨rfl, rfl⟩)

theorem State.endPutAway_pending (hr : s.request? tag = some r) (hpending : r.pending = some reply) :
    s.endPutAway tag = (s.awaitingNothing tag).finish tag reply := by
  unfold State.endPutAway
  rw [hr]
  dsimp only
  rw [hpending]
  rfl

/-- A put-away with a pending outcome ends with it. -/
theorem Settles.endPutAway (hr : s.request? tag = some r) (hpending : r.pending = some reply) : Settles tag reply s (s.endPutAway tag) := by
  obtain ⟨q, hq, _⟩ := (Bears.awaitingNothing (tag := tag) (reply := reply) (s := s) (own := tag)).request r hr hpending
  obtain ⟨_, x, hx, _, houtcome, _⟩ := State.finish_finished (reply := reply) hq
  rw [State.request?_tag hq] at hx
  rw [State.endPutAway_pending hr hpending]
  refine ⟨State.finish_parts.1, fun c hc => ?_, fun _ _ _ => ⟨x, hx, Or.inr houtcome⟩⟩
  unfold State.drive at *
  rw [State.finish_parts.2]
  exact hc

/-- The end of a put-away after parts of it. -/
theorem Bears.endPutAway (h : Bears tag reply s t) (hr : s.request? tag = some r) (hpending : r.pending = some reply) :
    Settles tag reply s (t.endPutAway tag) := by
  obtain ⟨q, hq, hbears⟩ := h.request r hr hpending
  exact Settles.after h (Settles.endPutAway hq hbears)

/-- The put-away by the claimed drive (R72). -/
theorem Settles.pursueDrive (hr : s.request? tag = some r) (hpending : r.pending = some reply) : Settles tag reply s (s.pursueDrive tag) := by
  unfold State.pursueDrive
  rw [hr]
  dsimp only
  split
  · exact Settles.endPutAway hr hpending
  · rename_i d _
    have hnamed : Bears tag reply s (s.updClaim d (fun c => { c with named := some r.giveUpOutcome })) := Bears.updClaim
    split
    · split
      · exact (hnamed.trans Bears.enter).settles
      · exact (hnamed.trans Bears.giveUpClaim).endPutAway hr hpending
    iterate 4 exact ((hnamed.trans Bears.enter).trans Bears.unload).settles
    · exact ((hnamed.trans Bears.stopLabelTimer).trans Bears.enter).settles
    all_goals exact hnamed.endPutAway hr hpending

/-- A put-away with a pending outcome, by where the work stands (R72). -/
theorem Settles.pursue (hr : s.request? tag = some r) (hpending : r.pending = some reply) : Settles tag reply s (s.pursue tag) := by
  have hdropped : Bears tag reply s (s.dropUnstarted tag) := Bears.dropUnstarted
  obtain ⟨q, hq, hbears⟩ := hdropped.request r hr hpending
  unfold State.pursue
  dsimp only
  split
  · exact Settles.after hdropped (Settles.pursueDrive hq hbears)
  · rename_i o _
    have hentered : Bears tag reply s ((s.dropUnstarted tag).enter tag .returning none) := hdropped.trans Bears.enter
    split
    · exact hentered.settles
    · split
      · split
        · exact hentered.settles
        · split
          · exact (hentered.trans (Bears.contents (Contents.cutOrder (Contents.refl _)))).settles
          · exact ((hentered.trans (Bears.contents (Contents.replaceRest (Contents.refl _)))).trans Bears.dropClaim).settles
      · exact hentered.settles

/-- Where a put-away begins: the prompt withdrawn, no position awaiting the request, and its claim without the ring hold (R72). -/
def State.asidePut (s : State) (tag : Half) (outcome : RecOutcome) : State :=
  let w := (s.withdrawPrompt tag).clearAwaiting tag
  match (w.request? tag).bind w.ownDrive with
  | some d => w.updClaim d (fun c => { c with ringHold := false, named := some outcome })
  | none => w

/-- A request whose put-away begins. -/
def Request.puttingAway (r : Request) (pending : Option Reply) (after : Option AfterPutAway) (outcome : RecOutcome) (toStation : Bool) : Request :=
  { r with pending := pending, after := after, recOutcome := outcome, toStation := toStation }

theorem State.putAway_eq {pending : Option Reply} {after : Option AfterPutAway} {outcome : RecOutcome} {toStation : Bool} :
    s.putAway tag pending after outcome toStation =
      ((s.asidePut tag outcome).updRequest tag (fun r => r.puttingAway pending after outcome toStation)).pursue tag := by
  unfold State.putAway State.asidePut Request.puttingAway
  dsimp only <;>
  cases (((s.withdrawPrompt tag).clearAwaiting tag).request? tag).bind ((s.withdrawPrompt tag).clearAwaiting tag).ownDrive <;> rfl

theorem State.puttingAway_request? {pending : Option Reply} {after : Option AfterPutAway} {outcome : RecOutcome} {toStation : Bool}
    (hr : s.request? tag = some r) : (s.updRequest tag (fun r => r.puttingAway pending after outcome toStation)).request? tag =
      some (r.puttingAway pending after outcome toStation) := by
  rw [State.updRequest_request? (f := fun r => r.puttingAway pending after outcome toStation) (fun _ => rfl), hr, Option.map_some,
    if_pos (State.request?_tag hr)]

theorem Bears.asidePut {own : Half} {outcome : RecOutcome} : Bears tag reply s (s.asidePut own outcome) := by
  have hcleared : Bears tag reply s ((s.withdrawPrompt own).clearAwaiting own) := Bears.withdrawPrompt.trans Bears.clearAwaiting
  unfold State.asidePut
  dsimp only
  split
  · exact hcleared.trans Bears.updClaim
  · exact hcleared

theorem State.asidePut_cores {outcome : RecOutcome} : (s.asidePut tag outcome).cores = s.cores := by
  have hcleared : ((s.withdrawPrompt tag).clearAwaiting tag).cores = s.cores :=
    (State.cores_of_ms State.clearAwaiting_ms).trans State.withdrawPrompt_cores
  unfold State.asidePut
  dsimp only
  split
  · exact (State.cores_of_ms State.updClaim_ms).trans hcleared
  · exact hcleared

/-- A put-away that begins with a pending outcome keeps it, or finishes its request with it (R72). -/
theorem State.putAway_settles {after : Option AfterPutAway} {outcome : RecOutcome} {toStation : Bool} (hr : s.request? tag = some r) :
    (s.putAway tag (some reply) after outcome toStation).dir = s.dir ∧
    (∀ c, (s.drive c).labelTimer = none → ((s.putAway tag (some reply) after outcome toStation).drive c).labelTimer = none) ∧
    ∃ q, (s.putAway tag (some reply) after outcome toStation).request? tag = some q ∧ (q.pending = some reply ∨ q.outcome = some reply) := by
  have hbegun : Bears tag reply s (s.asidePut tag outcome) := Bears.asidePut
  obtain ⟨x, hx, _⟩ := State.request?_of_cores State.asidePut_cores hr (t := s.asidePut tag outcome)
  have hpending := State.puttingAway_request? (pending := some reply) (after := after) (outcome := outcome) (toStation := toStation) hx
  have hsettled := Settles.pursue (reply := reply) hpending rfl
  rw [State.putAway_eq]
  refine ⟨(hsettled.dir.trans State.updRequest_dir).trans hbegun.dir, fun c hc => hsettled.timers c ?_, hsettled.request _ hpending rfl⟩
  rw [State.updRequest_drive]
  exact hbegun.timers c hc

/-! ### A request-related prompt -/

/-- A prompt asked for where there is no room. -/
theorem State.promptRequest_full {kind : PromptKind} {volume : Option Nat} {drive : Option (Fin 16)} {resume : ReqState}
    (hr : s.request? tag = some r) (hprompt : r.prompt = none)
    (hfull : 14 ≤ (s.pr.list.filter (fun p => p.kind.requestRelated)).length ∨ 16 ≤ s.pr.list.length) :
    s.promptRequest tag kind volume drive resume = none := by
  have hsame : s.withdrawPrompt tag = s := by
    unfold State.withdrawPrompt
    rw [hr, Option.bind_some, hprompt]
  unfold State.promptRequest State.askRequestPrompt
  rw [hsame, if_pos (show Config.maxRequestPrompts ≤ s.requestPrompts ∨ Config.maxPrompts ≤ s.pr.list.length from hfull)]
  split <;> rfl

/-- The prompt that is issued: the last of the list, naming what it was asked to (R128). -/
theorem State.issue_names {kind : PromptKind} {names : Names} : ∃ p, (s.issue kind names).1.pr.list = s.pr.list ++ [p] ∧
    p.number = (s.issue kind names).2 ∧ p.kind = kind ∧ p.tag = names.tag ∧ p.volume = names.volume ∧ p.drive = names.drive := by
  unfold State.issue
  simp only [State.attend_pr]
  exact ⟨_, rfl, rfl, rfl, rfl, rfl, rfl⟩

theorem State.askRequestPrompt_aside {kind : PromptKind} {names : Names} (h : s.askRequestPrompt kind names = some (u, n)) : Aside s u := by
  have hissued : Aside s (s.issue kind names).1 := State.issue_aside
  unfold State.askRequestPrompt at h
  split at h
  · cases h
  · generalize s.issue kind names = y at h hissued
    cases h
    split
    · exact hissued.trans State.notify_aside
    · exact hissued

/-- A prompt that has been asked for leaves the directory and the drives. -/
theorem State.promptRequest_parts {kind : PromptKind} {volume : Option Nat} {drive : Option (Fin 16)} {resume : ReqState}
    (h : s.promptRequest tag kind volume drive resume = some u) : u.dir = s.dir ∧ u.drv = s.drv := by
  have hwithdrawn := State.withdrawPrompt_parts (s := s) (tag := tag)
  unfold State.promptRequest at h
  split at h
  · obtain ⟨⟨w, n⟩, hasked, hentered⟩ := Option.map_eq_some_iff.mp h
    have haside := State.askRequestPrompt_aside hasked
    cases hentered
    unfold State.enterPrompted
    exact ⟨haside.dir.trans hwithdrawn.1, haside.drv.trans hwithdrawn.2⟩
  · cases h

/-- A request that is PROMPTED (R55). -/
def Request.promptedWith (r : Request) (n : Nat) (resume : ReqState) (kind : PromptKind) : Request :=
  { r with state := .prompted, prompt := some n, resume := some resume, timer := if kind = .manualMount then none else r.timer }

theorem State.enterPrompted_request? {resume : ReqState} {kind : PromptKind} (hr : s.request? tag = some r) :
    (s.enterPrompted tag n resume kind).request? tag = some (r.promptedWith n resume kind) := by
  have hentered : s.enterPrompted tag n resume kind = s.updRequest tag (fun r => r.promptedWith n resume kind) := rfl
  rw [hentered, State.updRequest_request? (f := fun r => r.promptedWith n resume kind) (fun _ => rfl), hr, Option.map_some,
    if_pos (State.request?_tag hr)]

/-- A prompt asked for where there is room, by a request that owes no reply and names no prompt: it is PROMPTED with it (R55, R128). -/
theorem State.promptRequest_room {kind : PromptKind} {volume : Option Nat} {drive : Option (Fin 16)} {resume : ReqState}
    (hkind : kind ≠ .volumeLost) (hr : s.request? tag = some r) (hprompt : r.prompt = none) (howes : ∀ x ∈ s.port.replyOwed, x.1 ≠ tag)
    (hroom : ¬(14 ≤ (s.pr.list.filter (fun p => p.kind.requestRelated)).length ∨ 16 ≤ s.pr.list.length)) :
    ∃ u, s.promptRequest tag kind volume drive resume = some u ∧ ∃ q p, u.request? tag = some q ∧ q.state = .prompted ∧
      q.resume = some resume ∧ p ∈ u.pr.list ∧ q.prompt = some p.number ∧ p.kind = kind ∧ p.tag = some tag ∧ p.volume = volume ∧
      p.drive = drive := by
  let names : Names := ⟨some tag, volume, drive, none, none⟩
  have hsame : s.withdrawPrompt tag = s := by
    unfold State.withdrawPrompt
    rw [hr, Option.bind_some, hprompt]
  have hpromptable : s.promptable tag = true := by
    unfold State.promptable
    simpa [hr] using fun x y hxy => howes (x, y) hxy
  have hasked : s.promptRequest tag kind volume drive resume =
      some ((s.issue kind names).1.enterPrompted tag (s.issue kind names).2 resume kind) := by
    unfold State.promptRequest State.askRequestPrompt
    rw [hsame, if_pos hpromptable,
      if_neg (show ¬(Config.maxRequestPrompts ≤ s.requestPrompts ∨ Config.maxPrompts ≤ s.pr.list.length) from hroom)]
    dsimp only
    rw [if_neg hkind]
    rfl
  obtain ⟨p, hlist, hnumber, hpkind, hptag, hpvolume, hpdrive⟩ := State.issue_names (s := s) (kind := kind) (names := names)
  have hissued : (s.issue kind names).1.request? tag = some r := by
    unfold State.request?
    rw [State.issue_ms]
    exact hr
  refine ⟨_, hasked, _, p, State.enterPrompted_request? hissued, rfl, rfl, ?_, congrArg some hnumber.symm, hpkind, hptag, hpvolume, hpdrive⟩
  unfold State.enterPrompted
  rw [State.updRequest_pr, hlist]
  exact List.mem_append_right _ (List.mem_singleton_self p)

theorem State.promptOrFail_some {kind : PromptKind} {volume : Option Nat} {drive : Option (Fin 16)} {resume : ReqState}
    (h : s.promptRequest tag kind volume drive resume = some u) : s.promptOrFail tag kind volume drive resume = u := by
  unfold State.promptOrFail
  rw [h]

theorem State.promptOrFail_none {kind : PromptKind} {volume : Option Nat} {drive : Option (Fin 16)} {resume : ReqState}
    (h : s.promptRequest tag kind volume drive resume = none) : s.promptOrFail tag kind volume drive resume =
      s.putAway tag (some (.failed .promptsFull)) none .failed false := by
  unfold State.promptOrFail
  rw [h]

/-- A prompt asked for, or the put-away without it, leaves the directory, and starts no label timer. -/
theorem State.promptOrFail_parts {kind : PromptKind} {volume : Option Nat} {drive : Option (Fin 16)} {resume : ReqState}
    (hr : s.request? tag = some r) : (s.promptOrFail tag kind volume drive resume).dir = s.dir ∧
      ∀ c, (s.drive c).labelTimer = none → ((s.promptOrFail tag kind volume drive resume).drive c).labelTimer = none := by
  cases h : s.promptRequest tag kind volume drive resume with
  | some u =>
    obtain ⟨hdir, hdrv⟩ := State.promptRequest_parts h
    rw [State.promptOrFail_some h]
    refine ⟨hdir, fun c hc => ?_⟩
    unfold State.drive at *
    rw [hdrv]
    exact hc
  | none =>
    obtain ⟨hdir, htimers, _⟩ := State.putAway_settles (reply := .failed .promptsFull) (after := none) (outcome := .failed) (toStation := false) hr
    rw [State.promptOrFail_none h]
    exact ⟨hdir, htimers⟩

/-! ### LABEL (O37) -/

theorem State.labelFrame_discards {drive : Byte} {serial : Text}
    (h : 15 < drive.toNat ∨ isPaddedName serial = false ∨ ∃ d : Fin 16, d.val = drive.toNat ∧ (s.drive d).labelTimer = none) :
    s.labelFrame drive serial = s := by
  unfold State.labelFrame
  cases hd : driveOfByte drive with
  | none => rfl
  | some d =>
    have hval := driveOfByte_eq_some.mp hd
    dsimp only
    refine if_neg fun hboth => ?_
    obtain ⟨hname, htimer⟩ := Bool.and_eq_true_iff.mp hboth
    rcases h with hhigh | hblank | ⟨c, hc, hnone⟩
    · exact absurd d.isLt (by omega)
    · rw [hblank] at hname
      cases hname
    · rw [Fin.ext (hval.trans hc.symm)] at htimer
      rw [hnone] at htimer
      cases htimer

theorem State.labelFrame_taken {serial : Text} (hname : isPaddedName serial = true) (htimer : (s.drive d).labelTimer.isSome = true) :
    s.labelFrame (byte d.val) serial = s.act (fun s => s.takeLabel d serial) := by
  unfold State.labelFrame
  rw [driveOfByte_drive]
  exact if_pos (by rw [hname, htimer]; rfl)

/-- The errors a label that does not match counts (R15, R68). -/
def State.labelErrors (s : State) (volume : Option Nat) : State :=
  match volume with
  | some e => s.raiseErrors e
  | none => s

theorem State.labelErrors_rest {volume : Option Nat} : (s.labelErrors volume).drv = s.drv ∧ (s.labelErrors volume).ms = s.ms ∧
    (s.labelErrors volume).pr = s.pr ∧ (s.labelErrors volume).port = s.port := by
  unfold State.labelErrors State.raiseErrors
  split
  · split <;> exact ⟨rfl, rfl, rfl, rfl⟩
  · exact ⟨rfl, rfl, rfl, rfl⟩

theorem State.verifying_request (h : s.verifying d = some r) : s.request? r.tag = some r := by
  unfold State.verifying at h
  obtain ⟨hfound, _⟩ := Option.filter_eq_some_iff.mp h
  obtain ⟨tag, _, hr⟩ := Option.bind_eq_some_iff.mp hfound
  rw [State.request?_tag hr]
  exact hr

section
variable {serial : Text} (htimer : (s.drive d).labelTimer.isSome = true)
include htimer

theorem State.takeLabel_eq : s.takeLabel d serial = match s.verifying d with
    | none => s.stopLabelTimer d
    | some r => if r.volume.bind s.serialOf = some serial then (s.stopLabelTimer d).finishMounted r d
      else ((s.stopLabelTimer d).labelErrors r.volume).promptOrFail r.tag .labelMismatch r.volume (some d) .verify := by
  have hrunning : ¬(s.drive d).labelTimer.isNone = true := by
    rw [← Option.not_isSome, htimer]
    exact Bool.false_ne_true
  have hverifying : (s.stopLabelTimer d).verifying d = s.verifying d := by
    have htag : ((s.stopLabelTimer d).drive d).claimTag = (s.drive d).claimTag := by
      unfold State.stopLabelTimer
      rw [State.updDrive_drive_self]
      rfl
    unfold State.verifying
    rw [htag]
    rfl
  unfold State.takeLabel
  rw [if_neg hrunning]
  dsimp only
  rw [hverifying]
  cases s.verifying d with
  | none => rfl
  | some r => rfl

theorem State.takeLabel_none (h : s.verifying d = none) : s.takeLabel d serial = s.stopLabelTimer d := by
  rw [State.takeLabel_eq htimer, h]

theorem State.takeLabel_same (h : s.verifying d = some r) (hsame : r.volume.bind s.serialOf = some serial) :
    s.takeLabel d serial = (s.stopLabelTimer d).finish r.tag (.mounted d serial ((s.drive d).session.any (·.readOnly))) := by
  have hserial : r.volume.bind (s.stopLabelTimer d).serialOf = some serial := hsame
  rw [State.takeLabel_eq htimer, h]
  dsimp only
  rw [if_pos hsame]
  unfold State.finishMounted State.readOnlyFlag State.stopLabelTimer
  rw [State.updDrive_drive_self]
  unfold State.stopLabelTimer at hserial
  rw [hserial]
  rfl

theorem State.takeLabel_other (h : s.verifying d = some r) (hother : r.volume.bind s.serialOf ≠ some serial) :
    s.takeLabel d serial = ((s.stopLabelTimer d).labelErrors r.volume).promptOrFail r.tag .labelMismatch r.volume (some d) .verify := by
  rw [State.takeLabel_eq htimer, h]
  exact if_neg hother

/-- The label timer does not run when a LABEL has been taken (R40). -/
theorem State.takeLabel_timer : ((s.takeLabel d serial).drive d).labelTimer = none := by
  have hstopped : ((s.stopLabelTimer d).drive d).labelTimer = none := by
    unfold State.stopLabelTimer
    rw [State.updDrive_drive_self]
  cases h : s.verifying d with
  | none => rw [State.takeLabel_none htimer h, hstopped]
  | some r =>
    by_cases hsame : r.volume.bind s.serialOf = some serial
    · rw [State.takeLabel_same htimer h hsame]
      unfold State.drive at *
      rw [State.finish_parts.2]
      exact hstopped
    · obtain ⟨hdrv, hms, _, _⟩ := State.labelErrors_rest (s := s.stopLabelTimer d) (volume := r.volume)
      have hr : ((s.stopLabelTimer d).labelErrors r.volume).request? r.tag = some r := by
        have hfound := State.verifying_request h
        unfold State.request? at hfound ⊢
        rw [hms]
        exact hfound
      rw [State.takeLabel_other htimer h hsame]
      refine (State.promptOrFail_parts hr).2 d ?_
      unfold State.drive at *
      rw [hdrv]
      exact hstopped

end

/-- Settles O37: by the request in VERIFY on the drive, and by its volume's serial. -/
theorem labelCommand : Obligations.LabelCommand := by
  refine ⟨fun s drive serial hfree hdiscard => ?discarded, fun s d serial hfree hname htimer => ?taken⟩
  case discarded =>
    have htake : s.takeFrame (.label drive serial) = (s, []) := congrArg (fun x => (x, ([] : List OutMsg))) (State.labelFrame_discards hdiscard)
    rw [exec_frame rfl, hfree.deliver_silent htake, State.finishStep_of_settled hfree.1]
  case taken =>
    have htake : s.takeFrame (.label (byte d.val) serial) = (s.act (fun s => s.takeLabel d serial), []) :=
      congrArg (fun x => (x, ([] : List OutMsg))) (State.labelFrame_taken hname htimer)
    have hacts : s.ActsBy (.label (byte d.val) serial) (s.takeLabel d serial) := (exec_frame rfl).trans (congrArg _ (hfree.deliver_silent htake))
    refine ⟨_, hacts, State.takeLabel_timer htimer, State.takeLabel_none htimer, fun r hr hsame => ?mounted, fun r e v hr he hv hserial => ?mismatch⟩
    case mounted =>
      have hfound : (s.stopLabelTimer d).request? r.tag = some r := State.verifying_request (s := s) hr
      obtain ⟨howed, _⟩ := State.finish_finished (reply := .mounted d serial ((s.drive d).session.any (·.readOnly))) hfound
      rw [State.takeLabel_same htimer hr hsame]
      exact howed
    case mismatch =>
      have hother : r.volume.bind s.serialOf ≠ some serial := by
        rw [he, Option.bind_some, State.serialOf, hv]
        exact fun h => hserial (Option.some.inj h)
      obtain ⟨_, hms, hpr, hport⟩ := State.labelErrors_rest (s := s.stopLabelTimer d) (volume := r.volume)
      have hfound : ((s.stopLabelTimer d).labelErrors r.volume).request? r.tag = some r := by
        have hbefore := State.verifying_request hr
        unfold State.request? at hbefore ⊢
        rw [hms]
        exact hbefore
      have herrors : (((s.stopLabelTimer d).labelErrors r.volume).promptOrFail r.tag .labelMismatch r.volume (some d) .verify).vol? e =
          some { v with errors := min 15 (v.errors + 1), suspect := v.suspect || decide (s.volumeErrorLimit ≤ min 15 (v.errors + 1)) } := by
        unfold State.vol?
        rw [(State.promptOrFail_parts hfound).1, he]
        exact State.raiseErrors_vol? (s := s.stopLabelTimer d) hv
      rw [State.takeLabel_other htimer hr hother]
      refine ⟨⟨_, herrors, rfl, rfl⟩, fun _ hprompt howes => ⟨fun hfull => ?_, fun hroom => ?_⟩⟩
      · rw [State.promptOrFail_none (State.promptRequest_full hfound hprompt (by rw [hpr]; exact hfull))]
        exact (State.putAway_settles hfound).2.2
      · obtain ⟨u, hasked, q, p, hq, hstate, hresume, hmem, hnumber, hkind, htag, hvolume, hdrive⟩ :=
          State.promptRequest_room (kind := .labelMismatch) (volume := r.volume) (drive := some d) (resume := .verify) (by decide) hfound hprompt
            (by rw [hport]; exact howes) (by rw [hpr]; exact hroom)
        rw [State.promptOrFail_some hasked]
        exact ⟨q, p, hq, hstate, hresume, hmem, hnumber, hkind, htag, hvolume.trans he, hdrive⟩

end Sys2Proof.Machine
end

section
/-! PROOFS. WRITE ENTRY at its owners: what a refused and a taken write leave, and the accounts (O21). -/

namespace Sys2Proof.Machine

variable {s w : State} {t : Fin 13} {entry : List Byte} {i : Nat} {r : Reason}

/-! ### A write that reaches its owner (R202) -/

/-- The current table may be written, and its cursor is at an index of it. -/
structure State.Writes (s : State) (t : Fin 13) : Prop where
  current : s.port.current = some t
  writable : t ∈ ([0, 2, 3, 8, 9, 12] : List (Fin 13))
  inside : s.port.cursors[t].index < tableSizes.getD t.val 0

theorem State.writeEntry_owner (h : s.Writes t) : s.writeEntry entry = match s.ownerWrite (tableAt t) s.port.cursors[t].index entry with
    | .error r => (s, .refused r)
    | .ok w => ((moved s t).passOn (w.setCursor t (movedCursor t s.port.cursors[t])) (tableAt t).tells, .done []) := by
  have hcursor : s.cursor t = s.port.cursors[t] := rfl
  have hinside : ¬(tableAt t).largest ≤ s.port.cursors[t].index := by
    rw [tableAt_largest]
    exact Nat.not_le.mpr h.inside
  have hmoved : (⟨nextIndex s.port.cursors[t].index (tableAt t).largest s.port.cursors[t].wrap, s.port.cursors[t].wrap⟩ : Cursor) =
      movedCursor t s.port.cursors[t] := by
    rw [tableAt_largest]
    rfl
  unfold State.writeEntry
  rw [h.current]
  dsimp only
  rw [hcursor, writable_of_mem h.writable, if_neg (by simp), if_neg hinside, hmoved]
  cases s.ownerWrite (tableAt t) s.port.cursors[t].index entry <;> rfl

/-- What the owner refuses changes nothing. -/
theorem State.Free.write_refused (hfree : s.Free) (h : s.Writes t) (hr : s.ownerWrite (tableAt t) s.port.cursors[t].index entry = .error r) :
    exec (.writeEntry entry) s = .next (s.sends [refusedOf 3 r.code]) := by
  refine hfree.writeEntry_refused ?_
  rw [State.writeEntry_owner h, hr]

/-- What the owner takes, where no other block is told of it and nothing else comes to be due. -/
theorem State.Free.write_taken (hfree : s.Free) (h : s.Writes t) (htells : (tableAt t).tells = false)
    (hw : s.ownerWrite (tableAt t) s.port.cursors[t].index entry = .ok w)
    (hflags : (w.setCursor t (movedCursor t s.port.cursors[t])).FlagsSettled)
    (hnotice : (w.setCursor t (movedCursor t s.port.cursors[t])).NoticeSettled)
    (hpanel : (w.setCursor t (movedCursor t s.port.cursors[t])).PanelSettled) :
    exec (.writeEntry entry) s = .next ((w.setCursor t (movedCursor t s.port.cursors[t])).sends [doneOf 3 []]) := by
  have htake : s.takeFrame (.writeEntry entry) = respond 3 (w.setCursor t (movedCursor t s.port.cursors[t]), .done []) := by
    refine congrArg (respond 3) ?_
    rw [State.writeEntry_owner h, hw]
    dsimp only
    rw [htells]
    rfl
  rw [exec_frame rfl, hfree.respond_done htake hflags hnotice hpanel]
  rfl

/-- What the owner takes, and the other blocks are told of. -/
theorem State.Free.write_told (hfree : s.Free) (h : s.Writes t) (htells : (tableAt t).tells = true)
    (hw : s.ownerWrite (tableAt t) s.port.cursors[t].index entry = .ok w) :
    taken (.writeEntry entry) 3 s (moved s t) (w.setCursor t (movedCursor t s.port.cursors[t])) := by
  have htake : s.takeFrame (.writeEntry entry) =
      ((moved s t).afterAct (w.setCursor t (movedCursor t s.port.cursors[t])), [doneOf 3 []]) := by
    have hwritten : s.writeEntry entry = ((moved s t).afterAct (w.setCursor t (movedCursor t s.port.cursors[t])), .done []) := by
      rw [State.writeEntry_owner h, hw]
      dsimp only
      rw [htells]
      rfl
    exact congrArg (respond 3) hwritten
  unfold taken
  rw [exec_frame rfl, hfree.deliver (congrArg Prod.snd htake), htake]

theorem yesNo_zero : yesNo 0 = some false := rfl

theorem yesNo_one : yesNo 1 = some true := rfl

/-- A yes or no byte in its range. -/
theorem yesNo_le {b : Byte} (h : b.toNat ≤ 1) : yesNo b = some (b == 1) := by
  have hb : b = 0 ∨ b = 1 := by
    rcases Nat.le_one_iff_eq_zero_or_eq_one.mp h with h | h
    · exact Or.inl (BitVec.eq_of_toNat_eq h)
    · exact Or.inr (BitVec.eq_of_toNat_eq h)
  rcases hb with rfl | rfl <;> rfl

/-! ### ACCOUNTS (R175 to R177) -/

section
variable {a used state limit : Byte} {code rest : List Byte}

/-- The fields of an account write that are in range. -/
def goodAccount (i : Nat) (state limit : Byte) (code : Text) : Prop :=
  isPaddedName code = true ∧ limit.toNat ≤ 16 ∧ state.toNat ≤ 1 ∧ (i = 0 → code = defaultCode)

theorem writtenAccount_good (hcode : code.length = 8) (h : goodAccount i state limit code) :
    writtenAccount i (code ++ state :: limit :: rest) = some ⟨code, state == 1, limit.toNat⟩ := by
  obtain ⟨hname, hlimit, hstate, hzero⟩ := h
  unfold writtenAccount
  rw [List.take_left' hcode, List.drop_left' hcode]
  dsimp only
  rw [yesNo_le hstate]
  exact if_pos ⟨hname, hlimit, hzero⟩

theorem writtenAccount_bad (hcode : code.length = 8) (h : ¬goodAccount i state limit code) :
    writtenAccount i (code ++ state :: limit :: rest) = none := by
  unfold writtenAccount
  rw [List.take_left' hcode, List.drop_left' hcode]
  dsimp only
  by_cases hstate : state.toNat ≤ 1
  · rw [yesNo_le hstate]
    exact if_neg fun ⟨hname, hlimit, hzero⟩ => h ⟨hname, hlimit, hstate, hzero⟩
  · rw [yesNo_none (Nat.lt_of_not_le hstate)]

theorem State.accountHeld_iff {x : Account} (hx : s.account? i = some x) :
    s.accountHeld i = true ↔ 0 < x.inUse ∨ ∃ r ∈ s.ms.queue, r.account = i := by
  simp [State.accountHeld, State.charged, hx]

/-- What a taken write makes of an account (R176, R177). -/
theorem State.takeAccountWrite_eq {closed : Bool} {limit : Nat} : s.takeAccountWrite i ⟨code, closed, limit⟩ =
    s.setAccount i (accountAfter (s.account? i) code closed limit) := by
  unfold State.takeAccountWrite
  cases hx : s.account? i with
  | none => rfl
  | some x =>
    dsimp only
    by_cases hsame : x.code = code
    · rw [if_neg (by simp [hsame]), accountAfter, if_pos hsame, ← hsame]
    · rw [if_pos (by simp [hsame]), accountAfter, if_neg hsame]
      rfl

variable (hcode : code.length = 8) (hrest : 21 ≤ rest.length)
include hcode hrest

theorem State.writeAccount_eq : s.writeAccount i (a :: used :: code ++ state :: limit :: rest) =
    (match yesNo used with
      | none => .error .badField
      | some false =>
        if i = 0 then .error .badField
        else if (s.account? i).isSome ∧ s.accountHeld i = true then .error .inUse
        else .ok { s with acc := { s.acc with accounts := eraseAt i s.acc.accounts } }
      | some true =>
        match writtenAccount i (code ++ state :: limit :: rest) with
        | none => .error .badField
        | some w =>
          if (s.account? i).any (fun a => a.code != w.code) && s.accountHeld i then .error .inUse
          else if s.acc.accounts.any (fun x => x.1 != i && x.2.code == w.code) then .error .duplicateCode
          else .ok (s.takeAccountWrite i w) : Except Reason State) := by
  unfold State.writeAccount
  have hlong : ¬(code ++ state :: limit :: rest).length < 31 := by
    simp only [List.length_append, List.length_cons, hcode]
    omega
  rw [List.cons_append, List.cons_append]
  dsimp only
  refine (if_neg hlong).trans ?_
  cases yesNo used with
  | none => rfl
  | some used => cases used <;> rfl

theorem State.writeAccount_unknown (h : 1 < used.toNat) :
    s.writeAccount i (a :: used :: code ++ state :: limit :: rest) = .error .badField := by
  rw [State.writeAccount_eq hcode hrest, yesNo_none h]

theorem State.writeAccount_free : s.writeAccount i (a :: 0 :: code ++ state :: limit :: rest) = if i = 0 then .error .badField
    else if (s.account? i).isSome ∧ s.accountHeld i = true then .error .inUse
    else .ok { s with acc := { s.acc with accounts := eraseAt i s.acc.accounts } } := State.writeAccount_eq hcode hrest

theorem State.writeAccount_unfit (h : ¬goodAccount i state limit code) :
    s.writeAccount i (a :: 1 :: code ++ state :: limit :: rest) = .error .badField := by
  rw [State.writeAccount_eq hcode hrest, yesNo_one]
  dsimp only
  rw [writtenAccount_bad hcode h]

theorem State.writeAccount_fit (h : goodAccount i state limit code) :
    s.writeAccount i (a :: 1 :: code ++ state :: limit :: rest) =
      if (s.account? i).any (fun a => a.code != code) && s.accountHeld i then .error .inUse
      else if s.acc.accounts.any (fun x => x.1 != i && x.2.code == code) then .error .duplicateCode
      else .ok (s.setAccount i (accountAfter (s.account? i) code (state == 1) limit.toNat)) := by
  rw [State.writeAccount_eq hcode hrest, yesNo_one]
  dsimp only
  rw [writtenAccount_good hcode h]
  dsimp only
  rw [State.takeAccountWrite_eq]

end

theorem goodAccount_iff {state limit : Byte} {code : List Byte} : goodAccount i state limit code ↔
    ¬(¬(isPaddedName code = true) ∨ 16 < limit.toNat ∨ 1 < state.toNat ∨ (i = 0 ∧ code ≠ defaultCode)) := by
  unfold goodAccount
  rw [not_or, not_or, not_or, not_not, not_and, not_not, Nat.not_lt, Nat.not_lt]

/-- A byte that is no yes or no, no, or yes. -/
theorem byte_yesNo (b : Byte) : 1 < b.toNat ∨ b = 0 ∨ b = 1 := by
  rcases Nat.lt_or_ge 1 b.toNat with h | h
  · exact Or.inl h
  · rcases Nat.le_one_iff_eq_zero_or_eq_one.mp h with h | h
    · exact Or.inr (Or.inl (BitVec.eq_of_toNat_eq h))
    · exact Or.inr (Or.inr (BitVec.eq_of_toNat_eq h))

/-- Settles O21: the owner's checks in their order, and the account a taken write leaves. -/
theorem accountWrites : Obligations.AccountWrites := by
  intro s a used state limit code rest hfree hcurrent hinside hcode hrest
  have hwrites : s.Writes 9 := ⟨hcurrent, by decide, hinside⟩
  intro i entry bad held double
  have hrefused {r : Reason} (h : s.writeAccount i entry = .error r) : exec (.writeEntry entry) s = .next (s.sends [refusedOf 3 r.code]) :=
    hfree.write_refused hwrites h
  have htaken {accounts : List (Nat × Account)} (h : s.writeAccount i entry = .ok { s with acc := { s.acc with accounts := accounts } }) :
      exec (.writeEntry entry) s = .next (({ moved s 9 with acc := { s.acc with accounts := accounts } }).sends [doneOf 3 []]) :=
    hfree.write_taken (w := { s with acc := { s.acc with accounts := accounts } }) hwrites rfl h hfree.1.1 hfree.1.2.1 hfree.1.2.2.2
  rcases byte_yesNo used with hused | rfl | rfl
  · have hbad : bad := Or.inl hused
    exact ⟨fun _ => hrefused (State.writeAccount_unknown hcode hrest hused), fun h => absurd hbad h, fun h => absurd hbad h,
      fun h => absurd hbad h, fun h => absurd hbad h⟩
  · have hwrite : s.writeAccount i entry = _ := State.writeAccount_free hcode hrest
    have hbad : bad ↔ i = 0 := by
      constructor
      · rintro (h | h | h)
        · exact absurd h (by decide)
        · exact h.2
        · exact absurd h.1 (by decide)
      · exact fun h => Or.inr (Or.inl ⟨rfl, h⟩)
    have hheld : held ↔ (s.account? i).isSome ∧ s.accountHeld i = true := by
      constructor
      · rintro ⟨x, hx, _, hcharged⟩
        exact ⟨by rw [hx]; rfl, (State.accountHeld_iff hx).mpr hcharged⟩
      · rintro ⟨hsome, hcharged⟩
        obtain ⟨x, hx⟩ := Option.isSome_iff_exists.mp hsome
        exact ⟨x, hx, Or.inl rfl, (State.accountHeld_iff hx).mp hcharged⟩
    refine ⟨fun h => hrefused (r := .badField) ?_, fun hgood h => hrefused (r := .inUse) ?_, fun _ _ h => absurd h.1 (by decide),
      fun hgood hnot _ _ => htaken ?_, fun _ _ _ h => absurd h (by decide)⟩
    · rw [hwrite, if_pos (hbad.mp h)]
    · rw [hwrite, if_neg (mt hbad.mpr hgood), if_pos (hheld.mp h)]
    · rw [hwrite, if_neg (mt hbad.mpr hgood), if_neg (mt hheld.mpr hnot)]
  · have hbad : bad ↔ ¬goodAccount i state limit code := by
      rw [goodAccount_iff, not_not]
      constructor
      · rintro (h | h | h)
        · exact absurd h (by decide)
        · exact absurd h.1 (by decide)
        · exact h.2
      · exact fun h => Or.inr (Or.inr ⟨rfl, h⟩)
    have hheld : held ↔ ((s.account? i).any (fun a => a.code != code) && s.accountHeld i) = true := by
      rw [Bool.and_eq_true]
      constructor
      · rintro ⟨x, hx, hother, hcharged⟩
        exact ⟨by rw [hx]; simpa using hother.resolve_left (by decide), (State.accountHeld_iff hx).mpr hcharged⟩
      · rintro ⟨hother, hcharged⟩
        obtain ⟨x, hx, hcode⟩ := Option.any_eq_true _ _ |>.mp hother
        exact ⟨x, hx, Or.inr (by simpa using hcode), (State.accountHeld_iff hx).mp hcharged⟩
    have hdouble : double ↔ s.acc.accounts.any (fun x => x.1 != i && x.2.code == code) = true := by
      simp [double]
    have hwrite (hgood : ¬bad) : s.writeAccount i entry = _ :=
      State.writeAccount_fit hcode hrest (Classical.not_not.mp (mt hbad.mpr hgood))
    refine ⟨fun h => hrefused (r := .badField) (State.writeAccount_unfit hcode hrest (hbad.mp h)),
      fun hgood h => hrefused (r := .inUse) ?_, fun hgood hnot h => hrefused (r := .duplicateCode) ?_,
      fun _ _ _ h => absurd h (by decide), fun hgood hnot hsingle _ => htaken ?_⟩
    · rw [hwrite hgood, if_pos (hheld.mp h)]
    · rw [hwrite hgood, if_neg (mt hheld.mpr hnot), if_pos (hdouble.mp h)]
    · rw [hwrite hgood, if_neg (mt hheld.mpr hnot), if_neg (mt hdouble.mpr hsingle)]
      rfl

end Sys2Proof.Machine
end

section
/-! PROOFS. WRITE ENTRY on TEMPLATES and SETTINGS (O22). -/

namespace Sys2Proof.Machine

variable {s w : State} {entry : List Byte} {i n : Nat}

/-! ### What a settings write reads (R149, R203) -/

theorem settingRange_eq (hitem : i < 26 ∨ 34 ≤ i) (hi : i < 51) : settingRange i = itemRanges.getD i (0, 0) := by
  have hall : ∀ i < 51, i < 26 ∨ 34 ≤ i → settingRange i = itemRanges.getD i (0, 0) := by decide
  exact hall i hi hitem

theorem State.numberFits_iff (hitem : i < 26 ∨ 34 ≤ i) (hi : i < 51) : s.numberFits i n = true ↔
    (itemRanges.getD i (0, 0)).1 ≤ n ∧ n ≤ (itemRanges.getD i (0, 0)).2 ∧ (i = 22 → n = 0 ∨ n = 4 ∨ n = 8 ∨ n = 16) ∧
      (i = 14 ∨ i = 16 ∨ i = 18 → n ≤ s.setting (i + 1)) ∧ (i = 15 ∨ i = 17 ∨ i = 19 → s.setting (i - 1) ≤ n) := by
  rw [← settingRange_eq hitem hi]
  simp only [State.numberFits, Bool.and_eq_true, decide_eq_true_eq, Bool.or_eq_true, bne_iff_ne, beq_iff_eq, Bool.not_eq_true',
    Bool.or_eq_false_iff, beq_eq_false_iff_ne, and_assoc, or_assoc, imp_iff_not_or, not_or, ne_eq]

theorem isCadenceItem_false (hitem : i < 26 ∨ 34 ≤ i) : isCadenceItem i = false := by
  unfold isCadenceItem
  simp
  omega

theorem isCadenceItem_true (hitem : ¬(i < 26 ∨ 34 ≤ i)) : isCadenceItem i = true := by
  unfold isCadenceItem
  simp
  omega

theorem writtenCadence_eq {x y z : Byte} : (writtenCadence x y z).map SettingValue.cadence =
    if x = 0 then some (.cadence .off)
    else if x = 1 then some (.cadence .steady)
    else if x = 2 ∧ y ≠ 0 then some (.cadence (.oneShot y.toNat))
    else if x = 3 ∧ y ≠ 0 ∧ z ≠ 0 then some (.cadence (.blink y.toNat z.toNat))
    else none := by
  unfold writtenCadence
  by_cases hoff : x = 0
  · rw [if_pos hoff, if_pos hoff]; rfl
  rw [if_neg hoff, if_neg hoff]
  by_cases hsteady : x = 1
  · rw [if_pos hsteady, if_pos hsteady]; rfl
  rw [if_neg hsteady, if_neg hsteady]
  by_cases hshot : x = 2
  · have hblink : ¬(x = 3 ∧ y ≠ 0 ∧ z ≠ 0) := fun h => absurd (hshot.symm.trans h.1) (by decide)
    rw [if_pos hshot]
    by_cases hon : y = 0
    · rw [if_pos hon, if_neg (fun h => h.2 hon), if_neg hblink]; rfl
    · rw [if_neg hon, if_pos ⟨hshot, hon⟩]; rfl
  have hnoShot : ¬(x = 2 ∧ y ≠ 0) := fun h => hshot h.1
  rw [if_neg hshot, if_neg hnoShot]
  by_cases hblink : x = 3
  · rw [if_pos hblink]
    by_cases htimes : y = 0 ∨ z = 0
    · rw [if_pos htimes, if_neg (fun h => htimes.elim h.2.1 h.2.2)]; rfl
    · rw [if_neg htimes, if_pos ⟨hblink, not_or.mp htimes⟩]; rfl
  · have hnoBlink : ¬(x = 3 ∧ y ≠ 0 ∧ z ≠ 0) := fun h => hblink h.1
    rw [if_neg hblink, if_neg hnoBlink]; rfl

theorem readsSettings_holds : readsSettings := by
  refine ⟨fun s i n hitem hi => State.numberFits_iff hitem hi, fun s i a x y z rest _ => ?_⟩
  by_cases hitem : i < 26 ∨ 34 ≤ i
  · rw [if_pos hitem]
    unfold State.writtenSetting
    dsimp only
    rw [isCadenceItem_false hitem, if_neg Bool.false_ne_true]
    rfl
  · rw [if_neg hitem]
    unfold State.writtenSetting
    dsimp only
    rw [isCadenceItem_true hitem, if_pos rfl, writtenCadence_eq]

/-! ### A setting that is taken -/

/-- A number item governs no attention output. -/
theorem State.takeSetting_number {v : SettingValue} (hi : i < 26) :
    s.takeSetting i v = { s with port := { s.port with settings := s.port.settings.setIfInBounds i v } } := by
  have hplain {u : State} {o : Output} : u.cadenceWritten i o = u := by
    unfold State.cadenceWritten
    refine if_neg fun hgoverns => ?_
    obtain ⟨level, _, hindex⟩ := Option.any_eq_true _ _ |>.mp hgoverns
    have hindex := beq_iff_eq.mp hindex
    cases o <;> simp only [cadenceIndex] at hindex <;> omega
  unfold State.takeSetting
  rw [hplain, hplain]

theorem State.cadenceWritten_port {o : Output} : (s.cadenceWritten i o).port = s.port := by
  unfold State.cadenceWritten State.restartIdleUnit
  split
  · dsimp only
    split
    · cases o <;> rfl
    · rfl
  · rfl

theorem State.takeSetting_port {v : SettingValue} :
    (s.takeSetting i v).port = { s.port with settings := s.port.settings.setIfInBounds i v } := by
  unfold State.takeSetting
  rw [State.cadenceWritten_port, State.cadenceWritten_port]

/-- The threshold of the records is no item below 34. -/
theorem State.setting_number {v : SettingValue} {j : Nat} (hne : i ≠ j) :
    ({ s with port := { s.port with settings := s.port.settings.setIfInBounds i v } } : State).setting j = s.setting j := by
  unfold State.setting
  dsimp only
  rw [Vector.getElem?_setIfInBounds_ne hne]

/-- The condition-bound flags look at no item but the threshold of the records. -/
theorem State.setting_flags {v : SettingValue} {t : Fin 13} {c : Cursor} (hne : i ≠ 34) (h : s.FlagsSettled) :
    (({ s with port := { s.port with settings := s.port.settings.setIfInBounds i v } } : State).setCursor t c).FlagsSettled := by
  let u := (({ s with port := { s.port with settings := s.port.settings.setIfInBounds i v } } : State).setCursor t c)
  have hhigh : u.recordsHigh = s.recordsHigh := by
    unfold State.recordsHigh State.recordsHighThreshold
    exact congrArg (fun n : Nat => decide (n ≤ s.recordSum)) (State.setting_number hne)
  have hconditions : u.conditionFlags = s.conditionFlags := by
    unfold State.conditionFlags
    rw [hhigh]
    rfl
  show s.port.flags = ((s.port.flags &&& plainPositions) ||| u.conditionFlags)
  rw [hconditions]
  exact h

/-! ### TEMPLATES (R132) -/

/-- A text a template may have. -/
def goodTemplate (n : Byte) (text : Text) : Prop := n.toNat ≤ 64 ∧ ∀ c ∈ text, 32 ≤ c.toNat ∧ c.toNat ≤ 126

theorem printable_all {text : Text} : text.all printable = true ↔ ∀ c ∈ text, 32 ≤ c.toNat ∧ c.toNat ≤ 126 := by
  simp [printable]

section
variable {a length : Byte} {text rest : List Byte} (hlength : text.length = length.toNat)
include hlength

theorem State.writeTemplate_good (h : goodTemplate length text) : s.writeTemplate i (a :: length :: text ++ rest) =
    .ok { s with pr := { s.pr with templates := s.pr.templates.setIfInBounds i text } } := by
  rw [List.cons_append, List.cons_append]
  unfold State.writeTemplate
  dsimp only
  rw [List.take_left' hlength, if_neg]
  rintro (hlong | hshort | hcharacter)
  · exact absurd h.1 (Nat.not_le.mpr hlong)
  · rw [List.length_append, hlength] at hshort
    omega
  · rw [printable_all.mpr h.2] at hcharacter
    cases hcharacter

theorem State.writeTemplate_bad (h : ¬goodTemplate length text) :
    s.writeTemplate i (a :: length :: text ++ rest) = .error .badField := by
  rw [List.cons_append, List.cons_append]
  unfold State.writeTemplate
  dsimp only
  rw [List.take_left' hlength, if_pos]
  by_cases hlong : 64 < length.toNat
  · exact Or.inl hlong
  · refine Or.inr (Or.inr (Bool.eq_false_iff.mpr fun hall => h ⟨Nat.not_lt.mp hlong, printable_all.mp hall⟩))

end

/-! ### The commands -/

theorem State.sends_settings {m : OutMsg} : (s.refreshConditions.sends [m]).panelPump.port.settings = s.port.settings := by
  rw [State.panelPump_port]
  rfl

/-- A settings write that is taken: the item has the value, and the command is answered DONE. -/
theorem State.Free.setting_taken {v : SettingValue} (hfree : s.Free) (h : s.Writes 12)
    (hv : s.writtenSetting s.port.cursors[(12 : Fin 13)].index entry = some v) : ∃ t, exec (.writeEntry entry) s = .next t ∧
      t.port.settings = s.port.settings.setIfInBounds s.port.cursors[(12 : Fin 13)].index v ∧ t.port.sending = some ⟨doneOf 3 [], t.summary⟩ := by
  let u := (s.takeSetting s.port.cursors[(12 : Fin 13)].index v).setCursor 12 (movedCursor 12 s.port.cursors[(12 : Fin 13)])
  have howner : s.ownerWrite (tableAt (12 : Fin 13)) s.port.cursors[(12 : Fin 13)].index entry =
      .ok (s.takeSetting s.port.cursors[(12 : Fin 13)].index v) := by
    change s.writeSetting _ entry = _
    unfold State.writeSetting
    rw [hv]
  have htake : s.takeFrame (.writeEntry entry) = (u, [doneOf 3 []]) := by
    have hwritten : s.writeEntry entry = (u, .done []) := by
      rw [State.writeEntry_owner h, howner]
      rfl
    exact congrArg (respond 3) hwritten
  have hexec : exec (.writeEntry entry) s = .next (u.refreshConditions.sends [doneOf 3 []]).panelPump := by
    rw [exec_frame rfl, hfree.deliver (congrArg Prod.snd htake), htake]
  have hsettings : u.port.settings = (s.takeSetting s.port.cursors[(12 : Fin 13)].index v).port.settings := rfl
  refine ⟨_, hexec, ?_, State.sends_sending⟩
  rw [State.sends_settings, hsettings, State.takeSetting_port]

/-- Settles O22. -/
theorem templateAndSettingWrites : Obligations.TemplateAndSettingWrites := by
  refine ⟨readsSettings_holds, fun s a n text rest hfree hcurrent hinside hlength => ?templates, fun s a hi lo rest hfree hcurrent => ?numbers,
    fun s entry hfree hcurrent => ?settings⟩
  case templates =>
    have hwrites : s.Writes 8 := ⟨hcurrent, by decide, hinside⟩
    by_cases hgood : n.toNat ≤ 64 ∧ ∀ c ∈ text, 32 ≤ c.toNat ∧ c.toNat ≤ 126
    · rw [if_pos hgood]
      exact hfree.write_taken (w := { s with pr := { s.pr with
        templates := s.pr.templates.setIfInBounds s.port.cursors[(8 : Fin 13)].index text } }) hwrites rfl
        (State.writeTemplate_good (a := a) hlength hgood) hfree.1.1 hfree.1.2.1 hfree.1.2.2.2
    · rw [if_neg hgood]
      exact hfree.write_refused (t := 8) (r := .badField) hwrites (State.writeTemplate_bad (s := s) (a := a) (rest := rest) hlength hgood)
  case numbers =>
    intro i hitem
    have hwrites : s.Writes 12 := ⟨hcurrent, by decide, Nat.lt_trans hitem (by decide)⟩
    have hwritten : s.writtenSetting i (a :: hi :: lo :: 0 :: rest) =
        if s.numberFits i (hi ++ lo : Half).toNat = true then some (.number (hi ++ lo : Half).toNat) else none := by
      rw [readsSettings_holds.2 s i a hi lo 0 rest (Nat.lt_trans hitem (by decide)), if_pos (Or.inl hitem)]
      simp only [true_and]
    have hwrite : s.writeSetting i (a :: hi :: lo :: 0 :: rest) =
        if s.numberFits i (hi ++ lo : Half).toNat = true then .ok (s.takeSetting i (.number (hi ++ lo : Half).toNat)) else .error .badField := by
      unfold State.writeSetting
      rw [hwritten]
      by_cases hfits : s.numberFits i (hi ++ lo : Half).toNat = true
      · rw [if_pos hfits, if_pos hfits]
      · rw [if_neg hfits, if_neg hfits]
    by_cases hfits : s.numberFits i (hi ++ lo : Half).toNat = true
    · rw [if_pos hfits] at hwrite ⊢
      rw [State.takeSetting_number hitem] at hwrite
      exact hfree.write_taken (w := { s with port := { s.port with
        settings := s.port.settings.setIfInBounds i (.number (hi ++ lo : Half).toNat) } }) hwrites rfl hwrite
        (State.setting_flags (by omega) hfree.1.1) hfree.1.2.1 hfree.1.2.2.2
    · rw [if_neg hfits] at hwrite ⊢
      exact hfree.write_refused hwrites hwrite
  case settings =>
    intro i hitem
    have hwrites : s.Writes 12 := ⟨hcurrent, by decide, hitem⟩
    refine ⟨fun hnone => hfree.write_refused (r := .badField) hwrites ?_, fun v hv => hfree.setting_taken hwrites hv⟩
    change s.writeSetting i entry = _
    unfold State.writeSetting
    rw [hnone]

end Sys2Proof.Machine
end

section
/-! PROOFS. CLEAR TABLE (O24), and the freeing of directory entries. -/

namespace Sys2Proof.Machine

variable {s u w : State} {t : Fin 13} {e i n : Nat} {d : Fin 16} {v : Volume}

/-! ### A clearing that reaches its owner (R202) -/

/-- The cursor of a table that has been cleared. -/
def State.rewound (s : State) (t : Fin 13) : Cursor := ⟨0, s.port.cursors[t].wrap⟩

theorem State.clearTable_owner (hcurrent : s.port.current = some t) (hwritable : (tableAt t).writable = true) :
    s.clearTable = match s.ownerClear (tableAt t) with
      | .error r => (s, .refused r)
      | .ok w => ((s.setCursor t (s.rewound t)).passOn (w.setCursor t (s.rewound t)) (tableAt t).tells, .done []) := by
  unfold State.clearTable
  rw [hcurrent]
  dsimp only
  rw [hwritable]
  refine (if_neg (by simp)).trans ?_
  cases s.ownerClear (tableAt t) <;> rfl

theorem State.Free.clear_answered (hfree : s.Free) {r : Reason} (h : s.clearTable = (s, .refused r)) :
    exec .clearTable s = .next (s.sends [refusedOf 4 r.code]) := by
  rw [exec_frame rfl, hfree.respond_refused (f := .clearTable) (congrArg (respond 4) h)]

/-- What the owner refuses changes nothing. -/
theorem State.Free.clear_refused (hfree : s.Free) {r : Reason} (hcurrent : s.port.current = some t) (hwritable : (tableAt t).writable = true)
    (hr : s.ownerClear (tableAt t) = .error r) : exec .clearTable s = .next (s.sends [refusedOf 4 r.code]) := by
  refine hfree.clear_answered ?_
  rw [State.clearTable_owner hcurrent hwritable, hr]

/-- A cleared table whose clearing the other blocks are told of. -/
theorem State.Free.clear_told (hfree : s.Free) (hcurrent : s.port.current = some t) (hwritable : (tableAt t).writable = true)
    (htells : (tableAt t).tells = true) (hw : s.ownerClear (tableAt t) = .ok w) :
    taken .clearTable 4 s (s.setCursor t (s.rewound t)) (w.setCursor t (s.rewound t)) := by
  have hcleared : s.clearTable = ((s.setCursor t (s.rewound t)).afterAct (w.setCursor t (s.rewound t)), .done []) := by
    rw [State.clearTable_owner hcurrent hwritable, hw]
    dsimp only
    rw [htells]
    rfl
  have htake : s.takeFrame .clearTable = ((s.setCursor t (s.rewound t)).afterAct (w.setCursor t (s.rewound t)), [doneOf 4 []]) :=
    congrArg (respond 4) hcleared
  unfold taken
  rw [exec_frame rfl, hfree.deliver (congrArg Prod.snd htake), htake]

/-- A cleared table of its owner alone. -/
theorem State.Free.clear_plain (hfree : s.Free) (hcurrent : s.port.current = some t) (hwritable : (tableAt t).writable = true)
    (htells : (tableAt t).tells = false) (hw : s.ownerClear (tableAt t) = .ok w) :
    exec .clearTable s = .next (((w.setCursor t (s.rewound t)).refreshConditions.sends [doneOf 4 []]).panelPump) := by
  have hcleared : s.clearTable = (w.setCursor t (s.rewound t), .done []) := by
    rw [State.clearTable_owner hcurrent hwritable, hw]
    dsimp only
    rw [htells]
    rfl
  have htake : s.takeFrame .clearTable = (w.setCursor t (s.rewound t), [doneOf 4 []]) := congrArg (respond 4) hcleared
  rw [exec_frame rfl, hfree.deliver (congrArg Prod.snd htake), htake]

/-- What is settled is answered as it stands. -/
theorem State.sends_settled {m : OutMsg} (hflags : u.FlagsSettled) (hnotice : u.NoticeSettled) (hpanel : u.PanelSettled) :
    (u.refreshConditions.sends [m]).panelPump = u.sends [m] := by
  rw [State.refreshConditions_eq hflags hnotice]
  exact State.panelPump_eq hpanel

/-! ### What a told write keeps to its end -/

theorem State.afterAct_kept : ((s.afterAct u).dir.fences = u.dir.fences) ∧
    (Canonical u.dir.entries → (s.afterAct u).volumeIdentities = u.volumeIdentities) ∧
    ∀ d, ((s.afterAct u).drive d).wiring = (u.drive d).wiring := by
  have hkept : Keeps noLaw u (State.drain Config.fuel ((State.follow s u).notify .retry)) := (Keeps.refl u).follow.notify.drain
  exact ⟨hkept.fences, fun h => (hkept.volumes h).2, hkept.drives⟩

theorem State.panelPump_dir : s.panelPump.dir = s.dir := by
  conv_rhs => rw [← State.panelPump_rest (s := s)]

theorem State.panelPump_drv : s.panelPump.drv = s.drv := by
  conv_rhs => rw [← State.panelPump_rest (s := s)]

theorem State.panelPump_att : s.panelPump.att = s.att := by
  conv_rhs => rw [← State.panelPump_rest (s := s)]

/-- The state at the end of a told write or clearing. -/
theorem taken_end {c : Instr} {code : Byte} {moved : State} (h : taken c code s moved u) : ∃ x, exec c s = .next x ∧
    x.port.sending = some ⟨doneOf code [], x.summary⟩ ∧ x.dir.fences = u.dir.fences ∧
    (Canonical u.dir.entries → x.volumeIdentities = u.volumeIdentities) ∧ ∀ d, (x.drive d).wiring = (u.drive d).wiring := by
  obtain ⟨hfences, hidentities, hwiring⟩ := State.afterAct_kept (s := moved) (u := u)
  refine ⟨_, h, State.sends_sending, ?_, fun hcanonical => ?_, fun d => ?_⟩
  · rw [State.panelPump_dir]
    exact hfences
  · unfold State.volumeIdentities
    rw [State.panelPump_dir]
    exact hidentities hcanonical
  · unfold State.drive
    rw [State.panelPump_drv]
    exact hwiring d

/-! ### The freeing of an entry (R22) -/

theorem State.freeEntry_eq (hv : s.vol? e = some v) : ∃ x : State, s.freeEntry e = { x with dir := { x.dir with entries := eraseAt e x.dir.entries } } ∧
    x.dir.entries = s.dir.entries ∧ (x.drv = s.drv ∧ x.ms = s.ms ∧ x.sch = s.sch) ∧
    (∀ n, x.finding? n = if v.loc = .home ∧ v.home = some n then some (.serial v.serial) else s.finding? n) ∧
    ∀ p, x.station p = if (s.station p).volume = some e then { s.station p with volume := none } else s.station p := by
  let placed := s.mapStations (fun x => if x.volume = some e then { x with volume := none } else x)
  have hstation (p : Fin 8) : placed.station p = if (s.station p).volume = some e then { s.station p with volume := none } else s.station p :=
    mapVec_getElem p.isLt
  unfold State.freeEntry
  rw [hv]
  dsimp only
  by_cases hhome : v.loc = .home ∧ ∃ h, v.home = some h
  · obtain ⟨hloc, h, hh⟩ := hhome
    refine ⟨placed.setFinding h (.serial v.serial), ?_, rfl, ⟨rfl, rfl, rfl⟩, fun n => ?_, hstation⟩
    · rw [hloc, hh]
    · by_cases hn : n = h
      · subst hn
        rw [if_pos ⟨hloc, hh⟩, State.setFinding_finding?_self]
      · rw [State.setFinding_finding?_ne hn, if_neg (fun k => hn (Option.some.inj (k.2.symm.trans hh)))]
        rfl
  · refine ⟨placed, ?_, rfl, ⟨rfl, rfl, rfl⟩, fun n => ?_, hstation⟩
    · split
      · rename_i h hloc hh
        exact absurd ⟨hloc, h, hh⟩ hhome
      · rfl
    · rw [if_neg (fun k => hhome ⟨k.1, n, k.2⟩)]
      rfl

/-- What the freeing of every entry leaves: no entry, a finding for each reel at home, and positions that record no volume (R22). -/
structure Emptied (s u : State) (l : List (Nat × Volume)) : Prop where
  entries : u.dir.entries = []
  found : ∀ x ∈ l, x.2.loc = .home → ∀ n, x.2.home = some n → u.finding? n = some (.serial x.2.serial)
  others : ∀ n, (∀ x ∈ l, ¬(x.2.loc = .home ∧ x.2.home = some n)) → u.finding? n = s.finding? n
  station : ∀ p, u.station p = if ((s.station p).volume.bind s.vol?).isSome then { s.station p with volume := none } else s.station p

theorem emptied_all {l : List (Nat × Volume)} (hentries : s.dir.entries = l) (hhomes : (l.filterMap (fun x => x.2.home)).Nodup) :
    Emptied s (l.foldl (fun s x => s.freeEntry x.1) s) l := by
  induction l generalizing s with
  | nil =>
    refine ⟨hentries, by simp, fun _ _ => rfl, fun p => ?_⟩
    have hnone : ¬((s.station p).volume.bind s.vol?).isSome = true := by
      unfold State.vol?
      rw [hentries]
      cases (s.station p).volume <;> simp [lookup]
    rw [if_neg hnone]
    rfl
  | cons y rest ih =>
    obtain ⟨k, v⟩ := y
    have hv : s.vol? k = some v := by
      unfold State.vol?
      rw [hentries]
      exact if_pos rfl
    obtain ⟨x, hfreed, hsame, _, hfinding, hstation⟩ := State.freeEntry_eq hv
    have hrest : (s.freeEntry k).dir.entries = rest := by
      rw [hfreed, hsame, hentries]
      exact if_pos rfl
    have hvol (i : Nat) (hi : i ≠ k) : (s.freeEntry k).vol? i = s.vol? i := by
      unfold State.vol?
      rw [hrest, hentries]
      exact (if_neg (Ne.symm hi)).symm
    have hfind (n : Nat) : (s.freeEntry k).finding? n = if v.loc = .home ∧ v.home = some n then some (.serial v.serial) else s.finding? n := by
      rw [hfreed]
      exact hfinding n
    have hplace (p : Fin 8) : (s.freeEntry k).station p =
        if (s.station p).volume = some k then { s.station p with volume := none } else s.station p := by
      rw [hfreed]
      exact hstation p
    have htail : (rest.filterMap (fun x => x.2.home)).Nodup := by
      cases hhome : v.home with
      | none => simpa [List.filterMap_cons, hhome] using hhomes
      | some h => exact (List.nodup_cons.mp (by simpa [List.filterMap_cons, hhome] using hhomes)).2
    have hrestHomes (n : Nat) (hhome : v.home = some n) : ∀ x ∈ rest, x.2.home ≠ some n := by
      intro x hx hsameHome
      have hcons : (n :: rest.filterMap (fun x => x.2.home)).Nodup := by simpa [List.filterMap_cons, hhome] using hhomes
      exact (List.nodup_cons.mp hcons).1 (List.mem_filterMap.mpr ⟨x, hx, hsameHome⟩)
    obtain ⟨ihentries, ihfound, ihothers, ihstation⟩ := ih hrest htail
    refine ⟨ihentries, fun y hy hloc n hhome => ?_, fun n hnone => ?_, fun p => ?_⟩
    · rcases List.mem_cons.mp hy with rfl | hy
      · rw [List.foldl_cons, ihothers n (fun x hx hx' => hrestHomes n hhome x hx hx'.2), hfind, if_pos ⟨hloc, hhome⟩]
      · exact ihfound y hy hloc n hhome
    · rw [List.foldl_cons, ihothers n (fun x hx => hnone x (List.mem_cons_of_mem _ hx)), hfind,
        if_neg (hnone (k, v) List.mem_cons_self)]
    · rw [List.foldl_cons, ihstation, hplace]
      by_cases hp : (s.station p).volume = some k
      · rw [if_pos hp, hp, Option.bind_some, hv]
        rfl
      · rw [if_neg hp]
        cases hvolume : (s.station p).volume with
        | none => rfl
        | some i =>
          have hi : i ≠ k := by rintro rfl; exact hp hvolume
          rw [Option.bind_some, Option.bind_some, hvol i hi]

/-- With no entry a slot is as its finding says. -/
theorem State.slotState_noEntries (h : s.dir.entries = []) : s.slotState n = match s.finding? n with
    | some f => .foreign f
    | none => .free := by
  unfold State.slotState State.homeOwner
  rw [h]
  cases s.finding? n <;> rfl

theorem directoryCleared_of (h : Emptied s u s.dir.entries) : directoryCleared s u := by
  refine ⟨h.entries, fun x hx hloc n hhome => ?_, fun n hnone => ?_, h.station⟩
  · rw [State.slotState_noEntries h.entries, h.found x hx hloc n hhome]
  · cases hf : s.finding? n with
    | none => simp only [State.slotState_noEntries h.entries, h.others n hnone, hf]
    | some f => simp only [State.slotState_noEntries h.entries, h.others n hnone, hf]

/-! ### The other tables -/

/-- No drive that stands at rest is refused (R46); the drives are as at power-on, over the raw levels. -/
theorem State.clearDrives_taken (h : ∀ d, (s.drive d).state = .empty ∨ (s.drive d).state = .offline) : ∃ w, s.clearDrives = .ok w ∧
    (∀ d, w.drive d = { State.reset.drive d with raw := (s.drive d).raw }) ∧ ((∀ d, (s.drive d).volume = none) → w.dir = s.dir) := by
  have hrest : ¬allDrives.any (fun d => !(s.drive d).atRest) = true := by
    rw [List.any_eq_true]
    rintro ⟨d, _, hbusy⟩
    rcases h d with hd | hd <;> simp [Drive.atRest, hd] at hbusy
  have hraw (l : List (Fin 16)) (u : State) (d : Fin 16) : ((l.foldl State.clearDriveVolume u).drive d).raw = (u.drive d).raw :=
    foldl_part (g := fun u => (u.drive d).raw) (fun u c => by
      obtain ⟨x, hx⟩ := State.clearDriveVolume_drive (s := u) (d := d) (c := c)
      rw [hx]) l u
  have hkept (l : List (Fin 16)) (hnone : ∀ d, (s.drive d).volume = none) : l.foldl State.clearDriveVolume s = s := by
    induction l with
    | nil => rfl
    | cons d rest ih =>
      have hsame : s.clearDriveVolume d = s := by
        unfold State.clearDriveVolume
        rw [hnone d]
      rw [List.foldl_cons, hsame, ih]
  refine ⟨_, if_neg hrest, fun d => ?_, fun hnone => ?_⟩
  · have hnew : ∀ x : State, ({ x with drv := ⟨mapVec (fun y => Drive.powerOn y.raw) x.drv.drives⟩ } : State).drive d =
        Drive.powerOn (x.drive d).raw := fun x => mapVec_getElem d.isLt
    have hreset : State.reset.drive d = Drive.powerOn ⟨false, false, false⟩ := by
      have hdrive : State.reset.drive d = Drive.powerOn (Vector.replicate 16 (⟨false, false, false⟩ : Levels))[d] := mapVec_getElem d.isLt
      rw [hdrive]
      exact congrArg _ (Vector.getElem_replicate _)
    rw [hnew, hraw, hreset]
    rfl
  · rw [hkept allDrives hnone]

/-- An attention unit with no phase to end starts at its level's cadence (R149). -/
def AttnUnit.restarted (x : AttnUnit) (item : Nat → Cadence) : AttnUnit :=
  match x.level, x.timer with
  | some l, none => startCadence (some l) (item l)
  | _, _ => x

theorem State.restartIdleUnit_unit {o : Output} :
    (s.restartIdleUnit o).attnUnit o = (s.attnUnit o).restarted (fun l => s.cadenceItem (cadenceIndex o l)) := by
  unfold State.restartIdleUnit AttnUnit.restarted
  dsimp only
  cases hlevel : (s.attnUnit o).level with
  | none => simp only
  | some l =>
    cases htimer : (s.attnUnit o).timer with
    | none => cases o <;> simp only [State.setAttnUnit, State.attnUnit, State.cadenceAt]
    | some x => simp only

theorem State.restartIdleUnit_other {o q : Output} (h : q ≠ o) : (s.restartIdleUnit o).attnUnit q = s.attnUnit q := by
  unfold State.restartIdleUnit
  dsimp only
  split
  · cases o with
    | lamp =>
      cases q with
      | lamp => exact absurd rfl h
      | horn => rfl
    | horn =>
      cases q with
      | lamp => rfl
      | horn => exact absurd rfl h
  · rfl

theorem State.restartIdleUnit_port {o : Output} : (s.restartIdleUnit o).port = s.port := by
  unfold State.restartIdleUnit
  dsimp only
  split
  · cases o <;> rfl
  · rfl

/-- The settings at their defaults, and the units by them (R203). -/
theorem State.clearSettings_spec : s.clearSettings.port = { s.port with settings := State.reset.port.settings } ∧
    ∀ o, s.clearSettings.attnUnit o = (s.attnUnit o).restarted (fun l => State.reset.cadenceItem (cadenceIndex o l)) := by
  let w : State := { s with port := { s.port with settings := defaultSettings } }
  have hitem {x : State} {i : Nat} (hport : x.port = w.port) : x.cadenceItem i = State.reset.cadenceItem i := by
    unfold State.cadenceItem
    rw [hport]
    rfl
  refine ⟨?_, fun o => ?_⟩
  · unfold State.clearSettings
    rw [State.restartIdleUnit_port, State.restartIdleUnit_port]
    rfl
  · change ((w.restartIdleUnit .lamp).restartIdleUnit .horn).attnUnit o = (w.attnUnit o).restarted _
    cases o with
    | lamp =>
      rw [State.restartIdleUnit_other (by decide), State.restartIdleUnit_unit]
      simp only [hitem (x := w) rfl]
    | horn =>
      rw [State.restartIdleUnit_unit, State.restartIdleUnit_other (by decide)]
      simp only [hitem (x := w.restartIdleUnit .lamp) State.restartIdleUnit_port]

/-- What an answered change of a cursor shows of the settings, the cursors and the attention units. -/
theorem State.sends_setCursor {m : OutMsg} {c : Cursor} :
    let x := ((u.setCursor t c).refreshConditions.sends [m]).panelPump
    x.port.settings = u.port.settings ∧ x.port.cursors = u.port.cursors.set t c ∧ ∀ o, x.attnUnit o = u.attnUnit o := by
  dsimp only
  rw [State.panelPump_port]
  refine ⟨rfl, rfl, fun o => ?_⟩
  cases o
  · exact congrArg AttnBlock.lamp State.panelPump_att
  · exact congrArg AttnBlock.horn State.panelPump_att

theorem readOnly_writable {t : Fin 13} (h : (tableAt t).writable = false) (hcurrent : s.port.current = some t) :
    s.clearTable = (s, .refused .readOnly) := by
  unfold State.clearTable
  rw [hcurrent]
  dsimp only
  rw [h]
  exact if_pos rfl

theorem accounts_held : (∃ x ∈ s.acc.accounts, (∃ y, s.account? x.1 = some y ∧ 0 < y.inUse) ∨ ∃ r ∈ s.ms.queue, r.account = x.1) ↔
    s.acc.accounts.any (fun x => s.accountHeld x.1) = true := by
  simp only [List.any_eq_true, State.accountHeld, State.charged, Bool.or_eq_true, Option.any_eq_true, decide_eq_true_eq, beq_iff_eq]

/-- Settles O24, table by table. -/
theorem clearTableCommand : Obligations.ClearTableCommand := by
  intro s hfree cleared
  have ⟨⟨hflags, hnotice, _, hpanel⟩, _⟩ := hfree
  refine ⟨fun hnone => ?notSelected, fun t ht hcurrent => ?readOnly, fun hcurrent => ?templates, fun hcurrent => ?accounts,
    fun hcurrent => ?fences, fun hcurrent hbusy => ?drivesHeld, fun hcurrent hrest => ?drives, fun hcurrent hheld => ?directoryHeld,
    fun hcurrent hlawful hnone => ?directory, fun hcurrent => ?settings⟩
  case notSelected =>
    refine hfree.clear_answered (r := .notSelected) ?_
    unfold State.clearTable
    rw [hnone]
  case readOnly => exact hfree.clear_answered (r := .readOnly) (readOnly_writable (readOnly_of_mem ht) hcurrent)
  case templates =>
    exact (hfree.clear_plain (w := s.clearTemplates) hcurrent rfl rfl rfl).trans
      (congrArg Host.Outcome.next (State.sends_settled (u := s.clearTemplates.setCursor 8 (s.rewound 8)) hflags hnotice hpanel))
  case accounts =>
    refine ⟨fun hheld => ?_, fun hnot => ?_⟩
    · exact hfree.clear_refused (r := .inUse) hcurrent rfl (if_pos (accounts_held.mp hheld))
    · let w : State := { s with acc := { s.acc with accounts := [(0, Account.default)] } }
      exact (hfree.clear_plain (w := w) hcurrent rfl rfl (if_neg (mt accounts_held.mpr hnot))).trans
        (congrArg Host.Outcome.next (State.sends_settled (u := w.setCursor 9 (s.rewound 9)) hflags hnotice hpanel))
  case fences =>
    obtain ⟨x, hexec, hsending, hfences, _⟩ := taken_end (hfree.clear_told (w := s.clearFences) hcurrent rfl rfl rfl)
    refine ⟨x, hexec, hsending, fun i => ?_⟩
    have hnone : (s.clearFences.setCursor 2 (s.rewound 2)).dir.fences = Vector.replicate 8 none := by
      change s.clearFences.dir.fences = _
      unfold State.clearFences
      rw [State.notify_dir]
    rw [hfences, hnone]
    exact Vector.getElem_replicate _
  case drivesHeld =>
    refine hfree.clear_refused (r := .inUse) hcurrent rfl (if_pos (List.any_eq_true.mpr ?_))
    obtain ⟨d, hempty, hoffline⟩ := hbusy
    exact ⟨d, List.mem_finRange d, by simp [Drive.atRest, hempty, hoffline]⟩
  case drives =>
    obtain ⟨w, hw, hdrives, hdir⟩ := State.clearDrives_taken hrest
    exact ⟨_, hfree.clear_told hcurrent rfl rfl hw, hdrives, hdir⟩
  case directoryHeld =>
    exact hfree.clear_refused (r := .inUse) hcurrent rfl (if_pos (List.any_eq_true.mpr hheld))
  case directory =>
    have hopen : ¬s.dir.entries.any (fun x => s.protected? x.1) = true := by
      rw [List.any_eq_true]
      rintro ⟨x, hx, hprotected⟩
      rw [hnone x hx] at hprotected
      cases hprotected
    have hhomes : (s.dir.entries.filterMap (fun x => x.2.home)).Nodup := by
      have hidentities := hlawful.1.2.2.2.1
      rw [State.volumeIdentities, List.filterMap_map] at hidentities
      exact hidentities
    have hemptied := emptied_all (s := s) rfl hhomes
    exact ⟨_, hfree.clear_told hcurrent rfl rfl (if_neg hopen),
      directoryCleared_of ⟨hemptied.entries, hemptied.found, hemptied.others, hemptied.station⟩⟩
  case settings =>
    obtain ⟨hport, hunits⟩ := State.clearSettings_spec (s := s)
    obtain ⟨hsettings, hcursors, hattention⟩ := State.sends_setCursor (u := s.clearSettings) (t := 12) (c := s.rewound 12) (m := doneOf 4 [])
    refine ⟨_, hfree.clear_plain (w := s.clearSettings) hcurrent rfl rfl rfl, State.sends_sending, ?_, ?_, fun o => ?_⟩
    · rw [hsettings, hport]
    · rw [hcursors, hport]
      rfl
    · rw [hattention o, hunits]
      cases o <;> rfl

end Sys2Proof.Machine
end

section
/-! PROOFS. WRITE ENTRY on DIRECTORY, FENCES and DRIVES (O23): what the fields of an entry give. -/

namespace Sys2Proof.Machine

/-! ### The fields of a directory entry (section 11.4) -/

section
variable {b pool : Byte} {h : Half}

theorem homeOfHalf_good (hgood : h = 0xFFFF ∨ h.toNat < 2048) : homeOfHalf h = some (if h = 0xFFFF then none else some h.toNat) := by
  unfold homeOfHalf
  by_cases hnone : h = 0xFFFF
  · rw [if_pos hnone, if_pos hnone]
  · rw [if_neg hnone, if_neg hnone]
    exact if_pos (hgood.resolve_left hnone)

theorem homeOfHalf_bad (hbad : ¬(h = 0xFFFF ∨ h.toNat < 2048)) : homeOfHalf h = none := by
  unfold homeOfHalf
  rw [if_neg (fun k => hbad (Or.inl k))]
  exact if_neg (fun k => hbad (Or.inr k))

theorem writtenLoc_good (hgood : b = 0 ∨ b = 4 ∨ b = 5) :
    writtenLoc b = some (if b = 0 then .home else if b = 4 then .outside else .missing) := by
  rcases hgood with rfl | rfl | rfl <;> rfl

theorem writtenLoc_bad (hbad : ¬(b = 0 ∨ b = 4 ∨ b = 5)) : writtenLoc b = none := by
  rw [not_or, not_or] at hbad
  unfold writtenLoc
  rw [if_neg hbad.1, if_neg hbad.2.1, if_neg hbad.2.2]

theorem writtenUse_good (hgood : b = 0 ∨ b = 1 ∧ pool.toNat ≤ 7) :
    writtenUse b pool = some (if b = 0 then .own else .scratch pool.toNat) := by
  unfold writtenUse
  by_cases hown : b = 0
  · rw [if_pos hown, if_pos hown]
  · rw [if_neg hown, if_neg hown]
    exact if_pos (hgood.resolve_left hown)

theorem writtenUse_bad (hbad : ¬(b = 0 ∨ b = 1 ∧ pool.toNat ≤ 7)) : writtenUse b pool = none := by
  rw [not_or] at hbad
  unfold writtenUse
  rw [if_neg hbad.1, if_neg hbad.2]

/-- A byte of a small range is one of its values. -/
theorem byte_le_three (hle : b.toNat ≤ 3) : b = 0 ∨ b = 1 ∨ b = 2 ∨ b = 3 := by
  have hvalue : b.toNat = 0 ∨ b.toNat = 1 ∨ b.toNat = 2 ∨ b.toNat = 3 := by omega
  rcases hvalue with hb | hb | hb | hb
  · exact Or.inl (BitVec.eq_of_toNat_eq hb)
  · exact Or.inr (Or.inl (BitVec.eq_of_toNat_eq hb))
  · exact Or.inr (Or.inr (Or.inl (BitVec.eq_of_toNat_eq hb)))
  · exact Or.inr (Or.inr (Or.inr (BitVec.eq_of_toNat_eq hb)))

theorem densityOfByte_good (hgood : b.toNat ≤ 3) : densityOfByte b =
    some (if b = 0 then none else if b = 1 then some .d800 else if b = 2 then some .d1600 else some .d6250) := by
  rcases byte_le_three hgood with rfl | rfl | rfl | rfl <;> rfl

theorem densityOfByte_bad (hbad : ¬b.toNat ≤ 3) : densityOfByte b = none := by
  cases hd : densityOfByte b with
  | none => rfl
  | some d => exact absurd (densityOfByte_isSome.mp (by rw [hd]; rfl)) hbad

theorem writtenRing_good (hgood : b.toNat ≤ 2) :
    writtenRing b = some (if b = 0 then .fitted else if b = 1 then .notFitted else .unknown) := by
  rcases byte_le_three (Nat.le_succ_of_le hgood) with rfl | rfl | rfl | rfl
  · rfl
  · rfl
  · rfl
  · exact absurd hgood (by decide)

theorem writtenRing_bad (hbad : ¬b.toNat ≤ 2) : writtenRing b = none := by
  unfold writtenRing
  rw [if_neg (by rintro rfl; exact hbad (by decide)), if_neg (by rintro rfl; exact hbad (by decide)),
    if_neg (by rintro rfl; exact hbad (by decide))]

end

/-- The fields of a directory write that are all in range (R20). -/
def goodVolume (serial : Text) (h : Half) (loc use pool dens ring errors : Byte) : Prop :=
  isPaddedName serial = true ∧ (h = 0xFFFF ∨ h.toNat < 2048) ∧ (loc = 0 ∨ loc = 4 ∨ loc = 5) ∧ ¬(loc = 0 ∧ h = 0xFFFF) ∧
    (use = 0 ∨ use = 1 ∧ pool.toNat ≤ 7) ∧ dens.toNat ≤ 3 ∧ ring.toNat ≤ 2 ∧ errors.toNat ≤ 15

section
variable {serial rest : List Byte} {h m : Half} {loc x y use pool dens ring flags errors : Byte} {last : Stamp}

theorem writtenVolume_layout (hserial : serial.length = 6) :
    writtenVolume (serial ++ bytesOfHalf h ++ [loc, x, y, use, pool, dens, ring] ++ bytesOfHalf m ++ bytesOfStamp last ++
        flags :: errors :: rest) =
      match homeOfHalf h, writtenLoc loc, writtenUse use pool, densityOfByte dens, writtenRing ring with
      | some home, some loc, some use, some density, some ring =>
        if isPaddedName serial = true ∧ errors.toNat ≤ 15 ∧ ¬(loc = .home ∧ home = none) then
          some {
            serial := serial, home := home, loc := loc, use := use, density := density, ring := ring, mounts := m.toNat
            lastMount := if flags.getLsbD 0 then some last else none, errors := errors.toNat, suspect := flags.getLsbD 1 }
        else none
      | _, _, _, _, _ => none := by
  match serial, hserial with
  | [s0, s1, s2, s3, s4, s5], _ =>
    have hhome := halfOfBytes_bytes h
    have hmounts := halfOfBytes_bytes m
    have hlast := stampOfBytes_bytes last
    simp only [bytesOfHalf, bytesOfStamp, List.cons_append, List.nil_append, writtenVolume, hhome, hmounts, hlast] <;> rfl

theorem writtenVolume_good (hserial : serial.length = 6) (hgood : goodVolume serial h loc use pool dens ring errors) :
    writtenVolume (serial ++ bytesOfHalf h ++ [loc, x, y, use, pool, dens, ring] ++ bytesOfHalf m ++ bytesOfStamp last ++
        flags :: errors :: rest) = some {
      serial := serial, home := if h = 0xFFFF then none else some h.toNat
      loc := if loc = 0 then .home else if loc = 4 then .outside else .missing
      use := if use = 0 then .own else .scratch pool.toNat
      density := if dens = 0 then none else if dens = 1 then some .d800 else if dens = 2 then some .d1600 else some .d6250
      ring := if ring = 0 then .fitted else if ring = 1 then .notFitted else .unknown
      mounts := m.toNat, lastMount := if flags.getLsbD 0 then some last else none, errors := errors.toNat
      suspect := flags.getLsbD 1 } := by
  obtain ⟨hname, hhome, hloc, hplaced, huse, hdens, hring, herrors⟩ := hgood
  rw [writtenVolume_layout hserial, homeOfHalf_good hhome, writtenLoc_good hloc, writtenUse_good huse, densityOfByte_good hdens,
    writtenRing_good hring]
  refine if_pos ⟨hname, herrors, fun ⟨hathome, hnone⟩ => hplaced ⟨?_, ?_⟩⟩
  · rcases hloc with rfl | rfl | rfl
    · rfl
    · cases hathome
    · cases hathome
  · by_contra hsome
    rw [if_neg hsome] at hnone
    cases hnone

theorem writtenVolume_bad (hserial : serial.length = 6) (hbad : ¬goodVolume serial h loc use pool dens ring errors) :
    writtenVolume (serial ++ bytesOfHalf h ++ [loc, x, y, use, pool, dens, ring] ++ bytesOfHalf m ++ bytesOfStamp last ++
        flags :: errors :: rest) = none := by
  rw [writtenVolume_layout hserial]
  by_cases hhome : h = 0xFFFF ∨ h.toNat < 2048
  swap
  · rw [homeOfHalf_bad hhome]
  by_cases hloc : loc = 0 ∨ loc = 4 ∨ loc = 5
  swap
  · rw [homeOfHalf_good hhome, writtenLoc_bad hloc]
  by_cases huse : use = 0 ∨ use = 1 ∧ pool.toNat ≤ 7
  swap
  · rw [homeOfHalf_good hhome, writtenLoc_good hloc, writtenUse_bad huse]
  by_cases hdens : dens.toNat ≤ 3
  swap
  · rw [homeOfHalf_good hhome, writtenLoc_good hloc, writtenUse_good huse, densityOfByte_bad hdens]
  by_cases hring : ring.toNat ≤ 2
  swap
  · rw [homeOfHalf_good hhome, writtenLoc_good hloc, writtenUse_good huse, densityOfByte_good hdens, writtenRing_bad hring]
  rw [homeOfHalf_good hhome, writtenLoc_good hloc, writtenUse_good huse, densityOfByte_good hdens, writtenRing_good hring]
  refine if_neg fun ⟨hname, herrors, hplaced⟩ => hbad ⟨hname, hhome, hloc, fun ⟨hzero, hnone⟩ => hplaced ⟨?_, ?_⟩, huse, hdens, hring, herrors⟩
  · rw [if_pos hzero]
  · rw [if_pos hnone]

end

/-! ### The fields of a fence and of a drive (section 11.5) -/

theorem bits_and_seven {b : Byte} : (b.getLsbD 0 || b.getLsbD 1 || b.getLsbD 2) = true ↔ b &&& 7 ≠ 0 := by
  have hand : b &&& 7 = 0 ↔ b.getLsbD 0 = false ∧ b.getLsbD 1 = false ∧ b.getLsbD 2 = false := by
    constructor
    · intro h
      have hbit (i : Nat) : (b &&& 7).getLsbD i = false := by
        rw [h]
        exact BitVec.getLsbD_zero
      have hzero := hbit 0
      have hone := hbit 1
      have htwo := hbit 2
      rw [BitVec.getLsbD_and] at hzero hone htwo
      exact ⟨(Bool.and_eq_false_iff.mp hzero).resolve_right (by decide), (Bool.and_eq_false_iff.mp hone).resolve_right (by decide),
        (Bool.and_eq_false_iff.mp htwo).resolve_right (by decide)⟩
    · rintro ⟨hzero, hone, htwo⟩
      refine BitVec.eq_of_getLsbD_eq fun i hi => ?_
      rw [BitVec.getLsbD_and, show (0 : Byte).getLsbD i = false from BitVec.getLsbD_zero]
      match i, hi with
      | 0, _ => rw [hzero, Bool.false_and]
      | 1, _ => rw [hone, Bool.false_and]
      | 2, _ => rw [htwo, Bool.false_and]
      | i + 3, hi =>
        have hseven : (7 : Byte).getLsbD (i + 3) = false := by
          have hall : ∀ j < 8, 3 ≤ j → (7 : Byte).getLsbD j = false := by decide
          exact hall (i + 3) hi (by omega)
        rw [hseven, Bool.and_false]
  rw [ne_eq, hand]
  cases b.getLsbD 0 <;> cases b.getLsbD 1 <;> cases b.getLsbD 2 <;> decide

theorem writtenFence_eq (i defined kinds enabled : Byte) (first last : Half) (rest : List Byte) :
    writtenFence (i :: defined :: bytesOfHalf first ++ bytesOfHalf last ++ kinds :: enabled :: rest) =
      if 1 < defined.toNat then none else if defined = 0 then some none
      else if enabled.toNat ≤ 1 ∧ first.toNat < 2048 ∧ last.toNat < 2048 ∧ first.toNat ≤ last.toNat ∧ kinds &&& 7 ≠ 0 then
        some (some ⟨first.toNat, last.toNat, kinds.getLsbD 0, kinds.getLsbD 1, kinds.getLsbD 2, enabled == 1⟩)
      else none := by
  have hlayout : writtenFence (i :: defined :: bytesOfHalf first ++ bytesOfHalf last ++ kinds :: enabled :: rest) =
      match yesNo defined, yesNo enabled with
      | some false, _ => some none
      | some true, some on =>
        if first.toNat < 2048 ∧ last.toNat < 2048 ∧ first.toNat ≤ last.toNat ∧ (kinds.getLsbD 0 || kinds.getLsbD 1 || kinds.getLsbD 2) = true then
          some (some ⟨first.toNat, last.toNat, kinds.getLsbD 0, kinds.getLsbD 1, kinds.getLsbD 2, on⟩)
        else none
      | _, _ => none := by
    have hfirst := halfOfBytes_bytes first
    have hlast := halfOfBytes_bytes last
    simp only [bytesOfHalf, List.cons_append, List.nil_append, writtenFence, hfirst, hlast, Config.slots] <;> rfl
  rw [hlayout]
  rcases byte_yesNo defined with hdefined | rfl | rfl
  · rw [yesNo_none hdefined, if_pos hdefined]
  · rw [yesNo_zero, if_neg (by decide), if_pos rfl]
  · rw [yesNo_one, if_neg (by decide), if_neg (by decide)]
    by_cases henabled : enabled.toNat ≤ 1
    · rw [yesNo_le henabled]
      exact if_congr (by rw [bits_and_seven, eq_true henabled, true_and]) rfl rfl
    · rw [yesNo_none (Nat.lt_of_not_le henabled), if_neg (fun k => henabled k.1)]

theorem writtenDrive_eq (i installed column dens online debounce edges : Byte) (seconds loads : Stamp) (rest : List Byte) (hrest : 20 ≤ rest.length) :
    writtenDrive (i :: installed :: column :: dens :: online :: bytesOfStamp seconds ++ bytesOfStamp loads ++
        debounce :: edges :: rest) =
      if installed.toNat ≤ 1 ∧ online.toNat ≤ 1 ∧ column.toNat ≤ 31 ∧ dens &&& 7 ≠ 0 ∧ debounce ≠ 0 then
        some ⟨installed == 1, column.toNat, ⟨dens.getLsbD 0, dens.getLsbD 1, dens.getLsbD 2⟩, online == 1, seconds, loads, debounce.toNat,
          ⟨edges.getLsbD 0, edges.getLsbD 1, edges.getLsbD 2, edges.getLsbD 3, edges.getLsbD 4, edges.getLsbD 5⟩⟩
      else none := by
  have hlayout : writtenDrive (i :: installed :: column :: dens :: online :: bytesOfStamp seconds ++ bytesOfStamp loads ++
      debounce :: edges :: rest) =
      match yesNo installed, yesNo online with
      | some installed, some online =>
        if column.toNat ≤ 31 ∧ dens &&& 7 ≠ 0 ∧ debounce ≠ 0 ∧ 20 ≤ rest.length then
          some ⟨installed, column.toNat, ⟨dens.getLsbD 0, dens.getLsbD 1, dens.getLsbD 2⟩, online, seconds, loads, debounce.toNat,
            ⟨edges.getLsbD 0, edges.getLsbD 1, edges.getLsbD 2, edges.getLsbD 3, edges.getLsbD 4, edges.getLsbD 5⟩⟩
        else none
      | _, _ => none := by
    have hseconds := stampOfBytes_bytes seconds
    have hloads := stampOfBytes_bytes loads
    simp only [bytesOfStamp, List.cons_append, List.nil_append, writtenDrive, hseconds, hloads] <;> rfl
  rw [hlayout]
  by_cases hinstalled : installed.toNat ≤ 1
  swap
  · rw [yesNo_none (Nat.lt_of_not_le hinstalled), if_neg (fun k => hinstalled k.1)]
  by_cases honline : online.toNat ≤ 1
  swap
  · rw [yesNo_none (Nat.lt_of_not_le honline), yesNo_le hinstalled, if_neg (fun k => honline k.2.1)]
  rw [yesNo_le hinstalled, yesNo_le honline]
  exact if_congr (by rw [eq_true hinstalled, eq_true honline, true_and, true_and, eq_true hrest, and_true]) rfl rfl

theorem readsEntries_holds : readsEntries := by
  refine ⟨fun serial rest h m loc x y use pool dens ring flags errors last hserial => ?_, writtenFence_eq, writtenDrive_eq⟩
  by_cases hgood : goodVolume serial h loc use pool dens ring errors
  · exact (writtenVolume_good hserial hgood).trans (if_pos hgood).symm
  · exact (writtenVolume_bad hserial hgood).trans (if_neg hgood).symm

/-- A volume that is written HOME has a home slot. -/
theorem writtenVolume_home {fields : List Byte} {v : Volume} (h : writtenVolume fields = some v) (hloc : v.loc = .home) : ∃ n, v.home = some n := by
  unfold writtenVolume at h
  split at h
  · split at h
    · obtain ⟨hfits, hvolume⟩ := Option.ite_none_right_eq_some.mp h
      obtain rfl := Option.some.inj hvolume
      exact Option.ne_none_iff_exists'.mp (fun hnone => hfits.2.2 ⟨hloc, hnone⟩)
    · cases h
  · cases h

end Sys2Proof.Machine
end

section
/-! PROOFS. WRITE ENTRY on DIRECTORY, FENCES and DRIVES (O23): what a taken write leaves. -/

namespace Sys2Proof.Machine

variable {s t u : State} {e i n k : Nat} {v : Volume} {d : Fin 16}

/-! ### Tables by index -/

section
variable {α β : Type} {l : List (Nat × α)} {a : α}

theorem mem_of_lookup (h : lookup k l = some a) : (k, a) ∈ l := by
  induction l with
  | nil => cases h
  | cons x rest ih =>
    obtain ⟨j, b⟩ := x
    by_cases hj : j = k
    · subst hj
      have hb : some b = some a := (if_pos rfl).symm.trans h
      cases hb
      exact List.mem_cons_self
    · exact List.mem_cons_of_mem _ (ih ((if_neg hj).symm.trans h))

theorem lookup_of_mem (hcanonical : Canonical l) (h : (k, a) ∈ l) : lookup k l = some a := by
  induction l with
  | nil => cases h
  | cons x rest ih =>
    obtain ⟨j, b⟩ := x
    obtain ⟨hfirst, hrest⟩ := List.pairwise_cons.mp hcanonical
    rcases List.mem_cons.mp h with heq | hmem
    · cases heq
      exact if_pos rfl
    · have hne : ¬j = k := Nat.ne_of_lt (hfirst (k, a) hmem)
      exact (if_neg hne).trans (ih hrest hmem)

theorem map_eraseAt_pairs (g : α → β) : (eraseAt k l).map (fun x => (x.1, g x.2)) = eraseAt k (l.map (fun x => (x.1, g x.2))) := by
  induction l with
  | nil => rfl
  | cons x rest ih =>
    simp only [eraseAt, List.map_cons]
    split
    · rfl
    · rw [List.map_cons, ih]

theorem map_insertAt_pairs (g : α → β) :
    (insertAt k a l).map (fun x => (x.1, g x.2)) = insertAt k (g a) (l.map (fun x => (x.1, g x.2))) := by
  induction l with
  | nil => rfl
  | cons x rest ih =>
    simp only [insertAt, List.map_cons]
    split
    · rfl
    · split
      · rfl
      · rw [List.map_cons, ih]

theorem eraseAt_of_free (h : lookup k l = none) : eraseAt k l = l := by
  induction l with
  | nil => rfl
  | cons x rest ih =>
    obtain ⟨j, b⟩ := x
    by_cases hj : j = k
    · have hnone : some b = none := (if_pos hj).symm.trans h
      cases hnone
    · have hrest : lookup k rest = none := (if_neg hj).symm.trans h
      exact (if_neg hj).trans (by rw [ih hrest])

section
variable {p : Nat × α → Bool} (hp : ∀ b, (k, b) ∈ l → p (k, b) = false)
include hp

theorem find?_eraseAt : (eraseAt k l).find? p = l.find? p := by
  induction l with
  | nil => rfl
  | cons x rest ih =>
    obtain ⟨j, b⟩ := x
    by_cases hj : j = k
    · subst hj
      have herased : eraseAt j ((j, b) :: rest) = rest := if_pos rfl
      rw [herased, List.find?_cons_of_neg (by rw [hp b List.mem_cons_self]; exact Bool.false_ne_true)]
    · have herased : eraseAt k ((j, b) :: rest) = (j, b) :: eraseAt k rest := if_neg hj
      rw [herased, List.find?_cons, List.find?_cons, ih (fun b hb => hp b (List.mem_cons_of_mem _ hb))]

theorem find?_insertAt_other (ha : p (k, a) = false) : (insertAt k a l).find? p = l.find? p := by
  have hskip {m : List (Nat × α)} : ((k, a) :: m).find? p = m.find? p := List.find?_cons_of_neg (by rw [ha]; exact Bool.false_ne_true)
  induction l with
  | nil => exact hskip
  | cons x rest ih =>
    obtain ⟨j, b⟩ := x
    simp only [insertAt]
    split
    · exact hskip
    · split
      · rename_i hj
        subst hj
        rw [hskip, List.find?_cons_of_neg (by rw [hp b List.mem_cons_self]; exact Bool.false_ne_true)]
      · rw [List.find?_cons, List.find?_cons, ih (fun b hb => hp b (List.mem_cons_of_mem _ hb))]

end

theorem find?_insertAt_self {p : Nat × α → Bool} (hp : ∀ x ∈ l, x.1 ≠ k → p x = false) (ha : p (k, a) = true) :
    (insertAt k a l).find? p = some (k, a) := by
  induction l with
  | nil => exact List.find?_cons_of_pos ha
  | cons x rest ih =>
    obtain ⟨j, b⟩ := x
    simp only [insertAt]
    split
    · exact List.find?_cons_of_pos ha
    · split
      · exact List.find?_cons_of_pos ha
      · rename_i hj
        rw [List.find?_cons_of_neg (by rw [hp (j, b) List.mem_cons_self (Ne.symm hj)]; exact Bool.false_ne_true)]
        exact ih (fun x hx => hp x (List.mem_cons_of_mem _ hx))

end

/-! ### The slot map (R4) -/

theorem State.slotState_found {f : Finding} (h : s.finding? n = some f) : s.slotState n = .foreign f := by
  unfold State.slotState
  rw [h]

theorem State.slotState_free (h : s.finding? n = none) (ho : s.homeOwner n = none) : s.slotState n = .free := by
  unfold State.slotState
  rw [h, ho]

theorem State.slotState_owned (h : s.finding? n = none) (ho : s.homeOwner n = some e) (hv : s.vol? e = some v) :
    s.slotState n = if v.loc = .home then .occupied e else .vacant e := by
  unfold State.slotState
  rw [h, ho]
  dsimp only
  rw [hv]
  by_cases hloc : v.loc = .home
  · rw [if_pos hloc]
    exact if_pos (by simp [hloc])
  · rw [if_neg hloc]
    exact if_neg (by simp [hloc])

/-- A slot is as it was where its finding, its owner and the owner's entry are. -/
theorem State.slotState_congr (hf : t.finding? n = s.finding? n) (ho : t.homeOwner n = s.homeOwner n)
    (hv : ∀ e, s.homeOwner n = some e → t.vol? e = s.vol? e) : t.slotState n = s.slotState n := by
  cases hfinding : s.finding? n with
  | some f => rw [State.slotState_found hfinding, State.slotState_found (hf.trans hfinding)]
  | none =>
    cases howner : s.homeOwner n with
    | none => rw [State.slotState_free hfinding howner, State.slotState_free (hf.trans hfinding) (ho.trans howner)]
    | some e =>
      unfold State.slotState
      rw [hfinding, howner, hf.trans hfinding, ho.trans howner]
      dsimp only
      rw [hv e howner]

theorem State.homeOwner_none (h : ∀ x ∈ s.dir.entries, x.2.home ≠ some n) : s.homeOwner n = none := by
  unfold State.homeOwner
  rw [List.find?_eq_none.mpr (fun x hx => by simpa using h x hx)]
  rfl

theorem State.homeOwner_mem (h : s.homeOwner n = some e) : ∃ v, (e, v) ∈ s.dir.entries ∧ v.home = some n := by
  obtain ⟨⟨j, v⟩, hfind, hj⟩ := Option.map_eq_some_iff.mp h
  cases hj
  exact ⟨v, List.mem_of_find?_eq_some hfind, by simpa using List.find?_some hfind⟩

section
variable (hlawful : s.DirectoryLawful)
include hlawful

/-- No two entries in use have one home slot (R4). -/
theorem State.homes_distinct {x y : Nat × Volume} (hx : x ∈ s.dir.entries) (hy : y ∈ s.dir.entries) (hn : x.2.home = some n)
    (hm : y.2.home = some n) : x = y := by
  have hhomes : (s.dir.entries.filterMap (fun x => x.2.home)).Nodup := by
    have hidentities := hlawful.2.2.2.1
    rw [State.volumeIdentities, List.filterMap_map] at hidentities
    exact hidentities
  generalize s.dir.entries = l at hx hy hhomes
  induction l with
  | nil => cases hx
  | cons z rest ih =>
    have hlater {w : Nat × Volume} (hw : w ∈ rest) (hwn : w.2.home = some n) (hzn : z.2.home = some n) : False := by
      rw [List.filterMap_cons_some (f := fun x : Nat × Volume => x.2.home) hzn] at hhomes
      exact (List.nodup_cons.mp hhomes).1 (List.mem_filterMap.mpr ⟨w, hw, hwn⟩)
    rcases List.mem_cons.mp hx with hfirst | hx
    · rcases List.mem_cons.mp hy with hsecond | hy
      · exact hfirst.trans hsecond.symm
      · exact (hlater hy hm (hfirst ▸ hn)).elim
    · rcases List.mem_cons.mp hy with hsecond | hy
      · exact (hlater hx hn (hsecond ▸ hm)).elim
      · refine ih hx hy ?_
        cases hz : z.2.home with
        | none => rwa [List.filterMap_cons_none (f := fun x : Nat × Volume => x.2.home) hz] at hhomes
        | some h =>
          rw [List.filterMap_cons_some (f := fun x : Nat × Volume => x.2.home) hz] at hhomes
          exact (List.nodup_cons.mp hhomes).2

theorem State.vol?_mem (h : (e, v) ∈ s.dir.entries) : s.vol? e = some v := lookup_of_mem hlawful.1 h

end

/-! ### A freed entry (R22) -/

/-- The freeing of an entry, whether it is in use or not. -/
theorem State.freeEntry_spec : (s.freeEntry i).dir.entries = eraseAt i s.dir.entries ∧
    ((s.freeEntry i).drv = s.drv ∧ (s.freeEntry i).ms = s.ms ∧ (s.freeEntry i).sch = s.sch) ∧
    (∀ n, (s.freeEntry i).finding? n = match s.vol? i with
      | some v => if v.loc = .home ∧ v.home = some n then some (.serial v.serial) else s.finding? n
      | none => s.finding? n) ∧
    ∀ p, (s.freeEntry i).station p = if (s.vol? i).isSome ∧ (s.station p).volume = some i then { s.station p with volume := none }
      else s.station p := by
  cases hv : s.vol? i with
  | none =>
    have hsame : s.freeEntry i = s := by
      unfold State.freeEntry
      rw [hv]
    rw [hsame, eraseAt_of_free hv]
    exact ⟨rfl, ⟨rfl, rfl, rfl⟩, fun _ => rfl, fun p => (if_neg (fun h => by cases h.1)).symm⟩
  | some v =>
    obtain ⟨x, hfreed, hsame, hparts, hfinding, hstation⟩ := State.freeEntry_eq hv
    rw [hfreed]
    refine ⟨by rw [hsame], hparts, hfinding, fun p => (hstation p).trans ?_⟩
    exact if_congr (by rw [Option.isSome_some, eq_self, true_and]) rfl rfl

/-- The owner of a home slot when an entry has been freed: none where it was the entry's, else who it was. -/
theorem State.homeOwner_freed (hlawful : s.DirectoryLawful) (hentries : t.dir.entries = eraseAt i s.dir.entries) :
    t.homeOwner n = if (s.vol? i).bind (·.home) = some n then none else s.homeOwner n := by
  split
  · rename_i hhome
    obtain ⟨v, hv, hn⟩ := Option.bind_eq_some_iff.mp hhome
    refine State.homeOwner_none fun x hx hxn => ?_
    rw [hentries] at hx
    have hsame := State.homes_distinct hlawful (mem_eraseAt hx) (mem_of_lookup hv) hxn hn
    have hgone := lookup_eraseAt_self i s.dir.entries hlawful.1
    have hthere := lookup_of_mem (canonical_eraseAt i s.dir.entries hlawful.1) (k := x.1) (a := x.2) hx
    rw [hsame] at hthere
    exact absurd (hgone.symm.trans hthere) (by simp)
  · rename_i hother
    unfold State.homeOwner
    rw [hentries, find?_eraseAt]
    intro v hmem
    have hv : s.vol? i = some v := State.vol?_mem hlawful hmem
    rw [hv] at hother
    simpa using hother

theorem entryFreed_of (hlawful : s.DirectoryLawful) {c : Cursor} {k : Fin 13} : entryFreed s ((s.freeEntry i).setCursor k c) i := by
  obtain ⟨hentries, hparts, hfinding, hstation⟩ := State.freeEntry_spec (s := s) (i := i)
  let u := (s.freeEntry i).setCursor k c
  have hentries : u.dir.entries = eraseAt i s.dir.entries := hentries
  have hfinding (n : Nat) : u.finding? n = _ := hfinding n
  have hvol (e : Nat) : u.vol? e = if e = i then none else s.vol? e := by
    unfold State.vol?
    rw [hentries]
    by_cases he : e = i
    · rw [if_pos he, he]
      exact lookup_eraseAt_self i _ hlawful.1
    · rw [if_neg he]
      exact lookup_eraseAt_ne _ he
  refine ⟨hvol, hfinding, ⟨fun n f hf => State.slotState_found hf, fun n hnone => ?_, hparts⟩, hstation⟩
  have howner := State.homeOwner_freed (n := n) hlawful hentries
  dsimp only
  by_cases hhome : (s.vol? i).bind (·.home) = some n
  · rw [if_pos hhome] at howner ⊢
    exact State.slotState_free hnone howner
  · rw [if_neg hhome] at howner ⊢
    refine State.slotState_congr (hnone.trans ?_) howner (fun e he => ?_)
    · have hsame : u.finding? n = s.finding? n := by
        rw [hfinding n]
        cases hv : s.vol? i with
        | none => rfl
        | some v =>
          rw [hv] at hhome
          exact if_neg (fun h => hhome h.2)
      exact (hsame.symm.trans hnone).symm
    · refine (hvol e).trans (if_neg ?_)
      rintro rfl
      obtain ⟨v, hmem, hv⟩ := State.homeOwner_mem he
      exact hhome (by rw [State.vol?_mem hlawful hmem]; exact hv)

/-! ### A written entry (R21) -/

/-- The owner of a home slot when an entry has been written: the entry where its home is there, none where it was, else who it was. -/
theorem State.homeOwner_written (hlawful : s.DirectoryLawful) (hentries : t.dir.entries = insertAt i v s.dir.entries)
    (hfree : ∀ n, v.home = some n → ∀ x ∈ s.dir.entries, x.1 ≠ i → x.2.home ≠ some n) :
    t.homeOwner n = if v.home = some n then some i else if (s.vol? i).bind (·.home) = some n then none else s.homeOwner n := by
  split
  · rename_i hhome
    unfold State.homeOwner
    rw [hentries, find?_insertAt_self (fun x hx hne => by simpa using hfree n hhome x hx hne) (by simpa using hhome)]
    rfl
  · rename_i hhome
    split
    · rename_i hold
      obtain ⟨w, hw, hn⟩ := Option.bind_eq_some_iff.mp hold
      refine State.homeOwner_none fun x hx hxn => ?_
      have hcanonical := canonical_insertAt i v s.dir.entries hlawful.1
      rw [hentries] at hx
      rcases mem_insertAt hx with rfl | hmem
      · exact hhome hxn
      · have hsame := State.homes_distinct hlawful hmem (mem_of_lookup hw) hxn hn
        have hthere := lookup_of_mem hcanonical (k := x.1) (a := x.2) hx
        rw [hsame, lookup_insertAt_self] at hthere
        cases hthere
        exact hhome hn
    · rename_i hother
      unfold State.homeOwner
      rw [hentries, find?_insertAt_other]
      · intro w hmem
        rw [State.vol?_mem hlawful hmem] at hother
        simpa using hother
      · simpa using hhome

theorem State.slotTaken_free (h : s.slotTaken i v = false) (hn : v.home = some n) :
    (∀ x ∈ s.dir.entries, x.1 ≠ i → x.2.home ≠ some n) := by
  intro x hx hne hhome
  unfold State.slotTaken at h
  rw [hn] at h
  have hany := (Bool.or_eq_false_iff.mp h).1
  rw [List.any_eq_false] at hany
  exact hany x hx (by simp [hne, hhome])

/-- What a position, whose reel the entry had recorded, records when the entry is written anew. -/
theorem State.leaveStation_spec : (s.leaveStation v).dir = s.dir ∧
    ((s.leaveStation v).drv = s.drv ∧ (s.leaveStation v).ms = s.ms ∧ (s.leaveStation v).sch = s.sch) ∧
    ∀ p, (s.leaveStation v).station p = if v.loc = .atStation p then { s.station p with volume := none } else s.station p := by
  unfold State.leaveStation
  split
  · rename_i q hloc
    refine ⟨rfl, ⟨rfl, rfl, rfl⟩, fun p => ?_⟩
    rw [hloc]
    unfold State.clearStationVolume
    by_cases hp : p = q
    · rw [hp, State.updStation_station_self, if_pos rfl]
    · rw [State.updStation_station_ne hp, if_neg (fun h => hp (Loc.atStation.inj h).symm)]
  all_goals
    rename_i hloc
    refine ⟨rfl, ⟨rfl, rfl, rfl⟩, fun p => (if_neg ?_).symm⟩
    rw [hloc]
    exact Loc.noConfusion

/-- A part whose position has left an entry that is to be written. -/
def State.leftStation (s : State) (i : Nat) : State :=
  match s.vol? i with
  | some old => s.leaveStation old
  | none => s

theorem State.leftStation_spec : (s.leftStation i).dir = s.dir ∧
    ((s.leftStation i).drv = s.drv ∧ (s.leftStation i).ms = s.ms ∧ (s.leftStation i).sch = s.sch) ∧
    ∀ p, (s.leftStation i).station p = if (s.vol? i).map (·.loc) = some (.atStation p) then { s.station p with volume := none }
      else s.station p := by
  unfold State.leftStation
  cases hv : s.vol? i with
  | none => exact ⟨rfl, ⟨rfl, rfl, rfl⟩, fun p => (if_neg (fun h => by cases h)).symm⟩
  | some old =>
    obtain ⟨hdir, hparts, hstation⟩ := State.leaveStation_spec (s := s) (v := old)
    refine ⟨hdir, hparts, fun p => (hstation p).trans ?_⟩
    exact if_congr (by rw [Option.map_some, Option.some.injEq]) rfl rfl

theorem State.writeVolume_elsewhere (h : ∀ n, ¬(v.loc = .home ∧ v.home = some n)) : s.writeVolume i v = (s.leftStation i).setVol i v := by
  unfold State.writeVolume State.leftStation
  dsimp only
  split
  · rename_i n hloc hhome
    exact absurd ⟨hloc, hhome⟩ (h n)
  · cases s.vol? i <;> rfl

theorem State.writeVolume_home (hloc : v.loc = .home) (hhome : v.home = some n) : s.writeVolume i v =
    (if ((s.leftStation i).setVol i v).finding? n = some (.serial v.serial) then ((s.leftStation i).setVol i v).clearFinding n
      else (s.leftStation i).setVol i v).notify .walk := by
  unfold State.writeVolume State.leftStation
  rw [hloc, hhome] <;> cases s.vol? i <;> rfl

/-- The finding at the home slot of a volume written HOME goes, where it is of its serial (R21). -/
theorem State.writeVolume_finding? (hcanonical : Canonical s.dir.findings) : (s.writeVolume i v).finding? k =
    if v.loc = .home ∧ v.home = some k ∧ s.finding? k = some (.serial v.serial) then none else s.finding? k := by
  have hleft {m : Nat} : ((s.leftStation i).setVol i v).finding? m = s.finding? m := by
    change lookup m (s.leftStation i).dir.findings = lookup m s.dir.findings
    rw [State.leftStation_spec.1]
  have hcleared : Canonical ((s.leftStation i).setVol i v).dir.findings := by
    change Canonical (s.leftStation i).dir.findings
    rw [State.leftStation_spec.1]
    exact hcanonical
  by_cases hhome : ∃ n, v.loc = .home ∧ v.home = some n
  · obtain ⟨n, hloc, hn⟩ := hhome
    rw [State.writeVolume_home hloc hn, State.notify_finding?, hleft]
    by_cases hk : k = n
    · subst hk
      by_cases hserial : s.finding? k = some (.serial v.serial)
      · rw [if_pos hserial, if_pos ⟨hloc, hn, hserial⟩]
        exact State.clearFinding_finding?_self hcleared
      · rw [if_neg hserial, if_neg (fun h => hserial h.2.2), hleft]
    · have hother : ¬(v.loc = .home ∧ v.home = some k ∧ s.finding? k = some (.serial v.serial)) :=
        fun h => hk (Option.some.inj (h.2.1.symm.trans hn))
      rw [if_neg hother]
      split
      · rw [State.clearFinding_finding?_ne hk, hleft]
      · exact hleft
  · rw [State.writeVolume_elsewhere (fun n h => hhome ⟨n, h⟩), if_neg (fun h => hhome ⟨k, h.1, h.2.1⟩)]
    exact hleft

theorem State.writeVolume_spec : (s.writeVolume i v).dir.entries = insertAt i v s.dir.entries ∧
    ((s.writeVolume i v).drv = s.drv ∧ (s.writeVolume i v).ms = s.ms ∧ (s.writeVolume i v).sch = s.sch) ∧
    (∀ p, (s.writeVolume i v).station p = if (s.vol? i).map (·.loc) = some (.atStation p) then { s.station p with volume := none }
      else s.station p) := by
  obtain ⟨hdir, ⟨hdrv, hms, hsch⟩, hstation⟩ := State.leftStation_spec (s := s) (i := i)
  have hentries : ((s.leftStation i).setVol i v).dir.entries = insertAt i v s.dir.entries := by
    change insertAt i v (s.leftStation i).dir.entries = _
    rw [hdir]
  by_cases hhome : ∃ n, v.loc = .home ∧ v.home = some n
  · obtain ⟨n, hloc, hn⟩ := hhome
    rw [State.writeVolume_home hloc hn]
    simp only [State.notify_dir, State.notify_drv, State.notify_ms, State.notify_sch, State.notify_station]
    split <;> exact ⟨hentries, ⟨hdrv, hms, hsch⟩, hstation⟩
  · rw [State.writeVolume_elsewhere (fun n h => hhome ⟨n, h⟩)]
    exact ⟨hentries, ⟨hdrv, hms, hsch⟩, hstation⟩

theorem entryWritten_of (hlawful : s.DirectoryLawful) (htaken : s.slotTaken i v = false) (hhome : v.loc = .home → ∃ n, v.home = some n)
    {c : Cursor} {k : Fin 13} : entryWritten s ((s.writeVolume i v).setCursor k c) i v := by
  obtain ⟨hentries, hparts, hstation⟩ := State.writeVolume_spec (s := s) (i := i) (v := v)
  let u := (s.writeVolume i v).setCursor k c
  have hentries : u.dir.entries = insertAt i v s.dir.entries := hentries
  have hfinding (n : Nat) : u.finding? n = if v.loc = .home ∧ v.home = some n ∧ s.finding? n = some (.serial v.serial) then none
      else s.finding? n := State.writeVolume_finding? hlawful.2.1
  have hvol (e : Nat) : u.vol? e = if e = i then some v else s.vol? e := by
    unfold State.vol?
    rw [hentries]
    by_cases he : e = i
    · rw [if_pos he, he]
      exact lookup_insertAt_self i v _
    · rw [if_neg he]
      exact lookup_insertAt_ne v _ he
  refine ⟨hvol, hfinding, ⟨fun n f hf => State.slotState_found hf, fun n hnone => ?_, hparts⟩, hstation, fun hloc => ?_⟩
  · have howner := State.homeOwner_written (n := n) hlawful hentries (fun n hn => State.slotTaken_free htaken hn)
    dsimp only
    by_cases hnew : v.home = some n
    · rw [if_pos hnew] at howner ⊢
      exact State.slotState_owned hnone howner ((hvol i).trans (if_pos rfl))
    · rw [if_neg hnew] at howner ⊢
      by_cases hold : (s.vol? i).bind (·.home) = some n
      · rw [if_pos hold] at howner ⊢
        exact State.slotState_free hnone howner
      · rw [if_neg hold] at howner ⊢
        refine State.slotState_congr ((hfinding n).trans (if_neg (fun h => hnew h.2.1))) howner (fun e he => ?_)
        refine (hvol e).trans (if_neg ?_)
        rintro rfl
        obtain ⟨w, hmem, hw⟩ := State.homeOwner_mem he
        exact hold (by rw [State.vol?_mem hlawful hmem]; exact hw)
  · obtain ⟨n, hn⟩ := hhome hloc
    change Notice.walk ∈ (s.writeVolume i v).notices
    rw [State.writeVolume_home hloc hn]
    exact State.mem_notify

/-! ### A written drive (R26, R45, R46) -/

/-- A part whose drive has the fields of a write and its installed field, before the online field acts. -/
def State.driveSet (s : State) (d : Fin 16) (w : DriveFields) : State :=
  (s.updDrive d (fun x => { x with
    column := w.column, densities := w.densities, useSeconds := w.useSeconds, loadCount := w.loadCount,
    debounce := w.debounce, edges := w.edges })).setInstalled d w.installed

theorem State.driveSet_drive {w : DriveFields} : (s.driveSet d w).drive d = rewired (s.drive d) w := by
  have hset {y : State} {f : Drive → Drive} : (y.updDrive d f).drive d = f (y.drive d) := State.updDrive_drive_self
  unfold State.driveSet State.setInstalled rewired
  dsimp only
  rw [hset]
  cases hinstalled : (s.drive d).installed with
  | true =>
    cases hw : w.installed with
    | true => simp [hset, hinstalled]
    | false => simp [hset, hinstalled]
  | false =>
    cases hw : w.installed with
    | true =>
      simp only [Bool.false_eq_true, if_false, if_true, hset, Drive.levelHigh, Bool.or_eq_true, State.setDriveState, true_and,
        false_and, reduceCtorEq]
      split
      · rw [hset, hset, hset]
      · rw [hset, hset]
    | false => simp [hset, hinstalled]

theorem State.driveSet_rest {w : DriveFields} : (∀ c, c ≠ d → (s.driveSet d w).drive c = s.drive c) ∧ (s.driveSet d w).dir = s.dir := by
  have hset {y : State} {f : Drive → Drive} : (∀ c, c ≠ d → (y.updDrive d f).drive c = y.drive c) ∧ (y.updDrive d f).dir = y.dir :=
    ⟨fun c hc => State.updDrive_drive_ne hc, rfl⟩
  unfold State.driveSet State.setInstalled
  dsimp only
  split
  · exact hset
  · split
    · split
      · exact ⟨fun c hc => ((hset.1 c hc).trans (hset.1 c hc)).trans (hset.1 c hc), rfl⟩
      · exact ⟨fun c hc => (hset.1 c hc).trans (hset.1 c hc), rfl⟩
    · exact ⟨fun c hc => (hset.1 c hc).trans (hset.1 c hc), rfl⟩

/-- The online field of a write acts (R45). -/
def State.driveServed (s : State) (d : Fin 16) (was is : Bool) : State :=
  if was = is then s else if is then s.serviceOnline d else s.serviceOffline d

theorem State.takeDriveWrite_eq {w : DriveFields} : s.takeDriveWrite d w =
    (let served := (s.driveSet d w).driveServed d (s.drive d).online w.online
    if (s.drive d).atRest && !((s.drive d).installed && (s.drive d).online) && (served.drive d).claimable then served.notify .walk
    else served) := rfl

theorem State.serviceOnline_rest : (∀ c, c ≠ d → (s.serviceOnline d).drive c = s.drive c) ∧ (s.serviceOnline d).dir = s.dir := by
  unfold State.serviceOnline
  dsimp only
  split
  · exact ⟨fun c hc => State.updDrive_drive_ne hc, rfl⟩
  · split
    · exact ⟨fun c hc => (State.updDrive_drive_ne hc).trans (State.updDrive_drive_ne hc), rfl⟩
    · rw [State.notify_dir]
      refine ⟨fun c hc => ?_, rfl⟩
      rw [State.notify_drive]
      exact (State.updDrive_drive_ne hc).trans (State.updDrive_drive_ne hc)

/-- The online field of a write, by what the drive is when it acts. -/
theorem State.driveServed_spec {was is : Bool} (hwas : (s.drive d).online = was) :
    let u := s.driveServed d was is
    let y := s.drive d
    (y.online = is → u.drive d = y) ∧
    (y.online = false → is = true → u.drive d = { y with
      online := true
      state := if y.state ≠ .offline then y.state else if y.sense.loaded = true ∨ y.sense.released = true then .unmanaged else .empty }) ∧
    (y.online = true → is = false → y.state ≠ .check → u.drive d =
      if y.state = .offline then y
      else { y with online := false, state := if y.state = .empty ∨ y.state = .unmanaged then .offline else y.state }) ∧
    (y.online = true → is = false → y.state = .check → (u.drive d).online = false ∧
      (u.drive d).state = if y.sense.released then .released else if y.sense.loaded then .unloading else .offline) ∧
    (y.state ≠ .check → (∀ c, c ≠ d → u.drive c = s.drive c) ∧ u.dir = s.dir) := by
  intro u y
  have hsame (h : y.online = is) : u = s := if_pos (hwas.symm.trans h)
  have honline (hoff : y.online = false) (hon : is = true) : u = s.serviceOnline d := by
    have hne : ¬was = is := by rw [← hwas, hon, hoff]; decide
    exact (if_neg hne).trans (if_pos hon)
  have hoffline (hon : y.online = true) (hoff : is = false) : u = s.serviceOffline d := by
    have hne : ¬was = is := by rw [← hwas, hon, hoff]; decide
    exact (if_neg hne).trans (if_neg (by rw [hoff]; decide))
  refine ⟨fun h => by rw [hsame h], fun hoff hon => ?_, fun hon hoff hcheck => ?_, fun hon hoff hcheck => ?_, fun hcheck => ?_⟩
  · rw [honline hoff hon, State.serviceOnline_drive]
  · rw [hoffline hon hoff, State.serviceOffline_eq hcheck]
    split
    · rfl
    · exact State.setDrive_drive_self
  · have hrecheck : s.serviceOffline d = s.recheck d true := by
      unfold State.serviceOffline
      rw [show (s.drive d).state = .check from hcheck]
    obtain ⟨hreleased, hloaded, hneither⟩ := State.recheck_drive (offline := true) hcheck
    rw [hoffline hon hoff, hrecheck]
    cases hrel : y.sense.released with
    | true =>
      obtain ⟨hstate, hon⟩ := hreleased hrel
      exact ⟨hon, hstate⟩
    | false =>
      cases hload : y.sense.loaded with
      | true =>
        obtain ⟨hstate, hon, _⟩ := hloaded hrel hload
        exact ⟨hon, hstate⟩
      | false =>
        obtain ⟨hstate, hon, _⟩ := hneither hrel hload
        exact ⟨hon, hstate⟩
  · by_cases heq : y.online = is
    · rw [hsame heq]
      exact ⟨fun _ _ => rfl, rfl⟩
    · cases is with
      | true =>
        rw [honline (Bool.eq_false_iff.mpr heq) rfl]
        exact State.serviceOnline_rest
      | false =>
        rw [hoffline (Bool.eq_true_of_not_eq_false heq) rfl, State.serviceOffline_eq hcheck]
        split
        · exact ⟨fun _ _ => rfl, rfl⟩
        · exact ⟨fun c hc => State.setDrive_drive_ne hc, rfl⟩

theorem State.driveServed_wiring {was is : Bool} : ((s.driveServed d was is).drive d).wiring = (s.drive d).wiring := by
  have honline : Keeps noLaw s (s.serviceOnline d) := (Keeps.refl s).serviceOnline
  have hoffline : Keeps noLaw s (s.serviceOffline d) := (Keeps.refl s).serviceOffline
  unfold State.driveServed
  split
  · rfl
  · split
    · exact honline.drives d
    · exact hoffline.drives d

/-- What a taken drive write leaves (R46). -/
theorem driveWritten_of {w : DriveFields} {c : Cursor} {k : Fin 13} : driveWritten s ((s.takeDriveWrite d w).setCursor k c) d w := by
  let served := (s.driveSet d w).driveServed d (s.drive d).online w.online
  have hset : (s.driveSet d w).drive d = rewired (s.drive d) w := State.driveSet_drive
  obtain ⟨hothers, hdir⟩ := State.driveSet_rest (s := s) (d := d) (w := w)
  have hserved := State.driveServed_spec (s := s.driveSet d w) (d := d) (was := (s.drive d).online) (is := w.online) (by rw [hset]; rfl)
  rw [hset] at hserved
  have hnotified : (∀ c, (s.takeDriveWrite d w).drive c = served.drive c) ∧ (s.takeDriveWrite d w).dir = served.dir := by
    rw [State.takeDriveWrite_eq]
    dsimp only
    split
    · exact ⟨fun _ => State.notify_drive, State.notify_dir⟩
    · exact ⟨fun _ => rfl, rfl⟩
  obtain ⟨hdrives, hdirs⟩ := hnotified
  have hdrive (x : Fin 16) : ((s.takeDriveWrite d w).setCursor k c).drive x = served.drive x := hdrives x
  unfold driveWritten
  dsimp only
  rw [hdrive d]
  obtain ⟨hsame, honline, hoffline, hcheck, hrest⟩ := hserved
  refine ⟨hsame, honline, hoffline, hcheck, fun hstate => ?_, fun hatRest hidle hinstalled hon hempty => ?_⟩
  · obtain ⟨hkept, hkeptDir⟩ := hrest hstate
    exact ⟨fun x hx => ((hdrive x).trans (hkept x hx)).trans (hothers x hx), (hdirs.trans hkeptDir).trans hdir⟩
  · change Notice.walk ∈ (s.takeDriveWrite d w).notices
    have hcalls : ((s.drive d).atRest && !((s.drive d).installed && (s.drive d).online) && (served.drive d).claimable) = true := by
      have hatRest' : (s.drive d).atRest = true := by simpa [Drive.atRest] using hatRest
      have hidle' : ((s.drive d).installed && (s.drive d).online) = false := by simpa [← Bool.not_eq_true, Bool.and_eq_true] using hidle
      rw [hatRest', hidle', Drive.claimable, hinstalled, hon, hempty]
      rfl
    rw [State.takeDriveWrite_eq]
    dsimp only
    rw [if_pos hcalls]
    exact State.mem_notify

/-! ### The owners' answers -/

section
variable {a b used : Byte} {fields : List Byte} (hlength : 27 ≤ fields.length)
include hlength

theorem State.writeDirectory_unknown (h : 1 < used.toNat) : s.writeDirectory i (a :: b :: used :: fields) = .error .badField := by
  unfold State.writeDirectory
  dsimp only
  rw [if_neg (Nat.not_lt.mpr hlength), yesNo_none h]

theorem State.writeDirectory_free : s.writeDirectory i (a :: b :: 0 :: fields) =
    if s.protected? i then .error .inUse else .ok (s.freeEntry i) := if_neg (Nat.not_lt.mpr hlength)

theorem State.writeDirectory_unread (h : writtenVolume fields = none) : s.writeDirectory i (a :: b :: 1 :: fields) = .error .badField := by
  unfold State.writeDirectory
  dsimp only
  rw [if_neg (Nat.not_lt.mpr hlength), yesNo_one]
  dsimp only
  rw [h]

theorem State.writeDirectory_kept (h : writtenVolume fields = some v) : s.writeDirectory i (a :: b :: 1 :: fields) =
    if s.protected? i then .error .inUse
    else if s.dir.entries.any (fun x => x.1 != i && x.2.serial == v.serial) then .error .duplicateSerial
    else if s.slotTaken i v then .error .slotTaken
    else .ok (s.writeVolume i v) := by
  unfold State.writeDirectory
  dsimp only
  rw [if_neg (Nat.not_lt.mpr hlength), yesNo_one]
  dsimp only
  rw [h]

end

theorem duplicate_iff : (∃ x ∈ s.dir.entries, x.1 ≠ i ∧ x.2.serial = v.serial) ↔
    s.dir.entries.any (fun x => x.1 != i && x.2.serial == v.serial) = true := by
  simp

section
variable {entry : List Byte} (hfree : s.Free)
include hfree

/-- A directory entry that is freed (R22). -/
theorem State.Free.entry_freed (hwrites : s.Writes 0) (hlawful : s.DirectoryLawful)
    (h : s.writeDirectory s.port.cursors[(0 : Fin 13)].index entry = .ok (s.freeEntry s.port.cursors[(0 : Fin 13)].index)) :
    let i := s.port.cursors[(0 : Fin 13)].index
    (∃ t, exec (.writeEntry entry) s = .next t ∧ t.port.sending = some ⟨doneOf 3 [], t.summary⟩ ∧
      t.volumeIdentities = eraseAt i s.volumeIdentities) ∧
    ∃ u, taken (.writeEntry entry) 3 s (moved s 0) u ∧ entryFreed s u i := by
  intro i
  have htaken := hfree.write_told hwrites rfl h
  obtain ⟨t, hexec, hsending, _, hidentities, _⟩ := taken_end htaken
  have hentries : ((s.freeEntry i).setCursor 0 (movedCursor 0 s.port.cursors[(0 : Fin 13)])).dir.entries = eraseAt i s.dir.entries :=
    State.freeEntry_spec.1
  refine ⟨⟨t, hexec, hsending, ?_⟩, _, htaken, entryFreed_of hlawful⟩
  rw [hidentities (by rw [hentries]; exact canonical_eraseAt i _ hlawful.1)]
  unfold State.volumeIdentities
  rw [hentries]
  exact map_eraseAt_pairs Volume.identity

/-- A directory entry that is written (R21). -/
theorem State.Free.entry_written (hwrites : s.Writes 0) (hlawful : s.DirectoryLawful)
    (h : s.writeDirectory s.port.cursors[(0 : Fin 13)].index entry = .ok (s.writeVolume s.port.cursors[(0 : Fin 13)].index v))
    (htakenSlot : s.slotTaken s.port.cursors[(0 : Fin 13)].index v = false) (hhome : v.loc = .home → ∃ n, v.home = some n) :
    let i := s.port.cursors[(0 : Fin 13)].index
    (∃ t, exec (.writeEntry entry) s = .next t ∧ t.port.sending = some ⟨doneOf 3 [], t.summary⟩ ∧
      t.volumeIdentities = insertAt i (v.serial, v.home) s.volumeIdentities) ∧
    ∃ u, taken (.writeEntry entry) 3 s (moved s 0) u ∧ entryWritten s u i v := by
  intro i
  have htaken := hfree.write_told hwrites rfl h
  obtain ⟨t, hexec, hsending, _, hidentities, _⟩ := taken_end htaken
  have hentries : ((s.writeVolume i v).setCursor 0 (movedCursor 0 s.port.cursors[(0 : Fin 13)])).dir.entries = insertAt i v s.dir.entries :=
    State.writeVolume_spec.1
  refine ⟨⟨t, hexec, hsending, ?_⟩, _, htaken, entryWritten_of hlawful htakenSlot hhome⟩
  rw [hidentities (by rw [hentries]; exact canonical_insertAt i v _ hlawful.1)]
  unfold State.volumeIdentities
  rw [hentries]
  exact map_insertAt_pairs Volume.identity

/-- A drive that is written (R46). -/
theorem State.Free.drive_written {w : DriveFields} (hwrites : s.Writes 3)
    (h : s.ownerWrite (tableAt (3 : Fin 13)) s.port.cursors[(3 : Fin 13)].index entry = .ok (s.takeDriveWrite d w)) :
    (∃ t, exec (.writeEntry entry) s = .next t ∧ t.port.sending = some ⟨doneOf 3 [], t.summary⟩ ∧
      ((t.drive d).installed, (t.drive d).column, (t.drive d).densities) = (w.installed, w.column, w.densities) ∧
      ((t.drive d).debounce, (t.drive d).edges) = (w.debounce, w.edges)) ∧
    ∃ u, taken (.writeEntry entry) 3 s (moved s 3) u ∧ driveWritten s u d w := by
  have htaken := hfree.write_told hwrites rfl h
  obtain ⟨t, hexec, hsending, _, _, hwiring⟩ := taken_end htaken
  have hwritten : ((s.takeDriveWrite d w).drive d).wiring = (rewired (s.drive d) w).wiring := by
    have hserved : (((s.driveSet d w).driveServed d (s.drive d).online w.online).drive d).wiring = (rewired (s.drive d) w).wiring :=
      State.driveServed_wiring.trans (congrArg Drive.wiring State.driveSet_drive)
    rw [State.takeDriveWrite_eq]
    dsimp only
    split
    · rw [State.notify_drive]
      exact hserved
    · exact hserved
  have hfields : (t.drive d).wiring = (rewired (s.drive d) w).wiring := (hwiring d).trans hwritten
  refine ⟨⟨t, hexec, hsending, ?_, ?_⟩, _, htaken, driveWritten_of⟩
  · exact congrArg (fun x => x.1) hfields
  · exact congrArg (fun x => x.2.1) hfields

end

/-- Settles O23, table by table: the owner's checks, then what the taken write leaves. -/
theorem directoryFenceAndDriveWrites : Obligations.DirectoryFenceAndDriveWrites := by
  refine ⟨readsEntries_holds, fun s a b used fields hfree hlawful hcurrent hinside hlength => ?directory,
    fun s entry hfree hcurrent hinside => ?fences, fun s entry d hfree hcurrent hindex => ?drives⟩
  case directory =>
    intro i entry
    have hwrites : s.Writes 0 := ⟨hcurrent, by decide, hinside⟩
    have hrefused {r : Reason} (h : s.writeDirectory i entry = .error r) : exec (.writeEntry entry) s = .next (s.sends [refusedOf 3 r.code]) :=
      hfree.write_refused hwrites h
    refine ⟨fun h => hrefused (State.writeDirectory_unknown hlength h), ?_, ?_, ?_, ?_⟩
    · rintro rfl hprotected
      exact hrefused (r := .inUse) ((State.writeDirectory_free hlength).trans (if_pos hprotected))
    · rintro rfl hopen
      exact hfree.entry_freed hwrites hlawful.1 ((State.writeDirectory_free hlength).trans (if_neg (by rw [hopen]; exact Bool.false_ne_true)))
    · rintro rfl hunread
      exact hrefused (State.writeDirectory_unread hlength hunread)
    · rintro v rfl hread
      have hwrite : s.writeDirectory i entry = _ := State.writeDirectory_kept hlength hread
      refine ⟨fun hprotected => hrefused (r := .inUse) (hwrite.trans (if_pos hprotected)), fun hopen hdouble => ?_, fun hopen hsingle htaken => ?_,
        fun hopen hsingle htaken => ?_⟩
      all_goals rw [hopen, if_neg Bool.false_ne_true] at hwrite
      · exact hrefused (r := .duplicateSerial) (hwrite.trans (if_pos (duplicate_iff.mp hdouble)))
      · exact hrefused (r := .slotTaken) (hwrite.trans ((if_neg (mt duplicate_iff.mpr hsingle)).trans (if_pos htaken)))
      · refine hfree.entry_written hwrites hlawful.1 ?_ htaken (writtenVolume_home hread)
        exact hwrite.trans ((if_neg (mt duplicate_iff.mpr hsingle)).trans (if_neg (by rw [htaken]; exact Bool.false_ne_true)))
  case fences =>
    have hwrites : s.Writes 2 := ⟨hcurrent, by decide, hinside⟩
    refine ⟨fun hnone => hfree.write_refused (r := .badField) hwrites ?_, fun f hf => ?_⟩
    · change s.writeFence _ entry = _
      unfold State.writeFence
      rw [hnone]
    · let i := s.port.cursors[(2 : Fin 13)].index
      let w := { s with dir := { s.dir with fences := s.dir.fences.setIfInBounds i f } }.notify .walk
      have hw : s.writeFence i entry = .ok w := by
        unfold State.writeFence
        rw [hf]
      obtain ⟨t, hexec, hsending, hfences, _⟩ := taken_end (hfree.write_told (w := w) hwrites rfl hw)
      refine ⟨t, hexec, hsending, hfences.trans ?_⟩
      change w.dir.fences = _
      rw [State.notify_dir]
  case drives =>
    have hwrites : s.Writes 3 := ⟨hcurrent, by decide, by rw [hindex]; exact d.isLt⟩
    have howner : s.ownerWrite (tableAt (3 : Fin 13)) s.port.cursors[(3 : Fin 13)].index entry = s.writeDrive d entry := by
      rw [hindex]
      exact dif_pos d.isLt
    refine ⟨fun hnone => hfree.write_refused (r := .badField) hwrites (howner.trans ?_), fun w hw => ?_⟩
    · unfold State.writeDrive
      rw [hnone]
    · intro x rests same
      have hsame : (x.installed == w.installed && x.column == w.column && x.densities == w.densities) = true ↔ same := by
        simp only [Bool.and_eq_true, beq_iff_eq, same, and_assoc]
      have hrest : x.atRest = true ↔ rests := by simp [Drive.atRest, rests]
      have hheld : (!(x.installed == w.installed && x.column == w.column && x.densities == w.densities) && !x.atRest) = true ↔ ¬rests ∧ ¬same := by
        rw [Bool.and_eq_true, Bool.not_eq_true', Bool.not_eq_true', ← Bool.not_eq_true, ← Bool.not_eq_true, hsame, hrest, and_comm]
      have hwrite : s.writeDrive d entry = if (!(x.installed == w.installed && x.column == w.column && x.densities == w.densities) &&
          !x.atRest) = true then .error .inUse else .ok (s.takeDriveWrite d w) := by
        unfold State.writeDrive
        rw [hw]
      refine ⟨fun hbusy hchanged => hfree.write_refused (r := .inUse) hwrites ?_, fun hallowed => hfree.drive_written hwrites ?_⟩
      · exact howner.trans (hwrite.trans (if_pos (hheld.mpr ⟨hbusy, hchanged⟩)))
      · exact howner.trans (hwrite.trans (if_neg (fun h => hallowed.elim (hheld.mp h).1 (hheld.mp h).2)))

end Sys2Proof.Machine
end

section
/-! PROOFS. Requests that are accepted (O35): how they join the queue, and how a DEMOUNT and a MOUNT are resolved at their taking. -/

namespace Sys2Proof.Machine

variable {s t u w : State} {d : Fin 16} {e h n : Nat} {tag : Half} {r q : Request} {v : Volume} {k : RequestKind} {f : RequestFields}

/-! ### The checks passed (R50) -/

theorem firstRefusal_none {l : List (Bool × Reason)} (h : firstRefusal l = none) : ∀ x ∈ l, x.1 = false := by
  induction l with
  | nil => simp
  | cons y rest ih =>
    obtain ⟨failed, reason⟩ := y
    cases failed with
    | true => cases h
    | false =>
      have hrest : firstRefusal rest = none := h
      intro x hx
      rcases List.mem_cons.mp hx with rfl | hx
      · rfl
      · exact ih hrest x hx

theorem State.refusal_fresh (h : s.refusal k f = none) : s.request? f.tag = none := by
  have hnone := firstRefusal_none h ((s.request? f.tag).isSome, .duplicateTag) (List.mem_append_left _ (by simp [State.commonChecks]))
  exact Option.not_isSome_iff_eq_none.mp (Bool.eq_false_iff.mp hnone)

/-- The volume of a MOUNT that is not refused is neither MISSING nor on a drive, and a directed drive suits it (R50). -/
theorem State.refusal_mount (h : s.refusal .mount f = none) (hv : s.namedVolume f = some v) :
    v.loc ≠ .missing ∧ ∀ d, requestDrive f = some d → (s.drive d).installed = true ∧ (s.drive d).online = true ∧
      (s.drive d).suits (wantedDensity (s.newRequest .mount f) v) = true := by
  have hall := firstRefusal_none h
  have hmissing := hall ((s.namedVolume f).any (fun v => v.loc == .missing), .missing)
    (List.mem_append_right _ (List.mem_append_left _ (List.mem_append_right _ (by simp [State.volumeChecks]))))
  have hdirected := hall (!(s.directedFits f (s.namedVolume f)), .driveUnsuitable) (List.mem_append_right _ (List.mem_append_right _ (by simp)))
  rw [hv] at hmissing hdirected
  refine ⟨by simpa using hmissing, fun d hd => ?_⟩
  have hfits : s.directedFits f (some v) = true := by simpa using hdirected
  unfold State.directedFits at hfits
  rw [hd] at hfits
  rw [Bool.and_eq_true, Bool.and_eq_true] at hfits
  obtain ⟨⟨hinstalled, honline⟩, hsuits⟩ := hfits
  refine ⟨hinstalled, honline, ?_⟩
  rw [Option.bind_some] at hsuits
  unfold wantedDensity
  cases hdensity : v.density with
  | none =>
    rw [hdensity] at hsuits
    exact hsuits
  | some y =>
    rw [hdensity] at hsuits
    exact hsuits

/-! ### A request that joins the queue (R51) -/

/-- The part with the request of a frame at the end of the queue. -/
def State.joined (s : State) (k : RequestKind) (f : RequestFields) : State := s.joinQueue (s.newRequest k f)

theorem State.joined_request? (hfresh : s.request? f.tag = none) : (s.joined k f).request? f.tag = some (s.newRequest k f) := by
  change (s.ms.queue ++ [s.newRequest k f]).find? (fun r => r.tag == f.tag) = _
  rw [List.find?_append, show s.ms.queue.find? (fun r => r.tag == f.tag) = none from hfresh]
  rw [Option.none_or]
  exact List.find?_cons_of_pos (a := s.newRequest k f) (p := fun r => r.tag == f.tag) (beq_self_eq_true f.tag)

/-- Another request names a volume exactly when one of the queue before did. -/
theorem State.joined_othersName (hfresh : s.request? f.tag = none) :
    (s.joined k f).othersName f.tag e = true ↔ ∃ r ∈ s.ms.queue, r.volume = some e := by
  have hothers : ∀ r ∈ s.ms.queue, r.tag ≠ f.tag := fun r hr => by simpa using List.find?_eq_none.mp hfresh r hr
  unfold State.othersName State.joined State.joinQueue
  rw [List.any_eq_true]
  constructor
  · rintro ⟨r, hr, hnames⟩
    rw [Bool.and_eq_true, beq_iff_eq, bne_iff_ne] at hnames
    rcases List.mem_append.mp hr with hr | hr
    · exact ⟨r, hr, hnames.2⟩
    · rw [List.mem_singleton.mp hr] at hnames
      exact absurd rfl hnames.1
  · rintro ⟨r, hr, hvolume⟩
    exact ⟨r, List.mem_append_left _ hr, by simp [hothers r hr, hvolume]⟩

/-! ### A request without a prompt that enters a state (R54) -/

/-- A request in a state it has entered. -/
def Request.entered (r : Request) (st : ReqState) (reason : Option WaitReason) (timer : Option Nat) : Request :=
  { r with state := st, reason := reason, prompt := none, resume := none, timer := timer }

section
variable {st : ReqState} {reason : Option WaitReason} (hr : s.request? tag = some r) (hprompt : r.prompt = none)
include hr hprompt

theorem State.enter_unprompted : s.enter tag st reason = s.updRequest tag (fun x => x.entered st reason (s.timerIn x st)) := by
  have hsame : s.withdrawPrompt tag = s := by
    unfold State.withdrawPrompt
    rw [hr, Option.bind_some, hprompt]
  unfold State.enter
  rw [hsame]
  rfl

theorem State.enter_unprompted_request? : (s.enter tag st reason).request? tag = some (r.entered st reason (s.timerIn r st)) := by
  rw [State.enter_unprompted hr hprompt, State.updRequest_request? (f := fun x => x.entered st reason (s.timerIn x st)) (fun _ => rfl), hr,
    Option.map_some, if_pos (State.request?_tag hr)]

end

/-! ### A DEMOUNT (R60) -/

/-- The part with the pending outcome of a DEMOUNT. -/
def State.demounting (s : State) (tag : Half) (d : Fin 16) : State := s.updRequest tag (fun r => { r with pending := some (.demounted d) })

theorem State.demounting_request? (hr : s.request? tag = some r) :
    (s.demounting tag d).request? tag = some { r with pending := some (.demounted d) } := by
  unfold State.demounting
  rw [State.updRequest_request? (f := fun r => { r with pending := some (.demounted d) }) (fun _ => rfl), hr, Option.map_some,
    if_pos (State.request?_tag hr)]

theorem State.unload_request? : (s.unload d).request? tag = s.request? tag := by
  unfold State.unload
  split
  case h_4 =>
    rw [State.notify_request?]
    rfl
  all_goals rfl

theorem State.unload_drive (hstate : (s.drive d).state = .loaded ∨ (s.drive d).state = .unloading) :
    ((s.unload d).drive d).state = .unloading ∧ ((s.unload d).drive d).pulse = some (.unload, s.pulseWidth) ∧
      ((s.drive d).state = .loaded → ((s.unload d).drive d).releaseTimer = some s.releaseLimit) := by
  have hset {y : State} {g : Drive → Drive} : (y.updDrive d g).drive d = g (y.drive d) := State.updDrive_drive_self
  rcases hstate with h | h
  · have hdrive : (s.unload d).drive d = { s.drive d with
        labelTimer := none, pulse := some (.unload, s.pulseWidth), state := .unloading, releaseTimer := some s.releaseLimit } := by
      unfold State.unload State.startPulse State.setDriveState State.startReleaseTimer State.stopLabelTimer
      rw [h]
      dsimp only
      rw [hset, hset, hset, hset]
      rfl
    rw [hdrive]
    exact ⟨rfl, rfl, fun _ => rfl⟩
  · have hdrive : (s.unload d).drive d = { s.drive d with labelTimer := none, pulse := some (.unload, s.pulseWidth) } := by
      unfold State.unload State.startPulse State.stopLabelTimer
      rw [h]
      dsimp only
      rw [hset, hset]
      rfl
    rw [hdrive]
    exact ⟨h, rfl, fun hloaded => by rw [h] at hloaded; cases hloaded⟩

theorem demountTaken_of (hr : s.request? tag = some r) (hprompt : r.prompt = none) : demountTaken s (s.resolveDemount tag d) tag d := by
  let x := s.demounting tag d
  have hx : x.request? tag = some { r with pending := some (.demounted d) } := State.demounting_request? hr
  have hunloads (hstate : (s.drive d).state = .loaded ∨ (s.drive d).state = .unloading) :
      s.resolveDemount tag d = (x.enter tag .releasing none).unload d := by
    unfold State.resolveDemount
    dsimp only
    rw [State.updRequest_drive]
    rcases hstate with h | h <;> rw [h] <;> rfl
  have hentered : x.enter tag .releasing none = x.updRequest tag (fun y => y.entered .releasing none (x.timerIn y .releasing)) :=
    State.enter_unprompted hx hprompt
  have hdrive : (x.enter tag .releasing none).drive d = s.drive d := by rw [hentered]; rfl
  refine ⟨fun hstate => ?_, fun hstate => ?_, fun hstate o ho => ?_, fun hstate hnone hidle => ?_⟩
  · have hunloaded := State.unload_drive (s := x.enter tag .releasing none) (d := d) (by rw [hdrive]; exact hstate)
    rw [hunloads hstate]
    refine ⟨⟨_, State.unload_request?.trans (State.enter_unprompted_request? hx hprompt), rfl, rfl⟩, hunloaded.1, ?_⟩
    rw [hunloaded.2.1, hentered]
    rfl
  · have hunloaded := State.unload_drive (s := x.enter tag .releasing none) (d := d) (by rw [hdrive]; exact Or.inl hstate)
    rw [hunloads (Or.inl hstate), hunloaded.2.2 (by rw [hdrive]; exact hstate), hentered]
    rfl
  · have hjoins : s.resolveDemount tag d = x.joinOrder tag o.id := by
      unfold State.resolveDemount
      dsimp only
      rw [State.updRequest_drive, hstate]
      dsimp only
      rw [show (s.updRequest tag (fun r => { r with pending := some (.demounted d) })).returnOrder d = some o from ho]
      rfl
    let y := (x.updOrder o.id (fun p => { p with tag := some tag })).enter tag .returning none
    have hy : y.request? tag = some _ := State.enter_unprompted_request? (s := x.updOrder o.id (fun p => { p with tag := some tag })) hx hprompt
    have hjoined : (x.joinOrder tag o.id).request? tag = (y.request? tag).map (fun q => if q.tag = tag then { q with order := some o.id } else q) :=
      State.updRequest_request? (f := fun q => { q with order := some o.id }) (fun _ => rfl)
    rw [hjoins]
    refine ⟨⟨_, hjoined.trans (by rw [hy, Option.map_some, if_pos (State.request?_tag hy)]), rfl, rfl, rfl⟩, fun p hp hid => ?_⟩
    have hpool : (x.joinOrder tag o.id).sch.pool = s.sch.pool.map (fun p => if p.id = o.id then { p with tag := some tag } else p) := by
      change y.sch.pool = _
      rw [State.enter_sch]
      rfl
    rw [hpool] at hp
    obtain ⟨p', _, rfl⟩ := List.mem_map.mp hp
    by_cases hp' : p'.id = o.id
    · rw [if_pos hp']
    · rw [if_neg hp'] at hid
      exact absurd hid hp'
  · have hreturns : s.resolveDemount tag d = x.enter tag .releasing none := by
      have hsch : (x.enter tag .releasing none).returnOrder d = none := by
        unfold State.returnOrder
        rw [State.enter_sch]
        exact hnone
      have hservice : ¬(x.enter tag .releasing none).service = .active := by
        change ¬(x.enter tag .releasing none).svc.state = .active
        rw [State.enter_svc]
        exact hidle
      have hjoin : (x.enter tag .releasing none).joinReturn d = x.enter tag .releasing none := by
        unfold State.joinReturn
        rw [hsch]
      have htry : (x.enter tag .releasing none).tryReturn d = x.enter tag .releasing none := by
        unfold State.tryReturn
        rw [hjoin]
        exact if_pos hservice
      unfold State.resolveDemount
      dsimp only
      rw [State.updRequest_drive, hstate]
      dsimp only
      rw [show (s.updRequest tag (fun r => { r with pending := some (.demounted d) })).returnOrder d = none from hnone]
      exact htry
    rw [hreturns]
    exact ⟨⟨_, State.enter_unprompted_request? hx hprompt, rfl, rfl⟩, by rw [State.enter_sch]; rfl⟩

/-! ### A MOUNT (R57, R61 to R64) -/

/-- The choice of a directed drive for a volume at home (R62). -/
theorem State.chooseDrive_directed (hdrive : r.drive = some d) (hloc : v.loc = .home) (hhome : v.home = some h) :
    (((s.drive d).claimable && (s.drive d).suits (wantedDensity r v)) = false → s.chooseDrive r v = .error .drive) ∧
    (((s.drive d).claimable && (s.drive d).suits (wantedDensity r v)) = true →
      s.chooseDrive r v = if s.placesReach (.slot h) (.drive d) then .ok d else .error .arm) := by
  have hplace : v.place = some (.slot h) := by
    unfold Volume.place
    rw [hloc, hhome]
    rfl
  refine ⟨fun hunfit => ?_, fun hfit => ?_⟩
  · unfold State.chooseDrive
    rw [hdrive]
    dsimp only
    rw [List.filter_cons_of_neg (by rw [hunfit]; exact Bool.false_ne_true), List.filter_nil]
  · unfold State.chooseDrive
    rw [hdrive]
    dsimp only
    rw [List.filter_cons_of_pos (p := fun d => (s.drive d).claimable && (s.drive d).suits (wantedDensity r v)) hfit, List.filter_nil]
    by_cases hreach : s.placesReach (.slot h) (.drive d) = true
    · rw [List.filter_cons_of_pos (p := fun d => v.place.all (fun q => s.placesReach q (.drive d))) (by rw [hplace]; exact hreach), if_pos hreach]
      rfl
    · rw [List.filter_cons_of_neg (p := fun d => v.place.all (fun q => s.placesReach q (.drive d))) (by rw [hplace]; exact hreach), if_neg hreach]
      rfl

/-- A request in WAIT_DRIVE that waits on (R63). -/
theorem State.examine_waits (hr : s.request? tag = some r) (hvolume : r.volume = some e) (hv : s.vol? e = some v) (hloc : v.loc ≠ .missing) :
    (s.accountRoom r.account = false → s.examine tag = s.enter tag .waitDrive (some .account)) ∧
    (s.accountRoom r.account = true → s.recordRoom = false → s.examine tag = s.enter tag .waitDrive (some .records)) ∧
    (s.accountRoom r.account = true → s.recordRoom = true → ∀ reason, s.chooseDrive r v = .error reason →
      s.examine tag = s.enter tag .waitDrive (some reason)) ∧
    (s.accountRoom r.account = true → s.recordRoom = true → v.loc ≠ .outside → s.chooseDrive r v = .ok d →
      s.examine tag = (s.grant r d none).afterGrant tag d none) := by
  have hfound : r.volume.bind (fun e => (s.vol? e).map (fun v => (e, v))) = some (e, v) := by
    rw [hvolume, Option.bind_some, hv]
    rfl
  unfold State.examine
  rw [hr]
  dsimp only
  rw [hfound]
  dsimp only
  rw [if_neg hloc]
  refine ⟨fun hfull => ?_, fun hroom hfull => ?_, fun hroom hrecords reason hchoice => ?_, fun hroom hrecords hinside hchoice => ?_⟩
  · rw [hfull]
    exact if_pos rfl
  · rw [hroom, hfull]
    rfl
  · rw [hroom, hrecords, hchoice]
    rfl
  · rw [hroom, hrecords, hchoice]
    dsimp only
    rw [if_neg hinside]
    rfl

/-- What a grant leaves: the drive CLAIMED by the request, and one record more reserved (R63). -/
theorem State.grant_spec (hr : s.request? tag = some r) :
    (s.grant r d none).request? tag = some { r with claimed := some d, reason := none } ∧
    (s.grant r d none).drive d = { s.drive d with state := .claimed, claim := some (s.newClaim r none) } ∧
    (s.grant r d none).acc.reserved = s.acc.reserved + 1 ∧ (s.grant r d none).dir = s.dir ∧ (s.grant r d none).sch = s.sch := by
  let c := (s.updDrive d (fun x => { x with state := .claimed, claim := some (s.newClaim r none) }))
  have hcounted : (c.countGrant r.account).drv = c.drv ∧ (c.countGrant r.account).ms = c.ms ∧ (c.countGrant r.account).dir = c.dir ∧
      (c.countGrant r.account).sch = c.sch ∧ (c.countGrant r.account).acc.reserved = c.acc.reserved + 1 := by
    unfold State.countGrant State.updAccount
    dsimp only
    split <;> exact ⟨rfl, rfl, rfl, rfl, rfl⟩
  obtain ⟨hdrv, hms, hdir, hsch, hreserved⟩ := hcounted
  have hgranted : s.grant r d none = (c.countGrant r.account).updRequest r.tag (fun r => { r with claimed := some d, reason := none }) := rfl
  rw [hgranted]
  refine ⟨?_, ?_, hreserved, hdir, hsch⟩
  · have hfound : (c.countGrant r.account).request? tag = some r := by
      unfold State.request?
      rw [hms]
      exact hr
    rw [State.updRequest_request? (f := fun r => { r with claimed := some d, reason := none }) (fun _ => rfl), hfound, Option.map_some, if_pos rfl]
  · rw [State.updRequest_drive]
    unfold State.drive
    rw [hdrv]
    exact State.updDrive_drive_self

/-- The order of a request that has its drive, for a volume at home (R64): a FETCH where the pool has room, else the request waits for an arm. -/
theorem State.askOrder_fetch (hr : s.request? tag = some r) (hkind : r.kind = .mount) (hvolume : r.volume = some e)
    (hv : s.vol? e = some v) (hloc : v.loc = .home) (hhome : v.home = some h) (hclaimed : r.claimed = some d)
    (hclaim : (s.drive d).claimTag = some tag) :
    (28 ≤ s.sch.pool.length → s.askOrder tag = s.enter tag .waitArm (some .arm)) ∧
    (s.sch.pool.length < 28 → ∃ w o, w.sch.pool = s.sch.pool ++ [o] ∧ o.kind = .fetch ∧ o.source = some (.slot h) ∧ o.dest = some (.drive d) ∧
      o.volume = some e ∧ o.tag = some tag ∧ SchedOnly s w ∧
      s.askOrder tag = (w.enter tag .waitArm none).updRequest tag (fun r => { r with order := some o.id })) := by
  have hfound : r.volume.bind (fun e => (s.vol? e).map (fun v => (e, v))) = some (e, v) := by
    rw [hvolume, Option.bind_some, hv]
    rfl
  have hfetchable : s.fetchable v = true := by
    unfold State.fetchable
    rw [hloc]
  have hplace : v.place = some (.slot h) := by
    unfold Volume.place
    rw [hloc, hhome]
    rfl
  have hown : s.ownDrive r = some d := by
    unfold State.ownDrive
    rw [hclaimed]
    exact Option.filter_some_pos (by rw [hclaim, State.request?_tag hr, beq_self_eq_true])
  have hasks : s.askOrder tag = match s.createCarry .fetch (.slot h) (.drive d) e (some tag) with
      | some (w, id) => (w.enter tag .waitArm none).updRequest tag (fun r => { r with order := some id })
      | none => s.enter tag .waitArm (some .arm) := by
    unfold State.askOrder
    rw [hr]
    dsimp only
    rw [hfound]
    dsimp only
    rw [if_neg (by rw [hloc]; exact Loc.noConfusion), if_pos hfetchable, hplace]
    dsimp only
    rw [hkind]
    dsimp only
    rw [hown] <;> rfl
  refine ⟨fun hfull => ?_, fun hroom => ?_⟩
  · have hnone : s.createCarry .fetch (.slot h) (.drive d) e (some tag) = none := State.createOrder_full (Nat.not_lt.mpr hfull)
    rw [hasks, hnone]
  · obtain ⟨w, o, hcreated, hpool, _, hokind, hsource, hdest, hovolume, hotag, hsched⟩ :=
      State.createOrder_room (s := s) (kind := .fetch) (source := some (.slot h)) (dest := some (.drive d)) (volume := some e) (tag := some tag)
        (legs := s.carryLegs (.slot h) (.drive d)) hroom
    have hcarry : s.createCarry .fetch (.slot h) (.drive d) e (some tag) = some (w, o.id) := hcreated
    refine ⟨w, o, hpool, hokind, hsource, hdest, hovolume, hotag, hsched, ?_⟩
    rw [hasks, hcarry]

/-- A request resolved to a named volume that is not suspect (R57): it waits for the one that names it, or goes on to its drive. -/
theorem State.resolveNamed_mount (hr : s.request? tag = some r) (hkind : r.kind = .mount) (he : s.entryOf r.serial = some e) (hv : s.vol? e = some v)
    (hsuspect : v.suspect = false) (hmissing : v.loc ≠ .missing) :
    (s.othersName tag e = true → s.resolveNamed tag =
      (s.updRequest tag (fun r => { r with volume := none })).enter tag .waitVolume (some .volume)) ∧
    (s.othersName tag e = false → v.loc = .home → s.resolveNamed tag =
      (s.updRequest tag (fun r => { r with volume := some e })).enter tag .waitDrive none) := by
  have hfound : (s.entryOf r.serial).bind (fun e => (s.vol? e).map (fun v => (e, v))) = some (e, v) := by
    rw [he, Option.bind_some, hv]
    rfl
  have hthere {b : Bool} : ¬(v.loc = .missing ∧ b = false) := fun h => hmissing h.1
  have hproceeds : ¬(r.kind = .mount ∧ v.suspect = true ∧ r.proceeded ≠ some e) := fun h => by
    rw [hsuspect] at h
    exact Bool.false_ne_true h.2.1
  unfold State.resolveNamed
  rw [hr]
  dsimp only
  rw [hfound]
  dsimp only
  rw [if_neg hthere, if_neg hproceeds]
  refine ⟨fun htaken => if_pos htaken, fun hfree hhome => ?_⟩
  have hstate : s.stateFor r v = .waitDrive := by
    have hfetchable : s.fetchable v = true := by
      unfold State.fetchable
      rw [hhome]
    unfold State.stateFor
    rw [if_pos (Or.inl hfetchable), hkind]
    rfl
  have hnamed : s.nameVolume tag e = s.updRequest tag (fun r => { r with volume := some e }) := by
    unfold State.nameVolume
    exact if_neg (by rw [hfree]; exact Bool.false_ne_true)
  have hstate' : (s.nameVolume tag e).stateFor r v = .waitDrive := by
    rw [hnamed]
    exact hstate
  rw [if_neg (by rw [hfree]; exact Bool.false_ne_true), hkind, hhome]
  dsimp only
  rw [hstate', hnamed]
  rfl

/-- A QUEUED request at a walk: it is resolved, and examined where it waits for its drive (R65). -/
theorem State.walkStep_queued (hr : s.request? tag = some r) (hstate : r.state = .queued) (hresolved : s.resolve tag = w)
    (hq : w.request? tag = some q) :
    (q.state = .waitVolume → s.walkStep tag = w) ∧ (q.state = .waitDrive → s.walkStep tag = w.examine tag) := by
  unfold State.walkStep
  rw [hr]
  dsimp only [Option.map_some]
  rw [hstate]
  dsimp only
  rw [hresolved, hq]
  dsimp only
  exact ⟨fun h => by rw [h], fun h => by rw [h]⟩

/-- The request of a MOUNT once its volume is named, in WAIT_DRIVE. -/
def Request.named (r : Request) (e : Nat) (timer : Option Nat) : Request := { r with volume := some e }.entered .waitDrive none timer

/-- A MOUNT whose volume is at home and which no other request names: it is examined for its drive at once (R57, R63). -/
theorem mount_examined (hrefusal : s.refusal .mount f = none) (he : s.entryOf f.serial = some e) (hv : s.vol? e = some v)
    (hsuspect : v.suspect = false) (hfree : ¬∃ r ∈ s.ms.queue, r.volume = some e) (hhome : v.loc = .home) :
    ∃ (w : State) (timer : Option Nat), (s.joined .mount f).walkStep f.tag = w.examine f.tag ∧ w.request? f.tag = some ((s.newRequest .mount f).named e timer) ∧
      w = { s with ms := w.ms } := by
  have hfresh := State.refusal_fresh hrefusal
  let j := s.joined .mount f
  have hr : j.request? f.tag = some (s.newRequest .mount f) := State.joined_request? hfresh
  have hothers : j.othersName f.tag e = false := Bool.eq_false_iff.mpr (mt (State.joined_othersName hfresh).mp hfree)
  have hresolved := (State.resolveNamed_mount (s := j) (v := v) hr rfl he hv hsuspect (by rw [hhome]; exact Loc.noConfusion)).2 hothers hhome
  have hresolves : j.resolve f.tag = j.resolveNamed f.tag := by
    unfold State.resolve
    rw [hr]
    rfl
  let named := j.updRequest f.tag (fun r => { r with volume := some e })
  have hnamed : named.request? f.tag = some { s.newRequest .mount f with volume := some e } := by
    rw [State.updRequest_request? (f := fun r => { r with volume := some e }) (fun _ => rfl), hr, Option.map_some, if_pos (State.request?_tag hr)]
  have hentered := State.enter_unprompted_request? (st := .waitDrive) (reason := none) hnamed rfl
  refine ⟨named.enter f.tag .waitDrive none, _, (State.walkStep_queued hr rfl (hresolves.trans hresolved) hentered).2 rfl, hentered, ?_⟩
  rw [State.enter_unprompted hnamed rfl]
  rfl

/-- What a request in WAIT_DRIVE shows when it has been examined and waits on. -/
theorem Request.named_waits {timer : Option Nat} {reason : WaitReason} (hw : w.request? f.tag = some ((s.newRequest .mount f).named e timer)) :
    ∃ q, (w.enter f.tag .waitDrive (some reason)).request? f.tag = some q ∧ q.state = .waitDrive ∧ q.reason = some reason ∧ q.volume = some e ∧
      q.claimed = none :=
  ⟨_, State.enter_unprompted_request? hw rfl, rfl, rfl, rfl, rfl⟩

/-- What the grant of its directed drive leaves for a request whose volume is at home: its claim and one record more reserved, and the FETCH
where the pool has room (R63, R64). -/
theorem State.afterGrant_home (hr : s.request? tag = some r) (hkind : r.kind = .mount) (hvolume : r.volume = some e) (hv : s.vol? e = some v)
    (hloc : v.loc = .home) (hhome : v.home = some h) (hprompt : r.prompt = none) (horder : r.order = none)
    (hu : u = (s.grant r d none).afterGrant tag d none) :
    u.drive d = { s.drive d with state := .claimed, claim := some (s.newClaim r none) } ∧ u.acc.reserved = s.acc.reserved + 1 ∧
    (28 ≤ s.sch.pool.length → ∃ q, u.request? tag = some q ∧ q.state = .waitArm ∧ q.reason = some .arm ∧ q.claimed = some d ∧ q.order = none) ∧
    (s.sch.pool.length < 28 → ∃ o ∈ u.sch.pool, o.kind = .fetch ∧ o.source = some (.slot h) ∧ o.dest = some (.drive d) ∧ o.volume = some e ∧
      o.tag = some tag ∧
      ∃ q, u.request? tag = some q ∧ q.state = .waitArm ∧ q.claimed = some d ∧ q.volume = some e ∧ q.order = some o.id) := by
  obtain ⟨hgranted, hdrive, hreserved, hdir, hsch⟩ := State.grant_spec (d := d) hr
  let g := s.grant r d none
  let x := g.enter tag .waitArm none
  let q : Request := { r with claimed := some d, reason := none }.entered .waitArm none
    (g.timerIn { r with claimed := some d, reason := none } .waitArm)
  have hx : x.request? tag = some q := State.enter_unprompted_request? hgranted hprompt
  have hparts : x = { g with ms := x.ms } := by
    have hentered : x = g.updRequest tag _ := State.enter_unprompted hgranted hprompt
    rw [hentered]
    rfl
  have hxdrive : x.drive d = g.drive d := by rw [hparts]; rfl
  have hxacc : x.acc = g.acc := by rw [hparts]
  have hxsch : x.sch = s.sch := by rw [hparts]; exact hsch
  have hxv : x.vol? e = some v := by
    rw [hparts]
    unfold State.vol?
    rw [show ({ g with ms := x.ms } : State).dir = s.dir from hdir]
    exact hv
  have hclaim : (x.drive d).claimTag = some tag := by
    rw [hxdrive, hdrive]
    exact congrArg some (State.request?_tag hr)
  obtain ⟨hfull, hroom⟩ := State.askOrder_fetch hx hkind hvolume hxv hloc hhome rfl hclaim
  rw [hxsch] at hfull hroom
  rw [show u = x.askOrder tag from hu]
  rcases Nat.lt_or_ge s.sch.pool.length 28 with hlt | hge
  · obtain ⟨w, o, hpool, hokind, hsource, hdest, hovolume, hotag, hsched, hasked⟩ := hroom hlt
    have hw : w.request? tag = some q := by
      unfold SchedOnly at hsched
      rw [hsched]
      exact hx
    have hentered := State.enter_unprompted_request? (st := .waitArm) (reason := none) hw rfl
    have hwaiting : (x.askOrder tag).request? tag = some { q.entered .waitArm none (w.timerIn q .waitArm) with order := some o.id } := by
      rw [hasked, State.updRequest_request? (f := fun r => { r with order := some o.id }) (fun _ => rfl), hentered, Option.map_some,
        if_pos (State.request?_tag hentered)]
    have hkept : (x.askOrder tag).drv = x.drv ∧ (x.askOrder tag).acc = x.acc ∧ (x.askOrder tag).sch = w.sch := by
      rw [hasked, State.enter_unprompted hw rfl]
      unfold SchedOnly at hsched
      rw [hsched]
      exact ⟨rfl, rfl, rfl⟩
    obtain ⟨hdrv, hacc, hsch'⟩ := hkept
    refine ⟨?_, by rw [hacc, hxacc]; exact hreserved, fun hge => absurd hlt (Nat.not_lt.mpr hge), fun _ => ⟨o, ?_, hokind, hsource, hdest,
      hovolume, hotag, _, hwaiting, rfl, rfl, hvolume, rfl⟩⟩
    · unfold State.drive at hxdrive hdrive ⊢
      rw [hdrv, hxdrive, hdrive]
    · rw [hsch', hpool]
      exact List.mem_append_right _ (List.mem_singleton.mpr rfl)
  · have hasked := hfull hge
    have hentered := State.enter_unprompted_request? (st := .waitArm) (reason := some .arm) hx rfl
    have hkept : (x.askOrder tag).drv = x.drv ∧ (x.askOrder tag).acc = x.acc := by
      rw [hasked, State.enter_unprompted hx rfl]
      exact ⟨rfl, rfl⟩
    obtain ⟨hdrv, hacc⟩ := hkept
    rw [← hasked] at hentered
    refine ⟨?_, by rw [hacc, hxacc]; exact hreserved, fun _ => ⟨_, hentered, rfl, rfl, rfl, horder⟩, fun hlt => absurd hlt (Nat.not_lt.mpr hge)⟩
    unfold State.drive at hxdrive hdrive ⊢
    rw [hdrv, hxdrive, hdrive]

/-- A MOUNT at its taking (R57, R61 to R64), branch by branch. -/
theorem mountTaken_of (hrefusal : s.refusal .mount f = none) : mountTaken s ((s.joined .mount f).walkStep f.tag) f := by
  have hfresh := State.refusal_fresh hrefusal
  intro e v he hv hsuspect named a mine waits
  have hnamedVolume : s.namedVolume f = some v := by
    unfold State.namedVolume
    rw [he, Option.bind_some, hv]
  obtain ⟨hmissing, hdirected⟩ := State.refusal_mount hrefusal hnamedVolume
  refine ⟨fun hnamed => ?_, fun hfree hhome => ?_⟩
  · let j := s.joined .mount f
    have hr : j.request? f.tag = some (s.newRequest .mount f) := State.joined_request? hfresh
    have hresolved := (State.resolveNamed_mount (s := j) (v := v) hr rfl he hv hsuspect hmissing).1 ((State.joined_othersName hfresh).mpr hnamed)
    have hresolves : j.resolve f.tag = j.resolveNamed f.tag := by
      unfold State.resolve
      rw [hr]
      rfl
    have hunnamed : (j.updRequest f.tag (fun r => { r with volume := none })).request? f.tag = some (s.newRequest .mount f) := by
      rw [State.updRequest_request? (f := fun r => { r with volume := none }) (fun _ => rfl), hr, Option.map_some, if_pos (State.request?_tag hr)]
      rfl
    have hentered := State.enter_unprompted_request? (st := .waitVolume) (reason := some .volume) hunnamed rfl
    have hwaits := (State.walkStep_queued hr rfl (hresolves.trans hresolved) hentered).1 rfl
    rw [← hwaits] at hentered
    exact ⟨_, hentered, rfl, rfl, rfl⟩
  · obtain ⟨w, timer, hstep, hw, hkept⟩ := mount_examined hrefusal he hv hsuspect hfree hhome
    have hdir : w.dir = s.dir := by rw [hkept]
    have hdrv : w.drv = s.drv := by rw [hkept]
    have hsch : w.sch = s.sch := by rw [hkept]
    have hacc : w.acc = s.acc := by rw [hkept]
    have hport : w.port = s.port := by rw [hkept]
    have hwv : w.vol? e = some v := by unfold State.vol?; rw [hdir]; exact hv
    obtain ⟨haccount, hrecords, -, -⟩ := State.examine_waits (d := 0) hw rfl hwv (by rw [hhome]; exact Loc.noConfusion)
    have hwaiting {reason : WaitReason} (hwaits : w.examine f.tag = w.enter f.tag .waitDrive (some reason)) : waits reason := by
      have hshown := Request.named_waits (reason := reason) hw
      rw [← hwaits, ← hstep] at hshown
      exact hshown
    have hroom : w.accountRoom (s.chargedTo f.account) = s.accountRoom (s.chargedTo f.account) := by rw [hkept]; rfl
    have hrecord : w.recordRoom = s.recordRoom := by rw [hkept]; rfl
    refine ⟨fun hfull => ?_, fun hopen hfull => ?_, fun hopen hrecordroom d h hd hh => ?_⟩
    · exact hwaiting (haccount (hroom.trans hfull))
    · exact hwaiting (hrecords (hroom.trans hopen) (hrecord.trans hfull))
    · have hdrive : w.drive d = s.drive d := by rw [hkept]; rfl
      have hreach : w.placesReach (.slot h) (.drive d) = s.placesReach (.slot h) (.drive d) := by rw [hkept]; rfl
      obtain ⟨hinstalled, honline, hsuits⟩ := hdirected d hd
      obtain ⟨-, -, hchoice, hgrant⟩ := State.examine_waits (d := d) hw rfl hwv (by rw [hhome]; exact Loc.noConfusion)
      obtain ⟨hunfit, hfit⟩ := State.chooseDrive_directed (s := w) (r := (s.newRequest .mount f).named e timer) (d := d) hd hhome hh
      have hwaits {reason : WaitReason} (hchosen : w.chooseDrive ((s.newRequest .mount f).named e timer) v = .error reason) : waits reason :=
        hwaiting (hchoice (hroom.trans hopen) (hrecord.trans hrecordroom) reason hchosen)
      have hclaimable (hempty : (s.drive d).state = .empty) :
          ((w.drive d).claimable && (w.drive d).suits (wantedDensity ((s.newRequest .mount f).named e timer) v)) = true := by
        rw [hdrive, Bool.and_eq_true]
        exact ⟨by simp [Drive.claimable, hempty, hinstalled, honline], hsuits⟩
      refine ⟨fun hnonempty => ?_, fun hempty hunreached => ?_, fun hempty hreached => ?_⟩
      · exact hwaits (hunfit (by rw [hdrive]; simp [Drive.claimable, hnonempty]))
      · exact hwaits ((hfit (hclaimable hempty)).trans (if_neg (by rw [hreach, hunreached]; exact Bool.false_ne_true)))
      · have htaken := hstep.trans (hgrant (hroom.trans hopen) (hrecord.trans hrecordroom) (by rw [hhome]; exact Loc.noConfusion)
          ((hfit (hclaimable hempty)).trans (if_pos (hreach.trans hreached))))
        obtain ⟨hgranted, hreserved, hfull, hordered⟩ := State.afterGrant_home (d := d) hw rfl rfl hwv hhome hh rfl rfl htaken
        rw [hsch] at hfull hordered
        refine ⟨by rw [hgranted], ?_, by rw [hreserved, hacc], hfull, hordered⟩
        rw [hgranted]
        unfold State.newClaim State.clock
        rw [hport]
        rfl

/-! ### The taking of a request that is not refused (R51) -/

theorem State.request_taken (hrefusal : s.refusal k f = none) : s.takeFrame (.request k f) =
    (s.afterAct ((s.joined k f).afterAcceptance k f), [.reply f.tag (.accepted (s.ms.queue.length + 1)) false]) := by
  have hlength : (s.joined k f).ms.queue.length = s.ms.queue.length + 1 := List.length_append
  change s.takeRequest k f = _
  unfold State.takeRequest
  rw [hrefusal, ← hlength]
  rfl

/-- The taking of a request keeps what the requests of the queue were accepted with, and adds its own at the end (R49). -/
theorem State.joined_asked : (s.joined k f).requestsAsked = s.requestsAsked ++ [((f.tag, k, f, f.serial, f.pool.toNat),
    ((if k = .eject then none else requestDrive f), f.flags.getLsbD 0, f.flags.getLsbD 1, requestDensity f),
    s.chargedTo f.account, f.priority.toNat, s.port.clock)] := List.map_append

theorem State.panelPump_ms : s.panelPump.ms = s.ms := by
  conv_rhs => rw [← State.panelPump_rest (s := s)]

/-- Settles O35: the request joins the queue, and the branches of `State.afterAcceptance` give a DEMOUNT (`demountTaken_of`) and a MOUNT in ACTIVE
(`mountTaken_of`). -/
theorem requestAccepted : Obligations.RequestAccepted := by
  intro s k f c hfree hc hrefusal
  have hexec : exec c s = .next (s.deliver (.request k f)).finishStep := by
    subst hc
    cases k <;> rfl
  have htake := State.request_taken hrefusal
  have hanswers : s.AnswersBy c ((s.joined k f).afterAcceptance k f) (.reply f.tag (.accepted (s.ms.queue.length + 1)) false) := by
    unfold State.AnswersBy
    rw [hexec, hfree.deliver (congrArg Prod.snd htake), htake]
  have hqueued (hservice : s.svc.state ≠ .active) (hk : k ≠ .demount) : (s.joined k f).afterAcceptance k f = s.joined k f := by
    unfold State.afterAcceptance
    cases k with
    | demount => exact absurd rfl hk
    | mount | scratch | eject => exact if_neg hservice
  refine ⟨_, hanswers, State.sends_sending, ?_, fun hk hservice => ⟨s.newRequest k f, ?_, rfl, rfl, rfl, rfl⟩, fun hk d hd => ⟨_, hanswers, ?_⟩,
    fun hk hservice => ⟨_, hanswers, ?_⟩⟩
  · have hkeeps : Keeps noLaw (s.joined k f) ((s.joined k f).act (fun s => s.afterAcceptance k f)) :=
      (Keeps.refl (s.joined k f)).act (Keeps.refl (s.joined k f)).afterAcceptance
    have hasked := hkeeps.asked.trans State.joined_asked
    unfold State.requestsAsked at hasked ⊢
    rw [State.panelPump_ms]
    exact hasked
  · rw [hqueued hservice hk] at hanswers
    exact hanswers
  · subst hk
    have hdrive : requestDrive f = some d := driveOfByte_eq_some.mpr hd
    have hresolved : (s.joined .demount f).afterAcceptance .demount f = (s.joined .demount f).resolveDemount f.tag d := by
      unfold State.afterAcceptance
      rw [hdrive]
    rw [hresolved]
    exact demountTaken_of (s := s.joined .demount f) (State.joined_request? (State.refusal_fresh hrefusal)) rfl
  · subst hk
    have hwalked : (s.joined .mount f).afterAcceptance .mount f = (s.joined .mount f).walkStep f.tag := if_pos hservice
    rw [hwalked]
    exact mountTaken_of hrefusal

end Sys2Proof.Machine
end

section
/-! PROOFS. The end of a STATUS in STATUS_WAIT (O51) and in HOMING (O52), with a command left in the receive buffer. -/

namespace Sys2Proof.Machine

/-- Arm A with a STATUS outstanding and nothing else to do, while the free port still holds an ARM SERVICE OUT for arm A in its receive buffer: the
statements of O51 and O52 do not suppose that the port is settled, so the same step takes that command once the STATUS_REPLY is used. -/
def statusWithCommandLeft (service : SvcState) (x : Arm) (pool : List Order) : State :=
  { State.reset with
    svc := ⟨service, false, true, true⟩
    sch := { State.reset.sch with armA := x, zones := State.reset.sch.zones.set 0 (some ⟨.armA, .standing⟩), pool := pool }
    port := { State.reset.port with buffer := [.armService 0 1] } }

/-- A STATUS_REPLY that shows the arm at column 0 with an empty gripper. -/
def emptyAtColumnZero : StatusReport := ⟨0, 0, 0, 0, List.replicate 6 space⟩

/-- Where that state ends up once the STATUS_REPLY has been taken: ARM SERVICE OUT has parked the arm, which is at its end already. -/
def leavesService (s : State) : Bool :=
  match exec (.statusReply .armA emptyAtColumnZero) s with
  | .next t => (t.arm .armA).state == .outOfService
  | .fault _ | .refused _ => false

theorem leavesService_spec {s t : State} (h : leavesService s = true) (hexec : exec (.statusReply .armA emptyAtColumnZero) s = .next t) :
    (t.arm .armA).state = .outOfService := by
  unfold leavesService at h
  rw [hexec] at h
  exact beq_iff_eq.mp h

/-! ### STATUS_WAIT (O51) -/

/-- A FETCH whose leg has failed. -/
def failedFetch : Order where
  id := 1
  kind := .fetch
  source := none
  dest := none
  volume := none
  tag := none
  bound := some .armA
  legs := []
  next := 0
  state := .failed
  cut := false
  door := false
  started := true
  putBack := none

def failedTravel : Failure := ⟨.travel none, none, .legTimeout, false⟩

/-- Arm A in STATUS_WAIT after a failed TRAVEL of its only order. -/
def statusWaitWithCommandLeft : State :=
  statusWithCommandLeft .active
    { Arm.powerOn 0 with state := .statusWait, order := some 1, outstanding := some (.status 10), failure := some failedTravel } [failedFetch]

theorem statusWaitWithCommandLeft_quietBut : quietBut statusWaitWithCommandLeft .armA := by
  refine ⟨rfl, rfl, rfl, rfl, ?_, ?_, ?_, rfl, rfl, rfl, rfl⟩ <;> decide

/-- Refutes O51: below the arm failure limit, with nothing else to do, the arm is not IDLE after the step where the receive buffer still holds an
ARM SERVICE OUT, which the same step takes. -/
theorem not_statusOutcomes : ¬ Obligations.StatusOutcomes := by
  intro h
  obtain ⟨hused, _⟩ := h statusWaitWithCommandLeft .armA 10 rfl rfl
  obtain ⟨_, hquiet⟩ := hused emptyAtColumnZero rfl rfl (by decide) (by decide) rfl
  obtain ⟨t, hexec, hstate, _⟩ :=
    hquiet failedFetch failedTravel statusWaitWithCommandLeft_quietBut rfl rfl rfl (by decide) (by decide) rfl (.inr rfl)
  have hleaves : (t.arm .armA).state = .outOfService := leavesService_spec (by decide +kernel) hexec
  have hbelow : ¬statusWaitWithCommandLeft.armFailureLimit ≤ min 15 ((statusWaitWithCommandLeft.arm .armA).failCount + 1) := by decide
  rw [if_neg hbelow, hleaves] at hstate
  cases hstate

/-! ### HOMING (O52) -/

/-- Arm A at the end of its homing. -/
def homingWithCommandLeft : State :=
  statusWithCommandLeft .homing { Arm.powerOn 0 with state := .homing, outstanding := some (.status 10) } []

theorem homingWithCommandLeft_quietBut : quietBut homingWithCommandLeft .armA := by
  refine ⟨rfl, rfl, rfl, rfl, ?_, ?_, ?_, rfl, rfl, rfl, rfl⟩ <;> decide

/-- Refutes O52: at the end of its homing, with nothing else to do, the arm is not IDLE after the step where the receive buffer still holds an ARM
SERVICE OUT, which the same step takes. -/
theorem not_homingAndLinger : ¬ Obligations.HomingAndLinger := by
  intro h
  obtain ⟨_, hstatus, _⟩ := h
  obtain ⟨hused, _⟩ := hstatus homingWithCommandLeft .armA 10 rfl rfl
  obtain ⟨_, hquiet⟩ := hused emptyAtColumnZero rfl (by decide) (by decide)
  obtain ⟨t, hexec, hstate, _⟩ := hquiet rfl homingWithCommandLeft_quietBut rfl rfl rfl rfl rfl rfl
  have hleaves : (t.arm .armA).state = .outOfService := leavesService_spec (by decide +kernel) hexec
  rw [hleaves] at hstate
  cases hstate

end Sys2Proof.Machine
end

section
/-! PROOFS. LINK RESET at the drives (R47), for O27. -/

namespace Sys2Proof.Machine

variable {s t u w : State} {c d : Fin 16}

/-! ### What the work of a drive leaves unchanged -/

/-- Only one drive, the accounts, the claimed marks of the requests and the notices differ. -/
structure DriveWork (d : Fin 16) (s t : State) : Prop where
  rest : t = { s with drv := t.drv, ms := t.ms, acc := t.acc, notices := t.notices }
  queue : s.ms.queue = [] → t.ms.queue = []
  elsewhere : ∀ c, c ≠ d → t.drive c = s.drive c

theorem DriveWork.refl (s : State) : DriveWork d s s := ⟨rfl, id, fun _ _ => rfl⟩

theorem DriveWork.trans (h : DriveWork d s t) (k : DriveWork d t u) : DriveWork d s u where
  rest := by rw [k.rest, h.rest]
  queue hq := k.queue (h.queue hq)
  elsewhere c hc := (k.elsewhere c hc).trans (h.elsewhere c hc)

theorem DriveWork.ite {p : Prop} [Decidable p] (h : DriveWork d s t) (k : DriveWork d s u) : DriveWork d s (if p then t else u) := by
  split
  · exact h
  · exact k

theorem State.updDrive_work {f : Drive → Drive} : DriveWork d s (s.updDrive d f) :=
  ⟨rfl, id, fun _ hc => State.updDrive_drive_ne hc⟩

theorem State.notify_work {m : Notice} : DriveWork d s (s.notify m) := by
  unfold State.notify
  split
  · exact .refl s
  · exact ⟨rfl, id, fun _ _ => rfl⟩

theorem State.updAccount_work {i : Nat} {f : Account → Account} : DriveWork d s (s.updAccount i f) := by
  unfold State.updAccount
  split
  · exact ⟨rfl, id, fun _ _ => rfl⟩
  · exact .refl s

theorem State.dropClaimed_work {tag : Option Half} : DriveWork d s (s.dropClaimed tag) := by
  cases tag with
  | none => exact .refl s
  | some tag =>
    refine ⟨rfl, fun hq => ?_, fun _ _ => rfl⟩
    change s.ms.queue.map _ = []
    rw [hq]
    rfl

theorem State.putRecord_work {r : AcctRecord} : DriveWork r.drive s (s.putRecord r) := by
  unfold State.putRecord
  refine DriveWork.trans ?_ State.updDrive_work
  refine DriveWork.trans ?_ State.updAccount_work
  exact ⟨rfl, id, fun _ _ => rfl⟩

theorem State.recordClaim_work {session : Option Session} {outcome : RecOutcome} : DriveWork d s (s.recordClaim d session outcome) := by
  unfold State.recordClaim
  split
  · exact .refl s
  · rename_i c _
    have hput : DriveWork d s (s.putRecord (s.buildRecord d c session outcome)) :=
      State.putRecord_work (r := s.buildRecord d c session outcome)
    exact .ite (hput.trans State.updDrive_work) (.refl s)

theorem State.endClaim_work : DriveWork d s (s.endClaim d) := by
  unfold State.endClaim
  split
  · exact .refl s
  · exact ((State.updDrive_work.trans State.updAccount_work).trans State.notify_work).trans State.dropClaimed_work

theorem State.restDrive_work : DriveWork d s (s.restDrive d) := State.updDrive_work.trans State.notify_work

theorem State.giveUpClaim_work {outcome : RecOutcome} : DriveWork d s (s.giveUpClaim d outcome) := by
  have hended : DriveWork d s (((s.recordClaim d none outcome).stopLoadTimer d).endClaim d) :=
    (State.recordClaim_work.trans State.updDrive_work).trans State.endClaim_work
  exact .ite (hended.trans State.updDrive_work) (hended.trans State.restDrive_work)

theorem State.loseClaim_work : DriveWork d s (s.loseClaim d) :=
  (((State.recordClaim_work.trans State.updDrive_work).trans State.endClaim_work).trans State.updDrive_work).trans State.notify_work

theorem State.placeFailed_work : DriveWork d s (s.placeFailed d) := by
  have hexpected : DriveWork d s (s.updDrive d (fun x => { x with placeExpected := false })) := State.updDrive_work
  exact .ite hexpected (.ite (hexpected.trans State.giveUpClaim_work) (.ite (hexpected.trans State.loseClaim_work) hexpected))

/-! ### The drive whose claim is given up, or whose PLACE has failed -/

/-- A drive that is CLAIMED no more, by its levels. -/
def Drive.givenUp (x : Drive) (seconds : Stamp) : Drive :=
  { x with useSeconds := seconds, claim := none, loadTimer := none,
           state := if x.sense.loaded ∨ x.sense.released then .unmanaged else if x.online then .empty else .offline }

theorem Drive.levelHigh_iff {x : Drive} : x.levelHigh = true ↔ x.sense.loaded = true ∨ x.sense.released = true := Bool.or_eq_true_iff

theorem State.giveUpClaim_drive {outcome : RecOutcome} : ∃ seconds, (s.giveUpClaim d outcome).drive d = (s.drive d).givenUp seconds := by
  obtain ⟨seconds, reserved, hrecord⟩ := State.recordClaim_drive (s := s) (d := d) (session := none) (outcome := outcome)
  have hended : (((s.recordClaim d none outcome).stopLoadTimer d).endClaim d).drive d =
      { s.drive d with useSeconds := seconds, claim := none, loadTimer := none } := by
    unfold State.stopLoadTimer
    rw [State.endClaim_drive, State.updDrive_drive_self, hrecord]
  refine ⟨seconds, ?_⟩
  unfold State.giveUpClaim State.restDrive Drive.givenUp
  dsimp only
  have hlevel : (((s.recordClaim d none outcome).stopLoadTimer d).endClaim d |>.drive d).levelHigh = (s.drive d).levelHigh := by rw [hended]; rfl
  rw [hlevel]
  by_cases hhigh : (s.drive d).levelHigh = true
  · rw [if_pos hhigh, if_pos (Drive.levelHigh_iff.mp hhigh), State.setDriveState_drive_self, hended]
  · rw [if_neg hhigh, if_neg (mt Drive.levelHigh_iff.mpr hhigh), State.notify_drive, State.setDriveState_drive_self, hended]

/-- What the failure of an expected PLACE leaves of a drive: all but a CLAIMED one keeps what it holds, and a claim can only go. -/
structure Drive.Missed (x y : Drive) : Prop where
  kept : x.state ≠ .claimed → (y.state, y.session, y.volume, y.claim, y.loadTimer) = (x.state, x.session, x.volume, x.claim, x.loadTimer)
  claim : y.claim = none ∨ y.claim = x.claim

theorem Drive.Missed.refl (x : Drive) : x.Missed x := ⟨fun _ => rfl, .inr rfl⟩

theorem Drive.Missed.trans {x y z : Drive} (h : x.Missed y) (k : y.Missed z) : x.Missed z where
  kept hx := by
    have hy := h.kept hx
    have hstate : y.state = x.state := congrArg Prod.fst hy
    exact (k.kept (by rw [hstate]; exact hx)).trans hy
  claim := by
    rcases k.claim with hz | hz
    · exact .inl hz
    · rw [hz]
      exact h.claim

theorem State.placeFailed_missed : (s.drive d).Missed ((s.placeFailed d).drive d) := by
  have hexpected : (s.updDrive d (fun x => { x with placeExpected := false })).drive d = { s.drive d with placeExpected := false } :=
    State.updDrive_drive_self
  unfold State.placeFailed
  dsimp only
  by_cases hclaimed : (s.drive d).state = .claimed
  · rw [if_neg (not_not.mpr hclaimed)]
    split
    · obtain ⟨seconds, hgiven⟩ := State.giveUpClaim_drive (s := s.updDrive d (fun x => { x with placeExpected := false })) (d := d) (outcome := .reset)
      rw [hgiven]
      exact ⟨fun h => absurd hclaimed h, .inl rfl⟩
    · split
      · obtain ⟨seconds, hlost⟩ := State.loseClaim_drive (s := s.updDrive d (fun x => { x with placeExpected := false })) (d := d)
        rw [hlost]
        exact ⟨fun h => absurd hclaimed h, .inl rfl⟩
      · rw [hexpected]
        exact ⟨fun _ => rfl, .inr rfl⟩
  · rw [if_pos hclaimed, hexpected]
    exact ⟨fun _ => rfl, .inr rfl⟩

/-! ### A drive at LINK RESET -/

/-- What LINK RESET makes of a drive (R47). -/
structure Drive.Reset (x y : Drive) : Prop where
  kept : x.state ≠ .claimed → (y.state, y.session, y.volume) = (x.state, x.session, x.volume)
  detached : x.state ≠ .empty → x.state ≠ .offline → x.state ≠ .unmanaged → ∀ c, y.claim = some c → c.tag = none ∧ c.ringHold = false
  givenUp : x.state = .claimed → x.placeExpected = false → ∃ seconds, ∃ w : Drive, y = w.givenUp seconds ∧ w.sense = x.sense ∧ w.online = x.online
  unloaded : x.state = .placed → y.loadTimer = none

theorem Drive.reset_refl {x : Drive} (h : x.state = .empty ∨ x.state = .offline ∨ x.state = .unmanaged) : x.Reset x where
  kept _ := rfl
  detached hempty hoffline hunmanaged := absurd h (by simp [hempty, hoffline, hunmanaged])
  givenUp hx := by simp [hx] at h
  unloaded hx := by simp [hx] at h

/-- A PLACE that fails after the reset leaves of a drive what the reset does. -/
theorem Drive.Reset.missed {x y z : Drive} (h : x.Reset y) (k : y.Missed z) :
    (x.state ≠ .claimed → z.state = x.state ∧ z.session = x.session ∧ z.volume = x.volume) ∧
    (∀ c, x.state ≠ .empty → x.state ≠ .offline → x.state ≠ .unmanaged → z.claim = some c → c.tag = none ∧ c.ringHold = false) ∧
    (x.state = .claimed → x.placeExpected = false → z.claim = none ∧ z.state =
      if x.sense.loaded ∨ x.sense.released then .unmanaged else if x.online then .empty else .offline) ∧
    (x.state = .placed → z.loadTimer = none) := by
  refine ⟨fun hx => ?_, fun c hempty hoffline hunmanaged hc => ?_, fun hx hexpected => ?_, fun hx => ?_⟩
  · obtain ⟨hstate, hsession, hvolume⟩ : y.state = x.state ∧ y.session = x.session ∧ y.volume = x.volume := by simpa using h.kept hx
    have hkept := k.kept (by rw [hstate]; exact hx)
    simp only [Prod.mk.injEq] at hkept
    obtain ⟨kstate, ksession, kvolume, _⟩ := hkept
    exact ⟨kstate.trans hstate, ksession.trans hsession, kvolume.trans hvolume⟩
  · rcases k.claim with hz | hz
    · rw [hz] at hc
      cases hc
    · exact h.detached hempty hoffline hunmanaged c (hz.symm.trans hc)
  · obtain ⟨seconds, w, hy, hsense, honline⟩ := h.givenUp hx hexpected
    have hstate : y.state = if x.sense.loaded ∨ x.sense.released then .unmanaged else if x.online then .empty else .offline := by
      rw [hy, ← hsense, ← honline]
      rfl
    have hunclaimed : y.state ≠ .claimed := by
      rw [hstate]
      split
      · exact DriveState.noConfusion
      · split <;> exact DriveState.noConfusion
    have hkept := k.kept hunclaimed
    simp only [Prod.mk.injEq] at hkept
    obtain ⟨kstate, _, _, kclaim, _⟩ := hkept
    exact ⟨by rw [kclaim, hy]; rfl, kstate.trans hstate⟩
  · have hplaced : x.state ≠ .claimed := by rw [hx]; exact DriveState.noConfusion
    have hstate : y.state = x.state := congrArg Prod.fst (h.kept hplaced)
    have hkept := k.kept (by rw [hstate]; exact hplaced)
    simp only [Prod.mk.injEq] at hkept
    obtain ⟨_, _, _, _, ktimer⟩ := hkept
    rw [ktimer]
    exact h.unloaded hx

/-- What LINK RESET at one drive leaves: besides the drive, that it is owed a RECOVER. -/
structure DriveResets (d : Fin 16) (s t : State) : Prop where
  rest : t = { s with drv := t.drv, ms := t.ms, acc := t.acc, notices := t.notices, sch := { s.sch with owedRecovers := t.sch.owedRecovers } }
  queue : s.ms.queue = [] → t.ms.queue = []
  elsewhere : ∀ c, c ≠ d → t.drive c = s.drive c
  owed : ∀ c : Fin 16, s.sch.owedRecovers[c] = true → t.sch.owedRecovers[c] = true
  reset : (s.drive d).Reset (t.drive d)
  placed : (s.drive d).state = .placed → t.sch.owedRecovers[d] = true

theorem DriveWork.resets (h : DriveWork d s t) (hreset : (s.drive d).Reset (t.drive d)) (hplaced : (s.drive d).state ≠ .placed) :
    DriveResets d s t where
  rest := by
    have hsch : t.sch = s.sch := by rw [h.rest]
    rw [hsch]
    exact h.rest
  queue := h.queue
  elsewhere := h.elsewhere
  owed c hc := by
    have hsch : t.sch = s.sch := by rw [h.rest]
    rw [hsch]
    exact hc
  reset := hreset
  placed h := absurd h hplaced

theorem State.resetDrive_resets : DriveResets d s (s.resetDrive d) := by
  have hdetach : (s.updClaim d Claim.detach).drive d = { s.drive d with claim := (s.drive d).claim.map Claim.detach } :=
    State.updClaim_drive_self
  have hdetached : ∀ c, (s.drive d).claim.map Claim.detach = some c → c.tag = none ∧ c.ringHold = false := fun c hc => by
    obtain ⟨b, _, rfl⟩ := Option.map_eq_some_iff.mp hc
    exact ⟨rfl, rfl⟩
  have hwork {f : Drive → Drive} : DriveWork d s ((s.updClaim d Claim.detach).updDrive d f) := DriveWork.trans State.updDrive_work State.updDrive_work
  unfold State.resetDrive
  dsimp only
  cases hstate : (s.drive d).state with
  | claimed =>
    have hne : (s.drive d).state ≠ .placed := by rw [hstate]; exact DriveState.noConfusion
    dsimp only
    split
    · rename_i hexpected
      refine DriveWork.resets State.updDrive_work ?_ hne
      rw [hdetach]
      exact ⟨fun h => absurd hstate h, fun _ _ _ => hdetached, fun _ h => absurd (hexpected.symm.trans h) Bool.noConfusion, fun h => absurd h hne⟩
    · obtain ⟨seconds, hgiven⟩ := State.giveUpClaim_drive (s := s.updClaim d Claim.detach) (d := d) (outcome := .reset)
      refine DriveWork.resets (DriveWork.trans State.updDrive_work State.giveUpClaim_work) ?_ hne
      rw [hgiven, hdetach]
      exact ⟨fun h => absurd hstate h, fun _ _ _ c hc => absurd hc.symm (Option.some_ne_none c), fun _ _ => ⟨seconds, _, rfl, rfl, rfl⟩, fun h => absurd h hne⟩
  | placed =>
    have hdrive : (((s.updClaim d Claim.detach).stopLoadTimer d).oweRecover d true).drive d =
        { s.drive d with claim := (s.drive d).claim.map Claim.detach, loadTimer := none } := by
      change ((s.updClaim d Claim.detach).updDrive d (fun x => { x with loadTimer := none })).drive d = _
      rw [State.updDrive_drive_self, hdetach]
    refine ⟨rfl, id, fun c hc => (hwork (f := fun x => { x with loadTimer := none })).elsewhere c hc, fun c hc => ?_, ?_, fun _ => ?_⟩
    · change (s.sch.owedRecovers.set d true)[c] = true
      by_cases hcd : d = c
      · subst hcd
        simp
      · simp only [Fin.getElem_fin] at hc ⊢
        rw [Vector.getElem_set_ne _ _ (fun h => hcd (Fin.ext h))]
        exact hc
    · rw [hdrive]
      exact ⟨fun _ => rfl, fun _ _ _ => hdetached, fun h => absurd (hstate.symm.trans h) DriveState.noConfusion, fun _ => rfl⟩
    · change (s.sch.owedRecovers.set d true)[d] = true
      simp
  | loaded | unloading | released =>
    have hne : (s.drive d).state ≠ .placed := by rw [hstate]; exact DriveState.noConfusion
    refine DriveWork.resets (hwork (f := fun x => { x with labelTimer := none })) ?_ hne
    dsimp only
    unfold State.stopLabelTimer
    rw [State.updDrive_drive_self, hdetach]
    exact ⟨fun _ => rfl, fun _ _ _ => hdetached, fun h => absurd (hstate.symm.trans h) DriveState.noConfusion, fun h => absurd h hne⟩
  | check =>
    have hne : (s.drive d).state ≠ .placed := by rw [hstate]; exact DriveState.noConfusion
    refine DriveWork.resets State.updDrive_work ?_ hne
    rw [hdetach]
    exact ⟨fun _ => rfl, fun _ _ _ => hdetached, fun h => absurd (hstate.symm.trans h) DriveState.noConfusion, fun h => absurd h hne⟩
  | empty => exact DriveWork.resets (.refl s) (Drive.reset_refl (.inl hstate)) (by rw [hstate]; exact DriveState.noConfusion)
  | offline => exact DriveWork.resets (.refl s) (Drive.reset_refl (.inr (.inl hstate))) (by rw [hstate]; exact DriveState.noConfusion)
  | unmanaged => exact DriveWork.resets (.refl s) (Drive.reset_refl (.inr (.inr hstate))) (by rw [hstate]; exact DriveState.noConfusion)

/-! ### The drives at LINK RESET -/

/-- What LINK RESET at the drives of a list leaves (R47). -/
structure DrivesReset (l : List (Fin 16)) (s t : State) : Prop where
  rest : t = { s with drv := t.drv, ms := t.ms, acc := t.acc, notices := t.notices, sch := { s.sch with owedRecovers := t.sch.owedRecovers } }
  queue : s.ms.queue = [] → t.ms.queue = []
  elsewhere : ∀ d, d ∉ l → t.drive d = s.drive d
  owed : ∀ d : Fin 16, s.sch.owedRecovers[d] = true → t.sch.owedRecovers[d] = true
  reset : ∀ d ∈ l, (s.drive d).Reset (t.drive d) ∧ ((s.drive d).state = .placed → t.sch.owedRecovers[d] = true)

theorem State.resetDrives_of (l : List (Fin 16)) (hl : l.Nodup) : DrivesReset l s (l.foldl State.resetDrive s) := by
  induction l generalizing s with
  | nil => exact ⟨rfl, id, fun _ _ => rfl, fun _ => id, fun _ hd => absurd hd List.not_mem_nil⟩
  | cons c rest ih =>
    obtain ⟨hc, hrest⟩ := List.nodup_cons.mp hl
    have hfirst := State.resetDrive_resets (s := s) (d := c)
    have hlater := ih (s := s.resetDrive c) hrest
    rw [List.foldl_cons]
    refine ⟨?_, fun hq => hlater.queue (hfirst.queue hq), fun d hd => ?_, fun d hd => hlater.owed d (hfirst.owed d hd), fun d hd => ?_⟩
    · rw [hlater.rest, hfirst.rest]
    · rw [List.mem_cons, not_or] at hd
      exact (hlater.elsewhere d hd.2).trans (hfirst.elsewhere d hd.1)
    · rcases List.mem_cons.mp hd with rfl | hd
      · rw [hlater.elsewhere d hc]
        exact ⟨hfirst.reset, fun hplaced => hlater.owed d (hfirst.placed hplaced)⟩
      · have hne : d ≠ c := fun h => hc (h ▸ hd)
        have hsame := hfirst.elsewhere d hne
        have hdone := hlater.reset d hd
        rw [hsame] at hdone
        exact hdone

theorem State.resetDrives_reset : DrivesReset allDrives s s.resetDrives := State.resetDrives_of allDrives (List.nodup_finRange 16)

end Sys2Proof.Machine
end

section
/-! PROOFS. LINK RESET at the scheduler and its arms (R113), for O27. -/

namespace Sys2Proof.Machine

variable {s t u w : State} {a b : ArmId} {c d : Fin 16} {homes : Bool}

/-! ### What the work at an arm leaves unchanged -/

/-- Only the arm, the zones, the claims, its homing-owed mark and what a failed PLACE leaves of the drives differ. -/
structure ArmWork (a : ArmId) (s t : State) : Prop where
  rest : t = { s with drv := t.drv, ms := t.ms, acc := t.acc, notices := t.notices, sch := t.sch, svc := t.svc }
  queue : s.ms.queue = [] → t.ms.queue = []
  missed : ∀ d, (s.drive d).Missed (t.drive d)
  lists : (t.sch.pool, t.sch.nextId, t.sch.owedRecovers) = (s.sch.pool, s.sch.nextId, s.sch.owedRecovers)
  claims : s.sch.claims = [] → t.sch.claims = []
  service : (t.svc.state, t.svc.doorMark) = (s.svc.state, s.svc.doorMark)
  others : ∀ b, b ≠ a → t.arm b = s.arm b ∧ t.armPort b = s.armPort b ∧ t.homingOwed b = s.homingOwed b

theorem ArmWork.refl (s : State) : ArmWork a s s := ⟨rfl, id, fun _ => .refl _, rfl, id, rfl, fun _ _ => ⟨rfl, rfl, rfl⟩⟩

theorem ArmWork.trans (h : ArmWork a s t) (k : ArmWork a t u) : ArmWork a s u where
  rest := by rw [k.rest, h.rest]
  queue hq := k.queue (h.queue hq)
  missed d := (h.missed d).trans (k.missed d)
  lists := k.lists.trans h.lists
  claims hc := k.claims (h.claims hc)
  service := k.service.trans h.service
  others b hb := by
    obtain ⟨harm, hport, howed⟩ := h.others b hb
    obtain ⟨karm, kport, kowed⟩ := k.others b hb
    exact ⟨karm.trans harm, kport.trans hport, kowed.trans howed⟩

theorem ArmWork.ite {p : Prop} [Decidable p] (h : ArmWork a s t) (k : ArmWork a s u) : ArmWork a s (if p then t else u) := by
  split
  · exact h
  · exact k

theorem State.setArmPort_armPort_ne {x : ArmPort} : ∀ {a b : ArmId}, b ≠ a → (s.setArmPort a x).armPort b = s.armPort b
  | .armA, .armB, _ | .armB, .armA, _ => rfl
  | .armA, .armA, h | .armB, .armB, h => absurd rfl h

theorem State.setHomingOwed_homingOwed_ne {owed : Bool} : ∀ {a b : ArmId}, b ≠ a → (s.setHomingOwed a owed).homingOwed b = s.homingOwed b
  | .armA, .armB, _ | .armB, .armA, _ => rfl
  | .armA, .armA, h | .armB, .armB, h => absurd rfl h

theorem State.updArm_work {f : Arm → Arm} : ArmWork a s (s.updArm a f) where
  rest := by cases a <;> rfl
  queue := by cases a <;> exact id
  missed d := by rw [State.updArm_drive]; exact .refl _
  lists := by cases a <;> rfl
  claims := by cases a <;> exact id
  service := by cases a <;> rfl
  others b hb := ⟨State.updArm_arm_ne hb, State.updArm_armPort, by cases a <;> cases b <;> rfl⟩

theorem State.setArmPort_work {x : ArmPort} : ArmWork a s (s.setArmPort a x) where
  rest := by cases a <;> rfl
  queue := by cases a <;> exact id
  missed d := by cases a <;> exact .refl _
  lists := by cases a <;> rfl
  claims := by cases a <;> exact id
  service := by cases a <;> rfl
  others b hb := ⟨State.setArmPort_arm, State.setArmPort_armPort_ne hb, by cases a <;> cases b <;> rfl⟩

theorem State.mapZones_work {f : Nat → Option Holding → Option Holding} : ArmWork a s (s.mapZones f) :=
  ⟨rfl, id, fun _ => .refl _, rfl, id, rfl, fun b _ => ⟨State.mapZones_arm, State.mapZones_armPort, by cases b <;> rfl⟩⟩

theorem State.withdrawClaim_work : ArmWork a s (s.withdrawClaim a) where
  rest := rfl
  queue := id
  missed _ := .refl _
  lists := rfl
  claims hc := by
    change s.sch.claims.filter _ = []
    rw [hc]
    rfl
  service := rfl
  others b _ := ⟨State.withdrawClaim_arm, State.withdrawClaim_armPort, by cases b <;> rfl⟩

theorem State.notify_armWork {m : Notice} : ArmWork a s (s.notify m) := by
  unfold State.notify
  split
  · exact .refl s
  · exact ⟨rfl, id, fun _ => .refl _, rfl, id, rfl, fun b _ => by cases b <;> exact ⟨rfl, rfl, rfl⟩⟩

theorem State.setHomingOwed_work {owed : Bool} : ArmWork a s (s.setHomingOwed a owed) where
  rest := by cases a <;> rfl
  queue := by cases a <;> exact id
  missed d := by cases a <;> exact .refl _
  lists := by cases a <;> rfl
  claims := by cases a <;> exact id
  service := State.setHomingOwed_svc
  others b hb := ⟨by cases a <;> cases b <;> rfl, by cases a <;> cases b <;> rfl, State.setHomingOwed_homingOwed_ne hb⟩

theorem State.placeFailed_armWork : ArmWork a s (s.placeFailed d) := by
  have hwork : DriveWork d s (s.placeFailed d) := State.placeFailed_work
  have hsch : (s.placeFailed d).sch = s.sch := State.placeFailed_sch
  have hsvc : (s.placeFailed d).svc = s.svc := State.placeFailed_svc
  refine ⟨?_, hwork.queue, fun c => ?_, by rw [hsch], fun hc => by rw [hsch]; exact hc, by rw [hsvc], fun b _ => ?_⟩
  · rw [hsch, hsvc]
    exact hwork.rest
  · by_cases hc : c = d
    · rw [hc]
      exact State.placeFailed_missed
    · rw [hwork.elsewhere c hc]
      exact .refl _
  · exact ⟨State.placeFailed_arm, State.armPort_of_sch hsch, by cases b <;> simp only [State.homingOwed, hsvc]⟩

theorem State.placesFailed_work (l : List (Fin 16)) : ArmWork a s (l.foldl State.placeFailed s) := by
  induction l generalizing s with
  | nil => exact .refl s
  | cons d rest ih => exact State.placeFailed_armWork.trans ih

theorem State.dropLegs_work : ArmWork a s (s.dropLegs a) := State.setArmPort_work.trans (State.placesFailed_work _)

theorem State.sendArm_home_work : ArmWork a s (s.sendArm a .home) := by
  unfold State.sendArm
  dsimp only
  split
  · unfold State.putOnLine
    exact State.setArmPort_work.trans State.updArm_work
  · exact State.setArmPort_work

/-- An arm that enters HOMING, but for one that enters service by it. -/
theorem State.enterHoming_work (hstate : (s.arm a).state ≠ .outOfService) : ArmWork a s (s.enterHoming a) := by
  unfold State.enterHoming
  dsimp only
  rw [if_neg hstate]
  have hsent {f : Arm → Arm} : ArmWork a s (((((s.dropLegs a).withdrawClaim a).updArm a f).takePath a).sendArm a .home) :=
    (((State.dropLegs_work.trans State.withdrawClaim_work).trans State.updArm_work).trans State.mapZones_work).trans State.sendArm_home_work
  exact .trans (.ite (hsent.trans State.notify_armWork) hsent) State.notify_armWork

/-! ### An arm at LINK RESET -/

/-- An arm without its order, its move and its linger timer. -/
def Arm.cleared (x : Arm) : Arm := { x with order := none, leg := none, move := none, inserted := false, linger := none }

/-- The part with an arm cleared: its lingering zones are released and the LEGs waiting for its line are dropped. -/
def State.armCleared (s : State) (a : ArmId) : State := ((s.releaseLingering a).updArm a Arm.cleared).dropLegs a

theorem State.armCleared_work : ArmWork a s (s.armCleared a) := (State.mapZones_work.trans State.updArm_work).trans State.dropLegs_work

theorem State.armCleared_arm : (s.armCleared a).arm a = (s.arm a).cleared := by
  unfold State.armCleared State.releaseLingering
  rw [State.dropLegs_arm, State.updArm_arm_self, State.mapZones_arm]

theorem State.dropLegs_waiting {f : ArmFrame} (hf : f ∈ ((s.dropLegs a).armPort a).waiting) : f ∈ (s.armPort a).waiting ∧ ∀ l, f ≠ .leg l := by
  unfold State.dropLegs at hf
  dsimp only at hf
  rw [foldl_part (g := fun u => u.armPort a) (fun u d => State.armPort_of_sch (State.placeFailed_sch (s := u) (d := d))), State.setArmPort_armPort_self,
    List.mem_filter] at hf
  obtain ⟨hmem, hkept⟩ := hf
  refine ⟨hmem, fun l hl => ?_⟩
  subst hl
  cases hkept

/-- With nothing outstanding, and no HOME or STATUS waiting, an arm cleared is not busy. -/
theorem State.armCleared_armBusy (hout : (s.arm a).outstanding = none) (hwaiting : ∀ f ∈ (s.armPort a).waiting, f ≠ .home ∧ f ≠ .status) :
    (s.armCleared a).armBusy a = false := by
  unfold State.armBusy
  rw [State.armCleared_arm, Bool.or_eq_false_iff]
  refine ⟨by rw [show (s.arm a).cleared.outstanding = none from hout]; rfl, List.any_eq_false.mpr fun f hf => ?_⟩
  obtain ⟨hmem, hleg⟩ := State.dropLegs_waiting hf
  rw [State.updArm_armPort, State.releaseLingering, State.mapZones_armPort] at hmem
  obtain ⟨hhome, hstatus⟩ := hwaiting f hmem
  cases f with
  | leg l => exact absurd rfl (hleg l)
  | home => exact absurd rfl hhome
  | status => exact absurd rfl hstatus
  | stop => exact Bool.false_ne_true

theorem State.armCleared_busy (hout : (s.arm a).outstanding.isSome = true) : (s.armCleared a).armBusy a = true := by
  unfold State.armBusy
  rw [State.armCleared_arm, Bool.or_eq_true_iff]
  exact .inl hout

/-- The states from which LINK RESET homes an arm that is not busy. -/
def ArmState.homed (st : ArmState) : Prop := st = .idle ∨ st = .running ∨ st = .holding ∨ st = .parked

/-- The states in which LINK RESET leaves an arm alone. -/
def ArmState.away (st : ArmState) : Prop := st = .unhomed ∨ st = .faulted ∨ st = .outOfService

theorem State.resetArm_homed (h : (s.arm a).state.homed) : s.resetArm a homes =
    if homes then (if (s.armCleared a).armBusy a then (s.armCleared a).setHomingOwed a true else ((s.armCleared a).setHomingOwed a true).enterHoming a)
    else s.armCleared a := by
  have hstate : ((s.armCleared a).arm a).state = (s.arm a).state := by rw [State.armCleared_arm]; rfl
  have hbusy : ((s.armCleared a).setHomingOwed a true).armBusy a = (s.armCleared a).armBusy a := by cases a <;> rfl
  have hreset : s.resetArm a homes =
      if homes && !(if homes then (s.armCleared a).setHomingOwed a true else s.armCleared a).armBusy a then
        (if homes then (s.armCleared a).setHomingOwed a true else s.armCleared a).enterHoming a
      else if homes then (s.armCleared a).setHomingOwed a true else s.armCleared a := by
    unfold State.resetArm
    change (match ((s.armCleared a).arm a).state with
      | .idle | .running | .holding | .parked => _
      | .statusWait | .homing => _
      | .unhomed | .faulted | .outOfService => _) = _
    rw [hstate]
    rcases h with h | h | h | h <;> rw [h] <;> rfl
  rw [hreset]
  cases homes with
  | false => rfl
  | true =>
    rw [if_pos rfl, if_pos rfl, hbusy]
    cases (s.armCleared a).armBusy a <;> rfl

theorem State.resetArm_waits (h : (s.arm a).state = .statusWait ∨ (s.arm a).state = .homing) :
    s.resetArm a homes = if homes then (s.armCleared a).setHomingOwed a true else s.armCleared a := by
  have hstate : ((s.armCleared a).arm a).state = (s.arm a).state := by rw [State.armCleared_arm]; rfl
  unfold State.resetArm
  change (match ((s.armCleared a).arm a).state with
    | .idle | .running | .holding | .parked => _
    | .statusWait | .homing => _
    | .unhomed | .faulted | .outOfService => _) = _
  rw [hstate]
  rcases h with h | h <;> rw [h] <;> rfl

theorem State.resetArm_away (h : (s.arm a).state.away) : s.resetArm a homes = s.armCleared a := by
  have hstate : ((s.armCleared a).arm a).state = (s.arm a).state := by rw [State.armCleared_arm]; rfl
  unfold State.resetArm
  change (match ((s.armCleared a).arm a).state with
    | .idle | .running | .holding | .parked => _
    | .statusWait | .homing => _
    | .unhomed | .faulted | .outOfService => _) = _
  rw [hstate]
  rcases h with h | h | h <;> rw [h] <;> rfl

theorem ArmState.homed_or (st : ArmState) : st.homed ∨ (st = .statusWait ∨ st = .homing) ∨ st.away := by
  unfold ArmState.homed ArmState.away
  cases st <;> simp

theorem ArmState.not_away_of_homed {st : ArmState} (h : st.homed) : ¬st.away := by
  unfold ArmState.homed at h
  unfold ArmState.away
  rcases h with h | h | h | h <;> rw [h] <;> simp

theorem State.resetArm_work : ArmWork a s (s.resetArm a homes) := by
  have hcleared : ArmWork a s (s.armCleared a) := State.armCleared_work
  have howed : ArmWork a s ((s.armCleared a).setHomingOwed a true) := hcleared.trans State.setHomingOwed_work
  rcases ArmState.homed_or (s.arm a).state with h | h | h
  · rw [State.resetArm_homed h]
    have hstate : ((((s.armCleared a).setHomingOwed a true)).arm a).state ≠ .outOfService := by
      have harm : ((s.armCleared a).setHomingOwed a true).arm a = (s.armCleared a).arm a := by cases a <;> rfl
      rw [harm, State.armCleared_arm]
      exact fun hout => ArmState.not_away_of_homed h (.inr (.inr hout))
    exact .ite (.ite howed (howed.trans (State.enterHoming_work hstate))) hcleared
  · rw [State.resetArm_waits h]
    exact .ite howed hcleared
  · rw [State.resetArm_away h]
    exact hcleared

/-- What LINK RESET makes of an arm (R113). -/
structure Arm.Reset (homes : Bool) (x : Arm) (waiting : List ArmFrame) (y : Arm) (owed : Bool) : Prop where
  cleared : (y.order, y.move, y.linger, y.failCount, y.column) = (none, none, none, x.failCount, x.column)
  marks : y.leaveMark = x.leaveMark
  homed : homes = true → x.outstanding = none → (∀ f ∈ waiting, f ≠ .home ∧ f ≠ .status) → x.state.homed → y.state = .homing
  kept : homes = false ∨ x.outstanding.isSome = true ∨ x.state.away → y.state = x.state
  owes : owed = true ↔ homes = true ∧ ¬x.state.away

theorem State.setHomingOwed_homingOwed_self {owed : Bool} : (s.setHomingOwed a owed).homingOwed a = owed := by cases a <;> rfl

theorem State.enterHoming_homingOwed : (s.enterHoming a).homingOwed b = s.homingOwed b := by
  cases b <;> simp only [State.homingOwed, State.enterHoming_svc]

theorem State.resetArm_reset (howed : s.homingOwed a = false) :
    Arm.Reset homes (s.arm a) (s.armPort a).waiting ((s.resetArm a homes).arm a) ((s.resetArm a homes).homingOwed a) := by
  have hcleared : (s.armCleared a).arm a = (s.arm a).cleared := State.armCleared_arm
  have hmarked {owed : Bool} : ((s.armCleared a).setHomingOwed a owed).arm a = (s.arm a).cleared := by
    rw [← hcleared]
    cases a <;> rfl
  have hunowed : (s.armCleared a).homingOwed a = false := by
    have hsvc : (s.armCleared a).svc = s.svc := State.dropLegs_svc.trans State.updArm_svc
    rw [← howed]
    cases a <;> simp only [State.homingOwed, hsvc]
  rcases ArmState.homed_or (s.arm a).state with h | h | h
  · have haway := ArmState.not_away_of_homed h
    rw [State.resetArm_homed h]
    cases homes with
    | false =>
      rw [if_neg Bool.false_ne_true, hcleared, hunowed]
      exact ⟨rfl, rfl, fun h => absurd h Bool.false_ne_true, fun _ => rfl, by simp⟩
    | true =>
      rw [if_pos rfl]
      by_cases hbusy : (s.armCleared a).armBusy a = true
      · rw [if_pos hbusy, hmarked, State.setHomingOwed_homingOwed_self]
        exact ⟨rfl, rfl, fun _ hout hwaiting _ => absurd hbusy (by rw [State.armCleared_armBusy hout hwaiting]; exact Bool.false_ne_true),
          fun _ => rfl, by simp [haway]⟩
      · obtain ⟨out, hentered⟩ := State.enterHoming_arm (s := (s.armCleared a).setHomingOwed a true) (a := a)
        rw [if_neg hbusy, hentered, State.enterHoming_homingOwed, State.setHomingOwed_homingOwed_self, hmarked]
        have hout : ¬(s.arm a).cleared.state = .outOfService := fun hout => haway (.inr (.inr hout))
        refine ⟨?_, rfl, fun _ _ _ _ => rfl, fun hkept => ?_, by simp [haway]⟩
        · rw [if_neg hout]
          rfl
        · rcases hkept with hkept | hkept | hkept
          · cases hkept
          · exact absurd (State.armCleared_busy hkept) hbusy
          · exact absurd hkept haway
  · have haway : ¬(s.arm a).state.away := by
      unfold ArmState.away
      rcases h with h | h <;> rw [h] <;> simp
    have hhomed : ¬(s.arm a).state.homed := by
      unfold ArmState.homed
      rcases h with h | h <;> rw [h] <;> simp
    rw [State.resetArm_waits h]
    cases homes with
    | false =>
      rw [if_neg Bool.false_ne_true, hcleared, hunowed]
      exact ⟨rfl, rfl, fun h => absurd h Bool.false_ne_true, fun _ => rfl, by simp⟩
    | true =>
      rw [if_pos rfl, hmarked, State.setHomingOwed_homingOwed_self]
      exact ⟨rfl, rfl, fun _ _ _ h => absurd h hhomed, fun _ => rfl, by simp [haway]⟩
  · rw [State.resetArm_away h, hcleared, hunowed]
    exact ⟨rfl, rfl, fun _ _ _ hhomed => absurd h (ArmState.not_away_of_homed hhomed), fun _ => rfl, by simp [h]⟩

/-! ### The scheduler at LINK RESET -/

theorem State.keepPutBack_rest : s.keepPutBack a = { s with sch := (s.keepPutBack a).sch } := by
  unfold State.keepPutBack
  split
  · cases a <;> rfl
  · rfl

theorem State.keepPutBack_work : ArmWork a s (s.keepPutBack a) := by
  unfold State.keepPutBack
  split
  · exact State.updArm_work
  · exact .refl s

/-- The reading of a reel whose put-back is outstanding is all that an arm keeps of its order. -/
theorem State.keepPutBack_arm : ∃ r, (s.keepPutBack a).arm a = { s.arm a with putBack := r } := by
  unfold State.keepPutBack
  split
  · exact ⟨_, State.updArm_arm_self⟩
  · exact ⟨(s.arm a).putBack, rfl⟩

theorem State.keepPutBack_armPort : (s.keepPutBack a).armPort b = s.armPort b := by
  unfold State.keepPutBack
  split
  · exact State.updArm_armPort
  · rfl

theorem Arm.Reset.of_putBack {x y : Arm} {waiting : List ArmFrame} {owed : Bool} {r : Option Reading}
    (h : Arm.Reset homes { x with putBack := r } waiting y owed) : Arm.Reset homes x waiting y owed :=
  ⟨h.cleared, h.marks, h.homed, h.kept, h.owes⟩

/-- The part with the pool and the claims emptied. -/
def State.unscheduled (s : State) : State :=
  { (s.keepPutBack .armA).keepPutBack .armB with
    sch := { ((s.keepPutBack .armA).keepPutBack .armB).sch with pool := [], claims := [] } }

theorem State.resetScheduler_eq : s.resetScheduler homes = (s.unscheduled.resetArm .armA homes).resetArm .armB homes := rfl

/-- What LINK RESET leaves of the scheduler and of the drives whose PLACE it drops (R113). -/
structure SchedulerReset (homes : Bool) (s t : State) : Prop where
  rest : t = { s with drv := t.drv, ms := t.ms, acc := t.acc, notices := t.notices, sch := t.sch, svc := t.svc }
  queue : s.ms.queue = [] → t.ms.queue = []
  missed : ∀ d, (s.drive d).Missed (t.drive d)
  lists : (t.sch.pool, t.sch.claims, t.sch.nextId, t.sch.owedRecovers) = ([], [], s.sch.nextId, s.sch.owedRecovers)
  service : (t.svc.state, t.svc.doorMark) = (s.svc.state, s.svc.doorMark)
  arms : ∀ a, Arm.Reset homes (s.arm a) (s.armPort a).waiting (t.arm a) (t.homingOwed a)

theorem State.unscheduled_rest : s.unscheduled = { s with sch := s.unscheduled.sch } := by
  have hboth {x y : State} {z : SchedBlock} (h : x = { s with sch := x.sch }) (k : y = { x with sch := y.sch }) :
      ({ y with sch := z } : State) = { s with sch := z } := by rw [k, h]
  exact hboth State.keepPutBack_rest State.keepPutBack_rest

theorem State.unscheduled_lists : (s.unscheduled.sch.pool, s.unscheduled.sch.claims, s.unscheduled.sch.nextId, s.unscheduled.sch.owedRecovers) =
    ([], [], s.sch.nextId, s.sch.owedRecovers) := by
  have hlists := (State.keepPutBack_work (s := s.keepPutBack .armA) (a := .armB)).lists.trans (State.keepPutBack_work (s := s) (a := .armA)).lists
  simp only [Prod.mk.injEq] at hlists ⊢
  exact ⟨rfl, rfl, hlists.2⟩

theorem State.unscheduled_arm : ∃ r, s.unscheduled.arm a = { s.arm a with putBack := r } := by
  cases a with
  | armA =>
    obtain ⟨r, hr⟩ := State.keepPutBack_arm (s := s) (a := .armA)
    have hother := (State.keepPutBack_work (s := s.keepPutBack .armA) (a := .armB)).others .armA (by decide)
    exact ⟨r, hother.1.trans hr⟩
  | armB =>
    obtain ⟨r, hr⟩ := State.keepPutBack_arm (s := s.keepPutBack .armA) (a := .armB)
    have hother := (State.keepPutBack_work (s := s) (a := .armA)).others .armB (by decide)
    rw [hother.1] at hr
    exact ⟨r, hr⟩

theorem State.unscheduled_armPort : s.unscheduled.armPort a = s.armPort a := by
  have hkept : ((s.keepPutBack .armA).keepPutBack .armB).armPort a = s.armPort a := State.keepPutBack_armPort.trans State.keepPutBack_armPort
  rw [← hkept]
  cases a <;> rfl

theorem State.resetScheduler_reset (howed : s.svc.owedA = false ∧ s.svc.owedB = false) : SchedulerReset homes s (s.resetScheduler homes) := by
  have hsvc : s.unscheduled.svc = s.svc := by rw [State.unscheduled_rest]
  have hms : s.unscheduled.ms = s.ms := by rw [State.unscheduled_rest]
  have hdrive (d : Fin 16) : s.unscheduled.drive d = s.drive d := by
    unfold State.drive
    rw [State.unscheduled_rest]
  have hbegun := State.unscheduled_lists (s := s)
  have hrest := State.unscheduled_rest (s := s)
  have hports (a : ArmId) := State.unscheduled_armPort (s := s) (a := a)
  have harms (a : ArmId) := State.unscheduled_arm (s := s) (a := a)
  rw [State.resetScheduler_eq]
  generalize s.unscheduled = w at hsvc hms hdrive hbegun hrest hports harms
  have ha : ArmWork .armA w (w.resetArm .armA homes) := State.resetArm_work
  have hb : ArmWork .armB (w.resetArm .armA homes) ((w.resetArm .armA homes).resetArm .armB homes) := State.resetArm_work
  have hlists := hb.lists.trans ha.lists
  simp only [Prod.mk.injEq] at hlists hbegun
  obtain ⟨hpool, hnext, howes⟩ := hlists
  obtain ⟨wpool, wclaims, wnext, wowes⟩ := hbegun
  refine ⟨?_, fun hq => hb.queue (ha.queue (by rw [hms]; exact hq)), fun d => ?_, ?_, ?_, fun a => ?_⟩
  · rw [hb.rest, ha.rest, hrest]
  · rw [← hdrive d]
    exact (ha.missed d).trans (hb.missed d)
  · rw [hpool, hb.claims (ha.claims wclaims), hnext, howes, wpool, wnext, wowes]
  · rw [hb.service, ha.service, hsvc]
  · obtain ⟨r, hr⟩ := harms a
    have hport := hports a
    cases a with
    | armA =>
      have hdone := State.resetArm_reset (homes := homes) (s := w) (a := .armA) (by unfold State.homingOwed; rw [hsvc]; exact howed.1)
      obtain ⟨harm, _, hmark⟩ := hb.others .armA (by decide)
      rw [harm, hmark]
      rw [hr, hport] at hdone
      exact hdone.of_putBack
    | armB =>
      obtain ⟨harm, hline, hmark⟩ := ha.others .armB (by decide)
      have hdone := State.resetArm_reset (homes := homes) (s := w.resetArm .armA homes) (a := .armB)
        (by rw [hmark]; unfold State.homingOwed; rw [hsvc]; exact howed.2)
      rw [harm, hline, hr, hport] at hdone
      exact hdone.of_putBack

end Sys2Proof.Machine
end

section
/-! PROOFS. LINK RESET at the prompts and the attention units (R147, R148), for O27. -/

namespace Sys2Proof.Machine

variable {s t u w : State} {e : Equipment} {o : Output}

/-! ### The attention units that follow prompts at level 0 (R148, R150) -/

theorem highest_zeros {levels : List Nat} (hzero : ∀ l ∈ levels, l = 0) (hne : levels ≠ []) : highest levels = some 0 := by
  obtain ⟨_, hnone, hmem⟩ := highest_spec levels
  cases hlevel : highest levels with
  | none => exact absurd (hnone.mp hlevel) hne
  | some l => rw [hzero l (hmem l hlevel)]

/-- A prompt as it is issued: at level 0, pending, its line still to be shown. -/
def Prompt.fresh (p : Prompt) : Prop := p.level = 0 ∧ p.acked = false ∧ p.lineOwed = true

theorem State.governing_fresh (hfresh : ∀ p ∈ s.pr.list, p.fresh) (hne : s.pr.list ≠ []) : s.governing o = some 0 := by
  have hpending : s.pr.list.filter (fun p => !p.acked) = s.pr.list :=
    List.filter_eq_self.mpr fun p hp => by rw [(hfresh p hp).2.1]; rfl
  have hzero : highest (s.pr.list.map (·.level)) = some 0 := by
    refine highest_zeros (fun l hl => ?_) (fun h => hne (List.map_eq_nil_iff.mp h))
    obtain ⟨p, hp, rfl⟩ := List.mem_map.mp hl
    exact (hfresh p hp).1
  unfold State.governing
  rw [hpending]
  cases o <;> exact hzero

/-- A unit in the cadence of level 0. -/
def State.attending (s : State) (o : Output) : AttnUnit := startCadence (some 0) (s.cadenceAt o (some 0))

theorem State.followed_attending {entered : Option Nat} (hgoverns : s.governing o = some 0)
    (hunit : s.attnUnit o = AttnUnit.powerOn ∨ s.attnUnit o = s.attending o) : s.followed entered o = s.attending o := by
  unfold State.followed
  rw [hgoverns]
  split
  · rfl
  · rename_i hkept
    rcases hunit with hunit | hunit
    · rw [hunit] at hkept
      exact absurd (.inl (Option.some_ne_none 0)) hkept
    · exact hunit

/-- A unit at power-on stays so while no prompt stands. -/
theorem State.followed_powerOn (hlist : s.pr.list = []) (hunit : s.attnUnit o = AttnUnit.powerOn) : s.followed none o = AttnUnit.powerOn := by
  have hgoverns : s.governing o = none := by
    unfold State.governing
    rw [hlist]
    cases o <;> rfl
  unfold State.followed
  rw [hgoverns, hunit]
  rfl

/-! ### The equipment prompts asked for afresh (R147) -/

theorem Prompt.isFor_inj {p : Prompt} {e f : Equipment} (he : p.isFor e = true) (hf : p.isFor f = true) : e = f := by
  cases e <;> cases f <;> simp_all [Prompt.isFor]

/-- The attention units when the equipment prompts of a list have been asked for. -/
def State.attentionFor (s : State) (asked : List Equipment) : AttnBlock :=
  if asked = [] then ⟨AttnUnit.powerOn, AttnUnit.powerOn⟩ else ⟨s.attending .lamp, s.attending .horn⟩

/-- Only the prompts, the attention units and the flags differ. -/
def PromptWork (s t : State) : Prop :=
  t = { s with pr := t.pr, att := t.att, port := { s.port with flags := t.port.flags, noticeOwed := t.port.noticeOwed } }

theorem PromptWork.trans (h : PromptWork s t) (k : PromptWork t u) : PromptWork s u := by
  unfold PromptWork at h k ⊢
  rw [k, h]

/-- The equipment prompts of a list have been asked for where none stood: the first 16 are issued, the others owed (R130, R147). -/
structure Asked (s : State) (asked : List Equipment) (t : State) : Prop where
  rest : PromptWork s t
  panel : { t.pr with list := [], owed := [], counter := 0 } = { s.pr with list := [], owed := [], counter := 0 }
  length : t.pr.list.length = min 16 asked.length
  owed : t.pr.owed = asked.drop 16
  asks : ∀ (i : Nat) (p : Prompt) (e : Equipment), t.pr.list[i]? = some p → asked[i]? = some e → p.isFor e = true ∧ p.fresh
  attention : t.att = s.attentionFor asked

section
variable {asked : List Equipment} (h : Asked s asked t)
include h

theorem Asked.cadenceAt {level : Option Nat} : t.cadenceAt o level = s.cadenceAt o level := by
  have hrest := h.rest
  unfold PromptWork at hrest
  have hsettings : t.port.settings = s.port.settings := by rw [hrest]
  cases level with
  | none => rfl
  | some level =>
    unfold State.cadenceAt State.cadenceItem
    rw [hsettings]

theorem Asked.mem {p : Prompt} (hp : p ∈ t.pr.list) : ∃ e ∈ asked, p.isFor e = true ∧ p.fresh := by
  obtain ⟨i, hi, hget⟩ := List.mem_iff_getElem.mp hp
  have hlt : i < asked.length := by
    have hlength := h.length
    omega
  have hasked : asked[i]? = some asked[i] := List.getElem?_eq_getElem hlt
  exact ⟨asked[i], List.getElem_mem hlt, h.asks i p asked[i] (List.getElem?_eq_some_iff.mpr ⟨hi, hget⟩) hasked⟩

theorem Asked.not_stands (he : e ∉ asked) : ¬t.equipmentStands e = true := by
  refine State.equipmentStands_not (fun p hp => ?_) (fun howed => ?_)
  · obtain ⟨f, hf, hfor, _⟩ := h.mem hp
    exact Bool.eq_false_iff.mpr fun hfor' => he (Prompt.isFor_inj hfor' hfor ▸ hf)
  · rw [h.owed] at howed
    exact he (List.mem_of_mem_drop howed)

theorem Asked.units (o : Output) : t.attnUnit o = AttnUnit.powerOn ∨ t.attnUnit o = t.attending o := by
  have hattending : t.attending o = s.attending o := congrArg (startCadence (some 0)) h.cadenceAt
  have hattention := h.attention
  rw [hattending]
  unfold State.attentionFor at hattention
  split at hattention
  · left
    cases o with
    | lamp => exact congrArg AttnBlock.lamp hattention
    | horn => exact congrArg AttnBlock.horn hattention
  · right
    cases o with
    | lamp => exact congrArg AttnBlock.lamp hattention
    | horn => exact congrArg AttnBlock.horn hattention

end

/-- The prompt of a thing as it is issued. -/
theorem State.issue_equipment : ∃ (p : Prompt) (counter : Nat),
    (s.issue (s.equipmentNames e).1 (s.equipmentNames e).2).1 =
      ({ s with pr := { s.pr with list := s.pr.list ++ [p], counter := counter } }.raise .promptRaised).attend (some 0) ∧
    p.isFor e = true ∧ p.fresh := by
  refine ⟨_, _, rfl, ?_, rfl, rfl, rfl⟩
  cases e <;> simp [Prompt.isFor, State.equipmentNames]

theorem Asked.ask {asked : List Equipment} (h : Asked s asked t) (he : e ∉ asked) : Asked s (asked ++ [e]) (t.askEquipment e) := by
  have hlength := h.length
  have hstands := h.not_stands he
  unfold State.askEquipment
  rw [if_neg hstands]
  by_cases hroom : t.pr.list.length < Config.maxPrompts
  · have hshort : asked.length < 16 := by
      unfold Config.maxPrompts at hroom
      omega
    have hlist : t.pr.list.length = asked.length := by omega
    obtain ⟨p, counter, hissued, hfor, hfresh⟩ := State.issue_equipment (s := t) (e := e)
    rw [if_pos hroom]
    dsimp only
    rw [hissued]
    let x : State := { t with pr := { t.pr with list := t.pr.list ++ [p], counter := counter } }.raise .promptRaised
    have hall : ∀ q ∈ x.pr.list, q.fresh := fun q hq => by
      rcases List.mem_append.mp hq with hq | hq
      · obtain ⟨_, _, _, hq⟩ := h.mem hq
        exact hq
      · rw [List.mem_singleton.mp hq]
        exact hfresh
    have hgoverns (o : Output) : x.governing o = some 0 := State.governing_fresh hall (by simp [x])
    have hfollowed (o : Output) : x.followed (some 0) o = s.attending o := by
      have hunit : x.attnUnit o = t.attnUnit o := by cases o <;> rfl
      have hattending : x.attending o = t.attending o := rfl
      rw [State.followed_attending (hgoverns o) (by rw [hunit, hattending]; exact h.units o), hattending]
      exact congrArg (startCadence (some 0)) h.cadenceAt
    change Asked s (asked ++ [e]) (x.attend (some 0))
    rw [State.attend_eq, hfollowed, hfollowed]
    refine ⟨?_, h.panel, ?_, ?_, fun i q f hq hf => ?_, ?_⟩
    · exact h.rest.trans (show PromptWork t { x with att := ⟨s.attending .lamp, s.attending .horn⟩ } from rfl)
    · change (t.pr.list ++ [p]).length = _
      rw [List.length_append, List.length_append, hlist, List.length_singleton, List.length_singleton]
      omega
    · change t.pr.owed = _
      rw [h.owed, List.drop_eq_nil_of_le (by omega), List.drop_eq_nil_of_le (by rw [List.length_append, List.length_singleton]; omega)]
    · change (t.pr.list ++ [p])[i]? = some q at hq
      by_cases hi : i < asked.length
      · rw [List.getElem?_append_left (by omega)] at hq
        rw [List.getElem?_append_left hi] at hf
        exact h.asks i q f hq hf
      · rw [List.getElem?_append_right (by omega), hlist] at hq
        rw [List.getElem?_append_right (by omega)] at hf
        obtain ⟨rfl, _⟩ : p = q ∧ i - asked.length = 0 := by
          cases hk : i - asked.length with
          | zero => rw [hk] at hq; exact ⟨Option.some.inj hq, rfl⟩
          | succ k => rw [hk] at hq; cases hq
        cases hk : i - asked.length with
        | zero =>
          rw [hk] at hf
          rw [← Option.some.inj hf]
          exact ⟨hfor, hfresh⟩
        | succ k => rw [hk] at hf; cases hf
    · unfold State.attentionFor
      rw [if_neg (by simp)]
  · have hlong : 16 ≤ asked.length := by
      unfold Config.maxPrompts at hroom
      omega
    rw [if_neg hroom]
    refine ⟨?_, h.panel, ?_, ?_, fun i q f hq hf => ?_, ?_⟩
    · exact h.rest.trans (show PromptWork t { t with pr := { t.pr with owed := t.pr.owed ++ [e] } } from rfl)
    · change t.pr.list.length = _
      rw [List.length_append, List.length_singleton, hlength]
      omega
    · change t.pr.owed ++ [e] = _
      rw [h.owed, List.drop_append_of_le_length hlong]
    · have hi : i < asked.length := by
        obtain ⟨hi, _⟩ := List.getElem?_eq_some_iff.mp (show t.pr.list[i]? = some q from hq)
        omega
      rw [List.getElem?_append_left hi] at hf
      exact h.asks i q f hq hf
    · have hne : asked ≠ [] := fun hnil => by rw [hnil] at hlong; simp at hlong
      change t.att = _
      rw [h.attention]
      unfold State.attentionFor
      rw [if_neg hne, if_neg (by simp)]

theorem Asked.askAll (l : List Equipment) {asked : List Equipment} (h : Asked s asked t) (hnodup : (asked ++ l).Nodup) :
    Asked s (asked ++ l) (l.foldl State.askEquipment t) := by
  induction l generalizing asked t with
  | nil => rw [List.append_nil]; exact h
  | cons e rest ih =>
    have he : e ∉ asked := fun hmem => (List.nodup_append.mp hnodup).2.2 e hmem e List.mem_cons_self rfl
    have hsplit : asked ++ e :: rest = (asked ++ [e]) ++ rest := by simp
    rw [hsplit] at hnodup ⊢
    exact ih (h.ask he) hnodup

/-! ### The conditions that ask for an equipment prompt (R147) -/

theorem map_filter_eq_filterMap {α β : Type} {p : α → Bool} {q : α → Prop} [DecidablePred q] {f : α → β} (hpq : ∀ x, p x = true ↔ q x)
    (l : List α) : (l.filter p).map f = l.filterMap (fun x => if q x then some (f x) else none) := by
  induction l with
  | nil => rfl
  | cons x rest ih =>
    by_cases hx : q x
    · rw [List.filter_cons_of_pos ((hpq x).mpr hx), List.map_cons, ih, List.filterMap_cons, if_pos hx]
    · rw [List.filter_cons_of_neg (mt (hpq x).mp hx), ih, List.filterMap_cons, if_neg hx]

theorem State.derivedEquipment_eq : s.derivedEquipment = presentEquipment s := by
  unfold State.derivedEquipment presentEquipment
  rw [map_filter_eq_filterMap (q := fun d => (s.drive d).state = .check) (fun d => beq_iff_eq),
    map_filter_eq_filterMap (q := fun a => (s.arm a).state = .outOfService ∧ (s.arm a).leaveMark = false) (fun a => by simp),
    map_filter_eq_filterMap (q := fun p => (s.station p).presence = true ∧ (s.station p).volume = none ∧ (s.station p).reserved = none)
      (fun p => by simp [and_assoc])]
  rfl

theorem State.derivedEquipment_nodup : s.derivedEquipment.Nodup := by
  have hdrives : (allDrives.filter (fun d => (s.drive d).state == .check)).Nodup := (List.nodup_finRange 16).filter _
  have harms : (allArms.filter (fun a => (s.arm a).state == .outOfService && !(s.arm a).leaveMark)).Nodup :=
    (show allArms.Nodup by decide).filter _
  have hpositions : (allPositions.filter (fun p => (s.station p).presence && (s.station p).volume.isNone && (s.station p).reserved.isNone)).Nodup :=
    (List.nodup_finRange 8).filter _
  have hparts := ((hdrives.map (f := Equipment.driveCheck) (fun _ _ h => Equipment.driveCheck.inj h)).append
    (harms.map (f := Equipment.armOut) (fun _ _ h => Equipment.armOut.inj h)) ?drives).append
    (hpositions.map (f := Equipment.stationUnknown) (fun _ _ h => Equipment.stationUnknown.inj h)) ?positions
  · exact hparts
  case drives =>
    intro e hd ha
    obtain ⟨d, _, rfl⟩ := List.mem_map.mp hd
    obtain ⟨a, _, h⟩ := List.mem_map.mp ha
    cases h
  case positions =>
    intro e hd hp
    obtain ⟨p, _, rfl⟩ := List.mem_map.mp hp
    rcases List.mem_append.mp hd with hd | hd
    · obtain ⟨d, _, h⟩ := List.mem_map.mp hd
      cases h
    · obtain ⟨a, _, h⟩ := List.mem_map.mp hd
      cases h

/-- What is asked for depends on the drives, the arms and the positions. -/
theorem presentEquipment_congr (hdrives : ∀ d, t.drive d = s.drive d) (harms : ∀ a, t.arm a = s.arm a) (hstations : ∀ p, t.station p = s.station p) :
    presentEquipment t = presentEquipment s := by
  unfold presentEquipment
  simp only [hdrives, harms, hstations]

/-! ### The prompts at LINK RESET -/

/-- The part without prompts and with its attention units at power-on. -/
def State.unprompted (s : State) : State :=
  { s with
    pr := { s.pr with list := [], owed := [], answers := [], withdrawals := [], allWithdrawn := true }
    att := ⟨AttnUnit.powerOn, AttnUnit.powerOn⟩ }

theorem State.unprompted_asked : Asked s.unprompted [] s.unprompted :=
  ⟨rfl, rfl, rfl, rfl, fun i p e hp => absurd hp (by simp [State.unprompted]), rfl⟩

theorem Asked.attend {asked : List Equipment} (h : Asked s asked t) : Asked s asked (t.attend none) := by
  have hfollowed : (⟨t.followed none .lamp, t.followed none .horn⟩ : AttnBlock) = t.att := by
    have hattention := h.attention
    unfold State.attentionFor at hattention
    split at hattention
    · rename_i hnil
      have hlist : t.pr.list = [] := List.eq_nil_of_length_eq_zero (by rw [h.length, hnil]; rfl)
      rw [State.followed_powerOn (o := .lamp) hlist (congrArg AttnBlock.lamp hattention), State.followed_powerOn (o := .horn) hlist (congrArg AttnBlock.horn hattention),
        hattention]
    · rename_i hne
      have hlist : t.pr.list ≠ [] := fun hnil => by
        have hlength := h.length
        have hpos := List.length_pos_iff.mpr hne
        rw [hnil, List.length_nil] at hlength
        omega
      have hgoverns (o : Output) : t.governing o = some 0 :=
        State.governing_fresh (fun p hp => by obtain ⟨_, _, _, hp⟩ := h.mem hp; exact hp) hlist
      have hattending (o : Output) : t.attending o = s.attending o := congrArg (startCadence (some 0)) h.cadenceAt
      rw [State.followed_attending (hgoverns .lamp) (h.units .lamp), State.followed_attending (hgoverns .horn) (h.units .horn), hattending,
        hattending, hattention]
  rw [State.attend_eq, hfollowed]
  exact h

theorem State.resetPrompts_asked : Asked s.unprompted (presentEquipment s) s.resetPrompts := by
  have hall := Asked.askAll (s := s.unprompted) (t := s.unprompted) s.unprompted.derivedEquipment State.unprompted_asked
    (by rw [List.nil_append]; exact State.derivedEquipment_nodup)
  have hpresent : s.unprompted.derivedEquipment = presentEquipment s :=
    State.derivedEquipment_eq.trans (presentEquipment_congr (fun _ => rfl) (fun a => by cases a <;> rfl) (fun _ => rfl))
  rw [List.nil_append] at hall
  have hdone := hall.attend
  rw [hpresent] at hdone
  rw [State.resetPrompts_eq]
  change Asked s.unprompted (presentEquipment s) ((s.unprompted.derivedEquipment.foldl State.askEquipment s.unprompted).attend none)
  rw [hpresent]
  exact hdone

end Sys2Proof.Machine
end

section
/-! PROOFS. LINK RESET takes hold (O27): what it leaves of the blocks. -/

namespace Sys2Proof.Machine

variable {s t u p : State} {d : Fin 16} {a : ArmId}

/-! ### The stages of the reset -/

/-- The part without requests and prompts. -/
def State.withoutWork (s : State) : State := { s with ms := ⟨[]⟩, pr := { s.pr with list := [] } }

/-- The blocks but for the prompts at LINK RESET. -/
def State.unitsCleared (s : State) : State :=
  ((s.withoutWork.resetDrives.resetAudit.resetService).resetScheduler (resetHomes s.service)).resetStations

theorem State.resetBlocks_eq : s.resetBlocks = s.unitsCleared.resetPrompts.notify .recovers := rfl

/-- The audit record at LINK RESET (R124). -/
def AuditBlock.reset (b : AuditBlock) : AuditBlock :=
  if b.state = .idle then b else { b with state := .idle, outcome := .aborted, scanOwed := false, scan := none, held := false }

theorem State.resetAudit_eq : s.resetAudit = { s with aud := s.aud.reset } := by
  unfold State.resetAudit AuditBlock.reset
  split <;> rfl

theorem State.resetService_rest : s.resetService = { s with
    svc := ⟨stateAfterReset s.svc.state, s.svc.doorMark, false, false⟩
    port := { s.port with flags := s.resetService.port.flags, noticeOwed := s.resetService.port.noticeOwed } } := by
  unfold State.resetService
  dsimp only
  split
  · rename_i hsame
    have hstate : stateAfterReset s.svc.state = s.svc.state := hsame
    rw [hstate]
    rfl
  · rfl

theorem AuditBlock.reset_spec {b : AuditBlock} :
    (b.reset.range, b.reset.deferredPass, b.reset.nextSlot, b.reset.deferred) = (b.range, b.deferredPass, b.nextSlot, b.deferred) ∧
    (b.reset.matched, b.reset.foundMissing, b.reset.foundForeign, b.reset.foundMisplaced, b.reset.recovered, b.reset.skipped) =
      (b.matched, b.foundMissing, b.foundForeign, b.foundMisplaced, b.recovered, b.skipped) ∧
    b.reset.state = .idle ∧ (b.state = .idle → b.reset = b) ∧
    (b.state ≠ .idle → b.reset.outcome = .aborted ∧ b.reset.scanOwed = false ∧ b.reset.scan = none) := by
  unfold AuditBlock.reset
  split
  · rename_i hidle
    exact ⟨rfl, rfl, hidle, fun _ => rfl, fun h => absurd hidle h⟩
  · rename_i hruns
    exact ⟨rfl, rfl, rfl, fun h => absurd h hruns, fun _ => ⟨rfl, rfl, rfl⟩⟩

theorem resetHomes_iff {st : SvcState} : resetHomes st = true ↔ st ≠ .starting ∧ st ≠ .quiesced ∧ st ≠ .interrupted := by
  cases st <;> simp [resetHomes]

theorem stateAfterReset_spec {st : SvcState} : (resetHomes st = true → stateAfterReset st = .homing) ∧
    (¬resetHomes st = true → stateAfterReset st = st) := by
  cases st <;> simp [resetHomes, stateAfterReset]

/-- The blocks but for the prompts, as the reset leaves them. -/
structure UnitsCleared (s t : State) : Prop where
  rest : t = { s with
    drv := t.drv, ms := t.ms, acc := t.acc, notices := t.notices, sch := t.sch, svc := t.svc, mon := t.mon
    aud := s.aud.reset, pr := { s.pr with list := [] }
    port := { s.port with flags := t.port.flags, noticeOwed := t.port.noticeOwed } }
  queue : t.ms.queue = []
  lists : (t.sch.pool, t.sch.claims, t.sch.nextId) = ([], [], s.sch.nextId)
  drives : ∀ d, ∃ x : Drive, (s.drive d).Reset x ∧ x.Missed (t.drive d)
  placed : ∀ d : Fin 16, (s.drive d).state = .placed → t.sch.owedRecovers[d] = true
  stations : ∀ q, t.station q = { s.station q with reserved := none, awaiting := none, importOwed := false }
  service : (t.svc.state, t.svc.doorMark) = (stateAfterReset s.svc.state, s.svc.doorMark)
  arms : ∀ a, Arm.Reset (resetHomes s.svc.state) (s.arm a) (s.armPort a).waiting (t.arm a) (t.homingOwed a)

theorem State.resetStations_station {q : Fin 8} :
    s.resetStations.station q = { s.station q with reserved := none, awaiting := none, importOwed := false } := by
  unfold State.resetStations State.mapStations State.station
  simp [mapVec]

theorem State.unitsCleared_spec : UnitsCleared s s.unitsCleared := by
  have hdrives := State.resetDrives_reset (s := s.withoutWork)
  have hunits : s.unitsCleared = ((s.withoutWork.resetDrives.resetAudit.resetService).resetScheduler (resetHomes s.service)).resetStations := rfl
  have hqueue := hdrives.queue rfl
  have hrest := hdrives.rest
  have hreset := hdrives.reset
  generalize s.withoutWork.resetDrives = x at hunits hrest hreset hqueue
  have haudit := State.resetAudit_eq (s := x)
  have hservice := State.resetService_rest (s := x.resetAudit)
  generalize x.resetAudit = y at hunits haudit hservice
  generalize y.resetService = z at hunits hservice
  have hz : z = { x with
      aud := x.aud.reset, svc := ⟨stateAfterReset x.svc.state, x.svc.doorMark, false, false⟩
      port := { x.port with flags := z.port.flags, noticeOwed := z.port.noticeOwed } } := by
    rw [hservice, haudit]
  have hscheduler : SchedulerReset (resetHomes s.service) z (z.resetScheduler (resetHomes s.service)) :=
    State.resetScheduler_reset (by rw [hz]; exact ⟨rfl, rfl⟩)
  generalize z.resetScheduler (resetHomes s.service) = w at hunits hscheduler
  have hsvc : x.svc = s.svc := by rw [hrest]; rfl
  have harm (a : ArmId) : z.arm a = s.arm a := by rw [hz, hrest]; cases a <;> rfl
  have hport (a : ArmId) : z.armPort a = s.armPort a := by rw [hz, hrest]; cases a <;> rfl
  have hdrive (d : Fin 16) : z.drive d = x.drive d := by rw [hz]; rfl
  have hlists := hscheduler.lists
  simp only [Prod.mk.injEq] at hlists
  obtain ⟨hpool, hclaims, hnext, howes⟩ := hlists
  rw [hunits]
  refine ⟨?_, hscheduler.queue (by rw [hz]; exact hqueue), ?_, fun d => ⟨x.drive d, (hreset d (List.mem_finRange d)).1, ?_⟩, fun d hd => ?_,
    fun q => ?_, ?_, fun a => ?_⟩
  · change { w with mon := _ } = _
    rw [hscheduler.rest, hz, hrest]
    rfl
  · change (w.sch.pool, w.sch.claims, w.sch.nextId) = _
    rw [hpool, hclaims, hnext, hz, hrest]
    rfl
  · rw [← hdrive d]
    exact hscheduler.missed d
  · change w.sch.owedRecovers[d] = true
    rw [howes, hz]
    exact (hreset d (List.mem_finRange d)).2 hd
  · rw [State.resetStations_station]
    have hstation : w.station q = s.station q := by
      unfold State.station
      rw [hscheduler.rest, hz, hrest]
      rfl
    rw [hstation]
  · change (w.svc.state, w.svc.doorMark) = _
    rw [hscheduler.service, hz, hsvc]
  · have hdone := hscheduler.arms a
    rw [harm, hport] at hdone
    have harm' : w.resetStations.arm a = w.arm a := by cases a <;> rfl
    have howed' : w.resetStations.homingOwed a = w.homingOwed a := by cases a <;> rfl
    rw [harm', howed']
    exact hdone

/-! ### What the reset leaves of the blocks -/

theorem Asked.presentEquipment {l : List Equipment} (h : Asked s.unprompted l t) : presentEquipment t = presentEquipment s := by
  have hrest := h.rest
  unfold PromptWork at hrest
  refine presentEquipment_congr (fun d => ?_) (fun a => ?_) (fun q => ?_)
  · rw [hrest]
    rfl
  · rw [hrest]
    cases a <;> rfl
  · rw [hrest]
    rfl

/-- The prompts come last, and change nothing else but the attention units and the flags. -/
theorem State.resetBlocks_spec : ∃ x w notices, UnitsCleared s x ∧ Asked x.unprompted (presentEquipment w) w ∧
    s.resetBlocks = { w with notices := notices } := by
  have hasked := State.resetPrompts_asked (s := s.unitsCleared)
  have hcleared : UnitsCleared s s.unitsCleared := State.unitsCleared_spec
  have hblocks := State.resetBlocks_eq (s := s)
  generalize s.unitsCleared = x at hasked hcleared hblocks
  generalize x.resetPrompts = w at hasked hblocks
  refine ⟨x, w, (w.notify .recovers).notices, hcleared, ?_, hblocks.trans ?_⟩
  · rw [hasked.presentEquipment]
    exact hasked
  · unfold State.notify
    split <;> rfl

section
variable {x w : State} (h : UnitsCleared (portReset s) x) (k : Asked x.unprompted (presentEquipment w) w)
include h k

theorem listsReset_of : listsReset s w := by
  have hx := h.rest
  have hw := k.rest
  unfold PromptWork at hw
  have hpanel := k.panel
  have hlists := h.lists
  have haud : w.aud = s.aud.reset := by rw [hw, hx]; rfl
  have hport : w.port.replyOwed = [] := by rw [hw, hx]; rfl
  have hms : w.ms.queue = [] := by rw [hw]; exact h.queue
  have hsch : w.sch = x.sch := by rw [hw]; rfl
  have hpr : x.pr = { s.pr with list := [] } := by rw [hx]; rfl
  simp only [PromptBlock.mk.injEq, State.unprompted, hpr, true_and] at hpanel
  obtain ⟨htemplates, hsending, hanswers, hwithdrawals, hwithdrawn, hheld, hlong⟩ := hpanel
  simp only [Prod.mk.injEq] at hlists
  obtain ⟨hpool, hclaims, hnext⟩ := hlists
  unfold listsReset
  rw [haud, hsch]
  refine ⟨hms, hport, hpool, hclaims, hnext, by rw [hanswers, hwithdrawals, hwithdrawn, hsending], htemplates, by rw [hheld, hlong], ?_, k.owed,
    fun i q e hq he => k.asks i q e hq he, AuditBlock.reset_spec⟩
  rw [k.length]

theorem unitsReset_of : unitsReset s w := by
  have hw := k.rest
  unfold PromptWork at hw
  have hdrive (d : Fin 16) : w.drive d = x.drive d := by rw [hw]; rfl
  have harm (a : ArmId) : w.arm a = x.arm a := by rw [hw]; cases a <;> rfl
  have hstation (q : Fin 8) : w.station q = x.station q := by rw [hw]; rfl
  have howed (a : ArmId) : w.homingOwed a = x.homingOwed a := by rw [hw]; cases a <;> rfl
  have hrecovers : w.sch.owedRecovers = x.sch.owedRecovers := by rw [hw]; rfl
  refine ⟨fun d => ?_, fun q => ?_, fun a => ?_⟩
  · obtain ⟨y, hreset, hmissed⟩ := h.drives d
    obtain ⟨hkept, hdetached, hgiven, hunloaded⟩ := hreset.missed hmissed
    rw [hdrive d]
    exact ⟨hkept, hdetached, fun hclaimed hexpected _ => hgiven hclaimed hexpected,
      fun hplaced => ⟨hunloaded hplaced, by rw [hrecovers]; exact h.placed d hplaced⟩⟩
  · rw [hstation]
    exact h.stations q
  · have hreset := h.arms a
    have hcleared := hreset.cleared
    simp only [Prod.mk.injEq] at hcleared
    obtain ⟨horder, hmove, hlinger, hcount, hcolumn⟩ := hcleared
    rw [harm, howed]
    have hhomes : resetHomes s.svc.state = true ↔ s.svc.state ≠ .starting ∧ s.svc.state ≠ .quiesced ∧ s.svc.state ≠ .interrupted := resetHomes_iff
    refine ⟨horder, hmove, hlinger, hcount, hcolumn, fun homes hout hwaiting hstate => ?_, fun hkept => ?_, fun haway => ?_⟩
    · exact ⟨hreset.homed (hhomes.mpr homes) hout hwaiting hstate,
        hreset.owes.mpr ⟨hhomes.mpr homes, ArmState.not_away_of_homed hstate⟩⟩
    · refine hreset.kept (hkept.imp (fun hnot => ?_) Or.inl)
      exact Bool.eq_false_iff.mpr (mt hhomes.mp hnot)
    · exact hreset.kept (.inr (.inr haway))

theorem serviceReset_of : serviceReset s w := by
  have hw := k.rest
  unfold PromptWork at hw
  have hx := h.rest
  have hsvc : w.svc = x.svc := by rw [hw]; rfl
  have howed (a : ArmId) : w.homingOwed a = x.homingOwed a := by rw [hw]; cases a <;> rfl
  have hservice := h.service
  simp only [Prod.mk.injEq] at hservice
  obtain ⟨hstate, hmark⟩ := hservice
  have hhomes : resetHomes s.svc.state = true ↔ s.svc.state ≠ .starting ∧ s.svc.state ≠ .quiesced ∧ s.svc.state ≠ .interrupted := resetHomes_iff
  have hattending (o : Output) : x.unprompted.attending o = startCadence (some 0) (s.cadenceAt o (some 0)) := by
    have hsettings : x.port.settings = s.port.settings := by rw [hx]; rfl
    unfold State.attending State.cadenceAt State.cadenceItem
    rw [show x.unprompted.port.settings = s.port.settings from hsettings]
  have hattention := k.attention
  unfold State.attentionFor at hattention
  rw [hattending, hattending] at hattention
  refine ⟨fun homes => ?_, fun homes => ?_, by rw [hsvc]; exact hmark, fun a => ?_, fun hnone => ?_, fun hsome => ?_⟩
  · rw [hsvc, hstate]
    exact stateAfterReset_spec.1 (hhomes.mpr homes)
  · rw [hsvc, hstate]
    exact stateAfterReset_spec.2 (mt hhomes.mp homes)
  · rw [howed]
    refine (h.arms a).owes.trans ?_
    change resetHomes s.svc.state = true ∧ ¬(s.arm a).state.away ↔ _
    rw [hhomes, ArmState.away, not_or, not_or]
  · rw [if_pos hnone] at hattention
    exact hattention
  · rw [if_neg hsome] at hattention
    exact hattention

end

end Sys2Proof.Machine
end

section
/-! PROOFS. LINK RESET takes hold (O27): the step, and what stays as it was. -/

namespace Sys2Proof.Machine

variable {s t u w x y z : State} {d : Fin 16} {a : ArmId} {p : Fin 8}

/-! ### The step in which the reset takes hold -/

theorem State.resetPort_eq : ({ s with port := { s.port with sending := none } } : State).resetPort = portReset s := by
  have hplain : plainPositions &&& plainPositions = (0x1E4F : Half) := by decide
  unfold State.resetPort State.clearEvents State.setEvents
  dsimp only
  rw [hplain]
  rfl

/-- The part once the blocks have acted on the reset, with the notice owed when the summary is not empty (R206). -/
def State.afterReset (s : State) : State :=
  let v := ((portReset s).afterAct (portReset s).resetBlocks).refreshConditions
  { v with port := { v.port with noticeOwed := v.summary != 0 } }

theorem exec_resetTakesHold_awaited (h : s.resetAwaited = true) : exec .resetTakesHold s = .next s.afterReset.finishStep := by
  have hsent : s.frameSent = s.afterReset := by
    unfold State.resetAwaited at h
    unfold State.frameSent
    split at h
    · rename_i hsending
      rw [hsending]
      change ({ s with port := { s.port with sending := none } } : State).performReset = _
      unfold State.performReset
      rw [State.resetPort_eq]
      rfl
    · cases h
  change Host.Outcome.next (if s.resetAwaited then s.frameSent else s).finishStep = _
  rw [if_pos h, hsent]

/-! ### What the free line takes when nothing waits to be taken or answered -/

/-- Only what the line carries, the queue and the tags of the claims differ. -/
structure LineWork (s t : State) : Prop where
  rest : t = { s with ms := t.ms, drv := t.drv, port := { s.port with
    sending := t.port.sending, replyOwed := t.port.replyOwed, noticeOwed := t.port.noticeOwed, flags := t.port.flags } }
  queue : s.ms.queue = [] → t.ms.queue = []
  wiring : ∀ d, (t.drive d).wiring = (s.drive d).wiring

theorem LineWork.refl (s : State) : LineWork s s := ⟨rfl, id, fun _ => rfl⟩

theorem LineWork.trans (h : LineWork s t) (k : LineWork t u) : LineWork s u where
  rest := by rw [k.rest, h.rest]
  queue hq := k.queue (h.queue hq)
  wiring d := (k.wiring d).trans (h.wiring d)

theorem State.leaveQueue_work {tag : Half} : LineWork s (s.leaveQueue tag) where
  rest := rfl
  queue hq := by
    change s.ms.queue.filter _ = []
    rw [hq]
    rfl
  wiring d := by
    unfold State.leaveQueue State.drive
    simp [mapVec, Drive.wiring]

theorem State.handOut_work {m : OutMsg} : LineWork s (s.handOut m) := ⟨rfl, id, fun _ => rfl⟩

theorem State.nextOut_work (himmediate : s.port.immediate = []) (h : s.nextOut = some t) : LineWork s t := by
  unfold State.nextOut at h
  rw [himmediate] at h
  cases hsending : s.port.sending with
  | some m =>
    rw [hsending] at h
    cases h
  | none =>
    rw [hsending] at h
    cases howed : s.port.replyOwed with
    | nil =>
      rw [howed] at h
      dsimp only at h
      split at h
      · rw [← Option.some.inj h]
        exact State.handOut_work
      · cases h
    | cons reply rest =>
      rw [howed] at h
      have htaken : LineWork s { s with port := { s.port with replyOwed := rest } } := ⟨rfl, id, fun _ => rfl⟩
      rw [← Option.some.inj h]
      exact (htaken.trans State.leaveQueue_work).trans State.handOut_work

theorem State.pump_work (n : Nat) (hbuffer : s.port.buffer = []) (himmediate : s.port.immediate = []) : LineWork s (State.pump n s) := by
  induction n generalizing s with
  | zero => exact .refl s
  | succ n ih =>
    unfold State.pump
    split
    · rename_i t hnext
      have hwork := State.nextOut_work himmediate hnext
      have hport := hwork.rest
      exact hwork.trans (ih (by rw [hport]; exact hbuffer) (by rw [hport]; exact himmediate))
    · have htakes : s.mayTake = false := by
        unfold State.mayTake
        rw [hbuffer]
        exact Bool.and_false _
      rw [htakes]
      exact .refl s

/-- The end of a step with nothing in the buffer and no answer waiting. -/
theorem State.finishStep_work (hbuffer : s.port.buffer = []) (himmediate : s.port.immediate = []) :
    ∃ t, s.finishStep = t.panelPump ∧ LineWork s t := by
  refine ⟨_, State.finishStep_eq (by unfold State.BufferFits; rw [hbuffer]; exact Nat.zero_le _), ?_⟩
  have hrefreshed : LineWork s s.refreshConditions := ⟨rfl, id, fun _ => rfl⟩
  exact hrefreshed.trans (State.pump_work pumpRounds hbuffer himmediate)

/-- A panel line that owes ALL PROMPTS WITHDRAWN takes it at once when it is free (R135). -/
theorem State.panelPump_withdrawn (h : s.pr.allWithdrawn = true) : s.panelPump.pr =
    if s.pr.sending = none then { s.pr with allWithdrawn := false, sending := some (allWithdrawnLine ++ [0x0D, 0x0A]) } else s.pr := by
  unfold State.panelPump
  cases hsending : s.pr.sending with
  | none =>
    dsimp only
    rw [if_pos h, if_pos rfl]
    rfl
  | some line => exact (if_neg (Option.some_ne_none line)).symm

/-! ### What stays as it was -/

theorem State.resetBlocks_keeps : Keeps noLaw s.withoutWork s.unitsCleared ∧ Keeps noLaw s.unitsCleared.unprompted s.resetBlocks := by
  constructor
  · exact (Keeps.refl s.withoutWork).resetDrives.resetAudit.resetService.resetScheduler.resetStations
  · have hasked := (Keeps.refl (L := noLaw) s.unitsCleared.unprompted).askAll (l := s.unitsCleared.unprompted.derivedEquipment)
    have hdone := hasked.notify (n := .recovers)
    rw [State.resetBlocks_eq, State.resetPrompts_eq]
    exact hdone

/-- What the reset and all that it causes keep of a part: `z` is the part once the blocks have acted (R1, R17, R132, R161, R190, R203, R205). -/
structure ResetKeeps (s z : State) : Prop where
  queue : z.ms.queue = []
  fences : z.dir.fences = s.dir.fences
  volumes : Canonical s.dir.entries → z.volumeIdentities = s.volumeIdentities
  accounts : Canonical s.acc.accounts → z.accountIdentities = s.accountIdentities
  records : s.acc.records <+: z.acc.records
  drives : ∀ d, (z.drive d).wiring = (s.drive d).wiring
  stations : ∀ p, (z.station p).wiring = (s.station p).wiring
  door : (z.mon.doorRaw, z.mon.doorClosed, z.mon.doorInterval) = (s.mon.doorRaw, s.mon.doorClosed, s.mon.doorInterval)
  panel : (z.pr.templates, z.pr.sending, z.pr.held, z.pr.tooLong, z.pr.answers, z.pr.allWithdrawn) =
    (s.pr.templates, s.pr.sending, s.pr.held, s.pr.tooLong, [], true)

theorem ResetKeeps.of_keeps (h : Keeps noLaw s.withoutWork x) (k : Keeps noLaw x.unprompted z) : ResetKeeps s z where
  queue := by
    have hasked : z.requestsAsked = [] := k.asked.trans h.asked
    exact List.map_eq_nil_iff.mp hasked
  fences := k.fences.trans h.fences
  volumes hc := by
    obtain ⟨hcanonical, hvolumes⟩ := h.volumes hc
    exact (k.volumes hcanonical).2.trans hvolumes
  accounts hc := by
    obtain ⟨hcanonical, haccounts⟩ := h.accounts hc
    exact (k.accounts hcanonical).2.trans haccounts
  records := h.records.trans k.records
  drives d := (k.drives d).trans (h.drives d)
  stations p := (k.stations p).trans (h.stations p)
  door := k.door.trans h.door
  panel := by
    have hpanel := h.panel
    have kpanel := k.panel
    simp only [Prod.mk.injEq] at hpanel kpanel ⊢
    obtain ⟨htemplates, hsending, hheld, hlong, _, _⟩ := hpanel
    obtain ⟨ktemplates, ksending, kheld, klong, kanswers, kwithdrawn⟩ := kpanel
    exact ⟨ktemplates.trans htemplates, ksending.trans hsending, kheld.trans hheld, klong.trans hlong, kanswers, kwithdrawn⟩

/-- The blocks once they have acted on the reset. -/
def State.resetSettled (s : State) : State :=
  State.drain Config.fuel ((State.follow (portReset s) (portReset s).resetBlocks).notify .retry)

theorem State.resetSettled_keeps : ResetKeeps s s.resetSettled := by
  obtain ⟨h, k⟩ := State.resetBlocks_keeps (s := portReset s)
  have hsettled : Keeps noLaw (portReset s).unitsCleared.unprompted s.resetSettled := k.follow.notify.drain
  have hreset := ResetKeeps.of_keeps h hsettled
  exact ⟨hreset.queue, hreset.fences, hreset.volumes, hreset.accounts, hreset.records, hreset.drives, hreset.stations, hreset.door, hreset.panel⟩

theorem State.confined_rest {b : Bool} : ({ (s.confine w).refreshConditions with
      port := { (s.confine w).refreshConditions.port with noticeOwed := b } } : State) =
    { w with
      port := { s.port with flags := (s.confine w).refreshConditions.port.flags, noticeOwed := b, replyOwed := w.port.replyOwed }
      pending := s.pending } := rfl

/-- Once the reset has taken hold the port is the one it was reset to but for its flags, its notice and its reply-owed list. -/
theorem State.afterReset_rest : ∃ flags owed, s.afterReset = { s.resetSettled with
    port := { (portReset s).port with flags := flags, noticeOwed := owed, replyOwed := s.resetSettled.port.replyOwed }
    pending := s.pending } := by
  unfold State.afterReset State.afterAct State.resetSettled
  exact ⟨_, _, State.confined_rest⟩

/-- Settles O27: the blocks act by their own rules (`listsReset_of`, `unitsReset_of`, `serviceReset_of`), and what follows keeps the rest
(`State.resetSettled_keeps`, `State.finishStep_work`). -/
theorem linkResetTakesHold : Obligations.LinkResetTakesHold := by
  intro s hawaited hvolumes haccounts
  have hexec := exec_resetTakesHold_awaited hawaited
  refine ⟨⟨_, hexec, ?_⟩, ?_⟩
  · have hkeeps := State.resetSettled_keeps (s := s)
    obtain ⟨flags, owed, hafter⟩ := State.afterReset_rest (s := s)
    generalize s.resetSettled = w at hkeeps hafter
    generalize s.afterReset = y at hafter
    obtain ⟨t, hfinish, hwork⟩ := State.finishStep_work (s := y) (by rw [hafter]; rfl) (by rw [hafter]; rfl)
    have hrest := hwork.rest
    have hpr : t.pr = w.pr := by rw [hrest, hafter]
    have hpanel := hkeeps.panel
    simp only [Prod.mk.injEq] at hpanel
    obtain ⟨htemplates, hsending, hheld, hlong, hanswers, hwithdrawn⟩ := hpanel
    have hdone : t.panelPump.pr =
        if w.pr.sending = none then { w.pr with allWithdrawn := false, sending := some (allWithdrawnLine ++ [0x0D, 0x0A]) } else w.pr := by
      rw [State.panelPump_withdrawn (by rw [hpr]; exact hwithdrawn), hpr]
    have hdrv : t.panelPump.drv = t.drv := State.panelPump_drv
    have hmon : t.panelPump.mon = w.mon := (congrArg State.mon State.panelPump_rest).trans (by rw [hrest, hafter])
    have hdir : t.panelPump.dir = w.dir := State.panelPump_dir.trans (by rw [hrest, hafter])
    have hacc : t.panelPump.acc = w.acc := State.panelPump_acc.trans (by rw [hrest, hafter])
    have hms : t.panelPump.ms = t.ms := State.panelPump_ms
    have hport : t.panelPump.port = t.port := State.panelPump_port
    have hline : t.port = { (portReset s).port with
        sending := t.port.sending, replyOwed := t.port.replyOwed, noticeOwed := t.port.noticeOwed, flags := t.port.flags } := by
      have hparts := congrArg State.port hrest
      rw [hafter] at hparts
      exact hparts
    have hwired (d : Fin 16) : (t.panelPump.drive d).wiring = (s.drive d).wiring := by
      have hdrives : (t.drive d).wiring = (w.drive d).wiring := (hwork.wiring d).trans (by rw [hafter]; rfl)
      rw [show t.panelPump.drive d = t.drive d by unfold State.drive; rw [hdrv]]
      exact hdrives.trans (hkeeps.drives d)
    rw [hfinish, hport, hms, hdone]
    refine ⟨hwork.queue (by rw [hafter]; exact hkeeps.queue), by rw [hline]; rfl, by rw [hline]; rfl, by rw [hline]; rfl, by rw [hline]; rfl,
      ?answers, ?volumes, ?accounts, by rw [hdir]; exact hkeeps.fences, ?templates, by rw [hline]; rfl, by rw [hline]; rfl, by rw [hline]; rfl,
      by rw [hline]; rfl, by rw [hline]; rfl, by rw [hacc]; exact hkeeps.records, ?typed, hwired, ?stations, ?door, ?free, ?busy⟩
    case answers => split <;> exact hanswers
    case volumes =>
      unfold State.volumeIdentities
      rw [hdir]
      exact hkeeps.volumes hvolumes
    case accounts =>
      unfold State.accountIdentities
      rw [hacc]
      exact hkeeps.accounts haccounts
    case templates => split <;> exact htemplates
    case typed => split <;> exact congrArg₂ Prod.mk hheld hlong
    case stations =>
      intro p
      unfold State.station
      rw [hmon]
      exact hkeeps.stations p
    case door =>
      rw [hmon]
      exact hkeeps.door
    case free =>
      intro hnone
      rw [if_pos (hsending.trans hnone)]
      exact ⟨rfl, rfl⟩
    case busy =>
      intro hsome
      rw [if_neg (by rw [hsending]; exact Option.isSome_iff_ne_none.mp hsome)]
      exact ⟨hsending, hwithdrawn⟩
  · obtain ⟨x, w, notices, hcleared, hasked, hblocks⟩ := State.resetBlocks_spec (s := portReset s)
    have hlists : listsReset s { w with notices := notices } := (listsReset_of hcleared hasked : listsReset s w)
    have hunits : unitsReset s { w with notices := notices } := (unitsReset_of hcleared hasked : unitsReset s w)
    have hservice : serviceReset s { w with notices := notices } := (serviceReset_of hcleared hasked : serviceReset s w)
    rw [← hblocks] at hlists hunits hservice
    exact ⟨(portReset s).resetBlocks, hlists, hunits, hservice, hexec⟩

end Sys2Proof.Machine
end

section
/-! PROOFS. What an operation inside a step leaves can be traced back: the service state, an unhomed arm, a loaded drive, a volume in an arm and a pending
outcome that no operation sets (for the refutations of O36, O43 and O56). -/

namespace Sys2Proof.Machine

variable {s t u : State} {reply : Reply} {a : ArmId} {d : Fin 16} {e : Nat} {tag : Half} {r : Request}

/-- A drive that is loaded with a volume. -/
structure Drive.Stands (x : Drive) : Prop where
  loaded : x.state = .loaded
  volume : x.volume ≠ none

/-- The pending outcome is some request's. -/
def State.awaits (s : State) (reply : Reply) : Prop := ∃ r ∈ s.ms.queue, r.pending = some reply

/-- `t` has the service state of `s`; and an arm is unhomed in `t`, a drive stands loaded, a volume is in an arm, or the outcome pends, only where it
was so in `s`. -/
structure Traces (reply : Reply) (s t : State) : Prop where
  service : t.svc.state = s.svc.state
  arms : ∀ b, (t.arm b).state = .unhomed → (s.arm b).state = .unhomed
  drives : ∀ c, (t.drive c).Stands → (s.drive c).Stands
  volumes : ∀ e b, t.locOf e = some (.inArm b) → s.locOf e = some (.inArm b)
  pending : t.awaits reply → s.awaits reply

theorem Traces.refl (s : State) : Traces reply s s := ⟨rfl, fun _ => id, fun _ => id, fun _ _ => id, id⟩

theorem Traces.trans (h : Traces reply s t) (k : Traces reply t u) : Traces reply s u where
  service := k.service.trans h.service
  arms b := h.arms b ∘ k.arms b
  drives c := h.drives c ∘ k.drives c
  volumes e b := h.volumes e b ∘ k.volumes e b
  pending := h.pending ∘ k.pending

theorem Traces.ite {p : Prop} [Decidable p] (h : Traces reply s t) (k : Traces reply s u) : Traces reply s (if p then t else u) := by
  split
  · exact h
  · exact k

theorem Traces.foldl {α : Type} {f : State → α → State} (hf : ∀ u x, Traces reply s u → Traces reply s (f u x)) (l : List α) (h : Traces reply s t) :
    Traces reply s (l.foldl f t) := by
  induction l generalizing t with
  | nil => exact h
  | cons x rest ih => exact ih (hf t x h)

/-- A change of other parts. -/
theorem Traces.of_parts (h : Traces reply s t) (hsvc : u.svc.state = t.svc.state) (harm : ∀ b, (u.arm b).state = (t.arm b).state) (hdrv : u.drv = t.drv)
    (hdir : u.dir.entries = t.dir.entries) (hms : u.ms = t.ms) : Traces reply s u := by
  refine h.trans ⟨hsvc, fun b hb => (harm b).symm.trans hb, fun c hc => ?_, fun e b he => ?_, fun hp => ?_⟩
  · unfold State.drive at *
    rwa [← hdrv]
  · unfold State.locOf State.vol? at *
    rwa [← hdir]
  · unfold State.awaits at *
    rwa [← hms]

/-- A change of the scheduler that leaves the arms their states. -/
theorem Traces.of_sch (h : Traces reply s t) (hrest : u = { t with sch := u.sch, notices := u.notices })
    (harm : ∀ b, (u.arm b).state = .unhomed → (t.arm b).state = .unhomed) : Traces reply s u := by
  rw [hrest] at harm ⊢
  exact h.trans ⟨rfl, harm, fun _ => id, fun _ _ => id, id⟩

theorem Traces.notify (h : Traces reply s t) {n : Notice} : Traces reply s (t.notify n) := by
  unfold State.notify
  exact Traces.ite h (h.of_parts rfl (fun b => by cases b <;> rfl) rfl rfl rfl)

theorem Traces.raise (h : Traces reply s t) {x : Event} : Traces reply s (t.raise x) := h.of_parts rfl (fun b => by cases b <;> rfl) rfl rfl rfl

theorem Traces.refreshConditions (h : Traces reply s t) : Traces reply s t.refreshConditions :=
  h.of_parts rfl (fun b => by cases b <;> rfl) rfl rfl rfl

theorem Traces.updStation (h : Traces reply s t) {p : Fin 8} {f : Station → Station} : Traces reply s (t.updStation p f) :=
  h.of_parts rfl (fun b => by cases b <;> rfl) rfl rfl rfl

theorem Traces.mapStations (h : Traces reply s t) {f : Station → Station} : Traces reply s (t.mapStations f) :=
  h.of_parts rfl (fun b => by cases b <;> rfl) rfl rfl rfl

theorem Traces.updOrder (h : Traces reply s t) {n : Nat} {f : Order → Order} : Traces reply s (t.updOrder n f) :=
  h.of_parts rfl (fun b => by cases b <;> rfl) rfl rfl rfl

theorem Traces.dropOrder (h : Traces reply s t) {n : Nat} : Traces reply s (t.dropOrder n) :=
  h.of_parts rfl (fun b => by cases b <;> rfl) rfl rfl rfl

theorem Traces.mapZones (h : Traces reply s t) {f : Nat → Option Holding → Option Holding} : Traces reply s (t.mapZones f) :=
  h.of_parts rfl (fun b => by cases b <;> rfl) rfl rfl rfl

theorem Traces.withdrawClaim (h : Traces reply s t) : Traces reply s (t.withdrawClaim a) :=
  h.of_parts rfl (fun b => by cases b <;> rfl) rfl rfl rfl

theorem Traces.setArmPort (h : Traces reply s t) {x : ArmPort} : Traces reply s (t.setArmPort a x) :=
  h.of_parts (by simp) (fun b => by simp) (by simp) (by simp) (by simp)

theorem Traces.setHomingOwed (h : Traces reply s t) {owed : Bool} : Traces reply s (t.setHomingOwed a owed) := by
  cases a <;> exact h.of_parts rfl (fun b => by cases b <;> rfl) rfl rfl rfl

theorem Traces.updAudit (h : Traces reply s t) {f : AuditBlock → AuditBlock} : Traces reply s (t.updAudit f) :=
  h.of_parts rfl (fun b => by cases b <;> rfl) rfl rfl rfl

theorem Traces.oweRecover (h : Traces reply s t) {owed : Bool} : Traces reply s (t.oweRecover d owed) :=
  h.of_parts rfl (fun b => by cases b <;> rfl) rfl rfl rfl

theorem Traces.updAccount (h : Traces reply s t) {i : Nat} {f : Account → Account} : Traces reply s (t.updAccount i f) := by
  unfold State.updAccount
  split
  · exact h.of_parts rfl (fun b => by cases b <;> rfl) rfl rfl rfl
  · exact h

/-- A change of an arm that does not make it unhomed. -/
theorem Traces.updArm (h : Traces reply s t) {f : Arm → Arm} (hf : (f (t.arm a)).state = .unhomed → (t.arm a).state = .unhomed) :
    Traces reply s (t.updArm a f) := by
  refine h.of_sch (by cases a <;> rfl) (fun b hb => ?_)
  by_cases hab : b = a
  · subst hab
    rw [State.updArm_arm_self] at hb
    exact hf hb
  · rwa [State.updArm_arm_ne hab] at hb

theorem Traces.setClaims (h : Traces reply s t) {l : List RailClaim} : Traces reply s ({ t with sch := { t.sch with claims := l } } : State) :=
  h.of_parts rfl (fun b => by cases b <;> rfl) rfl rfl rfl

/-- A change of a drive that does not make it stand loaded. -/
theorem Traces.updDrive (h : Traces reply s t) {f : Drive → Drive} (hf : (f (t.drive d)).Stands → (t.drive d).Stands) : Traces reply s (t.updDrive d f) := by
  refine h.trans ⟨rfl, fun b hb => by cases b <;> exact hb, fun c hc => ?_, fun _ _ he => he, fun hp => hp⟩
  by_cases hd : c = d
  · subst hd
    rw [State.updDrive_drive_self] at hc
    exact hf hc
  · rwa [State.updDrive_drive_ne hd] at hc

/-- A change of a request that does not set the outcome. -/
theorem Traces.updRequest (h : Traces reply s t) {f : Request → Request} (hf : ∀ x, (f x).pending = some reply → x.pending = some reply) :
    Traces reply s (t.updRequest tag f) := by
  refine h.trans ⟨rfl, fun b hb => by cases b <;> exact hb, fun _ hc => hc, fun _ _ he => he, fun ⟨q, hq, hp⟩ => ?_⟩
  obtain ⟨x, hx, rfl⟩ := List.mem_map.mp hq
  refine ⟨x, hx, ?_⟩
  split at hp
  · exact hf x hp
  · exact hp

/-! ### Volumes -/

theorem Traces.setVol (h : Traces reply s t) {v : Volume} (hv : ∀ b, v.loc ≠ .inArm b) : Traces reply s (t.setVol e v) := by
  refine h.trans ⟨rfl, fun b hb => by cases b <;> exact hb, fun _ hc => hc, fun i b hi => ?_, fun hp => hp⟩
  by_cases hie : i = e
  · subst hie
    rw [State.locOf, State.setVol_vol?_self] at hi
    exact absurd (Option.some.inj hi) (hv b)
  · rwa [State.locOf, State.setVol_vol?_ne hie] at hi

theorem Traces.clearFinding (h : Traces reply s t) {n : Nat} : Traces reply s (t.clearFinding n) := h.of_parts rfl (fun b => by cases b <;> rfl) rfl rfl rfl

theorem Traces.leaveMisplaced (h : Traces reply s t) {v : Volume} {l : Loc} : Traces reply s (t.leaveMisplaced e v l) := by
  unfold State.leaveMisplaced
  split
  · exact Traces.ite h (Traces.ite h.clearFinding h)
  all_goals exact h

theorem Traces.unhold (h : Traces reply s t) {l : Loc} : Traces reply s (t.unhold e l) := by
  unfold State.unhold
  split
  · refine Traces.ite (Traces.updArm h ?_) h
    exact fun k => k
  · refine Traces.ite (Traces.updDrive h ?_) h
    exact fun k => absurd rfl k.volume
  · exact Traces.ite h.updStation h
  all_goals exact h

/-- A volume is recorded at another place than an arm. -/
theorem Traces.relocate (h : Traces reply s t) {l : Loc} (hl : ∀ b, l ≠ .inArm b) : Traces reply s (t.relocate e l) := by
  unfold State.relocate
  split
  · exact h
  · refine Traces.setVol ?_ hl
    split
    · exact Traces.clearFinding (Traces.ite h h.leaveMisplaced.unhold)
    · exact Traces.ite h h.leaveMisplaced.unhold

theorem Traces.makeMissing (h : Traces reply s t) : Traces reply s (t.makeMissing e) := by
  refine Traces.ite (Traces.raise (Traces.relocate h ?_)) h
  nofun

theorem Traces.clearDriveVolume (h : Traces reply s t) : Traces reply s (t.clearDriveVolume d) := by
  unfold State.clearDriveVolume
  split
  · refine Traces.updDrive (Traces.ite h.makeMissing h) ?_
    exact fun k => absurd rfl k.volume
  · exact h

/-- A volume is recorded on a drive that is not loaded. -/
theorem Traces.nameOnDrive (h : Traces reply s t) (hdrive : (t.drive d).state ≠ .loaded) : Traces reply s (t.nameOnDrive d e) := by
  unfold State.nameOnDrive
  split
  · exact h
  · dsimp only
    refine Traces.updDrive (Traces.relocate (Traces.ite h h.clearDriveVolume) ?_) (fun k => absurd k.loaded ?_)
    · nofun
    obtain ⟨v, hv⟩ := State.relocate_drive (s := if (t.drive d).volume = some e then t else t.clearDriveVolume d) (e := e) (l := .inDrive d) (x := d)
    rw [hv]
    dsimp only
    split
    · exact hdrive
    · obtain ⟨w, hw⟩ := State.clearDriveVolume_drive (s := t) (c := d) (d := d)
      rw [hw]
      exact hdrive

/-! ### Prompts -/

theorem Traces.attend (h : Traces reply s t) {entered : Option Nat} : Traces reply s (t.attend entered) := by
  refine h.of_parts (by rw [State.attend_svc]) (fun b => ?_) ?_ ?_ State.attend_ms
  all_goals rw [State.attend_eq]
  cases b <;> rfl

theorem Traces.issue (h : Traces reply s t) {kind : PromptKind} {names : Names} : Traces reply s (t.issue kind names).1 := by
  unfold State.issue
  dsimp only
  refine Traces.attend (Traces.raise ?_)
  exact h.of_parts rfl (fun b => by cases b <;> rfl) rfl rfl rfl

theorem Traces.askEquipment (h : Traces reply s t) {x : Equipment} : Traces reply s (t.askEquipment x) := by
  unfold State.askEquipment
  split
  · exact h
  · split
    · exact h.issue
    · exact h.of_parts rfl (fun b => by cases b <;> rfl) rfl rfl rfl

theorem Traces.testOwed (h : Traces reply s t) {l : List Equipment} : Traces reply s (t.testOwed l) := by
  induction l generalizing t with
  | nil => exact h.of_parts rfl (fun b => by cases b <;> rfl) rfl rfl rfl
  | cons x rest ih =>
    unfold State.testOwed
    split
    · refine Traces.issue ?_
      exact h.of_parts rfl (fun b => by cases b <;> rfl) rfl rfl rfl
    · exact ih h

theorem Traces.unprompt (h : Traces reply s t) {n : Nat} : Traces reply s (t.unprompt n) := by
  refine h.trans ⟨rfl, fun b hb => by cases b <;> exact hb, fun _ hc => hc, fun _ _ he => he, fun ⟨q, hq, hp⟩ => ?_⟩
  obtain ⟨x, hx, rfl⟩ := List.mem_map.mp hq
  refine ⟨x, hx, ?_⟩
  split at hp
  · exact hp
  · exact hp

theorem Traces.queueWithdrawal (h : Traces reply s t) {n : Nat} : Traces reply s (t.queueWithdrawal n) :=
  h.of_parts rfl (fun b => by cases b <;> rfl) rfl rfl rfl

theorem Traces.offList (h : Traces reply s t) {n : Nat} {line : Bool} : Traces reply s (t.offList n line) := by
  have hlisted : Traces reply s { t with pr := { t.pr with list := t.pr.list.filter (fun q => q.number != n) } } :=
    h.of_parts rfl (fun b => by cases b <;> rfl) rfl rfl rfl
  have hleft := (hlisted.unprompt (n := n)).raise (x := .promptClosed)
  unfold State.offList
  exact Traces.ite hleft.attend.queueWithdrawal hleft.attend

theorem Traces.tellPosition (h : Traces reply s t) {q : Prompt} : Traces reply s (t.tellPosition q) := by
  unfold State.tellPosition
  split
  · exact h.notify
  · exact h

theorem Traces.leaveList (h : Traces reply s t) {n : Nat} {line : Bool} : Traces reply s (t.leaveList n line) := by
  cases hq : t.prompt? n with
  | none =>
    rw [State.leaveList_none hq]
    exact h
  | some q =>
    rw [State.leaveList_some hq]
    exact h.offList.tellPosition.testOwed

theorem Traces.withdraw (h : Traces reply s t) {n : Nat} : Traces reply s (t.withdraw n) := h.leaveList

theorem Traces.endEquipment (h : Traces reply s t) {x : Equipment} : Traces reply s (t.endEquipment x) := by
  unfold State.endEquipment
  split
  · exact h.withdraw
  · exact h.of_parts rfl (fun b => by cases b <;> rfl) rfl rfl rfl

theorem Traces.updPrompt (h : Traces reply s t) {n : Nat} {f : Prompt → Prompt} : Traces reply s (t.updPrompt n f) :=
  h.of_parts rfl (fun b => by cases b <;> rfl) rfl rfl rfl

theorem Traces.restartPrompt (h : Traces reply s t) {n : Nat} {sub : SubState} : Traces reply s (t.restartPrompt n sub) := h.updPrompt.attend

theorem Traces.askRequestPrompt (h : Traces reply s t) {kind : PromptKind} {names : Names} {n : Nat}
    (hu : t.askRequestPrompt kind names = some (u, n)) : Traces reply s u := by
  unfold State.askRequestPrompt at hu
  split at hu
  · nomatch hu
  · obtain ⟨rfl, _⟩ := Prod.mk.inj (Option.some.inj hu)
    exact Traces.ite h.issue.notify h.issue

/-! ### Drives and claims -/

theorem Traces.setDriveState (h : Traces reply s t) {st : DriveState} (hst : st ≠ .loaded) : Traces reply s (t.setDriveState d st) :=
  h.updDrive (fun k => absurd k.loaded hst)

theorem Traces.updClaim (h : Traces reply s t) {f : Claim → Claim} : Traces reply s (t.updClaim d f) := h.updDrive (fun k => ⟨k.loaded, k.volume⟩)

theorem Traces.stopLabelTimer (h : Traces reply s t) : Traces reply s (t.stopLabelTimer d) := h.updDrive (fun k => ⟨k.loaded, k.volume⟩)

theorem Traces.stopLoadTimer (h : Traces reply s t) : Traces reply s (t.stopLoadTimer d) := h.updDrive (fun k => ⟨k.loaded, k.volume⟩)

theorem Traces.startLabelTimer (h : Traces reply s t) : Traces reply s (t.startLabelTimer d) := h.updDrive (fun k => ⟨k.loaded, k.volume⟩)

theorem Traces.startReleaseTimer (h : Traces reply s t) : Traces reply s (t.startReleaseTimer d) := h.updDrive (fun k => ⟨k.loaded, k.volume⟩)

theorem Traces.startPulse (h : Traces reply s t) {k : PulseKind} : Traces reply s (t.startPulse d k) := h.updDrive (fun k => ⟨k.loaded, k.volume⟩)

theorem Traces.expectPlace (h : Traces reply s t) : Traces reply s (t.expectPlace d) := h.updDrive (fun k => ⟨k.loaded, k.volume⟩)

theorem Traces.restDrive (h : Traces reply s t) : Traces reply s (t.restDrive d) := by
  refine Traces.notify (h.setDriveState ?_)
  split <;> nofun

theorem Traces.recordClaim (h : Traces reply s t) {session : Option Session} {outcome : RecOutcome} : Traces reply s (t.recordClaim d session outcome) := by
  unfold State.recordClaim
  split
  · exact h
  · split
    · refine Traces.updDrive ?_ (fun k => ⟨k.loaded, k.volume⟩)
      unfold State.putRecord
      dsimp only
      refine Traces.updDrive (Traces.updAccount ?_) (fun k => ⟨k.loaded, k.volume⟩)
      exact h.of_parts rfl (fun b => by cases b <;> rfl) rfl rfl rfl
    · exact h

theorem Traces.endClaim (h : Traces reply s t) : Traces reply s (t.endClaim d) := by
  unfold State.endClaim
  split
  · exact h
  · have hended {c : Nat} : Traces reply s ((t.updDrive d (fun x => { x with claim := none })).countClaimEnd c) := by
      unfold State.countClaimEnd
      refine Traces.notify (Traces.updAccount (Traces.updDrive h ?_))
      exact fun k => ⟨k.loaded, k.volume⟩
    unfold State.dropClaimed
    split
    · exact hended.updRequest (fun _ k => k)
    · exact hended

theorem Traces.giveUpClaim (h : Traces reply s t) {outcome : RecOutcome} : Traces reply s (t.giveUpClaim d outcome) := by
  unfold State.giveUpClaim
  exact Traces.ite (Traces.setDriveState h.recordClaim.stopLoadTimer.endClaim nofun) h.recordClaim.stopLoadTimer.endClaim.restDrive

theorem Traces.loseClaim (h : Traces reply s t) : Traces reply s (t.loseClaim d) := by
  unfold State.loseClaim
  dsimp only
  refine Traces.notify (Traces.setDriveState h.recordClaim.stopLoadTimer.endClaim ?_)
  nofun

theorem Traces.placeFailed (h : Traces reply s t) : Traces reply s (t.placeFailed d) := by
  have hfailed : Traces reply s (t.updDrive d (fun x => { x with placeExpected := false })) := h.updDrive (fun k => ⟨k.loaded, k.volume⟩)
  unfold State.placeFailed
  exact Traces.ite hfailed (Traces.ite hfailed.giveUpClaim (Traces.ite hfailed.loseClaim hfailed))

theorem Traces.unload (h : Traces reply s t) : Traces reply s (t.unload d) := by
  unfold State.unload
  split
  · exact Traces.startReleaseTimer (Traces.setDriveState h.stopLabelTimer.startPulse nofun)
  · exact h.stopLabelTimer.startPulse
  · exact Traces.startReleaseTimer (Traces.setDriveState h.stopLabelTimer.stopLoadTimer.startPulse nofun)
  · exact h.stopLabelTimer.notify
  all_goals exact h

end Sys2Proof.Machine
end

section
/-! PROOFS. What an operation inside a step leaves can be traced back: the orders and the arms. -/

namespace Sys2Proof.Machine

variable {s t u : State} {reply : Reply} {a : ArmId} {d : Fin 16} {e : Nat} {tag : Half} {r : Request} {o : Order} {id : Nat}

/-! ### Orders -/

theorem Traces.unreserve (h : Traces reply s t) : Traces reply s (t.unreserve id) := by
  unfold State.unreserve
  exact Traces.foldl (fun _ _ k => Traces.ite k.updStation.notify k) _ h

theorem Traces.reserveDest (h : Traces reply s t) {p : Option Place} : Traces reply s (t.reserveDest id p) := by
  unfold State.reserveDest
  split
  · exact h.updStation
  · exact h

theorem Traces.bindOrder (h : Traces reply s t) : Traces reply s (t.bindOrder id) := by
  unfold State.bindOrder
  split
  · exact h
  · dsimp only
    split
    · exact h.updOrder.notify
    · exact h.updOrder

theorem Traces.bindUnbound (h : Traces reply s t) : Traces reply s t.bindUnbound := by
  unfold State.bindUnbound
  exact Traces.foldl (fun _ _ k => Traces.ite k.bindOrder k) _ h

theorem Traces.createOrder (h : Traces reply s t) {kind : OrderKind} {source dest : Option Place} {volume : Option Nat} {own : Option Half}
    {legs : List Leg} {arm : Option ArmId} (hu : t.createOrder kind source dest volume own legs arm = some (u, id)) : Traces reply s u := by
  unfold State.createOrder at hu
  split at hu
  · dsimp only at hu
    obtain ⟨rfl, rfl⟩ := Prod.mk.inj (Option.some.inj hu)
    have hpool {x : List Order} {n : Nat} : Traces reply s ({ t with sch := { t.sch with pool := x, nextId := n } } : State) :=
      h.of_parts rfl (fun b => by cases b <;> rfl) rfl rfl rfl
    split
    · exact hpool.reserveDest.notify
    · exact hpool.reserveDest.bindOrder
  · nomatch hu

theorem Traces.createCarry (h : Traces reply s t) {kind : OrderKind} {source dest : Place} {own : Option Half}
    (hu : t.createCarry kind source dest e own = some (u, id)) : Traces reply s u := h.createOrder hu

theorem Traces.createImport (h : Traces reply s t) {p : Fin 8} (hu : t.createImport p = some u) : Traces reply s u := by
  unfold State.createImport at hu
  obtain ⟨⟨w, id⟩, hw, rfl⟩ := Option.map_eq_some_iff.mp hu
  exact (h.createOrder hw).updStation

theorem Traces.ensureRecover (h : Traces reply s t) : Traces reply s (t.ensureRecover a) := by
  unfold State.ensureRecover
  split
  · exact h
  · dsimp only
    split
    · rename_i hw
      exact h.createOrder hw
    · exact h

theorem Traces.untake (h : Traces reply s t) : Traces reply s (t.untake a) := by
  refine Traces.notify (Traces.updArm h.withdrawClaim ?_)
  exact fun k => k

theorem Traces.removeOrder (h : Traces reply s t) : Traces reply s (t.removeOrder id) := by
  unfold State.removeOrder
  dsimp only
  split
  · exact h.untake.dropOrder.unreserve
  · exact h.dropOrder.unreserve

theorem Traces.rebindOrders (h : Traces reply s t) : Traces reply s (t.rebindOrders a) := by
  unfold State.rebindOrders
  exact Traces.foldl (fun _ _ k => Traces.ite (Traces.bindOrder (Traces.ite k.untake k)) k) _ h

theorem Traces.createOwedRecover (h : Traces reply s t) : Traces reply s (t.createOwedRecover d) := by
  unfold State.createOwedRecover
  split
  · exact h
  · split
    · exact h.oweRecover
    · split
      · exact h.oweRecover
      · split
        · exact h
        · split
          · rename_i hw
            exact (h.createCarry hw).oweRecover
          · exact h

theorem Traces.createOwedRecovers (h : Traces reply s t) : Traces reply s t.createOwedRecovers := by
  unfold State.createOwedRecovers
  exact Traces.ite (Traces.foldl (fun _ _ k => k.createOwedRecover) _ h) h

/-! ### The arm ports -/

theorem Traces.putOnLine (h : Traces reply s t) {f : ArmFrame} : Traces reply s (t.putOnLine a f) := by
  unfold State.putOnLine
  dsimp only
  split
  iterate 3 exact Traces.updArm h.setArmPort (fun k => k)
  exact h.setArmPort

theorem Traces.sendArm (h : Traces reply s t) {f : ArmFrame} : Traces reply s (t.sendArm a f) := by
  unfold State.sendArm
  dsimp only
  split
  · exact h.putOnLine
  · exact h.setArmPort

theorem Traces.dropLegs (h : Traces reply s t) : Traces reply s (t.dropLegs a) := by
  unfold State.dropLegs
  exact Traces.foldl (fun _ _ k => k.placeFailed) _ h.setArmPort

/-! ### Order ends -/

theorem Traces.enterOutOfService (h : Traces reply s t) {ask : Bool} : Traces reply s (t.enterOutOfService a ask) := by
  have hleft : Traces reply s (((t.withdrawClaim a).updArm a (fun x => { x with
      state := if (t.arm a).state = .unhomed then .unhomed else .outOfService, order := none, leg := none, move := none, linger := none,
      inserted := false, limitMark := false }))) := by
    refine Traces.updArm h.withdrawClaim (fun k => ?_)
    rw [State.withdrawClaim_arm]
    by_contra hout
    exact nomatch (if_neg hout).symm.trans k
  unfold State.enterOutOfService
  exact Traces.ite hleft.setHomingOwed.rebindOrders.askEquipment hleft.setHomingOwed.rebindOrders

theorem Traces.closeOrder (h : Traces reply s t) {ok door : Bool} {cause : Option Cause} {leg : Option Leg} :
    Traces reply s (t.closeOrder id ok cause door leg) := by
  unfold State.closeOrder
  split
  · exact h
  · rename_i closed _
    have hdropped : Traces reply s (if closed.kind = .handIn then t.dropOrder id else (t.dropOrder id).unreserve id) :=
      Traces.ite h.dropOrder h.dropOrder.unreserve
    exact Traces.ite hdropped.notify.notify.notify.notify hdropped.notify.notify.notify

theorem Traces.endOrder (h : Traces reply s t) {ok : Bool} {cause : Option Cause} : Traces reply s (t.endOrder a o ok cause) := by
  have hended : Traces reply s (((t.closeOrder o.id ok cause false none).withdrawClaim a).updArm a (fun x => { x with
      order := none, leg := none, inserted := false, failCount := if ok && !o.cut then 0 else x.failCount })) :=
    Traces.updArm h.closeOrder.withdrawClaim (fun k => k)
  unfold State.endOrder
  exact Traces.ite hended.enterOutOfService hended.notify

/-! ### Legs -/

theorem Traces.markStarted (h : Traces reply s t) : Traces reply s (t.markStarted a) := by
  unfold State.markStarted
  split
  · exact Traces.ite h h.updOrder.notify
  · exact h

theorem Traces.handLeg (h : Traces reply s t) {l : Leg} : Traces reply s (t.handLeg a l) := by
  unfold State.handLeg
  refine Traces.sendArm (Traces.updArm h.markStarted ?_)
  exact fun k => k

theorem Traces.grantClaim (h : Traces reply s t) {c : RailClaim} : Traces reply s (t.grantClaim c) :=
  Traces.handLeg h.withdrawClaim.mapZones

theorem Traces.makeClaim (h : Traces reply s t) {target : Nat} : Traces reply s (t.makeClaim a target) := by
  unfold State.makeClaim
  generalize spanOf (t.armZone a) (zoneOf target) = span
  refine Traces.setClaims (Traces.mapZones (Traces.updArm h ?_))
  exact fun k => k

theorem Traces.giveYield (h : Traces reply s t) {c : RailClaim} : Traces reply s (t.giveYield c) := by
  have hclaimed {target : Nat} : Traces reply s ((t.updArm (otherArm c.arm) (fun x => { x with state := .running, move := some (.yieldTo target) })).makeClaim
      (otherArm c.arm) target) := by
    refine Traces.makeClaim (Traces.updArm h ?_)
    exact fun k => nomatch k
  unfold State.giveYield
  dsimp only
  split
  · exact Traces.ite hclaimed.grantClaim hclaimed
  · exact hclaimed

theorem Traces.insertTravel (h : Traces reply s t) {column : Nat} : Traces reply s (t.insertTravel a column) := by
  unfold State.insertTravel
  split
  · exact Traces.updArm h.updOrder (fun k => k)
  · exact Traces.updArm h (fun k => k)

theorem Traces.testClaim (h : Traces reply s t) {c : RailClaim} (hu : t.testClaim c = some u) : Traces reply s u := by
  unfold State.testClaim at hu
  split at hu
  · exact Option.some.inj hu ▸ h.grantClaim
  · split at hu
    · exact Option.some.inj hu ▸ h.withdrawClaim.insertTravel.notify
    · split at hu
      · exact Option.some.inj hu ▸ h.giveYield
      · nomatch hu

theorem Traces.firstClaim (h : Traces reply s t) {l : List RailClaim} (hu : t.firstClaim l = some u) : Traces reply s u := by
  induction l with
  | nil => nomatch hu
  | cons c rest ih =>
    unfold State.firstClaim at hu
    split at hu
    · rename_i hw
      exact Option.some.inj hu ▸ h.testClaim hw
    · exact ih hu

theorem Traces.testClaims (h : Traces reply s t) (n : Nat) : Traces reply s (State.testClaims n t) := by
  induction n generalizing t with
  | zero => exact h
  | succ n ih =>
    unfold State.testClaims
    split
    · rename_i hw
      exact ih (h.firstClaim hw)
    · exact h

theorem Traces.claimTravel (h : Traces reply s t) {target : Nat} : Traces reply s (t.claimTravel a target) := by
  unfold State.claimTravel
  dsimp only
  split
  · cases hw : (t.makeClaim a target).testClaim _ with
    | none => exact h.makeClaim
    | some w => exact h.makeClaim.testClaim hw
  · exact h.makeClaim

theorem Traces.releaseOthers (h : Traces reply s t) : Traces reply s (t.releaseOthers a) := by
  unfold State.releaseOthers
  exact h.mapZones

theorem Traces.lingerZones (h : Traces reply s t) : Traces reply s (t.lingerZones a) := by
  unfold State.lingerZones
  exact Traces.ite (Traces.updArm h.releaseOthers (fun k => k)) (Traces.updArm h.mapZones (fun k => k))

theorem Traces.arriveMove (h : Traces reply s t) {m : Move} : Traces reply s (t.arriveMove a m) := by
  have harrived : Traces reply s ((t.releaseOthers a).updArm a (fun x => { x with move := none, leg := none, linger := none })) :=
    Traces.updArm h.releaseOthers (fun k => k)
  unfold State.arriveMove
  split
  · exact harrived.notify
  · exact Traces.ite harrived.enterOutOfService (Traces.ite (Traces.updArm harrived (fun k => nomatch k)) harrived.notify)

theorem Traces.advance (h : Traces reply s t) : Traces reply s (t.advance a) := by
  have hdone : Traces reply s (t.updArm a (fun x => { x with leg := none })) := h.updArm (fun k => k)
  unfold State.advance
  dsimp only
  split
  · exact hdone.updOrder.notify
  · exact hdone.notify

theorem Traces.endInserted (h : Traces reply s t) : Traces reply s (t.endInserted a) := by
  have hdone : Traces reply s ((t.releaseOthers a).updArm a (fun x => { x with inserted := false, leg := none, linger := none })) :=
    Traces.updArm h.releaseOthers (fun k => k)
  unfold State.endInserted
  dsimp only
  split
  · exact hdone.updOrder.notify
  · exact hdone.notify

/-- A reservation given up, as the rest of an order is replaced or its position chosen anew. -/
theorem Traces.leavePosition (h : Traces reply s t) {p : Prop} [Decidable p] {q : Fin 8} {f : Station → Station} :
    Traces reply s (if p then t else (t.updStation q f).notify (.importTest q)) := Traces.ite h h.updStation.notify

theorem Traces.replaceRest (h : Traces reply s t) {toStation : Bool} : Traces reply s (t.replaceRest a id toStation) := by
  unfold State.replaceRest
  split
  · exact h
  · dsimp only
    refine Traces.notify (Traces.reserveDest (Traces.updOrder (Traces.withdrawClaim ?_)))
    split
    · exact h.leavePosition
    · exact h

theorem Traces.choosePosition (h : Traces reply s t) (hu : t.choosePosition a o = some u) : Traces reply s u := by
  unfold State.choosePosition at hu
  split at hu
  · nomatch hu
  · obtain rfl := Option.some.inj hu
    refine Traces.notify (Traces.updStation (Traces.updOrder ?_))
    split
    · exact h.leavePosition
    · exact h

theorem Traces.cutOrder (h : Traces reply s t) : Traces reply s (t.cutOrder a id) := by
  unfold State.cutOrder
  split
  · exact h
  · exact Traces.ite h (Traces.ite h.updOrder h.updOrder.endOrder)

theorem Traces.startPick (h : Traces reply s t) {p : Place} (hu : t.startPick a o p = some u) : Traces reply s u := by
  unfold State.startPick at hu
  split at hu
  · split at hu
    · nomatch hu
    · exact Option.some.inj hu ▸ h.handLeg
  · split at hu
    · exact Option.some.inj hu ▸ h.handLeg
    · nomatch hu
  · split at hu
    · exact Option.some.inj hu ▸ h.handLeg
    · split at hu
      · exact Option.some.inj hu ▸ h.endOrder
      · exact Option.some.inj hu ▸ h.endOrder
  all_goals nomatch hu

theorem Traces.startPlace (h : Traces reply s t) {p : Place} (hu : t.startPlace a o p = some u) : Traces reply s u := by
  unfold State.startPlace at hu
  dsimp only at hu
  split at hu
  · split at hu
    · nomatch hu
    · split at hu
      · exact Option.some.inj hu ▸ h.handLeg
      · split at hu
        · split at hu
          · exact Option.some.inj hu ▸ h.handLeg
          · exact Option.some.inj hu ▸ h.replaceRest
        all_goals exact Option.some.inj hu ▸ h.replaceRest
  · split at hu
    · exact Option.some.inj hu ▸ h.expectPlace.handLeg
    · exact Option.some.inj hu ▸ h.replaceRest
  · split at hu
    · exact Option.some.inj hu ▸ h.handLeg
    · split at hu
      · exact Option.some.inj hu ▸ h.handLeg
      · exact h.choosePosition hu
  all_goals nomatch hu

theorem Traces.startRead (h : Traces reply s t) {slot : Nat} : Traces reply s (t.startRead a o slot) := by
  unfold State.startRead
  exact Traces.ite h.updOrder.notify.notify h.handLeg

theorem Traces.stepOrder (h : Traces reply s t) (hu : t.stepOrder a o = some u) : Traces reply s u := by
  unfold State.stepOrder at hu
  split at hu
  · exact Option.some.inj hu ▸ h.endOrder
  · exact h.choosePosition hu
  · split at hu
    · exact Option.some.inj hu ▸ h.claimTravel
    · split at hu
      · exact Option.some.inj hu ▸ h.markStarted.endInserted
      · exact Option.some.inj hu ▸ h.markStarted.lingerZones.advance
  · exact h.startPick hu
  · exact h.startPlace hu
  · exact h.choosePosition hu
  · exact Option.some.inj hu ▸ h.startRead
  · nomatch hu

theorem Traces.armStep (h : Traces reply s t) (hu : t.armStep a = some u) : Traces reply s u := by
  unfold State.armStep at hu
  dsimp only at hu
  split at hu
  · nomatch hu
  · split at hu
    · split at hu
      · exact Option.some.inj hu ▸ h.arriveMove
      · exact Option.some.inj hu ▸ h.claimTravel
    · split at hu
      · split at hu
        · exact h.stepOrder hu
        · nomatch hu
      · nomatch hu

/-! ### Homing and looking for work -/

theorem Traces.enterHoming (h : Traces reply s t) : Traces reply s (t.enterHoming a) := by
  have hstarts {w : State} (k : Traces reply s w) : Traces reply s (((((w.dropLegs a).withdrawClaim a).updArm a (fun x => { x with
      state := .homing, order := none, leg := none, move := none, inserted := false, stopped := false,
      failCount := if (t.arm a).state = .outOfService then 0 else x.failCount })).takePath a).sendArm a .home) := by
    refine Traces.sendArm (Traces.mapZones (Traces.updArm k.dropLegs.withdrawClaim ?_))
    exact fun k => nomatch k
  unfold State.enterHoming
  refine Traces.notify ?_
  split
  · exact Traces.notify (hstarts (Traces.ite h.endEquipment h))
  · exact hstarts (Traces.ite h.endEquipment h)

theorem Traces.takeOrder (h : Traces reply s t) : Traces reply s (t.takeOrder a o) := by
  refine Traces.notify (Traces.updOrder (Traces.updArm h ?_))
  exact fun k => nomatch k

theorem Traces.startPark (h : Traces reply s t) : Traces reply s (t.startPark a) := by
  refine Traces.notify (Traces.updArm h ?_)
  exact fun k => nomatch k

theorem Traces.armLooks (h : Traces reply s t) : Traces reply s (t.armLooks a) := by
  unfold State.armLooks
  split
  · split
    · exact h.takeOrder
    · exact h
  · split
    · exact h.startPark
    · split
      · exact h.takeOrder
      · exact Traces.ite h.startPark h
  all_goals exact h

theorem Traces.armIsFree (h : Traces reply s t) : Traces reply s (t.armIsFree a) := by
  unfold State.armIsFree
  refine Traces.ite h (Traces.ite h.enterHoming (Traces.ite (Traces.armLooks ?_) (Traces.notify (Traces.ensureRecover ?_))))
  · exact Traces.updArm h.withdrawClaim (fun k => nomatch k)
  · exact Traces.updArm h.withdrawClaim (fun k => nomatch k)

theorem Traces.retryArms (h : Traces reply s t) : Traces reply s t.retryArms := by
  unfold State.retryArms
  split
  · rename_i w hw
    refine Traces.notify ?_
    cases hv : w.armStep .armB with
    | none => exact h.armStep hw
    | some v => exact (h.armStep hw).armStep hv
  · split
    · rename_i hw
      exact (h.armStep hw).notify
    · exact h

end Sys2Proof.Machine
end

section
/-! PROOFS. What an operation inside a step leaves can be traced back: the audit, the stations, the requests and the reports to Mount Service. -/

namespace Sys2Proof.Machine

variable {s t u : State} {reply : Reply} {a : ArmId} {d : Fin 16} {e : Nat} {tag : Half} {r : Request} {o : Order} {id : Nat} {rep : OrderEnd}

/-! ### The audit -/

theorem Traces.endAudit (h : Traces reply s t) {outcome : AuditOutcome} : Traces reply s (t.endAudit outcome) := h.updAudit.raise

theorem Traces.askScan (h : Traces reply s t) : Traces reply s t.askScan := by
  unfold State.askScan
  split
  · exact h
  · dsimp only
    split
    · rename_i hmade
      split at hmade
      · split at hmade
        · nomatch hmade
        · exact Traces.updAudit (h.createOrder hmade)
      · nomatch hmade
    · exact h.updAudit

theorem Traces.beginAudit (h : Traces reply s t) {first last : Nat} : Traces reply s (t.beginAudit first last) := h.updAudit.askScan

theorem Traces.finishAbort (h : Traces reply s t) : Traces reply s t.finishAbort := Traces.ite h.endAudit.beginAudit h.endAudit

theorem Traces.planScan (h : Traces reply s t) : Traces reply s t.planScan := Traces.ite h.updAudit.endAudit h.updAudit.askScan

theorem Traces.scanStops (h : Traces reply s t) : Traces reply s (t.scanStops rep) := h.updAudit.finishAbort

theorem Traces.scanEnded (h : Traces reply s t) : Traces reply s (t.scanEnded rep) := by
  unfold State.scanEnded
  split
  · exact h
  · dsimp only
    split
    · exact h.updAudit
    · exact h.updAudit.scanStops
    · refine Traces.ite h.updAudit.updAudit.scanStops (Traces.ite h.updAudit.planScan (Traces.planScan ?_))
      split
      · exact h.updAudit.updAudit
      · exact h.updAudit.updAudit

theorem Traces.scanRemoved (h : Traces reply s t) : Traces reply s (t.scanRemoved rep) := by
  unfold State.scanRemoved
  split
  · exact h
  · dsimp only
    split
    · exact h.updAudit
    · exact h.updAudit.updAudit.finishAbort
    · exact h.updAudit.updAudit

theorem Traces.retryScan (h : Traces reply s t) : Traces reply s t.retryScan := Traces.ite h.askScan h

/-! ### The stations -/

theorem Traces.askImport (h : Traces reply s t) {p : Fin 8} : Traces reply s (t.askImport p) := by
  unfold State.askImport
  split
  · rename_i hw
    split at hw
    · exact (h.createImport hw).updStation
    · nomatch hw
  · exact h.updStation

theorem Traces.testImport (h : Traces reply s t) {p : Fin 8} : Traces reply s (t.testImport p) := Traces.ite h.askImport h.updStation

theorem Traces.testAllImports (h : Traces reply s t) : Traces reply s t.testAllImports := Traces.foldl (fun _ _ k => k.testImport) _ h

theorem Traces.testOwedImports (h : Traces reply s t) : Traces reply s t.testOwedImports :=
  Traces.foldl (fun _ _ k => Traces.ite (Traces.ite k.askImport k.testImport) k) _ h

theorem Traces.reimports (h : Traces reply s t) : Traces reply s t.reimports := by
  unfold State.reimports
  exact Traces.foldl (fun _ _ k => Traces.ite k.askImport k) _ h

theorem Traces.appendTo (h : Traces reply s t) {dest : Place} {own : Option Half} : Traces reply s (t.appendTo id dest own) := h.updOrder

theorem Traces.importPicked (h : Traces reply s t) {p : Fin 8} : Traces reply s (t.importPicked id a p) := by
  unfold State.importPicked
  refine Traces.notify ?_
  split
  · exact Traces.ite h.askEquipment h
  · exact h.appendTo
  · split
    · exact h.appendTo
    · split
      · split
        · exact Traces.updRequest h.appendTo (fun _ k => k)
        · exact h.appendTo
      · dsimp only
        split
        · exact h.withdraw.notify.appendTo
        · exact h.withdraw.appendTo

theorem Traces.importEnded (h : Traces reply s t) : Traces reply s (t.importEnded rep) := by
  have hsilent : Traces reply s (t.unreserveSilently rep.id) := h.mapStations
  have hunpicked {p : Fin 8} : Traces reply s ((t.unreserveSilently rep.id).importUnpicked p) :=
    Traces.ite (Traces.raise (Traces.ite hsilent.updStation hsilent)) hsilent
  have hdone {p : Fin 8} {dest : Option Place} : Traces reply s ((t.unreserveSilently rep.id).importDone p dest) := by
    unfold State.importDone
    split
    · exact Traces.raise (Traces.ite hsilent.askEquipment hsilent)
    · exact hsilent
    · exact Traces.ite hsilent.raise hsilent
  have hdropped {dest : Option Place} : Traces reply s ((t.unreserveSilently rep.id).importDropped dest) := by
    unfold State.importDropped
    split
    · exact Traces.ite hsilent.raise hsilent
    · exact hsilent
  have htested {w : State} {dest : Option Place} (k : Traces reply s w) : Traces reply s (w.testLeft dest) := by
    unfold State.testLeft
    split
    · exact k.notify
    · exact k
  unfold State.importEnded
  dsimp only
  split
  · exact Traces.ite hunpicked (htested (Traces.notify (Traces.ite hdone hdropped)))
  · exact hsilent

theorem Traces.importRemoved (h : Traces reply s t) : Traces reply s (t.importRemoved rep) := by
  unfold State.importRemoved
  split
  · exact Traces.ite h.updStation h
  · exact h

/-! ### The life of a request -/

theorem Traces.clearAwaiting (h : Traces reply s t) : Traces reply s (t.clearAwaiting tag) := by
  unfold State.clearAwaiting
  exact Traces.foldl (fun _ _ k => Traces.ite k.updStation.notify k) _ h

theorem Traces.withdrawPrompt (h : Traces reply s t) : Traces reply s (t.withdrawPrompt tag) := by
  unfold State.withdrawPrompt
  split
  · exact h.withdraw.clearAwaiting
  · exact h

theorem Traces.enter (h : Traces reply s t) {st : ReqState} {reason : Option WaitReason} : Traces reply s (t.enter tag st reason) := by
  unfold State.enter
  exact Traces.updRequest h.withdrawPrompt (fun _ k => k)

theorem Traces.oweFinal (h : Traces reply s t) {final : Reply} : Traces reply s (t.oweFinal tag final) :=
  h.of_parts rfl (fun b => by cases b <;> rfl) rfl rfl rfl

theorem Traces.finish (h : Traces reply s t) {final : Reply} : Traces reply s (t.finish tag final) := by
  cases hr : t.request? tag with
  | none =>
    unfold State.finish
    rw [hr]
    exact h
  | some r =>
    rw [State.finish_eq hr]
    refine Traces.oweFinal (Traces.updRequest h.withdrawPrompt.clearAwaiting ?_)
    exact fun _ k => nomatch k

theorem Traces.promptRequest (h : Traces reply s t) {kind : PromptKind} {volume : Option Nat} {drive : Option (Fin 16)} {resume : ReqState}
    (hu : t.promptRequest tag kind volume drive resume = some u) : Traces reply s u := by
  unfold State.promptRequest at hu
  split at hu
  · obtain ⟨⟨w, n⟩, hw, rfl⟩ := Option.map_eq_some_iff.mp hu
    exact Traces.updRequest (h.withdrawPrompt.askRequestPrompt hw) (fun _ k => k)
  · nomatch hu

theorem Traces.dropClaim (h : Traces reply s t) {outcome : RecOutcome} : Traces reply s (t.dropClaim tag outcome) := by
  unfold State.dropClaim
  split
  · exact Traces.ite h.giveUpClaim h
  · exact h

theorem Traces.dropUnstarted (h : Traces reply s t) : Traces reply s (t.dropUnstarted tag) := by
  unfold State.dropUnstarted
  split
  · exact h
  · split
    · exact Traces.ite h (Traces.updRequest h.removeOrder (fun _ k => k))
    · exact Traces.updRequest h (fun _ k => k)

theorem Traces.nameVolume (h : Traces reply s t) : Traces reply s (t.nameVolume tag e) := Traces.ite h (Traces.updRequest h (fun _ k => k))

/-- A prompt asked for, or what stands in for a refusal. -/
theorem Traces.promptOr (h : Traces reply s t) {kind : PromptKind} {volume : Option Nat} {drive : Option (Fin 16)} {resume : ReqState} {w : State}
    (hw : Traces reply s w) : Traces reply s (match t.promptRequest tag kind volume drive resume with
      | some u => u
      | none => w) := by
  split
  · rename_i hu
    exact h.promptRequest hu
  · exact hw

theorem Traces.resolveScratch (h : Traces reply s t) : Traces reply s (t.resolveScratch tag) := by
  have hunnamed : Traces reply s (t.updRequest tag (fun r => { r with volume := none })) := Traces.updRequest h (fun _ k => k)
  unfold State.resolveScratch
  split
  · exact h
  · dsimp only
    split
    · exact Traces.ite hunnamed.finish hunnamed.nameVolume.enter
    · exact Traces.ite hunnamed (hunnamed.promptOr hunnamed.finish)

theorem Traces.lostVolume (h : Traces reply s t) : Traces reply s (t.lostVolume tag) := by
  have hdropped : Traces reply s ((t.dropUnstarted tag).dropClaim tag .failed) := h.dropUnstarted.dropClaim
  unfold State.lostVolume
  dsimp only
  split
  · exact hdropped
  · split
    · exact hdropped.promptOr hdropped.finish
    · exact hdropped.resolveScratch
    · exact hdropped.finish
    · exact hdropped

theorem Traces.resolveNamed (h : Traces reply s t) : Traces reply s (t.resolveNamed tag) := by
  have hunnamed : Traces reply s (t.updRequest tag (fun r => { r with volume := none })) := Traces.updRequest h (fun _ k => k)
  unfold State.resolveNamed
  split
  · exact h
  · split
    · exact hunnamed.enter
    · dsimp only
      split
      · exact Traces.ite h.nameVolume.enter h.nameVolume.lostVolume
      · split
        · exact h.promptOr h.finish
        · split
          · exact hunnamed.enter
          · split
            · exact Traces.ite h.nameVolume.finish h.nameVolume.enter
            · exact h.nameVolume.enter

theorem Traces.resolve (h : Traces reply s t) : Traces reply s (t.resolve tag) := by
  unfold State.resolve
  split
  · exact h.resolveScratch
  · exact h.resolveNamed
  · exact h.resolveNamed
  · exact h
  · exact h

theorem Traces.createAndEnter {st : ReqState} {n : Nat} (h : Traces reply s u) :
    Traces reply s ((u.enter tag st none).updRequest tag (fun r => { r with order := some n })) := Traces.updRequest h.enter (fun _ k => k)

theorem Traces.askOrder (h : Traces reply s t) : Traces reply s (t.askOrder tag) := by
  unfold State.askOrder
  split
  · exact h
  · split
    · exact h
    · split
      · exact h.lostVolume
      · split
        · exact h.enter
        · split
          · exact h.finish
          · split
            · exact h.enter
            · split
              · rename_i hw
                exact (h.createCarry hw).createAndEnter
              · exact h.enter
          · split
            · exact h.enter
            · split
              · rename_i hw
                exact (h.createCarry hw).createAndEnter
              · exact h.enter

theorem Traces.afterGrant (h : Traces reply s t) {manual : Option Nat} : Traces reply s (t.afterGrant tag d manual) := by
  unfold State.afterGrant
  split
  · exact h.enter.askOrder
  · exact h.promptOr h.dropClaim.finish

theorem Traces.grant (h : Traces reply s t) {manual : Option Nat} : Traces reply s (t.grant r d manual) := by
  have hclaimed : Traces reply s (t.updDrive d (fun x => { x with state := .claimed, claim := some (t.newClaim r manual) })) :=
    Traces.updDrive h (fun k => nomatch k.loaded)
  have hcounted : Traces reply s ((t.updDrive d (fun x => { x with state := .claimed, claim := some (t.newClaim r manual) })).countGrant r.account) :=
    hclaimed.updAccount.of_parts rfl (fun b => by cases b <;> rfl) rfl rfl rfl
  exact Traces.updRequest hcounted (fun _ k => k)

theorem Traces.examine (h : Traces reply s t) : Traces reply s (t.examine tag) := by
  unfold State.examine
  split
  · exact h
  · split
    · exact h.enter
    · refine Traces.ite h.lostVolume (Traces.ite h.enter (Traces.ite h.enter ?_))
      split
      · exact h.enter
      · exact h.grant.afterGrant

theorem Traces.walkStep (h : Traces reply s t) : Traces reply s (t.walkStep tag) := by
  unfold State.walkStep
  dsimp only
  split
  · split
    exacts [h.resolve, h.resolve, h]
  · split
    · refine Traces.examine ?_
      split
      exacts [h.resolve, h.resolve, h]
    · refine Traces.ite (Traces.askOrder ?_) ?_
      all_goals
        split
        exacts [h.resolve, h.resolve, h]
    all_goals
      split
      exacts [h.resolve, h.resolve, h]

/-! ### Returns and the walk -/

theorem Traces.joinReturn (h : Traces reply s t) : Traces reply s (t.joinReturn d) := by
  unfold State.joinReturn
  split
  · exact Traces.ite h.updOrder.createAndEnter h
  · exact h

theorem Traces.recoverDrives (h : Traces reply s t) : Traces reply s t.recoverDrives :=
  Traces.foldl (fun _ _ k => k.joinReturn) _ h.createOwedRecovers

theorem Traces.choosePositionFor (h : Traces reply s t) : Traces reply s (t.choosePositionFor tag d) := by
  unfold State.choosePositionFor
  split
  · dsimp only
    split
    · exact h.updStation.updPrompt
    · exact h.updStation
  · exact h

theorem Traces.ringReturn (h : Traces reply s t) : Traces reply s (t.ringReturn d) := by
  unfold State.ringReturn
  dsimp only
  split
  · refine Traces.ite h (Traces.ite h.choosePositionFor ?_)
    split
    · exact h.choosePositionFor
    · split
      · rename_i hw
        exact Traces.updRequest (h.choosePositionFor.createCarry hw) (fun _ k => k)
      · exact h.choosePositionFor
  · exact h

theorem Traces.tryReturn (h : Traces reply s t) : Traces reply s (t.tryReturn d) := by
  unfold State.tryReturn
  refine Traces.ite h.joinReturn (Traces.ite h.joinReturn.ringReturn ?_)
  split
  · refine Traces.ite h.joinReturn ?_
    dsimp only
    split
    · split
      · exact h.joinReturn
      · split
        · exact h.joinReturn
        · rename_i hw
          split
          · exact h.joinReturn.createCarry hw
          · exact (h.joinReturn.createCarry hw).createAndEnter
    · exact h.joinReturn
  · exact h.joinReturn

theorem Traces.walk (h : Traces reply s t) : Traces reply s t.walk := by
  unfold State.walk
  exact Traces.ite h (Traces.foldl (fun _ _ k => k.walkStep) _ (Traces.foldl (fun _ _ k => k.tryReturn) _ h))

/-! ### The put-away -/

theorem Traces.tryAgain (h : Traces reply s t) : Traces reply s (t.tryAgain r) := Traces.ite h.enter h.enter

theorem Traces.endPutAway (h : Traces reply s t) : Traces reply s (t.endPutAway tag) := by
  have hends : Traces reply s (t.updRequest tag (fun r => { r with order := none, after := none, awaitVolume := none, toStation := false })) :=
    Traces.updRequest h (fun _ k => k)
  unfold State.endPutAway
  split
  · exact h
  · dsimp only
    split
    · exact hends.finish
    · exact hends.resolve
    · exact hends.enter
    · exact hends.tryAgain
    · exact Traces.ite hends.lostVolume hends.tryAgain
    · exact hends

theorem Traces.pursueDrive (h : Traces reply s t) : Traces reply s (t.pursueDrive tag) := by
  unfold State.pursueDrive
  split
  · exact h
  · split
    · exact h.endPutAway
    · dsimp only
      split
      · exact Traces.ite h.updClaim.enter h.updClaim.giveUpClaim.endPutAway
      iterate 4 exact h.updClaim.enter.unload
      · exact h.updClaim.stopLabelTimer.enter
      all_goals exact h.updClaim.endPutAway

theorem Traces.pursue (h : Traces reply s t) : Traces reply s (t.pursue tag) := by
  unfold State.pursue
  dsimp only
  split
  · exact h.dropUnstarted.pursueDrive
  · refine Traces.ite h.dropUnstarted.enter ?_
    split
    · exact Traces.ite h.dropUnstarted.enter (Traces.ite h.dropUnstarted.enter.cutOrder h.dropUnstarted.enter.replaceRest.dropClaim)
    · exact h.dropUnstarted.enter

/-- A put-away begins: with another outcome. -/
theorem Traces.putAway (h : Traces reply s t) {pending : Option Reply} {after : Option AfterPutAway} {outcome : RecOutcome} {toStation : Bool}
    (hother : pending ≠ some reply) : Traces reply s (t.putAway tag pending after outcome toStation) := by
  unfold State.putAway
  dsimp only
  refine Traces.pursue ?_
  split
  · exact Traces.updRequest h.withdrawPrompt.clearAwaiting.updClaim (fun _ k => absurd k hother)
  · exact Traces.updRequest h.withdrawPrompt.clearAwaiting (fun _ k => absurd k hother)

theorem Traces.awaitOrPursue (h : Traces reply s t) {volume : Option Nat} : Traces reply s (t.awaitOrPursue tag volume) := by
  unfold State.awaitOrPursue
  split
  · exact h
  · exact Traces.ite (Traces.updRequest h.dropClaim.enter (fun _ k => k)) h.pursue

theorem Traces.checkAwaits (h : Traces reply s t) : Traces reply s t.checkAwaits := by
  unfold State.checkAwaits
  refine Traces.foldl (fun w r k => ?_) _ h
  split
  · exact k
  · exact Traces.ite k (Traces.pursue (Traces.updRequest k (fun _ k => k)))

end Sys2Proof.Machine
end

section
/-! PROOFS. What an operation inside a step leaves can be traced back: the reports to Mount Service, the notices, and what follows each act. -/

namespace Sys2Proof.Machine

variable {s t u : State} {reply : Reply} {a : ArmId} {d : Fin 16} {e : Nat} {tag : Half} {r : Request} {o : Order} {id : Nat} {rep : OrderEnd}
variable {own : Option Half}

/-- An outcome that no report of another block gives a request: a CANCEL, an expired wait timer, or a RING_NEEDED CANCEL. -/
def Reply.asked (reply : Reply) : Prop := reply = .cancelled ∨ reply = .failed .timedOut ∨ reply = .failed .ring

theorem Reply.asked.other {x : Option Reply} (h : reply.asked) (hx : x = none ∨ x = some (.failed .promptsFull) ∨ x = some (.failed .loadFailed) ∨
    x = some (.failed .releasedEarly) ∨ x = some (.failed .armFailed)) : x ≠ some reply := by
  rcases h with rfl | rfl | rfl <;> rcases hx with rfl | rfl | rfl | rfl | rfl <;> nofun

/-! ### The reports of the drives -/

theorem Traces.promptOrFail (h : Traces reply s t) (hasked : reply.asked) {kind : PromptKind} {volume : Option Nat} {drive : Option (Fin 16)}
    {resume : ReqState} : Traces reply s (t.promptOrFail tag kind volume drive resume) := by
  unfold State.promptOrFail
  split
  · rename_i hu
    exact h.promptRequest hu
  · exact h.putAway (hasked.other (by simp))

theorem Traces.afterRing (h : Traces reply s t) : Traces reply s (t.afterRing tag d) := by
  unfold State.afterRing
  split
  · exact h
  · exact Traces.ite h.enter.startLabelTimer h.finish

theorem Traces.ringCheck (h : Traces reply s t) (hasked : reply.asked) {protect : Bool} : Traces reply s (t.ringCheck tag d protect) := by
  unfold State.ringCheck
  split
  · exact h
  · exact Traces.ite (h.promptOrFail hasked) h.afterRing

theorem Traces.onLoadedAgain (h : Traces reply s t) : Traces reply s (t.onLoadedAgain d own) := by
  unfold State.onLoadedAgain
  split
  · exact h
  · split
    · exact h.startLabelTimer
    · exact h.unload
    all_goals exact h

theorem Traces.onLoadFailed (h : Traces reply s t) : Traces reply s (t.onLoadFailed own) := by
  unfold State.onLoadFailed
  split
  · exact h
  · split
    · exact h.withdrawPrompt.enter
    · exact h

theorem Traces.retryLoad (h : Traces reply s t) (hasked : reply.asked) : Traces reply s (t.retryLoad r) := by
  unfold State.retryLoad
  split
  · refine Traces.putAway (Traces.updRequest h ?_) (hasked.other (by simp))
    exact fun _ k => k
  · exact h.putAway (hasked.other (by simp))

theorem Traces.releasedEarly (h : Traces reply s t) (hasked : reply.asked) : Traces reply s (t.releasedEarly r d) := by
  unfold State.releasedEarly
  exact Traces.putAway h.stopLabelTimer.withdrawPrompt (hasked.other (by simp))

theorem Traces.onPlaced (h : Traces reply s t) : Traces reply s (t.onPlaced own) := by
  unfold State.onPlaced
  split
  · exact h
  · exact Traces.ite h.enter h

theorem Traces.onClaimLost (h : Traces reply s t) : Traces reply s (t.onClaimLost own) := by
  unfold State.onClaimLost
  split
  · exact h
  · rename_i q _
    have hlost : Traces reply s (((t.withdrawPrompt q.tag).dropUnstarted q.tag).updRequest q.tag (fun r => { r with
        claimed := none, after := some .waitDrive })) := Traces.updRequest h.withdrawPrompt.dropUnstarted (fun _ k => k)
    dsimp only
    split
    · exact hlost.enter
    · exact hlost.endPutAway

theorem Traces.dropDriveOrders (h : Traces reply s t) : Traces reply s (t.dropDriveOrders d) := by
  unfold State.dropDriveOrders
  refine Traces.foldl (fun w o k => Traces.ite ?_ k) _ h
  split
  · exact Traces.ite (Traces.ite k.cutOrder k) k.removeOrder
  · exact Traces.ite k k.removeOrder

theorem Traces.onVolumeLost (h : Traces reply s t) : Traces reply s (t.onVolumeLost d own) := by
  unfold State.onVolumeLost
  dsimp only
  split
  · exact h.dropDriveOrders
  · split
    iterate 3 exact h.dropDriveOrders.withdrawPrompt.lostVolume
    iterate 2 exact h.dropDriveOrders.endPutAway
    all_goals exact h.dropDriveOrders

/-! ### The reports of the orders -/

theorem Traces.onOrderStarted (h : Traces reply s t) : Traces reply s (t.onOrderStarted id) := by
  unfold State.onOrderStarted
  split
  · exact h
  · exact Traces.ite h.enter h

theorem Traces.retryOrder (h : Traces reply s t) (hasked : reply.asked) : Traces reply s (t.retryOrder r) := by
  have hretried : Traces reply s ((t.updRequest r.tag (fun r => { r with retries := r.retries - 1 })).dropClaim r.tag .failed) := by
    refine Traces.dropClaim (Traces.updRequest h ?_)
    exact fun _ k => k
  unfold State.retryOrder
  refine Traces.ite (Traces.ite hretried.lostVolume hretried.finish) (Traces.awaitOrPursue (Traces.updRequest hretried (fun _ k => absurd k ?_)))
  split
  · exact hasked.other (by simp)
  · exact hasked.other (by simp)

theorem Traces.orderDone (h : Traces reply s t) (hasked : reply.asked) : Traces reply s (t.orderDone r rep) := by
  unfold State.orderDone
  split
  · split
    · exact h.finish
    · exact h.putAway (hasked.other (by simp))
  · exact h.awaitOrPursue
  all_goals exact h

theorem Traces.orderFailed (h : Traces reply s t) (hasked : reply.asked) : Traces reply s (t.orderFailed r rep) := by
  unfold State.orderFailed
  refine Traces.ite (Traces.ite h (Traces.ite (Traces.ite ?_ (h.withdrawPrompt.enter.retryOrder hasked)) (Traces.ite h.awaitOrPursue h.awaitOrPursue)))
    (Traces.ite (Traces.ite h.pursue h.awaitOrPursue) (Traces.ite h.withdrawPrompt.enter (Traces.ite h.withdrawPrompt.lostVolume
      (h.withdrawPrompt.retryOrder hasked))))
  refine Traces.enter (Traces.updRequest h.withdrawPrompt.enter ?_)
  exact fun _ k => k

theorem Traces.onReelTaken (h : Traces reply s t) {volume : Option Nat} : Traces reply s (t.onReelTaken d volume) := by
  unfold State.onReelTaken
  dsimp only
  split
  · exact h
  · exact Traces.ite h.withdrawPrompt.enter h.awaitOrPursue

theorem Traces.onOrderEnded (h : Traces reply s t) (hasked : reply.asked) : Traces reply s (t.onOrderEnded rep) := by
  unfold State.onOrderEnded
  split
  · exact h
  · rename_i q _
    have hended : Traces reply s (t.updRequest q.tag (fun r => { r with order := if r.order = some rep.id then none else r.order })) :=
      Traces.updRequest h (fun _ k => k)
    exact Traces.ite h (Traces.ite (hended.orderDone hasked) (hended.orderFailed hasked))

theorem Traces.onOrderRemoved (h : Traces reply s t) : Traces reply s (t.onOrderRemoved rep) := by
  unfold State.onOrderRemoved
  split
  · exact Traces.updRequest h (fun _ k => k)
  · exact h

theorem Traces.reportEnd (h : Traces reply s t) (hasked : reply.asked) : Traces reply s (t.reportEnd rep) := by
  unfold State.reportEnd
  split
  · exact h.scanEnded
  · exact h.importEnded.onOrderEnded hasked
  all_goals exact h.onOrderEnded hasked

theorem Traces.reportRemoved (h : Traces reply s t) : Traces reply s (t.reportRemoved rep) := by
  unfold State.reportRemoved
  split
  · exact h.scanRemoved
  · exact h.importRemoved
  all_goals exact h.onOrderRemoved

theorem Traces.onLoaded (h : Traces reply s t) (hasked : reply.asked) {protect refit : Bool} : Traces reply s (t.onLoaded d own protect refit) := by
  have hcounted : ∀ c : Claim, Traces reply s (if c.scratch && !refit then t.countScratchIssue c.account else t) := fun c => Traces.ite h.updAccount h
  unfold State.onLoaded
  dsimp only
  split
  · split
    exacts [hcounted _, h]
  · split
    · refine Traces.ringCheck ?_ hasked
      split
      exacts [hcounted _, h]
    · refine Traces.unload ?_
      split
      exacts [hcounted _, h]
    · split
      · refine Traces.ite ?_ (Traces.ite (Traces.restartPrompt ?_) (Traces.afterRing (Traces.withdrawPrompt ?_)))
        all_goals
          split
          exacts [hcounted _, h]
      · split
        exacts [hcounted _, h]
    all_goals
      split
      exacts [hcounted _, h]

/-- The volume of a manual mount is named on its drive once the reel is released. -/
theorem Traces.nameReleased (h : Traces reply s t) : Traces reply s (if (t.drive d).state = .released then t.nameByHand d e else t) := by
  split
  · rename_i hreleased
    refine h.nameOnDrive ?_
    rw [hreleased]
    nofun
  · exact h

theorem Traces.onReelReady (h : Traces reply s t) (hasked : reply.asked) : Traces reply s (t.onReelReady d own) := by
  unfold State.onReelReady
  dsimp only
  split
  · refine Traces.tryReturn ?_
    split
    exacts [h.nameReleased, h]
  · split
    · refine Traces.retryLoad ?_ hasked
      split
      exacts [h.nameReleased, h]
    · refine Traces.releasedEarly ?_ hasked
      split
      exacts [h.nameReleased, h]
    · refine Traces.ite (Traces.tryReturn ?_) (Traces.ite (Traces.releasedEarly ?_ hasked) ?_)
      all_goals
        split
        exacts [h.nameReleased, h]
    all_goals
      refine Traces.tryReturn ?_
      split
      exacts [h.nameReleased, h]

theorem Traces.take (hasked : reply.asked) {n : Notice} (hn : ∀ a, n ≠ .armHoming a) (h : Traces reply s t) : Traces reply s (t.take n) := by
  cases n with
  | walk => exact h.walk
  | driveEmpty d => exact h.walk
  | placed d tag => exact h.onPlaced
  | loaded d tag protect refit => exact h.onLoaded hasked
  | loadedAgain d tag => exact h.onLoadedAgain
  | loadFailed d tag => exact h.onLoadFailed
  | reelReady d tag => exact h.onReelReady hasked
  | reelTaken d volume => exact h.onReelTaken
  | claimLost d tag => exact h.onClaimLost
  | volumeLost d tag => exact h.onVolumeLost
  | orderStarted id => exact h.onOrderStarted
  | orderEnded r => exact h.reportEnd hasked
  | orderRemoved r => exact h.reportRemoved
  | armFree a => exact h.armIsFree
  | armLook a => exact h.armLooks
  | armGo a =>
    change Traces reply s ((t.armStep a).getD t)
    cases hu : t.armStep a with
    | none => exact h
    | some u => exact h.armStep hu
  | armHoming a => exact absurd rfl (hn a)
  | armEntered a => exact h.bindUnbound.notify.reimports
  | importPicked id a p => exact h.importPicked
  | importTest p => exact h.testImport
  | importTestAll => exact h.testAllImports
  | room => exact h.retryScan.testOwedImports
  | recovers => exact h.recoverDrives
  | scanRead id slot counts => exact Traces.ite h.updAudit h
  | scanPassed id slot => exact Traces.ite h.updAudit h
  | lostFound tag => exact h.enter
  | retry => exact h.retryArms

end Sys2Proof.Machine
end

section
/-! PROOFS. A request stuck in its put-away: with the library interrupted, both arms unhomed and every drive loaded, an operation that leaves it stuck found
it stuck, and issues no ARM_OUT prompt (for the refutations of O36, O43 and O56). -/

namespace Sys2Proof.Machine

variable {s t u : State} {reply : Reply} {a : ArmId} {d : Fin 16} {e n : Nat} {tag : Half} {r q : Request} {o : Order} {id : Nat} {rep : OrderEnd}

/-- What can be traced back of a library at rest whose one request, a MOUNT, has a pending outcome, with two volumes in arm B. -/
structure State.Rests (s : State) (reply : Reply) : Prop where
  service : s.svc.state = .interrupted
  silent : s.port.flags.getLsbD 0 = false
  replies : s.port.replyOwed = []
  door : s.mon.doorClosed = true
  arms : ∀ b, (s.arm b).state = .unhomed
  drives : ∀ c, (s.drive c).Stands
  awaited : s.locOf 2 = some (.inArm .armB)
  carried : s.locOf 3 = some (.inArm .armB)
  request : ∃ q, s.ms.queue = [q] ∧ q.tag = 7 ∧ q.kind = .mount ∧ q.pending = some reply

/-- The request names one volume, waits for the recovery of another, and holds drive 0. -/
structure Request.Held (q : Request) : Prop where
  volume : q.volume = some 3
  claimed : q.claimed = some 0
  awaits : q.awaitVolume = some 2

/-- The request of a library at rest is stuck. -/
structure State.Stuck (s : State) (reply : Reply) : Prop extends s.Rests reply where
  claim : (s.drive 0).claimTag = some 7
  held : ∀ q ∈ s.ms.queue, q.Held

/-- No prompt of number 1 names an arm. -/
def State.Clear (s : State) : Prop := ∀ p ∈ s.pr.list, p.number = 1 → p.arm = none

theorem Keeps.replies_none {L : Law → Prop} (k : Keeps L s t) (ht : t.port.replyOwed = []) : s.port.replyOwed = [] :=
  List.prefix_nil.mp (ht ▸ k.replies)

theorem Keeps.silent {L : Law → Prop} (k : Keeps L s t) (ht : t.port.flags.getLsbD 0 = false) : s.port.flags.getLsbD 0 = false := by
  by_contra hraised
  exact Bool.false_ne_true (ht.symm.trans (k.flag .service (Bool.eq_true_of_not_eq_false hraised)))

theorem Keeps.doorClosed {L : Law → Prop} (k : Keeps L s t) : t.mon.doorClosed = s.mon.doorClosed := (Prod.mk.inj (Prod.mk.inj k.door).2).1

theorem State.Rests.before (h : t.Rests reply) (tr : Traces reply s t) (k : Keeps noLaw s t) : s.Rests reply where
  service := tr.service ▸ h.service
  silent := k.silent h.silent
  replies := k.replies_none h.replies
  door := k.doorClosed ▸ h.door
  arms b := tr.arms b (h.arms b)
  drives c := tr.drives c (h.drives c)
  awaited := tr.volumes _ _ h.awaited
  carried := tr.volumes _ _ h.carried
  request := by
    obtain ⟨q, hq, htag, hkind, hpending⟩ := h.request
    have hasked : s.ms.queue.map Request.asked = [q.asked] := by
      have := k.asked
      unfold State.requestsAsked at this
      rw [hq] at this
      exact this.symm
    obtain ⟨x, hx, hxq⟩ := List.map_eq_singleton_iff.mp hasked
    obtain ⟨y, hy, hypending⟩ := tr.pending ⟨q, by rw [hq]; exact List.mem_singleton_self q, hpending⟩
    rw [hx] at hy
    obtain rfl := List.mem_singleton.mp hy
    have hfields := (Prod.mk.inj hxq).1
    exact ⟨y, hx, (Prod.mk.inj hfields).1.trans htag, (Prod.mk.inj (Prod.mk.inj hfields).2).1.trans hkind, hypending⟩

/-- Where `t` has the request stuck, so has `s`, and no ARM_OUT prompt has come. -/
def Yields (reply : Reply) (s t : State) : Prop := t.Stuck reply → s.Stuck reply ∧ (s.Clear → t.Clear)

theorem Yields.refl (s : State) : Yields reply s s := fun h => ⟨h, id⟩

theorem Yields.trans (h : Yields reply s t) (k : Yields reply t u) : Yields reply s u := fun hu =>
  have ⟨ht, kclear⟩ := k hu
  have ⟨hs, hclear⟩ := h ht
  ⟨hs, kclear ∘ hclear⟩

theorem Yields.ite {p : Prop} [Decidable p] (h : Yields reply s t) (k : Yields reply s u) : Yields reply s (if p then t else u) := by
  split
  · exact h
  · exact k

theorem Yields.foldl {α : Type} {f : State → α → State} (hf : ∀ u x, Yields reply s u → Yields reply s (f u x)) (l : List α) (h : Yields reply s t) :
    Yields reply s (l.foldl f t) := by
  induction l generalizing t with
  | nil => exact h
  | cons x rest ih => exact ih (hf t x h)

theorem Yields.never (hu : ¬u.Stuck reply) : Yields reply s u := fun k => absurd k hu

/-- What a traceable change needs besides. -/
theorem Yields.step (h : Yields reply s t) (tr : Traces reply t u) (k : Keeps noLaw t u) (hclaim : (u.drive 0).claimTag = some 7 → (t.drive 0).claimTag = some 7)
    (hheld : (∀ q ∈ u.ms.queue, q.Held) → ∀ q ∈ t.ms.queue, q.Held) (hclear : (∀ b, (t.arm b).state = .unhomed) → t.Clear → u.Clear) : Yields reply s u :=
  h.trans fun hu =>
    have hrests := hu.toRests.before tr k
    ⟨⟨hrests, hclaim hu.claim, hheld hu.held⟩, hclear hrests.arms⟩

/-- A traceable change of other parts. -/
theorem Yields.of_parts (h : Yields reply s t) (tr : Traces reply t u) (k : Keeps noLaw t u) (hdrv : u.drv = t.drv) (hms : u.ms = t.ms)
    (hlist : u.pr.list = t.pr.list) : Yields reply s u := by
  refine h.step tr k (fun hc => ?_) (fun hq => by rwa [hms] at hq) (fun _ hc => by unfold State.Clear; rwa [hlist])
  unfold State.drive at *
  rwa [← hdrv]

/-- An operation that does nothing in a library at rest. -/
theorem Yields.inert (h : Yields reply s t) (tr : Traces reply t u) (k : Keeps noLaw t u) (heq : t.Rests reply → u = t) : Yields reply s u :=
  fun hu => by
    have hut := heq (hu.toRests.before tr k)
    rw [hut] at hu ⊢
    exact h hu

theorem Yields.notify (h : Yields reply s t) {x : Notice} : Yields reply s (t.notify x) :=
  h.of_parts (Traces.refl t).notify (Keeps.refl t).notify (by simp) (by simp) (by simp)

end Sys2Proof.Machine
end

section
/-! PROOFS. A request stuck in its put-away: the operations that leave it so, and those that do not. -/

namespace Sys2Proof.Machine

variable {s t u : State} {reply : Reply} {a : ArmId} {d : Fin 16} {e n : Nat} {tag : Half} {r q : Request} {o : Order} {id : Nat} {rep : OrderEnd}

/-! ### Prompts -/

theorem State.Clear.issue (h : s.Clear) {kind : PromptKind} {names : Names} (harm : names.arm = none) : (s.issue kind names).1.Clear := by
  unfold State.issue State.Clear
  simp only [State.attend_pr, State.raise_pr]
  intro p hp hnumber
  rcases List.mem_append.mp hp with hp | hp
  · exact h p hp hnumber
  · rw [List.mem_singleton.mp hp]
    exact harm

theorem State.equipmentNames_arm {x : Equipment} (hx : ∀ b, x ≠ .armOut b) : (s.equipmentNames x).2.arm = none := by
  cases x with
  | stationUnknown p => rfl
  | driveCheck c => rfl
  | armOut b => exact absurd rfl (hx b)

theorem State.Clear.askEquipment (h : s.Clear) {x : Equipment} (hx : ∀ b, x ≠ .armOut b) : (s.askEquipment x).Clear := by
  unfold State.askEquipment
  split
  · exact h
  · split
    · exact h.issue (State.equipmentNames_arm hx)
    · exact h

/-- With both arms unhomed no owed ARM_OUT is issued. -/
theorem State.Clear.testOwed (h : s.Clear) (harms : ∀ b, (s.arm b).state = .unhomed) (l : List Equipment) : (s.testOwed l).Clear := by
  induction l with
  | nil => exact h
  | cons x rest ih =>
    unfold State.testOwed
    split
    · rename_i hholds
      refine State.Clear.issue (s := { s with pr := { s.pr with owed := rest } }) h (State.equipmentNames_arm fun b hx => ?_)
      rw [hx] at hholds
      have hout : ((s.arm b).state == .outOfService && !(s.arm b).leaveMark) = true := hholds
      rw [harms b] at hout
      exact Bool.false_ne_true hout
    · exact ih

theorem State.offList_sch {line : Bool} : (s.offList n line).sch = s.sch := by
  unfold State.offList
  cases line
  · exact State.attend_sch
  · exact State.attend_sch

theorem State.tellPosition_sch {p : Prompt} : (s.tellPosition p).sch = s.sch := by
  unfold State.tellPosition
  split
  · exact State.notify_sch
  · rfl

theorem State.Clear.leaveList (h : s.Clear) (harms : ∀ b, (s.arm b).state = .unhomed) {line : Bool} : (s.leaveList n line).Clear := by
  cases hp : s.prompt? n with
  | none =>
    rw [State.leaveList_none hp]
    exact h
  | some p =>
    rw [State.leaveList_some hp]
    have hpr : ((s.offList n line).tellPosition p).pr.list = s.pr.list.filter (fun q => q.number != n) := by
      rw [State.tellPosition_pr, State.offList_pr]
      unfold State.prWithout
      cases line <;> rfl
    refine State.Clear.testOwed (fun q hq => h q ?_) (fun b => ?_) _
    · rw [hpr] at hq
      exact List.mem_of_mem_filter hq
    · rw [State.arm_of_sch (State.tellPosition_sch.trans State.offList_sch)]
      exact harms b

/-! ### What yields -/

theorem Yields.updRequest (h : Yields reply s t) {f : Request → Request} (hf : ∀ x, (f x).asked = x.asked)
    (hpending : ∀ x, (f x).pending = some reply → x.pending = some reply) (hheld : ∀ x, (f x).Held → x.Held) : Yields reply s (t.updRequest tag f) := by
  refine h.step ((Traces.refl t).updRequest hpending) ((Keeps.refl t).updRequest hf nofun nofun) id (fun hq x hx => ?_) (fun _ hc => hc)
  have hy := hq _ (List.mem_map_of_mem hx)
  split at hy
  · exact hheld x hy
  · exact hy

/-- What is held is not part of a request's state. -/
theorem held_of_cores (hcores : t.cores = s.cores) (h : ∀ q ∈ t.ms.queue, q.Held) : ∀ q ∈ s.ms.queue, q.Held := by
  intro x hx
  have hcore : x.core ∈ t.cores := hcores ▸ List.mem_map_of_mem hx
  obtain ⟨y, hy, hyx⟩ := List.mem_map.mp hcore
  obtain ⟨hvolume, hclaimed, hawaits⟩ := h y hy
  exact ⟨(congrArg Request.volume hyx).symm.trans hvolume, (congrArg Request.claimed hyx).symm.trans hclaimed,
    (congrArg Request.awaitVolume hyx).symm.trans hawaits⟩

theorem Yields.leaveList (h : Yields reply s t) {line : Bool} : Yields reply s (t.leaveList n line) :=
  h.step (Traces.refl t).leaveList (Keeps.refl t).leaveList (fun hc => by rwa [State.leaveList_aside.drive] at hc) (held_of_cores State.leaveList_cores)
    (fun harms hc => hc.leaveList harms)

theorem Yields.withdraw (h : Yields reply s t) : Yields reply s (t.withdraw n) := h.leaveList

theorem Yields.withdrawPrompt (h : Yields reply s t) : Yields reply s (t.withdrawPrompt tag) := by
  unfold State.withdrawPrompt
  split
  · exact h.withdraw.of_parts (Traces.refl _).clearAwaiting (Keeps.refl _).clearAwaiting State.clearAwaiting_parts.2 State.clearAwaiting_ms
      (by rw [State.clearAwaiting_pr])
  · exact h

theorem Yields.enter (h : Yields reply s t) {st : ReqState} {reason : Option WaitReason} : Yields reply s (t.enter tag st reason) := by
  unfold State.enter
  exact h.withdrawPrompt.updRequest (fun _ => rfl) (fun _ k => k) (fun _ k => ⟨k.volume, k.claimed, k.awaits⟩)

theorem Yields.askEquipment (h : Yields reply s t) {x : Equipment} (hx : ∀ b, x ≠ .armOut b) : Yields reply s (t.askEquipment x) :=
  h.step (Traces.refl t).askEquipment (Keeps.refl t).askEquipment (fun hc => by rwa [State.askEquipment_aside.drive] at hc)
    (fun hq => by rwa [State.askEquipment_ms] at hq) (fun _ hc => hc.askEquipment hx)

theorem Yields.restartPrompt (h : Yields reply s t) {sub : SubState} : Yields reply s (t.restartPrompt n sub) := by
  refine h.step (Traces.refl t).restartPrompt (Keeps.refl t).restartPrompt (fun hc => ?_) (fun hq => ?_) (fun _ hc p hp hnumber => ?_)
  · unfold State.restartPrompt at hc
    rw [State.attend_eq] at hc
    exact hc
  · unfold State.restartPrompt at hq
    rw [State.attend_ms] at hq
    exact hq
  · unfold State.restartPrompt at hp
    rw [State.attend_pr] at hp
    obtain ⟨x, hx, rfl⟩ := List.mem_map.mp hp
    by_cases hx1 : x.number = n
    · rw [if_pos hx1] at hnumber ⊢
      exact hc x hx hnumber
    · rw [if_neg hx1] at hnumber ⊢
      exact hc x hx hnumber

theorem State.askRequestPrompt_rest {kind : PromptKind} {names : Names} (h : s.askRequestPrompt kind names = some (u, n)) (harm : names.arm = none) :
    u.ms = s.ms ∧ (s.Clear → u.Clear) := by
  have hms : (s.issue kind names).1.ms = s.ms := State.issue_ms
  have hclear (hc : s.Clear) : (s.issue kind names).1.Clear := hc.issue harm
  unfold State.askRequestPrompt at h
  split at h
  · nomatch h
  · generalize s.issue kind names = y at h hms hclear
    obtain ⟨rfl, _⟩ := Prod.mk.inj (Option.some.inj h)
    split
    · refine ⟨State.notify_ms.trans hms, fun hc => ?_⟩
      unfold State.Clear
      rw [State.notify_pr]
      exact hclear hc
    · exact ⟨hms, hclear⟩

theorem Yields.promptRequest (h : Yields reply s t) {kind : PromptKind} {volume : Option Nat} {drive : Option (Fin 16)} {resume : ReqState}
    (hu : t.promptRequest tag kind volume drive resume = some u) : Yields reply s u := by
  unfold State.promptRequest at hu
  split at hu
  · obtain ⟨⟨w, n⟩, hw, rfl⟩ := Option.map_eq_some_iff.mp hu
    obtain ⟨hms, hclear⟩ := State.askRequestPrompt_rest hw rfl
    have hasked : Yields reply s w := h.withdrawPrompt.step ((Traces.refl _).askRequestPrompt hw) ((Keeps.refl _).askRequestPrompt (x := (w, n)) nofun hw)
      (fun hc => by rwa [(State.askRequestPrompt_aside hw).drive] at hc) (fun hq => by rwa [hms] at hq) (fun _ => hclear)
    exact hasked.updRequest (fun _ => rfl) (fun _ k => k) (fun _ k => ⟨k.volume, k.claimed, k.awaits⟩)
  · nomatch hu

/-! ### Other parts -/

theorem Yields.updAccount (h : Yields reply s t) {i : Nat} {f : Account → Account} (hf : ∀ x, (f x).identity = x.identity) :
    Yields reply s (t.updAccount i f) :=
  h.of_parts (Traces.refl t).updAccount ((Keeps.refl t).updAccount hf) State.updAccount_drv State.updAccount_ms (by rw [State.updAccount_pr])

theorem Yields.startLabelTimer (h : Yields reply s t) : Yields reply s (t.startLabelTimer d) := by
  refine h.step (Traces.refl t).startLabelTimer (Keeps.refl t).startLabelTimer (fun hc => ?_) id (fun _ hc => hc)
  unfold State.startLabelTimer at hc
  by_cases hd : (0 : Fin 16) = d
  · subst hd
    rwa [State.updDrive_drive_self] at hc
  · rwa [State.updDrive_drive_ne hd] at hc

theorem Yields.updStation (h : Yields reply s t) {p : Fin 8} {f : Station → Station} (hf : ∀ x, (f x).wiring = x.wiring) :
    Yields reply s (t.updStation p f) := h.of_parts (Traces.refl t).updStation ((Keeps.refl t).updStation hf) rfl rfl rfl

theorem Yields.raise (h : Yields reply s t) {x : Event} : Yields reply s (t.raise x) := h.of_parts (Traces.refl t).raise (Keeps.refl t).raise rfl rfl rfl

theorem Yields.updAudit (h : Yields reply s t) {f : AuditBlock → AuditBlock} : Yields reply s (t.updAudit f) :=
  h.of_parts (Traces.refl t).updAudit (Keeps.refl t).updAudit rfl rfl rfl

theorem Yields.updOrder (h : Yields reply s t) {f : Order → Order} : Yields reply s (t.updOrder id f) :=
  h.of_parts (Traces.refl t).updOrder (Keeps.refl t).updOrder rfl rfl rfl

theorem State.unreserve_pr : (s.unreserve id).pr = s.pr := by
  unfold State.unreserve
  refine foldl_part (g := State.pr) (fun u p => ?_) _ _
  split
  · rw [State.notify_pr]
    rfl
  · rfl

theorem State.removeOrder_pr : (s.removeOrder id).pr = s.pr := by
  unfold State.removeOrder
  rw [State.unreserve_pr, State.dropOrder_pr]
  split
  · unfold State.untake
    rw [State.notify_pr, State.updArm_pr]
    rfl
  · rfl

theorem Yields.removeOrder (h : Yields reply s t) : Yields reply s (t.removeOrder id) :=
  have hcontents : Contents t (t.removeOrder id) := (Contents.refl t).removeOrder
  h.of_parts (Traces.refl t).removeOrder (Keeps.refl t).removeOrder hcontents.drv hcontents.ms (by rw [State.removeOrder_pr])

theorem Yields.dropOrderOf (h : Yields reply s t) : Yields reply s (t.updRequest tag (fun r => { r with order := none })) :=
  h.updRequest (fun _ => rfl) (fun _ k => k) (fun _ k => ⟨k.volume, k.claimed, k.awaits⟩)

theorem Yields.dropUnstarted (h : Yields reply s t) : Yields reply s (t.dropUnstarted tag) := by
  unfold State.dropUnstarted
  split
  · exact h
  · split
    · exact Yields.ite h h.removeOrder.dropOrderOf
    · exact h.dropOrderOf

/-! ### What does not leave the request stuck -/

theorem State.Rests.request_eq (h : s.Rests reply) (hr : s.request? tag = some r) :
    s.ms.queue = [r] ∧ tag = 7 ∧ r.kind = .mount ∧ r.pending = some reply := by
  obtain ⟨q, hq, htag, hkind, hpending⟩ := h.request
  obtain ⟨hmem, hown⟩ := State.request?_mem hr
  rw [hq] at hmem
  obtain rfl := List.mem_singleton.mp hmem
  exact ⟨hq, hown.symm.trans htag, hkind, hpending⟩

theorem State.Rests.request_some (h : s.Rests reply) (htag : tag = 7) : ∃ r, s.request? tag = some r := by
  obtain ⟨q, hq, hown, _⟩ := h.request
  refine ⟨q, ?_⟩
  unfold State.request?
  rw [hq, List.find?_cons_of_pos (by rw [hown, htag, beq_self_eq_true])]

theorem not_rests_updRequest {f : Request → Request} (htag : tag = 7) (hother : ∀ x, (f x).pending ≠ some reply) : ¬(s.updRequest tag f).Rests reply :=
  fun h => by
    obtain ⟨q, hq, hown, _, hpending⟩ := h.request
    obtain ⟨x, _, hxq⟩ := List.map_eq_singleton_iff.mp hq
    split at hxq
    · exact hother x (hxq ▸ hpending)
    · rename_i hne
      exact hne ((hxq ▸ hown : x.tag = 7).trans htag.symm)

theorem not_stuck_finish {final : Reply} (htag : tag = 7) : ¬(s.finish tag final).Stuck reply := fun h => by
  obtain ⟨r, hr⟩ := (h.toRests.before (Traces.refl s).finish (Keeps.refl s).finish).request_some htag
  have howed := (State.finish_finished (reply := final) hr).1
  rw [State.request?_tag hr, h.replies] at howed
  exact absurd howed.symm (by simp)

theorem not_stuck_endPutAway (htag : tag = 7) : ¬(s.endPutAway tag).Stuck reply := fun h => by
  have hrests : s.Rests reply := h.toRests.before (Traces.refl s).endPutAway (Keeps.refl s).endPutAway
  obtain ⟨r, hr⟩ := hrests.request_some htag
  rw [State.endPutAway_pending hr (hrests.request_eq hr).2.2.2] at h
  exact not_stuck_finish htag h

theorem not_stuck_unload : ¬(s.unload d).Stuck reply := fun h => by
  have hrests : s.Rests reply := h.toRests.before (Traces.refl s).unload (Keeps.refl s).unload
  have hloaded := (h.drives d).loaded
  unfold State.unload at hloaded
  rw [(hrests.drives d).loaded] at hloaded
  simp [State.startReleaseTimer, State.setDriveState] at hloaded

theorem not_stuck_putAway {pending : Option Reply} {after : Option AfterPutAway} {outcome : RecOutcome} {toStation : Bool}
    (htag : tag = 7) (hother : pending ≠ some reply) : ¬(s.putAway tag pending after outcome toStation).Stuck reply := fun h => by
  rw [State.putAway_eq] at h
  exact not_rests_updRequest htag (fun _ => hother) (h.toRests.before (Traces.refl _).pursue (Keeps.refl _).pursue)

theorem State.Rests.dropClaim_eq (h : s.Rests reply) {outcome : RecOutcome} : s.dropClaim tag outcome = s := by
  unfold State.dropClaim
  split
  · refine if_neg fun hclaimed => ?_
    rw [(h.drives _).loaded] at hclaimed
    exact nomatch hclaimed.1
  · rfl

/-- An operation that leaves the drives and the requests, whatever prompt it issues. -/
theorem State.Stuck.before (h : t.Stuck reply) (tr : Traces reply s t) (k : Keeps noLaw s t) (hcontents : Contents s t) : s.Stuck reply where
  toRests := h.toRests.before tr k
  claim := hcontents.drive ▸ h.claim
  held := hcontents.ms ▸ h.held

theorem State.Stuck.of_pursueDrive (h : (s.pursueDrive tag).Stuck reply) : s.Stuck reply := by
  have hrests : s.Rests reply := h.toRests.before (Traces.refl s).pursueDrive (Keeps.refl s).pursueDrive
  unfold State.pursueDrive at h
  split at h
  · exact h
  · rename_i q hq
    split at h
    · exact absurd h (not_stuck_endPutAway (hrests.request_eq hq).2.1)
    · rename_i d _
      have hloaded {f : Claim → Claim} : ((s.updClaim d f).drive d).state = .loaded := by
        unfold State.updClaim
        rw [State.updDrive_drive_self]
        exact (hrests.drives d).loaded
      dsimp only at h
      rw [hloaded] at h
      exact absurd h not_stuck_unload

/-- A put-away that goes on, and leaves the request stuck, found it stuck. -/
theorem State.Stuck.of_pursue (h : (s.pursue tag).Stuck reply) : s.Stuck reply := by
  refine ((Yields.refl s).dropUnstarted (tag := tag) ?_).1
  unfold State.pursue at h
  dsimp only at h
  split at h
  · exact h.of_pursueDrive
  · refine ((Yields.refl _).enter (tag := tag) (st := .returning) (reason := none) ?_).1
    split at h
    · exact h
    · split at h
      · split at h
        · exact h
        · split at h
          · exact h.before (Traces.refl _).cutOrder (Keeps.refl _).cutOrder (Contents.refl _).cutOrder
          · have hrests := h.toRests.before (Traces.refl _).dropClaim (Keeps.refl _).dropClaim
            rw [hrests.dropClaim_eq] at h
            exact h.before (Traces.refl _).replaceRest (Keeps.refl _).replaceRest (Contents.refl _).replaceRest
      · exact h

theorem not_stuck_awaitOrPursue {volume : Option Nat} (htag : tag = 7) (hvolume : ∀ r, s.request? tag = some r → volume = r.volume) :
    ¬(s.awaitOrPursue tag volume).Stuck reply := fun h => by
  have hrests : s.Rests reply := h.toRests.before (Traces.refl s).awaitOrPursue (Keeps.refl s).awaitOrPursue
  obtain ⟨r, hr⟩ := hrests.request_some htag
  unfold State.awaitOrPursue at h
  rw [hr] at h
  dsimp only at h
  split at h
  · rw [hrests.dropClaim_eq] at h
    obtain ⟨x, hx, _, _, _, _, hcore⟩ := State.enter_request? (st := .returning) (reason := none) hr
    obtain ⟨hmem, hown⟩ := State.request?_mem hx
    have hheld := h.held _ (List.mem_map_of_mem hmem)
    rw [if_pos hown] at hheld
    have hnamed : x.core.volume = r.core.volume := by rw [hcore]
    have hthree : r.volume = some 3 := hnamed.symm.trans hheld.volume
    have htwo : volume = some 2 := hheld.awaits
    rw [hvolume r hr, hthree] at htwo
    exact absurd (Option.some.inj htwo) (by decide)
  · rename_i hnot
    have hheld := h.of_pursue.held r (State.request?_mem hr).1
    obtain ⟨v, hv, hloc⟩ := Option.map_eq_some_iff.mp hrests.carried
    rw [hvolume r hr, hheld.volume] at hnot
    refine hnot ?_
    rw [Option.any_some, hv, Option.any_some, hloc]

end Sys2Proof.Machine
end

section
/-! PROOFS. A request stuck in its put-away: what each notice does to it. -/

namespace Sys2Proof.Machine

variable {s t u v w : State} {reply : Reply} {a : ArmId} {d : Fin 16} {e n : Nat} {tag : Half} {r q : Request} {o : Order} {id : Nat} {rep : OrderEnd}
variable {own : Option Half}

/-- What an operation does, it may be said of a library at rest. -/
theorem Yields.resting (tr : Traces reply s t) (k : Keeps noLaw s t) (h : s.Rests reply → Yields reply s t) : Yields reply s t :=
  fun ht => h (ht.toRests.before tr k) ht

/-! ### A library at rest -/

theorem State.Rests.not_active (h : s.Rests reply) : s.service ≠ .active := fun hactive => nomatch h.service.symm.trans hactive

theorem State.Rests.walk_eq (h : s.Rests reply) : s.walk = s := if_pos h.not_active

theorem State.Rests.armStep_eq (h : s.Rests reply) : s.armStep a = none := by
  unfold State.armStep
  dsimp only
  refine if_pos (Or.inl ?_)
  rw [h.arms a]
  nofun

theorem State.Rests.armIsFree_eq (h : s.Rests reply) : s.armIsFree a = s := if_pos (Or.inl (h.arms a))

theorem State.Rests.armLooks_eq (h : s.Rests reply) : s.armLooks a = s := by
  unfold State.armLooks
  rw [h.arms a]

theorem State.Rests.retryArms_eq (h : s.Rests reply) : s.retryArms = s := by
  unfold State.retryArms
  rw [h.armStep_eq, h.armStep_eq]

theorem State.Rests.joinReturn_eq (h : s.Rests reply) : s.joinReturn d = s := by
  unfold State.joinReturn
  split
  · refine if_neg fun hreleased => ?_
    rw [(h.drives d).loaded] at hreleased
    exact nomatch hreleased.1
  · rfl

theorem State.Rests.tryReturn_eq (h : s.Rests reply) : s.tryReturn d = s := by
  unfold State.tryReturn
  rw [h.joinReturn_eq]
  exact if_pos h.not_active

theorem State.Rests.recoverDrives_eq (h : s.Rests reply) : s.recoverDrives = s := by
  have hnone : s.createOwedRecovers = s := by
    unfold State.createOwedRecovers
    rw [show s.service = .interrupted from h.service]
    rfl
  unfold State.recoverDrives
  rw [hnone]
  exact List.foldl_fixed' (fun _ => h.joinReturn_eq) _

theorem State.Rests.dropDriveOrders_eq (h : s.Rests reply) : s.dropDriveOrders d = s := by
  unfold State.dropDriveOrders
  refine List.foldl_fixed' (fun o => if_neg ?_) _
  rw [Bool.and_eq_true]
  exact fun hnone => (h.drives d).volume (Option.isNone_iff_eq_none.mp hnone.2)

/-! ### The rail -/

theorem State.updArm_schedOnly {f : Arm → Arm} : SchedOnly s (s.updArm a f) := by cases a <;> rfl

theorem State.setArmPort_schedOnly {x : ArmPort} : SchedOnly s (s.setArmPort a x) := by cases a <;> rfl

theorem State.mapZones_schedOnly {f : Nat → Option Holding → Option Holding} : SchedOnly s (s.mapZones f) := rfl

theorem State.withdrawClaim_schedOnly : SchedOnly s (s.withdrawClaim a) := rfl

theorem State.sendArm_schedOnly {f : ArmFrame} : SchedOnly s (s.sendArm a f) := by
  unfold State.sendArm
  dsimp only
  split
  · unfold State.putOnLine
    dsimp only
    split
    · exact State.setArmPort_schedOnly.trans State.updArm_schedOnly
    · exact State.setArmPort_schedOnly.trans State.updArm_schedOnly
    · exact State.setArmPort_schedOnly.trans State.updArm_schedOnly
    · exact State.setArmPort_schedOnly
  · exact State.setArmPort_schedOnly

theorem State.markStarted_schedOnly : SchedOnly s (s.markStarted a) := by
  unfold State.markStarted
  split
  · split
    · exact .refl s
    · exact State.updOrder_schedOnly.trans State.notify_schedOnly
  · exact .refl s

theorem State.grantClaim_schedOnly {c : RailClaim} : SchedOnly s (s.grantClaim c) := by
  unfold State.grantClaim State.handLeg
  dsimp only
  exact (State.withdrawClaim_schedOnly.trans State.mapZones_schedOnly).trans
    (State.markStarted_schedOnly.trans (State.updArm_schedOnly.trans State.sendArm_schedOnly))

theorem State.makeClaim_schedOnly {target : Nat} : SchedOnly s (s.makeClaim a target) := by
  unfold State.makeClaim
  generalize spanOf (s.armZone a) (zoneOf target) = span
  exact SchedOnly.trans State.updArm_schedOnly rfl

theorem State.giveYield_schedOnly {c : RailClaim} : SchedOnly s (s.giveYield c) := by
  unfold State.giveYield
  dsimp only
  split
  · split
    · exact (State.updArm_schedOnly.trans State.makeClaim_schedOnly).trans State.grantClaim_schedOnly
    · exact State.updArm_schedOnly.trans State.makeClaim_schedOnly
  · exact State.updArm_schedOnly.trans State.makeClaim_schedOnly

theorem State.insertTravel_schedOnly {column : Nat} : SchedOnly s (s.insertTravel a column) := by
  unfold State.insertTravel
  split
  · exact State.updOrder_schedOnly.trans State.updArm_schedOnly
  · exact State.updArm_schedOnly

theorem State.testClaim_schedOnly {c : RailClaim} (h : s.testClaim c = some t) : SchedOnly s t := by
  unfold State.testClaim at h
  split at h
  · exact Option.some.inj h ▸ State.grantClaim_schedOnly
  · split at h
    · exact Option.some.inj h ▸ (State.withdrawClaim_schedOnly.trans State.insertTravel_schedOnly).trans State.notify_schedOnly
    · split at h
      · exact Option.some.inj h ▸ State.giveYield_schedOnly
      · nomatch h

theorem State.firstClaim_schedOnly {l : List RailClaim} (h : s.firstClaim l = some t) : SchedOnly s t := by
  induction l with
  | nil => nomatch h
  | cons c rest ih =>
    unfold State.firstClaim at h
    split at h
    · rename_i hc
      exact Option.some.inj h ▸ State.testClaim_schedOnly hc
    · exact ih h

theorem State.testClaims_schedOnly : SchedOnly s (State.testClaims n s) := by
  induction n generalizing s with
  | zero => exact .refl s
  | succ n ih =>
    unfold State.testClaims
    split
    · rename_i hc
      exact (State.firstClaim_schedOnly hc).trans ih
    · exact .refl s

theorem State.bindUnbound_schedOnly : SchedOnly s s.bindUnbound := by
  unfold State.bindUnbound
  generalize s.sch.pool = l
  induction l generalizing s with
  | nil => exact .refl s
  | cons o rest ih =>
    refine SchedOnly.trans ?_ ih
    dsimp only
    split
    · exact State.bindOrder_schedOnly
    · exact .refl s

theorem Yields.testClaims (h : Yields reply s t) : Yields reply s (State.testClaims n t) :=
  have hrest : SchedOnly t (State.testClaims n t) := State.testClaims_schedOnly
  h.of_parts ((Traces.refl t).testClaims n) (Keeps.refl t).testClaims (by rw [hrest]) (by rw [hrest]) (by rw [hrest])

theorem Yields.bindUnbound (h : Yields reply s t) : Yields reply s t.bindUnbound :=
  have hrest : SchedOnly t t.bindUnbound := State.bindUnbound_schedOnly
  h.of_parts (Traces.refl t).bindUnbound (Keeps.refl t).bindUnbound (by rw [hrest]) (by rw [hrest]) (by rw [hrest])

end Sys2Proof.Machine
end

section
/-! PROOFS. A request stuck in its put-away: what the reports to Mount Service do to it. -/

namespace Sys2Proof.Machine

variable {s t u : State} {reply : Reply} {a : ArmId} {d : Fin 16} {e n : Nat} {tag : Half} {r q : Request} {o : Order} {id : Nat} {rep : OrderEnd}
variable {own : Option Half}

/-! ### What ends a request, or asks for a prompt -/

theorem Yields.finish (h : Yields reply s t) {final : Reply} : Yields reply s (t.finish tag final) := by
  cases hr : t.request? tag with
  | none =>
    unfold State.finish
    rw [hr]
    exact h
  | some r =>
    refine .never fun hstuck => not_stuck_finish ?_ hstuck
    exact ((hstuck.toRests.before (Traces.refl t).finish (Keeps.refl t).finish).request_eq hr).2.1

theorem Yields.endPutAway (h : Yields reply s t) : Yields reply s (t.endPutAway tag) := by
  cases hr : t.request? tag with
  | none =>
    unfold State.endPutAway
    rw [hr]
    exact h
  | some r =>
    refine .never fun hstuck => not_stuck_endPutAway ?_ hstuck
    exact ((hstuck.toRests.before (Traces.refl t).endPutAway (Keeps.refl t).endPutAway).request_eq hr).2.1

theorem Yields.putAway {pending : Option Reply} {after : Option AfterPutAway} {outcome : RecOutcome} {toStation : Bool}
    (hr : t.request? tag = some r) (hother : pending ≠ some reply) : Yields reply s (t.putAway tag pending after outcome toStation) :=
  .never fun hstuck => not_stuck_putAway
    ((hstuck.toRests.before ((Traces.refl t).putAway hother) (Keeps.refl t).putAway).request_eq hr).2.1 hother hstuck

theorem Yields.dropClaim (h : Yields reply s t) {outcome : RecOutcome} : Yields reply s (t.dropClaim tag outcome) :=
  h.inert (Traces.refl t).dropClaim (Keeps.refl t).dropClaim (fun hrests => hrests.dropClaim_eq)

theorem Yields.promptOrFail (h : Yields reply s t) (hasked : reply.asked) (hr : t.request? tag = some r) {kind : PromptKind} {volume : Option Nat}
    {drive : Option (Fin 16)} {resume : ReqState} : Yields reply s (t.promptOrFail tag kind volume drive resume) := by
  unfold State.promptOrFail
  split
  · rename_i hu
    exact h.promptRequest hu
  · exact .putAway hr (hasked.other (by simp))

/-- A SCRATCH or an EJECT is not the request that is stuck. -/
theorem Yields.other (hr : t.request? tag = some r) (hkind : r.kind ≠ .mount) (tr : Traces reply t u) (k : Keeps noLaw t u) : Yields reply s u :=
  .never fun hstuck => hkind ((hstuck.toRests.before tr k).request_eq hr).2.2.1

theorem Yields.lostVolume (h : Yields reply s t) : Yields reply s (t.lostVolume tag) := by
  have hdropped : Yields reply s ((t.dropUnstarted tag).dropClaim tag .failed) := h.dropUnstarted.dropClaim
  unfold State.lostVolume
  dsimp only
  split
  · exact hdropped
  · rename_i hr
    split
    · split
      · rename_i hu
        exact hdropped.promptRequest hu
      · exact hdropped.finish
    · rename_i hkind
      exact .other hr (hkind ▸ nofun) (Traces.refl _).resolveScratch (Keeps.refl _).resolveScratch
    · exact hdropped.finish
    · exact hdropped

/-! ### The reports of the drives -/

theorem Yields.afterRing (h : Yields reply s t) : Yields reply s (t.afterRing tag d) := by
  unfold State.afterRing
  split
  · exact h
  · exact Yields.ite h.enter.startLabelTimer h.finish

theorem Yields.ringCheck (h : Yields reply s t) (hasked : reply.asked) {protect : Bool} : Yields reply s (t.ringCheck tag d protect) := by
  unfold State.ringCheck
  split
  · exact h
  · rename_i hr
    exact Yields.ite (h.promptOrFail hasked hr) h.afterRing

theorem Yields.onLoaded (h : Yields reply s t) (hasked : reply.asked) {protect refit : Bool} : Yields reply s (t.onLoaded d own protect refit) := by
  have hcounted : ∀ c : Claim, Yields reply s (if c.scratch && !refit then t.countScratchIssue c.account else t) :=
    fun c => Yields.ite (h.updAccount fun _ => rfl) h
  unfold State.onLoaded
  dsimp only
  split
  · split
    exacts [hcounted _, h]
  · split
    · refine Yields.ringCheck ?_ hasked
      split
      exacts [hcounted _, h]
    · exact .never not_stuck_unload
    · split
      · refine Yields.ite ?_ (Yields.ite (Yields.restartPrompt ?_) (Yields.afterRing (Yields.withdrawPrompt ?_)))
        all_goals
          split
          exacts [hcounted _, h]
      · split
        exacts [hcounted _, h]
    all_goals
      split
      exacts [hcounted _, h]

theorem Yields.onLoadedAgain (h : Yields reply s t) : Yields reply s (t.onLoadedAgain d own) := by
  unfold State.onLoadedAgain
  split
  · exact h
  · split
    · exact h.startLabelTimer
    · exact .never not_stuck_unload
    all_goals exact h

theorem Yields.onLoadFailed (h : Yields reply s t) : Yields reply s (t.onLoadFailed own) := by
  unfold State.onLoadFailed
  split
  · exact h
  · split
    · exact h.withdrawPrompt.enter
    · exact h

theorem not_stuck_retryLoad (htag : r.tag = 7) (hasked : reply.asked) : ¬(t.retryLoad r).Stuck reply := by
  unfold State.retryLoad
  split
  · exact not_stuck_putAway htag (hasked.other (by simp))
  · exact not_stuck_putAway htag (hasked.other (by simp))

theorem not_stuck_releasedEarly (htag : r.tag = 7) (hasked : reply.asked) : ¬(t.releasedEarly r d).Stuck reply :=
  not_stuck_putAway htag (hasked.other (by simp))

theorem Yields.onReelReady (h : Yields reply s t) (hasked : reply.asked) : Yields reply s (t.onReelReady d own) := by
  refine h.trans (.resting ((Traces.refl t).onReelReady hasked) (Keeps.refl t).onReelReady fun hrests => ?_)
  obtain ⟨v, hv⟩ := Option.ne_none_iff_exists'.mp (hrests.drives d).volume
  have htried : Yields reply t (t.tryReturn d) := by
    rw [hrests.tryReturn_eq]
    exact .refl t
  unfold State.onReelReady
  dsimp only
  rw [hv]
  dsimp only
  split
  · exact htried
  · rename_i hr
    obtain ⟨tag, _, hr⟩ := Option.bind_eq_some_iff.mp hr
    have htag := (State.request?_tag hr).trans (hrests.request_eq hr).2.1
    split
    · exact .never (not_stuck_retryLoad htag hasked)
    · exact .never (not_stuck_releasedEarly htag hasked)
    · exact Yields.ite htried (Yields.ite (.never (not_stuck_releasedEarly htag hasked)) (.refl t))
    all_goals exact htried

theorem Yields.onPlaced (h : Yields reply s t) : Yields reply s (t.onPlaced own) := by
  unfold State.onPlaced
  split
  · exact h
  · exact Yields.ite h.enter h

theorem Yields.onClaimLost (h : Yields reply s t) : Yields reply s (t.onClaimLost own) := by
  unfold State.onClaimLost
  split
  · exact h
  · rename_i q _
    have hlost : Yields reply s (((t.withdrawPrompt q.tag).dropUnstarted q.tag).updRequest q.tag (fun r => { r with
        claimed := none, after := some .waitDrive })) :=
      h.withdrawPrompt.dropUnstarted.updRequest (fun _ => rfl) (fun _ k => k) (fun _ k => nomatch k.claimed)
    dsimp only
    split
    · exact hlost.enter
    · exact hlost.endPutAway

theorem Yields.dropDriveOrders (h : Yields reply s t) : Yields reply s (t.dropDriveOrders d) :=
  h.inert (Traces.refl t).dropDriveOrders (Keeps.refl t).dropDriveOrders (fun hrests => hrests.dropDriveOrders_eq)

theorem Yields.onVolumeLost (h : Yields reply s t) : Yields reply s (t.onVolumeLost d own) := by
  unfold State.onVolumeLost
  dsimp only
  split
  · exact h.dropDriveOrders
  · split
    iterate 3 exact h.dropDriveOrders.withdrawPrompt.lostVolume
    iterate 2 exact h.dropDriveOrders.endPutAway
    all_goals exact h.dropDriveOrders

/-! ### The reports of the orders -/

theorem Yields.onOrderStarted (h : Yields reply s t) : Yields reply s (t.onOrderStarted id) := by
  unfold State.onOrderStarted
  split
  · exact h
  · exact Yields.ite h.enter h

/-- Every request of a library at rest is the one of tag 7. -/
theorem State.Rests.tag_of_mem (h : s.Rests reply) (hr : r ∈ s.ms.queue) : r.tag = 7 ∧ r.kind = .mount := by
  obtain ⟨q, hq, htag, hkind, _⟩ := h.request
  rw [hq] at hr
  obtain rfl := List.mem_singleton.mp hr
  exact ⟨htag, hkind⟩

theorem State.Rests.request_of_mem (h : s.Rests reply) (hr : r ∈ s.ms.queue) (hq : s.request? tag = some q) : q = r := by
  rw [(h.request_eq hq).1] at hr
  exact (List.mem_singleton.mp hr).symm

theorem Yields.onReelTaken (h : Yields reply s t) {volume : Option Nat} : Yields reply s (t.onReelTaken d volume) := by
  refine h.trans (.resting (Traces.refl t).onReelTaken (Keeps.refl t).onReelTaken fun hrests => ?_)
  unfold State.onReelTaken
  dsimp only
  split
  · exact .refl t
  · rename_i r hfound
    have hmem := List.mem_of_find?_eq_some hfound
    have hwaits := List.find?_some hfound
    obtain ⟨htag, hkind⟩ := hrests.tag_of_mem hmem
    split
    · exact (Yields.refl t).withdrawPrompt.enter
    · rename_i hstate
      refine .never (not_stuck_awaitOrPursue htag fun q hq => ?_)
      rw [hrests.request_of_mem hmem hq]
      simp [hkind, hstate] at hwaits
      exact hwaits.2.2.1.1.symm

end Sys2Proof.Machine
end

section
/-! PROOFS. A request stuck in its put-away: the order ends, the audit and the stations. -/

namespace Sys2Proof.Machine

variable {s t u : State} {reply : Reply} {a : ArmId} {d : Fin 16} {e n : Nat} {tag : Half} {r q : Request} {o : Order} {id : Nat} {rep : OrderEnd}
variable {own : Option Half}

/-! ### Order ends at Mount Service -/

theorem Yields.retryOrder (h : Yields reply s t) (hasked : reply.asked) (htag : r.tag = 7) : Yields reply s (t.retryOrder r) := by
  have hretried : Yields reply s ((t.updRequest r.tag (fun r => { r with retries := r.retries - 1 })).dropClaim r.tag .failed) := by
    refine Yields.dropClaim (h.updRequest ?_ ?_ ?_)
    · exact fun _ => rfl
    · exact fun _ k => k
    · exact fun _ k => ⟨k.volume, k.claimed, k.awaits⟩
  unfold State.retryOrder
  refine Yields.ite (Yields.ite hretried.lostVolume hretried.finish) (.never fun hstuck => ?_)
  refine not_rests_updRequest htag (fun _ => ?_) (hstuck.toRests.before (Traces.refl _).awaitOrPursue (Keeps.refl _).awaitOrPursue)
  dsimp only
  split
  · exact hasked.other (by simp)
  · exact hasked.other (by simp)

/-- A request as a report found it, its order apart. -/
def State.AsFound (s : State) (r : Request) : Prop := ∀ q, s.request? r.tag = some q → r.volume = q.volume ∧ r.claimed = q.claimed

theorem Yields.orderDone (h : Yields reply s t) (hasked : reply.asked) (htag : r.tag = 7) (hfound : t.AsFound r) :
    Yields reply s (t.orderDone r rep) := by
  unfold State.orderDone
  split
  · split
    · exact h.finish
    · exact .never (not_stuck_putAway htag (hasked.other (by simp)))
  · exact .never (not_stuck_awaitOrPursue htag fun q hq => (hfound q hq).1)
  all_goals exact h

/-- A request that is stuck holds its drive: its put-away does not end with its order. -/
theorem not_stuck_endsWithOrder (htag : r.tag = 7) (hfound : t.AsFound r) (hends : t.endsWithOrder r rep = true) : ¬t.Stuck reply := fun h => by
  obtain ⟨q, hq⟩ := h.toRests.request_some htag
  have hclaimed : r.claimed = some 0 := (hfound q hq).2.trans (h.held q (State.request?_mem hq).1).claimed
  unfold State.endsWithOrder State.ownDrive at hends
  rw [hclaimed, htag] at hends
  simp [h.claim] at hends

theorem Yields.orderFailed (h : Yields reply s t) (hasked : reply.asked) (htag : r.tag = 7) (hkind : r.kind = .mount) (hfound : t.AsFound r) :
    Yields reply s (t.orderFailed r rep) := by
  have hawaits : Yields reply s (t.awaitOrPursue r.tag r.volume) := .never (not_stuck_awaitOrPursue htag fun q hq => (hfound q hq).1)
  unfold State.orderFailed
  split
  · refine Yields.ite h (Yields.ite ?_ ?_)
    · exact Yields.ite h.withdrawPrompt.enter.dropOrderOf.enter (h.withdrawPrompt.enter.retryOrder hasked htag)
    · rw [hkind]
      exact hawaits
  · refine Yields.ite ?_ (Yields.ite h.withdrawPrompt.enter (Yields.ite h.withdrawPrompt.lostVolume (h.withdrawPrompt.retryOrder hasked htag)))
    split
    · rename_i hends
      exact .never fun hstuck => not_stuck_endsWithOrder htag hfound hends hstuck.of_pursue
    · exact hawaits

theorem State.asFound_updRequest (hr : s.request? tag = some r) {f : Request → Request} (htag : ∀ x, (f x).tag = x.tag)
    (hf : ∀ x, (f x).volume = x.volume ∧ (f x).claimed = x.claimed) : (s.updRequest tag f).AsFound r := fun q hq => by
  rw [State.updRequest_request? htag, State.request?_tag hr, hr, Option.map_some, if_pos (State.request?_tag hr)] at hq
  obtain rfl := Option.some.inj hq
  exact ⟨(hf r).1.symm, (hf r).2.symm⟩

theorem Yields.onOrderEnded (h : Yields reply s t) (hasked : reply.asked) : Yields reply s (t.onOrderEnded rep) := by
  refine h.trans (.resting ((Traces.refl t).onOrderEnded hasked) (Keeps.refl t).onOrderEnded fun hrests => ?_)
  unfold State.onOrderEnded
  split
  · exact .refl t
  · rename_i r hr
    obtain ⟨tag, _, hr⟩ := Option.bind_eq_some_iff.mp hr
    obtain rfl := State.request?_tag hr
    obtain ⟨_, htag, hkind, _⟩ := hrests.request_eq hr
    have hended : Yields reply t (t.updRequest r.tag (fun r => { r with order := if r.order = some rep.id then none else r.order })) :=
      (Yields.refl t).updRequest (fun _ => rfl) (fun _ k => k) (fun _ k => ⟨k.volume, k.claimed, k.awaits⟩)
    have hfound : (t.updRequest r.tag (fun r => { r with order := if r.order = some rep.id then none else r.order })).AsFound r :=
      State.asFound_updRequest hr (fun _ => rfl) (fun _ => ⟨rfl, rfl⟩)
    exact Yields.ite (.refl t) (Yields.ite (hended.orderDone hasked htag hfound) (hended.orderFailed hasked htag hkind hfound))

theorem Yields.onOrderRemoved (h : Yields reply s t) : Yields reply s (t.onOrderRemoved rep) := by
  unfold State.onOrderRemoved
  split
  · exact h.updRequest (fun _ => rfl) (fun _ k => k) (fun _ k => ⟨k.volume, k.claimed, k.awaits⟩)
  · exact h

/-! ### The audit -/

theorem State.Rests.askScan_eq (h : s.Rests reply) : s.askScan = s ∨ s.askScan = s.updAudit (fun b => { b with scanOwed := true }) := by
  unfold State.askScan
  rw [show s.service = .interrupted from h.service]
  exact (em _).imp (fun k => if_pos k) (fun k => if_neg k)

theorem Yields.askScan (h : Yields reply s t) : Yields reply s t.askScan := by
  refine h.trans (.resting (Traces.refl t).askScan (Keeps.refl t).askScan fun hrests => ?_)
  rcases hrests.askScan_eq with heq | heq
  · rw [heq]
    exact .refl t
  · rw [heq]
    exact (Yields.refl t).updAudit

theorem Yields.endAudit (h : Yields reply s t) {outcome : AuditOutcome} : Yields reply s (t.endAudit outcome) := h.updAudit.raise

theorem Yields.beginAudit (h : Yields reply s t) {first last : Nat} : Yields reply s (t.beginAudit first last) := h.updAudit.askScan

theorem Yields.finishAbort (h : Yields reply s t) : Yields reply s t.finishAbort := Yields.ite h.endAudit.beginAudit h.endAudit

theorem Yields.planScan (h : Yields reply s t) : Yields reply s t.planScan := Yields.ite h.updAudit.endAudit h.updAudit.askScan

theorem Yields.scanStops (h : Yields reply s t) : Yields reply s (t.scanStops rep) := h.updAudit.finishAbort

theorem Yields.scanEnded (h : Yields reply s t) : Yields reply s (t.scanEnded rep) := by
  unfold State.scanEnded
  split
  · exact h
  · dsimp only
    split
    · exact h.updAudit
    · exact h.updAudit.scanStops
    · refine Yields.ite h.updAudit.updAudit.scanStops (Yields.ite h.updAudit.planScan (Yields.planScan ?_))
      split
      · exact h.updAudit.updAudit
      · exact h.updAudit.updAudit

theorem Yields.scanRemoved (h : Yields reply s t) : Yields reply s (t.scanRemoved rep) := by
  unfold State.scanRemoved
  split
  · exact h
  · dsimp only
    split
    · exact h.updAudit
    · exact h.updAudit.updAudit.finishAbort
    · exact h.updAudit.updAudit

theorem Yields.retryScan (h : Yields reply s t) : Yields reply s t.retryScan := Yields.ite h.askScan h

/-! ### The stations -/

theorem Yields.setImportOwed (h : Yields reply s t) {p : Fin 8} {owed : Bool} : Yields reply s (t.setImportOwed p owed) := h.updStation fun _ => rfl

theorem State.Rests.askImport_eq (h : s.Rests reply) {p : Fin 8} : s.askImport p = s.setImportOwed p true := by
  unfold State.askImport
  rw [if_neg h.not_active]

theorem Yields.askImport (h : Yields reply s t) {p : Fin 8} : Yields reply s (t.askImport p) :=
  h.trans <| .resting (Traces.refl t).askImport (Keeps.refl t).askImport fun hrests => by
    rw [hrests.askImport_eq]
    exact (Yields.refl t).setImportOwed

theorem Yields.testImport (h : Yields reply s t) {p : Fin 8} : Yields reply s (t.testImport p) := Yields.ite h.askImport h.setImportOwed

theorem Yields.testAllImports (h : Yields reply s t) : Yields reply s t.testAllImports := Yields.foldl (fun _ _ k => k.testImport) _ h

theorem Yields.testOwedImports (h : Yields reply s t) : Yields reply s t.testOwedImports :=
  Yields.foldl (fun _ _ k => Yields.ite (Yields.ite k.askImport k.testImport) k) _ h

theorem Yields.reimports (h : Yields reply s t) : Yields reply s t.reimports := by
  unfold State.reimports
  exact Yields.foldl (fun _ _ k => Yields.ite k.askImport k) _ h

theorem Yields.appendTo (h : Yields reply s t) {dest : Place} : Yields reply s (t.appendTo id dest own) := h.updOrder

theorem Yields.stationUnknown (h : Yields reply s t) {p : Fin 8} : Yields reply s (t.askEquipment (.stationUnknown p)) := h.askEquipment (fun _ => nofun)

theorem Yields.importPicked (h : Yields reply s t) {p : Fin 8} : Yields reply s (t.importPicked id a p) := by
  unfold State.importPicked
  refine Yields.notify ?_
  split
  · exact Yields.ite h.stationUnknown h
  · exact h.appendTo
  · split
    · exact h.appendTo
    · split
      · split
        · exact h.appendTo.updRequest (fun _ => rfl) (fun _ k => k) (fun _ k => ⟨k.volume, k.claimed, k.awaits⟩)
        · exact h.appendTo
      · dsimp only
        split
        · exact h.withdraw.notify.appendTo
        · exact h.withdraw.appendTo

theorem Yields.mapStations (h : Yields reply s t) {f : Station → Station} (hf : ∀ x, (f x).wiring = x.wiring) : Yields reply s (t.mapStations f) :=
  h.of_parts (Traces.refl t).mapStations ((Keeps.refl t).mapStations hf) rfl rfl rfl

theorem Yields.importEnded (h : Yields reply s t) : Yields reply s (t.importEnded rep) := by
  have hsilent : Yields reply s (t.unreserveSilently rep.id) := h.mapStations (fun _ => by split <;> rfl)
  have hunpicked {p : Fin 8} : Yields reply s ((t.unreserveSilently rep.id).importUnpicked p) :=
    Yields.ite (Yields.raise (Yields.ite hsilent.setImportOwed hsilent)) hsilent
  have hdone {p : Fin 8} {dest : Option Place} : Yields reply s ((t.unreserveSilently rep.id).importDone p dest) := by
    unfold State.importDone
    split
    · exact Yields.raise (Yields.ite hsilent.stationUnknown hsilent)
    · exact hsilent
    · exact Yields.ite hsilent.raise hsilent
  have hdropped {dest : Option Place} : Yields reply s ((t.unreserveSilently rep.id).importDropped dest) := by
    unfold State.importDropped
    split
    · exact Yields.ite hsilent.raise hsilent
    · exact hsilent
  have htested {w : State} {dest : Option Place} (k : Yields reply s w) : Yields reply s (w.testLeft dest) := by
    unfold State.testLeft
    split
    · exact k.notify
    · exact k
  unfold State.importEnded
  dsimp only
  split
  · exact Yields.ite hunpicked (htested (Yields.notify (Yields.ite hdone hdropped)))
  · exact hsilent

theorem Yields.importRemoved (h : Yields reply s t) : Yields reply s (t.importRemoved rep) := by
  unfold State.importRemoved
  split
  · exact Yields.ite h.setImportOwed h
  · exact h

theorem Yields.reportEnd (h : Yields reply s t) (hasked : reply.asked) : Yields reply s (t.reportEnd rep) := by
  unfold State.reportEnd
  split
  · exact h.scanEnded
  · exact h.importEnded.onOrderEnded hasked
  all_goals exact h.onOrderEnded hasked

theorem Yields.reportRemoved (h : Yields reply s t) : Yields reply s (t.reportRemoved rep) := by
  unfold State.reportRemoved
  split
  · exact h.scanRemoved
  · exact h.importRemoved
  all_goals exact h.onOrderRemoved

end Sys2Proof.Machine
end

section
/-! PROOFS. A request stuck in its put-away: the notices of a step, and what follows each act. -/

namespace Sys2Proof.Machine

variable {s t u : State} {reply : Reply} {a : ArmId} {d : Fin 16} {e n : Nat} {tag : Half} {r q : Request} {o : Order} {id : Nat} {rep : OrderEnd}
variable {own : Option Half}

/-! ### The notices -/

theorem Yields.walk (h : Yields reply s t) : Yields reply s t.walk :=
  h.inert (Traces.refl t).walk (Keeps.refl t).walk (fun hrests => hrests.walk_eq)

theorem Yields.armStepD (h : Yields reply s t) : Yields reply s ((t.armStep a).getD t) := by
  refine h.inert ?_ (Keeps.refl t).armStepD (fun hrests => by rw [hrests.armStep_eq]; rfl)
  cases hu : t.armStep a with
  | none => exact .refl t
  | some u => exact (Traces.refl t).armStep hu

theorem State.enterService_arm {st : SvcState} : (s.enterService st).arm a = s.arm a := by
  unfold State.enterService
  rw [State.raise_arm]
  cases a <;> rfl

/-- An arm that enters HOMING behind a closed door is not unhomed. -/
theorem State.onArmHoming_homing (hdoor : s.mon.doorClosed = true) (hhoming : (s.arm a).state = .homing) :
    ((s.onArmHoming a).arm a).state = .homing := by
  unfold State.onArmHoming
  dsimp only
  rw [if_neg (not_not.mpr hhoming)]
  split
  · rw [if_pos (show (s.enterService .quiescing).mon.doorClosed = true from hdoor), State.enterService_arm]
    exact hhoming
  · exact hhoming

theorem Yields.onArmHoming (h : Yields reply s t) : Yields reply s (t.onArmHoming a) := by
  by_cases hhoming : (t.arm a).state = .homing
  · refine .never fun hstuck => ?_
    have hdoor : t.mon.doorClosed = true := (Keeps.refl (L := noLaw) t).onArmHoming.doorClosed ▸ hstuck.door
    have hunhomed := hstuck.arms a
    rw [State.onArmHoming_homing hdoor hhoming] at hunhomed
    nomatch hunhomed
  · unfold State.onArmHoming
    rw [if_pos hhoming]
    exact h

theorem Yields.take (h : Yields reply s t) (hasked : reply.asked) {n : Notice} : Yields reply s (t.take n) := by
  cases n with
  | walk => exact h.walk
  | driveEmpty d => exact h.walk
  | placed d tag => exact h.onPlaced
  | loaded d tag protect refit => exact h.onLoaded hasked
  | loadedAgain d tag => exact h.onLoadedAgain
  | loadFailed d tag => exact h.onLoadFailed
  | reelReady d tag => exact h.onReelReady hasked
  | reelTaken d volume => exact h.onReelTaken
  | claimLost d tag => exact h.onClaimLost
  | volumeLost d tag => exact h.onVolumeLost
  | orderStarted id => exact h.onOrderStarted
  | orderEnded r => exact h.reportEnd hasked
  | orderRemoved r => exact h.reportRemoved
  | armFree a => exact h.inert (Traces.refl t).armIsFree (Keeps.refl t).armIsFree (fun hrests => hrests.armIsFree_eq)
  | armLook a => exact h.inert (Traces.refl t).armLooks (Keeps.refl t).armLooks (fun hrests => hrests.armLooks_eq)
  | armGo a => exact h.armStepD
  | armHoming a => exact h.onArmHoming
  | armEntered a => exact h.bindUnbound.notify.reimports
  | importPicked id a p => exact h.importPicked
  | importTest p => exact h.testImport
  | importTestAll => exact h.testAllImports
  | room => exact h.retryScan.testOwedImports
  | recovers => exact h.inert (Traces.refl t).recoverDrives (Keeps.refl t).recoverDrives (fun hrests => hrests.recoverDrives_eq)
  | scanRead id slot counts => exact Yields.ite h.updAudit h
  | scanPassed id slot => exact Yields.ite h.updAudit h
  | lostFound tag => exact h.enter
  | retry => exact h.inert (Traces.refl t).retryArms (Keeps.refl t).retryArms (fun hrests => hrests.retryArms_eq)

/-! ### What follows each act -/

theorem Yields.refreshConditions (h : Yields reply s t) : Yields reply s t.refreshConditions :=
  h.of_parts (Traces.refl t).refreshConditions (Keeps.refl t).refreshConditions rfl rfl rfl

/-- A request that waits for the recovery of its volume goes on waiting, or is not stuck. -/
theorem Yields.checkAwaits (h : Yields reply s t) : Yields reply s t.checkAwaits := by
  refine h.trans (.resting (Traces.refl t).checkAwaits (Keeps.refl t).checkAwaits fun hrests => ?_)
  obtain ⟨q, hq, _⟩ := hrests.request
  unfold State.checkAwaits
  rw [hq, List.foldl_cons, List.foldl_nil]
  split
  · exact .refl t
  · refine Yields.ite (.refl t) (.never fun hstuck => ?_)
    have hmem : q ∈ t.ms.queue := hq ▸ List.mem_singleton_self q
    have hawaits := (hstuck.of_pursue.held _ (List.mem_map_of_mem hmem)).awaits
    rw [if_pos rfl] at hawaits
    nomatch hawaits

theorem State.enterService_raised {st : SvcState} : (s.enterService st).port.flags.getLsbD 0 = true :=
  State.raise_flag (e := .service)

/-- The entry to ACTIVE raises SERVICE. -/
theorem not_stuck_enterActive : ¬s.enterActive.Stuck reply := fun h => by
  have hkeeps : Keeps noLaw (s.enterService .active) s.enterActive := by
    unfold State.enterActive
    have hentered := (Keeps.refl (L := noLaw) (s.enterService .active)).setDoorMark (b := false)
    exact Keeps.armsLook (Keeps.retryScan (Keeps.ite (Keeps.askFullAudit hentered.walk.testOwedImports) hentered.walk.testOwedImports))
  exact Bool.false_ne_true ((hkeeps.silent h.silent).symm.trans State.enterService_raised)

theorem Yields.checkService (h : Yields reply s t) : Yields reply s t.checkService := by
  unfold State.checkService
  split
  iterate 2 exact Yields.ite (.never not_stuck_enterActive) h
  · exact Yields.ite (.never fun hstuck => nomatch hstuck.service) h
  all_goals exact h

theorem Yields.follow (h : Yields reply s t) {before : State} : Yields reply s (State.follow before t) := by
  unfold State.follow
  have hfollowed := (h.refreshConditions.testClaims (n := 8)).checkAwaits.checkService
  exact Yields.ite hfollowed.notify.notify hfollowed

theorem Yields.takeNotice (h : Yields reply s t) (hasked : reply.asked) {n : Notice} : Yields reply s (t.takeNotice n) := by
  unfold State.takeNotice
  exact Yields.ite (h.take hasked).follow (h.take hasked).follow.notify

theorem Yields.setNotices (h : Yields reply s t) {l : List Notice} : Yields reply s { t with notices := l } :=
  h.of_parts ((Traces.refl t).of_parts rfl (fun b => by cases b <;> rfl) rfl rfl rfl) (Keeps.refl t).setNotices rfl rfl rfl

/-- Where an act leaves the request stuck, the act itself did. -/
theorem Yields.drain (h : Yields reply s t) (hasked : reply.asked) {fuel : Nat} : Yields reply s (State.drain fuel t) := by
  induction fuel generalizing t with
  | zero => exact h
  | succ fuel ih =>
    unfold State.drain
    split
    · exact h
    · exact ih (h.setNotices.takeNotice hasked)

theorem Yields.settle (hasked : reply.asked) {before : State} : Yields reply s (State.drain Config.fuel ((State.follow before s).notify .retry)) :=
  Yields.drain (Yields.refl s).follow.notify hasked

end Sys2Proof.Machine
end

section
/-! PROOFS. A put-away that ends a RECOVER at the failure limit of its arm: ARM_OUT is issued in the act itself, under the number of the prompt that the act has
withdrawn (O36, O43 and O56). -/

namespace Sys2Proof.Machine

variable {s t u : State} {reply : Reply} {m : OutMsg}

/-! ### The end of a step -/

theorem State.Stuck.of_parts (h : t.Stuck reply) (hsvc : s.svc = t.svc) (hmon : s.mon = t.mon) (hsch : s.sch = t.sch) (hdrv : s.drv = t.drv)
    (hdir : s.dir = t.dir) (hms : s.ms = t.ms) (hflags : s.port.flags = t.port.flags) (hreplies : s.port.replyOwed = t.port.replyOwed) :
    s.Stuck reply where
  service := hsvc ▸ h.service
  silent := hflags ▸ h.silent
  replies := hreplies ▸ h.replies
  door := hmon ▸ h.door
  arms b := State.arm_of_sch hsch ▸ h.arms b
  drives c := by
    unfold State.drive
    exact hdrv ▸ h.drives c
  awaited := by
    unfold State.locOf State.vol?
    exact hdir ▸ h.awaited
  carried := by
    unfold State.locOf State.vol?
    exact hdir ▸ h.carried
  request := hms ▸ h.request
  claim := by
    unfold State.drive
    exact hdrv ▸ h.claim
  held := hms ▸ h.held

/-- An act that leaves no prompt 1 naming an arm, and the request stuck once the other blocks have acted, has had no such prompt issued. -/
theorem clear_afterAct (hasked : reply.asked) (hclear : u.Clear) (h : (s.afterAct u).Stuck reply) : (s.afterAct u).Clear :=
  have hsettled : (State.drain Config.fuel ((State.follow s u).notify .retry)).Stuck reply := h.of_parts rfl rfl rfl rfl rfl rfl rfl rfl
  (Yields.settle hasked hsettled).2 hclear

theorem State.Clear.panelPump (h : s.Clear) : s.panelPump.Clear := by
  unfold State.panelPump
  split
  · exact h
  · split
    · exact h
    · split
      · exact h
      · split
        · exact h
        · split
          · intro p hp hnumber
            obtain ⟨x, hx, rfl⟩ := List.mem_map.mp hp
            split at hnumber <;> rename_i hx1
            · rw [if_pos hx1]
              exact h x hx hnumber
            · rw [if_neg hx1]
              exact h x hx hnumber
          · exact h

theorem State.Stuck.of_panelPump (h : s.panelPump.Stuck reply) : s.Stuck reply := by
  have hrest := State.panelPump_rest (s := s)
  refine h.of_parts ?_ ?_ ?_ ?_ ?_ ?_ ?_ ?_
  all_goals
    conv_lhs => rw [← hrest]

theorem State.Stuck.of_refreshConditions (h : s.refreshConditions.Stuck reply) : s.Stuck reply := ((Yields.refl s).refreshConditions h).1

theorem State.finishStep_of_line (h : s.refreshConditions.LineSettled) : s.finishStep = s.refreshConditions.panelPump.refreshConditions := by
  unfold State.finishStep
  rw [State.pump_eq h]

theorem clear_finishStep (hasked : reply.asked) (hclear : u.Clear) (hsending : s.port.sending.isSome = true) (hbuffer : s.port.buffer = [])
    (h : (s.afterAct u).finishStep.Stuck reply) : (s.afterAct u).finishStep.Clear := by
  have hline : (s.afterAct u).refreshConditions.LineSettled := by
    refine ⟨fun hnone => ?_, ?_⟩
    · rw [show (s.afterAct u).refreshConditions.port.sending = s.port.sending from rfl] at hnone
      rw [hnone] at hsending
      nomatch hsending
    · unfold State.mayTake
      rw [show (s.afterAct u).refreshConditions.port.buffer = s.port.buffer from rfl, hbuffer]
      exact Bool.and_false _
  rw [State.finishStep_of_line hline] at h ⊢
  exact State.Clear.panelPump (s := (s.afterAct u).refreshConditions)
    (clear_afterAct hasked hclear h.of_refreshConditions.of_panelPump.of_refreshConditions)

theorem State.Clear.sends (h : s.Clear) : (s.refreshConditions.sends [m]).Clear := h

theorem State.Stuck.of_sends (h : (s.refreshConditions.sends [m]).Stuck reply) : s.Stuck reply :=
  State.Stuck.of_refreshConditions (h.of_parts rfl rfl rfl rfl rfl rfl rfl rfl)

theorem clear_sends (hasked : reply.asked) (hclear : u.Clear) (h : ((s.afterAct u).refreshConditions.sends [m]).panelPump.Stuck reply) :
    ((s.afterAct u).refreshConditions.sends [m]).panelPump.Clear :=
  (clear_afterAct hasked hclear h.of_panelPump.of_sends).sends.panelPump

theorem State.clear_of_prompt? (h : s.prompt? 1 = none) : s.Clear := fun p hp hnumber => by
  have hno := List.find?_eq_none.mp h p hp
  rw [hnumber] at hno
  exact absurd rfl hno

/-! ### The end of a step, computed -/

/-- The step leaves the request stuck, and an ARM_OUT prompt of number 1. -/
def State.showsArmOut (s : State) (reply : Reply) : Bool :=
  decide (s.svc.state = .interrupted ∧ s.port.flags.getLsbD 0 = false ∧ s.port.replyOwed = [] ∧ s.mon.doorClosed = true) &&
  decide ((s.arm .armA).state = .unhomed ∧ (s.arm .armB).state = .unhomed) &&
  decide (∀ c, (s.drive c).state = .loaded ∧ (s.drive c).volume ≠ none) &&
  decide (s.locOf 2 = some (.inArm .armB) ∧ s.locOf 3 = some (.inArm .armB) ∧ (s.drive 0).claimTag = some 7) &&
  decide (s.ms.queue.length = 1 ∧ ∀ q ∈ s.ms.queue, (q.tag = 7 ∧ q.kind = .mount ∧ q.pending = some reply) ∧
    q.volume = some 3 ∧ q.claimed = some 0 ∧ q.awaitVolume = some 2) &&
  decide (∃ p ∈ s.pr.list, p.number = 1 ∧ p.arm ≠ none)

theorem State.showsArmOut_spec (h : s.showsArmOut reply = true) : s.Stuck reply ∧ ¬s.Clear := by
  unfold State.showsArmOut at h
  simp only [Bool.and_eq_true, decide_eq_true_eq] at h
  obtain ⟨⟨⟨⟨⟨⟨hservice, hsilent, hreplies, hdoor⟩, harmA, harmB⟩, hdrives⟩, hawaited, hcarried, hclaim⟩, hlength, hqueue⟩, p, hp, hnumber, harm⟩ := h
  obtain ⟨q, hq⟩ := List.length_eq_one_iff.mp hlength
  refine ⟨⟨⟨hservice, hsilent, hreplies, hdoor, fun b => ?_, fun c => ⟨(hdrives c).1, (hdrives c).2⟩, hawaited, hcarried, q, hq, ?_⟩, hclaim, fun x hx => ?_⟩,
    fun hclear => harm (hclear p hp hnumber)⟩
  · cases b
    · exact harmA
    · exact harmB
  · exact (hqueue q (hq ▸ List.mem_singleton_self q)).1
  · obtain ⟨_, hvolume, hclaimed, hawaits⟩ := hqueue x hx
    exact ⟨hvolume, hclaimed, hawaits⟩

/-- An instruction ends its step so. -/
def endsInArmOut (c : Instr) (s : State) (reply : Reply) : Bool :=
  match exec c s with
  | .next t => t.showsArmOut reply
  | .fault _ | .refused _ => false

theorem endsInArmOut_spec {c : Instr} (h : endsInArmOut c s reply = true) (hexec : exec c s = .next t) : t.Stuck reply ∧ ¬t.Clear := by
  unfold endsInArmOut at h
  rw [hexec] at h
  exact State.showsArmOut_spec h

/-! ### The state -/

/-- A RECOVER that arm A runs. -/
def runningRecover : Order where
  id := 9
  kind := .recover
  source := none
  dest := none
  volume := none
  tag := none
  bound := some .armA
  legs := []
  next := 0
  state := .running
  cut := false
  door := false
  started := true
  putBack := none

/-- The claim of request 7. -/
def claimOfSeven : Claim where
  tag := some 7
  account := 0
  stamp := 0
  reserved := false
  write := false
  scratch := false
  assisted := false
  ringHold := false
  manual := none
  named := none
  detached := false

/-- A volume in arm B. -/
def volumeInArmB : Volume where
  serial := []
  home := none
  loc := .inArm .armB
  use := .own
  density := none
  ring := .notFitted
  mounts := 0
  lastMount := none
  errors := 0
  suspect := false

/-- A MOUNT prompted while it was MOVING, whose order is that RECOVER. -/
def promptedMount : Request where
  tag := 7
  kind := .mount
  fields := ⟨7, [], 0, 0, 0, 0, 0, []⟩
  serial := []
  pool := 0
  drive := none
  write := false
  verify := false
  density := none
  account := 0
  priority := 0
  arrival := 0
  retries := 0
  state := .prompted
  resume := some .moving
  volume := some 3
  claimed := some 0
  order := some 9
  prompt := some 1
  reason := none
  pending := none
  outcome := none
  timer := some 5
  proceeded := none
  after := none
  recOutcome := .failed
  toStation := false
  awaitVolume := some 2

/-- Its prompt, of number 1. -/
def promptOfSeven (kind : PromptKind) : Prompt where
  number := 1
  kind := kind
  tag := some 7
  volume := none
  drive := none
  arm := none
  position := none
  template := 0
  issued := 0
  level := 0
  acked := false
  timer := none
  sub := none
  lineOwed := false

/-- An interrupted library whose arm A, at the failure limit, runs the RECOVER of the prompted MOUNT. The put-away of the MOUNT ends that order, so ARM_OUT is
asked for, and takes the number of the prompt just withdrawn. The other blocks cannot have issued it after the act: both arms end unhomed and so were
unhomed all along (an order on an unhomed arm, which the statements do not exclude), and none of them asks for ARM_OUT for an unhomed arm while the
request is left stuck. -/
def recoverAtLimit (kind : PromptKind) : State :=
  { State.reset with
    svc := ⟨.interrupted, false, false, false⟩
    dir := { State.reset.dir with entries := [(2, volumeInArmB), (3, volumeInArmB)] }
    drv := ⟨Vector.ofFn (fun d => { Drive.powerOn ⟨false, false, false⟩ with
      state := .loaded, volume := some 0, claim := if d = 0 then some claimOfSeven else none })⟩
    ms := ⟨[promptedMount]⟩
    sch := { State.reset.sch with armA := { Arm.powerOn 0 with order := some 9, limitMark := true }, pool := [runningRecover] }
    pr := { State.reset.pr with list := [promptOfSeven kind], sending := some [] } }

/-- The same, with a frame on the system line. -/
def recoverAtLimitSending (kind : PromptKind) : State :=
  let s := recoverAtLimit kind
  { s with port := { s.port with sending := some ⟨.notice, 0⟩ } }

/-- Refutes O56: the wait timer of a PROMPTED request expires, its prompt 1 is withdrawn, and the put-away of the same act has an ARM_OUT prompt issued, again of number 1. -/
theorem not_driveTimers : ¬Obligations.DriveTimers := fun h => by
  obtain ⟨_, _, _, _, _, _, hwait⟩ := h
  obtain ⟨u, hexec, _, hprompt⟩ := hwait (recoverAtLimitSending .manualMount) 7 promptedMount 5 rfl rfl
  obtain ⟨hstuck, hnot⟩ := endsInArmOut_spec (reply := .failed .timedOut) (by decide +kernel) hexec
  exact hnot (clear_finishStep (Or.inr (Or.inl rfl)) (State.clear_of_prompt? (hprompt 1 rfl rfl)) rfl rfl hstuck)

/-- Refutes O43: the RING_NEEDED CANCEL takes prompt 1 off the list, and the put-away of the same act has an ARM_OUT prompt issued, again of number 1. -/
theorem not_repliesThatActOnADrive : ¬Obligations.RepliesThatActOnADrive := fun h => by
  obtain ⟨hring, _⟩ := h (recoverAtLimitSending .ringNeeded) 1 (promptOfSeven .ringNeeded) 7 promptedMount (by decide) rfl rfl rfl
  obtain ⟨u, hexec, hprompt, _⟩ := hring rfl
  obtain ⟨hstuck, hnot⟩ := endsInArmOut_spec (reply := .failed .ring) (by decide +kernel) hexec
  exact hnot (clear_finishStep (Or.inr (Or.inr rfl)) (State.clear_of_prompt? (hprompt rfl)) rfl rfl hstuck)

theorem recoverAtLimit_free : (recoverAtLimit .manualMount).finishStep.Free := by decide +kernel

/-- Refutes O36: the CANCEL of a PROMPTED request withdraws its prompt 1, and the put-away of the same act has an ARM_OUT prompt issued, again of number 1. -/
theorem not_cancelCommand : ¬Obligations.CancelCommand := fun h => by
  obtain ⟨_, _, hlive⟩ := h (recoverAtLimit .manualMount).finishStep 7 recoverAtLimit_free
  obtain ⟨_, _, haccepted⟩ := hlive promptedMount (by decide +kernel) (by decide +kernel)
  obtain ⟨u, hexec, _, _, _, hprompted⟩ := haccepted nofun rfl
  obtain ⟨_, hprompt⟩ := (hprompted rfl).2 1 rfl (by decide +kernel)
  obtain ⟨hstuck, hnot⟩ := endsInArmOut_spec (reply := .cancelled) (by decide +kernel) hexec
  exact hnot (clear_sends (Or.inl rfl) (State.clear_of_prompt? (hprompt (by decide +kernel))) hstuck)

end Sys2Proof.Machine
end
